-- ==== Sys2Proof/Word.lean ====
section
/-! DEFINITION. The word types of the machine (spec/00_scope.md R3, spec/03_lines_and_encodings.md R33). -/

namespace Sys2Proof

/-- A byte of storage. -/
abbrev Byte := BitVec 8

/-- A 64-bit value: a general register, a pc, an owner address (R40, R115). -/
abbrev Word := BitVec 64

/-- A 6-bit register field (R33). -/
abbrev RegNum := BitVec 6

/-- The stall count S of a head (R31). -/
abbrev Stall := BitVec 3

end Sys2Proof
end

