-- ==== Sys2Proof/Config.lean ====
section
/-! DEFINITION. What one module fixes (capacities and defaults the spec states) and the free values: constants
without a body, of which nothing can be proved. -/

namespace Sys2Proof.Config

/-- Dies of the module (R18). -/
abbrev dies : Nat := 8
/-- Berths of a die (R9). -/
abbrev strips : Nat := 5
/-- Tiles of a berth (R9). -/
abbrev berthTiles : Nat := 48
/-- Berths of the module (R9). -/
abbrev berths : Nat := 40
/-- Active tiles (R18). -/
abbrev tiles : Nat := 1920
/-- Cores (R18). -/
abbrev cores : Nat := 7680
/-- Architectural thread slots (R18). -/
abbrev threads : Nat := 61440
/-- Owner tags 1 to 40 (R10). -/
abbrev owners : Nat := 40
/-- Bytes of a tile store that the window reaches: 24 banks of 64 KiB (R116). -/
abbrev tileStore : Nat := 0x180000
/-- Capacity of HBM: 768 GiB (R14). Physical addresses from here up are UALink windows (DESIGN CHOICE, entry 7). -/
abbrev hbmBytes : Nat := 768 * 2 ^ 30
/-- Sluice tick in timebase ticks (R306). -/
abbrev sluiceTicks : Nat := 250
/-- Heartbeat and resume limit of a promotion, in ticks (R364). -/
abbrev promoteTicks : Nat := 25000

/-- Falcon-1024 verification of a signature over a digest with the key of monitor ROM (R386, R387, R388). The spec
names the scheme and gives neither key nor definition: UNVERIFIED, a free value (entry 9). -/
opaque falconVerify : List Byte → List Byte → Bool

/-- A signature that die `d` makes over a transcript with its identity key (R388): a free value (entry 9). -/
opaque falconSign : Nat → List Byte → List Byte

/-- The random source of a die: draw number n (R391): a free value (entry 9). -/
opaque randomKey : Nat → BitVec 512

/-- What a device behind a PCIe root port answers to a read of one of its registers, for the draw numbered n (R392): the
spec gives no device, so a free value (entry 11). -/
opaque deviceData : Nat → BitVec 512

/-- Byte k of a frame that was written under one owner's key and is read under another's, for the draw numbered n (R391): a
free value (entry 100). -/
opaque recoded : Nat → Nat → BitVec 8

/-- The capacity that Firn writes to the park queue of an owner, as a power of two (R294), where the field holds none: the
spec does not say how Firn chooses it, so a free value (entry 112). -/
opaque parkSlots : Nat → Nat

/-- The extended algorithm entries of Falcon-1024 (0) and SHAKE256 (1) in an SPDM response (R388), which the spec does not
number: free values (entry 9). -/
opaque algorithmId : Nat → BitVec 32

/-- The certificate chain of die `d` (R388): a free value (entry 9). -/
opaque certificate : Nat → List Byte

/-- The bytes of monitor ROM (R388 measurement 1): a free value (entry 9). -/
opaque monitorRom : List Byte

/-- A full TLB (R124) or a full line store (R81) drops some entry for a new one; which one the spec does not say: the
free value, for the draw numbered n, is the index of the entry dropped (entry 8). -/
opaque victim : Nat → Nat

end Sys2Proof.Config
end

