-- ==== Sys2Proof/Syntax.lean ====
section
/-! DEFINITION. The instruction syntax: one constructor per row of spec/opcode_table.json. An instruction's
constructor holds its operands as the encoding has them, the stall count first; an event's constructor names the
parties it concerns (spec/95_what_each_step_holds.md). -/

namespace Sys2Proof

/-- Access width of loads and stores, X = 0 to 3 (R52). -/
inductive Width where | b | h | w | d
  deriving DecidableEq, Repr

/-- Conditions of `bc` and `set`, X = 0 to 5 (R89). -/
inductive Cond where | eq | ne | lt | ge | ltu | geu
  deriving DecidableEq, Repr

/-- Conditions of `bcz`, X = 0 to 5 (R89). -/
inductive ZCond where | eq | ne | lt | ge | le | gt
  deriving DecidableEq, Repr

/-- Kinds of `bcnt` (R109). -/
inductive BcntKind where | pop | clz | ctz
  deriving DecidableEq, Repr

/-- Kinds of `ext` (R111). -/
inductive ExtKind where | b | h | w | bu | hu | wu
  deriving DecidableEq, Repr

/-- Fields of `sget` (R140). -/
inductive SegField where | base | limit | code
  deriving DecidableEq, Repr

/-- Access paths (R55). -/
inductive Path where | thread | vector | matrix | copy | floe | ext
  deriving DecidableEq, Repr

/-- Operations of `amo` (R160). -/
inductive AmoOp where | add | and | or | xor | min | max | minu | maxu
  deriving DecidableEq, Repr

/-- Conditions of `sigwait` and of a WAIT packet (R165, R381). -/
inductive SigCond where | eq | ne | ge | lt
  deriving DecidableEq, Repr

/-- Events of `bufset` (R194). -/
inductive BufEvent where | empty | full | drain
  deriving DecidableEq, Repr

/-- Operations of `vun` (R232). -/
inductive VunOp where | abs | neg | not | sqrt
  deriving DecidableEq, Repr

/-- Conditions of `vcmp` (R234). -/
inductive VCond where | eq | ne | lt | le | gt | ge
  deriving DecidableEq, Repr

/-- Operations of `vred` and `vscan` (R236). -/
inductive VRedOp where | add | min | max
  deriving DecidableEq, Repr

/-- Functions of `vfn` (R240). -/
inductive VfnOp where | rcp | rsqrt | exp2 | log2
  deriving DecidableEq, Repr

/-- Operations of `vmask` (R245). -/
inductive VMaskOp where | and | or | xor | not
  deriving DecidableEq, Repr

/-- Operating-point hints of `phase` (R336). -/
inductive Hint where | c | m | w
  deriving DecidableEq, Repr

/-- A line-relative target: signed line offset and head index (R36). -/
structure Target where
  off : BitVec 22
  hd  : BitVec 5
  deriving DecidableEq, Repr

/-- A segment-relative operand of layout M (14-bit displacement), N (40-bit) or R59 (38-bit) (R37, R59). -/
structure MemOp (n : Nat) where
  disp : BitVec n
  sc   : Bool
  kw   : BitVec 2
  seg  : BitVec 3
  off  : RegNum
  deriving DecidableEq, Repr

/-- The rounding fields of a vector instruction that converts (R38). -/
structure VRnd where
  nsat  : Bool
  flush : Bool
  rnd   : BitVec 2
  deriving DecidableEq, Repr

/-- The rounding fields of a vector instruction of arithmetic (R228: rnd, flush). -/
structure FRnd where
  flush : Bool
  rnd   : BitVec 2
  deriving DecidableEq, Repr

/-- The operand of a vector memory instruction (R227). -/
structure VMem where
  disp : BitVec 32
  seg  : BitVec 3
  g    : RegNum
  deriving DecidableEq, Repr

/-- The identity bytes that Firn writes to a die's wake or convert register (R358). -/
structure WakeId where
  ident     : BitVec 32
  owner     : BitVec 8
  requester : BitVec 8
  channel   : BitVec 8
  deriving DecidableEq, Repr

/-- The parameters of Sluice that Firn may lower (R306), and the other registers Firn writes that have no
row of their own: inlet creation (R365), page-table roots (R125), frame owners (R390), locks (R127). -/
inductive FirnReg where
  /-- A Sluice parameter 0 to 7 of R306, in thousandths. -/
  | sluice (i : Fin 8) (v : Nat)
  /-- An S hart's report to the watchdog (R362). -/
  | report (die hart : Nat)
  /-- Creation of an inlet (R365): id, owner, n, priority, home die, ring, control block, notify key. -/
  | inlet (id owner n prio die : Nat) (ring block : Word) (key : BitVec 256)
  /-- An owner's page-table root (R125). -/
  | root (owner : Nat) (phys : BitVec 52)
  /-- An owner's trap queue (R347). -/
  | trapQueue (owner : Nat) (block : Word)
  /-- An owner's trap policy (R359). -/
  | trapPolicy (owner : Nat) (agent : Bool)
  /-- The owner set deterministic (R334). -/
  | deterministic (owner : Nat) (on : Bool)
  /-- The frame-owner map entry of a 4 KiB frame (R390). -/
  | frameOwner (frame owner : Nat)
  /-- A lock-map entry (R127). -/
  | lock (frame : Nat)
  deriving DecidableEq, Repr

/-- What a requester of SPDM brings with its request (R388): opaque bytes of the request. -/
abbrev Bytes := List Byte

/-- The rows of spec/opcode_table.json. In the instructions `s` is the stall count S of the head, `w` chooses the
32-bit form, `d` the destination field, `a b c` the source fields. -/
inductive Instr where
  -- control class (R56)
  | nop (l : BitVec 2) (s : Stall) (x : BitVec 3) (t : BitVec 64)
  | rx
  | br (s : Stall) (t : Target)
  | bc (s : Stall) (c : Cond) (a b : RegNum) (t : Target)
  | bcz (s : Stall) (c : ZCond) (a : RegNum) (t : Target)
  | call (s : Stall) (t : Target)
  | callr (s : Stall) (a : RegNum)
  | jr (s : Stall) (a : RegNum)
  | ret (s : Stall)
  | loop (s : Stall) (lv : Bool) (a : RegNum) (t : Target)
  | brot (s : Stall)
  | halt (s : Stall)
  | yield (s : Stall)
  | pwait (s : Stall) (a : RegNum)
  | setrb (s : Stall) (n : BitVec 3)
  | getrb (s : Stall) (d : RegNum)
  | isync (s : Stall)
  | ldpc (s : Stall) (d : RegNum) (t : Target)
  | tbr (s : Stall) (d : RegNum)
  -- integer and address class (R57)
  | add (s : Stall) (w : Bool) (d a b : RegNum)
  | sub (s : Stall) (w : Bool) (d a b : RegNum)
  | addiC (s : Stall) (w : Bool) (d a : RegNum) (n : BitVec 14)
  | addiD (s : Stall) (w : Bool) (d a : RegNum) (n : BitVec 40)
  | mul (s : Stall) (w : Bool) (d a b : RegNum)
  | mulh (s : Stall) (w : Bool) (d a b : RegNum)
  | mulhu (s : Stall) (w : Bool) (d a b : RegNum)
  | mad (s : Stall) (w : Bool) (d a b c : RegNum)
  | div (s : Stall) (w : Bool) (d a b : RegNum)
  | divu (s : Stall) (w : Bool) (d a b : RegNum)
  | rem (s : Stall) (w : Bool) (d a b : RegNum)
  | remu (s : Stall) (w : Bool) (d a b : RegNum)
  | and (s : Stall) (w : Bool) (d a b : RegNum)
  | or (s : Stall) (w : Bool) (d a b : RegNum)
  | xor (s : Stall) (w : Bool) (d a b : RegNum)
  | andn (s : Stall) (w : Bool) (d a b : RegNum)
  | shl (s : Stall) (w : Bool) (d a b : RegNum)
  | shr (s : Stall) (w : Bool) (d a b : RegNum)
  | sar (s : Stall) (w : Bool) (d a b : RegNum)
  | rol (s : Stall) (w : Bool) (d a b : RegNum)
  | min (s : Stall) (w : Bool) (d a b : RegNum)
  | max (s : Stall) (w : Bool) (d a b : RegNum)
  | minu (s : Stall) (w : Bool) (d a b : RegNum)
  | maxu (s : Stall) (w : Bool) (d a b : RegNum)
  | set (s : Stall) (c : Cond) (d a b : RegNum)
  | sel (s : Stall) (d a b c : RegNum)
  | bcnt (s : Stall) (k : BcntKind) (d a : RegNum)
  | bext (s : Stall) (w : Bool) (d a : RegNum) (pos len1 : BitVec 6)
  | bins (s : Stall) (w : Bool) (d a : RegNum) (pos len1 : BitVec 6)
  | liC (s : Stall) (d : RegNum) (n : BitVec 14)
  | liD (s : Stall) (d : RegNum) (n : BitVec 40)
  | liHi (s : Stall) (d : RegNum) (n : BitVec 24)
  | mov (s : Stall) (d a : RegNum)
  | ext (s : Stall) (k : ExtKind) (d a : RegNum)
  | abs (s : Stall) (w : Bool) (d a : RegNum)
  -- memory class (R58)
  | ldM (s : Stall) (z : Width) (d : RegNum) (m : MemOp 14)
  | ldN (s : Stall) (z : Width) (d : RegNum) (m : MemOp 40)
  | lduM (s : Stall) (z : Width) (d : RegNum) (m : MemOp 14)
  | lduN (s : Stall) (z : Width) (d : RegNum) (m : MemOp 40)
  | stM (s : Stall) (z : Width) (a : RegNum) (m : MemOp 14)
  | stN (s : Stall) (z : Width) (a : RegNum) (m : MemOp 40)
  | ldp (s : Stall) (dbl : Bool) (d d2 : RegNum) (m : MemOp 40)
  | stp (s : Stall) (dbl : Bool) (a a2 : RegNum) (m : MemOp 40)
  | leaM (s : Stall) (d : RegNum) (m : MemOp 14)
  | leaN (s : Stall) (d : RegNum) (m : MemOp 40)
  | sset (s : Stall) (n : BitVec 3) (a b : RegNum) (code : BitVec 6)
  | sget (s : Stall) (f : SegField) (d : RegNum) (n : BitVec 3)
  | sadj (s : Stall) (lim : Bool) (n : BitVec 3) (a : RegNum)
  | fence (s : Stall)
  | xfence (s : Stall) (p q : Path)
  | cwait (s : Stall) (k : BitVec 2)
  | bfmt (s : Stall) (bank fmt : BitVec 5)
  | bfget (s : Stall) (d : RegNum) (bank : BitVec 5)
  -- atomic and synchronisation class (R60)
  | amo (s : Stall) (op : AmoOp) (dbl : Bool) (d a : RegNum) (m : MemOp 38)
  | swap (s : Stall) (dbl : Bool) (d a : RegNum) (m : MemOp 38)
  | cas (s : Stall) (dbl : Bool) (d a : RegNum) (m : MemOp 38)
  | fadd (s : Stall) (dbl : Bool) (d a : RegNum) (m : MemOp 38)
  | dadd (s : Stall) (dbl : Bool) (a : RegNum) (m : MemOp 38)
  | sigupM (s : Stall) (set : Bool) (a : RegNum) (m : MemOp 14)
  | sigupN (s : Stall) (set : Bool) (a : RegNum) (m : MemOp 40)
  | sigwait (s : Stall) (c : SigCond) (d a : RegNum) (m : MemOp 40)
  | bar (s : Stall)
  | barReset (s : Stall)
  | barto (s : Stall) (d a : RegNum)
  -- queue and copy class (R61)
  | qpoll (s : Stall) (d a : RegNum)
  | qcnt (s : Stall) (d a : RegNum)
  | rput (s : Stall) (a b : RegNum) (reg : BitVec 14)
  | cpy (s : Stall) (ch : BitVec 2) (cf : Bool) (buf len : RegNum) (m : MemOp 40)
  | cpy2 (s : Stall) (ch : BitVec 2) (cf : Bool) (buf a b c : RegNum) (seg : BitVec 3)
  | cpyg (s : Stall) (ch : BitVec 2) (cf : Bool) (buf a b c : RegNum) (seg : BitVec 3)
  | cpys (s : Stall) (ch : BitVec 2) (cf : Bool) (buf a b c : RegNum) (seg : BitVec 3)
  | bufdecl (s : Stall) (buf len : RegNum) (m : MemOp 40)
  | bufset (s : Stall) (e : BufEvent) (buf : BitVec 5)
  | bufget (s : Stall) (d : RegNum) (buf : BitVec 5)
  | cwp (s : Stall) (ch : BitVec 2) (d : RegNum)
  | chbind (s : Stall) (out : Bool) (d : RegNum)
  -- vector class (R62)
  | vld (s : Stall) (fmt : BitVec 4) (wd : BitVec 3) (m : VMem) (mask : BitVec 2) (r : VRnd)
  | vst (s : Stall) (fmt : BitVec 4) (wa : BitVec 3) (m : VMem) (mask : BitVec 2) (r : VRnd)
  | vldg (s : Stall) (fmt : BitVec 4) (wd wb : BitVec 3) (m : VMem) (mask : BitVec 2) (r : VRnd)
  | vsts (s : Stall) (fmt : BitVec 4) (wa wb : BitVec 3) (m : VMem) (mask : BitVec 2) (r : VRnd)
  | vadd (s : Stall) (fmt : BitVec 4) (wd wa wb : BitVec 3) (mask : BitVec 2) (r : FRnd)
  | vsub (s : Stall) (fmt : BitVec 4) (wd wa wb : BitVec 3) (mask : BitVec 2) (r : FRnd)
  | vmul (s : Stall) (fmt : BitVec 4) (wd wa wb : BitVec 3) (mask : BitVec 2) (r : FRnd)
  | vfma (s : Stall) (fmt : BitVec 4) (wd wa wb wc : BitVec 3) (mask : BitVec 2) (r : FRnd)
  | vmin (s : Stall) (fmt : BitVec 4) (wd wa wb : BitVec 3) (mask : BitVec 2) (flush : Bool)
  | vmax (s : Stall) (fmt : BitVec 4) (wd wa wb : BitVec 3) (mask : BitVec 2) (flush : Bool)
  | vun (s : Stall) (op : VunOp) (fmt : BitVec 4) (wd wa : BitVec 3) (mask : BitVec 2) (r : FRnd)
  | vcvt (s : Stall) (dst src : BitVec 4) (part : BitVec 3) (wd wa : BitVec 3) (mask : BitVec 2) (r : VRnd)
  | vcmp (s : Stall) (c : VCond) (fmt : BitVec 4) (mk : BitVec 2) (wa wb : BitVec 3) (mask : BitVec 2) (flush : Bool)
  | vsel (s : Stall) (fmt : BitVec 4) (wd wa wb : BitVec 3) (mask : BitVec 2)
  | vred (s : Stall) (op : VRedOp) (fmt : BitVec 4) (g : RegNum) (wa : BitVec 3) (mask : BitVec 2) (r : FRnd)
  | vscan (s : Stall) (op : VRedOp) (fmt : BitVec 4) (wd wa : BitVec 3) (mask : BitVec 2) (r : FRnd)
  | vperm (s : Stall) (fmt : BitVec 4) (wd wa wb : BitVec 3) (mask : BitVec 2)
  | vbcast (s : Stall) (fmt : BitVec 4) (wd : BitVec 3) (g : RegNum) (mask : BitVec 2)
  | vdot (s : Stall) (fmt : BitVec 4) (lg : BitVec 4) (wd wa wb : BitVec 3) (mask : BitVec 2) (r : FRnd)
  | vfn (s : Stall) (op : VfnOp) (fmt : BitVec 4) (wd wa : BitVec 3) (mask : BitVec 2) (flush : Bool)
  | vand (s : Stall) (fmt : BitVec 4) (wd wa wb : BitVec 3) (mask : BitVec 2)
  | vor (s : Stall) (fmt : BitVec 4) (wd wa wb : BitVec 3) (mask : BitVec 2)
  | vxor (s : Stall) (fmt : BitVec 4) (wd wa wb : BitVec 3) (mask : BitVec 2)
  | vshl (s : Stall) (fmt : BitVec 4) (wd wa wb : BitVec 3) (mask : BitVec 2)
  | vshr (s : Stall) (arith : Bool) (fmt : BitVec 4) (wd wa wb : BitVec 3) (mask : BitVec 2)
  | vrand (s : Stall) (fmt : BitVec 4) (wd : BitVec 3) (g : RegNum) (mask : BitVec 2)
  | vins (s : Stall) (fmt : BitVec 4) (wd : BitVec 3) (g : RegNum) (lane : BitVec 8)
  | vext (s : Stall) (fmt : BitVec 4) (g : RegNum) (wa : BitVec 3) (lane : BitVec 8)
  | vmask (s : Stall) (op : VMaskOp) (mk ma mb : BitVec 2)
  -- matrix class (R63)
  | mlease (s : Stall) (n : BitVec 14)
  | mrel (s : Stall)
  | mldbM (s : Stall) (m : MemOp 14)
  | mldbN (s : Stall) (m : MemOp 40)
  | mzero (s : Stall)
  | mmaM (s : Stall) (af : BitVec 3) (ds8 : Bool) (m : MemOp 14)
  | mmaN (s : Stall) (af : BitVec 3) (ds8 : Bool) (m : MemOp 40)
  | mmas (s : Stall) (af : BitVec 3) (ds8 : Bool) (a : RegNum) (m : MemOp 40)
  | mdrainM (s : Stall) (bias : Bool) (m : MemOp 14)
  | mdrainN (s : Stall) (bias : Bool) (m : MemOp 40)
  | mscale (s : Stall) (a : RegNum)
  | mstat (s : Stall) (d : RegNum)
  | mwait (s : Stall)
  -- task class (R64)
  | spawn (s : Stall) (a b : RegNum) (t : Target)
  | tjoin (s : Stall)
  | tret (s : Stall)
  | waitw (s : Stall)
  | waitwS (s : Stall)
  | tpost (s : Stall) (a b : RegNum) (t : Target)
  | depsetM (s : Stall) (a : RegNum) (m : MemOp 14)
  | depsetN (s : Stall) (a : RegNum) (m : MemOp 40)
  | depdecM (s : Stall) (m : MemOp 14)
  | depdecN (s : Stall) (m : MemOp 40)
  | tcount (s : Stall) (d : RegNum)
  -- floe class (R65)
  | flnew (s : Stall) (d a : RegNum)
  | flput (s : Stall) (z : Width) (a b : RegNum) (off : BitVec 12)
  | flget (s : Stall) (z : Width) (d a : RegNum) (off : BitVec 12)
  | flgetArg (s : Stall) (d a : RegNum)
  | flgetHdr (s : Stall) (d a : RegNum) (f : BitVec 6)
  | flsend (s : Stall) (a : RegNum)
  | flrecv (s : Stall) (d : RegNum)
  | flnext (s : Stall) (a : RegNum)
  | flrw (s : Stall) (a b : RegNum) (k : BitVec 3)
  | flins (s : Stall) (a b : RegNum) (k : BitVec 3)
  | fldel (s : Stall) (a : RegNum) (k : BitVec 3)
  | flpark (s : Stall) (a : RegNum)
  | flresume (s : Stall) (a : RegNum)
  | fldrop (s : Stall) (a : RegNum)
  -- power and drift class, system class (R66)
  | phase (s : Stall) (k : Hint)
  | pcnt (s : Stall) (stagger : Bool) (d : RegNum)
  | dstate (s : Stall) (pause : Bool) (d : RegNum)
  | trap (s : Stall) (code : BitVec 14)
  | sethnd (s : Stall) (a : RegNum)
  | hret (s : Stall)
  | rdsys (s : Stall) (d : RegNum) (idx : BitVec 14)
  | wrsys (s : Stall) (a : RegNum) (idx : BitVec 14)
  | ecnt (s : Stall) (owner : Bool) (d : RegNum)
  | brk (s : Stall) (code : BitVec 14)
  | fail (s : Stall) (code : BitVec 14)
  -- events: thread and memory (R93, R79, R81, R131, R130, R146, R128, R129, R358, R360)
  | haltCompletion (g : Nat)
  | parkConditionMet (g : Nat)
  | lineFetchArrival (g : Nat)
  | relaxedLoadFill (id : Nat)
  | relaxedStoreAck (id : Nat)
  | ordinaryAccessCompletion (id : Nat)
  | bankAccessPerform (id : Nat)
  | pageWalkComplete (g : Nat)
  | faultRecordPost (die : Nat)
  | wakeRegisterWrite (die : Nat) (w : WakeId)
  | convertRegisterWrite (die : Nat) (w : WakeId)
  | shootdownRegisterWrite (die owner : Nat) (addr : Word) (size : Nat)
  | shootdownComplete (die : Nat)
  -- events: signals, barrier, queues (R165, R168, R173, R174, R176, R178)
  | watchAllocated (id : Nat)
  | sigwaitSatisfied (id : Nat)
  | bartoLimitExpiry (berth lk : Nat)
  | barrierRelease (berth lk : Nat)
  | queueEntryArrival (core dir : Nat)
  | actorCreditReturn (core : Nat)
  | rputDelivery (id : Nat)
  -- events: engines (R180, R182, R187, R224, R225, R249, R250, R251)
  | copyAcceptance (tile ch : Nat)
  | copyUnitWrite (tile ch : Nat)
  | copyCompletion (tile ch : Nat)
  | vectorAcceptance (tile : Nat)
  | vectorResultWrite (tile : Nat)
  | leaseGrant (tile : Nat)
  | matrixCommandAcceptance (tile : Nat)
  | matrixCommandExecution (tile : Nat)
  -- events: tasks, launches, floes (R272, R279, R80, R288, R289, R291, R290)
  | stealRequest (g victim : Nat)
  | dispenserPlacement (tile : Nat)
  | launchRecordPlacement (lk : Nat)
  | floeDeparture (tile slot : Nat)
  | floeArrival (id : Nat)
  | floeRefill (tile : Nat)
  | floeClaim (tile : Nat)
  | memoryStop (id : Nat)
  -- events: power (R306, R307, R308, R310, R315, R316, R317)
  | sluiceTick (die : Nat) (mW : Nat) (sensors : List (Nat × Nat × Nat))
  | rampSlotGrant (die : Nat)
  | pinnedLaunchAdmission (lk : Nat)
  | ballastStep (tile : Nat)
  | tileGate (tile : Nat)
  | gateHoldExpiry (tile : Nat)
  | tileWakeRequest (tile : Nat)
  | inrushGrant (die : Nat)
  | inrushPeriodEnd (die : Nat)
  -- events: overflow and drift (R323, R324, R325, R328, R329, R331, R333, R394)
  | overflowQuantumExpiry (core phys : Nat)
  | overflowSwapDone (core phys : Nat)
  | driftDrainEnd (die : Nat)
  | driftShiftEnd (die : Nat)
  | calibrationModeSet (d : Vector Nat 5)
  | calibrationResponseDue (id : Nat)
  -- events: system and Firn (R353, R347, R359, R355, R361, R362, R364)
  | preemption (g : Nat)
  | trapRecordAppend (owner : Nat)
  | trapRecordService (owner : Nat)
  | trappedThreadResume (g : Nat) (pc : Option Word)
  | trappedThreadEnd (g : Nat)
  | watchdogExpiry (die hart : Nat)
  -- events: inlets and packets (R367, R368, R370, R369, R373, R377, R380, R381, R382, R383)
  | doorbellWrite (inlet : Nat) (data : Word)
  | notifyWrite (die : Nat) (msg : BitVec 256)
  | inletPhaseRetry (inlet : Nat)
  | inletSlotAssign (inlet : Nat)
  | nopPacket (inlet : Nat)
  | launch (inlet : Nat)
  | actors (inlet : Nat)
  | wait (inlet : Nat)
  | waitLimitExpiry (inlet : Nat)
  | signal (inlet : Nat)
  | copy (inlet : Nat)
  -- events: the edge (R387, R385, R391, R388, R389, R393)
  | reservedHead (h : BitVec 16)
  | registerWrite (r : FirnReg)
  | berthAssignment (owner berth : Nat)
  | ownerUnassignment (owner : Nat)
  -- events: the edge, continued (R388, R389, R393, R361); the compiler can build no constructor with fields
  -- whose number is above 243, so the rows that only the outside raises stand last
  | getVersion (die : Nat)
  | getCapabilities (die : Nat)
  | negotiateAlgorithms (die : Nat) (falcon shake : Bool)
  | getDigests (die : Nat)
  | getCertificate (die : Nat)
  | challenge (die : Nat) (nonce : BitVec 256)
  | getMeasurements (die : Nat) (index : Nat)
  | keyExchange (die : Nat) (data : BitVec 256)
  | finish (die : Nat)
  | endSession (die : Nat)
  | spdmUnsupportedRequest (die : Nat)
  | lockInterfaceRequest (owner : Nat)
  | startInterfaceRequest (owner : Nat)
  | stopInterfaceRequest (owner : Nat)
  | tdispInterfaceError (owner : Nat)
  | linkRequestLost (id : Nat)
  | lifeCycleStateChange (st : BitVec 8)
  | supervisorFaultEscalation (die : Nat)
  -- events without parties (R324, R331, R334, R364, R387)
  | driftFreeze
  | driftResume
  | deterministicResumeExpiry
  | primaryPromotion
  | moduleReset
  | primaryHeartbeat
  deriving DecidableEq, Repr

end Sys2Proof
end

