-- ==== Sys2Proof/WellFormed.lean ====
section
/-! DEFINITION. Well-formed instructions: what the encodings admit (R32 check 2, R228, R255 and the class tables). An
ill-formed term is the encoding of nothing; a well-formed one may still name an illegal register (R32 check 3). -/

namespace Sys2Proof

/-- Bits of a lane format (R39); codes 14 and 15 are reserved. -/
def laneBits (fmt : BitVec 4) : Nat :=
  if fmt = 0 ∨ fmt = 4 ∨ fmt = 8 then 64
  else if fmt = 1 ∨ fmt = 5 ∨ fmt = 9 then 32
  else if fmt = 2 ∨ fmt = 3 ∨ fmt = 6 ∨ fmt = 10 then 16
  else 8

/-- Lanes of a lane format: 2,048 / n (R223). -/
def lanes (fmt : BitVec 4) : Nat := 2048 / laneBits fmt

/-- The floating lane formats. -/
def fmtFloat (fmt : BitVec 4) : Bool := fmt.toNat < 4 || fmt = 12 || fmt = 13

/-- Accepted set A of R228. -/
def fmtA (fmt : BitVec 4) : Bool := fmt.toNat < 14
/-- Accepted set N of R228. -/
def fmtN (fmt : BitVec 4) : Bool := fmt.toNat < 12
/-- Accepted set F of R228. -/
def fmtF (fmt : BitVec 4) : Bool := fmt.toNat < 4
/-- Accepted set I of R228. -/
def fmtI (fmt : BitVec 4) : Bool := 4 ≤ fmt.toNat && fmt.toNat < 12

/-- rnd and flush are zero unless the format is floating (R228). -/
def FRnd.okFor (r : FRnd) (fmt : BitVec 4) : Bool := fmtFloat fmt || (!r.flush && r.rnd == 0)

/-- The source and destination parts of `vcvt` (R233). -/
def vcvtPartOk (dst src : BitVec 4) (p : BitVec 3) : Bool :=
  if lanes dst ≤ lanes src then p.toNat < lanes src / lanes dst else p.toNat < lanes dst / lanes src

/-- A head index of 0 raises the illegal-instruction trap (R36). -/
def Target.ok (t : Target) : Bool := t.hd != 0

/-- An OP value that the map of R49 leaves reserved. -/
def reservedOp (op : BitVec 8) : Bool :=
  let n := op.toNat
  let hi := n / 16
  let lo := n % 16
  match hi with
  | 0x0 | 0x2 | 0x3 | 0x8 => false
  | 0x1 => 3 ≤ lo
  | 0x4 => 0xE ≤ lo
  | 0x5 => 9 ≤ lo
  | 0x6 => 0xC ≤ lo
  | 0x9 => 0xD ≤ lo
  | 0xA => 0xA ≤ lo
  | 0xC => 8 ≤ lo
  | 0xD => 0xC ≤ lo
  | 0xE => 3 ≤ lo
  | 0xF => 8 ≤ lo
  | _ => true

/-- Tail bits by the L code: 0, 16, 32 or 64 (R31). -/
def tailBits (l : BitVec 2) : Nat :=
  match l with
  | 0 => 0 | 1 => 16 | 2 => 32 | _ => 64

def okTile (t : Nat) : Bool := t < Config.tiles
def okCore (c : Nat) : Bool := c < Config.cores
def okThread (g : Nat) : Bool := g < Config.threads
def okDie (d : Nat) : Bool := d < Config.dies
def okOwner (o : Nat) : Bool := 1 ≤ o && o ≤ Config.owners

/-- The instruction is the meaning of some encoding; an event names parties that exist. -/
def Instr.wf : Instr → Bool
  | .nop l _ _ t => t.toNat < 2 ^ tailBits l
  | .br _ t | .bc _ _ _ _ t | .bcz _ _ _ t | .call _ t | .loop _ _ _ t | .ldpc _ _ t => t.ok
  | .spawn _ _ _ t | .tpost _ _ _ t => t.ok
  | .bext _ w _ _ pos len1 | .bins _ w _ _ pos len1 => pos.toNat + len1.toNat + 1 ≤ (if w then 32 else 64)
  | .lduM _ z _ _ | .lduN _ z _ _ => z != .d
  | .leaM _ _ m => !m.sc
  | .leaN _ _ m => !m.sc
  | .sset _ _ _ _ code => code.toNat ≤ 0x30
  | .cwait _ k => k != 0
  | .bfmt _ bank fmt => bank.toNat < 24 && fmt.toNat < 15
  | .bfget _ _ bank => bank.toNat < 24
  | .cpy _ _ _ _ _ m => !m.sc
  | .bufdecl _ _ _ m => !m.sc
  | .vld _ f _ _ _ _ | .vst _ f _ _ _ _ | .vldg _ f _ _ _ _ _ | .vsts _ f _ _ _ _ _ => fmtA f
  | .vadd _ f _ _ _ _ r | .vsub _ f _ _ _ _ r | .vmul _ f _ _ _ _ r | .vfma _ f _ _ _ _ _ r =>
      fmtN f && r.okFor f
  | .vmin _ f _ _ _ _ fl | .vmax _ f _ _ _ _ fl => fmtN f && (fmtFloat f || !fl)
  | .vun _ op f _ _ _ r =>
      match op with
      | .not => fmtA f && !r.flush && r.rnd == 0
      | .sqrt => fmtF f
      | _ => fmtN f && r.okFor f && r.rnd == 0
  | .vcvt _ dst src p _ _ _ r =>
      fmtA dst && fmtA src && vcvtPartOk dst src p &&
        (fmtFloat dst || fmtFloat src || (!r.flush && r.rnd == 0)) && (fmtFloat dst || !r.nsat)
  | .vcmp _ _ f _ _ _ _ fl => fmtN f && (fmtFloat f || !fl)
  | .vsel _ f _ _ _ _ | .vperm _ f _ _ _ _ | .vbcast _ f _ _ _ | .vrand _ f _ _ _ => fmtA f
  | .vand _ f _ _ _ _ | .vor _ f _ _ _ _ | .vxor _ f _ _ _ _ => fmtA f
  | .vred _ op f _ _ _ r | .vscan _ op f _ _ _ r =>
      fmtN f && (if op = .add then r.okFor f else !r.flush && r.rnd == 0)
  | .vdot _ f lg _ _ _ _ r => fmtN f && r.okFor f && 1 ≤ lg.toNat && 2 ^ lg.toNat ≤ lanes f
  | .vfn _ _ f _ _ _ _ => 1 ≤ f.toNat && f.toNat ≤ 3
  | .vshl _ f _ _ _ _ | .vshr _ _ f _ _ _ _ => fmtI f
  | .vins _ f _ _ lane | .vext _ f _ _ lane => fmtA f && lane.toNat < lanes f
  | .vmask _ op _ _ mb => op != .not || mb == 0
  | .mlease _ n => 1 ≤ n.toNat && n.toNat ≤ 64
  | .mldbM _ m => !m.sc
  | .mldbN _ m => !m.sc
  | .mmaM _ af ds m => !m.sc && (!ds || af == 4 || af == 6)
  | .mmaN _ af ds m => !m.sc && (!ds || af == 4 || af == 6)
  | .mmas _ af ds _ m => !m.sc && 4 ≤ af.toNat && (!ds || af == 4 || af == 6)
  | .mdrainM _ _ m => !m.sc
  | .mdrainN _ _ m => !m.sc
  | .reservedHead h => reservedOp (h.extractLsb' 3 8)
  | .haltCompletion g | .parkConditionMet g | .lineFetchArrival g | .pageWalkComplete g => okThread g
  | .preemption g | .trappedThreadResume g _ | .trappedThreadEnd g => okThread g
  | .stealRequest g v => okThread g && okCore v
  | .faultRecordPost d | .wakeRegisterWrite d _ | .convertRegisterWrite d _ | .shootdownComplete d => okDie d
  | .shootdownRegisterWrite d o _ _ => okDie d && okOwner o
  | .queueEntryArrival c dir => okCore c && dir < 5
  | .actorCreditReturn c => okCore c
  | .overflowQuantumExpiry c p | .overflowSwapDone c p => okCore c && p < 8
  | .copyAcceptance t ch | .copyUnitWrite t ch | .copyCompletion t ch => okTile t && ch < 4
  | .vectorAcceptance t | .vectorResultWrite t | .leaseGrant t | .matrixCommandAcceptance t => okTile t
  | .matrixCommandExecution t | .dispenserPlacement t | .floeRefill t | .floeClaim t => okTile t
  | .floeDeparture t sl => okTile t && sl < 16
  | .ballastStep t | .tileGate t | .gateHoldExpiry t | .tileWakeRequest t => okTile t
  | .sluiceTick d _ _ | .rampSlotGrant d | .inrushGrant d | .inrushPeriodEnd d => okDie d
  | .driftDrainEnd d | .driftShiftEnd d | .supervisorFaultEscalation d | .notifyWrite d _ => okDie d
  | .watchdogExpiry d h => okDie d && h < 8
  | .calibrationModeSet v => v.all (fun d => 1 ≤ d && d ≤ 63)
  | .berthAssignment o b => okOwner o && b < Config.berths
  | .trapRecordAppend o | .trapRecordService o | .ownerUnassignment o => okOwner o
  | .lockInterfaceRequest o | .startInterfaceRequest o | .stopInterfaceRequest o | .tdispInterfaceError o => okOwner o
  | .getVersion d | .getCapabilities d | .negotiateAlgorithms d _ _ | .getDigests d | .getCertificate d => okDie d
  | .challenge d _ | .getMeasurements d _ | .keyExchange d _ | .finish d | .endSession d => okDie d
  | .spdmUnsupportedRequest d => okDie d
  | .rx | .callr _ _ | .jr _ _ | .ret _ | .brot _ | .halt _ | .yield _ | .pwait _ _ | .setrb _ _ => true
  | .getrb _ _ | .isync _ | .tbr _ _ => true
  | .add _ _ _ _ _ | .sub _ _ _ _ _ | .addiC _ _ _ _ _ | .addiD _ _ _ _ _ | .mul _ _ _ _ _ => true
  | .mulh _ _ _ _ _ | .mulhu _ _ _ _ _ | .mad _ _ _ _ _ _ | .div _ _ _ _ _ | .divu _ _ _ _ _ => true
  | .rem _ _ _ _ _ | .remu _ _ _ _ _ | .and _ _ _ _ _ | .or _ _ _ _ _ | .xor _ _ _ _ _ => true
  | .andn _ _ _ _ _ | .shl _ _ _ _ _ | .shr _ _ _ _ _ | .sar _ _ _ _ _ | .rol _ _ _ _ _ => true
  | .min _ _ _ _ _ | .max _ _ _ _ _ | .minu _ _ _ _ _ | .maxu _ _ _ _ _ | .set _ _ _ _ _ => true
  | .sel _ _ _ _ _ | .bcnt _ _ _ _ | .liC _ _ _ | .liD _ _ _ | .liHi _ _ _ | .mov _ _ _ => true
  | .ext _ _ _ _ | .abs _ _ _ _ => true
  | .ldM _ _ _ _ | .ldN _ _ _ _ | .stM _ _ _ _ | .stN _ _ _ _ | .ldp _ _ _ _ _ | .stp _ _ _ _ _ => true
  | .sget _ _ _ _ | .sadj _ _ _ _ | .fence _ | .xfence _ _ _ => true
  | .amo _ _ _ _ _ _ | .swap _ _ _ _ _ | .cas _ _ _ _ _ | .fadd _ _ _ _ _ | .dadd _ _ _ _ => true
  | .sigupM _ _ _ _ | .sigupN _ _ _ _ | .sigwait _ _ _ _ _ | .bar _ | .barReset _ | .barto _ _ _ => true
  | .qpoll _ _ _ | .qcnt _ _ _ | .rput _ _ _ _ | .cpy2 _ _ _ _ _ _ _ _ | .cpyg _ _ _ _ _ _ _ _ => true
  | .cpys _ _ _ _ _ _ _ _ | .bufset _ _ _ | .bufget _ _ _ | .cwp _ _ _ | .chbind _ _ _ => true
  | .mrel _ | .mzero _ | .mscale _ _ | .mstat _ _ | .mwait _ => true
  | .tjoin _ | .tret _ | .waitw _ | .waitwS _ | .depsetM _ _ _ | .depsetN _ _ _ | .depdecM _ _ => true
  | .depdecN _ _ | .tcount _ _ => true
  | .flnew _ _ _ | .flput _ _ _ _ _ | .flget _ _ _ _ _ | .flgetArg _ _ _ | .flgetHdr _ _ _ _ => true
  | .flsend _ _ | .flrecv _ _ | .flnext _ _ | .flrw _ _ _ _ | .flins _ _ _ _ | .fldel _ _ _ => true
  | .flpark _ _ | .flresume _ _ | .fldrop _ _ => true
  | .phase _ _ | .pcnt _ _ _ | .dstate _ _ _ | .trap _ _ | .sethnd _ _ | .hret _ | .rdsys _ _ _ => true
  | .wrsys _ _ _ | .ecnt _ _ _ | .brk _ _ | .fail _ _ => true
  | .relaxedLoadFill _ | .relaxedStoreAck _ | .ordinaryAccessCompletion _ | .bankAccessPerform _ => true
  | .watchAllocated _ | .sigwaitSatisfied _ | .rputDelivery _ | .launchRecordPlacement _ => true
  | .bartoLimitExpiry b _ | .barrierRelease b _ => b < Config.berths
  | .floeArrival _ | .memoryStop _ | .pinnedLaunchAdmission _ => true
  | .driftFreeze | .driftResume | .deterministicResumeExpiry | .calibrationResponseDue _ => true
  | .primaryPromotion | .doorbellWrite _ _ | .inletPhaseRetry _ | .inletSlotAssign _ | .nopPacket _ => true
  | .launch _ | .actors _ | .wait _ | .waitLimitExpiry _ | .signal _ | .copy _ | .moduleReset => true
  | .linkRequestLost _ | .registerWrite _ | .lifeCycleStateChange _ | .primaryHeartbeat => true

end Sys2Proof
end

