-- ==== Sys2Proof/Decode.lean ====
section
/-! DEFINITION. Heads, tails and lines: the tail layouts (spec/03_lines_and_encodings.md R31, R35 to R38), the opcode
map (spec/04_opcode_map_and_mnemonics.md R49 to R66), the decoder, the encoder and the line (R28 to R30).
The decoder reads the fields of a head's form and then holds the bits against the encoder's, so that every bit that
must be zero is (R32 check 2). -/

namespace Sys2Proof

/-- Why a head and its tail are no instruction: both raise the illegal-instruction trap (R32 check 2). -/
inductive Reject where
  /-- X or L is not among those the mnemonic lists (R50). -/
  | undefinedForm
  /-- A bit that must be zero is not, or an operand is outside the limits its entry gives (R32, R228). -/
  | badField
  deriving DecidableEq, Repr

/-! ### Fields of a head (R31) -/

def headL (h : BitVec 16) : BitVec 2 := h.extractLsb' 14 2
def headS (h : BitVec 16) : Stall := h.extractLsb' 11 3
def headOp (h : BitVec 16) : BitVec 8 := h.extractLsb' 3 8
def headX (h : BitVec 16) : BitVec 3 := h.extractLsb' 0 3

/-- A head from its fields (R31). -/
def mkHead (l : BitVec 2) (s : Stall) (op : BitVec 8) (x : BitVec 3) : BitVec 16 := l ++ s ++ op ++ x

/-! ### Fields of the tails (R35 to R38, R59) -/

/-- Field [5:0]: d of B, C, D; a of K; the data register of M, N. -/
def f0 (t : BitVec 64) : RegNum := t.extractLsb' 0 6
/-- Field [11:6]: a of B, C, D; b of K; the offset register of M, N. -/
def f6 (t : BitVec 64) : RegNum := t.extractLsb' 6 6
/-- Field [17:12]: b of C, D. -/
def f12 (t : BitVec 64) : RegNum := t.extractLsb' 12 6
/-- Field [23:18]: c of D; the second data register of N. -/
def f18 (t : BitVec 64) : RegNum := t.extractLsb' 18 6
/-- imm14 of C; the displacement of M. -/
def fImm14 (t : BitVec 64) : BitVec 14 := t.extractLsb' 18 14
/-- imm40 of D; the displacement of N. -/
def fImm40 (t : BitVec 64) : BitVec 40 := t.extractLsb' 24 40
/-- The target of J. -/
def fJ (t : BitVec 64) : Target := ⟨t.extractLsb' 5 22, t.extractLsb' 0 5⟩
/-- The target of K. -/
def fK (t : BitVec 64) : Target := ⟨t.extractLsb' 17 22, t.extractLsb' 12 5⟩
/-- The operand of M. -/
def fM (t : BitVec 64) : MemOp 14 :=
  ⟨t.extractLsb' 18 14, t.getLsbD 17, t.extractLsb' 15 2, t.extractLsb' 12 3, t.extractLsb' 6 6⟩
/-- The operand of N. -/
def fN (t : BitVec 64) : MemOp 40 :=
  ⟨t.extractLsb' 24 40, t.getLsbD 17, t.extractLsb' 15 2, t.extractLsb' 12 3, t.extractLsb' 6 6⟩
/-- The operand of R59. -/
def fR59 (t : BitVec 64) : MemOp 38 :=
  ⟨t.extractLsb' 24 38, t.getLsbD 17, t.extractLsb' 15 2, t.extractLsb' 12 3, t.extractLsb' 6 6⟩

def vOp32 (t : BitVec 64) : BitVec 32 := t.extractLsb' 32 32
def vSeg (t : BitVec 64) : BitVec 3 := t.extractLsb' 28 3
def vG (t : BitVec 64) : RegNum := t.extractLsb' 22 6
def vFmt (t : BitVec 64) : BitVec 4 := t.extractLsb' 14 4
def vMask (t : BitVec 64) : BitVec 2 := t.extractLsb' 12 2
def vWc (t : BitVec 64) : BitVec 3 := t.extractLsb' 9 3
def vWb (t : BitVec 64) : BitVec 3 := t.extractLsb' 6 3
def vWa (t : BitVec 64) : BitVec 3 := t.extractLsb' 3 3
def vWd (t : BitVec 64) : BitVec 3 := t.extractLsb' 0 3
def vMem (t : BitVec 64) : VMem := ⟨vOp32 t, vSeg t, vG t⟩
def vRnd (t : BitVec 64) : VRnd := ⟨t.getLsbD 21, t.getLsbD 20, t.extractLsb' 18 2⟩
def fRnd (t : BitVec 64) : FRnd := ⟨t.getLsbD 20, t.extractLsb' 18 2⟩

/-! ### Tails from their fields -/

def bit (b : Bool) : BitVec 1 := BitVec.ofBool b

def tailB (a d : RegNum) : BitVec 64 := (0 : BitVec 52) ++ a ++ d
def tailC (imm : BitVec 14) (b a d : RegNum) : BitVec 64 := (0 : BitVec 32) ++ imm ++ b ++ a ++ d
def tailD (imm : BitVec 40) (c b a d : RegNum) : BitVec 64 := imm ++ c ++ b ++ a ++ d
def tailJ (t : Target) : BitVec 64 := (0 : BitVec 37) ++ t.off ++ t.hd
def tailK (t : Target) (b a : RegNum) : BitVec 64 := (0 : BitVec 25) ++ t.off ++ t.hd ++ b ++ a
def tailM (m : MemOp 14) (data : RegNum) : BitVec 64 :=
  (0 : BitVec 32) ++ m.disp ++ bit m.sc ++ m.kw ++ m.seg ++ m.off ++ data
def tailN (m : MemOp 40) (data2 data : RegNum) : BitVec 64 :=
  m.disp ++ data2 ++ bit m.sc ++ m.kw ++ m.seg ++ m.off ++ data
def tailR59 (dbl : Bool) (m : MemOp 38) (data2 data : RegNum) : BitVec 64 :=
  bit true ++ bit dbl ++ m.disp ++ data2 ++ bit m.sc ++ m.kw ++ m.seg ++ m.off ++ data
/-- Layout V with every field (R38). -/
def tailV (op32 : BitVec 32) (seg : BitVec 3) (g : RegNum) (r : VRnd) (fmt : BitVec 4) (mask : BitVec 2)
    (wc wb wa wd : BitVec 3) : BitVec 64 :=
  op32 ++ (0 : BitVec 1) ++ seg ++ g ++ bit r.nsat ++ bit r.flush ++ r.rnd ++ fmt ++ mask ++ wc ++ wb ++ wa ++ wd

/-- No rounding fields. -/
def VRnd.none : VRnd := ⟨false, false, 0⟩
/-- The rounding fields of arithmetic in layout V. -/
def FRnd.v (r : FRnd) : VRnd := ⟨false, r.flush, r.rnd⟩
/-- The flush bit alone. -/
def VRnd.ofFlush (f : Bool) : VRnd := ⟨false, f, 0⟩

/-! ### Codes of the modifiers (R52, R54, R55, R57 to R66) -/

def Width.code : Width → BitVec 3
  | .b => 0 | .h => 1 | .w => 2 | .d => 3
def Width.ofCode (x : BitVec 3) : Option Width :=
  match x.toNat with
  | 0 => some .b | 1 => some .h | 2 => some .w | 3 => some .d | _ => none
def Cond.code : Cond → BitVec 3
  | .eq => 0 | .ne => 1 | .lt => 2 | .ge => 3 | .ltu => 4 | .geu => 5
def Cond.ofCode (x : BitVec 3) : Option Cond :=
  match x.toNat with
  | 0 => some .eq | 1 => some .ne | 2 => some .lt | 3 => some .ge | 4 => some .ltu | 5 => some .geu | _ => none
def ZCond.code : ZCond → BitVec 3
  | .eq => 0 | .ne => 1 | .lt => 2 | .ge => 3 | .le => 4 | .gt => 5
def ZCond.ofCode (x : BitVec 3) : Option ZCond :=
  match x.toNat with
  | 0 => some .eq | 1 => some .ne | 2 => some .lt | 3 => some .ge | 4 => some .le | 5 => some .gt | _ => none
def BcntKind.code : BcntKind → BitVec 3
  | .pop => 0 | .clz => 1 | .ctz => 2
def BcntKind.ofCode (x : BitVec 3) : Option BcntKind :=
  match x.toNat with
  | 0 => some .pop | 1 => some .clz | 2 => some .ctz | _ => none
def ExtKind.code : ExtKind → BitVec 3
  | .b => 0 | .h => 1 | .w => 2 | .bu => 4 | .hu => 5 | .wu => 6
def ExtKind.ofCode (x : BitVec 3) : Option ExtKind :=
  match x.toNat with
  | 0 => some .b | 1 => some .h | 2 => some .w | 4 => some .bu | 5 => some .hu | 6 => some .wu | _ => none
def SegField.xcode : SegField → BitVec 3
  | .base => 0 | .limit => 1 | .code => 2
def SegField.ofCode (x : BitVec 3) : Option SegField :=
  match x.toNat with
  | 0 => some .base | 1 => some .limit | 2 => some .code | _ => none
def Path.code : Path → BitVec 3
  | .thread => 0 | .vector => 1 | .matrix => 2 | .copy => 3 | .floe => 4 | .ext => 5
def Path.ofCode (x : BitVec 3) : Option Path :=
  match x.toNat with
  | 0 => some .thread | 1 => some .vector | 2 => some .matrix | 3 => some .copy | 4 => some .floe | 5 => some .ext
  | _ => none
def AmoOp.code : AmoOp → BitVec 3
  | .add => 0 | .and => 1 | .or => 2 | .xor => 3 | .min => 4 | .max => 5 | .minu => 6 | .maxu => 7
def AmoOp.ofCode (x : BitVec 3) : AmoOp :=
  match x.toNat with
  | 0 => .add | 1 => .and | 2 => .or | 3 => .xor | 4 => .min | 5 => .max | 6 => .minu | _ => .maxu
def SigCond.code : SigCond → BitVec 3
  | .eq => 0 | .ne => 1 | .ge => 2 | .lt => 3
def SigCond.ofCode (x : BitVec 3) : Option SigCond :=
  match x.toNat with
  | 0 => some .eq | 1 => some .ne | 2 => some .ge | 3 => some .lt | _ => none
def BufEvent.code : BufEvent → BitVec 3
  | .empty => 0 | .full => 1 | .drain => 2
def BufEvent.ofCode (x : BitVec 3) : Option BufEvent :=
  match x.toNat with
  | 0 => some .empty | 1 => some .full | 2 => some .drain | _ => none
def VunOp.code : VunOp → BitVec 3
  | .abs => 0 | .neg => 1 | .not => 2 | .sqrt => 3
def VunOp.ofCode (x : BitVec 3) : Option VunOp :=
  match x.toNat with
  | 0 => some .abs | 1 => some .neg | 2 => some .not | 3 => some .sqrt | _ => none
def VCond.code : VCond → BitVec 3
  | .eq => 0 | .ne => 1 | .lt => 2 | .le => 3 | .gt => 4 | .ge => 5
def VCond.ofCode (x : BitVec 3) : Option VCond :=
  match x.toNat with
  | 0 => some .eq | 1 => some .ne | 2 => some .lt | 3 => some .le | 4 => some .gt | 5 => some .ge | _ => none
def VRedOp.code : VRedOp → BitVec 3
  | .add => 0 | .min => 1 | .max => 2
def VRedOp.ofCode (x : BitVec 3) : Option VRedOp :=
  match x.toNat with
  | 0 => some .add | 1 => some .min | 2 => some .max | _ => none
def VfnOp.code : VfnOp → BitVec 3
  | .rcp => 0 | .rsqrt => 1 | .exp2 => 2 | .log2 => 3
def VfnOp.ofCode (x : BitVec 3) : Option VfnOp :=
  match x.toNat with
  | 0 => some .rcp | 1 => some .rsqrt | 2 => some .exp2 | 3 => some .log2 | _ => none
def VMaskOp.code : VMaskOp → BitVec 3
  | .and => 0 | .or => 1 | .xor => 2 | .not => 3
def VMaskOp.ofCode (x : BitVec 3) : Option VMaskOp :=
  match x.toNat with
  | 0 => some .and | 1 => some .or | 2 => some .xor | 3 => some .not | _ => none
def Hint.code : Hint → BitVec 3
  | .c => 0 | .m => 1 | .w => 2
def Hint.ofCode (x : BitVec 3) : Option Hint :=
  match x.toNat with
  | 0 => some .c | 1 => some .m | 2 => some .w | _ => none

/-- A one-bit choice in X: X = 0 or 1. -/
def flagOf (x : BitVec 3) : Option Bool := if x = 0 then some false else if x = 1 then some true else none
/-- The X of a one-bit choice. -/
def flagX (b : Bool) : BitVec 3 := if b then 1 else 0
/-- The value widths of `ldp` and `stp`: X = 2 `.w`, 3 `.d` (R58). -/
def pairOf (x : BitVec 3) : Option Bool := if x = 2 then some false else if x = 3 then some true else none
/-- The X of `ldp` and `stp`. -/
def pairX (b : Bool) : BitVec 3 := if b then 3 else 2

/-- `i` when the condition holds. -/
def only (p : Bool) (i : Instr) : Option Instr := if p then some i else none

/-! ### The decoder, by rows of the opcode map (R49) -/

/-- Row 0x0_ (R56). -/
def pick0 (lo : Nat) (l : BitVec 2) (s : Stall) (x : BitVec 3) (t : BitVec 64) : Option Instr :=
  match lo with
  | 0 => some (.nop l s x t)
  | 1 => only (l == 0 && s == 0 && x == 0) .rx
  | 2 => only (l == 2 && x == 0) (.br s (fJ t))
  | 3 => if l = 3 then (Cond.ofCode x).map fun c => .bc s c (f0 t) (f6 t) (fK t) else none
  | 4 => if l = 3 then (ZCond.ofCode x).map fun c => .bcz s c (f0 t) (fK t) else none
  | 5 => only (l == 2 && x == 0) (.call s (fJ t))
  | 6 => only (l == 1 && x == 0) (.callr s (f6 t))
  | 7 => only (l == 1 && x == 0) (.jr s (f6 t))
  | 8 => only (l == 0 && x == 0) (.ret s)
  | 9 => if l = 3 then (flagOf x).map fun lv => .loop s lv (f0 t) (fK t) else none
  | 10 => only (l == 0 && x == 0) (.brot s)
  | 11 => only (l == 0 && x == 0) (.halt s)
  | 12 => only (l == 0 && x == 0) (.yield s)
  | 13 => only (l == 1 && x == 0) (.pwait s (f6 t))
  | 14 => only (l == 2 && x == 0) (.setrb s (t.extractLsb' 18 3))
  | 15 => only (l == 1 && x == 0) (.getrb s (f0 t))
  | _ => none

/-- Row 0x1_ (R56). -/
def pick1 (lo : Nat) (l : BitVec 2) (s : Stall) (x : BitVec 3) (t : BitVec 64) : Option Instr :=
  match lo with
  | 0 => only (l == 0 && x == 0) (.isync s)
  | 1 => only (l == 3 && x == 0) (.ldpc s (f0 t) (fK t))
  | 2 => only (l == 1 && x == 0) (.tbr s (f0 t))
  | _ => none

/-- A three-register head of layout C with the width in X. -/
def pickC3 (mk : Stall → Bool → RegNum → RegNum → RegNum → Instr)
    (l : BitVec 2) (s : Stall) (x : BitVec 3) (t : BitVec 64) : Option Instr :=
  if l = 2 then (flagOf x).map fun w => mk s w (f0 t) (f6 t) (f12 t) else none

/-- Row 0x2_ (R57). -/
def pick2 (lo : Nat) (l : BitVec 2) (s : Stall) (x : BitVec 3) (t : BitVec 64) : Option Instr :=
  match lo with
  | 0 => pickC3 .add l s x t
  | 1 => pickC3 .sub l s x t
  | 2 =>
    if l = 2 then (flagOf x).map fun w => .addiC s w (f0 t) (f6 t) (fImm14 t)
    else if l = 3 then (flagOf x).map fun w => .addiD s w (f0 t) (f6 t) (fImm40 t) else none
  | 3 => pickC3 .mul l s x t
  | 4 => pickC3 .mulh l s x t
  | 5 => pickC3 .mulhu l s x t
  | 6 => if l = 3 then (flagOf x).map fun w => .mad s w (f0 t) (f6 t) (f12 t) (f18 t) else none
  | 7 => pickC3 .div l s x t
  | 8 => pickC3 .divu l s x t
  | 9 => pickC3 .rem l s x t
  | 10 => pickC3 .remu l s x t
  | 11 => pickC3 .and l s x t
  | 12 => pickC3 .or l s x t
  | 13 => pickC3 .xor l s x t
  | 14 => pickC3 .andn l s x t
  | 15 => pickC3 .shl l s x t
  | _ => none

/-- Row 0x3_ (R57). -/
def pick3 (lo : Nat) (l : BitVec 2) (s : Stall) (x : BitVec 3) (t : BitVec 64) : Option Instr :=
  match lo with
  | 0 => pickC3 .shr l s x t
  | 1 => pickC3 .sar l s x t
  | 2 => pickC3 .rol l s x t
  | 3 => pickC3 .min l s x t
  | 4 => pickC3 .max l s x t
  | 5 => pickC3 .minu l s x t
  | 6 => pickC3 .maxu l s x t
  | 7 => if l = 2 then (Cond.ofCode x).map fun c => .set s c (f0 t) (f6 t) (f12 t) else none
  | 8 => only (l == 3 && x == 0) (.sel s (f0 t) (f6 t) (f12 t) (f18 t))
  | 9 => if l = 1 then (BcntKind.ofCode x).map fun k => .bcnt s k (f0 t) (f6 t) else none
  | 10 =>
    if l = 2 then (flagOf x).map fun w => .bext s w (f0 t) (f6 t) (t.extractLsb' 18 6) (t.extractLsb' 24 6) else none
  | 11 =>
    if l = 2 then (flagOf x).map fun w => .bins s w (f0 t) (f6 t) (t.extractLsb' 18 6) (t.extractLsb' 24 6) else none
  | 12 =>
    if x = 0 then
      if l = 2 then some (.liC s (f0 t) (fImm14 t)) else if l = 3 then some (.liD s (f0 t) (fImm40 t)) else none
    else only (l == 3 && x == 1) (.liHi s (f0 t) (t.extractLsb' 24 24))
  | 13 => only (l == 1 && x == 0) (.mov s (f0 t) (f6 t))
  | 14 => if l = 1 then (ExtKind.ofCode x).map fun k => .ext s k (f0 t) (f6 t) else none
  | 15 => if l = 1 then (flagOf x).map fun w => .abs s w (f0 t) (f6 t) else none
  | _ => none

/-- Row 0x4_ (R58). -/
def pick4 (lo : Nat) (l : BitVec 2) (s : Stall) (x : BitVec 3) (t : BitVec 64) : Option Instr :=
  match lo with
  | 0 =>
    if l = 2 then (Width.ofCode x).map fun z => .ldM s z (f0 t) (fM t)
    else if l = 3 then (Width.ofCode x).map fun z => .ldN s z (f0 t) (fN t) else none
  | 1 =>
    if l = 2 then (Width.ofCode x).map fun z => .lduM s z (f0 t) (fM t)
    else if l = 3 then (Width.ofCode x).map fun z => .lduN s z (f0 t) (fN t) else none
  | 2 =>
    if l = 2 then (Width.ofCode x).map fun z => .stM s z (f0 t) (fM t)
    else if l = 3 then (Width.ofCode x).map fun z => .stN s z (f0 t) (fN t) else none
  | 3 => if l = 3 then (pairOf x).map fun b => .ldp s b (f0 t) (f18 t) (fN t) else none
  | 4 => if l = 3 then (pairOf x).map fun b => .stp s b (f0 t) (f18 t) (fN t) else none
  | 5 =>
    if x = 0 then
      if l = 2 then some (.leaM s (f0 t) (fM t)) else if l = 3 then some (.leaN s (f0 t) (fN t)) else none
    else none
  | 6 => only (l == 2 && x == 0) (.sset s (t.extractLsb' 18 3) (f6 t) (f12 t) (t.extractLsb' 21 6))
  | 7 => if l = 2 then (SegField.ofCode x).map fun f => .sget s f (f0 t) (t.extractLsb' 18 3) else none
  | 8 => if l = 2 then (flagOf x).map fun lim => .sadj s lim (t.extractLsb' 18 3) (f6 t) else none
  | 9 => only (l == 0 && x == 0) (.fence s)
  | 10 =>
    if l = 2 ∧ x = 0 then
      match Path.ofCode (t.extractLsb' 18 3), Path.ofCode (t.extractLsb' 21 3) with
      | some p, some q => some (.xfence s p q)
      | _, _ => none
    else none
  | 11 => only (l == 0 && x.toNat < 4) (.cwait s (x.extractLsb' 0 2))
  | 12 => only (l == 2 && x == 0) (.bfmt s (t.extractLsb' 18 5) (t.extractLsb' 23 5))
  | 13 => only (l == 2 && x == 0) (.bfget s (f0 t) (t.extractLsb' 18 5))
  | _ => none

/-- The width of an R59 tail: bits [63:62] are 2 or 3. -/
def dblOf (t : BitVec 64) : Option Bool := if t.getLsbD 63 then some (t.getLsbD 62) else none

/-- Row 0x5_ (R59, R60). -/
def pick5 (lo : Nat) (l : BitVec 2) (s : Stall) (x : BitVec 3) (t : BitVec 64) : Option Instr :=
  match lo with
  | 0 => if l = 3 then (dblOf t).map fun b => .amo s (AmoOp.ofCode x) b (f0 t) (f18 t) (fR59 t) else none
  | 1 => if l = 3 ∧ x = 0 then (dblOf t).map fun b => .swap s b (f0 t) (f18 t) (fR59 t) else none
  | 2 => if l = 3 ∧ x = 0 then (dblOf t).map fun b => .cas s b (f0 t) (f18 t) (fR59 t) else none
  | 3 => if l = 3 ∧ x = 0 then (dblOf t).map fun b => .fadd s b (f0 t) (f18 t) (fR59 t) else none
  | 4 => if l = 3 ∧ x = 0 then (dblOf t).map fun b => .dadd s b (f18 t) (fR59 t) else none
  | 5 =>
    if l = 2 then (flagOf x).map fun b => .sigupM s b (f0 t) (fM t)
    else if l = 3 then (flagOf x).map fun b => .sigupN s b (f0 t) (fN t) else none
  | 6 => if l = 3 then (SigCond.ofCode x).map fun c => .sigwait s c (f0 t) (f18 t) (fN t) else none
  | 7 => if l = 0 then (if x = 0 then some (.bar s) else if x = 1 then some (.barReset s) else none) else none
  | 8 => only (l == 1 && x == 0) (.barto s (f0 t) (f6 t))
  | _ => none

/-- A D-form copy (R188): X[1:0] channel, X[2] `.cf`, imm40 [2:0] the source segment. -/
def pickCopy (mk : Stall → BitVec 2 → Bool → RegNum → RegNum → RegNum → RegNum → BitVec 3 → Instr)
    (l : BitVec 2) (s : Stall) (x : BitVec 3) (t : BitVec 64) : Option Instr :=
  only (l == 3) (mk s (x.extractLsb' 0 2) (x.getLsbD 2) (f0 t) (f6 t) (f12 t) (f18 t) (t.extractLsb' 24 3))

/-- Row 0x6_ (R61). -/
def pick6 (lo : Nat) (l : BitVec 2) (s : Stall) (x : BitVec 3) (t : BitVec 64) : Option Instr :=
  match lo with
  | 0 => only (l == 1 && x == 0) (.qpoll s (f0 t) (f6 t))
  | 1 => only (l == 1 && x == 0) (.qcnt s (f0 t) (f6 t))
  | 2 => only (l == 2 && x == 0) (.rput s (f6 t) (f12 t) (fImm14 t))
  | 3 => only (l == 3) (.cpy s (x.extractLsb' 0 2) (x.getLsbD 2) (f0 t) (f18 t) (fN t))
  | 4 => pickCopy .cpy2 l s x t
  | 5 => pickCopy .cpyg l s x t
  | 6 => pickCopy .cpys l s x t
  | 7 => only (l == 3 && x == 0) (.bufdecl s (f0 t) (f18 t) (fN t))
  | 8 => if l = 2 then (BufEvent.ofCode x).map fun e => .bufset s e (t.extractLsb' 18 5) else none
  | 9 => only (l == 2 && x == 0) (.bufget s (f0 t) (t.extractLsb' 18 5))
  | 10 => only (l == 1 && x.toNat < 4) (.cwp s (x.extractLsb' 0 2) (f0 t))
  | 11 => if l = 1 then (flagOf x).map fun o => .chbind s o (f0 t) else none
  | _ => none

/-- A three-vector head of layout V with rnd and flush. -/
def pickV3 (mk : Stall → BitVec 4 → BitVec 3 → BitVec 3 → BitVec 3 → BitVec 2 → FRnd → Instr)
    (l : BitVec 2) (s : Stall) (x : BitVec 3) (t : BitVec 64) : Option Instr :=
  only (l == 3 && x == 0) (mk s (vFmt t) (vWd t) (vWa t) (vWb t) (vMask t) (fRnd t))

/-- A three-vector head of layout V that rounds nothing. -/
def pickV3n (mk : Stall → BitVec 4 → BitVec 3 → BitVec 3 → BitVec 3 → BitVec 2 → Instr)
    (l : BitVec 2) (s : Stall) (x : BitVec 3) (t : BitVec 64) : Option Instr :=
  only (l == 3 && x == 0) (mk s (vFmt t) (vWd t) (vWa t) (vWb t) (vMask t))

/-- Row 0x8_ (R62, R228). -/
def pick8 (lo : Nat) (l : BitVec 2) (s : Stall) (x : BitVec 3) (t : BitVec 64) : Option Instr :=
  match lo with
  | 0 => only (l == 3 && x == 0) (.vld s (vFmt t) (vWd t) (vMem t) (vMask t) (vRnd t))
  | 1 => only (l == 3 && x == 0) (.vst s (vFmt t) (vWa t) (vMem t) (vMask t) (vRnd t))
  | 2 => only (l == 3 && x == 0) (.vldg s (vFmt t) (vWd t) (vWb t) (vMem t) (vMask t) (vRnd t))
  | 3 => only (l == 3 && x == 0) (.vsts s (vFmt t) (vWa t) (vWb t) (vMem t) (vMask t) (vRnd t))
  | 4 => pickV3 .vadd l s x t
  | 5 => pickV3 .vsub l s x t
  | 6 => pickV3 .vmul l s x t
  | 7 => only (l == 3 && x == 0) (.vfma s (vFmt t) (vWd t) (vWa t) (vWb t) (vWc t) (vMask t) (fRnd t))
  | 8 => only (l == 3 && x == 0) (.vmin s (vFmt t) (vWd t) (vWa t) (vWb t) (vMask t) (t.getLsbD 20))
  | 9 => only (l == 3 && x == 0) (.vmax s (vFmt t) (vWd t) (vWa t) (vWb t) (vMask t) (t.getLsbD 20))
  | 10 =>
    if l = 3 then (VunOp.ofCode x).map fun o => .vun s o (vFmt t) (vWd t) (vWa t) (vMask t) (fRnd t) else none
  | 11 =>
    only (l == 3 && x == 0)
      (.vcvt s (vFmt t) (t.extractLsb' 32 4) (t.extractLsb' 36 3) (vWd t) (vWa t) (vMask t) (vRnd t))
  | 12 =>
    if l = 3 then
      (VCond.ofCode x).map fun c =>
        .vcmp s c (vFmt t) (t.extractLsb' 32 2) (vWa t) (vWb t) (vMask t) (t.getLsbD 20)
    else none
  | 13 => pickV3n .vsel l s x t
  | 14 =>
    if l = 3 then (VRedOp.ofCode x).map fun o => .vred s o (vFmt t) (vG t) (vWa t) (vMask t) (fRnd t) else none
  | 15 =>
    if l = 3 then (VRedOp.ofCode x).map fun o => .vscan s o (vFmt t) (vWd t) (vWa t) (vMask t) (fRnd t) else none
  | _ => none

/-- Row 0x9_ (R62, R228). -/
def pick9 (lo : Nat) (l : BitVec 2) (s : Stall) (x : BitVec 3) (t : BitVec 64) : Option Instr :=
  match lo with
  | 0 => pickV3n .vperm l s x t
  | 1 => only (l == 3 && x == 0) (.vbcast s (vFmt t) (vWd t) (vG t) (vMask t))
  | 2 =>
    only (l == 3 && x == 0) (.vdot s (vFmt t) (t.extractLsb' 32 4) (vWd t) (vWa t) (vWb t) (vMask t) (fRnd t))
  | 3 =>
    if l = 3 then
      (VfnOp.ofCode x).map fun o => .vfn s o (vFmt t) (vWd t) (vWa t) (vMask t) (t.getLsbD 20)
    else none
  | 4 => pickV3n .vand l s x t
  | 5 => pickV3n .vor l s x t
  | 6 => pickV3n .vxor l s x t
  | 7 => pickV3n .vshl l s x t
  | 8 =>
    if l = 3 then (flagOf x).map fun ar => .vshr s ar (vFmt t) (vWd t) (vWa t) (vWb t) (vMask t) else none
  | 9 => only (l == 3 && x == 0) (.vrand s (vFmt t) (vWd t) (vG t) (vMask t))
  | 10 => only (l == 3 && x == 0) (.vins s (vFmt t) (vWd t) (vG t) (t.extractLsb' 32 8))
  | 11 => only (l == 3 && x == 0) (.vext s (vFmt t) (vG t) (vWa t) (t.extractLsb' 32 8))
  | 12 =>
    if l = 3 then
      (VMaskOp.ofCode x).map fun o => .vmask s o (t.extractLsb' 32 2) (t.extractLsb' 34 2) (t.extractLsb' 36 2)
    else none
  | _ => none

/-- The B selector of `mma` and `mmas`: 0 or 1 in field [5:0] (R54). -/
def dsOf (t : BitVec 64) : Option Bool :=
  if f0 t = 0 then some false else if f0 t = 1 then some true else none

/-- Row 0xA_ (R63). -/
def pickA (lo : Nat) (l : BitVec 2) (s : Stall) (x : BitVec 3) (t : BitVec 64) : Option Instr :=
  match lo with
  | 0 => only (l == 2 && x == 0) (.mlease s (fImm14 t))
  | 1 => only (l == 0 && x == 0) (.mrel s)
  | 2 =>
    if x = 0 then
      if l = 2 then some (.mldbM s (fM t)) else if l = 3 then some (.mldbN s (fN t)) else none
    else none
  | 3 => only (l == 0 && x == 0) (.mzero s)
  | 4 =>
    if l = 2 then (dsOf t).map fun ds => .mmaM s x ds (fM t)
    else if l = 3 then (dsOf t).map fun ds => .mmaN s x ds (fN t) else none
  | 5 => if l = 3 then (dsOf t).map fun ds => .mmas s x ds (f18 t) (fN t) else none
  | 6 =>
    if l = 2 then (flagOf x).map fun b => .mdrainM s b (fM t)
    else if l = 3 then (flagOf x).map fun b => .mdrainN s b (fN t) else none
  | 7 => only (l == 1 && x == 0) (.mscale s (f6 t))
  | 8 => only (l == 1 && x == 0) (.mstat s (f0 t))
  | 9 => only (l == 0 && x == 0) (.mwait s)
  | _ => none

/-- Row 0xC_ (R64). -/
def pickT (lo : Nat) (l : BitVec 2) (s : Stall) (x : BitVec 3) (t : BitVec 64) : Option Instr :=
  match lo with
  | 0 => only (l == 3 && x == 0) (.spawn s (f0 t) (f6 t) (fK t))
  | 1 => only (l == 0 && x == 0) (.tjoin s)
  | 2 => only (l == 0 && x == 0) (.tret s)
  | 3 => if l = 0 then (if x = 0 then some (.waitw s) else if x = 1 then some (.waitwS s) else none) else none
  | 4 => only (l == 3 && x == 0) (.tpost s (f0 t) (f6 t) (fK t))
  | 5 =>
    if x = 0 then
      if l = 2 then some (.depsetM s (f0 t) (fM t)) else if l = 3 then some (.depsetN s (f0 t) (fN t)) else none
    else none
  | 6 =>
    if x = 0 then
      if l = 2 then some (.depdecM s (fM t)) else if l = 3 then some (.depdecN s (fN t)) else none
    else none
  | 7 => only (l == 1 && x == 0) (.tcount s (f0 t))
  | _ => none

/-- Row 0xD_ (R65). -/
def pickF (lo : Nat) (l : BitVec 2) (s : Stall) (x : BitVec 3) (t : BitVec 64) : Option Instr :=
  match lo with
  | 0 => only (l == 1 && x == 0) (.flnew s (f0 t) (f6 t))
  | 1 => if l = 2 then (Width.ofCode x).map fun z => .flput s z (f6 t) (f12 t) (t.extractLsb' 18 12) else none
  | 2 =>
    if l = 2 then
      if x = 4 then some (.flgetArg s (f0 t) (f6 t))
      else if x = 5 then some (.flgetHdr s (f0 t) (f6 t) (t.extractLsb' 18 6))
      else (Width.ofCode x).map fun z => .flget s z (f0 t) (f6 t) (t.extractLsb' 18 12)
    else none
  | 3 => only (l == 1 && x == 0) (.flsend s (f6 t))
  | 4 => only (l == 1 && x == 0) (.flrecv s (f0 t))
  | 5 => only (l == 1 && x == 0) (.flnext s (f6 t))
  | 6 => only (l == 2 && x == 0) (.flrw s (f6 t) (f12 t) (t.extractLsb' 18 3))
  | 7 => only (l == 2 && x == 0) (.flins s (f6 t) (f12 t) (t.extractLsb' 18 3))
  | 8 => only (l == 2 && x == 0) (.fldel s (f6 t) (t.extractLsb' 18 3))
  | 9 => only (l == 1 && x == 0) (.flpark s (f6 t))
  | 10 => only (l == 1 && x == 0) (.flresume s (f6 t))
  | 11 => only (l == 1 && x == 0) (.fldrop s (f6 t))
  | _ => none

/-- Row 0xE_ (R66). -/
def pickE (lo : Nat) (l : BitVec 2) (s : Stall) (x : BitVec 3) (t : BitVec 64) : Option Instr :=
  match lo with
  | 0 => if l = 0 then (Hint.ofCode x).map fun k => .phase s k else none
  | 1 => if l = 1 then (flagOf x).map fun b => .pcnt s b (f0 t) else none
  | 2 => if l = 1 then (flagOf x).map fun b => .dstate s b (f0 t) else none
  | _ => none

/-- Row 0xF_ (R66). -/
def pickS (lo : Nat) (l : BitVec 2) (s : Stall) (x : BitVec 3) (t : BitVec 64) : Option Instr :=
  match lo with
  | 0 => only (l == 2 && x == 0) (.trap s (fImm14 t))
  | 1 => only (l == 1 && x == 0) (.sethnd s (f6 t))
  | 2 => only (l == 0 && x == 0) (.hret s)
  | 3 => only (l == 2 && x == 0) (.rdsys s (f0 t) (fImm14 t))
  | 4 => only (l == 2 && x == 0) (.wrsys s (f6 t) (fImm14 t))
  | 5 => if l = 1 then (flagOf x).map fun b => .ecnt s b (f0 t) else none
  | 6 => only (l == 2 && x == 0) (.brk s (fImm14 t))
  | 7 => only (l == 2 && x == 0) (.fail s (fImm14 t))
  | _ => none

/-- The instruction that a head's OP, X and L select, its fields read from the tail; none where R49 to R66 list no
such form. -/
def pick (h : BitVec 16) (t : BitVec 64) : Option Instr :=
  let lo := (headOp h).toNat % 16
  let l := headL h
  let s := headS h
  let x := headX h
  match (headOp h).toNat / 16 with
  | 0x0 => pick0 lo l s x t
  | 0x1 => pick1 lo l s x t
  | 0x2 => pick2 lo l s x t
  | 0x3 => pick3 lo l s x t
  | 0x4 => pick4 lo l s x t
  | 0x5 => pick5 lo l s x t
  | 0x6 => pick6 lo l s x t
  | 0x8 => pick8 lo l s x t
  | 0x9 => pick9 lo l s x t
  | 0xA => pickA lo l s x t
  | 0xC => pickT lo l s x t
  | 0xD => pickF lo l s x t
  | 0xE => pickE lo l s x t
  | 0xF => pickS lo l s x t
  | _ => none

/-- The B selector of `mma` and `mmas` as the field [5:0] (R54). -/
def selField (ds : Bool) : RegNum := if ds then 1 else 0

/-! ### The encoder -/

/-- The head and the tail (zero above the head's length) of an instruction, by R31, R35 to R38 and the tables R56 to
R66; an event has no encoding. -/
def encode : Instr → Option (BitVec 16 × BitVec 64)
  | .nop l s x t => some (mkHead l s 0x00 x, t)
  | .rx => some (mkHead 0 0 0x01 0, 0)
  | .br s t => some (mkHead 2 s 0x02 0, tailJ t)
  | .bc s c a b t => some (mkHead 3 s 0x03 c.code, tailK t b a)
  | .bcz s c a t => some (mkHead 3 s 0x04 c.code, tailK t 0 a)
  | .call s t => some (mkHead 2 s 0x05 0, tailJ t)
  | .callr s a => some (mkHead 1 s 0x06 0, tailB a 0)
  | .jr s a => some (mkHead 1 s 0x07 0, tailB a 0)
  | .ret s => some (mkHead 0 s 0x08 0, 0)
  | .loop s lv a t => some (mkHead 3 s 0x09 (flagX lv), tailK t 0 a)
  | .brot s => some (mkHead 0 s 0x0A 0, 0)
  | .halt s => some (mkHead 0 s 0x0B 0, 0)
  | .yield s => some (mkHead 0 s 0x0C 0, 0)
  | .pwait s a => some (mkHead 1 s 0x0D 0, tailB a 0)
  | .setrb s n => some (mkHead 2 s 0x0E 0, tailC (n.setWidth 14) 0 0 0)
  | .getrb s d => some (mkHead 1 s 0x0F 0, tailB 0 d)
  | .isync s => some (mkHead 0 s 0x10 0, 0)
  | .ldpc s d t => some (mkHead 3 s 0x11 0, tailK t 0 d)
  | .tbr s d => some (mkHead 1 s 0x12 0, tailB 0 d)
  | .add s w d a b => some (mkHead 2 s 0x20 (flagX w), tailC 0 b a d)
  | .sub s w d a b => some (mkHead 2 s 0x21 (flagX w), tailC 0 b a d)
  | .mul s w d a b => some (mkHead 2 s 0x23 (flagX w), tailC 0 b a d)
  | .mulh s w d a b => some (mkHead 2 s 0x24 (flagX w), tailC 0 b a d)
  | .mulhu s w d a b => some (mkHead 2 s 0x25 (flagX w), tailC 0 b a d)
  | .div s w d a b => some (mkHead 2 s 0x27 (flagX w), tailC 0 b a d)
  | .divu s w d a b => some (mkHead 2 s 0x28 (flagX w), tailC 0 b a d)
  | .rem s w d a b => some (mkHead 2 s 0x29 (flagX w), tailC 0 b a d)
  | .remu s w d a b => some (mkHead 2 s 0x2A (flagX w), tailC 0 b a d)
  | .and s w d a b => some (mkHead 2 s 0x2B (flagX w), tailC 0 b a d)
  | .or s w d a b => some (mkHead 2 s 0x2C (flagX w), tailC 0 b a d)
  | .xor s w d a b => some (mkHead 2 s 0x2D (flagX w), tailC 0 b a d)
  | .andn s w d a b => some (mkHead 2 s 0x2E (flagX w), tailC 0 b a d)
  | .shl s w d a b => some (mkHead 2 s 0x2F (flagX w), tailC 0 b a d)
  | .shr s w d a b => some (mkHead 2 s 0x30 (flagX w), tailC 0 b a d)
  | .sar s w d a b => some (mkHead 2 s 0x31 (flagX w), tailC 0 b a d)
  | .rol s w d a b => some (mkHead 2 s 0x32 (flagX w), tailC 0 b a d)
  | .min s w d a b => some (mkHead 2 s 0x33 (flagX w), tailC 0 b a d)
  | .max s w d a b => some (mkHead 2 s 0x34 (flagX w), tailC 0 b a d)
  | .minu s w d a b => some (mkHead 2 s 0x35 (flagX w), tailC 0 b a d)
  | .maxu s w d a b => some (mkHead 2 s 0x36 (flagX w), tailC 0 b a d)
  | .addiC s w d a n => some (mkHead 2 s 0x22 (flagX w), tailC n 0 a d)
  | .addiD s w d a n => some (mkHead 3 s 0x22 (flagX w), tailD n 0 0 a d)
  | .mad s w d a b c => some (mkHead 3 s 0x26 (flagX w), tailD 0 c b a d)
  | .set s c d a b => some (mkHead 2 s 0x37 c.code, tailC 0 b a d)
  | .sel s d a b c => some (mkHead 3 s 0x38 0, tailD 0 c b a d)
  | .bcnt s k d a => some (mkHead 1 s 0x39 k.code, tailB a d)
  | .bext s w d a pos len1 => some (mkHead 2 s 0x3A (flagX w), tailC ((0 : BitVec 2) ++ len1 ++ pos) 0 a d)
  | .bins s w d a pos len1 => some (mkHead 2 s 0x3B (flagX w), tailC ((0 : BitVec 2) ++ len1 ++ pos) 0 a d)
  | .liC s d n => some (mkHead 2 s 0x3C 0, tailC n 0 0 d)
  | .liD s d n => some (mkHead 3 s 0x3C 0, tailD n 0 0 0 d)
  | .liHi s d n => some (mkHead 3 s 0x3C 1, tailD (n.setWidth 40) 0 0 0 d)
  | .mov s d a => some (mkHead 1 s 0x3D 0, tailB a d)
  | .ext s k d a => some (mkHead 1 s 0x3E k.code, tailB a d)
  | .abs s w d a => some (mkHead 1 s 0x3F (flagX w), tailB a d)
  | .ldM s z d m => some (mkHead 2 s 0x40 z.code, tailM m d)
  | .ldN s z d m => some (mkHead 3 s 0x40 z.code, tailN m 0 d)
  | .lduM s z d m => some (mkHead 2 s 0x41 z.code, tailM m d)
  | .lduN s z d m => some (mkHead 3 s 0x41 z.code, tailN m 0 d)
  | .stM s z d m => some (mkHead 2 s 0x42 z.code, tailM m d)
  | .stN s z d m => some (mkHead 3 s 0x42 z.code, tailN m 0 d)
  | .ldp s b d d2 m => some (mkHead 3 s 0x43 (pairX b), tailN m d2 d)
  | .stp s b d d2 m => some (mkHead 3 s 0x44 (pairX b), tailN m d2 d)
  | .leaM s d m => some (mkHead 2 s 0x45 0, tailM m d)
  | .leaN s d m => some (mkHead 3 s 0x45 0, tailN m 0 d)
  | .sset s n a b code => some (mkHead 2 s 0x46 0, tailC ((0 : BitVec 5) ++ code ++ n) b a 0)
  | .sget s f d n => some (mkHead 2 s 0x47 f.xcode, tailC (n.setWidth 14) 0 0 d)
  | .sadj s lim n a => some (mkHead 2 s 0x48 (flagX lim), tailC (n.setWidth 14) 0 a 0)
  | .fence s => some (mkHead 0 s 0x49 0, 0)
  | .xfence s p q => some (mkHead 2 s 0x4A 0, tailC ((0 : BitVec 8) ++ q.code ++ p.code) 0 0 0)
  | .cwait s k => some (mkHead 0 s 0x4B (k.setWidth 3), 0)
  | .bfmt s bank fmt => some (mkHead 2 s 0x4C 0, tailC ((0 : BitVec 4) ++ fmt ++ bank) 0 0 0)
  | .bfget s d bank => some (mkHead 2 s 0x4D 0, tailC (bank.setWidth 14) 0 0 d)
  | .amo s op dbl d a m => some (mkHead 3 s 0x50 op.code, tailR59 dbl m a d)
  | .swap s dbl d a m => some (mkHead 3 s 0x51 0, tailR59 dbl m a d)
  | .cas s dbl d a m => some (mkHead 3 s 0x52 0, tailR59 dbl m a d)
  | .fadd s dbl d a m => some (mkHead 3 s 0x53 0, tailR59 dbl m a d)
  | .dadd s dbl a m => some (mkHead 3 s 0x54 0, tailR59 dbl m a 0)
  | .sigupM s b a m => some (mkHead 2 s 0x55 (flagX b), tailM m a)
  | .sigupN s b a m => some (mkHead 3 s 0x55 (flagX b), tailN m 0 a)
  | .sigwait s c d a m => some (mkHead 3 s 0x56 c.code, tailN m a d)
  | .bar s => some (mkHead 0 s 0x57 0, 0)
  | .barReset s => some (mkHead 0 s 0x57 1, 0)
  | .barto s d a => some (mkHead 1 s 0x58 0, tailB a d)
  | .qpoll s d a => some (mkHead 1 s 0x60 0, tailB a d)
  | .qcnt s d a => some (mkHead 1 s 0x61 0, tailB a d)
  | .rput s a b reg => some (mkHead 2 s 0x62 0, tailC reg b a 0)
  | .cpy s ch cf buf len m => some (mkHead 3 s 0x63 (bit cf ++ ch), tailN m len buf)
  | .cpy2 s ch cf buf a b c seg => some (mkHead 3 s 0x64 (bit cf ++ ch), tailD (seg.setWidth 40) c b a buf)
  | .cpyg s ch cf buf a b c seg => some (mkHead 3 s 0x65 (bit cf ++ ch), tailD (seg.setWidth 40) c b a buf)
  | .cpys s ch cf buf a b c seg => some (mkHead 3 s 0x66 (bit cf ++ ch), tailD (seg.setWidth 40) c b a buf)
  | .bufdecl s buf len m => some (mkHead 3 s 0x67 0, tailN m len buf)
  | .bufset s e buf => some (mkHead 2 s 0x68 e.code, tailC (buf.setWidth 14) 0 0 0)
  | .bufget s d buf => some (mkHead 2 s 0x69 0, tailC (buf.setWidth 14) 0 0 d)
  | .cwp s ch d => some (mkHead 1 s 0x6A (ch.setWidth 3), tailB 0 d)
  | .chbind s out d => some (mkHead 1 s 0x6B (flagX out), tailB 0 d)
  | .vld s fmt wd m mask r => some (mkHead 3 s 0x80 0, tailV m.disp m.seg m.g r fmt mask 0 0 0 wd)
  | .vst s fmt wa m mask r => some (mkHead 3 s 0x81 0, tailV m.disp m.seg m.g r fmt mask 0 0 wa 0)
  | .vldg s fmt wd wb m mask r => some (mkHead 3 s 0x82 0, tailV m.disp m.seg m.g r fmt mask 0 wb 0 wd)
  | .vsts s fmt wa wb m mask r => some (mkHead 3 s 0x83 0, tailV m.disp m.seg m.g r fmt mask 0 wb wa 0)
  | .vadd s fmt wd wa wb mask r => some (mkHead 3 s 0x84 0, tailV 0 0 0 r.v fmt mask 0 wb wa wd)
  | .vsub s fmt wd wa wb mask r => some (mkHead 3 s 0x85 0, tailV 0 0 0 r.v fmt mask 0 wb wa wd)
  | .vmul s fmt wd wa wb mask r => some (mkHead 3 s 0x86 0, tailV 0 0 0 r.v fmt mask 0 wb wa wd)
  | .vfma s fmt wd wa wb wc mask r => some (mkHead 3 s 0x87 0, tailV 0 0 0 r.v fmt mask wc wb wa wd)
  | .vmin s fmt wd wa wb mask fl => some (mkHead 3 s 0x88 0, tailV 0 0 0 (.ofFlush fl) fmt mask 0 wb wa wd)
  | .vmax s fmt wd wa wb mask fl => some (mkHead 3 s 0x89 0, tailV 0 0 0 (.ofFlush fl) fmt mask 0 wb wa wd)
  | .vun s op fmt wd wa mask r => some (mkHead 3 s 0x8A op.code, tailV 0 0 0 r.v fmt mask 0 0 wa wd)
  | .vcvt s dst src part wd wa mask r =>
    some (mkHead 3 s 0x8B 0, tailV ((0 : BitVec 25) ++ part ++ src) 0 0 r dst mask 0 0 wa wd)
  | .vcmp s c fmt mk wa wb mask fl =>
    some (mkHead 3 s 0x8C c.code, tailV (mk.setWidth 32) 0 0 (.ofFlush fl) fmt mask 0 wb wa 0)
  | .vsel s fmt wd wa wb mask => some (mkHead 3 s 0x8D 0, tailV 0 0 0 VRnd.none fmt mask 0 wb wa wd)
  | .vred s op fmt g wa mask r => some (mkHead 3 s 0x8E op.code, tailV 0 0 g r.v fmt mask 0 0 wa 0)
  | .vscan s op fmt wd wa mask r => some (mkHead 3 s 0x8F op.code, tailV 0 0 0 r.v fmt mask 0 0 wa wd)
  | .vperm s fmt wd wa wb mask => some (mkHead 3 s 0x90 0, tailV 0 0 0 VRnd.none fmt mask 0 wb wa wd)
  | .vbcast s fmt wd g mask => some (mkHead 3 s 0x91 0, tailV 0 0 g VRnd.none fmt mask 0 0 0 wd)
  | .vdot s fmt lg wd wa wb mask r => some (mkHead 3 s 0x92 0, tailV (lg.setWidth 32) 0 0 r.v fmt mask 0 wb wa wd)
  | .vfn s op fmt wd wa mask fl => some (mkHead 3 s 0x93 op.code, tailV 0 0 0 (.ofFlush fl) fmt mask 0 0 wa wd)
  | .vand s fmt wd wa wb mask => some (mkHead 3 s 0x94 0, tailV 0 0 0 VRnd.none fmt mask 0 wb wa wd)
  | .vor s fmt wd wa wb mask => some (mkHead 3 s 0x95 0, tailV 0 0 0 VRnd.none fmt mask 0 wb wa wd)
  | .vxor s fmt wd wa wb mask => some (mkHead 3 s 0x96 0, tailV 0 0 0 VRnd.none fmt mask 0 wb wa wd)
  | .vshl s fmt wd wa wb mask => some (mkHead 3 s 0x97 0, tailV 0 0 0 VRnd.none fmt mask 0 wb wa wd)
  | .vshr s ar fmt wd wa wb mask => some (mkHead 3 s 0x98 (flagX ar), tailV 0 0 0 VRnd.none fmt mask 0 wb wa wd)
  | .vrand s fmt wd g mask => some (mkHead 3 s 0x99 0, tailV 0 0 g VRnd.none fmt mask 0 0 0 wd)
  | .vins s fmt wd g lane => some (mkHead 3 s 0x9A 0, tailV (lane.setWidth 32) 0 g VRnd.none fmt 0 0 0 0 wd)
  | .vext s fmt g wa lane => some (mkHead 3 s 0x9B 0, tailV (lane.setWidth 32) 0 g VRnd.none fmt 0 0 0 wa 0)
  | .vmask s op mk ma mb =>
    some (mkHead 3 s 0x9C op.code, tailV ((0 : BitVec 26) ++ mb ++ ma ++ mk) 0 0 VRnd.none 0 0 0 0 0 0)
  | .mlease s n => some (mkHead 2 s 0xA0 0, tailC n 0 0 0)
  | .mrel s => some (mkHead 0 s 0xA1 0, 0)
  | .mldbM s m => some (mkHead 2 s 0xA2 0, tailM m 0)
  | .mldbN s m => some (mkHead 3 s 0xA2 0, tailN m 0 0)
  | .mzero s => some (mkHead 0 s 0xA3 0, 0)
  | .mmaM s af ds m => some (mkHead 2 s 0xA4 af, tailM m (selField ds))
  | .mmaN s af ds m => some (mkHead 3 s 0xA4 af, tailN m 0 (selField ds))
  | .mmas s af ds a m => some (mkHead 3 s 0xA5 af, tailN m a (selField ds))
  | .mdrainM s b m => some (mkHead 2 s 0xA6 (flagX b), tailM m 0)
  | .mdrainN s b m => some (mkHead 3 s 0xA6 (flagX b), tailN m 0 0)
  | .mscale s a => some (mkHead 1 s 0xA7 0, tailB a 0)
  | .mstat s d => some (mkHead 1 s 0xA8 0, tailB 0 d)
  | .mwait s => some (mkHead 0 s 0xA9 0, 0)
  | .spawn s a b t => some (mkHead 3 s 0xC0 0, tailK t b a)
  | .tjoin s => some (mkHead 0 s 0xC1 0, 0)
  | .tret s => some (mkHead 0 s 0xC2 0, 0)
  | .waitw s => some (mkHead 0 s 0xC3 0, 0)
  | .waitwS s => some (mkHead 0 s 0xC3 1, 0)
  | .tpost s a b t => some (mkHead 3 s 0xC4 0, tailK t b a)
  | .depsetM s a m => some (mkHead 2 s 0xC5 0, tailM m a)
  | .depsetN s a m => some (mkHead 3 s 0xC5 0, tailN m 0 a)
  | .depdecM s m => some (mkHead 2 s 0xC6 0, tailM m 0)
  | .depdecN s m => some (mkHead 3 s 0xC6 0, tailN m 0 0)
  | .tcount s d => some (mkHead 1 s 0xC7 0, tailB 0 d)
  | .flnew s d a => some (mkHead 1 s 0xD0 0, tailB a d)
  | .flput s z a b off => some (mkHead 2 s 0xD1 z.code, tailC (off.setWidth 14) b a 0)
  | .flget s z d a off => some (mkHead 2 s 0xD2 z.code, tailC (off.setWidth 14) 0 a d)
  | .flgetArg s d a => some (mkHead 2 s 0xD2 4, tailC 0 0 a d)
  | .flgetHdr s d a f => some (mkHead 2 s 0xD2 5, tailC (f.setWidth 14) 0 a d)
  | .flsend s a => some (mkHead 1 s 0xD3 0, tailB a 0)
  | .flnext s a => some (mkHead 1 s 0xD5 0, tailB a 0)
  | .flpark s a => some (mkHead 1 s 0xD9 0, tailB a 0)
  | .flresume s a => some (mkHead 1 s 0xDA 0, tailB a 0)
  | .fldrop s a => some (mkHead 1 s 0xDB 0, tailB a 0)
  | .flrecv s d => some (mkHead 1 s 0xD4 0, tailB 0 d)
  | .flrw s a b k => some (mkHead 2 s 0xD6 0, tailC (k.setWidth 14) b a 0)
  | .flins s a b k => some (mkHead 2 s 0xD7 0, tailC (k.setWidth 14) b a 0)
  | .fldel s a k => some (mkHead 2 s 0xD8 0, tailC (k.setWidth 14) 0 a 0)
  | .phase s k => some (mkHead 0 s 0xE0 k.code, 0)
  | .pcnt s b d => some (mkHead 1 s 0xE1 (flagX b), tailB 0 d)
  | .dstate s b d => some (mkHead 1 s 0xE2 (flagX b), tailB 0 d)
  | .trap s n => some (mkHead 2 s 0xF0 0, tailC n 0 0 0)
  | .sethnd s a => some (mkHead 1 s 0xF1 0, tailB a 0)
  | .hret s => some (mkHead 0 s 0xF2 0, 0)
  | .rdsys s d n => some (mkHead 2 s 0xF3 0, tailC n 0 0 d)
  | .wrsys s a n => some (mkHead 2 s 0xF4 0, tailC n 0 a 0)
  | .ecnt s b d => some (mkHead 1 s 0xF5 (flagX b), tailB 0 d)
  | .brk s n => some (mkHead 2 s 0xF6 0, tailC n 0 0 0)
  | .fail s n => some (mkHead 2 s 0xF7 0, tailC n 0 0 0)
  | .reservedHead h => some (h, 0)
  | .haltCompletion _ | .parkConditionMet _ | .lineFetchArrival _ | .relaxedLoadFill _ | .relaxedStoreAck _
  | .ordinaryAccessCompletion _ | .bankAccessPerform _ | .pageWalkComplete _ | .faultRecordPost _
  | .wakeRegisterWrite _ _ | .convertRegisterWrite _ _ | .shootdownRegisterWrite _ _ _ _ | .shootdownComplete _
  | .watchAllocated _ | .sigwaitSatisfied _ | .bartoLimitExpiry _ _ | .barrierRelease _ _
  | .queueEntryArrival _ _ | .actorCreditReturn _ | .rputDelivery _ | .copyAcceptance _ _ | .copyUnitWrite _ _
  | .copyCompletion _ _ | .vectorAcceptance _ | .vectorResultWrite _ | .leaseGrant _
  | .matrixCommandAcceptance _ | .matrixCommandExecution _ | .stealRequest _ _ | .dispenserPlacement _
  | .launchRecordPlacement _ | .floeDeparture _ _ | .floeArrival _ | .floeRefill _ | .floeClaim _
  | .memoryStop _ | .sluiceTick _ _ _ | .rampSlotGrant _ | .pinnedLaunchAdmission _ | .ballastStep _
  | .tileGate _ | .gateHoldExpiry _ | .tileWakeRequest _ | .inrushGrant _ | .inrushPeriodEnd _
  | .overflowQuantumExpiry _ _ | .overflowSwapDone _ _ | .driftFreeze | .driftDrainEnd _ | .driftShiftEnd _
  | .driftResume | .deterministicResumeExpiry | .calibrationModeSet _ | .calibrationResponseDue _
  | .preemption _ | .trapRecordAppend _ | .trapRecordService _ | .trappedThreadResume _ _ | .trappedThreadEnd _
  | .supervisorFaultEscalation _ | .watchdogExpiry _ _ | .primaryPromotion | .doorbellWrite _ _
  | .notifyWrite _ _ | .inletPhaseRetry _ | .inletSlotAssign _ | .nopPacket _ | .launch _ | .actors _ | .wait _
  | .waitLimitExpiry _ | .signal _ | .copy _ | .moduleReset | .berthAssignment _ _ | .ownerUnassignment _
  | .getVersion _ | .getCapabilities _ | .negotiateAlgorithms _ _ _ | .getDigests _ | .getCertificate _
  | .challenge _ _ | .getMeasurements _ _ | .keyExchange _ _ | .finish _ | .endSession _
  | .spdmUnsupportedRequest _ | .lockInterfaceRequest _ | .startInterfaceRequest _ | .stopInterfaceRequest _
  | .tdispInterfaceError _ | .linkRequestLost _ | .registerWrite _ | .lifeCycleStateChange _
  | .primaryHeartbeat => none

/-- The instruction that head `h` and tail `t` encode, checked by the first two checks of R32; a head of a reserved
OP is the instruction whose one effect is the illegal-instruction trap (R50). -/
def decode (h : BitVec 16) (t : BitVec 64) : Except Reject Instr :=
  if reservedOp (headOp h) then .ok (.reservedHead h)
  else
    match pick h t with
    | none => .error .undefinedForm
    | some i => if i.wf ∧ encode i = some (h, t) then .ok i else .error .badField

/-! ### The line (R28 to R30) -/

/-- Halfword `k` of a line. -/
def lineHalf (ln : BitVec 512) (k : Nat) : BitVec 16 := ln.extractLsb' (16 * k) 16

/-- Tail length in halfwords of an L code (R31). -/
def tailLen (l : BitVec 2) : Nat := tailBits l / 16

/-- The number of heads, n (R28). -/
def lineCount (ln : BitVec 512) : Nat := (ln.extractLsb' 0 5).toNat

/-- The sum of the tail lengths of heads 1 to `k` (R29). -/
def lineSum (ln : BitVec 512) : Nat → Nat
  | 0 => 0
  | k + 1 => lineSum ln k + tailLen (headL (lineHalf ln (k + 1)))

/-- The line is legal (R30). -/
def lineLegal (ln : BitVec 512) : Bool :=
  ln.extractLsb' 5 11 == 0 && lineCount ln != 0 && 1 + lineCount ln + lineSum ln (lineCount ln) == 32

/-- The line and the head index of the entering pc are legal (R30). -/
def entryLegal (ln : BitVec 512) (idx : Nat) : Bool := lineLegal ln && 1 ≤ idx && idx ≤ lineCount ln

/-- The tail of head `i`, read from halfword T(i) on, zero above its length (R29). -/
def lineTail (ln : BitVec 512) (i : Nat) : BitVec 64 :=
  let len := tailLen (headL (lineHalf ln i))
  let t := 32 - lineSum ln i
  BitVec.ofNat 64 ((ln.toNat >>> (16 * t)) % 2 ^ (16 * len))

/-- The instruction of head `i` of a line. -/
def lineInstr (ln : BitVec 512) (i : Nat) : Except Reject Instr := decode (lineHalf ln i) (lineTail ln i)

/-! ### The words of the opcode table -/

/-- Head and tail of a word as spec/opcode_table.json gives it: 16 bits, a head; 32, 48 or 80 bits, the head above its
tail of 16, 32 or 64 bits (DESIGN CHOICE of the reading, entry 1). -/
def splitWord (nbits w : Nat) : BitVec 16 × BitVec 64 :=
  if nbits ≤ 16 then (BitVec.ofNat 16 w, 0)
  else
    let tb := nbits - 16
    (BitVec.ofNat 16 (w >>> tb), BitVec.ofNat 64 (w % 2 ^ tb))

/-- The instruction that the decoder reads from a word of the opcode table. -/
def decodeTableWord (nbits w : Nat) : Option Instr :=
  let p := splitWord nbits w
  match decode p.1 p.2 with
  | .ok i => some i
  | .error _ => none

end Sys2Proof
end

