-- ==== Sys2Proof/Machine/State.lean ====
section
/-! DEFINITION. The state of the module as plain data, and the state after reset. INVENTORY.md lists every field with
the rule that names it. Parties are keyed by number: tile T = berth × 48 + 4 × row + column, core 4 T + c, thread
32 T + 8 c + slot, berth = die × 5 + home strip (spec/01_the_machine.md R9, R11, R12). -/

namespace Sys2Proof.Machine

/-- What stops a run. -/
inductive Fault where
  /-- An event names a party that does not exist (a term that is not well-formed). Raised by the meanings of the event
  rows alone; no encoding and no agent of the module makes such a term, so it is safe. -/
  | illFormed
  deriving DecidableEq, Repr

/-- What the model does not run. -/
inductive Refusal where
  /-- An arm of Dispatch.lean that has no meaning yet. Safe. -/
  | notModelled (mnemonic : String)
  deriving DecidableEq, Repr

/-- A map from numbers: a list of pairs, rising in the number; a number that is not listed has the default. -/
abbrev FMap (α : Type) := List (Nat × α)

/-- Memory: (address, byte) pairs, addresses strictly rising, no byte 0; an unlisted byte reads as 0 (R385). Keys below
2 ^ 52 are physical addresses; the tile store of tile T begins at 2 ^ 52 + T × 2 ^ 21. -/
abbrev Mem := List Host.Cell

/-! ### Threads -/

/-- A thread as the maker of an operation that may outlive it: its slot, the number of its placement, which no later
thread of the slot has, its owner and its launch. -/
structure Who where
  g : Nat
  serial : Nat
  owner : Nat
  launch : Nat
  deriving DecidableEq, Repr

/-- A general register (R33): its value, its full/empty bit (R24), its remote bit (R177), whether a fill is pending
into it, and whether the register has become uncorrectable (R352). -/
structure GReg where
  val : Word := 0
  full : Bool := true
  remote : Bool := false
  fill : Bool := false
  bad : Bool := false
  deriving DecidableEq, Repr

/-- A vector register, its full/empty bit (R222), and whether it has become uncorrectable (R352). -/
structure VReg where
  val : BitVec 2048 := 0
  full : Bool := true
  bad : Bool := false
  deriving DecidableEq, Repr

/-- A mask register, its full/empty bit (R222), and whether it has become uncorrectable (R352). -/
structure MReg where
  val : BitVec 256 := 0
  full : Bool := true
  bad : Bool := false
  deriving DecidableEq, Repr

/-- A fixed-latency write that has issued: physical register, value and the core clock at which it lands (R44, R45). -/
structure Pend where
  reg : Fin 32
  val : Word
  due : Nat
  deriving DecidableEq, Repr

/-- A hardware loop level (R83). -/
structure Level where
  count : Word := 0
  start : Word := 0
  stop : Word := 0
  active : Bool := false
  deriving DecidableEq, Repr

/-- A segment register: base, limit and the code of R69, type × 16 + f a w r (R118). -/
structure Seg where
  base : Word := 0
  limit : BitVec 48 := 0
  code : BitVec 6 := 0x30
  deriving DecidableEq, Repr

/-- Access kinds of a fault record (R129). -/
inductive AKind where | load | store | atomic | fetch
  deriving DecidableEq, Repr

/-- Where a result is delivered: nowhere (g0), a physical register, an outbound chain queue 0 to 3 (N, E, S, W) or the
actor output channel. -/
inductive Dst where
  | none
  | reg (r : Fin 32)
  | chain (dir : Fin 4)
  | actor
  deriving DecidableEq, Repr

/-- What a parked thread waits for before it attempts its instruction again (R79). -/
inductive Need where
  /-- A source register is full. -/
  | full (r : Fin 32)
  /-- A destination register is full, or empty with no fill pending (R24). -/
  | writable (r : Fin 32)
  /-- A source queue (0 to 3 chain, 4 actor) holds n entries. -/
  | entries (q n : Nat)
  /-- A destination queue (0 to 3 chain, 4 actor) has room for n entries. -/
  | room (q n : Nat)
  /-- The named counts are zero (R25). -/
  | counts (k1 k2 k3 : Bool)
  /-- Fewer than 32 relaxed accesses are outstanding (R132). -/
  | relaxedRoom
  /-- No fill is pending into any register of the thread (R93, R275). -/
  | noFill
  /-- A vector register is full. -/
  | vfull (w : BitVec 3)
  /-- A mask register is full. -/
  | mfull (m : BitVec 2)
  /-- The core's vector queue has room (R224). -/
  | vqueue
  /-- The thread's vector instructions have completed and their stores are performed (R93). -/
  | vdone
  /-- The path's operations of the thread have reached the state of R144. -/
  | path (p : Path)
  /-- The channel's start queue holds fewer than four (R190). -/
  | channel (ch : Nat)
  /-- The core holds no lease and has no request pending (R256). -/
  | leaseFree
  /-- A landing slot from 12 to 15 is free (R297). -/
  | outSlot
  /-- No floe-class write to landing slot j is on its way, and no request stands at its bank (R153, R121). -/
  | slot (j : Nat)
  /-- No request stands at bank b (R121). -/
  | bank (b : Nat)
  /-- Tile T is not gated: what is asked of its store is held at its ingress (R316). -/
  | awake (T : Nat)
  /-- The tile's dispenser has room (R279). -/
  | dispenser
  deriving DecidableEq, Repr

/-- A trap that is taken once the thread's vector instructions have completed (R226). -/
inductive Trap where
  /-- An owner trap: cause, subcause, info, resume pc (R345). -/
  | owner (cause sub : Nat) (info resume : Word)
  /-- A local trap: cause, subcause, info, whether its trap pc is the successor, whether of a prefixed pair (R343). -/
  | loc (cause sub : Nat) (info : Word) (atSucc pair : Bool)
  deriving DecidableEq, Repr

/-- Why a thread is parked (R79). -/
inductive Wait where
  /-- Until every need holds; the instruction is then attempted in full. -/
  | needs (l : List Need)
  /-- Until the line arrives (R81). -/
  | fetch (line : Word)
  /-- Until the page walk ends (R124): owner address and access kind. -/
  | walk (addr : Word) (kind : AKind)
  /-- In calibration mode, until the port has answered `n` reads in turn at an owner address (R333). -/
  | port (addr : Word) (n : Nat)
  /-- Until the access, `rput` or `sigwait` with this number completes (R130). -/
  | access (id : Nat)
  /-- A vector memory instruction until it is accepted (R227). -/
  | vaccept
  /-- `mlease` until the grant (R256). -/
  | lease
  /-- A matrix command until it is accepted (R250). -/
  | maccept
  /-- `mwait` until the commands of its core accepted before acceptance number n have finished (R264). -/
  | mwait (n : Nat)
  /-- `bar` or `barto` until the release (R169, R170). -/
  | barrier
  /-- A worker: `waitw`, `waitw.s`, or the waiting part of `tret` and `tjoin` (R271, R278). -/
  | worker (steal : Bool)
  /-- `flrecv` until the claim (R300); the destination and the tag of its place in a queue are kept for the fill. -/
  | flrecv (d : Dst) (tag : Nat)
  /-- The taking of a trap until the thread's vector instructions have completed (R226). -/
  | trap (t : Trap)
  /-- A page-fault drop until the thread's vector instructions have completed (R129, R226): address and access kind. -/
  | drop (addr : Word) (kind : AKind)
  deriving DecidableEq, Repr

/-- The state of a thread slot (R74): waiting and eligible are `ready` with the earliest issue clock in the future or
not. -/
inductive Status where
  | empty
  | ready
  | parked (w : Wait)
  | dropped (addr : Word) (kind : AKind)
  | halting
  deriving DecidableEq, Repr

/-- What a memory port reads in calibration mode for an operation (R333, R394): the owner address, the requests that follow the
present one, the working tick at which that one is answered, and, once it has been performed, memory as it was read. -/
structure Port where
  addr : Word
  left : Nat
  due : Nat
  view : Option (Mem × List Nat) := none
  deriving DecidableEq, Repr

/-- A thread: its context image (R354) and its place in issue. -/
structure Thread where
  status : Status := .empty
  /-- An owner trap holds it until Firn resumes or ends it (R345): the resume pc of its record. -/
  trapped : Option Word := none
  /-- Swapped out by Firn (R353). -/
  away : Bool := false
  /-- Its launch has been stopped: it issues nothing more and ends as `halt` does (R312, R389). -/
  stopping : Bool := false
  pc : Word := 0
  /-- The copy of the line it entered (R40); none before it has entered the line of its pc. -/
  line : Option (BitVec 512) := none
  /-- Earliest issue clock (R43), and what it would be without the stall turns that remain, which a captured thread
  loses (R46). -/
  ready : Nat := 0
  base : Nat := 0
  /-- The thread was captured while its instruction waited, which then completes without its stall turns (R46). -/
  cut : Bool := false
  /-- What the port of its tile reads for it (R333). -/
  port : Option Port := none
  regs : Vector GReg 32 := Vector.replicate 32 {}
  pend : List Pend := []
  rb : BitVec 3 := 0
  lev0 : Level := {}
  lev1 : Level := {}
  /-- Of two active levels, level 1 is the inner one. -/
  inner1 : Bool := false
  segs : Vector Seg 8 := Vector.replicate 8 {}
  w : Vector VReg 8 := Vector.replicate 8 {}
  /-- m1 to m3 at 1 to 3; entry 0 is never read: m0 reads all ones. -/
  m : Vector MReg 4 := Vector.replicate 4 {}
  k1 : BitVec 6 := 0
  k2 : BitVec 6 := 0
  k3 : BitVec 6 := 0
  /-- Join cell (R270). -/
  jcell : Option Nat := none
  hint : Hint := .c
  /-- Ticks of drift pause since placement (R338). -/
  paused : Nat := 0
  handler : Word := 0
  det : Bool := false
  inh : Bool := false
  dz : Bool := false
  sb : Bool := false
  trapPc : Word := 0
  trapSucc : Word := 0
  trapCause : Word := 0
  trapInfo : Word := 0
  seed : Word := 0
  /-- Error counts (R352). -/
  data : BitVec 24 := 0
  misuse : BitVec 24 := 0
  /-- i0 to i15; i5 is read from the module's epoch count (R320). -/
  ids : Vector Word 16 := Vector.replicate 16 0
  /-- Owner-relative thread id (R12). -/
  id : Nat := 0
  owner : Nat := 0
  /-- Key of its launch, and the number of its placement. -/
  launch : Nat := 0
  serial : Nat := 0
  /-- Turns issued since it took its physical slot (R323). -/
  turns : Nat := 0
  /-- Victim cores still to try in this pass, and the logical core tried last in each class of R271. -/
  pass : List Nat := []
  tried : Vector (Option Nat) 4 := Vector.replicate 4 none
  /-- Logical tile whose dispenser gave it a record last, in each class of R279. -/
  gave : Vector (Option Nat) 4 := Vector.replicate 4 none
  deriving DecidableEq, Repr

/-! ### Memory traffic -/

/-- What an access does at its perform point (R146). Widths: `dbl` 8 bytes, else 4. -/
inductive Access where
  | load
  /-- The bits of the mask are replaced. -/
  | store (data mask : BitVec 512)
  | amo (op : AmoOp) (dbl : Bool) (v : Word)
  | swap (dbl : Bool) (v : Word)
  | cas (dbl : Bool) (e v : Word)
  | fadd (dbl : Bool) (v : Word)
  | sigup (set : Bool) (v : Word)
  | sigwait (c : SigCond) (v : Word)
  | depset (v : Word)
  | depdec
  deriving DecidableEq, Repr

/-- How far a request has come: on its way, at the controller without a free watch or with one (R165), performed at
its bank. -/
inductive Stage where | sent | waiting | watch | performed
  deriving DecidableEq, Repr

/-- A piece of a load's result: `size` bytes from byte `off`, extended to 64 bits, for `dst`. -/
structure Piece where
  off : Nat
  size : Nat
  signed : Bool
  dst : Dst
  deriving DecidableEq, Repr

/-- Who made a request. -/
inductive By where
  /-- An ordinary access of a thread. -/
  | ordinary
  /-- A relaxed access of a thread. -/
  | relaxed
  /-- The vector instruction numbered n. -/
  | vector (n : Nat)
  /-- The matrix command numbered n. -/
  | matrix (n : Nat)
  /-- A unit of the copy numbered n on channel ch. -/
  | copy (ch n : Nat)
  /-- A commit of a barrier, by its key (R173). -/
  | commit (key : Nat)
  /-- A line that a thread enters (R81). -/
  | fetch
  /-- In calibration mode, the read of a table of level n by a thread's page walk (R124, R333). -/
  | walk (level : Nat)
  /-- A floe-class write of a thread or of its tile's port to a landing slot (R153, R154, R304). -/
  | floe
  deriving DecidableEq, Repr

/-- A request in flight between its issue and its completion (R146 to R149). -/
structure Req where
  id : Nat
  by_ : By
  path : Path
  /-- Its maker: thread slot, number of the placement, owner, launch. -/
  g : Nat
  serial : Nat := 0
  owner : Nat
  launch : Nat := 0
  tile : Nat
  key : Nat
  size : Nat
  acc : Access
  /-- Count class 1 to 3 (R117). -/
  kcls : Nat
  stage : Stage := .sent
  /-- What it read (old bytes), the first at the low end. -/
  data : BitVec 512 := 0
  pieces : List Piece := []
  /-- Owner address of its first byte. -/
  addr : Word := 0
  /-- Issue clock, stall count and prefixed pair of the instruction that waits for it (R43, R130). -/
  clock : Nat := 0
  stall : Stall := 0
  pair : Bool := false
  /-- Of a `sigwait`, the fields that it read and their values, put back when it is withdrawn (R34, R166). -/
  ops : List (RegNum × Word) := []
  /-- Working tick before which the memory port does not answer it (R333); 0 outside calibration mode. -/
  due : Nat := 0
  /-- Place among those that wait for a watch (R165). -/
  ticket : Nat := 0
  /-- Of a line fetch: its core has emptied its line store since the line was read (R96), which does not take it. -/
  stale : Bool := false
  /-- Of a line fetch: its own thread has executed `isync` since the line was read, and enters it no more (R96). -/
  void : Bool := false
  deriving DecidableEq, Repr

/-- An `rput` on its way or waiting (R178, R179): the target register is fixed when it arrives. -/
structure Rput where
  id : Nat
  /-- The sending and the target thread, with the numbers of their placements. -/
  sender : Nat
  senderNo : Nat := 0
  target : Nat
  targetNo : Nat := 0
  reg : Fin 32
  val : Word
  arrived : Option (Fin 32) := none
  /-- The target has read the register since it became this operation's turn (R178). -/
  read : Bool := false
  deriving DecidableEq, Repr

/-! ### Engines of a tile -/

/-- States of a declared buffer (R185). -/
inductive BufState where | empty | filling | full | draining
  deriving DecidableEq, Repr

/-- A buffer descriptor (R184). -/
structure Buf where
  declared : Bool := false
  addr : Word := 0
  len : Nat := 0
  state : BufState := .empty
  status : Nat := 0
  ch : Nat := 0
  deriving DecidableEq, Repr

/-- The shapes of copies (R190 to R192). -/
inductive CopyKind where
  | flat
  /-- Row length, rows, source stride, destination stride. -/
  | block (len rows sstr dstr : Nat)
  /-- Element size, count, owner address of the index list. -/
  | gather (e n : Nat) (list : Word)
  | scatter (e n : Nat) (list : Word)
  deriving DecidableEq, Repr

/-- How a copy moves its bytes once it is accepted (R183). -/
inductive CopyMode where
  | bytes
  | convert (src dst : BitVec 5)
  deriving DecidableEq, Repr

/-- A started copy (R180 to R192). -/
structure Copy where
  /-- Its number, and the pc of the instruction that started it. -/
  n : Nat
  pc : Word
  g : Nat
  serial : Nat := 0
  /-- Thread slot 0 to 31 of the tile. -/
  slot : Nat
  owner : Nat
  launch : Nat
  kind : CopyKind
  buf : Nat
  /-- Source segment: base, limit and type at the start, and the offset. -/
  base : Word
  limit : Nat
  sty : Nat := 0
  off : Word
  len : Nat
  cf : Option (Fin 32)
  mode : CopyMode := .bytes
  /-- Destination bytes handed to the banks so far, and in all. -/
  next : Nat := 0
  dlen : Nat := 0
  /-- Length and stride of a destination row (a flat copy and a gather are one row). -/
  drow : Nat := 0
  dstr : Nat := 0
  status : Nat := 0
  stopped : Bool := false
  /-- Waits for Firn's wake (R181): the fault address. -/
  fault : Option Word := none
  /-- Of a gather or scatter, the index of the element that it moves and whether it was read uncorrectably; none before
  the index is read (R192). -/
  idx : Option (Nat × Bool) := none
  /-- The request for its next source data was lost on a link (R393). -/
  lost : Bool := false
  /-- What the port reads for it (R333). -/
  port : Option Port := none
  deriving DecidableEq, Repr

/-- A copy channel (R180, R182). -/
structure Chan where
  queue : List Copy := []
  /-- Accepted copies, oldest first; all but the last have handed over their last unit. -/
  runs : List Copy := []
  ptr : Vector Nat 32 := Vector.replicate 32 0
  deriving DecidableEq, Repr

/-- A vector instruction in a core's queue or in the unit (R224). -/
structure VOp where
  n : Nat
  g : Nat
  pc : Word
  ins : Instr
  /-- The vector and mask registers that it reads at acceptance (R224). -/
  ws : List (BitVec 3) := []
  ms : List (BitVec 2) := []
  /-- The vector register whose lanes it keeps where its mask is inactive, and their format. -/
  old : Option (BitVec 3 × BitVec 4) := none
  /-- The value of the g field as a source, and the thread's seed (R221). -/
  gval : Word
  seed : Word
  /-- The destination of a scalar result. -/
  dst : Dst := .none
  /-- Results computed at acceptance. -/
  wres : Option (BitVec 3 × BitVec 2048) := none
  mres : Option (BitVec 2 × BitVec 256) := none
  sres : Option Word := none
  /-- Format of the bank that a load decodes (R123), and the lanes it reads with the number of their first bit, counted
  from memory key 0. -/
  bank : BitVec 5 := 0
  reads : List (Nat × Nat) := []
  /-- Clock of its tile at which its result is written (R225). -/
  due : Nat := 0
  deriving DecidableEq, Repr

/-- A matrix command between issue and its end (R250), or the place of a new lease in command order (R246). -/
structure MCmd where
  n : Nat
  /-- The thread that issued it (R254: a command outlives it). -/
  who : Who
  core : Nat
  /-- Number of the lease under which it issued. -/
  lease : Nat
  ins : Instr
  /-- Place of a new lease: sets ms to 1.0. -/
  grant : Bool := false
  /-- Its number in acceptance order. -/
  seq : Nat := 0
  /-- Offset register and second register, read at issue. -/
  oval : Word := 0
  gval : Word := 0
  /-- Tile-store offset of the operand, and the scales captured at acceptance. -/
  off : Nat := 0
  scale : List Byte := []
  /-- Format of the operand bank and accumulator type at acceptance. -/
  fmt : BitVec 5 := 0
  acc : BitVec 2 := 0
  deriving DecidableEq, Repr

/-- A lease (R248): its number, core, holder, commands neither reserved nor used. -/
structure Lease where
  id : Nat
  core : Nat
  holder : Nat
  left : Nat
  deriving DecidableEq, Repr

/-- A request for a lease: core, thread, commands asked for (R249). -/
structure LeaseReq where
  core : Nat
  who : Who
  n : Nat
  deriving DecidableEq, Repr

/-- The matrix state of a tile (R246). -/
structure Matrix where
  c : List (BitVec 64) := []
  acctype : BitVec 2 := 0
  b : List Byte := []
  btag : BitVec 5 := 0
  ms : BitVec 32 := 0x3F800000
  /-- acctype, btag and ms in acceptance order. -/
  accA : BitVec 2 := 0
  btagA : BitVec 5 := 0
  msA : BitVec 32 := 0x3F800000
  lease : Option Lease := none
  last : Nat := 3
  /-- Pending requests, which are never withdrawn (R249). -/
  requests : List LeaseReq := []
  /-- Commands issued and not accepted, in issue order; accepted ones in acceptance order. -/
  issued : List MCmd := []
  queue : List MCmd := []
  deriving DecidableEq, Repr

/-- A task record (R265). -/
structure Task where
  pc : Word
  frame : Word
  a0 : Word
  a1 : Word
  deriving DecidableEq, Repr

/-- A deque entry (R267): a record or a stolen marker, with its slot and join cell. -/
structure DEntry where
  marker : Bool
  slot : Nat
  jcell : Option Nat
  task : Task
  launch : Nat
  deriving DecidableEq, Repr

/-- What a dispenser holds (R279): a record, or the resume of a join cell (R277); its launch and its poster's core. -/
structure DRec where
  launch : Nat
  core : Nat
  task : Task
  resume : Option Nat := none
  deriving DecidableEq, Repr

/-- States of a landing slot (R287). -/
inductive FSlot where
  | free
  | held (g : Nat)
  /-- Sent by a thread, with the number of its sending (R288). -/
  | outbound (n : Nat)
  | landed
  deriving DecidableEq, Repr

/-- A floe between tiles, or at a memory stop of the tile that sent it (R287). -/
structure Floe where
  /-- The number of its sending (R288). -/
  id : Nat
  owner : Nat
  /-- Sending tile, and the logical tile it is sent to; 0xFFFF a memory stop. -/
  src : Nat
  dest : Nat
  img : List Byte
  /-- Physical tile to which it is sent. -/
  tile : Nat := 0
  /-- Payload bytes that its memory stop has moved (R290), and the working tick at which the last of them is answered
  (R333). -/
  next : Nat := 0
  due : Nat := 0
  /-- What the port reads for the translation of its next unit (R333), and whether the request for that unit was lost on a
  link (R393). -/
  port : Option Port := none
  lost : Bool := false
  deriving DecidableEq, Repr

/-- A tile: everything that moves with it (R328). -/
structure Tile where
  fmt : Vector (BitVec 5) 24 := Vector.replicate 24 0
  bufs : Vector Buf 32 := Vector.replicate 32 {}
  /-- Core whose descriptor operation was applied last (R185, R121). -/
  blast : Nat := 3
  chans : Vector Chan 4 := Vector.replicate 4 {}
  mx : Matrix := {}
  /-- Core the vector unit served last, and the instructions it has accepted. -/
  vlast : Nat := 3
  vrun : List VOp := []
  /-- Dispenser queue, spilled included, and the id of the thread served last in each class of R279. -/
  disp : List DRec := []
  dlast : Vector (Option Nat) 5 := Vector.replicate 5 none
  /-- Floe port (R283 to R291). -/
  seq : BitVec 32 := 0
  slots : Vector FSlot 16 := Vector.replicate 16 .free
  landing : List Nat := []
  waiters : List Nat := []
  appended : Nat := 0
  refilled : Nat := 0
  /-- What the port reads of its spill ring, and of the spilled records of its dispenser (R333). -/
  refill : Option Port := none
  back : Option Port := none
  /-- Power (R307, R310, R311, R313). -/
  ballast : Word := 0
  stagger : Word := 0
  point : Fin 4 := 3
  hot : Bool := false
  overBudget : Bool := false
  temp : Nat := 0
  power : Nat := 0
  /-- Sluice lowers it below its request by so many points (R312). -/
  lowered : Nat := 0
  /-- Ballast steps that this tick still gives its array (R310). -/
  steps : Nat := 0
  /-- Gating (R315 to R317): the tick at which it was last not idle, the tick at which it was gated, whether it asks for a
  wake, and the events held at its ingress in the order of their arrival. -/
  busyAt : Nat := 0
  gated : Option Nat := none
  wake : Bool := false
  held : List Instr := []
  deriving DecidableEq, Repr

/-- An entry on its way into a queue: its value (none while the result that it waits for is pending), the clock of the
pushing core at which the result is written (R102), the pushing thread with the number of its placement, and the number of
the access or vector instruction whose result it is. -/
structure Push where
  val : Option Word
  due : Nat
  g : Nat
  serial : Nat
  tag : Nat
  deriving DecidableEq, Repr

/-- An actor channel's binding (R176, R196): peer endpoint as logical tile × 4 + core, and allowance. -/
structure Bind where
  peer : Nat
  allow : Nat
  stage : Nat
  launch : Nat
  deriving DecidableEq, Repr

/-- A core. -/
structure Core where
  /-- Core clocks that have passed, drift pauses left out: the rotation counter of R76 too. -/
  clock : Nat := 0
  /-- Slot issued last (R75). -/
  last : Nat := 7
  /-- Line store: line address with owner, and line (R81). -/
  lines : List (Nat × Word × BitVec 512) := []
  /-- Inbound chain queues from N, E, S, W (R174). -/
  chain : Vector (List Word) 4 := Vector.replicate 4 []
  flight : Vector (List Push) 4 := Vector.replicate 4 []
  inb : Option Bind := none
  outb : Option Bind := none
  infifo : List Word := []
  inflight : List Push := []
  /-- Credits held of the output channel (R176), and those on their way back to the peer's pusher. -/
  credits : Nat := 0
  returning : Nat := 0
  /-- Places of the inbound queues (chain N, E, S, W, actor) from which an instruction has popped that may still give its
  entries back (R34, R166). -/
  kept : Vector Nat 5 := Vector.replicate 5 0
  vq : List VOp := []
  /-- Hardware part, bottom first, and the spilled part, newest first (R267). -/
  deque : List DEntry := []
  spilled : List DEntry := []
  tlb : List (Nat × Word × Nat × BitVec 64) := []
  /-- Overflow queue: architectural slots, head first (R322), and the slot in each physical slot. -/
  overflow : List Nat := []
  phys : List (Option Nat) := [some 0, some 1, some 2, some 3, some 4, some 5, some 6, some 7]
  /-- Physical slot in a swap, and the clock at which it ends (R323). -/
  swap : List (Nat × Nat) := []
  /-- Core clock at which a physical slot last changed its thread (R323); 0 where none is listed. -/
  since : FMap Nat := []
  deriving DecidableEq, Repr

/-! ### Barriers, launches, inlets, owners, dies -/

/-- An arrival at a barrier (R168): thread, whether by `barto`, its limit in working ticks from the arrival, and the
destination of the status with the tag of its place in a queue (R170). -/
structure Arrival where
  g : Nat
  timed : Bool
  limit : Nat
  since : Nat
  dst : Dst
  tag : Nat
  deriving DecidableEq, Repr

/-- A contribution of `dadd` (R172). -/
structure Contrib where
  /-- The contributing thread, and its owner-relative id. -/
  who : Who
  id : Nat
  addr : Word
  key : Nat
  dbl : Bool
  val : Word
  deriving DecidableEq, Repr

/-- A barrier controller of a berth and a launch (R167, R168). -/
structure Barrier where
  broken : Bool := false
  arrivals : List Arrival := []
  contribs : List Contrib := []
  /-- A completed generation whose release waits for its commits (R173). -/
  committing : Bool := false
  /-- Waiters still to be released, and waiters of a broken barrier still to leave: on gated tiles these are held at the
  ingress (R316). -/
  releasing : List Arrival := []
  breaking : List Arrival := []
  /-- The clocks at which the cores of the berth stood when a limit of its waiters ran out (R168, R170). -/
  ranAt : FMap Nat := []
  deriving DecidableEq, Repr

/-- A placement still to be made (R377): its number k, and the fixed thread id, or none for mode 0. -/
structure Place where
  k : Nat
  fixed : Option Nat
  /-- Stage, for an ACTORS launch (R380). -/
  stage : Nat := 0
  i7 : Word := 0
  i8 : Word := 0
  i9 : Word := 0
  pc : Word := 0
  deriving DecidableEq, Repr

/-- A launch: its record in the launch table (R378). -/
structure Launch where
  owner : Nat := 0
  id : Nat := 0
  inlet : Nat := 0
  /-- Index of its packet in the inlet, and order in which packets started. -/
  index : Nat := 0
  order : Nat := 0
  actors : Bool := false
  pinned : Bool := false
  det : Bool := false
  signal : Word := 0
  start : Nat := 0
  started : Bool := false
  /-- Argument block: address, length, six doublewords read once. -/
  args : Word := 0
  argLen : Nat := 0
  argv : Vector Word 6 := Vector.replicate 6 0
  seed : Word := 0
  region : Word := 0
  e : Nat := 0
  j : Nat := 0
  p : Nat := 0
  floe : Bool := false
  stations : Word := 0
  base : Nat := 0
  places : List Place := []
  live : Nat := 0
  error : Nat := 0
  admitted : Bool := false
  done : Bool := false
  deriving DecidableEq, Repr

/-- A WAIT in progress (R381): key of the signal, condition, operand, limit and the working tick it began. -/
structure PWait where
  key : Option Nat
  addr : Word
  c : SigCond
  v : Word
  limit : Nat
  since : Nat
  /-- The signal's key and its place while it waits for a watch (R165). -/
  ticket : Option (Nat × Nat) := none
  /-- A state satisfied the condition. -/
  hit : Bool := false
  deriving DecidableEq, Repr

/-- The number of an inlet's COPY, and whether its next access over a link was lost (R393). -/
structure CopyLink where
  n : Nat
  lost : Bool := false
  deriving DecidableEq, Repr

/-- A started packet that has not completed (R369): its index and how it ends. -/
inductive Pkt where
  /-- A launch by key, and whether its first signal update is held for a page (R372). -/
  | launch (index lk : Nat) (first : Bool)
  /-- A completion-signal update held for a page (R372): signal, first placement of a launch, error, whether the first
  update of a launch is still to be made before it, and whether it is a WAIT's (R369). -/
  | held (index : Nat) (signal : Word) (start : Option Nat) (err : Nat) (first wait : Bool)
  /-- A SIGNAL whose target's page is not resident (R382). -/
  | signal (index : Nat) (target : Word) (set : Bool) (v : Word) (sig : Word)
  | wait (index : Nat) (w : PWait) (sig : Word)
  /-- A COPY: total, next byte (R383), its error so far, and whether it waits for Firn's wake. -/
  | copy (index : Nat) (src dst : Word) (len next : Nat) (sig : Word) (err : Nat) (stuck : Bool) (link : CopyLink)
  deriving DecidableEq, Repr

/-- An inlet (R365, R366); its control block in memory mirrors these fields. -/
structure Inlet where
  owner : Nat := 0
  n : Nat := 4
  prio : Nat := 0
  die : Nat := 0
  ring : Word := 0
  block : Word := 0
  key : BitVec 256 := 0
  head : BitVec 32 := 0
  tail : BitVec 32 := 0
  seq : Word := 0
  dropped : BitVec 32 := 0
  stalls : BitVec 32 := 0
  /-- Holds a hardware slot of its die's engine (R369). -/
  slot : Bool := false
  live : List Pkt := []
  /-- Packets that wait for Firn's wake, in the order of their records: as requester 2, as requester 3 (R358). -/
  held : List Nat := []
  heldCopy : List Nat := []
  /-- Working tick of the last phase wait (R370). -/
  retry : Option Nat := none
  deriving DecidableEq, Repr

/-- A trap record (R346) with what the queue logic needs. -/
structure TrapRec where
  bytes : List Byte
  fatal : Bool
  g : Nat
  resume : Word
  deriving DecidableEq, Repr

/-- TDISP interface states (R389). -/
inductive Tdisp where | unlocked | locked | run | error
  deriving DecidableEq, Repr

/-- An owner (R10). -/
structure Owner where
  berths : List Nat := []
  root : BitVec 52 := 0
  det : Bool := false
  agentPolicy : Bool := false
  /-- Trap queue (R347): owner address of its control block, and its counts and held records. -/
  tq : Word := 0
  tqTail : Nat := 0
  tqHead : Nat := 0
  tqHeld : List TrapRec := []
  tqRecs : List TrapRec := []
  tqEsc : BitVec 32 := 0
  /-- Records whose copies S has passed to the owner's agent, and whether the agent's last supervisor call for a thread
  was carried out or answered with an error (R359). -/
  passed : List TrapRec := []
  call : Option Bool := none
  /-- Park queue, spill rings and entries per tile (R289, R294). -/
  park : Word := 0
  rings : Word := 0
  ringN : Nat := 0
  /-- Launch id assigned last (R378). -/
  lastLaunch : Nat := 0
  data : BitVec 24 := 0
  misuse : BitVec 24 := 0
  tdisp : Tdisp := .unlocked
  /-- A STOP waits for the end of the owner's launches (R389), and whether the last request was carried out or answered
  with a TDISP error response. -/
  closing : Bool := false
  reply : Option Bool := none
  deriving DecidableEq, Repr

/-- A fault record (R129). -/
structure FRec where
  addr : Word
  pc : Word
  ident : BitVec 32
  owner : Nat
  kind : AKind
  requester : Nat
  ch : Nat
  deriving DecidableEq, Repr

/-- A shootdown in progress (R360): owner, address, page size. -/
structure Shoot where
  owner : Nat
  addr : Word
  size : Nat
  deriving DecidableEq, Repr

/-- A grant that waits for its ramp slot (R307): a placement by launch and number, or a lease; its tile, and the Sluice
tick in which it was requested. -/
structure RampWait where
  place : Option (Nat × Nat)
  tile : Nat
  since : Nat
  deriving DecidableEq, Repr

/-- The drift state of a die within a pause (R324 to R329). -/
inductive DieDrift where | running | draining | shifting | reported
  deriving DecidableEq, Repr

/-- An SPDM session of a die's responder (R388). -/
inductive Spdm where | none | connected | exchanged | session
  deriving DecidableEq, Repr

/-- Privilege levels of a hart (R15, R356). -/
inductive Priv where | m | s | u
  deriving DecidableEq, Repr

/-- An RV64GC hart of a Firn complex (R15, R356): its integer and floating-point registers, floating-point status, pc and
privilege level, and at level U the owner whose inlet agent it runs. -/
structure Hart where
  x : Vector Word 32 := Vector.replicate 32 0
  f : Vector Word 32 := Vector.replicate 32 0
  fcsr : BitVec 32 := 0
  pc : Word := 0
  mode : Priv := .m
  agent : Nat := 0
  deriving DecidableEq, Repr

/-- What S has taken and not finished (R357): a fault record, a trap record of a thread, or a packet of an inlet. -/
inductive Work where
  | fault (r : FRec)
  | trap (g : Nat)
  | packet (inlet index : Nat)
  deriving DecidableEq, Repr

/-- A piece of work of S, its owner, and the bytes of the record or the packet (R361). -/
structure Service where
  owner : Nat
  work : Work
  bytes : List Byte
  deriving DecidableEq, Repr

/-- A die (R8, R15). -/
structure Die where
  /-- Drift phase (R319). -/
  phase : Fin 5 := 0
  drift : DieDrift := .running
  /-- Repair map (R8): the failed row of each of the 20 columns (13: none). -/
  repair : Vector (Fin 14) 20 := Vector.replicate 20 13
  /-- Physical slots of each core of a site (R8): column × 13 + physical row, then core; a listed number replaces 8. -/
  slots : FMap Nat := []
  faults : List FRec := []
  held : List FRec := []
  /-- Records written to the queue in memory so far (R129, R358). -/
  faultTail : Nat := 0
  wake : Option WakeId := none
  convert : Option WakeId := none
  shoot : List Shoot := []
  tlb2 : List (Nat × Word × Nat × BitVec 64) := []
  /-- Sluice (R307 to R309), in milliwatts: level in eighths of one, measured power, granted this tick, ramp misses. -/
  level : Nat := 0
  measured : Nat := 0
  granted : Nat := 0
  lone : Bool := false
  /-- The Sluice tick that `granted` and `lone` belong to. -/
  tickNo : Nat := 0
  /-- The number of the last tick that its unit ran (R306). -/
  ticked : Nat := 0
  rampMiss : Nat := 0
  /-- Waiting grants in the order they were requested. -/
  waiting : List RampWait := []
  calMiss : Nat := 0
  dropCount : Nat := 0
  corrected : Nat := 0
  notifyDrop : Nat := 0
  /-- In-rush FIFO of tiles with the ticks at which they joined it, whether the arbiter performs a wake, and the half tick
  at which its last in-rush period ends (R317). -/
  inrush : List (Nat × Nat) := []
  inrushBusy : Bool := false
  inrushFree : Nat := 0
  /-- The inlets served last within each priority: of those that wait for a hardware slot, and of those whose packets
  start (R369). -/
  slotLast : Vector Nat 4 := Vector.replicate 4 0
  startLast : Vector Nat 4 := Vector.replicate 4 0
  /-- Tick at which the drift controller reported the end of shift (R364). -/
  reportAt : Nat := 0
  /-- Firn complex (R15, R356, R357): its harts; S runs; the interrupts and exceptions that M delegates to S (fault queue,
  trap queue, inlet engine, timer, exceptions of U); what S is servicing, the latest first; last reports of the eight
  harts; monitor log. -/
  harts : Vector Hart 8 := Vector.replicate 8 {}
  running : Bool := false
  delegated : BitVec 5 := 0
  servicing : List Service := []
  reports : Vector Nat 8 := Vector.replicate 8 0
  log : List (List Byte) := []
  /-- The S image in memory and its measurement (R362, R387). -/
  image : List Byte := []
  measure : List Byte := []
  /-- The die's copy of the table in boot flash, and the signature of the S image (R386, R387). -/
  flash : List Byte := []
  imageSig : List Byte := []
  spdm : Spdm := .none
  /-- SPDM answers sent, newest first. -/
  answers : List (List Byte) := []
  transcript : List Byte := []
  deriving DecidableEq, Repr

/-- A drift pause (R324): none, or the freeze tick. -/
structure Pause where
  freeze : Nat
  deriving DecidableEq, Repr

/-- Who writes memory from outside the tiles (R356, R392): Firn at levels M and S, an owner's inlet agent, a host or peer
through the owner's interface, or a client over Ultra Ethernet. -/
inductive Writer where
  | firn
  | agent (owner : Nat)
  | link (owner : Nat)
  | client (owner : Nat)
  deriving DecidableEq, Repr

/-- What one step of the module is: the next party to move. -/
inductive Move where
  /-- The barrel of its core issues the thread, when its turn is next (R75, R76). -/
  | thread (g : Nat)
  /-- Requests reach their banks in one clock (R121). -/
  | reach (ids : List Nat)
  /-- An event of the opcode table. -/
  | event (i : Instr)
  /-- A copy channel reads its next unit and hands it to its bank (R180). -/
  | hand (tile ch : Nat)
  /-- Timebase ticks pass. -/
  | tick (n : Nat)
  /-- Core clocks of a tile pass, up to the next at which a slot issues (R75, R76). -/
  | clock (tile n : Nat)
  /-- Memory is written: by Firn at a physical address, by another writer at an owner address (R356, R390, R392). -/
  | write (w : Writer) (addr : Nat) (bytes : List Byte)
  /-- A storage unit of memory becomes uncorrectable (R352). -/
  | poison (unit : Nat)
  /-- A register of a thread becomes uncorrectable (R352): 0 to 31 general, 32 to 39 vector, 40 to 43 mask, 44 to 51
  segment, 52 to 57 loop (count, start and end of each level), 58 to 65 system registers 0 to 7, 66 to 81 identity. -/
  | spoil (g reg : Nat)
  /-- A corrected error is counted (R352). -/
  | corrected (die : Nat)
  /-- The boot flash or the S image of a die is set, before a reset (R386). -/
  | flash (die : Nat) (table image sig : List Byte)
  /-- A hart of a die runs; what its program is the spec does not give (R356). -/
  | hart (die k : Nat) (x : Hart)
  /-- S takes the oldest fault record of its die's queue (R357, R358). -/
  | faultTaken (die : Nat)
  /-- S takes the oldest trap record of an owner's queue (R357, R359). -/
  | trapTaken (owner : Nat)
  /-- Firn restores a thread that it has swapped out (R354). -/
  | restore (g : Nat)
  deriving DecidableEq, Repr

/-- The state of the module. -/
structure State where
  /-- Module timebase in ticks (R98, R319), and ticks outside drift pauses since reset (R170). -/
  timebase : Nat
  work : Nat
  /-- Completed pauses, which i5 reads (R320), and the tick of the last resume (R338). -/
  epochs : Nat
  lastResume : Nat
  pause : Option Pause
  /-- log2 E (R319), the eight Sluice parameters in thousandths (R306), and the other fields of the table (R386). -/
  log2E : Nat
  sluice : Vector Nat 8
  /-- The values of the table, above which Firn raises none (R306). -/
  limits : Vector Nat 8
  log2W : Nat
  revision : Nat
  order : List Nat
  pcieRole : BitVec 8
  trapAgent : Bool
  lifeCycle : BitVec 8
  /-- Fuses: rollback counter and life-cycle state (R386, R387). -/
  rollback : Nat
  fusedLife : BitVec 8
  bootStatus : Nat
  booted : Bool
  /-- Calibration mode: delays of the strips, and whether Firn has assigned an owner since the reset (R333). -/
  calib : Option (Vector Nat 5)
  assigned : Bool
  /-- Keys of the memory controllers by owner tag (R391). -/
  keys : FMap (BitVec 512)
  /-- The primary, the tick of its last heartbeat, and that of the last promotion (R364). -/
  primary : Nat
  heartbeat : Nat
  promotedAt : Nat
  mem : Mem
  /-- Uncorrectable 64-byte units (R352), lock map (R127) and frame-owner map (R390), by number. -/
  poison : List Nat
  locks : List Nat
  frames : FMap Nat
  /-- Owner tag under whose key the bytes of a frame were written, of frames that have had an owner; 41 for a key that is
  erased (R391). -/
  coded : FMap Nat
  threads : FMap Thread
  cores : FMap Core
  tiles : FMap Tile
  dies : FMap Die
  owners : FMap Owner
  launches : FMap Launch
  barriers : FMap Barrier
  inlets : FMap Inlet
  traffic : List Req
  /-- Requests that have reached their bank and wait there, in the order of service, as bank and number (R121, R146); of
  each bank of a tile store, the core of the tile served last. -/
  atBank : List (Nat × Nat)
  served : FMap Nat
  /-- Clock of its tile at which a bank of a tile store last served an access (R121). -/
  usedAt : FMap Nat
  rputs : List Rput
  floes : List Floe
  /-- The model's own fields: whose moves come next, the thread that issues, the core whose barrel moves when the
  agenda is empty, the next request number, the placements made, the packets started, the draws of the free values. -/
  agenda : List Move
  cur : Nat
  focus : Nat
  nextId : Nat
  serials : Nat
  starts : Nat
  draws : Nat
  deriving DecidableEq, Repr

/-- The module right after reset (R385 and the rules that INVENTORY.md names field by field; entries 3 to 6 for the
fields whose reset value the spec does not give). -/
def State.reset : State where
  timebase := 0
  work := 0
  epochs := 0
  lastResume := 0
  pause := none
  log2E := 21
  sluice := #v[120000, 120000, 20, 1000, 1000, 5200000, 4000, 105000]
  limits := #v[120000, 120000, 20, 1000, 1000, 5200000, 4000, 105000]
  log2W := 20
  revision := 0
  order := [0, 1, 2, 3, 4, 5, 6, 7]
  pcieRole := 0
  trapAgent := false
  lifeCycle := 0
  rollback := 0
  fusedLife := 0
  bootStatus := 0
  booted := false
  calib := none
  assigned := false
  keys := []
  primary := 0
  heartbeat := 0
  promotedAt := 0
  mem := []
  poison := []
  locks := []
  frames := []
  coded := []
  threads := []
  cores := []
  tiles := []
  dies := []
  owners := []
  launches := []
  barriers := []
  inlets := []
  traffic := []
  atBank := []
  served := []
  usedAt := []
  rputs := []
  floes := []
  agenda := []
  cur := 0
  focus := 0
  nextId := 0
  serials := 0
  starts := 0
  draws := 0

end Sys2Proof.Machine
end

