-- ==== Sys2Proof/Machine/Ops.lean ====
section
/-! DEFINITION. Named operations over maps, memory, parties and names, translation, the trap queue and the taking of
traps (spec/01 R9 to R14, spec/07 R115 to R129, spec/17 R343 to R352). -/

namespace Sys2Proof.Machine

open Host (Outcome)

/-! ### Maps -/

/-- The value listed for key `k`. -/
def mget {α : Type} : FMap α → Nat → Option α
  | [], _ => none
  | (k', v) :: t, k => if k' = k then some v else mget t k

/-- The map with value `v` for key `k`. -/
def mput {α : Type} : FMap α → Nat → α → FMap α
  | [], k, v => [(k, v)]
  | (k', v') :: t, k, v =>
    if k' = k then (k, v) :: t else if k < k' then (k, v) :: (k', v') :: t else (k', v') :: mput t k v

/-! ### Memory -/

/-- A byte of memory; what is not listed reads as 0 (R385). -/
def memByte : Mem → Nat → Byte
  | [], _ => 0
  | (a', b) :: t, a => if a' = a then b else memByte t a

/-- Insert a byte that is not 0. -/
def memInsert : Mem → Nat → Byte → Mem
  | [], a, b => [(a, b)]
  | (a', b') :: t, a, b =>
    if a' = a then (a, b) :: t else if a < a' then (a, b) :: (a', b') :: t else (a', b') :: memInsert t a b

/-- Remove an address. -/
def memErase : Mem → Nat → Mem
  | [], _ => []
  | (a', b') :: t, a => if a' = a then t else (a', b') :: memErase t a

/-- Write a byte; writing 0, as an unlisted byte reads, removes the entry. -/
def memPut (m : Mem) (a : Nat) (b : Byte) : Mem := if b = 0 then memErase m a else memInsert m a b

/-- Every entry lies above `lo` in rising order and holds no 0. -/
def memWfFrom : Nat → Mem → Bool
  | _, [] => true
  | lo, (a, b) :: t => decide (lo ≤ a) && b != 0 && memWfFrom (a + 1) t

/-- The canonical form: strictly rising addresses, no entry that reads as an unlisted byte. -/
def memWf (m : Mem) : Bool := memWfFrom 0 m

/-- `n` bytes from `a`, little-endian. -/
def memNat (m : Mem) (a : Nat) : Nat → Nat
  | 0 => 0
  | n + 1 => (memByte m a).toNat + 256 * memNat m (a + 1) n

/-- Write the low `n` bytes of `v` at `a`, little-endian. -/
def memWriteNat (m : Mem) (a : Nat) : Nat → Nat → Mem
  | 0, _ => m
  | n + 1, v => memWriteNat (memPut m a (BitVec.ofNat 8 v)) (a + 1) n (v / 256)

/-- Write a list of bytes at `a`. -/
def memWriteList (m : Mem) (a : Nat) : List Byte → Mem
  | [] => m
  | b :: t => memWriteList (memPut m a b) (a + 1) t

/-- A list of `n` bytes from `a`. -/
def memReadList (m : Mem) (a : Nat) : Nat → List Byte
  | 0 => []
  | n + 1 => memByte m a :: memReadList m (a + 1) n

/-- Replace the bits of `mask` in `n` bytes at `a` by those of `data`. -/
def memWriteMask (m : Mem) (a : Nat) : Nat → Nat → Nat → Mem
  | 0, _, _ => m
  | n + 1, data, mask =>
    let old := memByte m a
    let mk : Byte := BitVec.ofNat 8 mask
    let new := (old &&& ~~~ mk) ||| (BitVec.ofNat 8 data &&& mk)
    memWriteMask (if mk = 0 then m else memPut m a new) (a + 1) n (data / 256) (mask / 256)

/-- A list of bytes as a number, little-endian. -/
def natOfBytes : List Byte → Nat
  | [] => 0
  | b :: t => b.toNat + 256 * natOfBytes t

/-- The low `n` bytes of a number, little-endian. -/
def bytesOfNat : Nat → Nat → List Byte
  | 0, _ => []
  | n + 1, v => BitVec.ofNat 8 v :: bytesOfNat n (v / 256)

/-- Write zero to `n` bytes from `a`: every entry of the range is removed. -/
def memWipe (m : Mem) (a n : Nat) : Mem := m.filter fun c => !(decide (a ≤ c.1) && decide (c.1 < a + n))

/-- Memory key of byte `o` of the tile store of tile `T`. -/
def tileKey (T o : Nat) : Nat := 2 ^ 52 + T * 2 ^ 21 + o

/-- The bank of a memory key (R146): a 64 KiB bank of a tile store; of a memory-side cache and of the registers, each
aligned block of 64 bytes, for which the spec gives no map (DESIGN CHOICE, entry 89); a UALink window of 2^40 addresses
is one bank, since one thread's accesses through it stay in order (R393). -/
def bankOf (key : Nat) : Nat :=
  if 2 ^ 52 ≤ key then key / 2 ^ 16
  else if Config.hbmBytes ≤ key ∧ key < 2 ^ 51 then 2 ^ 60 + key / 2 ^ 40
  else 2 ^ 46 + key / 64

/-! ### Names of parties (R9, R11, R12) -/

def tileOf (g : Nat) : Nat := g / 32
def coreOf (g : Nat) : Nat := g / 8
def slotOf (g : Nat) : Nat := g % 8
def berthOf (T : Nat) : Nat := T / 48
def dieOf (T : Nat) : Nat := T / 240
def rowOf (T : Nat) : Nat := T % 48 / 4
def colOf (T : Nat) : Nat := T % 4

/-- The neighbour to the north (0), east (1), south (2) or west (3) within the berth (R174). -/
def neighbour (T : Nat) (dir : Nat) : Option Nat :=
  match dir with
  | 0 => if rowOf T = 0 then none else some (T - 4)
  | 1 => if colOf T = 3 then none else some (T + 1)
  | 2 => if rowOf T = 11 then none else some (T + 4)
  | _ => if colOf T = 0 then none else some (T - 1)

/-- The opposite direction. -/
def opposite (dir : Nat) : Nat := (dir + 2) % 4

end Sys2Proof.Machine

namespace Sys2Proof.Machine.State

open Sys2Proof.Machine

def thread (s : State) (g : Nat) : Thread := (mget s.threads g).getD {}
def core (s : State) (c : Nat) : Core := (mget s.cores c).getD {}
def tile (s : State) (T : Nat) : Tile := (mget s.tiles T).getD {}
def die (s : State) (d : Nat) : Die := (mget s.dies d).getD {}
def owner (s : State) (o : Nat) : Owner := (mget s.owners o).getD {}
def launch (s : State) (lk : Nat) : Launch := (mget s.launches lk).getD {}
def barrier (s : State) (k : Nat) : Barrier := (mget s.barriers k).getD {}
def inlet (s : State) (i : Nat) : Inlet := (mget s.inlets i).getD {}

def setThread (s : State) (g : Nat) (t : Thread) : State := { s with threads := mput s.threads g t }
def setCore (s : State) (c : Nat) (x : Core) : State := { s with cores := mput s.cores c x }
def setTile (s : State) (T : Nat) (x : Tile) : State := { s with tiles := mput s.tiles T x }
def setDie (s : State) (d : Nat) (x : Die) : State := { s with dies := mput s.dies d x }
def setOwner (s : State) (o : Nat) (x : Owner) : State := { s with owners := mput s.owners o x }
def setLaunch (s : State) (lk : Nat) (x : Launch) : State := { s with launches := mput s.launches lk x }
def setBarrier (s : State) (k : Nat) (x : Barrier) : State := { s with barriers := mput s.barriers k x }
def setInlet (s : State) (i : Nat) (x : Inlet) : State := { s with inlets := mput s.inlets i x }
def setMem (s : State) (m : Mem) : State := { s with mem := m }

def modThread (s : State) (g : Nat) (f : Thread → Thread) : State := s.setThread g (f (s.thread g))
def modCore (s : State) (c : Nat) (f : Core → Core) : State := s.setCore c (f (s.core c))
def modTile (s : State) (T : Nat) (f : Tile → Tile) : State := s.setTile T (f (s.tile T))
def modDie (s : State) (d : Nat) (f : Die → Die) : State := s.setDie d (f (s.die d))
def modOwner (s : State) (o : Nat) (f : Owner → Owner) : State := s.setOwner o (f (s.owner o))
def modLaunch (s : State) (lk : Nat) (f : Launch → Launch) : State := s.setLaunch lk (f (s.launch lk))
def modBarrier (s : State) (k : Nat) (f : Barrier → Barrier) : State := s.setBarrier k (f (s.barrier k))
def modInlet (s : State) (i : Nat) (f : Inlet → Inlet) : State := s.setInlet i (f (s.inlet i))

end Sys2Proof.Machine.State

namespace Sys2Proof.Machine

open Host (Outcome)

/-- Key of a barrier controller: berth and launch (R167). -/
def barKey (berth lk : Nat) : Nat := lk * 64 + berth

/-- Key of a launch: its owner and its launch id (R378). -/
def launchKey (owner id : Nat) : Nat := id * 64 + owner

/-- The module tile of logical tile `t` of owner `o` (R11). -/
def ownerTile (s : State) (o t : Nat) : Option Nat := (s.owner o).berths[t / 48]?.map (· * 48 + t % 48)

/-- The number of logical tiles of an owner, which i4 holds (R11). -/
def ownerTiles (s : State) (o : Nat) : Nat := 48 * (s.owner o).berths.length

/-- The module thread of owner-relative id `i` (R12). -/
def ownerThread (s : State) (o i : Nat) : Option Nat := (ownerTile s o (i / 32)).map (· * 32 + i % 32)

/-- The owner to which a berth is assigned; 0 for none. -/
def berthOwner (s : State) (b : Nat) : Nat :=
  match s.owners.find? (fun p => p.2.berths.contains b) with
  | some p => p.1
  | none => 0

/-- The logical tile of a module tile within its owner. -/
def logicalTile (s : State) (T : Nat) : Nat :=
  let o := berthOwner s (berthOf T)
  48 * (s.owner o).berths.idxOf (berthOf T) + T % 48

/-- A thread is live from placement until its halt completes (R179). -/
def live (s : State) (g : Nat) : Bool := (s.thread g).status != .empty

/-- The owner-relative ids that live threads of a launch hold, as module threads in rising order. -/
def launchThreads (s : State) (lk : Nat) : List Nat :=
  (s.threads.filter fun p => p.2.status != .empty && p.2.launch == lk).map (·.1)

/-- The members of a barrier group: live threads of the launch in the berth (R167). -/
def members (s : State) (berth lk : Nat) : List Nat :=
  (launchThreads s lk).filter fun g => berthOf (tileOf g) == berth

/-- The tile holds a thread of a deterministic launch (R334). -/
def tileDet (s : State) (T : Nat) : Bool :=
  s.threads.any fun p => tileOf p.1 == T && p.2.status != .empty && p.2.det

/-- The core runs in strict rotation (R76). -/
def coreDet (s : State) (c : Nat) : Bool :=
  s.threads.any fun p => coreOf p.1 == c && p.2.status != .empty && p.2.det

/-! ### Error counts (R352) -/

/-- Saturating increment of a 24-bit count. -/
def bump (c : BitVec 24) : BitVec 24 := if c = BitVec.allOnes 24 then c else c + 1

/-- The error-count layout of a thread or an owner: data [47:24], misuse [23:0]. -/
def errWord (data misuse : BitVec 24) : Word := (0 : BitVec 16) ++ data ++ misuse

/-- Misuse counted for an owner. -/
def misuseOwner (s : State) (o : Nat) : State := s.modOwner o fun x => { x with misuse := bump x.misuse }

/-- The thread in slot `g` now, as a maker of operations. -/
def whoIn (s : State) (g : Nat) : Who :=
  let t := s.thread g
  { g := g, serial := t.serial, owner := t.owner, launch := t.launch }

/-- The thread is still live: the slot is not empty and no later thread has it. -/
def Who.live (w : Who) (s : State) : Bool := Machine.live s w.g && (s.thread w.g).serial == w.serial

/-- The maker of a request. -/
def Req.who (r : Req) : Who := { g := r.g, serial := r.serial, owner := r.owner, launch := r.launch }

/-- The thread that started a copy. -/
def Copy.who (x : Copy) : Who := { g := x.g, serial := x.serial, owner := x.owner, launch := x.launch }

/-- Misuse counted for a thread while it is live and for its owner. -/
def misuseBoth (s : State) (w : Who) : State :=
  let s := misuseOwner s w.owner
  if w.live s then s.modThread w.g fun t => { t with misuse := bump t.misuse } else s

/-- A launch of the table keeps the first nonzero error code set for it. -/
def launchError (s : State) (lk code : Nat) : State :=
  match mget s.launches lk with
  | some l => if l.error = 0 then s.setLaunch lk { l with error := code } else s
  | none => s

/-- A data error (R352): counted for the thread while it is live and for its owner, and its launch's error code
0x12. -/
def dataError (s : State) (w : Who) : State :=
  let s := s.modOwner w.owner fun x => { x with data := bump x.data }
  let s := launchError s w.launch 0x12
  if w.live s then s.modThread w.g fun t => { t with data := bump t.data } else s

/-- `n` data errors of one maker. -/
def dataErrors (s : State) (w : Who) : Nat → State
  | 0 => s
  | n + 1 => dataErrors (dataError s w) w n

/-- A data error where `bad` holds. -/
def countBad (s : State) (w : Who) (bad : Bool) : State := if bad then dataError s w else s

/-- A maker of operations that is no thread: Firn or an engine of an owner, for a launch or none. -/
def ownerWho (o lk : Nat) : Who := { g := Config.threads, serial := 0, owner := o, launch := lk }

/-! ### Storage units (R352) -/

/-- The storage unit of a key. -/
def unitOf (key : Nat) : Nat := key / 64

/-- Bytes within one storage unit: zero where the unit is uncorrectable. -/
def unitRead (s : State) (key n : Nat) : Nat := if s.poison.contains (unitOf key) then 0 else memNat s.mem key n

/-- A write of the masked bits within one storage unit: the other bytes of an uncorrectable unit become zero, and its
check bits fresh. -/
def unitWrite (s : State) (key n data mask : Nat) : State :=
  let u := unitOf key
  let s := if s.poison.contains u then
      { s with mem := memWipe s.mem (u * 64) 64, poison := s.poison.filter (· != u) }
    else s
  { s with mem := memWriteMask s.mem key n data mask }

/-- Bits of `n` bytes. -/
def maskOf (n : Nat) : Nat := 2 ^ (8 * n) - 1

/-! ### Regions and translation (R115, R124 to R128) -/

/-- The regions of the owner address space (R115). -/
inductive Region where | window | signal | mmio | paged | unmapped
  deriving DecidableEq, Repr

def region (a : Word) : Region :=
  let n := a.toNat
  if n < 0x100000000 then .window
  else if n < 0x8000000000 then .unmapped
  else if n < 0xC000000000 then .signal
  else if n < 0x10000000000 then .mmio
  else if n < 0x100000000000000 then .paged
  else .unmapped

/-- How a walk ends (R128), the check of the access left to `leafAllows`. -/
inductive Walk where
  /-- A leaf: page base, log2 of the page size, the entry with its frame aligned to the page. -/
  | leaf (base : Word) (lg : Nat) (e : BitVec 64)
  | absent
  | malformed
  deriving DecidableEq, Repr

/-- The reserved fields of an entry are zero (R126). -/
def pteReserved (e : BitVec 64) : Bool := e.extractLsb' 52 12 == 0 && e.extractLsb' 10 2 == 0 && !e.getLsbD 4

/-- An entry with any of R, W, X set is a leaf (R126). -/
def pteLeaf (e : BitVec 64) : Bool := e.extractLsb' 1 3 != 0

/-- The 16 entries of a 64 KiB group agree (R126). -/
def groupOk (s : State) (table first : Nat) (e0 : BitVec 64) : Nat → Bool
  | 0 => true
  | k + 1 =>
    let e : BitVec 64 := BitVec.ofNat 64 (unitRead s (table + 8 * (first + k)) 8)
    e.getLsbD 6 && e.extractLsb' 12 4 == BitVec.ofNat 4 k &&
      (e &&& ~~~ 0xF000#64) == (e0 &&& ~~~ 0xF000#64) && groupOk s table first e0 k

/-- Index of the entry that a walk for `a` reads at level `l` (R125). -/
def entryIdx (a : Word) (l : Nat) : Nat := (a.toNat >>> (12 + 9 * l)) % (if l = 4 then 256 else 512)

/-- Physical address of that entry in the table at `table`. -/
def entryAddr (a : Word) (l table : Nat) : Nat := table + 8 * entryIdx a l

/-- What an entry of level `l` says to a walk: it ends, or goes on in the next table. -/
inductive WalkStep where
  | done (w : Walk)
  | table (t : Nat)
  deriving DecidableEq, Repr

/-- The entry `e` read at level `l` of the table at physical `table` (R125 to R128). Where R126 to R128 leave an entry open
(entry 21, DESIGN CHOICE): a C bit above level 0 and in an entry that points to a table is not looked at, the frame bits
below the page size of a leaf at level 1 or 2 are not looked at, and a present entry with R, W and X clear at level 0 is
fatal. A K bit in an entry that points to a table is not looked at either (DESIGN CHOICE, entry 21): K marks leaves (R127). -/
def walkEntry (s : State) (a : Word) (l table : Nat) (e : BitVec 64) : WalkStep :=
  if !e.getLsbD 0 then .done .absent
  else if !pteReserved e then .done .malformed
  else if pteLeaf e then
    .done (match l with
      | 0 =>
        if e.getLsbD 6 then
          if groupOk s table (entryIdx a 0 / 16 * 16) e 16 then .leaf (a &&& ~~~ 0xFFFF#64) 16 (e &&& ~~~ 0xF000#64)
          else .malformed
        else .leaf (a &&& ~~~ 0xFFF#64) 12 e
      | 1 => .leaf (a &&& ~~~ 0x1FFFFF#64) 21 (e &&& ~~~ 0x1FF000#64)
      | 2 => .leaf (a &&& ~~~ 0x3FFFFFFF#64) 30 (e &&& ~~~ 0x3FFFF000#64)
      | _ => .malformed)
  else if l = 0 then .done .malformed
  else .table (e.toNat % 2 ^ 52 / 2 ^ 12 * 2 ^ 12)

/-- The entry that a walk reads: zero bits where its unit is uncorrectable (R352). -/
def entryAt (s : State) (a : Word) (l table : Nat) : BitVec 64 := BitVec.ofNat 64 (unitRead s (entryAddr a l table) 8)

/-- The walk from level `l` with the table at physical `table` (R125). -/
def walkFrom (s : State) (a : Word) : Nat → Nat → Walk
  | l, table =>
    match walkEntry s a l table (entryAt s a l table) with
    | .done w => w
    | .table t =>
      match l with
      | 0 => .malformed
      | l' + 1 => walkFrom s a l' t

/-- The walk of an owner's page tables (R125). -/
def pageWalk (s : State) (o : Nat) (a : Word) : Walk := walkFrom s a 4 (s.owner o).root.toNat

/-- A walk from level `l` with the table at physical `table` reads an uncorrectable unit: that of an entry, or one of the two
that hold the group of a 64 KiB page (R126, R352). -/
def walkBadFrom (s : State) (a : Word) : Nat → Nat → Bool
  | l, table =>
    let bad (p : Nat) : Bool := s.poison.contains (unitOf p)
    let e := entryAt s a l table
    let first := entryAddr a l table / 128 * 128
    bad (entryAddr a l table) ||
      (l == 0 && e.getLsbD 0 && pteLeaf e && e.getLsbD 6 && (bad first || bad (first + 64))) ||
      (match walkEntry s a l table e with
        | .done _ => false
        | .table t =>
          match l with
          | 0 => false
          | l' + 1 => walkBadFrom s a l' t)

/-- A walk of the owner's tables for `a`, made for `w`, counts what is uncorrectable among them (R352). -/
def countWalk (s : State) (w : Who) (a : Word) : State :=
  countBad s w (walkBadFrom s a 4 (s.owner w.owner).root.toNat)

/-- The leaf grants an access of the kind in the address's region (R128); signals and MMIO never cross a UALink
window (R393). -/
def leafAllows (e : BitVec 64) (a : Word) (k : AKind) (phys : Nat) : Bool :=
  let attr := (e.extractLsb' 7 3).toNat
  let attrOk := match region a with
    | .paged => attr == 0
    | .signal => attr == 1
    | .mmio => attr == 2
    | _ => false
  let perm := match k with
    | .load => e.getLsbD 1
    | .store | .atomic => e.getLsbD 2
    | .fetch => e.getLsbD 3
  attrOk && perm && !e.getLsbD 5 && (attr == 0 || phys < Config.hbmBytes || 2 ^ 51 ≤ phys)

/-- The physical address of `a` in a page with leaf `e` of size 2 ^ lg. -/
def leafPhys (e : BitVec 64) (lg : Nat) (a : Word) : Nat :=
  e.toNat % 2 ^ 52 / 2 ^ 12 * 2 ^ 12 + a.toNat % 2 ^ lg

/-- The outcome of translating an access (R128); `miss` asks for a walk. -/
inductive Xlat where
  | ok (phys : Nat)
  | miss
  | fatal
  deriving DecidableEq, Repr

/-- The entry of a TLB for an owner's address (R124). -/
def tlbFind (tlb : List (Nat × Word × Nat × BitVec 64)) (o : Nat) (a : Word) : Option (Nat × BitVec 64) :=
  (tlb.find? fun x => x.1 == o && a.toNat / 2 ^ x.2.2.1 == x.2.1.toNat / 2 ^ x.2.2.1).map fun x => (x.2.2.1, x.2.2.2)

/-- Translation at the memory port through the first-level TLB of a core (R124). -/
def translate (s : State) (core o : Nat) (a : Word) (k : AKind) : Xlat :=
  match tlbFind (s.core core).tlb o a with
  | none => .miss
  | some (lg, e) => if leafAllows e a k (leafPhys e lg a) then .ok (leafPhys e lg a) else .fatal

/-- Translation by an engine: the walk's outcome at once; `miss` means a page that is not resident. -/
def translateNow (s : State) (o : Nat) (a : Word) (k : AKind) : Xlat :=
  match pageWalk s o a with
  | .absent => .miss
  | .malformed => .fatal
  | .leaf _ lg e => if leafAllows e a k (leafPhys e lg a) then .ok (leafPhys e lg a) else .fatal

/-- A list with a new entry in front; when it already holds `n`, a victim of the free choice is dropped. -/
def cacheInsert {α : Type} (n : Nat) (draw : Nat) (l : List α) (x : α) : List α :=
  if l.length < n then x :: l else x :: l.eraseIdx (Config.victim draw % n)

/-- The second-level TLB of a thread's die, then the tables (R124). -/
def walkVia (s : State) (die o : Nat) (a : Word) : Walk :=
  match tlbFind (s.die die).tlb2 o a with
  | some (lg, e) => .leaf a lg e
  | none => pageWalk s o a

/-- The first page of the `n` bytes from `a` that is not resident, by its first byte of those; none when every page is. -/
def absentIn (s : State) (o : Nat) (a : Word) (n : Nat) : Option Word :=
  let pages := (a.toNat + n - 1) / 4096 - a.toNat / 4096
  (a :: (List.range pages).map fun k => BitVec.ofNat 64 ((a.toNat / 4096 + 1 + k) * 4096)).find? fun x =>
    pageWalk s o x == .absent

/-- The home die of a physical address (R14; entry 7): 96 GiB a die. -/
def homeDie (p : Nat) : Nat := p / (96 * 2 ^ 30) % 8

/-- First byte of the kernel-reserved region of a die: the highest 256 MiB of its HBM, of which the highest 192 MiB take
what its ingress hold spills (R327), and the rest the fault queue (R358) and the backing regions of the context caches
(R353). Their places are a DESIGN CHOICE (entry 90). -/
def kernelBase (d : Nat) : Nat := (d + 1) * (96 * 2 ^ 30) - 256 * 2 ^ 20

/-- The kernel-reserved regions of the dies, which no owner has (R127, R327). -/
def kernelRegion (p : Nat) : Bool := decide (p < Config.hbmBytes) && decide (kernelBase (homeDie p) ≤ p)

/-- What the place that a request reaches says to its owner tag (R116, R127, R390). -/
inductive Gate where
  | pass
  | drop (die : Nat)
  | locked
  deriving DecidableEq, Repr

/-- The checks of the tile ingress and of the memory controller (R127, R390). -/
def gate (s : State) (o key : Nat) : Gate :=
  if 2 ^ 52 ≤ key then
    let T := (key - 2 ^ 52) / 2 ^ 21
    if o = 0 ∨ berthOwner s (berthOf T) = o then .pass else .drop (dieOf T)
  else if key < Config.hbmBytes then
    if o = 0 then .pass
    else if s.locks.contains (key / 4096) ∨ kernelRegion key then .locked
    else if (mget s.frames (key / 4096)).getD 0 = o then .pass
    else .drop (homeDie key)
  else .pass

/-- The counts of a request that is dropped or refused (R127, R390). -/
def gateCount (s : State) (o key : Nat) : State :=
  match gate s o key with
  | .pass => s
  | .drop d => misuseOwner (s.modDie d fun x => { x with dropCount := x.dropCount + 1 }) o
  | .locked => misuseOwner s o

/-- Where Firn's own writes to an owner's structures go: the physical address behind an owner address, permissions
aside (the structures of R347 and R366 are resident). -/
def physOf (s : State) (o : Nat) (a : Word) : Option Nat :=
  match pageWalk s o a with
  | .leaf _ lg e => some (leafPhys e lg a)
  | _ => none

/-- A data error in a structure of an owner that no thread of a launch writes itself (R352). -/
def ownerError (s : State) (o lk : Nat) : State := launchError (s.modOwner o fun x => { x with data := bump x.data }) lk 0x12

/-- Bytes written at a memory key for an owner and a launch, storage unit by storage unit, `n` of them at most: one whose
other bytes are uncorrectable is counted (R352). -/
def unitWriteList (s : State) (o lk p : Nat) : Nat → List Byte → State
  | 0, _ => s
  | n + 1, bs =>
    if bs.isEmpty then s
    else
      let now := bs.take (64 - p % 64)
      let s := if s.poison.contains (unitOf p) ∧ now.length < 64 then ownerError s o lk else s
      unitWriteList (unitWrite s p now.length (natOfBytes now) (maskOf now.length)) o lk (p + now.length) n
        (bs.drop (64 - p % 64))

/-- Write bytes with an owner tag into a structure of owner `o` at an address that does not cross a page, for a launch or
none: nothing where it is not mapped; dropped and counted where the memory controller refuses it (R390); what is uncorrectable
among the tables is counted (R352). -/
def ownerWrite (s : State) (tag o lk : Nat) (a : Word) (bs : List Byte) : State :=
  let s := if walkBadFrom s a 4 (s.owner o).root.toNat then ownerError s o lk else s
  match physOf s o a with
  | some p => if gate s tag p = .pass then unitWriteList s o lk p (bs.length / 64 + 2) bs else gateCount s o p
  | none => s

/-- Read bytes within one storage unit at an owner address; none where it is not mapped. -/
def ownerRead (s : State) (o : Nat) (a : Word) (n : Nat) : Option (List Byte) :=
  (physOf s o a).map fun p => bytesOfNat n (unitRead s p n)

/-- Where a port engine's access to an owner's structure goes (R127, R128): through a leaf that permits it. -/
def enginePhys (s : State) (o : Nat) (a : Word) (k : AKind) : Option Nat :=
  match translateNow s o a k with
  | .ok p => some p
  | _ => none

/-- Bytes within one 64-byte block written by a port engine for `w` with the owner's tag: discarded where no leaf permits
them, discarded and counted where the memory controller refuses them (R127, R390), and counted where the rest of the unit is
uncorrectable (R352). -/
def engineWrite1 (s : State) (w : Who) (a : Word) (bs : List Byte) : State :=
  let s := countWalk s w a
  match enginePhys s w.owner a .store with
  | none => s
  | some p =>
    if gate s w.owner p = .pass then
      unitWrite (countBad s w (s.poison.contains (unitOf p) && decide (bs.length < 64))) p bs.length
        (natOfBytes bs) (maskOf bs.length)
    else gateCount s w.owner p

/-- Bytes within one 64-byte block read by a port engine with the owner's tag: zero where they are refused or
uncorrectable. -/
def engineRead1 (s : State) (o : Nat) (a : Word) (n : Nat) : List Byte :=
  match enginePhys s o a .load with
  | none => List.replicate n 0
  | some p =>
    if gate s o p = .pass ∧ !s.poison.contains (unitOf p) then memReadList s.mem p n else List.replicate n 0

/-- What a port engine's read within one 64-byte block counts for `w`: a refused read, an uncorrectable one. -/
def engineCount1 (s : State) (w : Who) (a : Word) : State :=
  let s := countWalk s w a
  match enginePhys s w.owner a .load with
  | none => s
  | some p =>
    if gate s w.owner p = .pass then countBad s w (s.poison.contains (unitOf p)) else gateCount s w.owner p

/-- Bytes of an aligned 64-byte block from owner address `a` on. -/
def blockRest (a : Word) : Nat := 64 - a.toNat % 64

/-- A port engine's write, in `n` blocks at most. -/
def engineWriteIn (s : State) (w : Who) (a : Word) : Nat → List Byte → State
  | 0, _ => s
  | n + 1, bs =>
    if bs.isEmpty then s
    else
      let k := blockRest a
      engineWriteIn (engineWrite1 s w a (bs.take k)) w (a + BitVec.ofNat 64 k) n (bs.drop k)

/-- A port engine's read of `len` bytes, in `n` blocks at most. -/
def engineReadIn (s : State) (o : Nat) (a : Word) : Nat → Nat → List Byte
  | 0, _ => []
  | n + 1, len =>
    if len = 0 then []
    else
      let k := min (blockRest a) len
      engineRead1 s o a k ++ engineReadIn s o (a + BitVec.ofNat 64 k) n (len - k)

/-- What a port engine's read of `len` bytes counts, in `n` blocks at most. -/
def engineCountIn (s : State) (w : Who) (a : Word) : Nat → Nat → State
  | 0, _ => s
  | n + 1, len =>
    if len = 0 then s
    else
      let k := min (blockRest a) len
      engineCountIn (engineCount1 s w a) w (a + BitVec.ofNat 64 k) n (len - k)

/-- A port engine writes bytes for `w` at an owner address; each 64-byte block is translated and checked by itself. -/
def engineWrite (s : State) (w : Who) (a : Word) (bs : List Byte) : State :=
  engineWriteIn s w a (bs.length / 64 + 2) bs

/-- A port engine reads `n` bytes at an owner address. -/
def engineRead (s : State) (o : Nat) (a : Word) (n : Nat) : List Byte := engineReadIn s o a (n / 64 + 2) n

/-- What that read counts, for `w` (R352, R390). -/
def engineCount (s : State) (w : Who) (a : Word) (n : Nat) : State := engineCountIn s w a (n / 64 + 2) n

/-- Tables that a walk reads from level `l` down (R125). -/
def walkReads (s : State) (a : Word) : Nat → Nat → Nat
  | l, table =>
    match walkEntry s a l table (entryAt s a l table) with
    | .done _ => 1
    | .table t =>
      match l with
      | 0 => 1
      | l' + 1 => 1 + walkReads s a l' t

/-- The strip that holds a tile (R16, R319). -/
def stripOf (s : State) (T : Nat) : Fin 5 := ⟨(berthOf T % 5 + (s.die (dieOf T)).phase.val) % 5, by omega⟩

/-- The delay of a memory request of a tile in calibration mode (R333). -/
def calibDelay (s : State) (T : Nat) : Nat :=
  match s.calib with
  | none => 0
  | some d => d[stripOf s T] * 256

/-- Working tick at which a memory request issued now is answered in calibration mode; 0 outside it. -/
def calibDue (s : State) (T : Nat) : Nat := if s.calib.isSome then s.work + calibDelay s T else 0

/-! ### What the memory port reads in calibration mode (R333, R394) -/

/-- Tables that a port of tile `T` reads for the translation of `a` (R124, R333). -/
def readTables (s : State) (T o : Nat) (a : Word) : Nat :=
  if (tlbFind (s.die (dieOf T)).tlb2 o a).isSome then 0 else walkReads s a 4 (s.owner o).root.toNat

/-- The port of tile `T` is asked for `n` answers in turn at owner address `a`, behind those for the tables of its
translation; nothing is asked outside calibration mode, or where memory is not read. -/
def askPort (s : State) (T o : Nat) (a : Word) (n : Nat) : Option Port :=
  let k := readTables s T o a + n
  if s.calib.isNone ∨ region a ≠ .paged ∨ k = 0 then none else some { addr := a, left := k - 1, due := calibDue s T }

/-- The present request is performed, or the next one is made once its answer is there. -/
def Port.go (s : State) (T : Nat) (p : Port) : Port :=
  if p.view.isNone then { p with view := some (s.mem, s.poison) }
  else if p.left ≠ 0 ∧ p.due ≤ s.work then { p with left := p.left - 1, due := calibDue s T, view := none }
  else p

/-- The last answer is there, and due. -/
def Port.answered (s : State) (p : Port) : Bool := p.view.isSome && p.left == 0 && decide (p.due ≤ s.work)

/-- Memory as the answers of a port show it: at the moment at which the last request was performed. -/
def portView (s : State) (p : Option Port) : State :=
  match p.bind (·.view) with
  | some v => { s with mem := v.1, poison := v.2 }
  | none => s

/-- What `f` changes as it reads memory through the answers of a port: memory itself stays. -/
def underView (s : State) (p : Option Port) (f : State → State) : State :=
  { f (portView s p) with mem := s.mem, poison := s.poison }

/-- An answer for tile `T` that is delivered after its due time is counted (R333). -/
def lateAnswer (s : State) (T due : Nat) : State :=
  if due ≠ 0 ∧ due < s.work then s.modDie (dieOf T) fun d => { d with calMiss := d.calMiss + 1 } else s

/-- The last answer of a port of tile `T` is delivered. -/
def latePort (s : State) (T : Nat) (p : Option Port) : State := lateAnswer s T ((p.map (·.due)).getD 0)

/-- What the port has been asked for the operation of thread `g` at owner address `a`. -/
def threadPort (s : State) (g : Nat) (a : Word) : Option Port := (s.thread g).port.filter fun p => p.addr == a

/-- The operation of thread `g` that reads at `a` may act: its answers are there, or it need not ask. -/
def portReady (s : State) (g : Nat) (a : Word) (n : Nat) : Bool :=
  (askPort s (tileOf g) (s.thread g).owner a n).isNone || (threadPort s g a).any (·.answered s)

/-- The operation asks the port; one that has asked waits. -/
def portAsk (s : State) (g : Nat) (a : Word) (n : Nat) : State :=
  if (threadPort s g a).isSome then s
  else s.modThread g fun t => { t with port := askPort s (tileOf g) t.owner a n }

/-- The operation has taken its answers. -/
def portDone (s : State) (g : Nat) (a : Word) : State :=
  (latePort s (tileOf g) (threadPort s g a)).modThread g fun t => { t with port := none }

/-- The requests of accesses made in turn at several owner addresses, behind those for the tables of the first: `n` for each,
and one for each table of the others (R333). -/
def portSum (s : State) (T o : Nat) : List (Word × Nat) → Nat
  | [] => 0
  | (a, n) :: l => readTables s T o a + n + portSum s T o l

/-- The accesses of an operation of thread `g` in turn: the address at which it asks its port, and for how many answers. -/
def portPlan (s : State) (g : Nat) : List (Word × Nat) → Option (Word × Nat)
  | [] => none
  | (a, n) :: l => some (a, n + portSum s (tileOf g) (s.thread g).owner l)

/-- The answers to the accesses that an operation of thread `g` makes in turn are there. -/
def portsReady (s : State) (g : Nat) (l : List (Word × Nat)) : Bool := (portPlan s g l).all fun p => portReady s g p.1 p.2

/-- An operation that is no instruction asks for them. -/
def portsAsk (s : State) (g : Nat) (l : List (Word × Nat)) : State :=
  match portPlan s g l with
  | none => s
  | some p => portAsk s g p.1 p.2

/-- The operation has taken them. -/
def portsDone (s : State) (g : Nat) (l : List (Word × Nat)) : State :=
  match portPlan s g l with
  | none => s
  | some p => portDone s g p.1

/-- A request joins the traffic behind those issued before it (R147). -/
def send (s : State) (r : Req) : State :=
  let due := if r.key < 2 ^ 52 then calibDue s r.tile else 0
  { s with traffic := s.traffic ++ [{ r with due := due }], nextId := s.nextId + 1 }

/-- The request for a line of a thread (R81): its translation is that of the moment at which it is made. -/
def sendFetch (s : State) (g : Nat) (la : Word) : State :=
  let t := s.thread g
  match translate s (coreOf g) t.owner la .fetch with
  | .ok p =>
    send s
      { id := s.nextId, by_ := .fetch, path := .ext, g := g, serial := t.serial, owner := t.owner, launch := t.launch
        tile := tileOf g, key := p, size := 64, acc := .load, kcls := 3, addr := la }
  | _ => s

/-- The request for the entry that a thread's page walk for `a` reads at level `l` (R124, R333). -/
def sendWalk (s : State) (g : Nat) (a : Word) (l table : Nat) : State :=
  let t := s.thread g
  send s
    { id := s.nextId, by_ := .walk l, path := .ext, g := g, serial := t.serial, owner := t.owner, launch := t.launch
      tile := tileOf g, key := entryAddr a l table, size := 8, acc := .load, kcls := 3, addr := a }

/-- The thread's page walk reads tables one request at a time: in calibration mode, where the second-level TLB misses
(R333). Elsewhere the walk is one event. -/
def walkByLevel (s : State) (g : Nat) (a : Word) : Bool :=
  s.calib.isSome && (tlbFind (s.die (dieOf (tileOf g))).tlb2 (s.thread g).owner a).isNone

/-- The thread parks (R79); one that waits for a line has asked for it, and one that waits for a walk for the first table
where tables are read one at a time; one that waits for its port has asked it (R333). -/
def parkThread (s : State) (g : Nat) (w : Wait) : State :=
  let s := s.modThread g fun t => { t with status := .parked w }
  match w with
  | .fetch la => sendFetch s g la
  | .walk a _ => if walkByLevel s g a then sendWalk s g a 4 (s.owner (s.thread g).owner).root.toNat else s
  | .port a n => portAsk s g a n
  | _ => s

/-! ### Registers -/

/-- The physical register of a field that names g0 to g31 under rotation base `rb` (R82). -/
def physReg (rb : BitVec 3) (n : RegNum) : Fin 32 :=
  let k := n.toNat
  if 16 ≤ k ∧ k < 24 then ⟨16 + (k - 16 + rb.toNat) % 8, by omega⟩ else ⟨k % 32, by omega⟩

def Thread.reg (t : Thread) (r : Fin 32) : GReg := t.regs[r]
def Thread.setReg (t : Thread) (r : Fin 32) (x : GReg) : Thread := { t with regs := t.regs.set r x }

/-- The writes of `l` that have landed by clock `c` go into the registers, the rest stays: writes to one register
land in issue order (R45). -/
def landList (c : Nat) (held : List (Fin 32)) : List Pend → Vector GReg 32 → List Pend × Vector GReg 32
  | [], regs => ([], regs)
  | p :: l, regs =>
    if p.due ≤ c ∧ p.reg ∉ held then
      landList c held l (regs.set p.reg { regs[p.reg] with val := p.val, bad := false })
    else
      let r := landList c (p.reg :: held) l regs
      (p :: r.1, r.2)

/-- The thread with every fixed-latency write that is due by clock `c` landed. -/
def Thread.land (t : Thread) (c : Nat) : Thread :=
  let r := landList c [] t.pend t.regs
  { t with pend := r.1, regs := r.2 }

/-- All pending writes into the registers, in issue order. -/
def landAllList : List Pend → Vector GReg 32 → Vector GReg 32
  | [], regs => regs
  | p :: l, regs => landAllList l (regs.set p.reg { regs[p.reg] with val := p.val, bad := false })

/-- The thread with every fixed-latency write landed. -/
def Thread.landAll (t : Thread) : Thread := { t with pend := [], regs := landAllList t.pend t.regs }

/-- A wait within an instruction that has issued and completes when the wait ends, its stall turns after it. -/
def Wait.issued : Wait → Bool
  | .access _ | .vaccept | .lease | .maccept | .mwait _ | .barrier | .flrecv _ _ => true
  | .needs _ | .fetch _ | .walk _ _ | .port _ _ | .worker _ | .trap _ | .drop _ _ => false

/-- The thread waits within an instruction that has issued. -/
def Status.issued : Status → Bool
  | .parked w => w.issued
  | _ => false

/-- The thread as its state is captured (R46): every fixed-latency write has landed, and the stall turns that remain are
discarded, those of an instruction that it waits in too. -/
def Thread.capture (t : Thread) : Thread := { t.landAll with ready := min t.ready t.base, cut := t.status.issued }

/-- The thread issues no earlier than clock `c`. -/
def Thread.notBefore (t : Thread) (c : Nat) : Thread := { t with ready := max t.ready c, base := max t.base c }

/-- Fill(r, v): the register takes the value and becomes full (R24); earlier fixed-latency writes to it have landed
under it (R45). -/
def Thread.fill (t : Thread) (r : Fin 32) (v : Word) : Thread :=
  { t with
    pend := t.pend.filter (·.reg != r)
    regs := t.regs.set r { val := v, full := true, remote := false, fill := false } }

/-- The register is marked empty with a fill pending; a fixed-latency write still pending lands first. -/
def Thread.await (t : Thread) (r : Fin 32) : Thread :=
  { t with regs := t.regs.set r { t.regs[r] with full := false, remote := false, fill := true } }

/-- A fixed-latency write that lands at clock `due` (R44): the register is full and its remote bit 0 from issue on
(R24, R177). -/
def Thread.later (t : Thread) (r : Fin 32) (v : Word) (due : Nat) : Thread :=
  { t with
    pend := t.pend ++ [{ reg := r, val := v, due := due }]
    regs := t.regs.set r { t.regs[r] with full := true, remote := false, fill := false } }

/-- Identity register i (R378); i5 reads the pauses completed since reset (R320). -/
def identity (s : State) (t : Thread) (i : Fin 16) : Word :=
  if i = 5 then BitVec.ofNat 64 s.epochs else t.ids[i]

/-- The counts of relaxed accesses in flight (R132). -/
def Thread.outstanding (t : Thread) : Nat := t.k1.toNat + t.k2.toNat + t.k3.toNat

/-- Count a relaxed access of class 1 to 3 in or out (R131). -/
def Thread.count (t : Thread) (cls : Nat) (up : Bool) : Thread :=
  let f (k : BitVec 6) : BitVec 6 := if up then k + 1 else if k = 0 then 0 else k - 1
  match cls with
  | 1 => { t with k1 := f t.k1 }
  | 2 => { t with k2 := f t.k2 }
  | _ => { t with k3 := f t.k3 }

/-! ### Lines and pcs -/

/-- The line address of a pc (R40). -/
def lineAddr (pc : Word) : Word := pc &&& ~~~ 0x3F#64

/-- The head index of a pc, bit 5 included (R40). -/
def headIdx (pc : Word) : Nat := pc.toNat % 64

/-- The sequential successor of a pc in a line with `n` heads (R41). -/
def succPc (n : Nat) (pc : Word) : Word :=
  if headIdx pc < n then pc + 1 else lineAddr pc + 64 + 1

/-- The target of a branch head at `pc` (R36). -/
def targetPc (pc : Word) (t : Target) : Word :=
  (lineAddr pc + (t.off.signExtend 64 <<< 6)) ||| t.hd.setWidth 64

/-- The line store's copy of a line (R81). -/
def lineStored (c : Core) (o : Nat) (la : Word) : Option (BitVec 512) :=
  (c.lines.find? fun x => x.1 == o && x.2.1 == la).map (·.2.2)

/-! ### Traps (R343 to R348) -/

/-- Why an instruction does not complete. -/
inductive Stop where
  /-- Owner trap: cause, subcause, info (R345, R346). -/
  | owner (cause sub : Nat) (info : Word)
  /-- Local trap: cause, subcause, info (R342). -/
  | localTrap (cause sub : Nat) (info : Word)
  /-- The thread parks and attempts the instruction again. -/
  | park (w : Wait)
  /-- The access loses arbitration for a bank of the thread's own tile store (R78). -/
  | forfeit
  deriving DecidableEq, Repr

def illegalInstr : Stop := .owner 1 0 0
def illegalLine : Stop := .owner 2 0 0
def illegalOperand (n : RegNum) : Stop := .owner 3 n.toNat 0
def segFault (cause : Nat) (a : Word) : Stop := .owner 4 cause a
def bufFault (cause : Nat) (a : Word) : Stop := .owner 5 cause a

/-- The kinds of owner traps (R345). -/
def trapFatal (cause : Nat) : Bool :=
  match cause with
  | 4 | 5 | 7 | 9 => false
  | _ => true

/-- The thread's vector instructions have been accepted and have completed, their stores performed (R93, R226). -/
def vectorDone (s : State) (g : Nat) : Bool :=
  !((s.core (coreOf g)).vq.any (·.g == g)) && !((s.tile (tileOf g)).vrun.any (·.g == g)) &&
    !(s.traffic.any fun r => r.path == .vector && r.g == g)

/-! ### Results bound for queues (R46, R102) -/

/-- The entry's result is written by clock `c`. -/
def Push.land (c : Nat) (p : Push) : Push := { p with due := min p.due c }

/-- Every entry on its way into the queues of a core changed. -/
def Core.mapPushes (f : Push → Push) (x : Core) : Core :=
  { x with flight := x.flight.map fun l => l.map f, inflight := x.inflight.map f }

/-- Every entry on its way into a queue changed. -/
def mapPushes (s : State) (f : Push → Push) : State := { s with cores := s.cores.map fun p => (p.1, p.2.mapPushes f) }

/-- The fixed-latency results of a thread that are bound for queues are written as its state is captured (R46). -/
def landPushes (s : State) (g : Nat) : State :=
  let c := max (s.core (coreOf g)).clock (s.thread g).ready
  mapPushes s fun p => if p.g = g then p.land c else p

/-- Nothing reaches a tile in a pause or while it is gated (R316, R326). -/
def tileClosed (s : State) (T : Nat) : Bool := s.pause.isSome || (s.tile T).gated.isSome

/-! ### Physical slots (R322, R323) -/

/-- The overflow thread that takes a physical slot next: the queue head, in normal rotation the first that is not
parked (R323). -/
def overflowNext (s : State) (c : Nat) : Option Nat :=
  let x := s.core c
  if coreDet s c then x.overflow.head?
  else x.overflow.find? fun k =>
    match (s.thread (8 * c + k)).status with
    | .parked _ => false
    | _ => true

/-- The overflow thread `n` takes physical slot `p` at the core's clock, and `back` joins the tail of the queue; the swap
occupies the slot for 64 clocks (R323). -/
def swapIn (s : State) (c p n : Nat) (back : List Nat) : State :=
  s.modCore c fun x =>
    { x with
      phys := x.phys.set p (some n)
      overflow := x.overflow.erase n ++ back
      swap := (p, x.clock + 64) :: x.swap.filter (fun e => e.1 != p)
      since := mput x.since p x.clock }

/-- A thread leaves issue and its place in the overflow queue; its physical slot is left to the queue: in normal rotation
the next overflow thread takes it, in strict rotation it waits for its fixed period (R323, R345, R353; entry 65, DEDUCED). A
swap occupies the slot for 64 clocks: that of a thread that comes in, and with `out` that of one whose context moves to the
context cache; the slot of a thread that has ended is free at once where none comes in (R80). No swap begins in a pause
(R353): the slots are filled at resume (R322). -/
def vacate (s : State) (g : Nat) (out : Bool) : State :=
  let c := coreOf g
  let k := slotOf g
  let s := s.modCore c fun x => { x with overflow := x.overflow.erase k }
  let x := s.core c
  let p := x.phys.idxOf (some k)
  if x.phys.length ≤ p then s
  else if s.pause.isSome then s.setCore c { x with phys := x.phys.set p none }
  else
    match (if coreDet s c then none else overflowNext s c) with
    | some n => swapIn s c p n []
    | none =>
      s.setCore c { x with
        phys := x.phys.set p none
        swap := if out then (p, x.clock + 64) :: x.swap.filter (fun e => e.1 != p) else x.swap }

/-- The bytes of a trap record (R346). -/
def trapBytes (s : State) (t : Thread) (cause sub : Nat) (info pc resume : Word) (head : BitVec 16) : List Byte :=
  bytesOfNat 8 pc.toNat ++ bytesOfNat 8 resume.toNat ++ bytesOfNat 8 info.toNat ++ bytesOfNat 4 t.id ++
  bytesOfNat 4 (t.ids[6].toNat) ++ bytesOfNat 1 cause ++ bytesOfNat 1 sub ++
  bytesOfNat 1 (if trapFatal cause then 1 else 0) ++ bytesOfNat 1 0 ++ bytesOfNat 4 s.epochs ++
  bytesOfNat 8 s.timebase ++ bytesOfNat 2 head.toNat ++ bytesOfNat 14 0

/-- The control block of a trap queue as memory shows it (R347). -/
def tqBlock (x : Owner) : List Byte :=
  bytesOfNat 4 x.tqTail ++ bytesOfNat 4 x.tqHead ++ bytesOfNat 4 x.tqHeld.length ++ bytesOfNat 4 x.tqEsc.toNat ++
  bytesOfNat 48 0

/-- The control block written to memory. -/
def tqMirror (s : State) (o : Nat) : State := ownerWrite s o o 0 (s.owner o).tq (tqBlock (s.owner o))

/-- Append a record to the owner's trap queue (R347), with the owner's tag (R390). -/
def tqAppend (s : State) (o : Nat) (r : TrapRec) : State :=
  let x := s.owner o
  let s := ownerWrite s o o (s.thread r.g).launch (x.tq + 64 + BitVec.ofNat 64 (x.tqTail % 256 * 64)) r.bytes
  tqMirror (s.modOwner o fun x => { x with tqTail := x.tqTail + 1, tqRecs := x.tqRecs ++ [r] }) o

/-- Saturating 32-bit increment. -/
def bump32 (c : BitVec 32) : BitVec 32 := if c = BitVec.allOnes 32 then c else c + 1

/-- Post a trap record: appended, held, or escalated to the monitor (R347, R348). -/
def postTrap (s : State) (o : Nat) (r : TrapRec) : State :=
  let x := s.owner o
  let u := x.tqTail - x.tqHead
  if r.fatal then
    if u < 256 then tqAppend s o r
    else
      let s := s.modDie (dieOf (tileOf r.g)) fun d => { d with log := d.log ++ [r.bytes] }
      let s := launchError s (s.thread r.g).launch 0x30
      tqMirror (s.setOwner o { x with tqEsc := bump32 x.tqEsc }) o
  else if u < 248 ∧ x.tqHeld.isEmpty then tqAppend s o r
  else tqMirror (s.setOwner o { x with tqHeld := x.tqHeld ++ [r] }) o

/-- The head recorded for a pc: the instruction head after a prefix, the prefix when it is itself illegal; 0 for an
illegal line (R346). Where no head has been read, at a fatal translation fault (cause 6) of the entry or the fetch of a line,
R346 gives no head: the model records 0 (DESIGN CHOICE, entry 116). -/
def trapHead (t : Thread) (cause : Nat) : BitVec 16 :=
  match t.line with
  | none => 0
  | some ln =>
    let i := headIdx t.pc
    let h := lineHalf ln i
    let h' := lineHalf ln (i + 1)
    -- `ld`, `ldu`, `st`, `ldp` and `stp` accept the prefix, whatever their fields hold (R58, R87)
    let op := (headOp h').toNat
    let relaxable := decide (i < lineCount ln) && decide (0x40 ≤ op) && decide (op ≤ 0x44)
    if cause = 2 then 0 else if h = 8 ∧ relaxable then h' else h

/-- TAKING AN OWNER TRAP (R345) of a thread whose vector instructions have completed: the thread leaves issue with its
fixed-latency results written and its stall turns discarded, its context moves to the context cache and its physical slot
is left, its record is posted, a fatal trap ends it as `halt` does, and a replayable one holds it until Firn acts. -/
def captureOwner (s : State) (g cause sub : Nat) (info resume : Word) : State :=
  let s := landPushes s g
  let t := { (s.thread g).capture with cut := false, port := none }
  let rec_ : TrapRec :=
    { bytes := trapBytes s t cause sub info t.pc resume (trapHead t cause)
      fatal := trapFatal cause, g := g, resume := resume }
  let s := postTrap s t.owner rec_
  if trapFatal cause then
    let s := if cause = 10 then s else launchError s t.launch 0x11
    vacate (s.setThread g { t with status := .halting, trapped := none }) g true
  else vacate (s.setThread g { t with status := .ready, trapped := some resume }) g true

/-- An owner trap is raised: it is taken once the thread's vector instructions have completed (R226). -/
def ownerTrap (s : State) (g cause sub : Nat) (info resume : Word) : State :=
  if vectorDone s g then captureOwner s g cause sub info resume
  else parkThread s g (.trap (.owner cause sub info resume))

/-- The thread enters line `ln` at its pc: the line is checked and copied (R30, R40). -/
def enterLine (s : State) (g : Nat) (ln : BitVec 512) : State :=
  let t := s.thread g
  if entryLegal ln (headIdx t.pc) then s.setThread g { t with line := some ln, status := .ready }
  else ownerTrap (s.setThread g { t with line := none }) g 2 0 0 t.pc

/-- Entering the line of the thread's pc (R30, R40, R81, R85): the line is copied from the line store and checked, or
the thread parks until it arrives. -/
def enter (s : State) (g : Nat) : State :=
  let t := s.thread g
  let la := lineAddr t.pc
  if region la != .paged then ownerTrap (s.setThread g { t with line := none }) g 2 0 0 t.pc
  else
    match lineStored (s.core (coreOf g)) t.owner la with
    | some ln => enterLine s g ln
    | none =>
      match translate s (coreOf g) t.owner la .fetch with
      | .ok _ => parkThread (s.setThread g { t with line := none }) g (.fetch la)
      | .miss => parkThread (s.setThread g { t with line := none }) g (.walk la .fetch)
      | .fatal => ownerTrap (s.setThread g { t with line := none }) g 6 0 la t.pc

/-- Control is transferred to `pc`: the target line is entered (R85). A thread that is swapped out or trapped enters its
line when it is restored (R171). -/
def transferTo (s : State) (g : Nat) (pc : Word) : State :=
  let t := s.thread g
  let s := s.setThread g { t with pc := pc, line := none }
  if t.away ∨ t.trapped.isSome then s else enter s g

/-- The thread goes on at `pc` without a transfer, or branches back in a loop: within its own line it keeps its copy;
another line, or an index its line does not have, is entered (R40, R84; entry 22). -/
def goTo (s : State) (g : Nat) (pc : Word) : State :=
  let t := s.thread g
  match t.line with
  | some ln =>
    if lineAddr pc = lineAddr t.pc ∧ entryLegal ln (headIdx pc) ∧ !t.away then s.setThread g { t with pc := pc }
    else transferTo s g pc
  | none => transferTo s g pc

/-- The successor of the thread's pc (R41); of a prefixed pair, the head after the pair. -/
def succOf (t : Thread) (pair : Bool) : Word :=
  match t.line with
  | some ln => succPc (lineCount ln) (if pair then t.pc + 1 else t.pc)
  | none => t.pc + 1

/-- TAKING A LOCAL TRAP (R343) at clock `c` of a thread whose vector instructions have completed; `atSucc`: trap pc and
resume pc are the successor (`trap`). -/
def captureLocal (s : State) (g c cause sub : Nat) (info : Word) (atSucc pair : Bool) : State :=
  let s := landPushes s g
  let t := { (s.thread g).capture with cut := false, port := none }
  let succ := succOf t pair
  let back := if atSucc then succ else t.pc
  if t.inh then captureOwner s g 8 cause info t.pc
  else if t.handler = 0 then captureOwner s g 7 cause info back
  else
    let t := { t with
      trapPc := back, trapSucc := succ
      trapCause := BitVec.ofNat 64 (cause + 256 * sub), trapInfo := info
      inh := true, ready := c + 8, base := c + 8, status := .ready }
    transferTo (s.setThread g t) g t.handler

/-- A local trap is raised: it is taken once the thread's vector instructions have completed (R226). -/
def takeLocal (s : State) (g c cause sub : Nat) (info : Word) (atSucc pair : Bool) : State :=
  if vectorDone s g then captureLocal s g c cause sub info atSucc pair
  else parkThread s g (.trap (.loc cause sub info atSucc pair))

/-- A trap that waited for the thread's vector instructions is taken. -/
def Trap.take (s : State) (g : Nat) : Trap → State
  | .owner cause sub info resume => captureOwner s g cause sub info resume
  | .loc cause sub info atSucc pair => captureLocal s g (s.core (coreOf g)).clock cause sub info atSucc pair

/-- The outer and inner levels evaluated for a head with pc `p` that completed (R84): the new levels and the next pc
if a level branches back. -/
def evalLevel (l : Level) (p : Word) : Level × Option Word × Bool :=
  if l.active ∧ l.stop = p then
    let n := l.count - 1
    if n != 0 then ({ l with count := n }, some l.start, true)
    else ({ l with count := n, active := false }, none, false)
  else (l, none, false)

/-- The loop levels of the thread after the head at `p` completed without a transfer, and the next pc (R84). -/
def evalLoops (t : Thread) (p next : Word) : Thread × Word :=
  if t.inh then (t, next)
  else if t.inner1 then
    let r := evalLevel t.lev1 p
    match r.2.1 with
    | some n => ({ t with lev1 := r.1 }, n)
    | none =>
      let q := evalLevel t.lev0 p
      ({ t with lev1 := r.1, lev0 := q.1 }, q.2.1.getD next)
  else
    let r := evalLevel t.lev0 p
    match r.2.1 with
    | some n => ({ t with lev0 := r.1 }, n)
    | none =>
      let q := evalLevel t.lev1 p
      ({ t with lev0 := r.1, lev1 := q.1 }, q.2.1.getD next)

/-- The core clock after a turn at clock `c` of the thread (R75). The spec does not say whether the clock of an attempt
that traps is used up, nor whether a forfeited turn makes its slot the last that issued: the model says yes to both
(DESIGN CHOICE, entry 91). -/
def passTurn (s : State) (g c : Nat) : State :=
  s.modCore (coreOf g) fun x => { x with clock := c + 1, last := slotOf g }

/-- The instruction issued at clock `c` with stall count `st` has completed: loop levels, the pc, the earliest next
issue (R43, R84). `xfer` is the target of a transfer. -/
def retire (s : State) (g c : Nat) (st : Stall) (pair : Bool) (xfer : Option Word) : State :=
  let t := s.thread g
  let t := { t with ready := c + 8 * (st.toNat + 1), base := c + 8, status := .ready, turns := t.turns + 1 }
  match xfer with
  | some n => transferTo (s.setThread g t) g n
  | none =>
    let r := evalLoops t t.pc (succOf t pair)
    goTo (s.setThread g r.1) g r.2

/-- A forfeited turn (R78): the instruction issues again no earlier than 8 clocks later. -/
def forfeit (s : State) (g c : Nat) : State := s.modThread g fun t => { t with ready := c + 8, base := c + 8 }

/-- An instruction stops (R78, R79, R343, R345). -/
def applyStop (s : State) (g c : Nat) (pair : Bool) : Stop → State
  | .owner cause sub info =>
    let t := s.thread g
    ownerTrap s g cause sub info (if cause = 9 then succOf t pair else t.pc)
  | .localTrap cause sub info => takeLocal s g c cause sub info (cause = 7) pair
  | .park w => parkThread s g w
  | .forfeit => forfeit s g c

/-- Clock at which the thread issues: not before the core's next clock and its earliest issue clock (R43, R75); in
strict rotation a clock that its physical slot owns (R76). -/
def issueClock (s : State) (g : Nat) : Nat :=
  let x := s.core (coreOf g)
  let c := max x.clock (s.thread g).ready
  if coreDet s (coreOf g) then c + (x.phys.idxOf (some (slotOf g)) + 8 - c % 8) % 8 else c

/-- A thread that parks does not issue: in normal rotation its clock goes to its siblings (R79); the core has come to the
clock `c` at which it parked. -/
def leaveTurn (s : State) (g c : Nat) : State := s.modCore (coreOf g) fun x => { x with clock := max x.clock c }

/-- The turn after a stop at clock `c`: kept for the siblings when the thread parks, else used. -/
def Stop.turn (s : State) (g c : Nat) : Stop → State
  | .park _ => leaveTurn s g c
  | _ => passTurn s g c

/-- RUNNING AN INSTRUCTION of thread `g`: pending results that are due land, the meaning acts at issue clock `c` or
stops, and the turn passes. -/
def runInstr (s : State) (g : Nat) (pair : Bool) (f : State → Nat → Except Stop State) :
    Outcome State Fault Refusal :=
  let c := issueClock s g
  let s := s.modThread g fun t => t.land c
  match f s c with
  | .ok s' => .next (passTurn s' g c)
  | .error e => .next (e.turn (applyStop s g c pair e) g c)

end Sys2Proof.Machine
end

