-- ==== Sys2Proof/Machine/Flags.lean ====
section
/-! DEFINITION. The conditions. The machine has no flags: a comparison gives a value or decides a branch
(spec/05_control_class.md R89, spec/06_integer_class.md R107, spec/09_atomic_sync_class.md R165). -/

namespace Sys2Proof.Machine

/-- The conditions of `bc` and `set` on two 64-bit values (R89). -/
def condHolds (c : Cond) (a b : Word) : Bool :=
  match c with
  | .eq => a == b
  | .ne => a != b
  | .lt => a.slt b
  | .ge => b.sle a
  | .ltu => a.ult b
  | .geu => b.ule a

/-- The conditions of `bcz`: a value against zero, signed (R89). -/
def zcondHolds (c : ZCond) (a : Word) : Bool :=
  match c with
  | .eq => a == 0
  | .ne => a != 0
  | .lt => a.slt 0
  | .ge => !a.slt 0
  | .le => a.sle 0
  | .gt => !a.sle 0

/-- The conditions of `sigwait` and WAIT: a signal's value against an operand, signed over 64 bits (R165). -/
def sigHolds (c : SigCond) (v x : Word) : Bool :=
  match c with
  | .eq => v == x
  | .ne => v != x
  | .ge => x.sle v
  | .lt => v.slt x

end Sys2Proof.Machine
end

