-- ==== Sys2Proof/Machine/Operands.lean ====
section
/-! DEFINITION. Operands: register fields as sources and destinations, queues, availability, parking, and the segment
operand with its checks (spec/03_lines_and_encodings.md R33, R34, spec/02_ispol_idioms.md R24, R25, spec/07 R117, R120,
spec/10 R174 to R178, R184). -/

namespace Sys2Proof.Machine

open Host (Outcome)

/-! ### Register fields (R33) -/

/-- A source field resolved. -/
inductive Src where
  | zero
  | reg (r : Fin 32)
  /-- Inbound chain queue 0 to 3 (N, E, S, W); 4 the actor input channel. -/
  | queue (q : Nat)
  | ident (i : Fin 16)
  deriving DecidableEq, Repr

/-- A field read as a source (R33): q4 to q7, q9 and q10 to q15 are illegal, and so is a queue across a berth edge or
an unbound channel (R174, R176). -/
def srcField (s : State) (g : Nat) (n : RegNum) : Except Stop Src :=
  let k := n.toNat
  if k = 0 then .ok .zero
  else if k < 32 then .ok (.reg (physReg (s.thread g).rb n))
  else if k < 36 then
    if (neighbour (tileOf g) (k - 32)).isSome then .ok (.queue (k - 32)) else .error (illegalOperand n)
  else if k = 40 then
    if (s.core (coreOf g)).inb.isSome then .ok (.queue 4) else .error (illegalOperand n)
  else if k < 48 then .error (illegalOperand n)
  else .ok (.ident ⟨k % 16, by omega⟩)

/-- A field written as a destination (R33). -/
def dstField (s : State) (g : Nat) (n : RegNum) : Except Stop Dst :=
  let k := n.toNat
  if k = 0 then .ok .none
  else if k < 32 then .ok (.reg (physReg (s.thread g).rb n))
  else if 36 ≤ k ∧ k < 40 then
    if (neighbour (tileOf g) (k - 36)).isSome then .ok (.chain ⟨(k - 36) % 4, by omega⟩)
    else .error (illegalOperand n)
  else if k = 41 then
    if (s.core (coreOf g)).outb.isSome then .ok .actor else .error (illegalOperand n)
  else .error (illegalOperand n)

/-- Source fields in order. -/
def srcFields (s : State) (g : Nat) : List RegNum → Except Stop (List Src)
  | [] => .ok []
  | n :: l => do
    let x ← srcField s g n
    let r ← srcFields s g l
    return x :: r

/-- Destination fields in order. -/
def dstFields (s : State) (g : Nat) : List RegNum → Except Stop (List Dst)
  | [] => .ok []
  | n :: l => do
    let x ← dstField s g n
    let r ← dstFields s g l
    return x :: r

/-! ### Queues (R174, R176) -/

/-- The core at the other end of the outbound chain queue toward `dir`, and its inbound side. -/
def chainPeer (core dir : Nat) : Option (Nat × Nat) :=
  (neighbour (core / 4) dir).map fun T => (4 * T + core % 4, opposite dir)

/-- Entries of an inbound queue: 0 to 3 chain, 4 actor. -/
def queueEntries (s : State) (core q : Nat) : List Word :=
  let x := s.core core
  if h : q < 4 then x.chain[q] else x.infifo

/-- Free places of an outbound queue: 0 to 3 chain (depth 16, entries on their way and places kept for entries that may come
back included), 4 the actor channel's credits. -/
def queueRoom (s : State) (core q : Nat) : Nat :=
  if q < 4 then
    match chainPeer core q with
    | some (c', d') =>
      let x := s.core c'
      if h : d' < 4 then 16 - (x.chain[d'].length + x.flight[d'].length + x.kept[d']) else 0
    | none => 0
  else (s.core core).credits

/-- Drop the first `n` entries of an inbound queue; a pop from the actor channel sends a credit back to the pusher. -/
def queuePop (s : State) (core q n : Nat) : State :=
  if n = 0 then s
  else if h : q < 4 then
    s.modCore core fun x => { x with chain := x.chain.set q (x.chain[q].drop n) }
  else
    let x := s.core core
    let s := s.setCore core { x with infifo := x.infifo.drop n }
    match x.inb with
    | none => s
    | some b =>
      match ownerTile s (berthOwner s (berthOf (core / 4))) (b.peer / 4) with
      | some T => s.modCore (4 * T + b.peer % 4) fun y => { y with returning := y.returning + n }
      | none => s

/-- The first `n` entries of an inbound queue dropped by an instruction that may still give them back: their places are
kept (R34, R166). -/
def Core.takeEntries (x : Core) (q n : Nat) : Core :=
  let y := if h : q < 4 then { x with chain := x.chain.set q (x.chain[q].drop n) } else { x with infifo := x.infifo.drop n }
  if h : q < 5 then { y with kept := x.kept.set q (x.kept[q] + n) } else y

/-- One place that was kept is given up: it is free, and of the actor channel a credit goes back to the pusher. -/
def queueFree (s : State) (core q : Nat) : State :=
  let s := s.modCore core fun x => if h : q < 5 then { x with kept := x.kept.set q (x.kept[q] - 1) } else x
  match (if q = 4 then (s.core core).inb else none) with
  | none => s
  | some b =>
    match ownerTile s (berthOwner s (berthOf (core / 4))) (b.peer / 4) with
    | some T => s.modCore (4 * T + b.peer % 4) fun y => { y with returning := y.returning + 1 }
    | none => s

/-- Put an entry on its way into an outbound queue. -/
def queuePush (s : State) (core : Nat) (d : Dst) (p : Push) : State :=
  match d with
  | .chain dir =>
    match chainPeer core dir with
    | some (c', d') =>
      if h : d' < 4 then s.modCore c' fun x => { x with flight := x.flight.set d' (x.flight[d'] ++ [p]) } else s
    | none => s
  | .actor =>
    let x := s.core core
    match x.outb with
    | none => s
    | some b =>
      let s := s.setCore core { x with credits := x.credits - 1 }
      match ownerTile s (berthOwner s (berthOf (core / 4))) (b.peer / 4) with
      | some T => s.modCore (4 * T + b.peer % 4) fun y => { y with inflight := y.inflight ++ [p] }
      | none => s
  | _ => s

/-- Give the first entry that waits for result `tag` its value, written at clock `c` of the pushing core. -/
def giveTag (tag : Nat) (v : Word) (c : Nat) : List Push → List Push
  | [] => []
  | p :: l => if p.tag = tag ∧ p.val = none then { p with val := some v, due := c } :: l else p :: giveTag tag v c l

/-- The landing slot of its tile in which a memory key lies (R285). -/
def landingSlot (key : Nat) : Nat := (key % 2 ^ 21 - 0x160000) / 0x2000

/-- A request stands at a bank. -/
def bankBusy (s : State) (b : Nat) : Bool := s.atBank.any fun x => x.1 == b

/-- The clock of a tile: that of its core that has come furthest. -/
def tileClock (s : State) (T : Nat) : Nat :=
  (List.range 4).foldl (fun m k => max m (s.core (4 * T + k)).clock) 0

/-- The clock of a tile in which an operation of thread `g` is served there: that of its issue, on its own tile. -/
def threadClock (s : State) (g T : Nat) : Nat := if T = tileOf g then issueClock s g else tileClock s T

/-- The tile of a bank of a tile store. -/
def bankTile (b : Nat) : Nat := (b - 2 ^ 36) / 32

/-- A bank has served its access of the clock that its tile has by `clock` (R121). -/
def bankUsed (s : State) (clock : Nat → Nat) (b : Nat) : Bool := mget s.usedAt b == some (clock (bankTile b))

/-- An engine cannot use a bank now: a request stands there, or it has served its access of this clock (R121). In a pause,
whose clocks stand, what drains is served in turn. -/
def bankTaken (s : State) (b : Nat) : Bool := bankBusy s b || (s.pause.isNone && bankUsed s (tileClock s) b)

/-- The floe port can use a bank for the operation of thread `g` that issues (R121). -/
def bankOpen (s : State) (g b : Nat) : Bool := !bankBusy s b && !bankUsed s (threadClock s g) b

/-- The bank of landing slot `j` of a tile (R285). -/
def slotBank (T j : Nat) : Nat := bankOf (tileKey T (0x160000 + j * 0x2000))

/-- No floe-class write to a landing slot of a tile is on its way. -/
def slotSettled (s : State) (T j : Nat) : Bool :=
  !(s.traffic.any fun r => r.by_ == .floe && r.tile == T && landingSlot r.key == j)

/-! ### Availability (R24, R25, R34, R79) -/

/-- The operations of the thread in slot `g` on a path have reached the state of R144: its own, and not those that a thread
before it in the slot has left. Of the floe path, the port's writes into slots whose floes the thread holds too (R156). -/
def pathDone (s : State) (g : Nat) (p : Path) : Bool :=
  let t := s.thread g
  let T := tileOf g
  let own (h no : Nat) : Bool := h == g && no == t.serial
  match p with
  | .thread => t.k1 == 0 && t.k2 == 0 && t.k3 == 0
  | .vector => vectorDone s g
  | .matrix =>
    !((s.tile T).mx.issued.any fun c => own c.who.g c.who.serial) && !((s.tile T).mx.queue.any fun c => own c.who.g c.who.serial) &&
      !(s.traffic.any fun r => r.path == .matrix && own r.g r.serial)
  | .copy =>
    !((s.tile T).chans.toList.any fun c =>
        c.queue.any (fun x => own x.g x.serial) || c.runs.any fun x => own x.g x.serial) &&
      !(s.traffic.any fun r => r.path == .copy && own r.g r.serial)
  | .floe =>
    !(s.traffic.any fun r => r.by_ == .floe && r.tile == T &&
        (own r.g r.serial || (s.tile T).slots.toList.getD (landingSlot r.key) .free == .held g))
  | .ext => true

/-- No fill is pending into any register of the thread (R93). -/
def noFill (t : Thread) : Bool :=
  t.regs.toList.all (fun x => !x.fill) && t.w.toList.all (·.full) && t.m.toList.all (·.full)

/-- A need is met. -/
def needHolds (s : State) (g : Nat) : Need → Bool
  | .full r => ((s.thread g).reg r).full
  | .writable r => ((s.thread g).reg r).full || !((s.thread g).reg r).fill
  | .entries q n => n ≤ (queueEntries s (coreOf g) q).length
  | .room q n => n ≤ queueRoom s (coreOf g) q
  | .counts k1 k2 k3 =>
    let t := s.thread g
    (!k1 || t.k1 == 0) && (!k2 || t.k2 == 0) && (!k3 || t.k3 == 0)
  | .relaxedRoom => (s.thread g).outstanding < 32
  | .noFill => noFill (s.thread g)
  | .vfull w => ((s.thread g).w[w.toNat]).full
  | .mfull m => ((s.thread g).m[m.toNat]).full
  | .vqueue => (s.core (coreOf g)).vq.length < 4
  | .vdone => pathDone s g .vector
  | .path p => pathDone s g p
  | .channel ch => ((s.tile (tileOf g)).chans.toList.getD ch {}).queue.length < 4
  | .leaseFree =>
    let m := (s.tile (tileOf g)).mx
    !(m.lease.any fun l => l.core == coreOf g) && !(m.requests.any fun r => r.core == coreOf g)
  | .slot j => slotSettled s (tileOf g) j && bankOpen s g (slotBank (tileOf g) j)
  | .bank b => bankOpen s g b
  | .awake T => (s.tile T).gated.isNone
  | .outSlot => (s.tile (tileOf g)).slots.toList.drop 12 |>.any (· == .free)
  | .dispenser => (s.tile (tileOf g)).disp.length < 64 + (s.launch (s.thread g).launch).p

/-- How often a queue is named among sources. -/
def countQueue (q : Nat) (l : List Src) : Nat := l.count (.queue q)

/-- The needs of source and destination fields: every source full, every destination writable (R24), queues with
enough entries and room (R34). -/
def fieldNeeds (ss : List Src) (ds : List Dst) : List Need :=
  (ss.filterMap fun x => match x with | .reg r => some (.full r) | _ => none) ++
  (ds.filterMap fun x => match x with | .reg r => some (.writable r) | _ => none) ++
  ((List.range 5).filterMap fun q => if countQueue q ss = 0 then none else some (.entries q (countQueue q ss))) ++
  ((List.range 4).filterMap fun q =>
    let n := ds.countP fun d => match d with | .chain k => k.val == q | _ => false
    if n = 0 then none else some (.room q n)) ++
  (let n := ds.countP fun d => d == .actor
   if n = 0 then [] else [.room 4 n])

/-- Park until the needs hold; the needs that do not hold decide. -/
def require (s : State) (g : Nat) (l : List Need) : Except Stop Unit :=
  if l.all (needHolds s g) then .ok () else .error (.park (.needs l))

/-- An instruction waits for the answers to its accesses. -/
def portsWait (s : State) (g : Nat) (l : List (Word × Nat)) : Except Stop Unit :=
  match portPlan s g l with
  | none => .ok ()
  | some p => if portReady s g p.1 p.2 then .ok () else .error (.park (.port p.1 p.2))

/-- The checking scoreboard (R45): with `sb` set, a source register with a pending fixed-latency write raises the
stall-count local trap with its number. -/
def scoreboard (t : Thread) : List (RegNum × Src) → Except Stop Unit
  | [] => .ok ()
  | (n, .reg r) :: l =>
    if t.sb ∧ t.pend.any (·.reg == r) then .error (.localTrap 2 n.toNat 0) else scoreboard t l
  | _ :: l => scoreboard t l

/-- What a read of a register delivers: zero bits where it is uncorrectable (R352). -/
def GReg.read (x : GReg) : Word := if x.bad then 0 else x.val

/-- The values of source fields in order: each naming of a queue takes the next entry (R34). -/
def srcValues (s : State) (g : Nat) : List Src → List Src → List Word
  | _, [] => []
  | seen, x :: l =>
    let v : Word := match x with
      | .zero => 0
      | .reg r => ((s.thread g).reg r).read
      | .queue q => (queueEntries s (coreOf g) q).getD (countQueue q seen) 0
      | .ident i => identity s (s.thread g) i
    v :: srcValues s g (x :: seen) l

/-- Mark the oldest waiting `rput` to a register of `g` that has just been read (R178). -/
def markRead (g : Nat) (r : Fin 32) : List Rput → List Rput
  | [] => []
  | x :: l => if x.target = g ∧ x.arrived = some r then { x with read := true } :: l else x :: markRead g r l

/-- A register read by an instruction that issues: a remote bit empties it (R177), a waiting `rput` sees the read
(R178), and an uncorrectable register is counted (R352). -/
def readReg (s : State) (g : Nat) (r : Fin 32) : State :=
  let s := countBad s (whoIn s g) ((s.thread g).reg r).bad
  let t := s.thread g
  let x := t.reg r
  let s := { s with rputs := markRead g r s.rputs }
  if x.remote then s.setThread g (t.setReg r { x with full := false, remote := false }) else s

/-- The registers among source fields are read. -/
def readRegs (s : State) (g : Nat) (ss : List Src) : State :=
  ((ss.filterMap fun x => match x with | .reg r => some r | _ => none).eraseDups).foldl (fun s r => readReg s g r) s

/-- What reading the source fields of an instruction that issues changes: pops, and remote registers emptied. -/
def consume (s : State) (g : Nat) (ss : List Src) : State :=
  (List.range 5).foldl (fun s q => queuePop s (coreOf g) q (countQueue q ss)) (readRegs s g ss)

/-- The same for an instruction that may still give back what it read (R34, R166): the places that its pops leave are
kept until it has completed. -/
def consumeKept (s : State) (g : Nat) (ss : List Src) : State :=
  (List.range 5).foldl (fun s q =>
    if countQueue q ss = 0 then s else s.modCore (coreOf g) fun x => x.takeEntries q (countQueue q ss)) (readRegs s g ss)

/-- An entry popped is at the head of its inbound queue again, in the place that was kept for it. -/
def Core.unpop (x : Core) (q : Nat) (v : Word) : Core :=
  let y := if h : q < 4 then { x with chain := x.chain.set q (v :: x.chain[q]) } else { x with infifo := v :: x.infifo }
  if h : q < 5 then { y with kept := x.kept.set q (x.kept[q] - 1) } else y

/-- R34: a source field read by an instruction that traps after it was issued to an engine is as it was: its entry is
put back, and a register that the read emptied (R177) is full again. -/
def putBack (s : State) (g : Nat) (n : RegNum) (v : Word) : State :=
  match srcField s g n with
  | .ok (.queue q) => s.modCore (coreOf g) fun x => x.unpop q v
  | .ok (.reg r) =>
    let x := (s.thread g).reg r
    if !x.full && !x.fill then
      s.modThread g fun t => t.setReg r { val := v, full := true, remote := true, fill := false }
    else s
  | _ => s

/-- Source fields with the values read from them, put back from the last to the first. -/
def putBackAll (s : State) (g : Nat) : List (RegNum × Word) → State
  | [] => s
  | p :: l => putBack (putBackAll s g l) g p.1 p.2

/-- The source fields of an instruction that no longer gives back what it read: the places kept for queue entries are
free. -/
def freeFields (s : State) (g : Nat) : List (RegNum × Word) → State
  | [] => s
  | p :: l =>
    freeFields (match srcField s g p.1 with
      | .ok (.queue q) => queueFree s (coreOf g) q
      | _ => s) g l

/-- The operands of an instruction that may issue: resolved fields and source values. -/
structure Opnds where
  srcs : List Src
  dsts : List Dst
  vals : List Word

/-- Fields checked (R32 check 3), available (R24, R34) and not read early (R45). -/
def operands (s : State) (g : Nat) (srcs dsts : List RegNum) : Except Stop Opnds := do
  let ss ← srcFields s g srcs
  let ds ← dstFields s g dsts
  require s g (fieldNeeds ss ds)
  scoreboard (s.thread g) (srcs.zip ss)
  return ⟨ss, ds, srcValues s g [] ss⟩

/-- The value of operand `i`. -/
def Opnds.v (o : Opnds) (i : Nat) : Word := o.vals.getD i 0
/-- Destination `i`. -/
def Opnds.d (o : Opnds) (i : Nat) : Dst := o.dsts.getD i .none

/-! ### Results -/

/-- A fixed-latency result, written at clock `due` (R44, R102). -/
def writeLater (s : State) (g : Nat) (d : Dst) (v : Word) (due : Nat) : State :=
  match d with
  | .none => s
  | .reg r => s.modThread g fun t => t.later r v due
  | d => queuePush s (coreOf g) d { val := some v, due := due, g := g, serial := (s.thread g).serial, tag := 0 }

/-- A destination whose result comes by a fill: a register is marked empty, a queue's place is reserved for result
`tag` (R131, R133, R225). -/
def awaitDst (s : State) (g : Nat) (d : Dst) (tag : Nat) : State :=
  match d with
  | .none => s
  | .reg r =>
    -- an `rput` that saw a read waits again once a fill is pending (R178)
    let s := { s with rputs := s.rputs.map fun (x : Rput) => if x.target = g ∧ x.arrived = some r then { x with read := false } else x }
    s.modThread g fun t => (t.land (s.core (coreOf g)).clock).await r
  | d => queuePush s (coreOf g) d { val := none, due := 0, g := g, serial := (s.thread g).serial, tag := tag }

/-- A fill of an awaited destination (R24, R133). -/
def fillDst (s : State) (g : Nat) (d : Dst) (v : Word) (tag : Nat) : State :=
  match d with
  | .none => s
  | .reg r => s.modThread g fun t => t.fill r v
  | .chain dir =>
    match chainPeer (coreOf g) dir with
    | some (c', d') =>
      if h : d' < 4 then s.modCore c' fun x => { x with flight := x.flight.set d' (giveTag tag v (s.core (coreOf g)).clock x.flight[d']) } else s
    | none => s
  | .actor =>
    match (s.core (coreOf g)).outb with
    | none => s
    | some b =>
      match ownerTile s (berthOwner s (berthOf (coreOf g / 4))) (b.peer / 4) with
      | some T =>
        s.modCore (4 * T + b.peer % 4) fun y =>
          { y with inflight := giveTag tag v (s.core (coreOf g)).clock y.inflight }
      | none => s

/-- An instruction with register operands and one fixed-latency result (R99, R101): `f` gives the result or a trap. -/
def compute (s : State) (g c : Nat) (st : Stall) (lat : Nat) (srcs : List RegNum) (d : RegNum)
    (f : List Word → Except Stop Word) : Except Stop State := do
  let o ← operands s g srcs [d]
  let v ← f o.vals
  let s := writeLater (consume s g o.srcs) g (o.d 0) v (c + lat)
  return retire s g c st false none

/-! ### Segment operands (R37, R117, R120) -/

/-- What an access asks of its segment. -/
structure SegAsk where
  size : Nat
  align : Nat
  /-- Rights needed: r 1, w 2, a 4, f 8 (R69). -/
  rights : Nat
  /-- Segment types that may be used; any other raises cause `typeCause`. -/
  types : List Nat
  typeCause : Nat := 5

def Seg.type (x : Seg) : Nat := x.code.toNat / 16
def Seg.rights (x : Seg) : Nat := x.code.toNat % 16

/-- off of R120: the offset register, multiplied by the access size when the scale bit is set, plus the
displacement. -/
def segOff (off : Word) (sc : Bool) (size : Nat) (disp : Word) : Word :=
  (if sc then off * BitVec.ofNat 64 size else off) + disp

/-- The region a segment type may reach (R120 cause 5). -/
def typeReaches (ty : Nat) (r : Region) : Bool :=
  match ty with
  | 0 => r == .paged
  | 1 => r == .window
  | 2 => r == .signal || r == .mmio
  | _ => false

/-- The tile-store offset of a window address is valid (R116): the logical tile exists, and the byte is below
0x18_0000. -/
def windowOk (s : State) (o : Nat) (a : Word) : Bool :=
  a.toNat / 2 ^ 21 < ownerTiles s o && a.toNat % 2 ^ 21 < Config.tileStore

/-- The segment checks in the order of R120. The instruction's own limits on types come with the region check. -/
def segCheck (s : State) (o : Nat) (sg : Seg) (off : Word) (q : SegAsk) : Except Stop Word :=
  let a := sg.base + off
  if sg.type = 3 then .error (segFault 1 a)
  else if sg.rights &&& q.rights ≠ q.rights ∨ (q.typeCause = 2 ∧ sg.type ∉ q.types) then .error (segFault 2 a)
  else if a.toNat % q.align ≠ 0 then .error (segFault 3 a)
  else if sg.limit.toNat < off.toNat + q.size then .error (segFault 4 a)
  else if !typeReaches sg.type (region a) ∨ sg.type ∉ q.types then .error (segFault 5 a)
  else if sg.type = 1 ∧ !windowOk s o a then .error (segFault 6 a)
  else .ok a

/-- The module tile and the offset of a valid window address (R116). -/
def windowTile (s : State) (o : Nat) (a : Word) : Nat × Nat :=
  ((ownerTile s o (a.toNat / 2 ^ 21)).getD 0, a.toNat % 2 ^ 21)

/-- Count class of an access (R117). -/
def countClass (s : State) (g : Nat) (a : Word) : Nat :=
  if region a = .window then
    if dieOf (windowTile s (s.thread g).owner a).1 = dieOf (tileOf g) then 1 else 2
  else 3

/-- The needs of a count-wait field (R25). -/
def kwNeeds (kw : BitVec 2) : List Need :=
  if kw = 0 then [] else [.counts (kw == 1) (kw == 2) (kw == 3)]

/-! ### Buffer and landing checks (R184, R285) -/

/-- Two byte ranges of the owner address space overlap. -/
def overlap (a n b m : Nat) : Bool := a < b + m && b < a + n

/-- Destination bytes that a channel has made visible for a buffer that it fills: the write pointer of the filling
copy (R27, R182). -/
def fillPtr (x : Tile) (buf : Nat) : Nat :=
  let copies := x.chans.toList.flatMap fun c => (c.runs ++ c.queue).map fun y => (y.buf, y.slot, c.ptr)
  match copies.find? fun y => y.1 == buf with
  | some (_, slot, ptr) => ptr.toList.getD slot 0
  | none => 0

/-- Kinds of access to a declared buffer (R184). -/
inductive BufUse where | threadLoad | engineLoad | store | source
  deriving DecidableEq, Repr

/-- The buffer checks of R184 for `n` bytes at owner address `a` by a thread of tile `T`. -/
def bufCheck (s : State) (T : Nat) (a : Word) (n : Nat) (u : BufUse) : Except Stop Unit :=
  let x := s.tile T
  let hit := (x.bufs.toList.zipIdx).filter fun b => b.1.declared && overlap a.toNat n b.1.addr.toNat b.1.len
  hit.foldlM (fun _ b =>
    match b.1.state, u with
    | .empty, _ => .ok ()
    | .full, _ => .ok ()
    | .draining, .store => .error (bufFault 1 a)
    | .draining, _ => .ok ()
    | .filling, .threadLoad =>
      if a.toNat + n ≤ b.1.addr.toNat + fillPtr x b.2 then .ok () else .error (bufFault 6 a)
    | .filling, .engineLoad => .error (bufFault 6 a)
    | .filling, _ => .error (bufFault 1 a)) ()

/-- Floes are enabled on a berth while a launch with the floe class has threads in it (R285). -/
def floesOn (s : State) (berth : Nat) : Bool :=
  s.threads.any fun p => p.2.status != .empty && berthOf (tileOf p.1) == berth && (s.launch p.2.launch).floe

/-- The landing bit of a bank (R122). -/
def landingBit (s : State) (T bank : Nat) : Bool := (bank == 22 || bank == 23) && floesOn s (berthOf T)

/-- The format that an engine reads of a bank (R123): the landing banks read as raw (R285). -/
def bankFmt (s : State) (T bank : Nat) : BitVec 5 :=
  if landingBit s T bank then 0 else (s.tile T).fmt.toList.getD bank 0

/-- The landing-bank rule (R285): while floes are enabled, a thread or vector write into banks 22 and 23 reaches only
the payload of a slot whose floe the writing thread holds. -/
def landingOk (s : State) (g T off n : Nat) : Bool :=
  if off + n ≤ 0x160000 ∨ !floesOn s (berthOf T) then true
  else if off < 0x160000 then false
  else
    let j := (off - 0x160000) / 0x2000
    let k := (off - 0x160000) % 0x2000
    (s.tile T).slots.toList.getD j .free == .held g && tileOf g == T && 192 ≤ k && k + n ≤ 4288

/-- The landing rule as a segment check of a write at a window address, cause 2. -/
def landingCheck (s : State) (g : Nat) (a : Word) (n : Nat) : Except Stop Unit :=
  if region a = .window then
    let w := windowTile s (s.thread g).owner a
    if landingOk s g w.1 w.2 n then .ok () else .error (segFault 2 a)
  else .ok ()

end Sys2Proof.Machine
end

