-- ==== Sys2Proof/Machine/Control.lean ====
section
/-! DEFINITION. Control class (spec/05_control_class.md R82 to R98): branches, loops, the rotating region, and the life
of a thread in issue. -/

namespace Sys2Proof.Machine

open Host (Outcome)

/-! ### Overflow threads (R322, R323) -/

/-- The physical slot that holds architectural slot `k`, if it is resident and no swap occupies it. -/
def physOfSlot (x : Core) (k : Nat) : Option Nat :=
  let p := x.phys.idxOf (some k)
  if p < x.phys.length ∧ !(x.swap.any fun e => e.1 == p) then some p else none

/-- Architectural slot `k` leaves physical slot `p` of core `c` and the next overflow thread takes it (R323). -/
def overflowSwap (s : State) (c p k : Nat) : State :=
  match overflowNext s c with
  | none => s
  | some n => swapIn s c p n [k]

/-! ### Meanings -/

/-- R86. -/
def execNop (_l : BitVec 2) (st : Stall) (_x : BitVec 3) (_t : BitVec 64) (s : State) :
    Outcome State Fault Refusal :=
  runInstr s s.cur false fun s c => .ok (retire s s.cur c st false none)

/-- R88. -/
def execBr (st : Stall) (t : Target) (s : State) : Outcome State Fault Refusal :=
  runInstr s s.cur false fun s c => .ok (retire s s.cur c st false (some (targetPc (s.thread s.cur).pc t)))

/-- R89: `bc`. -/
def execBc (st : Stall) (cc : Cond) (a b : RegNum) (t : Target) (s : State) : Outcome State Fault Refusal :=
  runInstr s s.cur false fun s c => do
    let g := s.cur
    let o ← operands s g [a, b] []
    let tgt := targetPc (s.thread g).pc t
    return retire (consume s g o.srcs) g c st false (if condHolds cc (o.v 0) (o.v 1) then some tgt else none)

/-- R89: `bcz`. -/
def execBcz (st : Stall) (cc : ZCond) (a : RegNum) (t : Target) (s : State) : Outcome State Fault Refusal :=
  runInstr s s.cur false fun s c => do
    let g := s.cur
    let o ← operands s g [a] []
    let tgt := targetPc (s.thread g).pc t
    return retire (consume s g o.srcs) g c st false (if zcondHolds cc (o.v 0) then some tgt else none)

/-- The register number of lr (g31). -/
def lr : RegNum := 31

/-- R88: `call`. -/
def execCall (st : Stall) (t : Target) (s : State) : Outcome State Fault Refusal :=
  runInstr s s.cur false fun s c => do
    let g := s.cur
    let o ← operands s g [] [lr]
    let x := s.thread g
    return retire (writeLater s g (o.d 0) (succOf x false) (c + 4)) g c st false (some (targetPc x.pc t))

/-- R90: `callr`. -/
def execCallr (st : Stall) (a : RegNum) (s : State) : Outcome State Fault Refusal :=
  runInstr s s.cur false fun s c => do
    let g := s.cur
    let o ← operands s g [a] [lr]
    let succ := succOf (s.thread g) false
    return retire (writeLater (consume s g o.srcs) g (o.d 0) succ (c + 4)) g c st false (some (o.v 0))

/-- R90: `jr`. -/
def execJr (st : Stall) (a : RegNum) (s : State) : Outcome State Fault Refusal :=
  runInstr s s.cur false fun s c => do
    let o ← operands s s.cur [a] []
    return retire (consume s s.cur o.srcs) s.cur c st false (some (o.v 0))

/-- R90: `ret`. -/
def execRet (st : Stall) (s : State) : Outcome State Fault Refusal :=
  runInstr s s.cur false fun s c => do
    let o ← operands s s.cur [lr] []
    return retire (consume s s.cur o.srcs) s.cur c st false (some (o.v 0))

/-- A line that an instruction looks at without entering it (R91): the line store's; else it is fetched. -/
def needLine (s : State) (g : Nat) (la : Word) : Except Stop (BitVec 512) :=
  let t := s.thread g
  if region la != .paged then .error illegalLine
  else
    match lineStored (s.core (coreOf g)) t.owner la with
    | some ln => .ok ln
    | none =>
      match translate s (coreOf g) t.owner la .fetch with
      | .ok _ => .error (.park (.fetch la))
      | .miss => .error (.park (.walk la .fetch))
      | .fatal => .error (.owner 6 0 la)

/-- Arm a loop level (R91). -/
def armLevel (t : Thread) (lv : Bool) (l : Level) : Thread :=
  if lv then { t with lev1 := l, inner1 := true } else { t with lev0 := l, inner1 := false }

/-- Disarm a loop level: its counter 0 (R91). -/
def disarmLevel (t : Thread) (lv : Bool) : Thread :=
  if lv then { t with lev1 := { t.lev1 with count := 0, active := false } }
  else { t with lev0 := { t.lev0 with count := 0, active := false } }

/-- R91. -/
def execLoop (st : Stall) (lv : Bool) (a : RegNum) (tg : Target) (s : State) : Outcome State Fault Refusal :=
  runInstr s s.cur false fun s c => do
    let g := s.cur
    let o ← operands s g [a] []
    let t := s.thread g
    let stop := targetPc t.pc tg
    if o.v 0 = 0 then
      let ln ← needLine s g (lineAddr stop)
      if !entryLegal ln (headIdx stop) then throw illegalLine
      let s := (consume s g o.srcs).modThread g fun t => disarmLevel t lv
      return retire s g c st false (some (succPc (lineCount ln) stop))
    else
      let l : Level := { count := o.v 0, start := succOf t false, stop := stop, active := true }
      return retire ((consume s g o.srcs).modThread g fun t => armLevel t lv l) g c st false none

/-- R92: `brot`. -/
def execBrot (st : Stall) (s : State) : Outcome State Fault Refusal :=
  runInstr s s.cur false fun s c =>
    .ok (retire (s.modThread s.cur fun t => { t with rb := t.rb - 1 }) s.cur c st false none)

/-- R93: the thread waits in `halting` for the conditions of haltCompletion. -/
def execHalt (_st : Stall) (s : State) : Outcome State Fault Refusal :=
  runInstr s s.cur false fun s _ =>
    .ok ((landPushes s s.cur).modThread s.cur fun t => { t.capture with status := .halting })

/-- R94: the next issue is 64 clocks away; in normal rotation a waiting overflow thread takes the slot. -/
def execYield (_st : Stall) (s : State) : Outcome State Fault Refusal :=
  runInstr s s.cur false fun s c =>
    let s := retire s s.cur c 7 false none
    let cr := coreOf s.cur
    match physOfSlot (s.core cr) (slotOf s.cur) with
    | some p => .ok (if coreDet s cr then s else overflowSwap s cr p (slotOf s.cur))
    | none => .ok s

/-- What `pwait` waits for (R95). -/
def pwaitNeeds (s : State) (g : Nat) (a : RegNum) : Except Stop (List Need) :=
  let k := a.toNat
  if k = 0 ∨ 48 ≤ k then .ok []
  else if k < 36 ∨ k = 40 then do
    let x ← srcField s g a
    return match x with
      | .reg r => [.full r]
      | .queue q => [.entries q 1]
      | _ => []
  else do
    let x ← dstField s g a
    return match x with
      | .chain d => [.room d.val 1]
      | .actor => [.room 4 1]
      | _ => []

/-- R95. -/
def execPwait (st : Stall) (a : RegNum) (s : State) : Outcome State Fault Refusal :=
  runInstr s s.cur false fun s c => do
    let l ← pwaitNeeds s s.cur a
    require s s.cur l
    return retire s s.cur c st false none

/-- R92: `setrb`. -/
def execSetrb (st : Stall) (n : BitVec 3) (s : State) : Outcome State Fault Refusal :=
  runInstr s s.cur false fun s c =>
    .ok (retire (s.modThread s.cur fun t => { t with rb := n }) s.cur c st false none)

/-- R92: `getrb`. -/
def execGetrb (st : Stall) (d : RegNum) (s : State) : Outcome State Fault Refusal :=
  runInstr s s.cur false fun s c =>
    compute s s.cur c st 4 [] d fun _ => .ok ((s.thread s.cur).rb.setWidth 64)

/-- A line of the core of thread `g` that has been read and is on its way does not enter the line store: only a thread that
asked for it enters it, and not `g` itself (R96). -/
def Req.outdate (g : Nat) (r : Req) : Req :=
  if r.by_ = .fetch ∧ coreOf r.g = coreOf g ∧ r.stage = .performed then { r with stale := true, void := r.void || r.g == g }
  else r

/-- The core's line store holds nothing, what was read for it before is not taken into it, and the thread fetches its next
head anew (R96). -/
def syncLines (s : State) (g : Nat) : State :=
  let s := s.modCore (coreOf g) fun x => { x with lines := [] }
  let s := { s with traffic := s.traffic.map (Req.outdate g) }
  enter (s.modThread g fun t => { t with line := none }) g

/-- R96. -/
def execIsync (st : Stall) (s : State) : Outcome State Fault Refusal :=
  runInstr s s.cur false fun s c => do
    let g := s.cur
    require s g [.counts false false true]
    let t := s.thread g
    let r := evalLoops { t with ready := c + 8 * (st.toNat + 1), base := c + 8, turns := t.turns + 1 } t.pc (succOf t false)
    return syncLines (s.setThread g { r.1 with pc := r.2 }) g

/-- R97. -/
def execLdpc (st : Stall) (d : RegNum) (t : Target) (s : State) : Outcome State Fault Refusal :=
  runInstr s s.cur false fun s c =>
    compute s s.cur c st 4 [] d fun _ => .ok (targetPc (s.thread s.cur).pc t)

/-- R98. -/
def execTbr (st : Stall) (d : RegNum) (s : State) : Outcome State Fault Refusal :=
  runInstr s s.cur false fun s c =>
    compute s s.cur c st 4 [] d fun _ => .ok (BitVec.ofNat 64 s.timebase)

/-- R50: a reserved OP traps at its issue and has no other effect. -/
def execReservedHead (_h : BitVec 16) (s : State) : Outcome State Fault Refusal :=
  runInstr s s.cur false fun _ _ => .error illegalInstr

end Sys2Proof.Machine
end

