-- ==== Sys2Proof/Machine/Memory.lean ====
section
/-! DEFINITION. Memory class (spec/07_memory_class.md R120, R130 to R145): an access goes through the stages of R120 and
issues a request; the banks perform it and its completion comes later (Bank.lean). -/

namespace Sys2Proof.Machine

open Host (Outcome)

/-- A segment operand with its displacement sign-extended (R37, R59). -/
structure MemArg where
  disp : Word
  sc : Bool
  kw : BitVec 2
  seg : BitVec 3
  off : RegNum

/-- The operand of an M, N or R59 tail. -/
def memArg {n : Nat} (m : MemOp n) : MemArg := ⟨m.disp.signExtend 64, m.sc, m.kw, m.seg, m.off⟩

/-- What a thread-path access is, beside its operand. -/
structure MemAsk where
  kind : AKind
  size : Nat
  rights : Nat
  relaxed : Bool := false
  pair : Bool := false
  /-- `ldp` and `stp`, which MMIO does not accept (R134). -/
  twin : Bool := false
  /-- Atomic and synchronisation accesses reach only these segment types, else cause 2 (R158); none for R134. -/
  only : Option (List Nat) := none
  /-- It accesses a bank (`dadd` does not, R172). -/
  bank : Bool := true

/-- Regions that an instruction of the atomic and synchronisation class may reach (R158), by its segment types. -/
def classReaches (l : List Nat) (r : Region) : Bool :=
  if l == [2] then r == .signal else r == .paged || r == .window

/-- The segment checks of a thread-path access in the order of R120, with the region rules of R134 and R158: an access
to a region that its class may not reach, and a store into the signal region, are faults of cause 2 whatever the type. A
segment of a type that R158 does not list is one too, also where the address lies in a region that the class may reach:
R158 names types and regions together, and R120's cause 5 would fit as well (DESIGN CHOICE, entry 105). -/
def memSeg (s : State) (o : Nat) (sg : Seg) (off : Word) (q : MemAsk) : Except Stop Word :=
  let a := sg.base + off
  let badType : Bool := match q.only with
    | some l => !l.contains sg.type || !classReaches l (region a)
    | none => q.kind == .store && region a == .signal
  if sg.type = 3 then .error (segFault 1 a)
  else if sg.rights &&& q.rights ≠ q.rights ∨ badType then .error (segFault 2 a)
  else if a.toNat % q.size ≠ 0 ∨ (region a = .mmio ∧ (q.twin ∨ q.size < 4)) then .error (segFault 3 a)
  else if sg.limit.toNat < off.toNat + q.size then .error (segFault 4 a)
  else if !typeReaches sg.type (region a) then .error (segFault 5 a)
  else if sg.type = 1 ∧ !windowOk s o a then .error (segFault 6 a)
  else .ok a

/-- Stage 3 of R120 whole: segment, landing banks, declared buffers. R120 calls the landing-bank rule one of the segment
checks and its table gives it no row: here it stands after causes 1 to 6 (DESIGN CHOICE, entry 92). -/
def memCheck (s : State) (g : Nat) (sg : Seg) (off : Word) (q : MemAsk) : Except Stop Word := do
  let a ← memSeg s (s.thread g).owner sg off q
  if q.kind != .load then landingCheck s g a q.size
  bufCheck s (tileOf g) a q.size (if q.kind = .load then .threadLoad else .store)
  return a

/-- Stage 4 of R120: the memory key of an address. -/
def memKey (s : State) (g : Nat) (a : Word) (k : AKind) : Except Stop Nat :=
  let t := s.thread g
  if region a = .window then
    let w := windowTile s t.owner a
    .ok (tileKey w.1 w.2)
  else
    match translate s (coreOf g) t.owner a k with
    | .ok p => .ok p
    | .miss => .error (.park (.walk a k))
    | .fatal => .error (.owner 6 0 a)

/-- The tile whose store holds a memory key. -/
def keyTile (key : Nat) : Nat := (key - 2 ^ 52) / 2 ^ 21

/-- The key lies in the store of the tile of thread `g`. -/
def ownStore (g key : Nat) : Bool := decide (2 ^ 52 ≤ key) && keyTile key == tileOf g

/-- The clock at which a bank of a tile store has served an access; other banks forfeit nothing and keep none. -/
def useBank (clock : Nat → Nat) (m : FMap Nat) (b : Nat) : FMap Nat :=
  if 2 ^ 36 ≤ b ∧ b < 2 ^ 46 then mput m b (clock (bankTile b)) else m

/-- Banks serve accesses in the present clock of their tiles: a thread whose access reaches one in this clock forfeits
(R121). -/
def serveBanks (s : State) (banks : List Nat) : State :=
  { s with usedAt := banks.foldl (useBank (tileClock s)) s.usedAt }

/-- Banks serve the accesses of an operation of the floe port as thread `g` issues it (R121). -/
def servePort (s : State) (g : Nat) (banks : List Nat) : State :=
  { s with usedAt := banks.foldl (useBank (threadClock s g)) s.usedAt }

/-- Stage 6 of R120: an access to the thread's own tile store loses its bank to a request that stands there, and to an access
that the bank has served in the same clock (R121). -/
def arbitrate (s : State) (g key : Nat) : Except Stop Unit :=
  if ownStore g key ∧ !bankOpen s g (bankOf key) then .error .forfeit
  else .ok ()

/-- Stages 1 to 6 of R120: operands, count-wait, checks, translation, room for a relaxed access, arbitration. Gives the
operands, the address and its key. -/
def memStages (s : State) (g : Nat) (m : MemArg) (q : MemAsk) (srcs dsts : List RegNum) :
    Except Stop (Opnds × Word × Nat) := do
  let o ← operands s g (m.off :: srcs) dsts
  require s g (kwNeeds m.kw)
  let a ← memCheck s g ((s.thread g).segs[m.seg.toNat]) (segOff (o.v 0) m.sc q.size m.disp) q
  let key ← memKey s g a q.kind
  if q.relaxed then require s g [.relaxedRoom]
  if q.bank then arbitrate s g key
  return (o, a, key)

/-- An access to the thread's own tile store that has won its bank at clock `c` stands there; the bank has served its core
last, in that clock (R121). -/
def winBank (s : State) (g c id key : Nat) : State :=
  if ownStore g key then
    { s with
      atBank := s.atBank ++ [(bankOf key, id)]
      served := mput s.served (bankOf key) (coreOf g % 4)
      usedAt := mput s.usedAt (bankOf key) c }
  else s

/-- Stage 7 of R120: the access issues. An ordinary access parks the thread until it completes (R130); a relaxed one
empties its destinations and counts itself, and the thread goes on (R131). -/
def memIssue (s : State) (g c : Nat) (st : Stall) (q : MemAsk) (o : Opnds) (a : Word) (key : Nat) (acc : Access)
    (pieces : List Piece) (ops : List (RegNum × Word) := []) : State :=
  let id := s.nextId
  let t := s.thread g
  let r : Req :=
    { id := id, by_ := if q.relaxed then .relaxed else .ordinary, path := .thread, g := g, serial := t.serial
      owner := t.owner, launch := t.launch, tile := tileOf g, key := key, size := q.size, acc := acc
      kcls := countClass s g a, pieces := pieces, addr := a, clock := c, stall := st, pair := q.pair, ops := ops }
  let s := if ops.isEmpty then consume s g o.srcs else consumeKept s g o.srcs
  let s := pieces.foldl (fun s p =>
    match p.dst with
    | .reg _ => if q.relaxed then awaitDst s g p.dst id else s
    | d => awaitDst s g d id) s
  let s := winBank (send s r) g c id key
  if q.relaxed then
    retire (s.modThread g fun t => t.count r.kcls true) g c st q.pair none
  else s.modThread g fun t => { t with status := .parked (.access id) }

/-- Bytes of an access width (R52). -/
def widthBytes : Width → Nat
  | .b => 1 | .h => 2 | .w => 4 | .d => 8

/-- A store of the low `n` bytes of a value. -/
def storeAcc (n : Nat) (v : BitVec 512) : Access := .store v (BitVec.ofNat 512 (2 ^ (8 * n) - 1))

/-- R136: `ld` and `ldu`. -/
def loadOp (st : Stall) (z : Width) (sg : Bool) (d : RegNum) (m : MemArg) (relaxed : Bool) (s : State) :
    Outcome State Fault Refusal :=
  runInstr s s.cur relaxed fun s c => do
    let g := s.cur
    let q : MemAsk := { kind := .load, size := widthBytes z, rights := 1, relaxed := relaxed, pair := relaxed }
    let x ← memStages s g m q [] [d]
    return memIssue s g c st q x.1 x.2.1 x.2.2 .load [⟨0, widthBytes z, sg, x.1.d 0⟩]

/-- R136: `st`. -/
def storeOp (st : Stall) (z : Width) (a : RegNum) (m : MemArg) (relaxed : Bool) (s : State) :
    Outcome State Fault Refusal :=
  runInstr s s.cur relaxed fun s c => do
    let g := s.cur
    let q : MemAsk := { kind := .store, size := widthBytes z, rights := 2, relaxed := relaxed, pair := relaxed }
    let x ← memStages s g m q [a] []
    return memIssue s g c st q x.1 x.2.1 x.2.2 (storeAcc (widthBytes z) ((x.1.v 1).setWidth 512)) []

/-- Two destinations that name the same register from 1 to 31 (R137). -/
def samePair (d d2 : RegNum) : Bool := d == d2 && d.toNat != 0 && d.toNat < 32

/-- R137: `ldp`; size is that of one value. -/
def loadPairOp (st : Stall) (size : Nat) (d d2 : RegNum) (m : MemArg) (relaxed : Bool) (s : State) :
    Outcome State Fault Refusal :=
  runInstr s s.cur relaxed fun s c => do
    let g := s.cur
    let q : MemAsk :=
      { kind := .load, size := 2 * size, rights := 1, relaxed := relaxed, pair := relaxed, twin := true }
    let _ ← srcField s g m.off
    if samePair d d2 then throw (illegalOperand d2)
    let x ← memStages s g m q [] [d, d2]
    return memIssue s g c st q x.1 x.2.1 x.2.2 .load [⟨0, size, true, x.1.d 0⟩, ⟨size, size, true, x.1.d 1⟩]

/-- R137: `stp`. -/
def storePairOp (st : Stall) (size : Nat) (a a2 : RegNum) (m : MemArg) (relaxed : Bool) (s : State) :
    Outcome State Fault Refusal :=
  runInstr s s.cur relaxed fun s c => do
    let g := s.cur
    let q : MemAsk :=
      { kind := .store, size := 2 * size, rights := 2, relaxed := relaxed, pair := relaxed, twin := true }
    let x ← memStages s g m q [a, a2] []
    let v : Nat := (x.1.v 1).toNat % 2 ^ (8 * size) + (x.1.v 2).toNat % 2 ^ (8 * size) * 2 ^ (8 * size)
    return memIssue s g c st q x.1 x.2.1 x.2.2 (storeAcc (2 * size) (BitVec.ofNat 512 v)) []

/-- Bytes of one value of `ldp` and `stp`. -/
def pairBytes (dbl : Bool) : Nat := if dbl then 8 else 4

/-! ### Meanings -/

def execLdM (st : Stall) (z : Width) (d : RegNum) (m : MemOp 14) (s : State) : Outcome State Fault Refusal :=
  loadOp st z true d (memArg m) false s
def execLdN (st : Stall) (z : Width) (d : RegNum) (m : MemOp 40) (s : State) : Outcome State Fault Refusal :=
  loadOp st z true d (memArg m) false s
def execLduM (st : Stall) (z : Width) (d : RegNum) (m : MemOp 14) (s : State) : Outcome State Fault Refusal :=
  loadOp st z false d (memArg m) false s
def execLduN (st : Stall) (z : Width) (d : RegNum) (m : MemOp 40) (s : State) : Outcome State Fault Refusal :=
  loadOp st z false d (memArg m) false s
def execStM (st : Stall) (z : Width) (a : RegNum) (m : MemOp 14) (s : State) : Outcome State Fault Refusal :=
  storeOp st z a (memArg m) false s
def execStN (st : Stall) (z : Width) (a : RegNum) (m : MemOp 40) (s : State) : Outcome State Fault Refusal :=
  storeOp st z a (memArg m) false s
def execLdp (st : Stall) (dbl : Bool) (d d2 : RegNum) (m : MemOp 40) (s : State) : Outcome State Fault Refusal :=
  loadPairOp st (pairBytes dbl) d d2 (memArg m) false s
def execStp (st : Stall) (dbl : Bool) (a a2 : RegNum) (m : MemOp 40) (s : State) : Outcome State Fault Refusal :=
  storePairOp st (pairBytes dbl) a a2 (memArg m) false s

/-- R42, R87, R131: the prefix and the head after it issue together, the access relaxed; the prefix in the last head,
or before an instruction that does not accept it, is illegal at the prefix's pc. -/
def execRx (s : State) : Outcome State Fault Refusal :=
  let t := s.thread s.cur
  let bad := runInstr s s.cur false fun _ _ => .error illegalInstr
  match t.line with
  | none => bad
  | some ln =>
    if lineCount ln ≤ headIdx t.pc then bad
    else
      match lineInstr ln (headIdx t.pc + 1) with
      | .ok (.ldM st z d m) => loadOp st z true d (memArg m) true s
      | .ok (.ldN st z d m) => loadOp st z true d (memArg m) true s
      | .ok (.lduM st z d m) => loadOp st z false d (memArg m) true s
      | .ok (.lduN st z d m) => loadOp st z false d (memArg m) true s
      | .ok (.stM st z a m) => storeOp st z a (memArg m) true s
      | .ok (.stN st z a m) => storeOp st z a (memArg m) true s
      | .ok (.ldp st dbl d d2 m) => loadPairOp st (pairBytes dbl) d d2 (memArg m) true s
      | .ok (.stp st dbl a a2 m) => storePairOp st (pairBytes dbl) a a2 (memArg m) true s
      | _ => bad

/-- R138. -/
def leaOp (st : Stall) (d : RegNum) (m : MemArg) (s : State) : Outcome State Fault Refusal :=
  runInstr s s.cur false fun s c => do
    let g := s.cur
    let o ← operands s g [m.off] [d]
    require s g (kwNeeds m.kw)
    let v := ((s.thread g).segs[m.seg.toNat]).base + segOff (o.v 0) false 1 m.disp
    return retire (writeLater (consume s g o.srcs) g (o.d 0) v (c + 4)) g c st false none

def execLeaM (st : Stall) (d : RegNum) (m : MemOp 14) (s : State) : Outcome State Fault Refusal :=
  leaOp st d (memArg m) s
def execLeaN (st : Stall) (d : RegNum) (m : MemOp 40) (s : State) : Outcome State Fault Refusal :=
  leaOp st d (memArg m) s

/-- A limit: the smaller of a value and 2^48 − 1 (R139). -/
def segLimit (v : Word) : BitVec 48 := if v.toNat < 2 ^ 48 then v.setWidth 48 else BitVec.allOnes 48

/-- Write a segment register. -/
def Thread.setSeg (t : Thread) (n : BitVec 3) (x : Seg) : Thread := { t with segs := t.segs.set n.toNat x }

/-- R139. -/
def execSset (st : Stall) (n : BitVec 3) (a b : RegNum) (code : BitVec 6) (s : State) :
    Outcome State Fault Refusal :=
  runInstr s s.cur false fun s c => do
    let g := s.cur
    let o ← operands s g [a, b] []
    let x : Seg := { base := o.v 0, limit := segLimit (o.v 1), code := code }
    return retire ((consume s g o.srcs).modThread g fun t => t.setSeg n x) g c st false none

/-- R140. -/
def execSget (st : Stall) (f : SegField) (d : RegNum) (n : BitVec 3) (s : State) : Outcome State Fault Refusal :=
  runInstr s s.cur false fun s c =>
    let x := (s.thread s.cur).segs[n.toNat]
    compute s s.cur c st 4 [] d fun _ => .ok (match f with
      | .base => x.base
      | .limit => x.limit.setWidth 64
      | .code => x.code.setWidth 64)

/-- The narrowed segment (R141). It makes no access, and R141 does not say which address the record of its segment fault
holds: the base for cause 1, the address past the segment's end that was asked for, base + n, for cause 4 (DESIGN CHOICE,
entry 93). -/
def narrow (x : Seg) (lim : Bool) (n : Word) : Except Stop Seg :=
  if x.type = 3 then .error (segFault 1 x.base)
  else if lim then .ok { x with limit := if n.toNat < x.limit.toNat then n.setWidth 48 else x.limit }
  else if x.limit.toNat < n.toNat then .error (segFault 4 (x.base + n))
  else .ok { x with base := x.base + n, limit := x.limit - n.setWidth 48 }

/-- R141. -/
def execSadj (st : Stall) (lim : Bool) (n : BitVec 3) (a : RegNum) (s : State) : Outcome State Fault Refusal :=
  runInstr s s.cur false fun s c => do
    let g := s.cur
    let o ← operands s g [a] []
    let x ← narrow ((s.thread g).segs[n.toNat]) lim (o.v 0)
    return retire ((consume s g o.srcs).modThread g fun t => t.setSeg n x) g c st false none

/-- R142. -/
def execFence (st : Stall) (s : State) : Outcome State Fault Refusal :=
  runInstr s s.cur false fun s c => do
    require s s.cur [.counts true true true]
    return retire s s.cur c st false none

/-- R144. -/
def execXfence (st : Stall) (p q : Path) (s : State) : Outcome State Fault Refusal :=
  runInstr s s.cur false fun s c => do
    require s s.cur [.path p, .path q]
    return retire s s.cur c st false none

/-- R143. -/
def execCwait (st : Stall) (k : BitVec 2) (s : State) : Outcome State Fault Refusal :=
  runInstr s s.cur false fun s c => do
    require s s.cur (kwNeeds k)
    return retire s s.cur c st false none

/-- R145: `bfmt`; a landing bank is refused (R122, R285). The instruction has no register field, and the subcause of its
illegal-operand trap is the bank number (DESIGN CHOICE, entry 94). -/
def execBfmt (st : Stall) (bank fmt : BitVec 5) (s : State) : Outcome State Fault Refusal :=
  runInstr s s.cur false fun s c => do
    let T := tileOf s.cur
    if landingBit s T bank.toNat then throw (illegalOperand (bank.setWidth 6))
    let s := s.modTile T fun x => { x with fmt := x.fmt.setIfInBounds bank.toNat fmt }
    return retire s s.cur c st false none

/-- R145: `bfget`, the register of R122. -/
def execBfget (st : Stall) (d : RegNum) (bank : BitVec 5) (s : State) : Outcome State Fault Refusal :=
  runInstr s s.cur false fun s c =>
    let T := tileOf s.cur
    compute s s.cur c st 4 [] d fun _ =>
      .ok (if landingBit s T bank.toNat then 0x100 else ((s.tile T).fmt.toList.getD bank.toNat 0).setWidth 64)

end Sys2Proof.Machine
end

