-- ==== Sys2Proof/Machine/Atomic.lean ====
section
/-! DEFINITION. Atomic and synchronisation class (spec/09_atomic_sync_class.md R158 to R173): atomics and signal
operations, which are ordinary accesses performed at their banks (Bank.lean), and the barrier controller of a berth and a
launch. -/

namespace Sys2Proof.Machine

open Host (Outcome)

/-! ### Atomics (R158 to R163) -/

/-- Bytes of the R59 width. -/
def dblBytes (dbl : Bool) : Nat := if dbl then 8 else 4

/-- What an atomic asks (R158). -/
def atomicAsk (size : Nat) : MemAsk := { kind := .atomic, size := size, rights := 4, only := some [0, 1] }

/-- An atomic with one value operand: `f` makes the access from the value. -/
def atomicOp (st : Stall) (size : Nat) (signed : Bool) (d a : RegNum) (m : MemArg) (f : Word → Access)
    (s : State) : Outcome State Fault Refusal :=
  runInstr s s.cur false fun s c => do
    let g := s.cur
    let x ← memStages s g m (atomicAsk size) [a] [d]
    return memIssue s g c st (atomicAsk size) x.1 x.2.1 x.2.2 (f (x.1.v 1)) [⟨0, size, signed, x.1.d 0⟩]

/-- R160. -/
def execAmo (st : Stall) (op : AmoOp) (dbl : Bool) (d a : RegNum) (m : MemOp 38) (s : State) :
    Outcome State Fault Refusal :=
  atomicOp st (dblBytes dbl) true d a (memArg m) (.amo op dbl) s

/-- R161. -/
def execSwap (st : Stall) (dbl : Bool) (d a : RegNum) (m : MemOp 38) (s : State) : Outcome State Fault Refusal :=
  atomicOp st (dblBytes dbl) true d a (memArg m) (.swap dbl) s

/-- R162: the data field is read after `a` and written at completion, so it names a general register. -/
def execCas (st : Stall) (dbl : Bool) (d a : RegNum) (m : MemOp 38) (s : State) : Outcome State Fault Refusal :=
  runInstr s s.cur false fun s c => do
    let g := s.cur
    if 32 ≤ d.toNat then throw (illegalOperand d)
    let q := atomicAsk (dblBytes dbl)
    let x ← memStages s g (memArg m) q [a, d] [d]
    return memIssue s g c st q x.1 x.2.1 x.2.2 (.cas dbl (x.1.v 2) (x.1.v 1)) [⟨0, dblBytes dbl, true, x.1.d 0⟩]

/-- R163. -/
def execFadd (st : Stall) (dbl : Bool) (d a : RegNum) (m : MemOp 38) (s : State) : Outcome State Fault Refusal :=
  atomicOp st (dblBytes dbl) false d a (memArg m) (.fadd dbl) s

/-! ### Completion signals (R164 to R166) -/

/-- R164: `sigup`. -/
def sigupOp (st : Stall) (set : Bool) (a : RegNum) (m : MemArg) (s : State) : Outcome State Fault Refusal :=
  runInstr s s.cur false fun s c => do
    let g := s.cur
    let q : MemAsk := { kind := .atomic, size := 32, rights := 4, only := some [2] }
    let x ← memStages s g m q [a] []
    return memIssue s g c st q x.1 x.2.1 x.2.2 (.sigup set (x.1.v 1)) []

def execSigupM (st : Stall) (set : Bool) (a : RegNum) (m : MemOp 14) (s : State) : Outcome State Fault Refusal :=
  sigupOp st set a (memArg m) s
def execSigupN (st : Stall) (set : Bool) (a : RegNum) (m : MemOp 40) (s : State) : Outcome State Fault Refusal :=
  sigupOp st set a (memArg m) s

/-- R165: the request asks for a watch; the thread waits until the condition holds. -/
def execSigwait (st : Stall) (cc : SigCond) (d a : RegNum) (m : MemOp 40) (s : State) :
    Outcome State Fault Refusal :=
  runInstr s s.cur false fun s c => do
    let g := s.cur
    let q : MemAsk := { kind := .load, size := 32, rights := 1, only := some [2] }
    let x ← memStages s g (memArg m) q [a] [d]
    return memIssue s g c st q x.1 x.2.1 x.2.2 (.sigwait cc (x.1.v 1)) [⟨0, 8, false, x.1.d 0⟩]
      [((memArg m).off, x.1.v 0), (a, x.1.v 1)]

/-! ### The berth barrier (R167 to R171) -/

/-- Key of the barrier of thread `g` (R167). -/
def barOf (s : State) (g : Nat) : Nat := barKey (berthOf (tileOf g)) (s.thread g).launch

/-- The instruction at the thread's pc, from the copy of its line. -/
def instrAt (t : Thread) : Option Instr :=
  match t.line with
  | none => none
  | some ln =>
    match lineInstr ln (headIdx t.pc) with
    | .ok i => some i
    | .error _ => none

/-- The stall count of the head at the thread's pc (R31). -/
def stallAt (t : Thread) : Stall :=
  match t.line with
  | none => 0
  | some ln => headS (lineHalf ln (headIdx t.pc))

/-- An instruction that issued at clock `c` and in which its thread waited has completed (R79): as in `retire`, its stall
turns discarded where the thread has been captured in the meantime (R46), and not before the core's next clock. -/
def retireWait (s : State) (g c : Nat) (st : Stall) (pair : Bool) (xfer : Option Word) : State :=
  let s := retire s g c (if (s.thread g).cut then 0 else st) pair xfer
  s.modThread g fun t => { t.notBefore ((s.core (coreOf g)).clock + 1) with cut := false }

/-- The instruction that a thread waited in has completed; `ready` holds the clock at which it issued. -/
def resumeRetire (s : State) (g : Nat) : State :=
  retireWait s g (s.thread g).ready (stallAt (s.thread g)) false none

/-- A result delivered at once: a fill, or the value of the place reserved in a queue (R24, R102). -/
def deliver (s : State) (g : Nat) (d : Dst) (v : Word) (tag : Nat) : State := fillDst s g d v tag

/-- One waiter is released with a status (R168, R170): `barto` receives it, `bar` completes. -/
def releaseOne (status : Word) (s : State) (a : Arrival) : State :=
  let s := if a.timed then deliver s a.g a.dst status a.tag else s
  resumeRetire s a.g

/-- One waiter leaves a barrier that breaks (R168): `barto` with status 1, `bar` into the barrier-broken local
trap. -/
def breakOne (s : State) (a : Arrival) : State :=
  if a.timed then releaseOne 1 s a
  else takeLocal s a.g (max (s.thread a.g).ready (s.core (coreOf a.g)).clock) 3 0 0 false false

/-- Insert a contribution behind those of ids up to its own: thread ids ascending, issue order within one (R173). -/
def insertContrib (x : Contrib) : List Contrib → List Contrib
  | [] => [x]
  | y :: l => if y.id ≤ x.id then y :: insertContrib x l else x :: y :: l

/-- The contributions of a list in commit order (R173). -/
def sortContribs (l : List Contrib) : List Contrib := l.foldl (fun acc x => insertContrib x acc) []

/-- The commits of a generation, in order, as requests to their home banks (R173). -/
def sendCommits (key : Nat) (s : State) (x : Contrib) : State :=
  send s
    { id := s.nextId, by_ := .commit key, path := .thread, g := x.who.g, serial := x.who.serial, owner := x.who.owner
      launch := x.who.launch, tile := tileOf x.who.g, key := x.key, size := dblBytes x.dbl, acc := .fadd x.dbl x.val
      kcls := 3, addr := x.addr }

/-- The first rows of R168: when every live member of the group has arrived, the generation completes and its commits
are sent; the release follows (barrierRelease). A broken barrier stays broken, with what has been contributed to it since,
when the last thread of its launch in the berth ends: R167 gives the controller to a berth and a launch, and no rule says
that it opens for a thread of the launch that is placed there later (DESIGN CHOICE, entry 102). -/
def barrierCheck (s : State) (berth lk : Nat) : State :=
  let key := barKey berth lk
  let b := s.barrier key
  if b.broken ∨ b.committing ∨ b.arrivals.length ≠ (members s berth lk).length then s
  else if b.arrivals.isEmpty ∧ b.contribs.isEmpty then s
  else
    let s := s.setBarrier key
      { b with arrivals := [], releasing := b.releasing ++ b.arrivals, contribs := [], committing := true }
    (sortContribs b.contribs).foldl (sendCommits key) s

/-- An arrival joins an open barrier, and the thread parks (R168, R169). -/
def arrive (s : State) (c : Nat) (a : Arrival) : State :=
  let key := barOf s a.g
  let s := s.modThread a.g fun t => { t with status := .parked .barrier, ready := c, base := c }
  let s := s.modBarrier key fun b => { b with arrivals := b.arrivals ++ [a] }
  barrierCheck s (berthOf (tileOf a.g)) (s.thread a.g).launch

/-- R169: `bar`. -/
def execBar (_st : Stall) (s : State) : Outcome State Fault Refusal :=
  runInstr s s.cur false fun s c => do
    let g := s.cur
    require s g [.counts true true true]
    if (s.barrier (barOf s g)).broken then throw (.localTrap 3 0 0)
    return arrive s c { g := g, timed := false, limit := 0, since := s.work, dst := .none, tag := 0 }

/-- R168, R169: `bar.reset`. -/
def execBarReset (st : Stall) (s : State) : Outcome State Fault Refusal :=
  runInstr s s.cur false fun s c =>
    let g := s.cur
    let key := barOf s g
    let s := if (s.barrier key).broken then
        s.modBarrier key fun b => { b with broken := false, arrivals := [] }
      else s
    .ok (retire s g c st false none)

/-- R170: `barto`. -/
def execBarto (st : Stall) (d a : RegNum) (s : State) : Outcome State Fault Refusal :=
  runInstr s s.cur false fun s c => do
    let g := s.cur
    let o ← operands s g [a] [d]
    require s g [.counts true true true]
    let tag := s.nextId
    let s' := consume { s with nextId := tag + 1 } g o.srcs
    let s' := match o.d 0 with
      | .chain _ | .actor => awaitDst s' g (o.d 0) tag
      | _ => s'
    if (s.barrier (barOf s g)).broken then
      return retire (deliver s' g (o.d 0) 1 tag) g c st false none
    return arrive s' c
      { g := g, timed := true, limit := (o.v 0).toNat, since := s.work, dst := o.d 0, tag := tag }

/-- A limit has run out (R170). -/
def Arrival.expired (a : Arrival) (work : Nat) : Bool := a.timed && a.limit != 0 && decide (a.since + a.limit ≤ work)

/-- A limit of a waiter at the barrier has run out (R170): the generation breaks, unless it completes in the clock in which
that happened (R168). -/
def Barrier.ranOut (b : Barrier) (work : Nat) : Bool := !b.broken && b.arrivals.any (·.expired work)

/-- The barriers of a berth, with their keys. -/
def berthBarriers (s : State) (berth : Nat) : FMap Barrier := s.barriers.filter fun p => p.1 % 64 == berth

/-- Core `c` may act at clock `k`: no limit has run out at a barrier of its berth in an earlier clock (R168). -/
def clockOpen (s : State) (c k : Nat) : Bool :=
  (berthBarriers s (berthOf (c / 4))).all fun p => !p.2.ranOut s.work || k == (mget p.2.ranAt c).getD 0

/-- A limit has run out at a barrier of the berth of core `c`. -/
def limitOut (s : State) (c : Nat) : Bool := (berthBarriers s (berthOf (c / 4))).any fun p => p.2.ranOut s.work

/-- The contributions of a broken generation are discarded, each counted once as misuse (R168). -/
def discardContribs (s : State) (key : Nat) : State :=
  let l := (s.barrier key).contribs
  let s := s.modBarrier key fun b => { b with contribs := [] }
  l.foldl (fun s x => misuseBoth s x.who) s

/-- What the barrier sends to a waiter is held at its tile's ingress (R316). -/
def Arrival.gated (a : Arrival) (s : State) : Bool := (s.tile (tileOf a.g)).gated.isSome

/-- Waiters of a broken barrier leave, those on gated tiles once these run (R168, R316). -/
def breakOut (s : State) (key : Nat) : State :=
  let b := s.barrier key
  (b.breaking.filter fun a => !a.gated s).foldl breakOne
    (s.setBarrier key { b with breaking := b.breaking.filter (·.gated s) })

/-- R168, R170: a limit runs out at a barrier that is not complete: every waiter leaves and the barrier breaks. -/
def execBartoLimitExpiry (berth lk : Nat) (s : State) : Outcome State Fault Refusal :=
  if berth < Config.berths then
    let key := barKey berth lk
    let b := s.barrier key
    if s.pause.isSome then .next s
    else if !b.ranOut s.work then .next (breakOut s key)
    else
      let s := s.setBarrier key { b with broken := true, arrivals := [], ranAt := [], breaking := b.breaking ++ b.arrivals }
      .next (breakOut (discardContribs s key) key)
  else .fault .illFormed

/-- R168, R173: when every commit is acknowledged the controller releases the waiters with status 0, those on gated tiles
once these run (R316), and looks at the next generation. -/
def execBarrierRelease (berth lk : Nat) (s : State) : Outcome State Fault Refusal :=
  if berth < Config.berths then
    let key := barKey berth lk
    let b := s.barrier key
    if s.pause.isSome ∨ (!b.committing && b.releasing.isEmpty) ∨ s.traffic.any (fun r => r.by_ == .commit key) then .next s
    else
      let s := s.setBarrier key { b with committing := false, releasing := b.releasing.filter (·.gated s) }
      let s := (b.releasing.filter fun a => !a.gated s).foldl (releaseOne 0) s
      .next (barrierCheck s berth lk)
  else .fault .illFormed

/-! ### Deterministic accumulation (R172) -/

/-- The pending contributions of thread `g`; those that a halted thread left in its slot are not its own. -/
def contribCount (s : State) (g : Nat) : Nat := (s.barrier (barOf s g)).contribs.countP (·.who == whoIn s g)

/-- A thread-path operation that needs no bank: the thread waits for its acceptance as for an access (R130). -/
def sendAccepted (s : State) (g c : Nat) (st : Stall) (a : Word) : State :=
  let id := s.nextId
  let t := s.thread g
  let s := send s
    { id := id, by_ := .ordinary, path := .thread, g := g, serial := t.serial, owner := t.owner, launch := t.launch
      tile := tileOf g, key := 0, size := 0, acc := .load, kcls := 3, stage := .performed, addr := a, clock := c
      stall := st }
  s.modThread g fun t => { t with status := .parked (.access id) }

/-- A physical address lies in a UALink window (R392; entry 7). -/
def overLink (p : Nat) : Bool := decide (Config.hbmBytes ≤ p) && decide (p < 2 ^ 51)

/-- R172: `dadd`; its commits never cross modules (R393). What a `dadd` does through a leaf of attr 0 over a UALink window the
spec does not say: the model takes the fatal translation fault, as R393 gives for the other attrs (DESIGN CHOICE, entry
119). -/
def execDadd (st : Stall) (dbl : Bool) (a : RegNum) (m : MemOp 38) (s : State) : Outcome State Fault Refusal :=
  runInstr s s.cur false fun s c => do
    let g := s.cur
    let x ← memStages s g (memArg m) { atomicAsk (dblBytes dbl) with bank := false } [a] []
    if overLink x.2.2 then throw (.owner 6 0 x.2.1)
    if 16 ≤ contribCount s g then throw (.localTrap 4 0 x.2.1)
    let k : Contrib :=
      { who := whoIn s g, id := (s.thread g).id, addr := x.2.1, key := x.2.2, dbl := dbl, val := x.1.v 1 }
    let s := (consume s g x.1.srcs).modBarrier (barOf s g) fun b => { b with contribs := b.contribs ++ [k] }
    return sendAccepted s g c st x.2.1

end Sys2Proof.Machine
end

