-- ==== Sys2Proof/Machine/Num.lean ====
section
/-! DEFINITION. Number formats, rounding, conversions, sums and functions (spec/11_number_formats.md R197 to R221). A
decoded element is an exact dyadic number, an infinity or NaN; every operation forms its exact result and encodes it
once (R203). -/

namespace Sys2Proof.Machine

/-! ### Exact values -/

/-- A decoded element: NaN, an infinity, or (−1)^s × m × 2^e. `sticky` marks a value that lies strictly between
m × 2^e and (m + 1) × 2^e in magnitude. -/
inductive Val where
  | nan
  | inf (s : Bool)
  | fin (s : Bool) (m : Nat) (e : Int) (sticky : Bool)
  deriving DecidableEq, Repr

/-- ±0. -/
def Val.zero (s : Bool) : Val := .fin s 0 0 false

/-- An integer as a value. -/
def Val.ofInt (i : Int) : Val := .fin (decide (i < 0)) i.natAbs 0 false

/-- Rounding modes by their code (R204). -/
inductive Mode where | rne | rz | ru | rd
  deriving DecidableEq, Repr

def Mode.ofCode (r : BitVec 2) : Mode :=
  match r with
  | 0 => .rne | 1 => .rz | 2 => .ru | _ => .rd

/-! ### Floating formats (R197, R198) -/

/-- The special values a floating format has: as IEEE 754, one NaN per sign (E4M3), or none (E2M1). -/
inductive Specials where | ieee | nanOnly | none
  deriving DecidableEq, Repr

structure FFmt where
  bits : Nat
  ebits : Nat
  mbits : Nat
  bias : Nat
  sp : Specials
  deriving DecidableEq, Repr

def fp64 : FFmt := ⟨64, 11, 52, 1023, .ieee⟩
def fp32 : FFmt := ⟨32, 8, 23, 127, .ieee⟩
def fp16 : FFmt := ⟨16, 5, 10, 15, .ieee⟩
def bf16 : FFmt := ⟨16, 8, 7, 127, .ieee⟩
def e4m3 : FFmt := ⟨8, 4, 3, 7, .nanOnly⟩
def e5m2 : FFmt := ⟨8, 5, 2, 15, .ieee⟩
def e2m1 : FFmt := ⟨4, 2, 1, 1, .none⟩

/-- Element formats of lanes and banks (R39, R54). -/
inductive Elem where
  | raw
  | flt (f : FFmt)
  | int (signed : Bool) (n : Nat)
  | ds8
  | ue4m3
  deriving DecidableEq, Repr

/-- R39. -/
def laneElem (fmt : BitVec 4) : Elem :=
  match fmt.toNat with
  | 0 => .flt fp64 | 1 => .flt fp32 | 2 => .flt fp16 | 3 => .flt bf16
  | 4 => .int true 64 | 5 => .int true 32 | 6 => .int true 16 | 7 => .int true 8
  | 8 => .int false 64 | 9 => .int false 32 | 10 => .int false 16 | 11 => .int false 8
  | 12 => .flt e4m3 | _ => .flt e5m2

/-- R54. -/
def bankElem (c : BitVec 5) : Elem :=
  match c.toNat with
  | 1 => .flt fp64 | 2 => .flt fp32 | 3 => .flt fp16 | 4 => .flt bf16 | 5 => .flt e4m3 | 6 => .flt e5m2
  | 7 => .flt e2m1 | 8 => .ds8 | 9 => .ue4m3
  | 10 => .int true 8 | 11 => .int false 8 | 12 => .int true 16 | 13 => .int true 32 | 14 => .int true 64
  | _ => .raw

/-- Bits of an element; 8 for raw bytes. -/
def Elem.bits : Elem → Nat
  | .raw | .ds8 | .ue4m3 => 8
  | .flt f => f.bits
  | .int _ n => n

/-- The largest finite magnitude of a format, as m × 2^e. -/
def FFmt.maxM (f : FFmt) : Nat := match f.sp with
  | .nanOnly => 2 ^ (f.mbits + 1) - 2
  | _ => 2 ^ (f.mbits + 1) - 1

/-- Exponent of the largest finite value: all ones is a normal exponent where no infinity uses it. -/
def FFmt.emax (f : FFmt) : Int := match f.sp with
  | .ieee => (f.bias : Int)
  | _ => (2 ^ f.ebits : Nat) - 1 - (f.bias : Int)

/-- Exponent of the smallest normal value. -/
def FFmt.emin (f : FFmt) : Int := 1 - (f.bias : Int)

/-- All ones in the exponent field. -/
def FFmt.eOnes (f : FFmt) : Nat := 2 ^ f.ebits - 1

/-- The canonical NaN of R198; +0 in a format that has none (R208). -/
def FFmt.nanBits (f : FFmt) : Nat := match f.sp with
  | .ieee => f.eOnes * 2 ^ f.mbits + 2 ^ (f.mbits - 1)
  | .nanOnly => 2 ^ (f.bits - 1) - 1
  | .none => 0

def FFmt.signBit (f : FFmt) (s : Bool) : Nat := if s then 2 ^ (f.bits - 1) else 0

/-- Largest finite value with a sign. -/
def FFmt.maxBits (f : FFmt) (s : Bool) : Nat :=
  f.signBit s + (match f.sp with
    | .ieee => f.eOnes * 2 ^ f.mbits - 1
    | .nanOnly => 2 ^ (f.bits - 1) - 2
    | .none => 2 ^ (f.bits - 1) - 1)

/-- The infinity of R207: ±∞, NaN in E4M3, ±6 in E2M1. -/
def FFmt.infBits (f : FFmt) (s : Bool) : Nat := match f.sp with
  | .ieee => f.signBit s + f.eOnes * 2 ^ f.mbits
  | .nanOnly => f.nanBits
  | .none => f.maxBits s

/-- Decoding (R197, R198); with `flush` a subnormal is taken as zero of its sign (R205). -/
def FFmt.decode (f : FFmt) (flush : Bool) (x : Nat) : Val :=
  let s := x / 2 ^ (f.bits - 1) % 2 == 1
  let e := x / 2 ^ f.mbits % 2 ^ f.ebits
  let m := x % 2 ^ f.mbits
  let special := match f.sp with
    | .ieee => e == f.eOnes
    | .nanOnly => e == f.eOnes && m == 2 ^ f.mbits - 1
    | .none => false
  if special then (if f.sp = .ieee ∧ m = 0 then .inf s else .nan)
  else if e = 0 then (if flush then Val.zero s else .fin s m (f.emin - f.mbits) false)
  else .fin s (2 ^ f.mbits + m) ((e : Int) - f.bias - f.mbits) false

/-- A term of a DS8 byte in eighths (R200). -/
def ds8Term (x : Nat) : Int :=
  let c := x % 8
  if c = 0 then 0 else (if x / 8 % 2 = 1 then -1 else 1) * 2 ^ (c - 1)

/-- Two's complement. -/
def signedOf (n x : Nat) : Int := if x < 2 ^ (n - 1) then x else (x : Int) - 2 ^ n

/-- Decoding of an element (R197 to R202). -/
def Elem.decode (k : Elem) (flush : Bool) (x : Nat) : Val :=
  match k with
  | .flt f => f.decode flush x
  | .int true n => Val.ofInt (signedOf n x)
  | .int false _ => Val.ofInt x
  | .raw => Val.ofInt x
  | .ds8 =>
    let t := ds8Term (x / 16) + ds8Term x
    if t = 0 then Val.zero false else .fin (decide (t < 0)) t.natAbs (-3) false
  | .ue4m3 => if 128 ≤ x % 256 then .nan else e4m3.decode flush x

/-! ### Rounding (R204) -/

/-- The magnitude m × 2^e, with `sticky`, rounded to a multiple of 2^q. -/
def roundQ (mode : Mode) (s : Bool) (m : Nat) (e : Int) (sticky : Bool) (q : Int) : Nat :=
  if q ≤ e ∧ !sticky then m * 2 ^ (e - q).toNat
  else
    let d := (q - e).toNat
    let t := m / 2 ^ d
    let r := m % 2 ^ d
    let inexact := r != 0 || sticky
    let up := match mode with
      | .rz => false
      | .ru => inexact && !s
      | .rd => inexact && s
      | .rne =>
        if d = 0 then false
        else
          let half := 2 ^ (d - 1)
          decide (half < r) || (r == half && (sticky || t % 2 == 1))
    if up then t + 1 else t

/-- The quantum of a value in a format: the place of its last significant bit (R197). -/
def FFmt.quantum (f : FFmt) (m : Nat) (e : Int) : Int :=
  max ((Nat.log2 m : Int) + e - f.mbits) (f.emin - f.mbits)

/-- The bits of a magnitude n × 2^q that the format holds exactly. -/
def FFmt.pack (f : FFmt) (s : Bool) (n : Nat) (q : Int) : Nat :=
  if n = 0 then f.signBit s
  else
    let l := Nat.log2 n
    let e : Int := l + q
    if e < f.emin then f.signBit s + n * 2 ^ (q - (f.emin - f.mbits)).toNat
    else
      let frac := (if l ≤ f.mbits then n * 2 ^ (f.mbits - l) else n / 2 ^ (l - f.mbits)) - 2 ^ f.mbits
      f.signBit s + (e + f.bias).toNat * 2 ^ f.mbits + frac

/-- The result of R207 for a value beyond the range. -/
def FFmt.overflow (f : FFmt) (mode : Mode) (s : Bool) : Nat :=
  match mode with
  | .rne => f.infBits s
  | .rz => f.maxBits s
  | .ru => if s then f.maxBits s else f.infBits s
  | .rd => if s then f.infBits s else f.maxBits s

/-- n × 2^q exceeds the largest finite value. -/
def FFmt.exceeds (f : FFmt) (n : Nat) (q : Int) : Bool :=
  let e : Int := Nat.log2 n + q
  let qe : Int := f.emax - f.mbits
  let b := min q qe
  n != 0 && (decide (f.emax < e) ||
    (e == f.emax && decide (f.maxM * 2 ^ (qe - b).toNat < n * 2 ^ (q - b).toNat)))

/-- Encoding into a floating format: R208, whose `.nsat` column is also the rule of arithmetic (R207). A result that is
subnormal after rounding becomes zero of its sign with `flush` (R205). -/
def FFmt.encode (f : FFmt) (mode : Mode) (flush nsat : Bool) (v : Val) : Nat :=
  match v with
  | .nan => f.nanBits
  | .inf s => if nsat then f.infBits s else (if f.sp = .ieee then f.infBits s else f.maxBits s)
  | .fin s m e sticky =>
    if m = 0 ∧ !sticky then f.signBit s
    else
      let q := if m = 0 then f.emin - f.mbits else f.quantum m e
      let n := roundQ mode s m e sticky q
      if f.exceeds n q then (if nsat then f.overflow mode s else f.maxBits s)
      else if flush ∧ n ≠ 0 ∧ (Nat.log2 n : Int) + q < f.emin then f.signBit s
      else f.pack s n q

/-- Encoding into an integer format (R209). -/
def encodeInt (signed : Bool) (n : Nat) (mode : Mode) (v : Val) : Nat :=
  let lo : Int := if signed then -(2 ^ (n - 1)) else 0
  let hi : Int := if signed then 2 ^ (n - 1) - 1 else 2 ^ n - 1
  let wrap (i : Int) : Nat := (i % 2 ^ n).toNat
  match v with
  | .nan => 0
  | .inf s => wrap (if s then lo else hi)
  | .fin s m e sticky =>
    let k : Int := if m ≠ 0 ∧ 80 ≤ (Nat.log2 m : Int) + e then 2 ^ 80 else roundQ mode s m e sticky 0
    let i : Int := if s then -k else k
    wrap (if i < lo then lo else if hi < i then hi else i)

/-- Conversion into an element format (R208, R209); none into the formats of R211 and raw. -/
def Elem.encode (k : Elem) (mode : Mode) (flush nsat : Bool) (v : Val) : Nat :=
  match k with
  | .flt f => f.encode mode flush nsat v
  | .int sg n => encodeInt sg n mode v
  | _ => 0

/-- A conversion of bits between element formats, decoded and encoded once (R203, R208 to R210, R212). -/
def convertBits (src dst : Elem) (mode : Mode) (flush nsat : Bool) (x : Nat) : Nat :=
  dst.encode mode flush nsat (src.decode flush x)

/-! ### Exact arithmetic (R206, R207) -/

def Val.neg : Val → Val
  | .nan => .nan
  | .inf s => .inf (!s)
  | .fin s m e k => .fin (!s) m e k

def Val.abs : Val → Val
  | .nan => .nan
  | .inf _ => .inf false
  | .fin _ m e k => .fin false m e k

/-- An exact sum; a zero sum of operands of opposite sign takes its sign from the mode. -/
def Val.add (mode : Mode) : Val → Val → Val
  | .nan, _ => .nan
  | _, .nan => .nan
  | .inf s, .inf t => if s = t then .inf s else .nan
  | .inf s, _ => .inf s
  | _, .inf t => .inf t
  | .fin s m e _, .fin t n d _ =>
    if m = 0 ∧ n = 0 then Val.zero (if s = t then s else decide (mode = .rd))
    else if m = 0 then .fin t n d false
    else if n = 0 then .fin s m e false
    else
      let b := min e d
      let x : Int := (if s then -1 else 1) * (m * 2 ^ (e - b).toNat : Nat)
      let y : Int := (if t then -1 else 1) * (n * 2 ^ (d - b).toNat : Nat)
      let z := x + y
      if z = 0 then Val.zero (decide (mode = .rd)) else .fin (decide (z < 0)) z.natAbs b false

/-- An exact product. -/
def Val.mul : Val → Val → Val
  | .nan, _ => .nan
  | _, .nan => .nan
  | .inf s, .inf t => .inf (s != t)
  | .inf s, .fin t n _ _ => if n = 0 then .nan else .inf (s != t)
  | .fin s m _ _, .inf t => if m = 0 then .nan else .inf (s != t)
  | .fin s m e _, .fin t n d _ => .fin (s != t) (m * n) (e + d) false

/-- The order of two numbers, −0 below +0 when `zeros` is set; none with a NaN. -/
def Val.cmp (zeros : Bool) : Val → Val → Option Ordering
  | .nan, _ => none
  | _, .nan => none
  | .inf s, .inf t => some (if s = t then .eq else if s then .lt else .gt)
  | .inf s, _ => some (if s then .lt else .gt)
  | _, .inf t => some (if t then .gt else .lt)
  | .fin s m e _, .fin t n d _ =>
    let b := min e d
    let x : Int := (if s then -1 else 1) * (m * 2 ^ (e - b).toNat : Nat)
    let y : Int := (if t then -1 else 1) * (n * 2 ^ (d - b).toNat : Nat)
    if m = 0 ∧ n = 0 ∧ zeros ∧ s ≠ t then some (if s then .lt else .gt) else some (compare x y)

/-- Minimum and maximum (R207). -/
def Val.pick (greater : Bool) (a b : Val) : Val :=
  match Val.cmp true a b with
  | none => .nan
  | some .gt => if greater then a else b
  | some _ => if greater then b else a

/-- Square root to 2 × 70 bits beyond its own, exact or with `sticky`. -/
def Val.sqrt : Val → Val
  | .nan => .nan
  | .inf s => if s then .nan else .inf false
  | .fin s m e _ =>
    if m = 0 then Val.zero s
    else if s then .nan
    else
      let odd := e % 2 == 1
      let m2 := (if odd then 2 * m else m) * 2 ^ 140
      let e2 := (if odd then e - 1 else e) - 140
      let r := Nat.sqrt m2
      .fin false r (e2 / 2) (r * r != m2)

/-! ### Functions (R219, R240) -/

/-- 1 / x. -/
def Val.rcp : Val → Val
  | .nan => .nan
  | .inf s => Val.zero s
  | .fin s m e _ =>
    if m = 0 then .inf s
    else
      let n := 2 ^ 160
      .fin s (n / m) (-160 - e) (n % m != 0)

/-- 1 / √x. -/
def Val.rsqrt : Val → Val
  | .nan => .nan
  | .inf s => if s then .nan else Val.zero false
  | .fin s m e _ =>
    if m = 0 then .inf s
    else if s then .nan
    else
      let odd := e % 2 == 1
      let m2 := if odd then 2 * m else m
      let e2 := if odd then e - 1 else e
      -- 1/√m2 = √(2^320 / m2) × 2^-160
      let n := 2 ^ 320 / m2
      let r := Nat.sqrt n
      .fin false r (-160 - e2 / 2) (r * r * m2 != 2 ^ 320)

/-- 2^(f / 2^k) × 2^192 by the square roots of 2: `w` runs through 2^(2^−i) × 2^192. -/
def exp2Frac (f : Nat) : Nat → Nat → Nat → Nat
  | 0, _, acc => acc
  | k + 1, w, acc =>
    let w' := Nat.sqrt (w * 2 ^ 192)
    exp2Frac f k w' (if f / 2 ^ k % 2 = 1 then acc * w' / 2 ^ 192 else acc)

/-- 2^x. Beyond ±2^12 the result overflows or underflows in every format. -/
def Val.exp2 : Val → Val
  | .nan => .nan
  | .inf s => if s then Val.zero false else .inf false
  | .fin s m e _ =>
    if m = 0 then .fin false 1 0 false
    else if 12 ≤ (Nat.log2 m : Int) + e then (if s then .fin false 1 (-8192) true else .fin false 1 8192 false)
    else
      -- x = n + f / 2^160 with 0 ≤ f < 2^160, truncated
      let fx : Int := if 0 ≤ e + 160 then m * 2 ^ (e + 160).toNat else m / 2 ^ (-(e + 160)).toNat
      let lost := e + 160 < 0 && m % 2 ^ (-(e + 160)).toNat != 0
      let x : Int := if s then -fx - (if lost then 1 else 0) else fx
      let n := x / 2 ^ 160
      let f := (x % 2 ^ 160).toNat
      if f = 0 ∧ !lost then .fin false 1 n false
      else .fin false (exp2Frac f 160 (2 * 2 ^ 192) (2 ^ 192)) (n - 192) true

/-- `k` bits of log2 of y / 2^320, 1 ≤ y / 2^320 < 2, by squaring. -/
def log2Frac : Nat → Nat → Nat → Nat
  | 0, _, acc => acc
  | k + 1, y, acc =>
    let y2 := y * y / 2 ^ 320
    if 2 ^ 321 ≤ y2 then log2Frac k (y2 / 2) (2 * acc + 1) else log2Frac k y2 (2 * acc)

/-- log2 x. -/
def Val.log2 : Val → Val
  | .nan => .nan
  | .inf s => if s then .nan else .inf false
  | .fin s m e _ =>
    if m = 0 then .inf true
    else if s then .nan
    else
      let l := Nat.log2 m
      let n : Int := l + e
      if m = 2 ^ l then (if n = 0 then Val.zero false else Val.ofInt n)
      else
        let f := log2Frac 120 (m * 2 ^ 320 / 2 ^ l) 0
        let t : Int := n * 2 ^ 120 + f
        -- the true value lies just above t / 2^120
        if 0 ≤ t then .fin false t.toNat (-120) true else .fin true ((-t).toNat - 1) (-120) true

end Sys2Proof.Machine
end

