-- ==== Sys2Proof/Machine/Bank.lean ====
section
/-! DEFINITION. Banks (spec/08_ordering_questions.md R146 to R157, spec/07 R116, R127 to R134, spec/17 R352, spec/19
R390): what a request does at its perform point, its completion at the thread, line fetches, walks and shootdowns. -/

namespace Sys2Proof.Machine

open Host (Outcome)

/-! ### Checks at the destination -/

/-- First physical address of the registers that no memory backs: doorbells from here, 4 KiB each, by inlet id; from
2^40 higher the registers that Firn maps from devices behind root ports (R392; entries 7 and 11). -/
def mmioBase : Nat := 2 ^ 51
def deviceBase : Nat := 2 ^ 51 + 2 ^ 40

/-! ### Signals (R152, R164, R165) -/

/-- The value of a signal. -/
def sigValue (s : State) (key : Nat) : Word := BitVec.ofNat 64 (unitRead s key 8)

/-- Watches see the state that stands: those that are satisfied respond and free their watch. -/
def signalScanReq (s : State) (r : Req) : Req :=
  match r.stage, r.acc with
  | .watch, .sigwait c v =>
    let x := sigValue s r.key
    if sigHolds c x v then { r with stage := .performed, data := x.setWidth 512 } else r
  | _, _ => r

/-- The WAITs of an inlet see the state that stands (R381). -/
def signalScanPkt (s : State) : Pkt → Pkt
  | .wait i w sig =>
    match w.key with
    | some k => .wait i { w with hit := w.hit || sigHolds w.c (sigValue s k) w.v } sig
    | none => .wait i w sig
  | p => p

/-- Watches in use at a die (R165). -/
def watchesUsed (s : State) (d : Nat) : Nat :=
  s.traffic.countP (fun r => r.stage == .watch && homeDie r.key == d) +
  (s.inlets.flatMap (·.2.live)).countP fun p => match p with
    | .wait _ w _ => !w.hit && (match w.key with | some k => homeDie k == d | none => false)
    | _ => false

/-- After every update of a signal (R165). -/
def signalScan (s : State) : State :=
  { s with
    traffic := s.traffic.map (signalScanReq s)
    inlets := s.inlets.map fun p => (p.1, { p.2 with live := p.2.live.map (signalScanPkt s) }) }

/-- One update of a signal's fields at its home bank for `w`: `f` maps value, start, end and error (R164, R373). -/
def signalUpdate (s : State) (w : Who) (key : Nat) (f : Nat → Nat → Nat → Nat → Nat × Nat × Nat × Nat) : State :=
  let x := unitRead s key 32
  let s := countBad s w (s.poison.contains (unitOf key))
  let r := f (x % 2 ^ 64) (x / 2 ^ 64 % 2 ^ 64) (x / 2 ^ 128 % 2 ^ 64) (x / 2 ^ 192 % 2 ^ 32)
  let n := (x / 2 ^ 224 + 1) % 2 ^ 32
  let new := r.1 % 2 ^ 64 + r.2.1 % 2 ^ 64 * 2 ^ 64 + r.2.2.1 % 2 ^ 64 * 2 ^ 128 + r.2.2.2 % 2 ^ 32 * 2 ^ 192 +
    n * 2 ^ 224
  signalScan (unitWrite s key 32 new (maskOf 32))

/-! ### The dispenser's queue (R279, R281) -/

/-- The 32 bytes of a task record (R265). -/
def taskBytes (x : Task) : List Byte :=
  bytesOfNat 8 x.pc.toNat ++ bytesOfNat 8 x.frame.toNat ++ bytesOfNat 8 x.a0.toNat ++ bytesOfNat 8 x.a1.toNat

/-- Owner address of the place of record `i` of a dispenser's queue, one of those beyond 64: in the P places of its launch's
region, in order (R266, R279). -/
def dispAddr (s : State) (T i : Nat) : Option Word :=
  let l := (s.tile T).disp
  if i < 64 then none
  else
    l[i]?.bind fun r =>
      let x := s.launch r.launch
      let k := ((l.take i).drop 64).countP fun q => q.launch == r.launch
      if k < x.p then some (x.region + BitVec.ofNat 64 (512 * x.j + 32 * x.p * logicalTile s T + 32 * k)) else none

/-- The spilled records of a dispenser are written to their places (R279), with the owner's tag. -/
def dispMirror (s : State) (T : Nat) : State :=
  (s.tile T).disp.zipIdx.foldl (fun s p =>
    match dispAddr s T p.2 with
    | some a => engineWrite s (ownerWho (s.launch p.1.launch).owner p.1.launch) a (taskBytes p.1.task)
    | none => s) s

/-- A record joins the dispenser queue of a tile. `tpost` waits for room first (R279); a successor that `depdec` releases and
a cell's resume cannot wait, and the spec says nothing of a dispenser that is full then: they are queued without limit, and
what does not fit into the P places of the launch's region is not written there (DESIGN CHOICE, entry 107). -/
def dispPost (s : State) (T : Nat) (r : DRec) : State :=
  dispMirror (s.modTile T fun x => { x with disp := x.disp ++ [r] }) T

/-- A task record from its 32 bytes (R265). -/
def taskOfNat (n : Nat) : Task :=
  { pc := BitVec.ofNat 64 n, frame := BitVec.ofNat 64 (n / 2 ^ 64), a0 := BitVec.ofNat 64 (n / 2 ^ 128)
    a1 := BitVec.ofNat 64 (n / 2 ^ 192) }

/-! ### Perform points -/

/-- The result of an atomic operation on an old value (R160). -/
def amoR {n : Nat} (op : AmoOp) (a b : BitVec n) : BitVec n :=
  match op with
  | .add => a + b
  | .and => a &&& b
  | .or => a ||| b
  | .xor => a ^^^ b
  | .min => if a.sle b then a else b
  | .max => if b.sle a then a else b
  | .minu => if a.ule b then a else b
  | .maxu => if b.ule a then a else b

/-- R160 in both widths. -/
def amoNew (op : AmoOp) (dbl : Bool) (old : Nat) (v : Word) : Nat :=
  if dbl then (amoR op (BitVec.ofNat 64 old) v).toNat
  else (amoR op (BitVec.ofNat 32 old) (v.setWidth 32)).toNat

/-- R163 in both widths. -/
def faddNew (dbl : Bool) (old : Nat) (v : Word) : Nat :=
  let f := if dbl then fp64 else fp32
  f.encode .rne false true (Val.add .rne (f.decode false old) (f.decode false (v.toNat % 2 ^ f.bits)))

/-- A read and a write at one perform point: the old value of `n` bytes and the new one. -/
def atomicAt (s : State) (r : Req) (new : Nat → Option Nat) : State × BitVec 512 :=
  let old := unitRead s r.key r.size
  let s := countBad s r.who (s.poison.contains (unitOf r.key))
  match new old with
  | some v => (unitWrite s r.key r.size v (maskOf r.size), BitVec.ofNat 512 old)
  | none => (s, BitVec.ofNat 512 old)

/-- R281: `depdec` at its perform point. -/
def depdecAt (s : State) (r : Req) : State :=
  let x := unitRead s r.key 64
  let old := x % 2 ^ 64
  if old = 0 then
    let flags := x / 2 ^ 64 % 2 ^ 32 ||| 1
    let errs := min (x / 2 ^ 96 % 2 ^ 32 + 1) (2 ^ 32 - 1)
    misuseOwner (unitWrite s (r.key + 8) 8 (flags + errs * 2 ^ 32) (maskOf 8)) r.owner
  else
    let s := unitWrite s r.key 8 (old - 1) (maskOf 8)
    if old = 1 then
      dispPost s r.tile { launch := r.launch, core := coreOf r.g, task := taskOfNat (x / 2 ^ 128 % 2 ^ 256) }
    else s

/-- The memory effect of a request that passes its checks, and what it reads. -/
def performMem (s : State) (r : Req) : State × BitVec 512 :=
  let bad := s.poison.contains (unitOf r.key)
  match r.acc with
  | .load =>
    (countBad s r.who bad, BitVec.ofNat 512 (unitRead s r.key r.size))
  | .store data mask =>
    let whole : Bool := mask.toNat == maskOf 64
    (unitWrite (countBad s r.who (bad && !whole)) r.key r.size data.toNat mask.toNat, 0)
  | .amo op dbl v => atomicAt s r fun old => some (amoNew op dbl old v)
  | .swap _ v => atomicAt s r fun _ => some v.toNat
  | .cas _ e v => atomicAt s r fun old => if old = e.toNat % 2 ^ (8 * r.size) then some v.toNat else none
  | .fadd dbl v => atomicAt s r fun old => some (faddNew dbl old v)
  | .sigup set v =>
    (signalUpdate s r.who r.key fun x a b e => (if set then v.toNat else x + v.toNat, a, b, e), 0)
  | .depset v =>
    let s := countBad s r.who bad
    (unitWrite (unitWrite s r.key 8 v.toNat (maskOf 8)) (r.key + 8) 4 0 (maskOf 4), 0)
  | .depdec => (depdecAt (countBad s r.who bad) r, 0)
  | .sigwait _ _ => (s, 0)

/-- The tail of an inlet in its doorbell register, and what a store presents to it (R367). -/
def doorbellLoad (x : Inlet) : Nat := x.tail.toNat + x.head.toNat * 2 ^ 32

/-- A tail value v is accepted (R367). -/
def tailAccepted (x : Inlet) (v : BitVec 32) : Bool :=
  decide ((v - x.head).toNat ≤ 2 ^ x.n) && decide ((v - x.tail).toNat ≤ 2 ^ x.n)

/-- The control block as memory shows it (R366). -/
def inletBlock (s : State) (id : Nat) (x : Inlet) : List Byte :=
  bytesOfNat 4 x.tail.toNat ++ bytesOfNat 4 x.head.toNat ++ bytesOfNat 1 x.n ++ bytesOfNat 1 x.prio ++
  bytesOfNat 2 id ++ bytesOfNat 4 0 ++ bytesOfNat 8 x.ring.toNat ++ bytesOfNat 8 x.seq.toNat ++
  bytesOfNat 4 x.dropped.toNat ++ bytesOfNat 4 x.stalls.toNat ++ bytesOfNat 8 (s.owner x.owner).tq.toNat ++
  bytesOfNat 8 (s.owner x.owner).park.toNat ++ bytesOfNat 8 0

/-- An inlet's new fields, and its control block in memory. -/
def putInlet (s : State) (id : Nat) (x : Inlet) : State :=
  ownerWrite (s.setInlet id x) x.owner x.owner 0 x.block (inletBlock s id x)

/-- A tail presented at an inlet: accepted, or dropped and counted (R367). -/
def presentTail (s : State) (id : Nat) (v : BitVec 32) (ok : Bool) : State :=
  let x := s.inlet id
  putInlet s id (if ok && tailAccepted x v then { x with tail := v } else { x with dropped := bump32 x.dropped })

/-- An access to a register of a device behind a root port (R392): what a read answers is the device's, a free value; a
write goes to the device. Without a root port there is no device, and the access names no register. -/
def performDevice (s : State) (r : Req) : State × BitVec 512 :=
  if s.pcieRole = 0 then (s, 0)
  else
    match r.acc with
    | .store _ _ => (s, 0)
    | _ => ({ s with draws := s.draws + 1 }, Config.deviceData s.draws)

/-- An access to a register of the MMIO region (R134, R367). -/
def performMmio (s : State) (r : Req) : State × BitVec 512 :=
  let id := (r.key - mmioBase) / 4096
  let off := (r.key - mmioBase) % 4096
  if off < 8 ∧ (mget s.inlets id).isSome ∧ (s.inlet id).owner = r.owner then
    match r.acc with
    | .store data _ =>
      let v := data.toNat % 2 ^ (8 * r.size)
      (if off = 0 then presentTail s id (BitVec.ofNat 32 v) (v < 2 ^ 32) else s, 0)
    | _ => (s, BitVec.ofNat 512 (doorbellLoad (s.inlet id) / 2 ^ (8 * off)))
  else (s, 0)

/-- The landing slot that a floe-class write reaches. -/
def landingSlotOf (key : Nat) : Nat := key / 2 ^ 13

/-- An earlier request of the same maker or path is performed before a later one (R147, R153, R173): one thread's
thread-path accesses to one bank; one channel's units in start order and address order; one thread's vector
instructions in issue order; matrix commands in their order, the writes of one to different banks left open; the
writes of one floe. -/
def ordersBefore (a b : Req) : Bool :=
  match a.by_, b.by_ with
  | .copy ch n, .copy ch' n' => a.tile == b.tile && ch == ch' && (n != n' || bankOf a.key == bankOf b.key)
  | .vector n, .vector n' => a.g == b.g && (n != n' || bankOf a.key == bankOf b.key)
  | .matrix n, .matrix n' =>
    a.tile == b.tile && (bankOf a.key == bankOf b.key || (n != n' && a.acc != .load && b.acc != .load))
  | .floe, .floe => a.tile == b.tile && landingSlotOf a.key == landingSlotOf b.key
  | .commit k, .commit k' => k == k' && bankOf a.key == bankOf b.key
  | .commit _, _ | _, .commit _ => false
  | _, _ => a.path == .thread && b.path == .thread && a.g == b.g && bankOf a.key == bankOf b.key

/-- A request before `id` in the traffic is on its way and must be performed first. -/
def blockedIn (r : Req) : List Req → Bool
  | [] => false
  | x :: l => if x.id = r.id then false else (x.stage == .sent && ordersBefore x r) || blockedIn r l

/-- Its tile is frozen (R157, R326) or gated (R316): a request aimed at it waits. The vector unit completes in a pause the
instructions that it has accepted (R226). -/
def tileHeld (s : State) (r : Req) : Bool :=
  2 ^ 52 ≤ r.key && ((s.pause.isSome && r.path != .vector) || ((s.tile (keyTile r.key)).gated).isSome)

/-- A drain still to execute before the command of a matrix read writes the bank that it reads (R251, R153). -/
def drainAhead (s : State) (r : Req) : Bool :=
  match r.by_, r.acc with
  | .matrix n, .load =>
    ((s.tile r.tile).mx.queue.takeWhile (·.n != n)).any fun c =>
      (match c.ins with | .mdrainM .. | .mdrainN .. => true | _ => false) &&
        bankOf (tileKey r.tile c.off) == bankOf r.key
  | _, _ => false

/-- The request numbered `id`. -/
def findReq (s : State) (id : Nat) : Option Req := s.traffic.find? (·.id == id)

/-- A request is ordered behind one that is captured or held, and waits with it (R316, R326, R330). -/
def behindHeld (s : State) (r : Req) : List Req → Bool
  | [] => false
  | x :: l => if x.id = r.id then false else (x.stage == .sent && tileHeld s x && ordersBefore x r) || behindHeld s r l

/-- A request that stands at a bank keeps it: it waits for nothing that is captured or held (R330). -/
def keepsBank (s : State) (id : Nat) : Bool :=
  (findReq s id).any fun q => !tileHeld s q && !behindHeld s q s.traffic

/-- No other request stands at the bank before this one (R121). -/
def bankFree (s : State) (r : Req) : Bool :=
  ((s.atBank.filter fun x => x.1 == bankOf r.key && (x.2 == r.id || keepsBank s x.2)).head?).all fun x => x.2 == r.id

/-- Replace a request. -/
def setReq (s : State) (r : Req) : State :=
  { s with traffic := s.traffic.map fun x => if x.id = r.id then r else x }

/-- A request leaves its bank. -/
def leaveBank (s : State) (id : Nat) : State := { s with atBank := s.atBank.filter (·.2 != id) }

/-- Remove a request. -/
def dropReq (s : State) (id : Nat) : State := leaveBank { s with traffic := s.traffic.filter (·.id != id) } id

/-! ### Reaching a bank (R121) -/

/-- The place of a request among those that reach a bank of a tile store in one clock (R121). -/
def bankRank (s : State) (r : Req) : Nat :=
  if r.key < 2 ^ 52 then 0
  else if r.tile ≠ keyTile r.key then 1
  else
    match r.path, r.by_ with
    | .matrix, _ => 2
    | .vector, _ => 3
    | .copy, .copy ch _ => 4 + ch
    | .copy, _ => 4
    | .floe, _ => 8
    | _, _ => 9 + (coreOf r.g % 4 + 7 - (mget s.served (bankOf r.key)).getD 3) % 4

/-- An earlier request that must reach its bank before `r` is still on its way. -/
def behind (s : State) (r : Req) : List Req → Bool
  | [] => false
  | x :: l =>
    if x.id = r.id then false
    else (x.stage == .sent && ordersBefore x r && !(s.atBank.any fun y => y.2 == x.id)) || behind s r l

/-- A request joins those at its bank; a read of the matrix array does not before the drains queued ahead of it (R251). -/
def reachOne (s : State) (r : Req) : State :=
  if r.stage ≠ .sent ∨ (s.atBank.any fun y => y.2 == r.id) ∨ behind s r s.traffic ∨ drainAhead s r then s
  else { s with atBank := s.atBank ++ [(bankOf r.key, r.id)] }

/-- A request among others by its place. -/
def insertRank (s : State) (r : Req) : List Req → List Req
  | [] => [r]
  | x :: l => if bankRank s x ≤ bankRank s r then x :: insertRank s r l else r :: x :: l

/-- Requests reach their banks in one clock: those of one bank in the order of R121, and those that wait there already
stay before them. -/
def reachBanks (s : State) (ids : List Nat) : State :=
  ((ids.filterMap (findReq s)).foldl (fun l r => insertRank s r l) []).foldl reachOne s

/-- Channel `ch` of a tile. -/
def Tile.chan (x : Tile) (ch : Nat) : Chan := if h : ch < 4 then x.chans[ch] else {}

/-- Change channel `ch` of a tile. -/
def Tile.modChan (x : Tile) (ch : Nat) (f : Chan → Chan) : Tile :=
  if h : ch < 4 then { x with chans := x.chans.set ch (f x.chans[ch]) } else x

/-- The buffer offset of destination byte `k` of a copy. -/
def Copy.place (x : Copy) (k : Nat) : Nat := if x.drow = 0 then k else k / x.drow * x.dstr + k % x.drow

/-- The destination length of a copy as buffer bytes: its rows and what lies between them (R182). -/
def Copy.extent (x : Copy) : Nat := if x.dlen = 0 then 0 else x.place (x.dlen - 1) + 1

/-- Contiguous destination bytes of a copy that are performed: up to the first unit on its way (R182). A scatter shows
nothing before its last unit. -/
def copyPrefix (s : State) (T ch : Nat) (x : Copy) (base : Nat) : Nat :=
  let l := s.traffic.filter fun r => r.tile == T && r.by_ == .copy ch x.n && r.stage == .sent
  let out := l.foldl (fun m r => min m (r.addr.toNat - base)) (2 ^ 64)
  match x.kind with
  | .scatter _ _ _ => if l.isEmpty ∧ x.dlen ≤ x.next then x.dlen else 0
  | _ => min out (if x.dlen ≤ x.next then x.extent else x.place x.next)

/-- The write pointer of the slot that started copy `n` follows its performed units (R182). -/
def copyPointer (s : State) (T ch n : Nat) : State :=
  s.modTile T fun x =>
    x.modChan ch fun c =>
      match c.runs.find? (·.n == n) with
      | none => c
      | some y =>
        -- a later start by the same slot has reset the pointer
        if c.queue.any (fun z => z.slot == y.slot) || c.runs.any (fun z => z.slot == y.slot && y.n < z.n) then c
        else
          let p := copyPrefix s T ch y ((x.bufs.toList.getD y.buf {}).addr.toNat)
          { c with ptr := c.ptr.setIfInBounds y.slot (max p (c.ptr.toList.getD y.slot 0)) }

/-- A response that is delivered after its due time is counted (R333). -/
def countLate (s : State) (r : Req) : State :=
  if s.calib.isSome ∧ r.key < 2 ^ 52 ∧ r.due < s.work then
    s.modDie (dieOf r.tile) fun d => { d with calMiss := d.calMiss + 1 }
  else s

/-- The acknowledgement of a posted write is delivered, or the memory port holds it until it is due (R333, R394). -/
def acknowledge (s : State) (r : Req) : State :=
  if s.work < r.due then setReq s { r with stage := .performed } else dropReq (countLate s r) r.id

/-- What becomes of a request at its perform point: a posted write that nobody collects leaves the traffic. -/
def afterPerform (s : State) (r : Req) (data : BitVec 512) : State :=
  match r.by_ with
  | .commit _ => acknowledge s r
  | .floe => dropReq s r.id
  | .copy ch n => copyPointer (acknowledge s r) r.tile ch n
  | .vector _ | .matrix _ =>
    match r.acc with
    | .load => setReq s { r with stage := .performed, data := data }
    | _ => dropReq s r.id
  | _ => setReq s { r with stage := .performed, data := data }

/-- The places of those that wait for a watch at a die's controllers, `sigwait` and WAIT alike (R165, R381). -/
def watchTickets (s : State) (d : Nat) : List Nat :=
  ((s.traffic.filter fun r => r.stage == .waiting && homeDie r.key == d).map (·.ticket)) ++
    (s.inlets.flatMap (·.2.live)).filterMap fun p => match p with
      | .wait _ w _ => match w.ticket with
        | some (k, n) => if homeDie k == d then some n else none
        | none => none
      | _ => none

/-- A newcomer takes a watch at once: one is free and nobody waits (R165). -/
def watchFree (s : State) (d : Nat) : Bool := decide (watchesUsed s d < 4096) && (watchTickets s d).isEmpty

/-- A waiting party with this place is the first, and a watch is free. -/
def watchNext (s : State) (d ticket : Nat) : Bool :=
  decide (watchesUsed s d < 4096) && (watchTickets s d).all fun n => decide (ticket ≤ n)

/-- A watch looks at its signal; an uncorrectable one is counted (R352). -/
def takeWatchFor (s : State) (r : Req) : State :=
  signalScan (setReq (countBad s r.who (s.poison.contains (unitOf r.key))) { r with stage := .watch })

/-- A `sigwait` reaches its controller: it takes a watch, or waits for one behind those that wait (R165). -/
def placeWatch (s : State) (r : Req) : State :=
  let s := leaveBank s r.id
  if watchFree s (homeDie r.key) then takeWatchFor s r
  else { setReq s { r with stage := .waiting, ticket := s.nextId } with nextId := s.nextId + 1 }

/-- The effect of a request that passes its checks, and what it reads: memory, or a register. Its physical address alone
decides: what an access through a leaf of attr MMIO or signal reaches whose frame lies in HBM, or through one of attr signal
whose frame lies in the MMIO space, the spec does not say (DESIGN CHOICE, entry 104). -/
def performAt (s : State) (r : Req) : State × BitVec 512 :=
  if r.key < mmioBase ∨ 2 ^ 52 ≤ r.key then performMem s r
  else if r.key < deviceBase then performMmio s r
  else performDevice s r

/-- The owner tag of a request: Firn's tables are read with tag 0. -/
def Req.tag (r : Req) : Nat :=
  match r.by_ with
  | .walk _ => 0
  | _ => r.owner

/-- THE PERFORM POINT of a request (R146). -/
def performReq (s : State) (r : Req) : State :=
  match gate s r.tag r.key with
  | .pass =>
    match r.acc with
    | .sigwait _ _ => placeWatch s r
    | _ =>
      let x := performAt s r
      afterPerform x.1 r x.2
  | _ => afterPerform (gateCount s r.tag r.key) r 0

/-- The request is a thread's access to its own tile's store: it wins its bank at its issue (R121). -/
def Req.winsBank (r : Req) : Bool := r.path == .thread && ownStore r.g r.key

/-- It is the request's turn at its bank: it is on its way, no earlier request must be performed first, none stands at
the bank before it, and its tile is neither frozen nor gated; a bank serves one access in a clock, that of an access to the
thread's own store being the clock of its issue, at which it has won the bank (R121). -/
def bankTurn (s : State) (r : Req) : Bool :=
  r.stage == .sent && !blockedIn r s.traffic && !tileHeld s r && !drainAhead s r && bankFree s r &&
    (r.winsBank || s.pause.isSome || !bankUsed s (tileClock s) (bankOf r.key))

/-- A bank performs a request, which leaves it. -/
def performTurn (s : State) (r : Req) : State :=
  leaveBank (performReq (if r.winsBank then s else serveBanks s [bankOf r.key]) r) r.id

/-- R146: a bank serves one request. Nothing happens when it is not the request's turn. -/
def execBankAccessPerform (id : Nat) (s : State) : Outcome State Fault Refusal :=
  match findReq s id with
  | none => .next s
  | some r =>
    if !bankTurn s r then .next s
    else .next (performTurn s r)

/-! ### Completions at the thread (R130, R131, R133) -/

/-- A piece of a result. -/
def pieceValue (data : BitVec 512) (p : Piece) : Word :=
  let v := data.toNat / 2 ^ (8 * p.off) % 2 ^ (8 * p.size)
  if p.signed ∧ 2 ^ (8 * p.size - 1) ≤ v then BitVec.ofNat 64 (2 ^ 64 + v - 2 ^ (8 * p.size)) else BitVec.ofNat 64 v

/-- The fills of a request's pieces. -/
def fillPieces (s : State) (r : Req) : State :=
  r.pieces.foldl (fun s p => fillDst s r.g p.dst (pieceValue r.data p) r.id) s

/-- A response may reach its thread: performed, due, its tile not gated, and not from a tile or a watch in a pause (R166,
R316, R325, R326, R394). -/
def responds (s : State) (r : Req) : Bool :=
  r.stage == .performed && decide (r.due ≤ s.work) && (s.tile r.tile).gated.isNone &&
  (s.pause.isNone || (r.size != 0 && decide (r.key < 2 ^ 52) && (match r.acc with | .sigwait _ _ => false | _ => true)))

/-- The thread of an ordinary access goes on: its instruction completes (R130). -/
def completeAccess (s : State) (r : Req) : State :=
  let s := freeFields (fillPieces (dropReq s r.id) r) r.g r.ops
  if (s.thread r.g).status = .parked (.access r.id) then retireWait s r.g r.clock r.stall r.pair none else s

/-- A `sigwait` is not an access that completes with its bank's answer. -/
def isSigwait (r : Req) : Bool := match r.acc with | .sigwait _ _ => true | _ => false

/-- The completion of a request by whoever made it, the acknowledgement of a commit or of a copy unit that the port has held
among them; none while it cannot complete. -/
def completion (s : State) (r : Req) : Option State :=
  if !responds s r then none
  else
    let s := countLate s r
    match r.by_ with
    | .ordinary => some (completeAccess s r)
    | .relaxed =>
      let s := fillPieces (dropReq s r.id) r
      some (s.modThread r.g fun t => t.count r.kcls false)
    | .commit _ | .copy _ _ => some (dropReq s r.id)
    | _ => none

/-- A completion whose request fits `ok`. -/
def completeIf (id : Nat) (s : State) (ok : Req → Bool) : Outcome State Fault Refusal :=
  match findReq s id with
  | none => .next s
  | some r => .next (if ok r then (completion s r).getD s else s)

/-- R131: the fill of a relaxed load. -/
def execRelaxedLoadFill (id : Nat) (s : State) : Outcome State Fault Refusal :=
  completeIf id s fun r => r.by_ == .relaxed && r.acc == .load

/-- R131: the acknowledgement of a relaxed store. -/
def execRelaxedStoreAck (id : Nat) (s : State) : Outcome State Fault Refusal :=
  completeIf id s fun r => r.by_ == .relaxed && r.acc != .load

/-- R130. -/
def execOrdinaryAccessCompletion (id : Nat) (s : State) : Outcome State Fault Refusal :=
  completeIf id s fun r => r.by_ == .ordinary && !isSigwait r

/-- R165: the response of a watch. -/
def execSigwaitSatisfied (id : Nat) (s : State) : Outcome State Fault Refusal :=
  completeIf id s fun r => r.by_ == .ordinary && isSigwait r

/-- R333, R394: a held response is written at its due time. -/
def execCalibrationResponseDue (id : Nat) (s : State) : Outcome State Fault Refusal :=
  completeIf id s fun _ => s.calib.isSome

/-- R165: a waiting request gains a free watch and sees the current state. -/
def execWatchAllocated (id : Nat) (s : State) : Outcome State Fault Refusal :=
  match findReq s id with
  | none => .next s
  | some r =>
    if r.stage = .waiting ∧ watchNext s (homeDie r.key) r.ticket then
      .next (takeWatchFor s r)
    else .next s

/-! ### Parked threads, lines and walks -/

/-- The thread is eligible again from the clock after this one (R79). -/
def becomeReady (s : State) (g : Nat) : State :=
  s.modThread g fun t => { t.notBefore ((s.core (coreOf g)).clock + 1) with status := .ready }

/-- The commands of the thread's core accepted before acceptance number `n` have finished (R264). -/
def mwaitDone (s : State) (g n : Nat) : Bool :=
  !((s.tile (tileOf g)).mx.queue.any fun x => !x.grant && x.core == coreOf g && decide (x.seq < n))

/-- A thread that waited at the entry of its line enters it; another attempts its instruction again. -/
def resumeFetch (s : State) (g : Nat) : State :=
  let s := becomeReady s g
  if (s.thread g).line.isNone then enter s g else s

/-- The line at `addr` has come for a thread that waited for it: it enters it, or attempts its instruction again. -/
def enterFetched (s : State) (g : Nat) (addr : Word) (ln : BitVec 512) : State :=
  let s := becomeReady s g
  if (s.thread g).line.isSome then s
  else if lineAddr (s.thread g).pc = addr then enterLine s g ln
  else enter s g

/-- The answered fetch of a thread slot (R81), and in calibration mode one that is due (R333). -/
def fetchAnswer (s : State) (g : Nat) : Option Req :=
  s.traffic.find? fun r => r.by_ == .fetch && r.g == g && responds s r

/-- A line enters the line store of a core (R81), unless the core has emptied it since the line was read (R96). -/
def storeLine (s : State) (r : Req) : State :=
  if r.stale then s
  else
    let s := s.modCore (coreOf r.g) fun c => { c with lines := cacheInsert 128 s.draws c.lines (r.owner, r.addr, r.data) }
    { s with draws := s.draws + 1 }

/-- R81: the line arrives, as its bank held it when the request was performed; a store does not show in it later. The
thread that waits for it goes on. -/
def execLineFetchArrival (g : Nat) (s : State) : Outcome State Fault Refusal :=
  if g < Config.threads then
    match fetchAnswer s g with
    | none => .next s
    | some r =>
      let s := storeLine (dropReq (countLate s r) r.id) r
      .next (if (s.thread g).status = .parked (.fetch r.addr) ∧ (s.thread g).serial = r.serial ∧ !r.void then
        enterFetched s g r.addr r.data else s)
  else .fault .illFormed

/-- The code of an access kind (R129). -/
def AKind.code : AKind → Nat
  | .load => 0
  | .store => 1
  | .atomic => 2
  | .fetch => 3

/-- The 32 bytes of a fault record (R129). -/
def FRec.bytes (r : FRec) : List Byte :=
  bytesOfNat 8 r.addr.toNat ++ bytesOfNat 8 r.pc.toNat ++ bytesOfNat 4 r.ident.toNat ++ bytesOfNat 1 r.owner ++
    bytesOfNat 1 r.kind.code ++ bytesOfNat 1 r.requester ++ bytesOfNat 1 r.ch ++ bytesOfNat 8 0

/-- A fault record is written behind those of its die's queue: 1,024 entries of 32 bytes in kernel-reserved memory
(R358). -/
def queueFault (s : State) (d : Nat) (r : FRec) : State :=
  let x := s.die d
  let s := s.setDie d { x with faults := x.faults ++ [r], faultTail := x.faultTail + 1 }
  s.setMem (memWriteList s.mem (kernelBase d + x.faultTail % 1024 * 32) r.bytes)

/-- A fault record joins its die's queue, or is held while the queue is full (R129). -/
def postFault (s : State) (d : Nat) (r : FRec) : State :=
  let x := s.die d
  if x.faults.length < 1024 ∧ x.held.isEmpty then queueFault s d r else s.setDie d { x with held := x.held ++ [r] }

/-- R129: the thread is dropped and its record posted. -/
def dropThread (s : State) (g : Nat) (a : Word) (k : AKind) : State :=
  let s := landPushes s g
  let t := { (s.thread g).capture with port := none }
  let r : FRec := { addr := a, pc := t.pc, ident := BitVec.ofNat 32 t.id, owner := t.owner, kind := k, requester := 0, ch := 0 }
  postFault (s.setThread g { t with status := .dropped a k }) (dieOf (tileOf g)) r

/-- A leaf enters both TLBs (R124). -/
def tlbFill (s : State) (g : Nat) (o : Nat) (a : Word) (lg : Nat) (e : BitVec 64) : State :=
  let n := s.draws
  let s := s.modCore (coreOf g) fun c => { c with tlb := cacheInsert 384 n c.tlb (o, a, lg, e) }
  let s := s.modDie (dieOf (tileOf g)) fun d =>
    if (tlbFind d.tlb2 o a).isSome then d else { d with tlb2 := cacheInsert 16384 (n + 1) d.tlb2 (o, a, lg, e) }
  { s with draws := n + 2 }

/-- R128: a thread's walk has ended; a drop waits until the thread's vector instructions have completed (R226). -/
def walkEnd (s : State) (g : Nat) (a : Word) (k : AKind) (w : Walk) : State :=
  let t := s.thread g
  match w with
  | .leaf _ lg e =>
    let s := tlbFill s g t.owner a lg e
    if leafAllows e a k (leafPhys e lg a) then resumeFetch s g else ownerTrap s g 6 0 a t.pc
  | .absent => if vectorDone s g then dropThread s g a k else parkThread s g (.drop a k)
  | .malformed => ownerTrap s g 6 0 a t.pc

/-- The level of a table read. -/
def By.level : By → Option Nat
  | .walk l => some l
  | _ => none

/-- The table read of a thread slot's walk that is answered. -/
def walkAnswer (s : State) (g : Nat) : Option Req :=
  s.traffic.find? fun r => r.by_.level.isSome && r.g == g && responds s r

/-- A table read of the walk for `a` by the thread in slot `g` is on its way. -/
def walkReading (s : State) (g : Nat) (a : Word) : Bool :=
  s.traffic.any fun r => r.by_.level.isSome && r.g == g && r.serial == (s.thread g).serial && r.addr == a

/-- The entry of a table has come: the walk ends, or reads the next table (R124, R333). -/
def walkOn (s : State) (g : Nat) (r : Req) : State :=
  let l := r.by_.level.getD 0
  match (s.thread g).status with
  | .parked (.walk a k) =>
    if a ≠ r.addr ∨ (s.thread g).serial ≠ r.serial then s
    else
      match walkEntry s a l (r.key - 8 * entryIdx a l) (r.data.setWidth 64) with
      | .done w => walkEnd s g a k w
      | .table t => sendWalk s g a (l - 1) t
  | _ => s

/-- R128: a walk ends, by its own or, where tables are read one at a time, goes on with the entry that has come. -/
def execPageWalkComplete (g : Nat) (s : State) : Outcome State Fault Refusal :=
  if g < Config.threads then
    match walkAnswer s g with
    | some r => .next (walkOn (dropReq (countLate s r) r.id) g r)
    | none =>
      match (s.thread g).status with
      | .parked (.walk a k) =>
        .next (if walkReading s g a then s else
          let w := walkVia s (dieOf (tileOf g)) (s.thread g).owner a
          walkEnd (if (tlbFind (s.die (dieOf (tileOf g))).tlb2 (s.thread g).owner a).isSome then s
            else countWalk s (whoIn s g) a) g a k w)
      | _ => .next s
  else .fault .illFormed

/-- The port goes on with what it reads for the thread in slot `g`: requests are made while its tile is neither frozen nor
gated, and performed at any time (R325, R394). -/
def portGo (s : State) (g : Nat) : State :=
  if tileClosed s (tileOf g) ∧ (s.thread g).port.all (·.view.isSome) then s
  else s.modThread g fun t => { t with port := t.port.map (·.go s (tileOf g)) }

/-- R79, R264; a trap or a drop that waited for vector instructions is taken (R226). In calibration mode the port goes on
with what it reads for the thread (R333). -/
def execParkConditionMet (g : Nat) (s : State) : Outcome State Fault Refusal :=
  if g < Config.threads then
    if (s.thread g).port.any fun p => !p.answered s then .next (portGo s g)
    else
    match (s.thread g).status with
    | .parked (.port a n) =>
      .next (if tileClosed s (tileOf g) then s else if portReady s g a n then becomeReady s g else portAsk s g a n)
    | .parked (.needs l) => .next (if !tileClosed s (tileOf g) && l.all (needHolds s g) then becomeReady s g else s)
    | .parked (.mwait n) => .next (if !tileClosed s (tileOf g) && mwaitDone s g n then resumeRetire s g else s)
    | .parked (.trap t) => .next (if !tileClosed s (tileOf g) && vectorDone s g then t.take s g else s)
    | .parked (.drop a k) => .next (if !tileClosed s (tileOf g) && vectorDone s g then dropThread s g a k else s)
    | _ => .next s
  else .fault .illFormed

/-- R129: a held record is posted when an entry frees. -/
def execFaultRecordPost (d : Nat) (s : State) : Outcome State Fault Refusal :=
  if d < Config.dies then
    let x := s.die d
    match x.held with
    | r :: l => .next (if x.faults.length < 1024 then queueFault (s.setDie d { x with held := l }) d r else s)
    | [] => .next s
  else .fault .illFormed

/-! ### Shootdowns (R360) -/

/-- Firn starts an invalidation. -/
def execShootdownRegisterWrite (d owner : Nat) (addr : Word) (size : Nat) (s : State) :
    Outcome State Fault Refusal :=
  if d < Config.dies ∧ 1 ≤ owner ∧ owner ≤ Config.owners then
    .next (s.modDie d fun x => { x with shoot := x.shoot ++ [{ owner := owner, addr := addr, size := size }] })
  else .fault .illFormed

/-- An address lies in the page of a shootdown. -/
def Shoot.covers (x : Shoot) (o : Nat) (a : Word) : Bool :=
  o == x.owner && decide (x.addr.toNat ≤ a.toNat) && decide (a.toNat < x.addr.toNat + x.size)

/-- An access through the entries of a shootdown is still to be performed: a request on its way, or a contribution of
`dadd`, which was translated at its issue and is committed later (R172). -/
def Shoot.busy (x : Shoot) (s : State) : Bool :=
  s.traffic.any (fun r => (r.stage != .performed) && r.key < 2 ^ 52 && x.covers r.owner r.addr) ||
    s.barriers.any fun p => p.2.contribs.any fun k => x.covers k.who.owner k.addr

/-- TLB entries that a shootdown drops: those of the owner that overlap the page. -/
def Shoot.hits (x : Shoot) (e : Nat × Word × Nat × BitVec 64) : Bool :=
  e.1 == x.owner &&
    overlap x.addr.toNat x.size (e.2.1.toNat / 2 ^ e.2.2.1 * 2 ^ e.2.2.1) (2 ^ e.2.2.1)

/-- R360: every TLB has dropped the entries, and every access through them has been performed. -/
def execShootdownComplete (d : Nat) (s : State) : Outcome State Fault Refusal :=
  if d < Config.dies then
    match (s.die d).shoot with
    | [] => .next s
    | x :: l =>
      if x.busy s then .next s
      else
        let s := s.modDie d fun y => { y with shoot := l }
        .next { s with
          cores := s.cores.map fun p => (p.1, { p.2 with tlb := p.2.tlb.filter fun e => !x.hits e })
          dies := s.dies.map fun p => (p.1, { p.2 with tlb2 := p.2.tlb2.filter fun e => !x.hits e }) }
  else .fault .illFormed

/-- The doorbell register of an inlet takes a store of a local thread of the owner (R367). -/
def execDoorbellWrite (inlet : Nat) (data : Word) (s : State) : Outcome State Fault Refusal :=
  if (mget s.inlets inlet).isSome then
    .next (presentTail s inlet (data.setWidth 32) (data.toNat < 2 ^ 32))
  else .next s

end Sys2Proof.Machine
end

