-- ==== Sys2Proof/Machine/Copy.lean ====
section
/-! DEFINITION. Queue and copy class (spec/10_queue_copy_class.md R174 to R196): chain queues and actor channels, remote
register fills, declared buffers and the copy channels. -/

namespace Sys2Proof.Machine

open Host (Outcome)

/-! ### Looking at queues (R189, R196) -/

/-- Entries present or room of the queue that a field names (R189). -/
def queueCount (s : State) (g : Nat) (a : RegNum) : Except Stop Nat :=
  let k := a.toNat
  let c := coreOf g
  if 32 ≤ k ∧ k < 42 then
    if k < 36 ∨ k = 40 then do
      let x ← srcField s g a
      return match x with
        | .queue q => (queueEntries s c q).length
        | _ => 0
    else do
      let x ← dstField s g a
      return match x with
        | .chain d => queueRoom s c d.val
        | _ => queueRoom s c 4
  else .error (illegalOperand a)

/-- R189: `qpoll`. -/
def execQpoll (st : Stall) (d a : RegNum) (s : State) : Outcome State Fault Refusal :=
  runInstr s s.cur false fun s c => do
    let n ← queueCount s s.cur a
    compute s s.cur c st 4 [] d fun _ => .ok (if n = 0 then 0 else 1)

/-- R189: `qcnt`. -/
def execQcnt (st : Stall) (d a : RegNum) (s : State) : Outcome State Fault Refusal :=
  runInstr s s.cur false fun s c => do
    let n ← queueCount s s.cur a
    compute s s.cur c st 4 [] d fun _ => .ok (BitVec.ofNat 64 n)

/-- The stage of a core, which either of its channels names; 0 where it has none (R196). -/
def Core.stage (x : Core) : Nat := ((x.inb <|> x.outb).map (·.stage)).getD 0

/-- The word of `chbind` for a channel of a core of stage `stage` (R196). -/
def bindWord (b : Option Bind) (stage : Nat) : Word :=
  match b with
  | none => BitVec.ofNat 64 (stage % 64)
  | some x => BitVec.ofNat 64 (2 ^ 63 + x.peer % 2 ^ 32 * 2 ^ 16 + x.allow % 256 * 256 + stage % 64)

/-- R196. -/
def execChbind (st : Stall) (out : Bool) (d : RegNum) (s : State) : Outcome State Fault Refusal :=
  runInstr s s.cur false fun s c =>
    let x := s.core (coreOf s.cur)
    compute s s.cur c st 4 [] d fun _ => .ok (bindWord (if out then x.outb else x.inb) x.stage)

/-- The entries on their way that have their result and no earlier entry of their thread before them (R102). -/
def readyPushes (s : State) : List (Nat × Nat) → List Push → List Push
  | _, [] => []
  | seen, p :: l =>
    let r := readyPushes s ((p.g, p.serial) :: seen) l
    if (p.g, p.serial) ∉ seen ∧ p.val.isSome ∧ p.due ≤ (s.core (coreOf p.g)).clock then p :: r else r

/-- Of entries, the first of those whose results were written first. -/
def firstWritten : List Push → Option Push
  | [] => none
  | p :: l =>
    match firstWritten l with
    | some q => if q.due < p.due then some q else some p
    | none => some p

/-- The entry that enters a queue next and those that stay on their way: entries of different threads enter in the order
in which their results are written, those of one thread in the order of their instructions' issue (R102, R174). -/
def takeReady (s : State) (l : List Push) : Option (Push × List Push) :=
  (firstWritten (readyPushes s [] l)).map fun p => (p, l.erase p)

/-- R174, R176: an entry becomes visible at an inbound queue. -/
def execQueueEntryArrival (core dir : Nat) (s : State) : Outcome State Fault Refusal :=
  if core < Config.cores ∧ dir < 5 then
    let x := s.core core
    if tileClosed s (core / 4) then .next s
    else if h : dir < 4 then
      match takeReady s x.flight[dir] with
      | some (p, l) =>
        .next (s.setCore core { x with
          chain := x.chain.set dir (x.chain[dir] ++ [p.val.getD 0]), flight := x.flight.set dir l })
      | none => .next s
    else
      match takeReady s x.inflight with
      | some (p, l) => .next (s.setCore core { x with infifo := x.infifo ++ [p.val.getD 0], inflight := l })
      | none => .next s
  else .fault .illFormed

/-- R176: a credit returns to the output channel. -/
def execActorCreditReturn (core : Nat) (s : State) : Outcome State Fault Refusal :=
  if core < Config.cores then
    let x := s.core core
    if x.returning = 0 ∨ tileClosed s (core / 4) then .next s
    else .next (s.setCore core { x with returning := x.returning - 1, credits := x.credits + 1 })
  else .fault .illFormed

/-! ### rput (R177 to R179) -/

/-- Delivery: the register takes the value, is full, and its remote bit is 1 (R178). -/
def Thread.remoteFill (t : Thread) (r : Fin 32) (v : Word) : Thread :=
  { t with
    pend := t.pend.filter (·.reg != r)
    regs := t.regs.set r { val := v, full := true, remote := true, fill := false } }

/-- Insertion of an `rput` on its way. -/
def sendRput (s : State) (g g' : Nat) (reg : Fin 32) (v : Word) : State :=
  { s with
    rputs := s.rputs ++
      [{ id := s.nextId, sender := g, senderNo := (s.thread g).serial, target := g'
         targetNo := (s.thread g').serial, reg := reg, val := v }]
    nextId := s.nextId + 1 }

/-- R179. -/
def execRput (st : Stall) (a b : RegNum) (reg : BitVec 14) (s : State) : Outcome State Fault Refusal :=
  runInstr s s.cur false fun s c => do
    let g := s.cur
    let t := s.thread g
    if reg = 0 ∨ 32 ≤ reg.toNat then throw (.owner 3 (reg.toNat % 256) 0)
    let o ← operands s g [a, b] []
    let tgt := ownerThread s t.owner (o.v 0).toNat
    match tgt with
    | none => return retire (misuseBoth (consume s g o.srcs) (whoIn s g)) g c st false none
    | some g' =>
      if !live s g' ∨ (s.thread g').owner ≠ t.owner then
        return retire (misuseBoth (consume s g o.srcs) (whoIn s g)) g c st false none
      else if g' = g then
        let r := physReg t.rb (reg.setWidth 6)
        if (t.reg r).fill then throw (.park (.needs [.full r]))
        return retire ((consume s g o.srcs).modThread g fun t => t.remoteFill r (o.v 1)) g c st false none
      else
        let s := consume s g o.srcs
        let id := s.nextId
        let s := sendRput s g g' (physReg 0 (reg.setWidth 6)) (o.v 1)
        return s.modThread g fun t => { t with status := .parked (.access id), ready := c, base := c }

/-- The sender of an `rput`. -/
def Rput.who (s : State) (x : Rput) : Who :=
  { g := x.sender, serial := x.senderNo, owner := berthOwner s (berthOf (tileOf x.sender)), launch := 0 }

/-- The target of an `rput` is the thread to which it was sent: no delivery lands in a slot that a later thread occupies
(R178). -/
def Rput.reaches (s : State) (x : Rput) : Bool := live s x.target && (s.thread x.target).serial == x.targetNo

/-- The `rput` may be delivered to its register now (R178). -/
def rputReady (s : State) (x : Rput) (r : Fin 32) : Bool :=
  let y := (s.thread x.target).reg r
  (!y.full && !y.fill) || (y.full && !y.remote && x.read)

/-- The oldest waiting `rput` of a register. -/
def rputFirst (s : State) (x : Rput) : Bool :=
  (s.rputs.find? fun y => y.target == x.target && y.arrived == x.arrived).any (·.id == x.id)

/-- An `rput` ends: its sender goes on (R179). -/
def endRput (s : State) (x : Rput) : State :=
  let s := { s with rputs := s.rputs.filter (·.id != x.id) }
  if (s.thread x.sender).status = .parked (.access x.id) then resumeRetire s x.sender else s

/-- The physical register of an `rput` at its arrival (R179): registers 16 to 23 rotate with the target's rb. -/
def rputReg (s : State) (x : Rput) : Fin 32 := physReg (s.thread x.target).rb (BitVec.ofNat 6 x.reg.val)

/-- R178: an `rput` arrives at its target's tile, or one that waits is delivered. -/
def execRputDelivery (id : Nat) (s : State) : Outcome State Fault Refusal :=
  match s.rputs.find? (·.id == id) with
  | none => .next s
  | some x =>
    if tileClosed s (tileOf x.target) then .next s
    else if !x.reaches s then .next (misuseBoth (endRput s x) (x.who s))
    else
      match x.arrived with
      | none =>
        let r := rputReg s x
        let y := (s.thread x.target).reg r
        if !y.full ∧ !y.fill ∧ !(s.rputs.any fun z => z.target == x.target && z.arrived == some r) then
          .next (endRput (s.modThread x.target fun t => t.remoteFill r x.val) x)
        else .next { s with rputs := s.rputs.filter (·.id != id) ++ [{ x with arrived := some r }] }
      | some r =>
        if rputReady s x r ∧ rputFirst s x then
          .next (endRput (s.modThread x.target fun t => t.remoteFill r x.val) x)
        else .next s

/-- R178: the operations that wait for a read which the instruction of thread `g` has made are delivered in the clock after
it. -/
def deliverRead (s : State) (g : Nat) : State :=
  (s.rputs.filter fun x => x.target == g && x.read).foldl (fun s x =>
    match x.arrived with
    | some r =>
      if x.reaches s ∧ rputReady s x r then endRput (s.modThread g fun t => t.remoteFill r x.val) x else s
    | none => s) s

/-- R178: the target's slot becomes empty: what waits on it completes without delivery and is counted. -/
def rputAbandon (s : State) (g : Nat) : State :=
  (s.rputs.filter fun x => x.target == g && x.arrived.isSome).foldl (fun s x =>
    misuseBoth (endRput s x) (x.who s)) s

/-! ### Declared buffers (R184, R185, R193, R194) -/

/-- Buffer `b` of a tile. -/
def Tile.buf (x : Tile) (b : Nat) : Buf := if h : b < 32 then x.bufs[b] else {}
def Tile.setBuf (x : Tile) (b : Nat) (y : Buf) : Tile := { x with bufs := x.bufs.setIfInBounds b y }

/-- A descriptor operation of thread `g` gives buffer `b` its new state (R185). -/
def Tile.applyBuf (x : Tile) (g b : Nat) (y : Buf) : Tile := { x.setBuf b y with blast := coreOf g % 4 }

/-- The segment checks of an extent of `size` bytes through types 0 and 1 (R120): the region and the window are those of
its first byte. -/
def extentCheck (s : State) (o : Nat) (sg : Seg) (off : Word) (size align rights : Nat) : Except Stop Word :=
  segCheck s o sg off { size := size, align := align, rights := rights, types := [0, 1] }

/-- An extent lies in the tile store of tile `T` (R183). -/
def inTile (s : State) (o T : Nat) (a : Word) (n : Nat) : Bool :=
  region a == .window && (windowTile s o a).1 == T && decide ((windowTile s o a).2 + n ≤ Config.tileStore)

/-- Banks that an extent of the tile store touches. -/
def banksOf (off n : Nat) : List Nat := if n = 0 then [] else (List.range 24).filter fun b =>
  off / 65536 ≤ b && b ≤ (off + n - 1) / 65536


/-- A row of `n` bytes from `a`, repeated `rows` times at a stride, touches a range. -/
def rowsOverlap (a n rows stride : Nat) (b m : Nat) : Bool :=
  if n = 0 ∨ m = 0 ∨ rows = 0 then false
  else if stride = 0 then overlap a n b m
  else
    -- rows j with a + j × stride < b + m and b < a + j × stride + n
    let lo := if b < a + n then 0 else (b - (a + n)) / stride + 1
    decide (lo < rows) && decide (a + lo * stride < b + m)

/-- Rows of bytes at an owner address touch a bank whose landing bit is 1 (R186, R285). -/
def hitsLanding (s : State) (o : Nat) (a : Word) (n rows stride : Nat) : Bool :=
  region a == .window &&
    (List.range (ownerTiles s o)).any fun t =>
      rowsOverlap a.toNat n rows stride (t * 2 ^ 21 + 22 * 65536) (2 * 65536) &&
        landingBit s ((ownerTile s o t).getD 0) 22

/-- R193. -/
def execBufdecl (st : Stall) (buf len : RegNum) (m : MemOp 40) (s : State) : Outcome State Fault Refusal :=
  runInstr s s.cur false fun s c => do
    let g := s.cur
    let T := tileOf g
    let x := memArg m
    if 32 ≤ buf.toNat then throw (illegalOperand buf)
    let o ← operands s g [x.off, len] []
    require s g (kwNeeds x.kw)
    let n := (o.v 1).toNat
    let a ← extentCheck s (s.thread g).owner ((s.thread g).segs[x.seg.toNat]) (segOff (o.v 0) false 1 x.disp) n 1 8
    let y := (s.tile T).buf buf.toNat
    if y.declared ∧ (y.state = .filling ∨ y.state = .draining) then throw (bufFault 1 a)
    let others := (s.tile T).bufs.toList.zipIdx
    if n ≠ 0 ∧ (others.any (fun z => z.2 != buf.toNat && z.1.declared && overlap a.toNat n z.1.addr.toNat z.1.len) ∨
        hitsLanding s (s.thread g).owner a n 1 0) then throw (bufFault 5 a)
    let z : Buf := if n = 0 then { ch := y.ch } else { declared := true, addr := a, len := n, ch := y.ch }
    return retire ((consume s g o.srcs).modTile T fun t => t.applyBuf g buf.toNat z) g c st false none

/-- The state after an event of `bufset`, or the fault's cause (R185). -/
def bufMove (y : Buf) (e : BufEvent) : Except Nat BufState :=
  if !y.declared then .error 4
  else
    match y.state, e with
    | .filling, _ => .error 1
    | _, .empty => .ok .empty
    | _, .full => .ok .full
    | .empty, .drain => .error 1
    | _, .drain => .ok .draining

/-- R194: `bufset`. The fault of a descriptor accesses no memory, and the spec gives its record no address: the model
records the buffer's, which is 0 while it is not declared (DESIGN CHOICE, entry 106). -/
def execBufset (st : Stall) (e : BufEvent) (buf : BitVec 5) (s : State) : Outcome State Fault Refusal :=
  runInstr s s.cur false fun s c => do
    let g := s.cur
    let T := tileOf g
    let y := (s.tile T).buf buf.toNat
    match bufMove y e with
    | .error k => throw (bufFault k y.addr)
    | .ok b => return retire (s.modTile T fun t => t.applyBuf g buf.toNat { y with state := b }) g c st false none

/-- State codes of R194. -/
def BufState.code : BufState → Nat
  | .empty => 0 | .filling => 1 | .full => 2 | .draining => 3

/-- The word of `bufget` (R194). -/
def bufWord (y : Buf) : Word :=
  BitVec.ofNat 64 (y.len % 2 ^ 48 * 2 ^ 16 + y.status % 256 * 256 + y.ch % 4 * 64 + (if y.declared then 4 else 0) +
    y.state.code)

/-- R194: `bufget`. -/
def execBufget (st : Stall) (d : RegNum) (buf : BitVec 5) (s : State) : Outcome State Fault Refusal :=
  runInstr s s.cur false fun s c =>
    compute s s.cur c st 4 [] d fun _ => .ok (bufWord ((s.tile (tileOf s.cur)).buf buf.toNat))

/-- R195. -/
def execCwp (st : Stall) (ch : BitVec 2) (d : RegNum) (s : State) : Outcome State Fault Refusal :=
  runInstr s s.cur false fun s c =>
    let p := ((s.tile (tileOf s.cur)).chan ch.toNat).ptr.toList.getD (s.cur % 32) 0
    compute s s.cur c st 4 [] d fun _ => .ok (BitVec.ofNat 64 p)

/-! ### Copy starts (R190 to R192) -/

/-- Bytes that a copy reads: `rows` rows of `len` bytes from an address at a stride. -/
structure Rows where
  addr : Word
  len : Nat
  rows : Nat := 1
  stride : Nat := 0

/-- A copy source: a filling buffer may not be read (R184). -/
def sourceCheck (s : State) (T : Nat) (x : Rows) : Except Stop Unit :=
  if (s.tile T).bufs.any fun b =>
      b.declared && b.state == .filling && rowsOverlap x.addr.toNat x.len x.rows x.stride b.addr.toNat b.len
  then .error (bufFault 1 x.addr) else .ok ()

/-- What a copy instruction asks to start, once its operands and its segment checks are done. -/
structure CopyPlan where
  kind : CopyKind
  seg : Seg
  off : Word
  /-- Source bytes of a flat copy. -/
  len : Nat
  /-- It cannot convert (R183). -/
  plain : Bool
  /-- The checks made at issue of a copy that cannot convert: shape, destination extent. -/
  shapeOk : Bool
  dext : Nat
  /-- Row length, rows and stride of the bytes that a copy without conversion writes; none for a scatter. -/
  writes : Nat × Nat × Nat
  /-- What it reads, in the order of the buffer checks. -/
  reads : List Rows

/-- The completion register of `.cf` (R187). -/
def cfReg (s : State) (g : Nat) (cf : Bool) (n : RegNum) : Except Stop (Option (Fin 32)) :=
  if !cf then .ok none
  else if n.toNat = 0 ∨ 32 ≤ n.toNat then .error (illegalOperand n)
  else .ok (some (physReg (s.thread g).rb n))

/-- The rest of a start (R190), its segments checked: the landing-bank rule for what it would write, a segment check too
(R120, R285), then the buffer checks of what it reads (R184), of descriptor, state, shape and extent, room in the channel's
queue, and what happens in the turn in which it issues. The status of the buffer's last copy goes with the start: the spec
does not say what `bufget` shows of it while the buffer fills, and the model shows 0 (DESIGN CHOICE, entry 42). Nor does it
say which address the record of a buffer fault of the descriptor names, causes 1 to 4 here: the model records the buffer's
(DESIGN CHOICE, entry 106). -/
def copyStart (s : State) (g c : Nat) (st : Stall) (ch : BitVec 2) (buf : Nat) (cf : Option (Fin 32))
    (srcs : List Src) (p : CopyPlan) : Except Stop State := do
  let T := tileOf g
  let y := (s.tile T).buf buf
  let t := s.thread g
  if y.declared ∧ hitsLanding s t.owner y.addr p.writes.1 p.writes.2.1 p.writes.2.2 then throw (segFault 2 y.addr)
  p.reads.forM (sourceCheck s T)
  if !y.declared then throw (bufFault 4 y.addr)
  if y.state ≠ .empty then throw (bufFault 1 y.addr)
  if !p.shapeOk then throw (bufFault 3 y.addr)
  if p.plain ∧ y.len < p.dext then throw (bufFault 2 y.addr)
  require s g [.channel ch.toNat]
  let x : Copy :=
    { n := s.nextId, pc := t.pc, g := g, serial := t.serial, slot := g % 32, owner := t.owner, launch := t.launch
      kind := p.kind, buf := buf, base := p.seg.base, limit := p.seg.limit.toNat, sty := p.seg.type, off := p.off
      len := p.len, cf := cf }
  let s := consume { s with nextId := s.nextId + 1 } g srcs
  let s := s.modTile T fun z =>
    (z.applyBuf g buf { y with state := .filling, ch := ch.toNat, status := 0 }).modChan ch.toNat fun k =>
      { k with queue := k.queue ++ [x], ptr := k.ptr.setIfInBounds (g % 32) 0 }
  let s := match cf with
    | some r => awaitDst s g (.reg r) 0
    | none => s
  return retire s g c st false none

/-- The buffer of a copy lies in the starting tile's store (R183). -/
def bufInTile (s : State) (g buf : Nat) : Bool :=
  let y := (s.tile (tileOf g)).buf buf
  inTile s (s.thread g).owner (tileOf g) y.addr y.len

/-- R190. -/
def execCpy (st : Stall) (ch : BitVec 2) (cf : Bool) (buf len : RegNum) (m : MemOp 40) (s : State) :
    Outcome State Fault Refusal :=
  runInstr s s.cur false fun s c => do
    let g := s.cur
    let x := memArg m
    if 32 ≤ buf.toNat then throw (illegalOperand buf)
    let r ← cfReg s g cf len
    let o ← operands s g [x.off, len] []
    require s g (kwNeeds x.kw)
    let sg := (s.thread g).segs[x.seg.toNat]
    let off := segOff (o.v 0) false 1 x.disp
    let n := (o.v 1).toNat
    let a ← extentCheck s (s.thread g).owner sg off n 1 1
    let conv := inTile s (s.thread g).owner (tileOf g) a n && bufInTile s g buf.toNat
    copyStart s g c st ch buf.toNat r o.srcs
      { kind := .flat, seg := sg, off := off, len := n, plain := !conv, shapeOk := true, dext := n, writes := (n, 1, 0)
        reads := [⟨a, n, 1, 0⟩] }

/-- The extent of rows at a stride; 0 for no bytes (R191). -/
def rowExtent (len rows stride : Nat) : Nat := if len = 0 ∨ rows = 0 then 0 else (rows - 1) * stride + len

/-- R191. -/
def execCpy2 (st : Stall) (ch : BitVec 2) (cf : Bool) (buf a b cc : RegNum) (seg : BitVec 3) (s : State) :
    Outcome State Fault Refusal :=
  runInstr s s.cur false fun s c => do
    let g := s.cur
    if 32 ≤ buf.toNat then throw (illegalOperand buf)
    let r ← cfReg s g cf a
    let o ← operands s g [a, b, cc] []
    let sg := (s.thread g).segs[seg.toNat]
    let len := (o.v 1).toNat % 2 ^ 32
    let rows := (o.v 1).toNat / 2 ^ 32
    let sstr := (o.v 2).toNat % 2 ^ 32
    let dstr := (o.v 2).toNat / 2 ^ 32
    let ext := rowExtent len rows sstr
    let ad ← extentCheck s (s.thread g).owner sg (o.v 0) ext 1 1
    let conv := inTile s (s.thread g).owner (tileOf g) ad ext && bufInTile s g buf.toNat
    let dst := if dstr = 0 then len else dstr
    copyStart s g c st ch buf.toNat r o.srcs
      { kind := .block len rows sstr dstr, seg := sg, off := o.v 0, len := len, plain := !conv
        shapeOk := conv || dstr == 0 || len ≤ dstr, dext := rowExtent len rows dst, writes := (len, rows, dst)
        reads := [⟨ad, len, rows, sstr⟩] }

/-- Element sizes of gathers and scatters (R192). -/
def elemSizeOk (e : Nat) : Bool := [1, 2, 4, 8, 16, 32, 64].contains e

/-- The checks of a segment through which the channel reads single elements (R120 causes 1 and 2): the elements' places
are checked by the channel (R192). -/
def readable (sg : Seg) (off : Word) : Except Stop Unit :=
  if sg.type = 3 then .error (segFault 1 (sg.base + off))
  else if sg.rights &&& 1 ≠ 1 then .error (segFault 2 (sg.base + off))
  else if sg.type = 2 then .error (segFault 5 (sg.base + off))
  else .ok ()

/-- R192: a gather copies bytes unchanged, since its n × e is checked against the buffer at issue as R190 has it for a copy
that cannot convert alone; a scatter may convert (R183; DEDUCED, entry 43). Whether a gathered element may lie in a filling
buffer, which only the channel sees, the spec does not say: no check is made of it (DESIGN CHOICE, entry 43). -/
def indexCopy (st : Stall) (ch : BitVec 2) (cf : Bool) (buf a b cc : RegNum) (seg : BitVec 3) (scatter : Bool)
    (s : State) : Outcome State Fault Refusal :=
  runInstr s s.cur false fun s c => do
    let g := s.cur
    if 32 ≤ buf.toNat then throw (illegalOperand buf)
    let r ← cfReg s g cf a
    let o ← operands s g [a, b, cc] []
    let t := s.thread g
    let sg := t.segs[seg.toNat]
    let e := (o.v 2).toNat % 2 ^ 32
    let n := (o.v 2).toNat / 2 ^ 32
    let list ← extentCheck s t.owner (t.segs[(0 : Nat)]) (o.v 1) (n * 4) 4 1
    let src ← if scatter then (do return [⟨← extentCheck s t.owner sg (o.v 0) (n * e) 1 1, n * e, 1, 0⟩])
      else (do readable sg (o.v 0); return ([] : List Rows))
    copyStart s g c st ch buf.toNat r o.srcs
      { kind := if scatter then .scatter e n list else .gather e n list, seg := sg, off := o.v 0, len := n * e
        plain := !scatter, shapeOk := elemSizeOk e, dext := n * e
        writes := if scatter then (0, 0, 0) else (n * e, 1, 0), reads := ⟨list, n * 4, 1, 0⟩ :: src }

def execCpyg (st : Stall) (ch : BitVec 2) (cf : Bool) (buf a b c : RegNum) (seg : BitVec 3) (s : State) :
    Outcome State Fault Refusal :=
  indexCopy st ch cf buf a b c seg false s
def execCpys (st : Stall) (ch : BitVec 2) (cf : Bool) (buf a b c : RegNum) (seg : BitVec 3) (s : State) :
    Outcome State Fault Refusal :=
  indexCopy st ch cf buf a b c seg true s

/-! ### The channels (R180 to R183, R186, R187) -/

/-- The lone value of a list of formats: all equal. -/
def oneFmt : List (BitVec 5) → Option (BitVec 5)
  | [] => none
  | f :: l => if l.all (· == f) then some f else none

/-- The bits of a converted row: its bytes, none when elements or bytes are not whole. -/
def convRow (src dst : BitVec 5) (len : Nat) : Option Nat :=
  let sb := (bankElem src).bits
  let db := (bankElem dst).bits
  if len * 8 % sb ≠ 0 ∨ len * 8 / sb * db % 8 ≠ 0 then none else some (len * 8 / sb * db / 8)

/-- How a copy goes once its formats are read (R183): the mode, or a status that ends it. -/
def copyMode (s : State) (T : Nat) (x : Copy) : Except Nat CopyMode :=
  let a := x.base + x.off
  let ext := match x.kind with
    | .block len rows sstr _ => rowExtent len rows sstr
    | _ => x.len
  let y := (s.tile T).buf x.buf
  let may := match x.kind with
    | .gather .. => false
    | _ => inTile s x.owner T a ext && inTile s x.owner T y.addr y.len
  if !may then .ok .bytes
  else
    let fs := (banksOf (windowTile s x.owner a).2 ext).map (bankFmt s T)
    let ds := (banksOf (windowTile s x.owner y.addr).2 y.len).map (bankFmt s T)
    if fs.all (· == 0) ∨ ds.all (· == 0) then .ok .bytes
    else
      match oneFmt fs, oneFmt ds with
      | some f, some d =>
        if f = 0 ∨ d = 0 then .error 3
        else if d = 8 ∨ d = 9 then .error 3
        else .ok (.convert f d)
      | _, _ => .error 3

/-- The destination shape of a copy (R183, R190, R191): row length, stride, length; or a status. Each element of a scatter
is a row: of e source bytes, it becomes the bytes of its converted elements, at its index times their number (DEDUCED, entry
43). -/
def copyShape (s : State) (T : Nat) (x : Copy) (m : CopyMode) : Except Nat (Nat × Nat × Nat) :=
  let row (n : Nat) : Option Nat := match m with
    | .bytes => some n
    | .convert f d => convRow f d n
  let room := ((s.tile T).buf x.buf).len
  match x.kind with
  | .flat =>
    match row x.len with
    | none => .error 4
    | some n => if room < n then .error 4 else .ok (n, n, n)
  | .block len rows _ dstr =>
    match row len with
    | none => .error 4
    | some n =>
      let d := if dstr = 0 then n else dstr
      if d < n ∨ room < rowExtent n rows d then .error 4
      else if n = 0 ∨ rows = 0 then .ok (0, 0, 0)
      else .ok (n, d, n * rows)
  | .gather e n _ => .ok (e * n, e * n, e * n)
  | .scatter e n _ =>
    match row e with
    | none => .error 4
    | some d => if m ≠ .bytes ∧ room < d * n then .error 4 else .ok (d, d, d * n)

/-- A copy has handed over its last unit, or has stopped (R180). -/
def Copy.handed (x : Copy) : Bool := x.stopped || decide (x.dlen ≤ x.next)

/-- Where a byte of an engine's access lies, translated page by page at the memory port (R181); only memory and the
window are reached. -/
def engineKey (s : State) (o : Nat) (a : Word) (k : AKind) : Xlat :=
  match region a with
  | .window => if windowOk s o a then let w := windowTile s o a; .ok (tileKey w.1 w.2) else .fatal
  | .paged => translateNow s o a k
  | _ => .fatal

/-- What a channel has read: bytes, whether data was uncorrectable, and a key that failed a check. -/
structure ChanRead where
  bytes : List Byte
  bad : Bool
  dropped : Option Nat
  /-- The banks that it has reached. -/
  banks : List Nat := []

/-- A channel reads `n` bytes from `a` through a segment of type `ty`; an address that is not resident, is refused, or lies
where the type does not reach ends it. -/
def chanRead (s : State) (o ty : Nat) (a : Word) : Nat → Except (Word × Bool) ChanRead
  | 0 => .ok ⟨[], false, none, []⟩
  | n + 1 =>
    match (if typeReaches ty (region a) then engineKey s o a .load else .fatal) with
    | .miss => .error (a, false)
    | .fatal => .error (a, true)
    | .ok key =>
      match chanRead s o ty (a + 1) n with
      | .error e => .error e
      | .ok r =>
        let banks := if r.banks.contains (bankOf key) then r.banks else bankOf key :: r.banks
        if gate s o key ≠ .pass then .ok ⟨0 :: r.bytes, r.bad, some key, r.banks⟩
        else
          let bad := s.poison.contains (unitOf key)
          .ok ⟨(if bad then 0 else memByte s.mem key) :: r.bytes, bad || r.bad, r.dropped, banks⟩

/-- A read waits: a request that stands at one of its banks is served first, and a bank serves one access in a clock (R121). -/
def ChanRead.waits (s : State) (r : ChanRead) : Bool := r.banks.any (bankTaken s)

/-- A byte of a tile store that nothing reaches now. -/
def storeClosed (s : State) (o : Nat) (a : Word) : Bool :=
  region a == .window && windowOk s o a && tileClosed s (windowTile s o a).1

/-- Source bytes of a row that destination bytes i to i + n − 1 need, and the bytes they become. -/
def unitSource (m : CopyMode) (i n : Nat) : Nat × Nat × (List Byte → List Byte) :=
  match m with
  | .bytes => (i, n, id)
  | .convert f d =>
    let sb := (bankElem f).bits
    let db := (bankElem d).bits
    let e0 := i * 8 / db
    let e1 := ((i + n) * 8 + db - 1) / db
    let b0 := e0 * sb / 8
    let b1 := (e1 * sb + 7) / 8
    (b0, b1 - b0, fun bs =>
      let v := (List.range (e1 - e0)).foldl (fun acc k =>
        let x := natOfBytes bs / 2 ^ ((e0 + k) * sb - b0 * 8) % 2 ^ sb
        acc + convertBits (bankElem f) (bankElem d) .rne false false x * 2 ^ (db * k)) 0
      bytesOfNat n (v / 2 ^ (i * 8 - e0 * db)))

/-- The next unit of a copy: source address and length, buffer offset, length, conversion. -/
structure Unit' where
  src : Word
  slen : Nat
  place : Nat
  len : Nat
  conv : List Byte → List Byte

/-- At most what the aligned 64-byte block of the destination holds (R155). -/
def unitLen (addr place left : Nat) : Nat := min left (64 - (addr + place) % 64)

/-- Destination bytes of an element of a gather or scatter. -/
def Copy.elem (x : Copy) : Nat :=
  match x.kind with
  | .gather e _ _ => e
  | _ => x.drow

/-- The address of the index that the channel reads next, once an element (R192). -/
def Copy.indexAddr (x : Copy) : Option Word :=
  match x.kind, x.idx with
  | .gather _ _ list, none | .scatter _ _ list, none => some (list + BitVec.ofNat 64 (4 * (x.next / x.elem)))
  | _, _ => none

/-- The next unit of a copy whose buffer begins at `addr` and holds `room` bytes, its index read; or the status that ends
it (R192). -/
def Copy.unit (x : Copy) (addr room : Nat) : Except Nat Unit' :=
  let a := x.base + x.off
  let k := (x.idx.getD (0, false)).1
  match x.kind with
  | .flat =>
    let n := unitLen addr x.next (x.dlen - x.next)
    let u := unitSource x.mode x.next n
    .ok ⟨a + BitVec.ofNat 64 u.1, u.2.1, x.next, n, u.2.2⟩
  | .block _ _ sstr _ =>
    let j := x.next / x.drow
    let i := x.next % x.drow
    let p := j * x.dstr + i
    let n := unitLen addr p (x.drow - i)
    let u := unitSource x.mode i n
    .ok ⟨a + BitVec.ofNat 64 (j * sstr + u.1), u.2.1, p, n, u.2.2⟩
  | .gather e _ _ =>
    let i := x.next % e
    let off := x.off.toNat + k * e
    if x.limit < off + e then .error 2
    else
      let n := unitLen addr x.next (e - i)
      .ok ⟨x.base + BitVec.ofNat 64 (off + i), n, x.next, n, id⟩
  | .scatter e _ _ =>
    let i := x.next % x.drow
    let p := k * x.drow
    if room < p + x.drow then .error 2
    else
      let n := unitLen addr (p + i) (x.drow - i)
      let u := unitSource x.mode i n
      .ok ⟨a + BitVec.ofNat 64 (x.next / x.drow * e + u.1), u.2.1, p + i, n, u.2.2⟩

/-- The address at which the copy reads next: an index, or the source data of its next unit (R180, R192). -/
def Copy.readAddr (s : State) (T : Nat) (x : Copy) : Word :=
  let y := (s.tile T).buf x.buf
  match x.indexAddr with
  | some a => a
  | none =>
    match x.unit y.addr.toNat y.len with
    | .ok u => u.src
    | .error _ => x.base + x.off

/-- R180, R183: the channel accepts its next copy and reads its bank formats. -/
def execCopyAcceptance (T ch : Nat) (s : State) : Outcome State Fault Refusal :=
  if T < Config.tiles ∧ ch < 4 then
    let k := (s.tile T).chan ch
    match k.queue with
    | [] => .next s
    | x :: l =>
      if tileClosed s T ∨ !(k.runs.all (·.handed)) then .next s
      else
        let x' := match copyMode s T x with
          | .error e => { x with status := e, stopped := true }
          | .ok m =>
            match copyShape s T x m with
            | .error e => { x with status := e, stopped := true }
            | .ok (r, d, n) => { x with mode := m, drow := r, dstr := d, dlen := n }
        .next (s.modTile T fun y => y.modChan ch fun k => { k with queue := l, runs := k.runs ++ [x'] })
  else .fault .illFormed

/-- Change the copy numbered `n` that runs on a channel. -/
def modRun (s : State) (T ch n : Nat) (f : Copy → Copy) : State :=
  s.modTile T fun y => y.modChan ch fun k => { k with runs := k.runs.map fun x => if x.n = n then f x else x }

/-- A running copy ends with a status (R186). -/
def stopRun (s : State) (T ch n status : Nat) : State :=
  modRun s T ch n fun x => { x with status := status, stopped := true }

/-- A page that is not resident: the record of R129 by the channel, which waits; or status 1 (R181). What is uncorrectable
among the tables of the walk is counted (R352). -/
def copyFault (s : State) (T ch : Nat) (x : Copy) (a : Word) (fatal : Bool) (k : AKind) : State :=
  let s := if region a = .paged then countWalk s x.who a else s
  if fatal then stopRun s T ch x.n 1
  else
    let r : FRec := { addr := a, pc := x.pc, ident := BitVec.ofNat 32 (logicalTile s T * 32 + x.slot), owner := x.owner
                      kind := k, requester := 1, ch := ch }
    postFault (modRun s T ch x.n fun x => { x with fault := some a, port := none }) (dieOf T) r

/-- The counts of a channel's read that a check refuses (R390). -/
def countDrop (s : State) (o : Nat) (k : Option Nat) : State :=
  match k with
  | some key => gateCount s o key
  | none => s

/-- The channel has read the index of an element (R192). -/
def takeIndex (s : State) (T ch : Nat) (x : Copy) (r : ChanRead) : State :=
  let bad := r.bad || x.lost
  let s := countDrop (latePort (serveBanks s r.banks) T x.port) x.owner r.dropped
  modRun s T ch x.n fun x =>
    { x with idx := some (if bad then 0 else natOfBytes r.bytes, bad), lost := false, port := none }

/-- After `n` more bytes: at the end of an element the channel goes on to the next index (R192). -/
def Copy.advance (x : Copy) (n : Nat) : Copy :=
  let x := { x with next := x.next + n, lost := false, port := none }
  match x.kind with
  | .gather .. | .scatter .. => if x.next % x.elem = 0 then { x with idx := none } else x
  | _ => x

/-- The channel hands a unit to its bank: what it read, or zeros and status 5 where that was uncorrectable, each such unit
counted (R181, R186). -/
def handUnit (s : State) (T ch : Nat) (x : Copy) (u : Unit') (r : ChanRead) (dst : Word) (key : Nat) : State :=
  let bad := r.bad || x.lost || (x.idx.getD (0, false)).2
  let bs := if bad then List.replicate u.len 0 else (u.conv r.bytes).take u.len
  let s := countDrop (latePort (serveBanks s r.banks) T x.port) x.owner r.dropped
  let s := if bad then modRun (dataError s x.who) T ch x.n fun x => { x with status := 5 } else s
  let s := send s
    { id := s.nextId, by_ := .copy ch x.n, path := .copy, g := x.g, serial := x.serial, owner := x.owner
      launch := x.launch, tile := T, key := key, size := u.len
      acc := storeAcc u.len (BitVec.ofNat 512 (natOfBytes bs)), kcls := 1, addr := dst }
  modRun s T ch x.n fun x => x.advance u.len

/-- A unit aimed at a bank whose landing bit is 1 since the copy started: it has no effect (R285), and no instruction is
left to take its fault, so the copy ends as after a fatal translation fault (DESIGN CHOICE, entry 95). -/
def onLanding (s : State) (key : Nat) : Bool :=
  decide (2 ^ 52 ≤ key) && landingBit s ((key - 2 ^ 52) / 2 ^ 21) (key % 2 ^ 21 / 65536)

/-- A unit of an earlier copy of the channel is on its way: what a later copy reads is read behind it (R153). -/
def earlierUnit (s : State) (T ch n : Nat) : Bool :=
  s.traffic.any fun r => r.tile == T && r.stage == .sent && (match r.by_ with | .copy c m => c == ch && m != n | _ => false)

/-- The channel cannot read for a copy now: in a pause; with a page fault (R181); behind the units of an earlier copy
(R153); from a store that is gated (R316). -/
def Copy.waits (s : State) (T ch : Nat) (x : Copy) : Bool :=
  tileClosed s T || x.fault.isSome || earlierUnit s T ch x.n || storeClosed s x.owner (x.readAddr s T)

/-- What the channel has read is there for it: an answer of the port, or nothing stands before it at its banks (R121). -/
def Copy.served (s : State) (x : Copy) (r : ChanRead) : Bool := x.port.isSome || !r.waits s

/-- The channel reads for its running copy, by the answer of the port where there is one: the index of its next element, or
its next unit, which it hands to its bank (R180, R181, R192). -/
def copyRead (s : State) (T ch : Nat) (x : Copy) : State :=
  let v := portView s x.port
  let y := (s.tile T).buf x.buf
  match x.indexAddr with
  | some a =>
    match chanRead v x.owner (if region a = .window then 1 else 0) a 4 with
    | .error (a, fatal) => copyFault s T ch x a fatal .load
    | .ok r => if x.served s r then takeIndex s T ch x r else s
  | none =>
    match x.unit y.addr.toNat y.len with
    | .error e => stopRun s T ch x.n e
    | .ok u =>
      match chanRead v x.owner x.sty u.src u.slen with
      | .error (a, fatal) => copyFault s T ch x a fatal .load
      | .ok r =>
        if !x.served s r then s else
        let dst := y.addr + BitVec.ofNat 64 u.place
        match engineKey s x.owner dst .store with
        | .miss => copyFault s T ch x dst false .store
        | .fatal => copyFault s T ch x dst true .store
        | .ok key => if onLanding s key then stopRun s T ch x.n 1 else handUnit s T ch x u r dst key

/-- The channel goes on with its running copy. In calibration mode it asks for what it reads: one request for each table and
one for the data, each made when the one before is answered and performed at any time after that (R333, R394). -/
def copyHand (s : State) (T ch : Nat) : State :=
  match ((s.tile T).chan ch).runs.find? (fun x => !x.handed) with
  | none => s
  | some x =>
    match x.port with
    | some p =>
      if !p.answered s then
        if p.view.isSome ∧ tileClosed s T then s else modRun s T ch x.n fun y => { y with port := some (p.go s T) }
      else if x.waits s T ch then s
      else copyRead s T ch x
    | none =>
      if x.waits s T ch then s
      else
        match askPort s T x.owner (x.readAddr s T) 1 with
        | some p => modRun s T ch x.n fun y => { y with port := some p }
        | none => copyRead s T ch x

/-- The first unit of a channel on its way. -/
def firstUnit (s : State) (T ch : Nat) : Option Req :=
  s.traffic.find? fun r => r.tile == T && r.stage == .sent && (match r.by_ with | .copy c _ => c == ch | _ => false)

/-- R155, R182: a unit is performed at its bank, handed over now when none is on its way. -/
def execCopyUnitWrite (T ch : Nat) (s : State) : Outcome State Fault Refusal :=
  if T < Config.tiles ∧ ch < 4 then
    let s := if (firstUnit s T ch).isNone then copyHand s T ch else s
    match firstUnit s T ch with
    | none => .next s
    | some r =>
      if !bankTurn s r then .next s
      else .next (performTurn s r)
  else .fault .illFormed

/-- The next request of a copy for source data crosses a link. -/
def Copy.readsLink (s : State) (T : Nat) (x : Copy) : Bool :=
  !x.handed && (match engineKey s x.owner (x.readAddr s T) .load with
    | .ok key => overLink key
    | _ => false)

/-- The request of the copy numbered `n` for source data over a link is lost: its answer is zeros that count as
uncorrectable (R393). -/
def loseCopyRead (s : State) (n : Nat) : State :=
  { s with tiles := s.tiles.map fun p =>
      (p.1, { p.2 with chans := p.2.chans.map fun k =>
        { k with runs := k.runs.map fun x => if x.n = n ∧ x.readsLink s p.1 then { x with lost := true } else x } }) }

/-- The word of a completion fill (R187). -/
def cfWord (x : Copy) : Word := BitVec.ofNat 64 (x.status % 256 * 2 ^ 56 + x.next % 2 ^ 48)

/-- A copy that stops with status 1 to 4 is counted once (R186). -/
def copyMisuse (s : State) (x : Copy) : State := if x.status = 0 ∨ x.status = 5 then s else misuseBoth s x.who

/-- R186, R187: a copy ends. -/
def execCopyCompletion (T ch : Nat) (s : State) : Outcome State Fault Refusal :=
  if T < Config.tiles ∧ ch < 4 then
    match ((s.tile T).chan ch).runs with
    | [] => .next s
    | x :: l =>
      if !x.handed ∨ tileClosed s T ∨ s.traffic.any (fun r => r.tile == T && r.by_ == .copy ch x.n) then .next s
      else
        let s := copyPointer s T ch x.n
        let s := s.modTile T fun y =>
          (y.modChan ch fun k => { k with runs := l }).setBuf x.buf
            { y.buf x.buf with state := .full, status := x.status }
        let s := copyMisuse s x
        match x.cf with
        | some r => .next (if x.who.live s then s.modThread x.g fun t => t.fill r (cfWord x) else s)
        | none => .next s
  else .fault .illFormed

end Sys2Proof.Machine
end

