-- ==== Sys2Proof/Machine/Packet.lean ====
section
/-! DEFINITION. The completion of packets and launches (spec/18_command_class_firn.md R372, R373, R378, R380, spec/14 R266):
operations that the task, power and command classes share. -/

namespace Sys2Proof.Machine

/-- The index of a started packet. -/
def Pkt.index : Pkt → Nat
  | .launch i _ _ => i
  | .held i _ _ _ _ _ => i
  | .signal i _ _ _ _ => i
  | .wait i _ _ => i
  | .copy i _ _ _ _ _ _ _ _ => i

/-- S takes up a piece of work (R357). -/
def takeWork (s : State) (d : Nat) (x : Service) : State := s.modDie d fun y => { y with servicing := x :: y.servicing }

/-- S has finished a piece of work. -/
def endWork (s : State) (d : Nat) (w : Work) : State :=
  s.modDie d fun y => { y with servicing := y.servicing.filter fun x => x.work != w }

/-- The packet with an index leaves the inlet's started packets; S no longer services it (R357). -/
def dropPkt (s : State) (id index : Nat) : State :=
  endWork (s.modInlet id fun x => { x with live := x.live.filter fun p => p.index != index }) (s.inlet id).die
    (.packet id index)

/-- Replace the packet with its index. -/
def putPkt (s : State) (id : Nat) (p : Pkt) : State :=
  s.modInlet id fun x =>
    { x with live := if x.live.any (fun q => q.index == p.index) then
        x.live.map fun q => if q.index = p.index then p else q else x.live ++ [p] }

/-- Where a signal update of an owner goes (R372): nowhere, to a key, to no place that the owner may name, or held for a
page. -/
inductive SigDest where
  | none
  | key (k : Nat)
  | bad
  | absent
  deriving DecidableEq, Repr

def sigDest (s : State) (o : Nat) (a : Word) : SigDest :=
  if a = 0 then .none
  else if a.toNat % 32 ≠ 0 ∨ region a ≠ .signal then .bad
  else
    match translateNow s o a .atomic with
    | .ok p => .key p
    | .fatal => .bad
    | .miss => .absent

/-- An engine's fault record (R129): requester 2 the inlet engine, 3 the copy engine; the inlet id in place of a thread
id. -/
def engineFault (s : State) (id requester : Nat) (a : Word) (k : AKind) : State :=
  let x := s.inlet id
  postFault s x.die
    { addr := a, pc := 0, ident := BitVec.ofNat 32 id, owner := x.owner, kind := k, requester := requester, ch := 0 }

/-- An update of a signal by an engine with the owner's tag, discarded and counted where the memory controller refuses it
(R390). -/
def engineUpdate (s : State) (o lk key : Nat) (f : Nat → Nat → Nat → Nat → Nat × Nat × Nat × Nat) : State :=
  if gate s o key = .pass then signalUpdate s (ownerWho o lk) key f else gateCount s o key

/-- The completion update of R373: `start` is the first placement of a launch; another packet has start = end. -/
def completeUpdate (s : State) (o key : Nat) (start : Option Nat) (err : Nat) : State :=
  engineUpdate s o 0 key fun v _ _ e =>
    (v + 2 ^ 64 - 1, start.getD s.timebase, s.timebase, if e = 0 then err else e)

/-- The first update of a LAUNCH or ACTORS packet, with the tick of its first placement (R373). -/
def firstUpdate (s : State) (o lk key start : Nat) : State := engineUpdate s o lk key fun v _ b e => (v, start, b, e)

/-- A packet waits for Firn's wake, as requester 2 (R372, R381, R382); what is uncorrectable among the tables of the walk that
finds no page is counted (R352). -/
def holdPkt (s : State) (id index : Nat) (a : Word) (k : AKind) : State :=
  let s := countWalk s (ownerWho (s.inlet id).owner 0) a
  engineFault (s.modInlet id fun x => { x with held := x.held ++ [index] }) id 2 a k

/-- The updates of a completing packet are made, the first update of a launch before them where it is still to be made; or
they are held for the signal's page (R372). -/
def settlePkt (s : State) (id index : Nat) (sig : Word) (start : Option Nat) (err : Nat) (first wait : Bool) : State :=
  let o := (s.inlet id).owner
  match sigDest s o sig with
  | .none => dropPkt s id index
  | .bad => misuseOwner (dropPkt s id index) o
  | .key k =>
    let s := dropPkt s id index
    completeUpdate (if first then firstUpdate s o 0 k (start.getD s.timebase) else s) o k start err
  | .absent => holdPkt (putPkt s id (.held index sig start err first wait)) id index sig .atomic

/-- A packet completes (R372, R373); with the first update of its launch still held for a page, it completes after the wake
that the update waits for. -/
def completePkt (s : State) (id index : Nat) (sig : Word) (start : Option Nat) (err : Nat) (first wait : Bool) : State :=
  if first then putPkt s id (.held index sig start err true wait) else settlePkt s id index sig start err false wait

/-- The first placement of a launch (R373). -/
def launchFirst (s : State) (lk : Nat) : State :=
  let l := s.launch lk
  if l.started then s
  else
    let s := s.setLaunch lk { l with started := true, start := s.timebase }
    match sigDest s l.owner l.signal with
    | .key k => firstUpdate s l.owner lk k s.timebase
    | .absent => holdPkt (putPkt s l.inlet (.launch l.index lk true)) l.inlet l.index l.signal .atomic
    | _ => s

/-! ### Deques and their spill areas (R266, R267) -/

/-- The whole deque of a core, bottom first. -/
def Core.entries (x : Core) : List DEntry := x.deque ++ x.spilled

/-- The deque with the entry at place `i`, counted from the bottom, removed. -/
def Core.removeEntry (x : Core) (i : Nat) : Core :=
  if i < x.deque.length then { x with deque := x.deque.eraseIdx i }
  else { x with spilled := x.spilled.eraseIdx (i - x.deque.length) }

/-- A spilled entry that is read uncorrectably: zero bits (R352), as R267 lays an entry out a record of slot 0 whose join cell
is 0. -/
def DEntry.lost (e : DEntry) : DEntry := { e with marker := false, slot := 0, jcell := some 0, task := ⟨0, 0, 0, 0⟩ }

/-- The hardware part refilled when it is empty and spilled entries remain (R267). R267 does not say how many entries a refill
moves: the model moves up to 32, as many as a spill moves (DESIGN CHOICE, entry 97). They are as they were spilled, whatever a
program has stored into the area since (DESIGN CHOICE, entry 97), but for those that are read uncorrectably, where `bad`
holds. -/
def Core.refill (x : Core) (bad : Nat → Bool) : Core :=
  if x.deque.isEmpty then
    { x with
      deque := (x.spilled.take 32).zipIdx.map fun p => if bad p.2 then p.1.lost else p.1
      spilled := x.spilled.drop 32 }
  else x

/-- Start of the deque spill area of a core in a launch's region (R266). -/
def dequeArea (s : State) (l : Launch) (core : Nat) : Word :=
  l.region + BitVec.ofNat 64 (512 * l.j + 32 * l.p * ownerTiles s l.owner +
    64 * l.e * (4 * logicalTile s (core / 4) + core % 4))

/-- The launch and the owner address of spilled entry `i` of a core, counted from the bottom, in the E places of its launch's
area, oldest first (R266, R267); none for an entry beyond those. -/
def spillPlace (s : State) (core i : Nat) : Option (Nat × Word) :=
  let l := (s.core core).spilled
  l[i]?.bind fun e =>
    let x := s.launch e.launch
    let k := (l.drop (i + 1)).countP fun q => q.launch == e.launch
    if k < x.e then some (e.launch, dequeArea s x core + BitVec.ofNat 64 (64 * k)) else none

/-- One of the `n` bytes, at most 64, that an engine of owner `o` reads at `a` is uncorrectable. -/
def engineLost (s : State) (o : Nat) (a : Word) (n : Nat) : Bool :=
  [a, a + BitVec.ofNat 64 (n - 1)].any fun b => (enginePhys s o b .load).any fun k => s.poison.contains (unitOf k)

/-- Spilled entry `i` of a core is read uncorrectably. -/
def spillLost (s : State) (core i : Nat) : Bool :=
  (spillPlace s core i).any fun p => engineLost s (s.launch p.1).owner p.2 64

/-- What the read of spilled entry `i` of a core counts, for its launch (R352, R390). -/
def spillCount (s : State) (core i : Nat) : State :=
  match spillPlace s core i with
  | some p => engineCount s (ownerWho (s.launch p.1).owner p.1) p.2 64
  | none => s

/-- The controller of a core refills its empty hardware part (R267). -/
def refillDeque (s : State) (core : Nat) : State :=
  let x := s.core core
  let n := if x.deque.isEmpty then min 32 x.spilled.length else 0
  ((List.range n).foldl (fun u i => spillCount u core i) s).setCore core (x.refill (spillLost s core))

/-- The end of a launch leaves the deques of others as they are; hardware parts that it empties are refilled (R267), in
calibration mode by the next `tret` of the core, which waits for the read (R333). -/
def refillDeques (s : State) : State :=
  if s.calib.isSome then s
  else
    s.cores.foldl (fun s p => if p.2.deque.isEmpty ∧ !p.2.spilled.isEmpty then refillDeque s p.1 else s) s

/-! ### The end of a launch (R266, R378, R380) -/

/-- Owner address of join cell `c` (R266). -/
def cellAddr (l : Launch) (c : Nat) : Word := l.region + BitVec.ofNat 64 (512 * c)

/-- The state byte of a join cell. -/
def cellState (s : State) (l : Launch) (c : Nat) : Nat :=
  natOfBytes (engineRead s l.owner (cellAddr l c + 8) 1)

/-- A count of misuse events of an owner. -/
def misuseTimes (s : State) (o : Nat) : Nat → State
  | 0 => s
  | n + 1 => misuseOwner (misuseTimes s o n) o

/-- The cells of launch `lk` below `c` are looked at and freed, and the suspended ones counted: the state, and their
number. -/
def freeCells (s : State) (lk : Nat) : Nat → State × Nat
  | 0 => (s, 0)
  | c + 1 =>
    let r := freeCells s lk c
    let l := s.launch lk
    let w := ownerWho l.owner lk
    let st := cellState r.1 l c
    -- an uncorrectable unit reads as a free cell; where the cell is written the write counts it
    (if st = 0 then engineCount r.1 w (cellAddr l c + 8) 1 else engineWrite r.1 w (cellAddr l c + 8) [0],
      r.2 + (if st = 2 then 1 else 0))

/-- Records of a launch that are held: in deques and dispensers. -/
def heldRecords (s : State) (lk : Nat) : Nat :=
  (s.cores.flatMap fun p => p.2.deque ++ p.2.spilled).countP (fun e => e.launch == lk && !e.marker) +
  (s.tiles.flatMap fun p => p.2.disp).countP fun r => r.launch == lk && r.resume.isNone

/-- What a launch still holds is discarded and counted (R266). -/
def discardTasks (s : State) (lk : Nat) : State :=
  let n := heldRecords s lk
  let s := { s with
    cores := s.cores.map fun p => (p.1,
      { p.2 with deque := p.2.deque.filter (·.launch != lk), spilled := p.2.spilled.filter (·.launch != lk) })
    tiles := s.tiles.map fun p => (p.1, { p.2 with disp := p.2.disp.filter (·.launch != lk) }) }
  let r := freeCells (refillDeques s) lk (s.launch lk).j
  misuseTimes r.1 (s.launch lk).owner (n + r.2)

/-- The channel ends of a core that a launch bound are unbound; what is left in its input channel is discarded (R380). -/
def unbindCore (lk : Nat) (c : Core) : Core :=
  let c := if c.inb.any (·.launch == lk) then { c with inb := none, infifo := [], inflight := [], kept := c.kept.set 4 0 } else c
  if c.outb.any (·.launch == lk) then { c with outb := none, credits := 0, returning := 0 } else c

/-- R380: the channels of a launch are unbound, their entries counted as misuse. -/
def unbindActors (s : State) (lk : Nat) : State :=
  let n := s.cores.foldl (fun n p =>
    if p.2.inb.any (·.launch == lk) then n + p.2.infifo.length + p.2.inflight.length else n) 0
  misuseTimes { s with cores := s.cores.map fun p => (p.1, unbindCore lk p.2) } (s.launch lk).owner n

/-- A launch that has made every placement and holds no live thread completes (R378, R93). -/
def launchEndCheck (s : State) (lk : Nat) : State :=
  let l := s.launch lk
  if (mget s.launches lk).isNone ∨ l.done ∨ !l.admitted ∨ !l.places.isEmpty ∨ l.live ≠ 0 then s
  else
    let s := s.setLaunch lk { l with done := true }
    let s := discardTasks s lk
    let s := if l.actors then unbindActors s lk else s
    let first := (s.inlet l.inlet).live.any fun p => p == .launch l.index lk true
    completePkt s l.inlet l.index l.signal (if l.started then some l.start else none) (s.launch lk).error first false

/-- A launch that starts nothing completes with an error (R308, R372, R377). -/
def launchRefused (s : State) (lk err : Nat) : State :=
  let l := s.launch lk
  let s := s.setLaunch lk { l with done := true, places := [], start := s.timebase, error := err }
  let s := if l.actors then unbindActors s lk else s
  completePkt s l.inlet l.index l.signal none err false false

end Sys2Proof.Machine
end

