-- ==== Sys2Proof/Machine/Floe.lean ====
section
/-! DEFINITION. Floe class (spec/15_floe_class.md R283 to R305, spec/08 R156): floe images, landing slots, sending and
landing, memory stops, parking and the park queue. An image is a list of 4,288 bytes outside its slot. -/

namespace Sys2Proof.Machine

open Host (Outcome)

/-! ### Images (R283, R284, R292) -/

/-- `n` bytes of an image from byte `k`, little-endian. -/
def imgNat (img : List Byte) (k n : Nat) : Nat := natOfBytes ((img.drop k).take n)

/-- An image with the low `n` bytes of a number at byte `k`. -/
def imgSet (img : List Byte) (k n v : Nat) : List Byte := img.take k ++ bytesOfNat n v ++ img.drop (k + n)

def imgCount (img : List Byte) : Nat := imgNat img 1 1
def imgIndex (img : List Byte) : Nat := imgNat img 2 1
def imgLength (img : List Byte) : Nat := imgNat img 4 2
/-- Station, routine and argument of an entry. -/
def imgStation (img : List Byte) (k : Nat) : Nat := imgNat img (64 + 16 * k) 2
def imgRoutine (img : List Byte) (k : Nat) : Nat := imgNat img (66 + 16 * k) 1
def imgArg (img : List Byte) (k : Nat) : Nat := imgNat img (72 + 16 * k) 8

/-- An entry below the count with a nonzero byte from 3 to 7. -/
def entriesBad (img : List Byte) (count : Nat) : Bool :=
  (List.range count).any fun k => imgNat img (67 + 16 * k) 5 != 0

/-- R292. -/
def imgMalformed (img : List Byte) : Bool :=
  imgNat img 0 1 != 1 || imgCount img == 0 || decide (8 < imgCount img) || decide (imgCount img ≤ imgIndex img) ||
  decide (4096 < imgLength img) || imgNat img 7 1 != 0 || imgNat img 24 40 != 0 || entriesBad img (imgCount img)

/-! ### Bytes of slots and of memory -/

/-- Memory key of byte `k` of landing slot `j` of a tile (R285). -/
def slotKey (T j k : Nat) : Nat := tileKey T (0x160000 + j * 0x2000 + k)

/-- Bytes read by the floe port: zero where a unit is uncorrectable (R352). -/
def portRead (s : State) (key : Nat) : Nat → List Byte × Bool
  | 0 => ([], false)
  | n + 1 =>
    let r := portRead s (key + 1) n
    if s.poison.contains (unitOf key) then (0 :: r.1, true) else (memByte s.mem key :: r.1, r.2)

/-- The floe port hands a write of bytes at a memory key, for the maker `w`, to the banks, which perform it later: in units
that lie within one aligned 64-byte block, `n` at most (R153, R154, R295). -/
def portSend (s : State) (w : Who) (T key : Nat) : Nat → List Byte → State
  | 0, _ => s
  | n + 1, bs =>
    if bs.isEmpty then s
    else
      let k := min (64 - key % 64) bs.length
      let s := send s
        { id := s.nextId, by_ := .floe, path := .floe, g := w.g, serial := w.serial, owner := w.owner, launch := w.launch
          tile := T, key := key, size := k, acc := storeAcc k (BitVec.ofNat 512 (natOfBytes (bs.take k))), kcls := 1 }
      portSend s w T (key + k) n (bs.drop k)

/-- A floe-class write of bytes into a landing slot, from byte `k` on. -/
def slotWrite (s : State) (w : Who) (T j k : Nat) (bs : List Byte) : State :=
  portSend s w T (slotKey T j k) (bs.length / 64 + 2) bs

/-- A byte of a slot as the floe-class writes issued so far leave it: what stands in its bank, under the writes that are
on their way. -/
def slotByte (l : List Req) (key : Nat) (b : Byte) : Byte :=
  l.foldl (fun b r =>
    match r.by_, r.acc with
    | .floe, .store data _ =>
      if r.key ≤ key ∧ key < r.key + r.size then BitVec.ofNat 8 (data.toNat / 2 ^ (8 * (key - r.key))) else b
    | _, _ => b) b

/-- `n` bytes of the header and the itinerary of a slot from byte `k` on, as the port holds them: only floe-class writes
change them (R285). -/
def slotBytes (s : State) (T j k n : Nat) : List Byte :=
  (portRead s (slotKey T j k) n).1.zipIdx.map fun p => slotByte s.traffic (slotKey T j k + p.2) p.1

/-- The same as a number. -/
def slotNat (s : State) (T j k n : Nat) : Nat := natOfBytes (slotBytes s T j k n)

/-- The state of a slot. -/
def slotState (s : State) (T j : Nat) : FSlot := (s.tile T).slots.toList.getD j .free

/-- A slot enters a state. -/
def setSlot (s : State) (T j : Nat) (x : FSlot) : State :=
  s.modTile T fun y => { y with slots := y.slots.setIfInBounds j x }

/-- The floe-class writes to a slot that are on their way are performed: the port reads the slot behind them (R153). -/
def settleSlot (s : State) (T j : Nat) : State :=
  (s.traffic.filter fun r => r.by_ == .floe && r.tile == T && landingSlot r.key == j).foldl (fun s r =>
    leaveBank (performReq s r) r.id) s

/-- Units from `u` on, `n` of them, that are uncorrectable (R352). -/
def badUnits (s : State) (u n : Nat) : Nat := (List.range n).countP fun k => s.poison.contains (u + k)

/-- The image in a slot as the port takes it out, for the owner of the tile: each uncorrectable unit is counted. -/
def takeImage (s : State) (T j : Nat) : List Byte × State :=
  let s := serveBanks (settleSlot s T j) [slotBank T j]
  let key := slotKey T j 0
  ((portRead s key 4288).1, dataErrors s (ownerWho (berthOwner s (berthOf T)) 0) (badUnits s (unitOf key) 67))

/-! ### Parking (R293, R294) -/

/-- Address of entry `i` of a park queue. -/
def parkEntry (block : Word) (q i : Nat) : Word := block + 64 + BitVec.ofNat 64 (i % q * 4352)

/-- A field of a park queue's control block. -/
def parkField (s : State) (o : Nat) (k : Nat) : Nat :=
  natOfBytes (engineRead s o ((s.owner o).park + BitVec.ofNat 64 k) 4)

/-- R294: a floe is parked in its owner's queue, or retired and counted when the queue is full. The port's read of the
control block is counted where it is refused or uncorrectable, as its writes are (R127, R352, R390). -/
def parkFloe (s : State) (o : Nat) (img : List Byte) (code : Nat) (addr : Word) : State :=
  let img := imgSet (imgSet img 6 1 code) 16 8 addr.toNat
  let block := (s.owner o).park
  if block = 0 then misuseOwner s o
  else
    let s := engineCount s (ownerWho o 0) block 16
    let tail := parkField s o 0
    let q := parkField s o 8
    if (tail + 2 ^ 32 - parkField s o 4) % 2 ^ 32 = q then
      misuseOwner (engineWrite s (ownerWho o 0) (block + 12) (bytesOfNat 4 (min (parkField s o 12 + 1) (2 ^ 32 - 1)))) o
    else
      let s := engineWrite s (ownerWho o 0) (parkEntry block q tail) (img ++ bytesOfNat 8 1 ++ bytesOfNat 56 0)
      engineWrite s (ownerWho o 0) block (bytesOfNat 4 (tail + 1))

/-- The floe of a slot is parked and its slot is free (R285, R302, R305). -/
def parkSlot (s : State) (T j code : Nat) : State :=
  let r := takeImage s T j
  let img := r.1
  let s := setSlot r.2 T j .free
  parkFloe (s.modTile T fun x => { x with landing := x.landing.filter (· != j) }) (berthOwner s (berthOf T)) img code 0

/-- R305: the floes that a thread holds are parked with code 8. -/
def parkHeld (s : State) (g : Nat) : State :=
  (List.range 16).foldl (fun s j => if slotState s (tileOf g) j = .held g then parkSlot s (tileOf g) j 8 else s) s

/-- R285: floes are disabled on a berth: what its slots hold is parked with code 8. -/
def disableFloes (s : State) (berth : Nat) : State :=
  (List.range Config.berthTiles).foldl (fun s k =>
    let T := berth * 48 + k
    if (mget s.tiles T).isNone then s
    else (List.range 16).foldl (fun s j => if slotState s T j = .free then s else parkSlot s T j 8) s) s

/-! ### Sending (R288) -/

/-- A floe leaves the port of tile `T` for the stop that its index names; `n` is the number of its sending. -/
def departFloe (s : State) (T o : Nat) (img : List Byte) (n : Nat) : State :=
  let st := imgStation img (imgIndex img)
  if st ≠ 0xFFFF ∧ ownerTiles s o ≤ st then parkFloe s o img 1 0
  else
    { s with floes := s.floes ++
        [{ id := n, owner := o, src := T, dest := st, img := img, tile := (ownerTile s o st).getD 0 }] }

/-- A floe is sent from the port of tile `T` and leaves at once. -/
def sendFloe (s : State) (T o : Nat) (img : List Byte) : State :=
  departFloe { s with nextId := s.nextId + 1 } T o img s.nextId

/-- The station of the current stop of a slot's floe. -/
def slotStation (s : State) (T j : Nat) : Nat := slotNat s T j (64 + 16 * slotNat s T j 2 1) 2

/-- A floe of the tile for a station was sent before the sending numbered `n` and has not departed (R288). -/
def slotBefore (s : State) (T st n : Nat) : Bool :=
  (List.range 16).any fun i =>
    match slotState s T i with
    | .outbound m => decide (m < n) && slotStation s T i == st
    | _ => false

/-- R287, R288: an outbound floe departs once the floe-class writes to it are performed, those for one station in the order
of their sending, and its slot is free. -/
def execFloeDeparture (T j : Nat) (s : State) : Outcome State Fault Refusal :=
  if T < Config.tiles ∧ j < 16 then
    match slotState s T j with
    | .outbound n =>
      if tileClosed s T ∨ !slotSettled s T j ∨ bankTaken s (slotBank T j) ∨ slotBefore s T (slotStation s T j) n then .next s
      else
        let r := takeImage s T j
        .next (departFloe (setSlot r.2 T j .free) T (berthOwner s (berthOf T)) r.1 n)
    | _ => .next s
  else .fault .illFormed

/-- The lowest free slot from 0 to 11. -/
def inSlot (s : State) (T : Nat) : Option Nat := (List.range 12).find? fun j => slotState s T j == .free

/-- An image whose entries from the count on are zero (R284). -/
def clearEntries (img : List Byte) : List Byte :=
  let k := 64 + 16 * imgCount img
  img.take k ++ List.replicate (192 - k) 0 ++ img.drop (max k 192)

/-- A floe lands in a slot: the port's writes go to the banks. -/
def landFloe (s : State) (T j : Nat) (img : List Byte) : State :=
  let s := slotWrite s (ownerWho (berthOwner s (berthOf T)) 0) T j 0 (clearEntries img)
  (setSlot s T j .landed).modTile T fun x => { x with landing := x.landing ++ [j] }

/-- Address of entry `e` of the spill ring of a tile (R289). -/
def ringEntry (s : State) (o T e : Nat) : Word :=
  let x := s.owner o
  x.rings + BitVec.ofNat 64 ((logicalTile s T * x.ringN + e % x.ringN) * 4352)

/-- R289: a floe is appended to the spill ring of a tile, or parked. -/
def spillFloe (s : State) (o T : Nat) (img : List Byte) : State :=
  let x := s.tile T
  let n := (s.owner o).ringN
  if n ≤ x.appended - x.refilled then parkFloe s o img 7 0
  else
    let a := ringEntry s o T x.appended
    if (absentIn s o a 4352).isSome then parkFloe s o img 3 a
    else
      let s := engineWrite s (ownerWho o 0) a (img ++ List.replicate 64 0)
      s.modTile T fun y => { y with appended := y.appended + 1 }

/-- R288, R289, R292: a floe arrives at its station tile. One whose owner tag or owner byte is not the berth's owner's is
dropped and counted (R390). -/
def arriveFloe (s : State) (f : Floe) (T : Nat) : State :=
  let o := berthOwner s (berthOf T)
  if f.owner ≠ o ∨ imgNat f.img 3 1 ≠ o then
    misuseOwner (s.modDie (dieOf T) fun d => { d with dropCount := d.dropCount + 1 }) f.owner
  else if imgMalformed f.img then misuseOwner s o
  else if !floesOn s (berthOf T) then parkFloe s o f.img 8 0
  else
    match inSlot s T with
    | some j =>
      if (s.tile T).appended = (s.tile T).refilled then landFloe s T j f.img else spillFloe s o T f.img
    | none => spillFloe s o T f.img

/-- A floe of the same tile for the same station was sent before, and has not landed: it is in transit or still outbound in
its slot (R288). -/
def sentBefore (s : State) (f : Floe) : Bool :=
  s.floes.any (fun x => x.src == f.src && x.dest == f.dest && decide (x.id < f.id)) || slotBefore s f.src f.dest f.id

/-- R288: a floe in transit reaches its station. -/
def execFloeArrival (id : Nat) (s : State) : Outcome State Fault Refusal :=
  match s.floes.find? (·.id == id) with
  | none => .next s
  | some f =>
    if f.dest = 0xFFFF ∨ sentBefore s f ∨ tileClosed s f.tile then .next s
    else .next (arriveFloe { s with floes := s.floes.filter (·.id != id) } f f.tile)

/-- The port of a tile asks for the oldest ring entry, at owner address `a` (R289, R333). -/
def askRefill (s : State) (T o : Nat) (a : Word) : State :=
  s.modTile T fun y => { y with refill := askPort s T o a 1 }

/-- The oldest ring entry, at owner address `a`, goes to slot `j` (R289, R292). An entry with a page that is not resident is
parked with code 3 and the entry's address: with what can be read of its image (DESIGN CHOICE, entry 98). -/
def refillSlot (s : State) (T o j : Nat) (a : Word) : State :=
  let p := (s.tile T).refill
  let v := portView s p
  let img := engineRead v o a 4288
  let s := latePort (underView s p fun v => engineCount v (ownerWho o 0) a 4288) T p
  let s := s.modTile T fun y => { y with refilled := y.refilled + 1, refill := none }
  if (absentIn v o a 4352).isSome then parkFloe s o img 3 a
  else if imgMalformed img then misuseOwner s o
  else landFloe s T j img

/-- The ring of the tile is not empty, and its port may go on with it. -/
def refillOpen (s : State) (T : Nat) : Bool :=
  (s.tile T).appended != (s.tile T).refilled && !tileClosed s T && floesOn s (berthOf T)

/-- R289, R292: a free slot from 0 to 11 is refilled from the spill ring. In calibration mode the port asks for the entry
first; what it has asked for is performed in a pause too (R333, R394). -/
def execFloeRefill (T : Nat) (s : State) : Outcome State Fault Refusal :=
  if T < Config.tiles then
    let x := s.tile T
    let o := berthOwner s (berthOf T)
    let a := ringEntry s o T x.refilled
    match x.refill.filter fun p => !p.answered s with
    | some p =>
      .next (if p.view.isSome ∧ tileClosed s T then s else s.setTile T { x with refill := some (p.go s T) })
    | none =>
      match inSlot s T with
      | none => .next s
      | some j =>
        .next (if !refillOpen s T then s
          else if x.refill.isNone ∧ (askPort s T o a 1).isSome then askRefill s T o a
          else refillSlot s T o j a)
  else .fault .illFormed

/-! ### Memory stops (R290) -/

/-- Replace a floe. -/
def setFloe (s : State) (f : Floe) : State :=
  { s with floes := s.floes.map fun x => if x.id = f.id then f else x }

/-- Remove a floe. -/
def dropFloe (s : State) (id : Nat) : State := { s with floes := s.floes.filter (·.id != id) }

/-- The owner address of the next unit of a floe's memory stop. -/
def Floe.addr (f : Floe) : Word := BitVec.ofNat 64 (imgArg f.img (imgIndex f.img) + f.next)

/-- Where the next unit of a memory stop of routine `routine` lies (R290): store 0, load 1. -/
def stopKey (s : State) (f : Floe) (routine : Nat) : Xlat :=
  if region f.addr = .paged then translateNow s f.owner f.addr (if routine = 1 then .load else .store) else .fatal

/-- One unit of a memory stop at physical address `p`. A load whose request was lost on a link reads zero and counts, a lost
store is not performed and counts (R393). -/
def stopUnit (s : State) (f : Floe) (routine : Nat) (p n : Nat) : State :=
  let key := 192 + f.next
  let f' := { f with next := f.next + n, due := max f.due (calibDue s f.src), port := none, lost := false }
  let put (v : Nat) : Floe := if routine = 1 then { f' with img := imgSet f.img key n v } else f'
  if f.lost then setFloe (dataError s (ownerWho f.owner 0)) (put 0)
  else if gate s f.owner p ≠ .pass then setFloe (gateCount s f.owner p) (put 0)
  else
    let bad := s.poison.contains (unitOf p)
    let s := countBad s (ownerWho f.owner 0) (bad && (routine == 1 || decide (n < 64)))
    setFloe (if routine = 1 then s else unitWrite s p n (imgNat f.img key n) (maskOf n)) (put (unitRead s p n))

/-- The end of a memory stop: the floe advances, retires, or is sent from the same port. -/
def stopEnd (s : State) (f : Floe) : State :=
  let i := imgIndex f.img + 1
  let s := dropFloe (lateAnswer s f.src f.due) f.id
  if i = imgCount f.img then s else sendFloe s f.src f.owner (imgSet f.img 2 1 i)

/-- A memory stop cannot go on: its floe is parked with a code. What is uncorrectable among the tables of its walk is counted
(R352). -/
def stopFail (s : State) (f : Floe) (code : Nat) (a : Word) : State :=
  parkFloe (dropFloe (if code = 5 then s else countWalk s (ownerWho f.owner 0) a) f.id) f.owner f.img code a

/-- The floe's next unit is moved, or its stop fails, once the units before it are answered. -/
def stopMove (s : State) (f : Floe) (routine : Nat) : State :=
  let a := f.addr
  match stopKey (portView s f.port) f routine with
  | .miss => if s.work < f.due then s else stopFail s f 3 a
  | .fatal => if s.work < f.due then s else stopFail s f 4 a
  | .ok p => stopUnit s f routine p (min (imgLength f.img - f.next) (64 - a.toNat % 64))

/-- R290: a memory stop moves its next unit, or ends. In calibration mode the port reads the tables of each unit's translation
first; what it has asked for is performed in a pause too (R333, R394). -/
def execMemoryStop (id : Nat) (s : State) : Outcome State Fault Refusal :=
  match s.floes.find? (·.id == id) with
  | none => .next s
  | some f =>
    if f.dest ≠ 0xFFFF then .next s
    else
      match f.port.filter fun p => !p.answered s with
      | some p =>
        .next (if p.view.isSome ∧ tileClosed s f.src then s else setFloe s { f with port := some (p.go s f.src) })
      | none =>
        let routine := imgRoutine f.img (imgIndex f.img)
        .next (if tileClosed s f.src then s
          else if 1 < routine then stopFail s f 5 0
          else if imgLength f.img ≤ f.next then (if s.work < f.due then s else stopEnd s f)
          else if f.port.isNone ∧ (askPort s f.src f.owner f.addr 0).isSome then
            setFloe s { f with port := askPort s f.src f.owner f.addr 0 }
          else stopMove s f routine)

/-- The next unit of the floe's memory stop goes over a link (R393). -/
def Floe.overLink (s : State) (f : Floe) : Bool :=
  f.dest == 0xFFFF && decide (f.next < imgLength f.img) &&
    (match stopKey s f (imgRoutine f.img (imgIndex f.img)) with
      | .ok p => Machine.overLink p
      | _ => false)

/-- The request for the next unit of the memory stop of the floe numbered `id` is lost on a link (R393). -/
def loseFloeUnit (s : State) (id : Nat) : State :=
  { s with floes := s.floes.map fun f => if f.id = id ∧ f.overLink s then { f with lost := true } else f }

/-! ### Claims (R291, R300) -/

/-- Address of the entry of a routine in the station table of a launch (R375). -/
def stationEntry (l : Launch) (routine : Nat) : Word := l.stations + BitVec.ofNat 64 (8 * routine)

/-- The pc of a routine in the station table of a launch (R375); none for no entry. -/
def stationPc (s : State) (lk routine : Nat) : Option Word :=
  let l := s.launch lk
  if l.stations = 0 then none
  else
    let pc := natOfBytes (engineRead s l.owner (stationEntry l routine) 8)
    if pc = 0 then none else some (BitVec.ofNat 64 pc)

/-- The answers of a port about thread `g` are taken: what the read of `n` bytes at `b` counts (R352, R390), and what the
answer for `a` does (R333). -/
def takeAnswer (s : State) (g : Nat) (a b : Word) (n : Nat) : State :=
  portDone (underView s (threadPort s g a) fun v => engineCount v (whoIn v g) b n) g a

/-- What that read counts for the claiming thread (R352, R390). -/
def stationRead (s : State) (g routine : Nat) : State :=
  let l := s.launch (s.thread g).launch
  if l.stations = 0 then s else takeAnswer s g (stationEntry l routine) (stationEntry l routine) 8

/-- The claim of a thread reads the station table: it asks the port first (R333). -/
def stationAsks (s : State) (g routine : Nat) : Bool :=
  let l := s.launch (s.thread g).launch
  l.stations != 0 && !portReady s g (stationEntry l routine) 1

/-- The claim of a thread that waits in `flrecv`: it holds the floe and enters the routine. -/
def claimFloe (s : State) (g j : Nat) (d : Dst) (tag : Nat) (pc : Word) : State :=
  let T := tileOf g
  let s := (setSlot s T j (.held g)).modTile T fun x =>
    { x with landing := x.landing.drop 1, waiters := x.waiters.drop 1 }
  let s := deliver s g d (BitVec.ofNat 64 j) tag
  let t := s.thread g
  retireWait s g t.ready (stallAt t) false (some pc)

/-- R291: the port of a tile makes a claim, of a floe whose landing is performed (R156, R304). -/
def execFloeClaim (T : Nat) (s : State) : Outcome State Fault Refusal :=
  if T < Config.tiles then
    match (s.tile T).landing, (s.tile T).waiters with
    | j :: _, g :: _ =>
      if tileClosed s T ∨ !slotSettled s T j then .next s
      else
        match (s.thread g).status with
        | .parked (.flrecv d tag) =>
          let routine := slotNat s T j (66 + 16 * slotNat s T j 2 1) 1
          let a := stationEntry (s.launch (s.thread g).launch) routine
          if stationAsks s g routine then .next (portAsk s g a 1)
          else
          let pc := stationPc (portView s (threadPort s g a)) (s.thread g).launch routine
          let s := stationRead s g routine
          .next (match pc with
            | none => parkSlot s T j 2
            | some pc => claimFloe s g j d tag pc)
        | _ => .next (s.modTile T fun x => { x with waiters := x.waiters.drop 1 })
    | _, _ => .next s
  else .fault .illFormed

/-! ### Instructions (R297 to R303) -/

/-- Floes are enabled on the thread's tile (R285); the trap names field `n`. -/
def floeOn (s : State) (g : Nat) (n : RegNum) : Except Stop Unit :=
  if floesOn s (berthOf (tileOf g)) then .ok () else .error (illegalOperand n)

/-- The slot that a handle names (R286). -/
def handleSlot (s : State) (g : Nat) (n : RegNum) (v : Word) : Except Stop Nat :=
  if v.toNat < 16 ∧ slotState s (tileOf g) v.toNat = .held g then .ok v.toNat else .error (illegalOperand n)

/-- A result written while its thread is parked: a fill at once (R298). -/
def fillNow (s : State) (g c : Nat) (d : Dst) (v : Word) : State :=
  match d with
  | .none => s
  | .reg r => s.modThread g fun t => t.fill r v
  | d => queuePush s (coreOf g) d { val := some v, due := c, g := g, serial := (s.thread g).serial, tag := 0 }

/-- The bytes lie in landing slot `j` of the thread's own tile, in part at least. -/
def inLandingSlot (s : State) (g : Nat) (a : Word) (n j : Nat) : Bool :=
  let w := windowTile s (s.thread g).owner a
  region a == .window && w.1 == tileOf g && overlap w.2 n (0x160000 + j * 0x2000) 0x2000

/-- Bytes at s0 + off, checked as a load (R120), once their store is reached (R316) and no request stands at their banks
(R121); for an operation of the floe in slot `slot`, behind the floe-class writes to it (R153). In calibration mode they are
the port's answer where it has been asked (R333, R394). Their address, the bytes, and what was uncorrectable or refused is
counted. -/
def imageLoad (s : State) (g : Nat) (off : Word) (n align : Nat) (slot : Option Nat) :
    Except Stop (Word × List Byte × State) := do
  let t := s.thread g
  let a ← extentCheck s t.owner t.segs[(0 : Nat)] off n align 1
  bufCheck s (tileOf g) a n .threadLoad
  if region a = .window then require s g [.awake (windowTile s t.owner a).1]
  require s g ((slot.toList.filter (inLandingSlot s g a n)).map .slot)
  let _ ← memKey s g a .load
  let _ ← memKey s g (a + BitVec.ofNat 64 (n - 1)) .load
  match chanRead s t.owner t.segs[(0 : Nat)].type a n with
  | .error (b, false) => throw (.park (.walk b .load))
  | .error (b, true) => throw (.owner 6 0 b)
  | .ok r =>
    require s g (r.banks.map .bank)
    let r := match chanRead (portView s (threadPort s g a)) t.owner t.segs[(0 : Nat)].type a n with
      | .ok q => q
      | .error _ => r
    return (a, r.bytes, countBad (countDrop (servePort s g r.banks) t.owner r.dropped) (whoIn s g) r.bad)

/-- The header, entries and payload that `flnew` writes from the part it takes (R297); the payload beyond the length stays
as the slot had it. -/
def newImage (src : List Byte) (owner origin seq : Nat) : List Byte :=
  let count := imgCount src
  let len := imgLength src
  bytesOfNat 1 1 ++ bytesOfNat 1 count ++ bytesOfNat 1 0 ++ bytesOfNat 1 owner ++ bytesOfNat 2 len ++ bytesOfNat 2 0 ++
  bytesOfNat 4 origin ++ bytesOfNat 4 seq ++ bytesOfNat 48 0 ++
  (src.drop 64).take (16 * count) ++ List.replicate (128 - 16 * count) 0 ++
  (src.drop 192).take len

/-- The part that `flnew` takes is malformed, with the index taken as 0 (R292, R297). -/
def takenMalformed (src : List Byte) : Bool :=
  imgNat src 0 1 != 1 || imgCount src == 0 || decide (8 < imgCount src) || decide (4096 < imgLength src) ||
  entriesBad src (imgCount src)

/-- R297. Of several free slots from 12 to 15 the spec does not say which one the floe takes: the model takes the lowest
(DESIGN CHOICE, entry 114). -/
def execFlnew (st : Stall) (d a : RegNum) (s : State) : Outcome State Fault Refusal :=
  runInstr s s.cur false fun s c => do
    let g := s.cur
    let T := tileOf g
    let o ← operands s g [a] [d]
    floeOn s g a
    let head ← imageLoad s g (o.v 0) 192 64 none
    let src ← imageLoad s g (o.v 0) (192 + imgLength head.2.1) 64 none
    require s g [.outSlot]
    -- the header is read, then the rest
    if !portReady s g src.1 2 then throw (.park (.port src.1 2))
    let s := consume (portDone src.2.2 g src.1) g o.srcs
    if takenMalformed src.2.1 then
      return retire (fillNow (misuseBoth s (whoIn s g)) g c (o.d 0) (BitVec.allOnes 64)) g c st false none
    else
      let j := ([12, 13, 14, 15].find? fun j => slotState s T j == .free).getD 12
      let img := newImage src.2.1 (s.thread g).owner (s.thread g).ids[(1 : Nat)].toNat (s.tile T).seq.toNat
      let s := slotWrite s (whoIn s g) T j 0 img
      let s := (setSlot s T j (.held g)).modTile T fun x => { x with seq := x.seq + 1 }
      return retire (fillNow s g c (o.d 0) (BitVec.ofNat 64 j)) g c st false none

/-- The extent rule of payload accesses (R298). -/
def payloadOk (s : State) (T j off size : Nat) : Bool :=
  off % size == 0 && decide (off + size ≤ slotNat s T j 4 2)

/-- R298: `flput`. -/
def execFlput (st : Stall) (z : Width) (a b : RegNum) (off : BitVec 12) (s : State) : Outcome State Fault Refusal :=
  runInstr s s.cur false fun s c => do
    let g := s.cur
    let T := tileOf g
    let o ← operands s g [a, b] []
    floeOn s g b
    let j ← handleSlot s g b (o.v 1)
    if !payloadOk s T j off.toNat (widthBytes z) then throw (illegalOperand b)
    let s := consume s g o.srcs
    let s := slotWrite s (whoIn s g) T j (192 + off.toNat) (bytesOfNat (widthBytes z) (o.v 0).toNat)
    return retire s g c st false none

/-- A read of the slot of a handle, behind the floe-class writes to it (R153): `f` gives where it lies, its size and sign,
from the slot. -/
def slotGet (st : Stall) (d a : RegNum) (f : State → Nat → Except Stop (Nat × Nat × Bool)) (s : State) :
    Outcome State Fault Refusal :=
  runInstr s s.cur false fun s c => do
    let g := s.cur
    let T := tileOf g
    let o ← operands s g [a] [d]
    floeOn s g a
    let j ← handleSlot s g a (o.v 0)
    let q ← f s j
    require s g [.slot j]
    let r := portRead s (slotKey T j q.1) q.2.1
    let x := natOfBytes r.1
    let v : Word :=
      if q.2.2 ∧ 2 ^ (8 * q.2.1 - 1) ≤ x then BitVec.ofNat 64 (2 ^ 64 + x - 2 ^ (8 * q.2.1)) else BitVec.ofNat 64 x
    let s := servePort s g [slotBank T j]
    return retire (fillNow (consume (countBad s (whoIn s g) r.2) g o.srcs) g c (o.d 0) v) g c st false none

/-- R298: `flget`. -/
def execFlget (st : Stall) (z : Width) (d a : RegNum) (off : BitVec 12) (s : State) : Outcome State Fault Refusal :=
  slotGet st d a (fun s j =>
    if payloadOk s (tileOf s.cur) j off.toNat (widthBytes z) then .ok (192 + off.toNat, widthBytes z, true)
    else .error (illegalOperand a)) s

/-- R298: `flget.arg`. -/
def execFlgetArg (st : Stall) (d a : RegNum) (s : State) : Outcome State Fault Refusal :=
  slotGet st d a (fun s j =>
    .ok (72 + 16 * slotNat s (tileOf s.cur) j 2 1, 8, false)) s

/-- Byte and size of a header field (R298). -/
def headerField (f : Nat) : Option (Nat × Nat) :=
  match f with
  | 0 => some (0, 1) | 1 => some (1, 1) | 2 => some (2, 1) | 3 => some (3, 1) | 4 => some (4, 2) | 5 => some (6, 1)
  | 6 => some (8, 4) | 7 => some (12, 4) | 8 => some (16, 8)
  | f => if 16 ≤ f ∧ f < 24 then some (64 + 16 * (f - 16), 8)
    else if 24 ≤ f ∧ f < 32 then some (72 + 16 * (f - 24), 8) else none

/-- R298: `flget.hdr`. -/
def execFlgetHdr (st : Stall) (d a : RegNum) (f : BitVec 6) (s : State) : Outcome State Fault Refusal :=
  slotGet st d a (fun _ _ => match headerField f.toNat with
    | some q => .ok (q.1, q.2, false)
    | none => .error (illegalOperand a)) s

/-- An instruction on the floe that a handle names: `f` acts on its slot; `behind` the floe-class writes to it. -/
def handleOp (st : Stall) (a : RegNum) (behind : Bool) (f : State → Nat → State) (s : State) :
    Outcome State Fault Refusal :=
  runInstr s s.cur false fun s c => do
    let g := s.cur
    let o ← operands s g [a] []
    floeOn s g a
    let j ← handleSlot s g a (o.v 0)
    if behind then require s g [.slot j]
    return retire (f (consume s g o.srcs) j) g c st false none

/-- The floe of a slot is sent; its place among those sent is a number. -/
def sendSlot (s : State) (g j : Nat) : State :=
  setSlot { s with nextId := s.nextId + 1 } (tileOf g) j (.outbound s.nextId)

/-- R299: `flsend`. -/
def execFlsend (st : Stall) (a : RegNum) (s : State) : Outcome State Fault Refusal :=
  handleOp st a false (fun s j => sendSlot s s.cur j) s

/-- R299: `flnext`. -/
def execFlnext (st : Stall) (a : RegNum) (s : State) : Outcome State Fault Refusal :=
  handleOp st a false (fun s j =>
    let T := tileOf s.cur
    let i := slotNat s T j 2 1 + 1
    let s' := slotWrite s (whoIn s s.cur) T j 2 (bytesOfNat 1 i)
    if i = slotNat s T j 1 1 then setSlot s' T j .free else sendSlot s' s.cur j) s

/-- R300. -/
def execFlrecv (_st : Stall) (d : RegNum) (s : State) : Outcome State Fault Refusal :=
  runInstr s s.cur false fun s c => do
    let g := s.cur
    let o ← operands s g [] [d]
    floeOn s g d
    let tag := s.nextId
    let s := { s with nextId := tag + 1 }
    let s := match o.d 0 with
      | .chain _ | .actor => awaitDst s g (o.d 0) tag
      | _ => s
    let s := s.modTile (tileOf g) fun x => { x with waiters := x.waiters ++ [g] }
    return s.modThread g fun t => { t with status := .parked (.flrecv (o.d 0) tag), ready := c, base := c }

/-! ### Rewrites (R301) -/

/-- The header and itinerary of a slot with a new count, index and entries. -/
def writeItinerary (s : State) (w : Who) (T j count index : Nat) (entries : List (List Byte)) : State :=
  slotWrite (slotWrite s w T j 1 (bytesOfNat 1 count ++ bytesOfNat 1 index)) w T j 64 entries.flatten

/-- The eight entries of a slot. -/
def slotEntries (s : State) (T j : Nat) : List (List Byte) :=
  (List.range 8).map fun k => slotBytes s T j (64 + 16 * k) 16

/-- A rewrite: its legality and its effect on count, index and entries, from the entry image. -/
def rewriteOp (st : Stall) (a : RegNum) (b : Option RegNum)
    (f : Nat → Nat → List (List Byte) → List Byte → Option (Nat × Nat × List (List Byte))) (s : State) :
    Outcome State Fault Refusal :=
  runInstr s s.cur false fun s c => do
    let g := s.cur
    let T := tileOf g
    let o ← operands s g (a :: b.toList) []
    floeOn s g a
    let j ← handleSlot s g a (o.v 0)
    let img ← match b with
      | some _ => imageLoad s g (o.v 1) 16 16 (some j)
      | none => pure (0, [], s)
    if b.isSome ∧ !portReady s g img.1 1 then throw (.park (.port img.1 1))
    if imgNat img.2.1 3 5 ≠ 0 then throw (illegalOperand (b.getD a))
    match f (slotNat s T j 1 1) (slotNat s T j 2 1) (slotEntries s T j) img.2.1 with
    | none => throw (illegalOperand a)
    | some r =>
      let s := consume (if b.isSome then portDone img.2.2 g img.1 else img.2.2) g o.srcs
      return retire (writeItinerary s (whoIn s g) T j r.1 r.2.1 r.2.2) g c st false none

def execFlrw (st : Stall) (a b : RegNum) (k : BitVec 3) (s : State) : Outcome State Fault Refusal :=
  rewriteOp st a (some b) (fun count index es e =>
    if k.toNat < count then some (count, index, es.set k.toNat e) else none) s

def execFlins (st : Stall) (a b : RegNum) (k : BitVec 3) (s : State) : Outcome State Fault Refusal :=
  rewriteOp st a (some b) (fun count index es e =>
    if k.toNat ≤ count ∧ count < 8 then
      some (count + 1, if k.toNat ≤ index then index + 1 else index, (es.take k.toNat ++ e :: es.drop k.toNat).take 8)
    else none) s

def execFldel (st : Stall) (a : RegNum) (k : BitVec 3) (s : State) : Outcome State Fault Refusal :=
  rewriteOp st a none (fun count index es _ =>
    if k.toNat < count ∧ k.toNat ≠ index then
      some (count - 1, if k.toNat < index then index - 1 else index, es.eraseIdx k.toNat ++ [List.replicate 16 0])
    else none) s

/-- R302: `flpark`. -/
def execFlpark (st : Stall) (a : RegNum) (s : State) : Outcome State Fault Refusal :=
  handleOp st a true (fun s j => parkSlot s (tileOf s.cur) j 6) s

/-- R302: `fldrop`. -/
def execFldrop (st : Stall) (a : RegNum) (s : State) : Outcome State Fault Refusal :=
  handleOp st a true (fun s j => setSlot s (tileOf s.cur) j .free) s

/-- The address at which `flresume` asks its port, and its requests behind those for the tables there: the queue's capacity,
the tables of the entry, the entry's state and its image are read in turn (R303, R333). -/
def resumeAddr (s : State) (g : Nat) : Word := (s.owner (s.thread g).owner).park + 8

def resumeReads (s : State) (g i : Nat) : Nat :=
  let o := (s.thread g).owner
  3 + readTables s (tileOf g) o (parkEntry (s.owner o).park (parkField s o 8) i)

/-- R303: the entry of the park queue at a free-running index is resumed; its state is taken as one atomic at this moment. -/
def resumeEntry (s : State) (g i : Nat) : State :=
  let o := (s.thread g).owner
  let p := threadPort s g (resumeAddr s g)
  let v := portView s p
  let e := parkEntry (s.owner o).park (parkField v o 8) i
  let w := whoIn s g
  let taken := natOfBytes (engineRead s o (e + 4288) 8) = 1
  let img := engineRead v o e 4288
  let s := engineCount (takeAnswer s g (resumeAddr s g) (resumeAddr s g) 4) w (e + 4288) 8
  if !taken then misuseBoth s w
  else
    let s := underView (engineWrite s w (e + 4288) (bytesOfNat 8 0)) p fun v => engineCount v w e 4288
    if imgMalformed img then misuseOwner s o
    else sendFloe s (tileOf g) o (clearEntries (imgSet (imgSet img 6 1 0) 16 8 0))

/-- R303. -/
def execFlresume (st : Stall) (a : RegNum) (s : State) : Outcome State Fault Refusal :=
  runInstr s s.cur false fun s c => do
    let g := s.cur
    let o ← operands s g [a] []
    floeOn s g a
    if 2 ^ 32 ≤ (o.v 0).toNat then throw (illegalOperand a)
    let k := resumeReads s g (o.v 0).toNat
    if !portReady s g (resumeAddr s g) k then throw (.park (.port (resumeAddr s g) k))
    return retire (resumeEntry (consume s g o.srcs) g (o.v 0).toNat) g c st false none

end Sys2Proof.Machine
end

