-- ==== Sys2Proof/Machine/Ramp.lean ====
section
/-! DEFINITION. Sluice's ramp (spec/16_power_drift_class.md R306, R307): the grants of a die within its share of the rise
limit. Powers are in milliwatts. -/

namespace Sys2Proof.Machine

/-- Parameter `i` of R306: rise, fall, w_T, w_L, w_b, envelope, tile budget, T_hot, in thousandths. -/
def State.param (s : State) (i : Fin 8) : Nat := s.sluice[i]

/-- The number of the current Sluice tick. -/
def sluiceNow (s : State) : Nat := s.timebase / Config.sluiceTicks

/-- The sums of a die for tick `n`. -/
def Die.inTick (d : Die) (n : Nat) : Die :=
  if d.tickNo = n then d else { d with tickNo := n, granted := 0, lone := false }

/-- A cost is within one die's share of a module limit, an eighth. -/
def inShare (limit cost : Nat) : Bool := decide (8 * cost ≤ limit)

/-- A grant of a cost fits the tick: within the share of `limit`, or alone in its tick when it exceeds the share. -/
def Die.fits (d : Die) (limit cost : Nat) : Bool :=
  !d.lone && (inShare limit (d.granted + cost) || (!inShare limit cost && d.granted == 0))

/-- A grant is charged to its tick. -/
def Die.charge (d : Die) (limit cost : Nat) : Die :=
  { d with granted := d.granted + cost, lone := d.lone || !inShare limit cost }

/-- A pinned launch waits for this tick's admission, which goes ahead of every unpinned grant: the first tick boundary after
it reached the head of its inlet has come (R308). -/
def pinnedDue (s : State) : Bool :=
  s.launches.any fun p => (p.2.pinned || p.2.det) && !p.2.admitted && !p.2.done && decide (p.2.start / Config.sluiceTicks < sluiceNow s)

/-- Cost of a waiting grant: w_T for a placement, w_L for a lease. -/
def rampCost (s : State) (w : RampWait) : Nat := if w.place.isSome then s.param 2 else s.param 3

/-- A grant is asked of Sluice: made now, or it waits behind those that wait (R307). -/
def rampAsk (s : State) (w : RampWait) : State × Bool :=
  let d := dieOf w.tile
  if (s.die d).waiting.isEmpty ∧ !pinnedDue s ∧ ((s.die d).inTick (sluiceNow s)).fits (s.param 0) (rampCost s w) then
    (s.modDie d fun x => (x.inTick (sluiceNow s)).charge (s.param 0) (rampCost s w), true)
  else if (s.die d).waiting.any (fun x => x.place == w.place && (w.place.isSome || x.tile == w.tile)) then (s, false)
  else (s.modDie d fun x => { x with waiting := x.waiting ++ [w] }, false)

end Sys2Proof.Machine
end

