-- ==== Sys2Proof/Machine/Vector.lean ====
section
/-! DEFINITION. Vector class (spec/12_vector_class.md R222 to R245, spec/11 R203 to R221): an instruction issues into
its core's queue, the unit accepts it and reads its operands, and its result comes as a fill. -/

namespace Sys2Proof.Machine

open Host (Outcome)

/-! ### Lanes (R223) -/

/-- The lanes of a register for lanes of `n` bits. -/
def lanesOf (n : Nat) (v : BitVec 2048) : List Nat := (List.range (2048 / n)).map fun k => v.toNat / 2 ^ (n * k) % 2 ^ n

/-- A register from its lanes. -/
def packLanes (n : Nat) (l : List Nat) : BitVec 2048 := BitVec.ofNat 2048 (l.foldr (fun x acc => x + 2 ^ n * acc) 0)

/-- What a mask register reads; m0 is all ones (R222), an uncorrectable register reads zero (R352). -/
def maskVal (t : Thread) (k : BitVec 2) : BitVec 256 :=
  if k = 0 then BitVec.allOnes 256 else if (t.m[k.toNat]).bad then 0 else (t.m[k.toNat]).val

/-- What vector register `w` reads; an uncorrectable register reads zero (R352). -/
def wVal (t : Thread) (w : BitVec 3) : BitVec 2048 := if (t.w[w.toNat]).bad then 0 else (t.w[w.toNat]).val

/-- The vector register that an instruction reads for the lanes of its destination that it keeps: those where its mask is
inactive, and of `vcvt` those outside its part (R223, R233). -/
def VOp.kept (t : Thread) (o : VOp) : Option (BitVec 3) :=
  let part : Bool := match o.ins with
    | .vcvt _ dst src _ _ _ _ _ => decide (lanes src < lanes dst)
    | _ => false
  match o.old with
  | some (w, f) =>
    let mask := (o.ms.head?.map (maskVal t)).getD 0
    if part || !(List.range (lanes f)).all (mask.getLsbD ·) then some w else none
  | none => none

/-- Uncorrectable registers among those that an instruction reads at acceptance (R352). -/
def badSources (t : Thread) (o : VOp) : Nat :=
  (o.ws ++ (o.kept t).toList).eraseDups.countP (fun w => (t.w[w.toNat]).bad) +
    (o.ms.eraseDups.filter (· != 0)).countP fun k => (t.m[k.toNat]).bad

/-- New lanes where the mask is active, the old ones elsewhere. -/
def blend (mask : BitVec 256) (old new : List Nat) : List Nat :=
  (old.zip new).zipIdx.map fun p => if mask.getLsbD p.2 then p.1.2 else p.1.1

/-- Integer formats that are signed: INT codes 4 to 7. -/
def fmtSigned (fmt : BitVec 4) : Bool := 4 ≤ fmt.toNat && fmt.toNat < 8

/-- A lane's result as a 64-bit scalar: sign-extended for INT formats, else zero-extended (R236, R244). -/
def laneScalar (fmt : BitVec 4) (x : Nat) : Word :=
  let n := laneBits fmt
  if fmtSigned fmt ∧ 2 ^ (n - 1) ≤ x then BitVec.ofNat 64 (2 ^ 64 + x - 2 ^ n) else BitVec.ofNat 64 x

/-! ### Lane arithmetic (R231, R232, R234, R240, R242) -/

/-- The floating format of a lane code; the last serves every other code. -/
def laneFloat (fmt : BitVec 4) : FFmt := match laneElem fmt with
  | .flt f => f
  | _ => fp64

/-- A floating result rounded once (R203, R207). -/
def flop (fmt : BitVec 4) (r : FRnd) (f : Mode → Val → Val → Val → Val) (a b c : Nat) : Nat :=
  let k := laneFloat fmt
  let d := k.decode r.flush
  let m := Mode.ofCode r.rnd
  k.encode m r.flush true (f m (d a) (d b) (d c))

/-- Arithmetic in a lane: floating, or modulo 2^n (R231). -/
def laneArith (fmt : BitVec 4) (r : FRnd) (f : Mode → Val → Val → Val → Val) (g : Int → Int → Int → Int)
    (a b c : Nat) : Nat :=
  if fmtFloat fmt then flop fmt r f a b c else (g a b c % 2 ^ laneBits fmt).toNat

/-- Order of two lanes in an integer format. -/
def laneLt (fmt : BitVec 4) (a b : Nat) : Bool :=
  let n := laneBits fmt
  if fmtSigned fmt then decide (signedOf n a < signedOf n b) else decide (a < b)

/-- `vmin`, `vmax` and the nodes of their trees (R207, R231). -/
def laneExtreme (fmt : BitVec 4) (greater flush : Bool) (a b : Nat) : Nat :=
  if fmtFloat fmt then flop fmt ⟨flush, 0⟩ (fun _ x y _ => Val.pick greater x y) a b 0
  else if laneLt fmt a b = greater then b else a

/-- `vcmp` in a lane (R207, R234). -/
def laneCmp (fmt : BitVec 4) (c : VCond) (flush : Bool) (a b : Nat) : Bool :=
  let o : Option Ordering :=
    if fmtFloat fmt then
      let k := laneFloat fmt
      Val.cmp false (k.decode flush a) (k.decode flush b)
    else some (if laneLt fmt a b then .lt else if a = b then .eq else .gt)
  match c, o with
  | .ne, none => true
  | _, none => false
  | .eq, some x => x == .eq
  | .ne, some x => x != .eq
  | .lt, some x => x == .lt
  | .le, some x => x != .gt
  | .gt, some x => x == .gt
  | .ge, some x => x != .lt

/-- `vun` in a lane (R232). -/
def laneUn (fmt : BitVec 4) (op : VunOp) (r : FRnd) (a : Nat) : Nat :=
  let n := laneBits fmt
  match op with
  | .not => 2 ^ n - 1 - a
  | .sqrt => flop fmt r (fun _ x _ _ => x.sqrt) a 0 0
  | .abs =>
    if fmtFloat fmt then flop fmt r (fun _ x _ _ => x.abs) a 0 0
    else if fmtSigned fmt ∧ 2 ^ (n - 1) ≤ a then (2 ^ n - a) % 2 ^ n else a
  | .neg => if fmtFloat fmt then flop fmt r (fun _ x _ _ => x.neg) a 0 0 else (2 ^ n - a) % 2 ^ n

/-- `vfn` in a lane: RNE (R219, R240). -/
def laneFn (fmt : BitVec 4) (op : VfnOp) (flush : Bool) (a : Nat) : Nat :=
  flop fmt ⟨flush, 0⟩ (fun _ x _ _ => match op with
    | .rcp => x.rcp | .rsqrt => x.rsqrt | .exp2 => x.exp2 | .log2 => x.log2) a 0 0

/-- Shifts of a lane by the low log2 n bits of another (R242). -/
def laneShift (fmt : BitVec 4) (left arith : Bool) (a b : Nat) : Nat :=
  let n := laneBits fmt
  let k := b % n
  if left then a * 2 ^ k % 2 ^ n
  else if arith ∧ 2 ^ (n - 1) ≤ a then a / 2 ^ k + (2 ^ n - 2 ^ (n - k)) else a / 2 ^ k

/-! ### Trees (R220) -/

/-- One level of a tree; `none` is the identity. -/
def treeLevel (op : Nat → Nat → Nat) : List (Option Nat) → List (Option Nat)
  | some a :: some b :: l => some (op a b) :: treeLevel op l
  | some a :: none :: l => some a :: treeLevel op l
  | none :: some b :: l => some b :: treeLevel op l
  | none :: none :: l => none :: treeLevel op l
  | [x] => [x]
  | [] => []

/-- The root after enough levels. -/
def treeRoot (op : Nat → Nat → Nat) : Nat → List (Option Nat) → Option Nat
  | 0, l => l.headD none
  | k + 1, l => treeRoot op k (treeLevel op l)

/-- The identity of an operation as a pattern (R220). -/
def redIdentity (fmt : BitVec 4) (op : VRedOp) : Nat :=
  let n := laneBits fmt
  let k := laneFloat fmt
  match op with
  | .add => if fmtFloat fmt then k.signBit true else 0
  | .min => if fmtFloat fmt then k.infBits false else if fmtSigned fmt then 2 ^ (n - 1) - 1 else 2 ^ n - 1
  | .max => if fmtFloat fmt then k.infBits true else if fmtSigned fmt then 2 ^ (n - 1) else 0

/-- A node of `vred` and `vscan`. -/
def redNode (fmt : BitVec 4) (op : VRedOp) (r : FRnd) (a b : Nat) : Nat :=
  match op with
  | .add => laneArith fmt r (fun m x y _ => Val.add m x y) (fun x y _ => x + y) a b 0
  | .min => laneExtreme fmt false false a b
  | .max => laneExtreme fmt true false a b

/-- A lane as a leaf, decoded and encoded again: a NaN is canonical, a flushed subnormal zero (R203, R205, R206). -/
def redLeaf (fmt : BitVec 4) (op : VRedOp) (r : FRnd) (a : Nat) : Nat :=
  let flush := op == .add && r.flush
  if fmtFloat fmt then flop fmt ⟨flush, 0⟩ (fun _ x _ _ => x) a 0 0 else a

/-- The root over lanes, with the identity where every lane is inactive. -/
def redTree (fmt : BitVec 4) (op : VRedOp) (r : FRnd) (l : List (Option Nat)) : Nat :=
  (treeRoot (redNode fmt op r) 8 (l.map (Option.map (redLeaf fmt op r)))).getD (redIdentity fmt op)

/-- Lanes as tree leaves. -/
def leaves (mask : BitVec 256) (l : List Nat) : List (Option Nat) :=
  l.zipIdx.map fun p => if mask.getLsbD p.2 then some p.1 else none

/-! ### Random streams (R221) -/

def mix (x : Word) : Word :=
  let x := x ^^^ (x >>> 32)
  let x := x * 0xA3B195F64C2D8E17#64
  let x := x ^^^ (x >>> 29)
  let x := x * 0xA3B195F64C2D8E17#64
  x ^^^ (x >>> 32)

/-- word(j) for the counter `a`. -/
def randWord (seed id a : Word) (j : Nat) : Word := mix (mix (seed ^^^ id) ^^^ mix (a + BitVec.ofNat 64 j))

/-- The 2,048 bits of a draw. -/
def randBits (seed id a : Word) : BitVec 2048 :=
  packLanes 64 ((List.range 32).map fun j => (randWord seed id a j).toNat)

/-- A lane of a draw: its slice, or u × 2^−p in a floating format. -/
def randLane (fmt : BitVec 4) (x : Nat) : Nat :=
  if fmtFloat fmt then
    let k := laneFloat fmt
    let p := k.mbits + 1
    k.encode .rne false true (.fin false (x / 2 ^ (k.bits - p)) (-p) false)
  else x

/-! ### Results of the instructions that access no memory -/

/-- The result of a vector instruction: a vector register, a mask register or a scalar. -/
inductive VRes where
  | w (d : BitVec 3) (v : BitVec 2048)
  | m (k : BitVec 2) (v : BitVec 256)
  | scalar (v : Word)
  | none
  deriving DecidableEq, Repr

/-- Lane by lane on up to three sources. -/
def lanewise (t : Thread) (fmt : BitVec 4) (mask : BitVec 2) (wd wa wb wc : BitVec 3) (f : Nat → Nat → Nat → Nat) : VRes :=
  let n := laneBits fmt
  let a := lanesOf n (wVal t wa)
  let b := lanesOf n (wVal t wb)
  let c := lanesOf n (wVal t wc)
  let r := ((a.zip b).zip c).map fun p => f p.1.1 p.1.2 p.2
  .w wd (packLanes n (blend (maskVal t mask) (lanesOf n (wVal t wd)) r))

/-- A mask register from Booleans. -/
def packMask (l : List Bool) : BitVec 256 := BitVec.ofNat 256 (l.foldr (fun b acc => (if b then 1 else 0) + 2 * acc) 0)

/-- R233. -/
def vcvtLanes (t : Thread) (dst src : BitVec 4) (p : Nat) (wd wa : BitVec 3) (mask : BitVec 2) (r : VRnd) : VRes :=
  let ls := lanes src
  let ld := lanes dst
  let x := lanesOf (laneBits src) (wVal t wa)
  let old := lanesOf (laneBits dst) (wVal t wd)
  let conv (v : Nat) : Nat := (laneElem dst).encode (Mode.ofCode r.rnd) r.flush r.nsat ((laneElem src).decode r.flush v)
  let new := old.zipIdx.map fun q =>
    if ld ≤ ls then conv (x.getD (p * ld + q.2) 0)
    else if p * ls ≤ q.2 ∧ q.2 < (p + 1) * ls then conv (x.getD (q.2 - p * ls) 0)
    else q.1
  .w wd (packLanes (laneBits dst) (blend (maskVal t mask) old new))

/-- Groups of `k` of a list. -/
def groupsOf {α : Type} (k : Nat) : Nat → List α → List (List α)
  | 0, _ => []
  | n + 1, l => l.take k :: groupsOf k n (l.drop k)

/-- R239. -/
def vdotLanes (t : Thread) (fmt : BitVec 4) (lg : Nat) (wd wa wb : BitVec 3) (mask : BitVec 2) (r : FRnd) : VRes :=
  let n := laneBits fmt
  let l := 2048 / n
  let mul (a b : Nat) : Nat := laneArith fmt r (fun _ x y _ => Val.mul x y) (fun x y _ => x * y) a b 0
  let prods := ((lanesOf n (wVal t wa)).zip (lanesOf n (wVal t wb))).map fun p => mul p.1 p.2
  let sums := (groupsOf (2 ^ lg) (l / 2 ^ lg) (leaves (maskVal t mask) prods)).map (redTree fmt .add r)
  .w wd (packLanes n sums)

/-- The result of an accepted instruction from the registers of its thread. -/
def vectorResult (t : Thread) (o : VOp) : VRes :=
  match o.ins with
  | .vadd _ f wd wa wb m r => lanewise t f m wd wa wb 0 fun a b _ =>
      laneArith f r (fun md x y _ => Val.add md x y) (fun x y _ => x + y) a b 0
  | .vsub _ f wd wa wb m r => lanewise t f m wd wa wb 0 fun a b _ =>
      laneArith f r (fun md x y _ => Val.add md x y.neg) (fun x y _ => x - y) a b 0
  | .vmul _ f wd wa wb m r => lanewise t f m wd wa wb 0 fun a b _ =>
      laneArith f r (fun _ x y _ => Val.mul x y) (fun x y _ => x * y) a b 0
  | .vfma _ f wd wa wb wc m r => lanewise t f m wd wa wb wc fun a b c =>
      laneArith f r (fun md x y z => Val.add md (Val.mul x y) z) (fun x y z => x * y + z) a b c
  | .vmin _ f wd wa wb m fl => lanewise t f m wd wa wb 0 fun a b _ => laneExtreme f false fl a b
  | .vmax _ f wd wa wb m fl => lanewise t f m wd wa wb 0 fun a b _ => laneExtreme f true fl a b
  | .vun _ op f wd wa m r => lanewise t f m wd wa 0 0 fun a _ _ => laneUn f op r a
  | .vcvt _ dst src p wd wa m r => vcvtLanes t dst src p.toNat wd wa m r
  | .vcmp _ c f mk wa wb m fl =>
      let n := laneBits f
      let l := ((lanesOf n (wVal t wa)).zip (lanesOf n (wVal t wb))).zipIdx.map fun p =>
        (maskVal t m).getLsbD p.2 && laneCmp f c fl p.1.1 p.1.2
      .m mk (packMask l)
  | .vsel _ f wd wa wb m =>
      let n := laneBits f
      .w wd (packLanes n (blend (maskVal t m) (lanesOf n (wVal t wb)) (lanesOf n (wVal t wa))))
  | .vred _ op f _ wa m r =>
      .scalar (laneScalar f (redTree f op r (leaves (maskVal t m) (lanesOf (laneBits f) (wVal t wa)))))
  | .vscan _ op f wd wa m r =>
      let n := laneBits f
      let l := leaves (maskVal t m) (lanesOf n (wVal t wa))
      let new := (List.range (2048 / n)).map fun k =>
        redTree f op r (l.zipIdx.map fun p => if p.2 ≤ k then p.1 else none)
      .w wd (packLanes n (blend (maskVal t m) (lanesOf n (wVal t wd)) new))
  | .vperm _ f wd wa wb m =>
      let n := laneBits f
      let a := lanesOf n (wVal t wa)
      lanewise t f m wd wb 0 0 fun j _ _ => a.getD (j % (2048 / n)) 0
  | .vbcast _ f wd _ m => lanewise t f m wd 0 0 0 fun _ _ _ => o.gval.toNat % 2 ^ laneBits f
  | .vdot _ f lg wd wa wb m r => vdotLanes t f lg.toNat wd wa wb m r
  | .vfn _ op f wd wa m fl => lanewise t f m wd wa 0 0 fun a _ _ => laneFn f op fl a
  | .vand _ f wd wa wb m => lanewise t f m wd wa wb 0 fun a b _ => a &&& b
  | .vor _ f wd wa wb m => lanewise t f m wd wa wb 0 fun a b _ => a ||| b
  | .vxor _ f wd wa wb m => lanewise t f m wd wa wb 0 fun a b _ => a ^^^ b
  | .vshl _ f wd wa wb m => lanewise t f m wd wa wb 0 fun a b _ => laneShift f true false a b
  | .vshr _ ar f wd wa wb m => lanewise t f m wd wa wb 0 fun a b _ => laneShift f false ar a b
  | .vrand _ f wd _ m =>
      let n := laneBits f
      let new := (lanesOf n (randBits o.seed t.ids[(0 : Nat)] o.gval)).map (randLane f)
      .w wd (packLanes n (blend (maskVal t m) (lanesOf n (wVal t wd)) new))
  | .vins _ f wd _ k =>
      let n := laneBits f
      .w wd (packLanes n ((lanesOf n (wVal t wd)).set k.toNat (o.gval.toNat % 2 ^ n)))
  | .vext _ f _ wa k => .scalar (laneScalar f ((lanesOf (laneBits f) (wVal t wa)).getD k.toNat 0))
  | .vmask _ op mk ma mb =>
      let a := maskVal t ma
      let b := maskVal t mb
      .m mk (match op with | .and => a &&& b | .or => a ||| b | .xor => a ^^^ b | .not => ~~~ a)
  | _ => .none

/-! ### Issue (R224) -/

/-- What a vector instruction names beside its formats. -/
structure VAsk where
  ws : List (BitVec 3) := []
  ms : List (BitVec 2) := []
  gsrc : Option RegNum := none
  gdst : Option RegNum := none
  /-- The vector register written, and the format of its lanes. -/
  wd : Option (BitVec 3 × BitVec 4) := none
  md : Option (BitVec 2) := none
  /-- A memory instruction: the thread is parked until it is accepted (R227). -/
  mem : Bool := false

/-- The needs of the vector and mask registers named (R24, R222). -/
def vecNeeds (q : VAsk) : List Need :=
  (q.ws ++ q.wd.toList.map (·.1)).map Need.vfull ++ ((q.ms ++ q.md.toList).filter (· != 0)).map Need.mfull

/-- The destinations of a vector instruction are marked empty (R224). -/
def vecAwait (s : State) (g : Nat) (q : VAsk) (d : Dst) (tag : Nat) : State :=
  let s := s.modThread g fun t =>
    let t := match q.wd with
      | some (w, _) => { t with w := t.w.set w.toNat { t.w[w.toNat] with full := false } }
      | none => t
    match q.md with
    | some k => { t with m := t.m.set k.toNat { t.m[k.toNat] with full := false } }
    | none => t
  awaitDst s g d tag

/-- The instruction writes every lane of its destination. -/
def writesAll : Instr → Bool
  | .vsel .. | .vdot .. => true
  | _ => false

/-- Issue of a vector instruction. -/
def vectorIssue (st : Stall) (i : Instr) (q : VAsk) (s : State) : Outcome State Fault Refusal :=
  runInstr s s.cur false fun s c => do
    let g := s.cur
    if q.md = some 0 then throw (illegalOperand 0)
    let o ← operands s g q.gsrc.toList q.gdst.toList
    require s g (vecNeeds q ++ [.vqueue])
    let n := s.nextId
    let d := if q.gdst.isSome then o.d 0 else .none
    let x : VOp :=
      { n := n, g := g, pc := (s.thread g).pc, ins := i, ws := q.ws, ms := q.ms
        old := if writesAll i then none else q.wd, gval := o.v 0, seed := (s.thread g).seed, dst := d }
    let s := { s with nextId := n + 1 }
    let s := vecAwait (if q.mem then consumeKept s g o.srcs else consume s g o.srcs) g q d n
    let s := s.modCore (coreOf g) fun y => { y with vq := y.vq ++ [x] }
    return if q.mem then s.modThread g fun t => { t with status := .parked .vaccept, ready := c, base := c }
      else retire s g c st false none

/-! ### Vector memory at acceptance (R227, R229, R230) -/

/-- A vector memory instruction with its elements. -/
structure VMemOp where
  store : Bool
  fmt : BitVec 4
  /-- The register loaded or stored. -/
  wr : BitVec 3
  mem : VMem
  mask : BitVec 2
  rnd : VRnd
  /-- Register of the indices of `vldg` and `vsts`. -/
  idx : Option (BitVec 3)

def vmemOf (i : Instr) : Option VMemOp :=
  match i with
  | .vld _ f wd m k r => some ⟨false, f, wd, m, k, r, none⟩
  | .vst _ f wa m k r => some ⟨true, f, wa, m, k, r, none⟩
  | .vldg _ f wd wb m k r => some ⟨false, f, wd, m, k, r, some wb⟩
  | .vsts _ f wa wb m k r => some ⟨true, f, wa, m, k, r, some wb⟩
  | _ => none

/-- The elements of a vector memory access, checked: memory key of byte 0 of the operand, format of its bank, bits of
an element, and each active lane with its element number. -/
structure VAcc where
  key : Nat
  bank : BitVec 5
  ebits : Nat
  elems : List (Nat × Nat)

/-- One element of `vldg` and `vsts`: checks 4 and 5 and, of a store, the landing-bank rule `landing` for so many bytes
from an offset to the base (R230, R285). R230 does not say which address the record of a fault holds: the operand's where
that is misaligned, the failing element's where it lies outside the bank or beyond the limit (DESIGN CHOICE, entry 92). -/
def elemCheck (a off limit bankEnd ebits : Nat) (landing : Nat → Nat → Bool) (x : Nat) : Except Stop Unit :=
  let aw := BitVec.ofNat 64 a
  let lo := x * ebits / 8
  let hi := (x * ebits + ebits + 7) / 8
  let el := BitVec.ofNat 64 (a + lo)
  if 8 ≤ ebits ∧ a % (ebits / 8) ≠ 0 then .error (segFault 3 aw)
  else if bankEnd < a + hi then .error (segFault 3 el)
  else if limit < off + hi then .error (segFault 4 el)
  else if !landing lo (hi - lo) then .error (segFault 2 el)
  else .ok ()

/-- The checks of R227 and R184 at acceptance. R227 does not name the landing-bank rule of R285: as for a thread's access
it stands after checks 1 to 5 (of each element in turn for `vsts`), and the record of its fault names the operand's address
for `vst` and the failing element's for `vsts` (DESIGN CHOICE, entry 92). -/
def vmemCheck (s : State) (o : VOp) (q : VMemOp) : Except Stop VAcc := do
  let t := s.thread o.g
  let T := tileOf o.g
  let sg := t.segs[q.mem.seg.toNat]
  let off := o.gval + q.mem.disp.signExtend 64
  let a := sg.base + off
  if sg.type = 3 then throw (segFault 1 a)
  if sg.type ≠ 1 ∨ region a ≠ .window ∨ !windowOk s t.owner a ∨ (windowTile s t.owner a).1 ≠ T then
    throw (segFault 5 a)
  let need := if q.store then 2 else 1
  if sg.rights &&& need ≠ need then throw (segFault 2 a)
  let w := (windowTile s t.owner a).2
  let bank := w / 65536
  let bf := bankFmt s T bank
  let eb := if bf = 0 then laneBits q.fmt else (bankElem bf).bits
  let n := lanes q.fmt
  let mask := maskVal t q.mask
  let key := tileKey T w
  let bankEnd := a.toNat / 65536 * 65536 + 65536
  let use : BufUse := if q.store then .store else .engineLoad
  let landing (lo n : Nat) : Bool := !q.store || landingOk s o.g T (w + lo) n
  let elems ← match q.idx with
    | none => do
      let ext := n * eb / 8
      if 8 ≤ eb ∧ a.toNat % (eb / 8) ≠ 0 then throw (segFault 3 a)
      if bankEnd < a.toNat + ext then throw (segFault 3 a)
      if sg.limit.toNat < off.toNat + ext then throw (segFault 4 a)
      if !landing 0 ext then throw (segFault 2 a)
      bufCheck s T a ext use
      pure ((List.range n).filterMap fun k => if mask.getLsbD k then some (k, k) else none)
    | some wb => do
      let ix := (lanesOf (laneBits q.fmt) (wVal t wb)).zipIdx.filterMap fun p =>
        if mask.getLsbD p.2 then some (p.2, p.1) else none
      ix.forM fun p => elemCheck a.toNat off.toNat sg.limit.toNat bankEnd eb landing p.2
      ix.forM fun p => bufCheck s T (a + BitVec.ofNat 64 (p.2 * eb / 8)) ((eb + 7) / 8) use
      pure ix
  if q.store ∧ (bf = 8 ∨ bf = 9) then throw (.owner 3 bank 0)
  return ⟨key, bf, eb, elems⟩

/-- Distinct aligned 64-byte blocks that elements touch, ascending. R225 counts the whole extent of a `vld` or `vst` as its
bank accesses, and whether a block is accessed none of whose lanes is active the spec does not say: it is not, so data there
that is uncorrectable counts nothing (DESIGN CHOICE, entry 113). -/
def blocksOf (a : VAcc) : List Nat :=
  let l := a.elems.map fun p => (a.key * 8 + p.2 * a.ebits) / 512
  (l.foldl (fun acc b => if acc.contains b then acc else acc ++ [b]) []).mergeSort (· ≤ ·)

/-- The clocks from the acceptance of an instruction to its result, `b` of them bank accesses (R225). -/
def vecLatency (i : Instr) (b : Nat) : Nat :=
  match i with
  | .vld .. | .vldg .. => 6 + b
  | .vadd .. | .vsub .. | .vmul .. | .vfma .. | .vcvt .. => 8
  | .vperm .. => 10
  | .vred .. | .vscan .. => 14
  | .vdot .. | .vrand .. => 16
  | .vun _ .sqrt .. => 24
  | .vfn .. => 28
  | _ => 6

/-- The bank accesses that R225 counts: of a `vld` its extent, of a `vldg` the blocks that its active lanes touch. -/
def VAcc.accesses (a : VAcc) (q : VMemOp) : Nat :=
  match q.idx with
  | none => (lanes q.fmt * a.ebits / 8 + 63) / 64
  | some _ => (blocksOf a).length

/-- A request of a vector instruction for a block. -/
def vecReq (s : State) (o : VOp) (block : Nat) (acc : Access) : State :=
  let t := s.thread o.g
  send s
    { id := s.nextId, by_ := .vector o.n, path := .vector, g := o.g, serial := t.serial, owner := t.owner
      launch := t.launch, tile := tileOf o.g, key := block * 64, size := 64, acc := acc, kcls := 1 }

/-- The bits that a store puts into a block: data and mask; the highest active lane stands (R230). -/
def blockBits (a : VAcc) (vals : List Nat) (block : Nat) : Nat × Nat :=
  a.elems.foldl (fun (d : Nat × Nat) p =>
    let bit := a.key * 8 + p.2 * a.ebits
    if bit / 512 = block then
      let m := (2 ^ a.ebits - 1) * 2 ^ (bit % 512)
      (d.1 - (d.1 &&& m) + vals.getD p.1 0 % 2 ^ a.ebits * 2 ^ (bit % 512), d.2 ||| m)
    else d) (0, 0)

/-- The format through which a move converts: none for a raw bank or equal formats (R228). -/
def moveConv (fmt : BitVec 4) (bank : BitVec 5) : Option (Elem × Elem) :=
  if bank = 0 ∨ bankElem bank = laneElem fmt then none else some (laneElem fmt, bankElem bank)

/-- Acceptance of a vector memory instruction that passes its checks. -/
def vmemAccept (s : State) (o : VOp) (q : VMemOp) (a : VAcc) : State :=
  if q.store then
    let mode := Mode.ofCode q.rnd.rnd
    let vals := (lanesOf (laneBits q.fmt) (wVal (s.thread o.g) q.wr)).map fun x =>
      match moveConv q.fmt a.bank with
      | none => x
      | some (l, b) => b.encode mode q.rnd.flush q.rnd.nsat (l.decode q.rnd.flush x)
    (blocksOf a).foldl (fun s b =>
      let d := blockBits a vals b
      vecReq s o b (.store (BitVec.ofNat 512 d.1) (BitVec.ofNat 512 d.2))) s
  else
    let s := (blocksOf a).foldl (fun s b => vecReq s o b .load) s
    let o := { o with
      bank := a.bank, reads := a.elems.map fun p => (p.1, a.key * 8 + p.2 * a.ebits)
      due := tileClock s (tileOf o.g) + vecLatency o.ins (a.accesses q) }
    s.modTile (tileOf o.g) fun x => { x with vrun := x.vrun ++ [o] }

/-- A vector memory instruction that a check stops leaves its destination as it was (R227). -/
def vmemUndo (t : Thread) (q : VMemOp) : Thread :=
  if q.store then t else { t with w := t.w.set q.wr.toNat { t.w[q.wr.toNat] with full := true } }

/-- The core that the unit serves next: in rotation after the last, the first whose queue holds an instruction
(R224). -/
def vectorCore (s : State) (T : Nat) : Option Nat :=
  ((List.range 4).map fun k => ((s.tile T).vlast + 1 + k) % 4).find? fun k => !(s.core (4 * T + k)).vq.isEmpty

/-- Results of an instruction that accesses no memory, kept until they are written. -/
def vecFinish (o : VOp) (r : VRes) : VOp :=
  match r with
  | .w d v => { o with wres := some (d, v) }
  | .m k v => { o with mres := some (k, v) }
  | .scalar v => { o with sres := some v }
  | .none => o

/-- R224, R227: the unit accepts an instruction. -/
def execVectorAcceptance (T : Nat) (s : State) : Outcome State Fault Refusal :=
  if T < Config.tiles then
    if tileClosed s T then .next s
    else
      match vectorCore s T with
      | none => .next s
      | some k =>
        match (s.core (4 * T + k)).vq with
        | [] => .next s
        | o :: l =>
          let clk := (s.core (4 * T + k)).clock
          let s := s.modCore (4 * T + k) fun x => { x with vq := l }
          let s := s.modTile T fun x => { x with vlast := k }
          match vmemOf o.ins with
          | none =>
            let s := dataErrors s (whoIn s o.g) (badSources (s.thread o.g) o)
            let o := { vecFinish o (vectorResult (s.thread o.g) o) with due := tileClock s T + vecLatency o.ins 0 }
            .next (s.modTile T fun x => { x with vrun := x.vrun ++ [o] })
          | some q =>
            match vmemCheck s o q with
            | .ok a =>
              let s := vmemAccept (dataErrors s (whoIn s o.g) (badSources (s.thread o.g) o)) o q a
              let s := freeFields s o.g [(q.mem.g, o.gval)]
              .next (if (s.thread o.g).status = .parked .vaccept then resumeRetire s o.g else s)
            | .error e =>
              let s := s.modThread o.g fun t => { vmemUndo t q with status := .ready }
              let s := putBackAll s o.g [(q.mem.g, o.gval)]
              .next (applyStop s o.g clk false e)
  else .fault .illFormed

/-- Blocks that a load has read, by their keys. -/
def vecBlocks (s : State) (o : VOp) : List Req := s.traffic.filter fun r => r.by_ == .vector o.n

/-- Every read of the instruction is performed. -/
def vecDone (s : State) (o : VOp) : Bool := (vecBlocks s o).all (·.stage == .performed)

/-- The lanes that a load fills (R229). -/
def loadLanes (s : State) (o : VOp) (q : VMemOp) : BitVec 2048 :=
  let bl := vecBlocks s o
  let n := laneBits q.fmt
  let eb := if o.bank = 0 then n else (bankElem o.bank).bits
  let old := lanesOf n (wVal (s.thread o.g) q.wr)
  let new := o.reads.foldl (fun l p =>
    let data := match bl.find? (·.key == p.2 / 512 * 64) with
      | some r => r.data.toNat
      | none => 0
    let x := data / 2 ^ (p.2 % 512) % 2 ^ eb
    let y := match moveConv q.fmt o.bank with
      | none => x
      | some (le, be) => le.encode (Mode.ofCode q.rnd.rnd) q.rnd.flush q.rnd.nsat (be.decode q.rnd.flush x)
    l.set p.1 y) old
  packLanes n new

/-- A vector register takes a result and is full. -/
def Thread.fillW (t : Thread) (w : BitVec 3) (v : BitVec 2048) : Thread :=
  { t with w := t.w.set w.toNat { val := v, full := true } }

/-- A mask register takes a result and is full. -/
def Thread.fillM (t : Thread) (k : BitVec 2) (v : BitVec 256) : Thread :=
  { t with m := t.m.set k.toNat { val := v, full := true } }

/-- The fills of a finished instruction (R225). -/
def vecFill (s : State) (o : VOp) : State :=
  let s := match vmemOf o.ins with
    | some q => s.modThread o.g fun t => t.fillW q.wr (loadLanes s o q)
    | none => s
  let s := (vecBlocks s o).foldl (fun s r => dropReq s r.id) s
  let s := match o.wres with
    | some (d, v) => s.modThread o.g fun t => t.fillW d v
    | none => s
  let s := match o.mres with
    | some (k, v) => s.modThread o.g fun t => t.fillM k v
    | none => s
  match o.sres with
  | some v => fillDst s o.g o.dst v o.n
  | none => s

/-- The result of an instruction can be written: its reads are performed, and its clock has come; in a pause, whose clocks
stand, the unit completes what it has accepted (R226). -/
def vecReady (s : State) (T : Nat) (o : VOp) : Bool := vecDone s o && (s.pause.isSome || decide (o.due ≤ tileClock s T))

/-- Of instructions, the first of those whose results are due first. -/
def firstDue : List VOp → Option VOp
  | [] => none
  | o :: l =>
    match firstDue l with
    | some p => if p.due < o.due then some p else some o
    | none => some o

/-- The instruction whose result the unit writes next (R225). -/
def vecNext (s : State) (T : Nat) : Option VOp := firstDue ((s.tile T).vrun.filter (vecReady s T))

/-- R225: a result is written, of those whose time has come the one that is due first. -/
def execVectorResultWrite (T : Nat) (s : State) : Outcome State Fault Refusal :=
  if T < Config.tiles then
    match vecNext s T with
    | none => .next s
    | some o => .next (vecFill (s.modTile T fun x => { x with vrun := x.vrun.filter (·.n != o.n) }) o)
  else .fault .illFormed

/-! ### Meanings -/

def execVld (st : Stall) (fmt : BitVec 4) (wd : BitVec 3) (m : VMem) (mask : BitVec 2) (r : VRnd) (s : State) : Outcome State Fault Refusal :=
  vectorIssue st (.vld st fmt wd m mask r) { ms := [mask], gsrc := some m.g, wd := some (wd, fmt), mem := true } s
def execVst (st : Stall) (fmt : BitVec 4) (wa : BitVec 3) (m : VMem) (mask : BitVec 2) (r : VRnd) (s : State) : Outcome State Fault Refusal :=
  vectorIssue st (.vst st fmt wa m mask r) { ws := [wa], ms := [mask], gsrc := some m.g, mem := true } s
def execVldg (st : Stall) (fmt : BitVec 4) (wd wb : BitVec 3) (m : VMem) (mask : BitVec 2) (r : VRnd) (s : State) : Outcome State Fault Refusal :=
  vectorIssue st (.vldg st fmt wd wb m mask r) { ws := [wb], ms := [mask], gsrc := some m.g, wd := some (wd, fmt), mem := true } s
def execVsts (st : Stall) (fmt : BitVec 4) (wa wb : BitVec 3) (m : VMem) (mask : BitVec 2) (r : VRnd) (s : State) : Outcome State Fault Refusal :=
  vectorIssue st (.vsts st fmt wa wb m mask r) { ws := [wa, wb], ms := [mask], gsrc := some m.g, mem := true } s
def execVadd (st : Stall) (fmt : BitVec 4) (wd wa wb : BitVec 3) (mask : BitVec 2) (r : FRnd) (s : State) : Outcome State Fault Refusal :=
  vectorIssue st (.vadd st fmt wd wa wb mask r) { ws := [wa, wb], ms := [mask], wd := some (wd, fmt) } s
def execVsub (st : Stall) (fmt : BitVec 4) (wd wa wb : BitVec 3) (mask : BitVec 2) (r : FRnd) (s : State) : Outcome State Fault Refusal :=
  vectorIssue st (.vsub st fmt wd wa wb mask r) { ws := [wa, wb], ms := [mask], wd := some (wd, fmt) } s
def execVmul (st : Stall) (fmt : BitVec 4) (wd wa wb : BitVec 3) (mask : BitVec 2) (r : FRnd) (s : State) : Outcome State Fault Refusal :=
  vectorIssue st (.vmul st fmt wd wa wb mask r) { ws := [wa, wb], ms := [mask], wd := some (wd, fmt) } s
def execVfma (st : Stall) (fmt : BitVec 4) (wd wa wb wc : BitVec 3) (mask : BitVec 2) (r : FRnd) (s : State) : Outcome State Fault Refusal :=
  vectorIssue st (.vfma st fmt wd wa wb wc mask r) { ws := [wa, wb, wc], ms := [mask], wd := some (wd, fmt) } s
def execVmin (st : Stall) (fmt : BitVec 4) (wd wa wb : BitVec 3) (mask : BitVec 2) (flush : Bool) (s : State) : Outcome State Fault Refusal :=
  vectorIssue st (.vmin st fmt wd wa wb mask flush) { ws := [wa, wb], ms := [mask], wd := some (wd, fmt) } s
def execVmax (st : Stall) (fmt : BitVec 4) (wd wa wb : BitVec 3) (mask : BitVec 2) (flush : Bool) (s : State) : Outcome State Fault Refusal :=
  vectorIssue st (.vmax st fmt wd wa wb mask flush) { ws := [wa, wb], ms := [mask], wd := some (wd, fmt) } s
def execVun (st : Stall) (op : VunOp) (fmt : BitVec 4) (wd wa : BitVec 3) (mask : BitVec 2) (r : FRnd) (s : State) : Outcome State Fault Refusal :=
  vectorIssue st (.vun st op fmt wd wa mask r) { ws := [wa], ms := [mask], wd := some (wd, fmt) } s
def execVcvt (st : Stall) (dst src : BitVec 4) (part : BitVec 3) (wd wa : BitVec 3) (mask : BitVec 2) (r : VRnd) (s : State) : Outcome State Fault Refusal :=
  vectorIssue st (.vcvt st dst src part wd wa mask r) { ws := [wa], ms := [mask], wd := some (wd, dst) } s
def execVcmp (st : Stall) (c : VCond) (fmt : BitVec 4) (mk : BitVec 2) (wa wb : BitVec 3) (mask : BitVec 2) (flush : Bool) (s : State) : Outcome State Fault Refusal :=
  vectorIssue st (.vcmp st c fmt mk wa wb mask flush) { ws := [wa, wb], ms := [mask], md := some mk } s
def execVsel (st : Stall) (fmt : BitVec 4) (wd wa wb : BitVec 3) (mask : BitVec 2) (s : State) : Outcome State Fault Refusal :=
  vectorIssue st (.vsel st fmt wd wa wb mask) { ws := [wa, wb], ms := [mask], wd := some (wd, fmt) } s
def execVred (st : Stall) (op : VRedOp) (fmt : BitVec 4) (g : RegNum) (wa : BitVec 3) (mask : BitVec 2) (r : FRnd) (s : State) : Outcome State Fault Refusal :=
  vectorIssue st (.vred st op fmt g wa mask r) { ws := [wa], ms := [mask], gdst := some g } s
def execVscan (st : Stall) (op : VRedOp) (fmt : BitVec 4) (wd wa : BitVec 3) (mask : BitVec 2) (r : FRnd) (s : State) : Outcome State Fault Refusal :=
  vectorIssue st (.vscan st op fmt wd wa mask r) { ws := [wa], ms := [mask], wd := some (wd, fmt) } s
def execVperm (st : Stall) (fmt : BitVec 4) (wd wa wb : BitVec 3) (mask : BitVec 2) (s : State) : Outcome State Fault Refusal :=
  vectorIssue st (.vperm st fmt wd wa wb mask) { ws := [wa, wb], ms := [mask], wd := some (wd, fmt) } s
def execVbcast (st : Stall) (fmt : BitVec 4) (wd : BitVec 3) (g : RegNum) (mask : BitVec 2) (s : State) : Outcome State Fault Refusal :=
  vectorIssue st (.vbcast st fmt wd g mask) { ms := [mask], gsrc := some g, wd := some (wd, fmt) } s
def execVdot (st : Stall) (fmt : BitVec 4) (lg : BitVec 4) (wd wa wb : BitVec 3) (mask : BitVec 2) (r : FRnd) (s : State) : Outcome State Fault Refusal :=
  vectorIssue st (.vdot st fmt lg wd wa wb mask r) { ws := [wa, wb], ms := [mask], wd := some (wd, fmt) } s
def execVfn (st : Stall) (op : VfnOp) (fmt : BitVec 4) (wd wa : BitVec 3) (mask : BitVec 2) (flush : Bool) (s : State) : Outcome State Fault Refusal :=
  vectorIssue st (.vfn st op fmt wd wa mask flush) { ws := [wa], ms := [mask], wd := some (wd, fmt) } s
def execVand (st : Stall) (fmt : BitVec 4) (wd wa wb : BitVec 3) (mask : BitVec 2) (s : State) : Outcome State Fault Refusal :=
  vectorIssue st (.vand st fmt wd wa wb mask) { ws := [wa, wb], ms := [mask], wd := some (wd, fmt) } s
def execVor (st : Stall) (fmt : BitVec 4) (wd wa wb : BitVec 3) (mask : BitVec 2) (s : State) : Outcome State Fault Refusal :=
  vectorIssue st (.vor st fmt wd wa wb mask) { ws := [wa, wb], ms := [mask], wd := some (wd, fmt) } s
def execVxor (st : Stall) (fmt : BitVec 4) (wd wa wb : BitVec 3) (mask : BitVec 2) (s : State) : Outcome State Fault Refusal :=
  vectorIssue st (.vxor st fmt wd wa wb mask) { ws := [wa, wb], ms := [mask], wd := some (wd, fmt) } s
def execVshl (st : Stall) (fmt : BitVec 4) (wd wa wb : BitVec 3) (mask : BitVec 2) (s : State) : Outcome State Fault Refusal :=
  vectorIssue st (.vshl st fmt wd wa wb mask) { ws := [wa, wb], ms := [mask], wd := some (wd, fmt) } s
def execVshr (st : Stall) (arith : Bool) (fmt : BitVec 4) (wd wa wb : BitVec 3) (mask : BitVec 2) (s : State) : Outcome State Fault Refusal :=
  vectorIssue st (.vshr st arith fmt wd wa wb mask) { ws := [wa, wb], ms := [mask], wd := some (wd, fmt) } s
def execVrand (st : Stall) (fmt : BitVec 4) (wd : BitVec 3) (g : RegNum) (mask : BitVec 2) (s : State) : Outcome State Fault Refusal :=
  vectorIssue st (.vrand st fmt wd g mask) { ms := [mask], gsrc := some g, wd := some (wd, fmt) } s
def execVins (st : Stall) (fmt : BitVec 4) (wd : BitVec 3) (g : RegNum) (lane : BitVec 8) (s : State) : Outcome State Fault Refusal :=
  vectorIssue st (.vins st fmt wd g lane) { gsrc := some g, wd := some (wd, fmt) } s
def execVext (st : Stall) (fmt : BitVec 4) (g : RegNum) (wa : BitVec 3) (lane : BitVec 8) (s : State) : Outcome State Fault Refusal :=
  vectorIssue st (.vext st fmt g wa lane) { ws := [wa], gdst := some g } s
def execVmask (st : Stall) (op : VMaskOp) (mk ma mb : BitVec 2) (s : State) : Outcome State Fault Refusal :=
  vectorIssue st (.vmask st op mk ma mb) { ms := [ma, mb], md := some mk } s

end Sys2Proof.Machine
end

