-- ==== Sys2Proof/Machine/Matrix.lean ====
section
/-! DEFINITION. Matrix class (spec/13_matrix_class.md R246 to R264, spec/11 R212 to R218): leases, the command queue of a
tile, acceptance, and the execution of commands in acceptance order. -/

namespace Sys2Proof.Machine

open Host (Outcome)

/-! ### Command order and leases (R246 to R249) -/

/-- Change the matrix state of a tile. -/
def modMx (s : State) (T : Nat) (f : Matrix → Matrix) : State := s.modTile T fun x => { x with mx := f x.mx }

/-- 1.0 in FP32. -/
def scaleOne : BitVec 32 := 0x3F800000

/-- Places of leases at the head of the issued commands join the queue (R246). -/
def admitGrants (m : Matrix) : List MCmd → Matrix
  | [] => { m with issued := [] }
  | c :: l =>
    if c.grant then admitGrants { m with queue := m.queue ++ [c], msA := scaleOne } l else { m with issued := c :: l }

/-- Places of leases at the head of the queue take effect. -/
def settleGrants (m : Matrix) : List MCmd → Matrix
  | [] => { m with queue := [] }
  | c :: l => if c.grant then settleGrants { m with ms := scaleOne } l else { m with queue := c :: l }

/-- Both. -/
def settle (m : Matrix) : Matrix :=
  let m := admitGrants m m.issued
  settleGrants m m.queue

/-- Commands accepted and not finished. -/
def Matrix.queued (m : Matrix) : Nat := m.queue.countP fun c => !c.grant

/-- The request that the arbiter serves next: its core first in rotation after the last (R249). -/
def leaseNext (m : Matrix) (ok : LeaseReq → Bool) : Option LeaseReq :=
  ((List.range 4).map fun k => (m.last + 1 + k) % 4).findSome? fun k =>
    m.requests.find? fun r => r.core % 4 == k && ok r

/-- The thread that made a request still waits for its lease. -/
def LeaseReq.waits (s : State) (r : LeaseReq) : Bool := r.who.live s && (s.thread r.who.g).status == .parked .lease

/-- The grant of a lease (R246, R249, R256): a holder that has not ended yet has it, be it halting or swapped out. The
lease of a holder that has ended in the meantime ends with its grant (R248). -/
def grantLease (s : State) (T : Nat) (r : LeaseReq) : State :=
  let id := s.nextId
  let mark : MCmd := { n := id, who := r.who, core := r.core, lease := id, ins := .mrel 0, grant := true }
  let s := { s with nextId := id + 1 }
  let s := modMx s T fun m => settle
    { m with
      lease := if r.who.live s then some { id := id, core := r.core, holder := r.who.g, left := r.n } else none
      last := r.core % 4, requests := m.requests.erase r, issued := m.issued ++ [mark] }
  if r.waits s then resumeRetire s r.who.g else s

/-- A launch whose grants are never gated (R308). -/
def launchPinned (s : State) (lk : Nat) : Bool := (s.launch lk).pinned || (s.launch lk).det

/-- A lease of the tile waits for its ramp slot (R307). -/
def leaseGated (s : State) (T : Nat) : Bool := (s.die (dieOf T)).waiting.any fun w => w.place.isNone && w.tile == T

/-- R249, R307: the arbiter grants, unless the grant waits for its ramp slot; while one waits, the requests of pinned
launches are granted, which are never gated (R308). -/
def execLeaseGrant (T : Nat) (s : State) : Outcome State Fault Refusal :=
  if T < Config.tiles then
    let m := (s.tile T).mx
    match m.lease, leaseNext m (fun r => launchPinned s r.who.launch || !leaseGated s T) with
    | none, some r =>
      if tileClosed s T then .next s
      else if launchPinned s r.who.launch then .next (grantLease s T r)
      else
        let x := rampAsk s { place := none, tile := T, since := sluiceNow s }
        .next (if x.2 then grantLease x.1 T r else x.1)
    | _, _ => .next s
  else .fault .illFormed

/-- The lease of a core ends (R248). -/
def endLease (s : State) (T core : Nat) : State :=
  modMx s T fun m => if m.lease.any (·.core == core) then { m with lease := none } else m

/-- A lease whose holder halts ends (R93, R248). -/
def endLeaseOf (s : State) (g : Nat) : State :=
  modMx s (tileOf g) fun m => if m.lease.any (·.holder == g) then { m with lease := none } else m

/-- R256. -/
def execMlease (_st : Stall) (n : BitVec 14) (s : State) : Outcome State Fault Refusal :=
  runInstr s s.cur false fun s c => do
    let g := s.cur
    let m := (s.tile (tileOf g)).mx
    if m.lease.any (fun l => l.core == coreOf g && l.holder == g) then throw (.localTrap 6 3 0)
    require s g [.leaseFree]
    let s := modMx s (tileOf g) fun m => { m with requests := m.requests ++ [⟨coreOf g, whoIn s g, n.toNat⟩] }
    return s.modThread g fun t => { t with status := .parked .lease, ready := c, base := c }

/-- R257. -/
def execMrel (st : Stall) (s : State) : Outcome State Fault Refusal :=
  runInstr s s.cur false fun s c =>
    .ok (retire (endLease s (tileOf s.cur) (coreOf s.cur)) s.cur c st false none)

/-! ### Issue (R250, R253) -/

/-- A command issues: operands, the lease check, the count-wait; it reserves one of the n, and its thread parks until the
command is accepted. -/
def matrixIssue (i : Instr) (m : Option MemArg) (g2 : List RegNum) (s : State) : Outcome State Fault Refusal :=
  runInstr s s.cur false fun s c => do
    let g := s.cur
    let T := tileOf g
    let o ← operands s g ((m.map (·.off)).toList ++ g2) []
    match (s.tile T).mx.lease.filter (·.core == coreOf g) with
    | none => throw (.localTrap 6 1 0)
    | some l =>
      if l.left = 0 then throw (.localTrap 6 2 0)
      require s g ((m.map fun x => kwNeeds x.kw).getD [])
      let k : MCmd :=
        { n := s.nextId, who := whoIn s g, core := coreOf g, lease := l.id, ins := i
          oval := if m.isSome then o.v 0 else 0, gval := if m.isSome then o.v 1 else o.v 0 }
      let s := consumeKept { s with nextId := s.nextId + 1 } g o.srcs
      let s := modMx s T fun x =>
        { x with lease := some { l with left := l.left - 1 }, issued := x.issued ++ [k] }
      return s.modThread g fun t => { t with status := .parked .maccept, ready := c, base := c }

/-! ### Acceptance (R250 to R255) -/

/-- A step: the X of its A format, `.ds8`, scaled (R247). -/
structure MStep where
  x : BitVec 3
  ds8 : Bool
  scaled : Bool

def stepOf (i : Instr) : Option MStep :=
  match i with
  | .mmaM _ x ds8 _ => some ⟨x, ds8, false⟩
  | .mmaN _ x ds8 _ => some ⟨x, ds8, false⟩
  | .mmas _ x ds8 _ _ => some ⟨x, ds8, true⟩
  | _ => none

/-- The memory operand of a command. -/
def commandMem (i : Instr) : Option MemArg :=
  match i with
  | .mldbM _ m => some (memArg m)
  | .mldbN _ m => some (memArg m)
  | .mmaM _ _ _ m => some (memArg m)
  | .mmaN _ _ _ m => some (memArg m)
  | .mmas _ _ _ _ m => some (memArg m)
  | .mdrainM _ _ m => some (memArg m)
  | .mdrainN _ _ m => some (memArg m)
  | _ => none

/-- A format of a step by X (R247). -/
def stepElem (x : BitVec 3) : Elem :=
  match x.toNat with
  | 0 => .flt fp64 | 1 => .flt fp32 | 2 => .flt bf16 | 3 => .flt fp16
  | 4 => .flt e4m3 | 5 => .flt e5m2 | 6 => .int true 8 | _ => .flt e2m1

/-- The B format of a step. -/
def MStep.bElem (q : MStep) : Elem := if q.ds8 then .ds8 else stepElem q.x

/-- D (R247). -/
def MStep.depth (q : MStep) : Nat :=
  if q.ds8 then 256
  else match q.x.toNat with
    | 0 => 16 | 1 => 32 | 2 => 64 | 3 => 64 | 7 => 256 | _ => 128

/-- The accumulator type of a step (R247, R215). -/
def MStep.acc (q : MStep) : BitVec 2 :=
  if q.x = 0 then 1 else if q.x = 6 ∧ !q.ds8 ∧ !q.scaled then 3 else 2

/-- The format in which a consumer of its own format `own` finds the elements of a bank (R212). -/
def storedElem (bank : BitVec 5) (own : Elem) : Elem := if bank = 0 then own else bankElem bank

/-- The accumulator's own format by acctype: FP32 for none (R261). -/
def accElem (a : BitVec 2) : Elem :=
  match a.toNat with
  | 1 => .flt fp64 | 3 => .int true 32 | _ => .flt fp32

/-- The segment checks of R255 in their order, and after them the landing-bank rule of R285 for a drain, which reaches no
slot's payload (entry 92). -/
def matrixSeg (s : State) (g : Nat) (sg : Seg) (off : Word) (size align rights : Nat) : Except Stop Word :=
  let a := sg.base + off
  let T := tileOf g
  let w := a.toNat % 2 ^ 21
  if sg.type = 3 then .error (segFault 1 a)
  else if sg.type ≠ 1 ∨ region a ≠ .window ∨ ownerTile s (s.thread g).owner (a.toNat / 2 ^ 21) ≠ some T ∨
      Config.tileStore ≤ w then
    .error (segFault 5 a)
  else if sg.rights &&& rights ≠ rights then .error (segFault 2 a)
  else if a.toNat % align ≠ 0 ∨ w / 65536 ≠ (w + size - 1) / 65536 then .error (segFault 3 a)
  else if sg.limit.toNat < off.toNat + size then .error (segFault 4 a)
  else if rights &&& 2 ≠ 0 ∧ landingBit s T (w / 65536) then .error (segFault 2 a)
  else .ok a

/-- What a command that passes its checks does at acceptance: the command with what it captured, the matrix state, and
the 64-byte units that it reads, by tile-store offset and number. -/
structure MAccept where
  cmd : MCmd
  mx : Matrix
  reads : Nat × Nat := (0, 0)
  /-- Uncorrectable units among the scales. -/
  bad : Nat := 0

/-- The scales of `mmas`, captured (R213, R214, R260): bytes, the uncorrectable units among them, and the format of their
bank. -/
structure MScale where
  bytes : List Byte := []
  bad : Nat := 0
  fmt : BitVec 5 := 0

/-- `n` scale bytes at window address `a` of tile `T`; none for a step without scales. R254 counts an error for each unit of
A, B and bias read, and each uncorrectable unit of the scales counts in the same way (DESIGN CHOICE, entry 96). -/
def scaleRead (s : State) (T : Nat) (a : Option Word) (n : Nat) : MScale :=
  match a with
  | none => {}
  | some a =>
    let w := a.toNat % 2 ^ 21
    let key := tileKey T w
    let units := (List.range ((w + n - 1) / 64 + 1 - w / 64)).map fun k => unitOf key + k
    { bytes := (List.range n).map fun k =>
        if s.poison.contains (unitOf (key + k)) then (0 : Byte) else memByte s.mem (key + k)
      bad := units.countP s.poison.contains
      fmt := bankFmt s T (w / 65536) }

/-- The checks of a step after its operand, in the order of R260: B extent and formats, type, scale signs. -/
def stepCheck (m : Matrix) (q : MStep) (k : MScale) : Except Stop Unit := do
  if 4096 * 8 < 16 * q.depth * (storedElem m.btagA q.bElem).bits then throw (.localTrap 6 6 0)
  if (q.ds8 ∧ m.btagA ≠ 0 ∧ m.btagA ≠ 8) ∨ (q.scaled ∧ k.fmt ≠ 0 ∧ k.fmt ≠ 9) then throw (.localTrap 6 7 0)
  if m.accA ≠ 0 ∧ m.accA ≠ q.acc then throw (.localTrap 6 5 0)
  if k.bytes.any (fun b => 128 ≤ b.toNat) then throw (.localTrap 6 4 0)

/-- The operand of a step: A, and with it the scale block of `mmas` (R260): the segment checks of both, then the buffer
checks of both (R184). Gives the address of the scales. -/
def stepOperand (s : State) (c : MCmd) (q : MStep) (sg : Seg) (off : Word) (n : Nat) : Except Stop (Option Word) := do
  let g := c.who.g
  let a ← matrixSeg s g sg off n 64 1
  if q.scaled then
    let b ← matrixSeg s g sg c.gval (2 * q.depth) 16 1
    bufCheck s (tileOf g) a n .engineLoad
    bufCheck s (tileOf g) b (2 * q.depth) .engineLoad
    return some b
  else
    bufCheck s (tileOf g) a n .engineLoad
    return none

/-- The checks and the captures of a command at acceptance. -/
def matrixAccept (s : State) (c : MCmd) : Except Stop MAccept := do
  let g := c.who.g
  let T := tileOf g
  let m := (s.tile T).mx
  match c.ins, commandMem c.ins with
  | .mzero _, _ => return { cmd := c, mx := { m with accA := 0 } }
  | .mscale _ _, _ => return { cmd := c, mx := { m with msA := c.gval.setWidth 32 } }
  | i, some arg =>
    let sg := (s.thread g).segs[arg.seg.toNat]
    let off := c.oval + arg.disp
    let w := (sg.base + off).toNat % 2 ^ 21
    let fmt := bankFmt s T (w / 65536)
    let c := { c with off := w, fmt := fmt }
    match stepOf i, i with
    | some q, _ =>
      let n := 16 * q.depth * (storedElem fmt (stepElem q.x)).bits / 8
      let k := scaleRead s T (← stepOperand s c q sg off n) (2 * q.depth)
      stepCheck m q k
      return { cmd := { c with scale := k.bytes, acc := q.acc }, mx := { m with accA := q.acc }
               reads := (w, (n + 63) / 64), bad := k.bad }
    | none, .mdrainM _ bias _ | none, .mdrainN _ bias _ =>
      let e := (storedElem fmt (accElem m.accA)).bits
      let n := 256 * e / 8
      let nb := if bias then 16 * e / 8 else 0
      let a ← matrixSeg s g sg off (n + nb) 64 (if bias then 3 else 2)
      bufCheck s T a n .store
      if bias then bufCheck s T (a + BitVec.ofNat 64 n) nb .engineLoad
      if fmt = 8 ∨ fmt = 9 then throw (.localTrap 6 7 0)
      return { cmd := { c with acc := m.accA }, mx := m, reads := (w + n, (nb + 63) / 64) }
    | none, _ =>
      let a ← matrixSeg s g sg off 4096 64 1
      bufCheck s T a 4096 .engineLoad
      return { cmd := c, mx := { m with btagA := fmt }, reads := (w, 64) }
  | _, none => return { cmd := c, mx := m }

/-- The reads of an accepted command go to their bank (R251). -/
def matrixReads (s : State) (c : MCmd) (w : Nat) : Nat → State
  | 0 => s
  | k + 1 =>
    let s := matrixReads s c w k
    send s
      { id := s.nextId, by_ := .matrix c.n, path := .matrix, g := c.who.g, serial := c.who.serial, owner := c.who.owner
        launch := c.who.launch, tile := tileOf c.who.g, key := tileKey (tileOf c.who.g) (w + 64 * k), size := 64
        acc := .load, kcls := 1 }

/-- The source fields of a command with the values read from them at its issue. -/
def commandSources (c : MCmd) : List (RegNum × Word) :=
  match c.ins with
  | .mmas _ _ _ a m => [((memArg m).off, c.oval), (a, c.gval)]
  | .mscale _ a => [(a, c.gval)]
  | i => ((commandMem i).map fun m => (m.off, c.oval)).toList

/-- A command that may write to a bank of its tile. -/
def MCmd.drains (c : MCmd) (b : Nat) : Bool :=
  (match c.ins with | .mdrainM .. | .mdrainN .. => true | _ => false) && bankOf (tileKey (c.core / 4) c.off) == b

/-- The bank of a command's scales (R260). -/
def MCmd.scaleBank (s : State) (c : MCmd) : Option Nat :=
  match c.ins, commandMem c.ins with
  | .mmas .., some arg =>
    let a := ((s.thread c.who.g).segs[arg.seg.toNat]).base + c.gval
    some (bankOf (tileKey (tileOf c.who.g) (a.toNat % 2 ^ 21)))
  | _, _ => none

/-- A command cannot be accepted now, because its scales cannot be read: their bank has an access to serve first (R121), or
a drain accepted before it has still to write there, since the accesses of the matrix path to one bank are made in queue
order (R153, R251; entry 96, DEDUCED). -/
def scalesWait (s : State) (T : Nat) (c : MCmd) : Bool :=
  (c.scaleBank s).any fun b =>
    bankTaken s b || (s.tile T).mx.queue.any (·.drains b) ||
      s.traffic.any fun r => r.path == .matrix && r.tile == T && r.acc != .load && r.stage == .sent && bankOf r.key == b

/-- A command that fails a check returns its reservation (R248). -/
def returnOne (m : Matrix) (c : MCmd) : Matrix :=
  { m with lease := m.lease.map fun l => if l.id = c.lease then { l with left := l.left + 1 } else l }

/-- The thread that issued a command waits for its acceptance. -/
def MCmd.waits (s : State) (c : MCmd) : Bool := c.who.live s && (s.thread c.who.g).status == .parked .maccept

/-- R250: the array accepts the first issued command. -/
def execMatrixCommandAcceptance (T : Nat) (s : State) : Outcome State Fault Refusal :=
  if T < Config.tiles then
    let m := (s.tile T).mx
    match m.issued with
    | [] => .next s
    | c :: l =>
      if tileClosed s T ∨ 16 ≤ m.queued ∨ scalesWait s T c then .next s
      else
        let s := serveBanks s (c.scaleBank s).toList
        match matrixAccept s c with
        | .ok x =>
          let k := { x.cmd with seq := s.nextId }
          let s := { s with nextId := s.nextId + 1 }
          let s := modMx s T fun _ => settle { x.mx with issued := l, queue := x.mx.queue ++ [k] }
          let s := matrixReads (dataErrors s c.who x.bad) k x.reads.1 x.reads.2
          let s := freeFields s c.who.g (commandSources c)
          .next (if c.waits s then resumeRetire s c.who.g else s)
        | .error e =>
          let g := c.who.g
          let clk := (s.core (coreOf g)).clock
          let s := modMx s T fun m => settle { returnOne m c with issued := l }
          if c.waits s then
            let s := s.modThread g fun t => { t with status := .ready }
            let s := putBackAll s g (commandSources c)
            .next (applyStop s g clk false e)
          else .next (freeFields s g (commandSources c))
  else .fault .illFormed

/-! ### Execution (R251, R258 to R262) -/

/-- The requests of a command. -/
def commandReqs (s : State) (c : MCmd) : List Req := s.traffic.filter fun r => r.by_ == .matrix c.n

/-- The bytes that a command has read in `n` units from tile-store offset `w`. -/
def unitsRead (l : List Req) (T w : Nat) : Nat → List Byte
  | 0 => []
  | n + 1 =>
    (match l.find? (·.key == tileKey T w) with
      | some r => bytesOfNat 64 r.data.toNat
      | none => List.replicate 64 0) ++ unitsRead l T (w + 64) n

/-- Element `i` of bytes stored in format `stored`, converted to the format `own` where they differ, and decoded
(R212). -/
def operandAt (stored own : Elem) (bits i : Nat) : Val :=
  let x := bits / 2 ^ (stored.bits * i) % 2 ^ stored.bits
  own.decode false (if stored = own then x else convertBits stored own .rne false false x)

/-- An element under its block scale (R213). -/
def scaled (scale : Option Byte) (v : Val) : Val :=
  match scale with
  | none => v
  | some b =>
    if b = 0x7F then .nan
    else if b = 0 then
      match v with
      | .fin s _ _ _ => Val.zero s
      | _ => .nan
    else v.mul (e4m3.decode false b.toNat)

/-- The exact sum of a block (R217). -/
def blockSum : List Val → Val
  | [] => Val.zero false
  | v :: l => l.foldl (Val.add .rne) v

/-- The integer that a finite value is. -/
def Val.toInt : Val → Int
  | .fin s m e _ => (if s then -1 else 1) * (m * 2 ^ e.toNat : Nat)
  | _ => 0

/-- One element of C after a step, from its row of A and its column of B, scaled (R216 to R218). -/
def stepCell (acc : BitVec 2) (row col : List Val) (old : BitVec 64) : BitVec 64 :=
  let prods := (row.zip col).map fun p => p.1.mul p.2
  if acc = 1 then
    BitVec.ofNat 64 ((row.zip col).foldl (fun c p =>
      fp64.encode .rne false true (Val.add .rne (p.1.mul p.2) (fp64.decode false c))) old.toNat)
  else if acc = 3 then
    let s := (prods.map Val.toInt).foldl (· + ·) 0
    (BitVec.ofInt 32 ((old.toNat : Int) + s)).setWidth 64
  else
    let blocks := groupsOf 16 (prods.length / 16) prods
    BitVec.ofNat 64 (blocks.foldl (fun c b =>
      let t := fp32.encode .rne false true (blockSum b)
      fp32.encode .rne false true (Val.add .rne (fp32.decode false c) (fp32.decode false t))) (old.toNat % 2 ^ 32))

/-- C(i, n). -/
def Matrix.cell (m : Matrix) (k : Nat) : BitVec 64 := m.c.getD k 0

/-- A step (R260). -/
def stepExec (m : Matrix) (c : MCmd) (q : MStep) (a : List Byte) : Matrix :=
  let d := q.depth
  let aBits := natOfBytes a
  let bBits := natOfBytes m.b
  let se := stepElem q.x
  let sa := storedElem c.fmt se
  let sb := storedElem m.btag q.bElem
  let scA (i k : Nat) : Option Byte := if q.scaled then some (c.scale.getD (i * (d / 16) + k / 16) 0) else none
  let scB (k n : Nat) : Option Byte := if q.scaled then some (c.scale.getD (d + k / 16 * 16 + n) 0) else none
  let row (i : Nat) := (List.range d).map fun k => scaled (scA i k) (operandAt sa se aBits (i * d + k))
  let col (n : Nat) := (List.range d).map fun k => scaled (scB k n) (operandAt sb q.bElem bBits (k * 16 + n))
  let rows := (List.range 16).map row
  let cols := (List.range 16).map col
  { m with
    acctype := q.acc
    c := (List.range 256).map fun k =>
      stepCell q.acc (rows.getD (k / 16) []) (cols.getD (k % 16) []) (m.cell k) }

/-- A drained element (R261). -/
def drainCell (m : Matrix) (c : MCmd) (f : Elem) (bias : Option Val) (k : Nat) : Nat :=
  let own := accElem c.acc
  let x := if c.acc = 0 then Val.zero false else own.decode false ((m.cell k).toNat % 2 ^ own.bits)
  let v := x.mul (fp32.decode false m.ms.toNat)
  let v := match bias with
    | some b => Val.add .rne v b
    | none => v
  f.encode .rne false false v

/-- The bytes of a drain (R261). -/
def drainBytes (m : Matrix) (c : MCmd) (bias : Option (List Byte)) : List Byte :=
  let f := storedElem c.fmt (accElem c.acc)
  let e := f.bits
  let b (n : Nat) : Option Val := bias.map fun bs => f.decode false (natOfBytes bs / 2 ^ (e * n) % 2 ^ e)
  bytesOfNat (256 * e / 8)
    ((List.range 256).foldr (fun k acc => drainCell m c f (b (k % 16)) k + 2 ^ e * acc) 0)

/-- The writes of a drain, unit by unit. -/
def drainReqs (s : State) (c : MCmd) : Nat → Nat → List Byte → List Req
  | 0, _, _ => []
  | k + 1, w, bs =>
    { id := s.nextId + k, by_ := .matrix c.n, path := .matrix, g := c.who.g, serial := c.who.serial, owner := c.who.owner
      launch := c.who.launch, tile := c.core / 4, key := tileKey (c.core / 4) w, size := 64
      acc := storeAcc 64 (BitVec.ofNat 512 (natOfBytes (bs.take 64))), kcls := 1 } :: drainReqs s c k (w + 64) (bs.drop 64)

/-- A read of a matrix command of a tile. -/
def matrixRead (T : Nat) (r : Req) : Bool :=
  r.tile == T && (match r.by_ with | .matrix _ => true | _ => false) && r.acc == .load

/-- The writes go before the reads of later commands (R153). -/
def insertBefore (T : Nat) (ws : List Req) : List Req → List Req
  | [] => ws
  | r :: l =>
    if matrixRead T r then ws ++ r :: l else r :: insertBefore T ws l

/-- The effect of a command whose reads are performed; its own reads have left the traffic. -/
def matrixEffect (s : State) (T : Nat) (c : MCmd) (reads : List Req) : State :=
  let m := (s.tile T).mx
  match c.ins with
  | .mzero _ => modMx s T fun m => { m with c := [], acctype := 0 }
  | .mscale _ _ => modMx s T fun m => { m with ms := c.gval.setWidth 32 }
  | .mldbM _ _ | .mldbN _ _ => modMx s T fun m => { m with b := unitsRead reads T c.off 64, btag := c.fmt }
  | .mdrainM _ bias _ | .mdrainN _ bias _ =>
    let n := 256 * (storedElem c.fmt (accElem c.acc)).bits / 8
    let bs := drainBytes m c (if bias then some (unitsRead reads T (c.off + n) 2) else none)
    let ws := drainReqs s c (n / 64) c.off bs
    { s with traffic := insertBefore T ws s.traffic, nextId := s.nextId + n / 64 }
  | i =>
    match stepOf i with
    | some q => modMx s T fun m => stepExec m c q (unitsRead reads T c.off reads.length)
    | none => s

/-- R251: the first command of the queue executes once its reads are performed. -/
def execMatrixCommandExecution (T : Nat) (s : State) : Outcome State Fault Refusal :=
  if T < Config.tiles then
    match (s.tile T).mx.queue with
    | [] => .next s
    | c :: l =>
      let reads := commandReqs s c
      if tileClosed s T ∨ reads.any (·.stage != .performed) then .next s
      else
        let s := { s with traffic := s.traffic.filter fun r => r.by_ != .matrix c.n }
        .next (modMx (matrixEffect s T c reads) T fun m => settle { m with queue := l })
  else .fault .illFormed

/-! ### Meanings -/

def execMldbM (st : Stall) (m : MemOp 14) (s : State) : Outcome State Fault Refusal :=
  matrixIssue (.mldbM st m) (some (memArg m)) [] s
def execMldbN (st : Stall) (m : MemOp 40) (s : State) : Outcome State Fault Refusal :=
  matrixIssue (.mldbN st m) (some (memArg m)) [] s
def execMzero (st : Stall) (s : State) : Outcome State Fault Refusal := matrixIssue (.mzero st) none [] s
def execMmaM (st : Stall) (af : BitVec 3) (ds8 : Bool) (m : MemOp 14) (s : State) : Outcome State Fault Refusal :=
  matrixIssue (.mmaM st af ds8 m) (some (memArg m)) [] s
def execMmaN (st : Stall) (af : BitVec 3) (ds8 : Bool) (m : MemOp 40) (s : State) : Outcome State Fault Refusal :=
  matrixIssue (.mmaN st af ds8 m) (some (memArg m)) [] s
def execMmas (st : Stall) (af : BitVec 3) (ds8 : Bool) (a : RegNum) (m : MemOp 40) (s : State) :
    Outcome State Fault Refusal :=
  matrixIssue (.mmas st af ds8 a m) (some (memArg m)) [a] s
def execMdrainM (st : Stall) (bias : Bool) (m : MemOp 14) (s : State) : Outcome State Fault Refusal :=
  matrixIssue (.mdrainM st bias m) (some (memArg m)) [] s
def execMdrainN (st : Stall) (bias : Bool) (m : MemOp 40) (s : State) : Outcome State Fault Refusal :=
  matrixIssue (.mdrainN st bias m) (some (memArg m)) [] s
def execMscale (st : Stall) (a : RegNum) (s : State) : Outcome State Fault Refusal :=
  matrixIssue (.mscale st a) none [a] s

/-- The word of `mstat` (R263). -/
def mstatWord (m : Matrix) (g : Nat) : Word :=
  let l := m.lease.filter (·.core == coreOf g)
  BitVec.ofNat 64 ((if l.isSome then 2 ^ 63 else 0) + (if l.any (·.holder == g) then 2 ^ 62 else 0) +
    (l.map (·.left)).getD 0 * 2 ^ 48 + m.queued * 2 ^ 40 + m.accA.toNat * 2 ^ 38 + m.btagA.toNat * 2 ^ 33 +
    m.msA.toNat)

/-- R263. -/
def execMstat (st : Stall) (d : RegNum) (s : State) : Outcome State Fault Refusal :=
  runInstr s s.cur false fun s c =>
    compute s s.cur c st 4 [] d fun _ => .ok (mstatWord (s.tile (tileOf s.cur)).mx s.cur)

/-- R264. -/
def execMwait (st : Stall) (s : State) : Outcome State Fault Refusal :=
  runInstr s s.cur false fun s c =>
    let g := s.cur
    if mwaitDone s g s.nextId then .ok (retire s g c st false none)
    else .ok (s.modThread g fun t => { t with status := .parked (.mwait s.nextId), ready := c, base := c })

end Sys2Proof.Machine
end

