-- ==== Sys2Proof/Machine/System.lean ====
section
/-! DEFINITION. System class (spec/17_system_class.md R339 to R352): the system registers and the instructions of traps
and errors. Taking a trap stands in Ops.lean. -/

namespace Sys2Proof.Machine

open Host (Outcome)

/-- The control register (R340). -/
def controlWord (t : Thread) : Word :=
  (0 : BitVec 60) ++ BitVec.ofBool t.det ++ BitVec.ofBool t.inh ++ BitVec.ofBool t.dz ++ BitVec.ofBool t.sb

/-- The identification register (R341). -/
def identification : Word := 0x00080100

/-- System register `i` (R339). -/
def sysReg (t : Thread) (i : Nat) : Option Word :=
  match i with
  | 0 => some t.handler
  | 1 => some (controlWord t)
  | 2 => some t.trapPc
  | 3 => some t.trapSucc
  | 4 => some t.trapCause
  | 5 => some t.trapInfo
  | 6 => some t.seed
  | 7 => some (errWord t.data t.misuse)
  | 8 => some (BitVec.ofNat 64 (t.k1.toNat + t.k2.toNat * 2 ^ 8 + t.k3.toNat * 2 ^ 16))
  | 9 => some identification
  | _ => none

/-- A write of system register `i`; none where it is read-only or absent (R340, R349). -/
def sysWrite (t : Thread) (i : Nat) (v : Word) : Option Thread :=
  match i with
  | 0 => some { t with handler := v }
  | 1 => some { t with dz := v.getLsbD 1, sb := v.getLsbD 0 }
  | 2 => some { t with trapPc := v }
  | 6 => some { t with seed := v }
  | _ => none

/-- The illegal-operand trap of a register index (R349); its subcause is the index's low byte (entry 12). -/
def illegalIndex (i : Nat) : Stop := .owner 3 (i % 256) 0

/-- R350: `trap`. -/
def execTrap (_st : Stall) (code : BitVec 14) (s : State) : Outcome State Fault Refusal :=
  runInstr s s.cur false fun _ _ => .error (.localTrap 7 0 (code.setWidth 64))

/-- R351: `sethnd`. -/
def execSethnd (st : Stall) (a : RegNum) (s : State) : Outcome State Fault Refusal :=
  runInstr s s.cur false fun s c => do
    let g := s.cur
    let o ← operands s g [a] []
    return retire ((consume s g o.srcs).modThread g fun t => { t with handler := o.v 0 }) g c st false none

/-- R344: `hret`. -/
def execHret (st : Stall) (s : State) : Outcome State Fault Refusal :=
  runInstr s s.cur false fun s c =>
    let g := s.cur
    if !(s.thread g).inh then .error illegalInstr
    else
      let pc := (s.thread g).trapPc
      .ok (retire (s.modThread g fun t => { t with inh := false }) g c st false (some pc))

/-- R351: `rdsys`. -/
def execRdsys (st : Stall) (d : RegNum) (idx : BitVec 14) (s : State) : Outcome State Fault Refusal :=
  runInstr s s.cur false fun s c =>
    match sysReg (s.thread s.cur) idx.toNat with
    | none => .error (illegalIndex idx.toNat)
    | some v => compute s s.cur c st 4 [] d fun _ => .ok v

/-- R351: `wrsys`. -/
def execWrsys (st : Stall) (a : RegNum) (idx : BitVec 14) (s : State) : Outcome State Fault Refusal :=
  runInstr s s.cur false fun s c => do
    let g := s.cur
    if (sysWrite (s.thread g) idx.toNat 0).isNone then throw (illegalIndex idx.toNat)
    let o ← operands s g [a] []
    let s := (consume s g o.srcs).modThread g fun t => (sysWrite t idx.toNat (o.v 0)).getD t
    return retire s g c st false none

/-- R351: `ecnt`. -/
def execEcnt (st : Stall) (owner : Bool) (d : RegNum) (s : State) : Outcome State Fault Refusal :=
  runInstr s s.cur false fun s c =>
    let t := s.thread s.cur
    let o := s.owner t.owner
    compute s s.cur c st 4 [] d fun _ => .ok (if owner then errWord o.data o.misuse else errWord t.data t.misuse)

/-- R351: `brk`. -/
def execBrk (_st : Stall) (code : BitVec 14) (s : State) : Outcome State Fault Refusal :=
  runInstr s s.cur false fun _ _ => .error (.owner 9 0 (code.setWidth 64))

/-- R351: `fail`: the launch's code is set, then the trap is raised. -/
def execFail (_st : Stall) (code : BitVec 14) (s : State) : Outcome State Fault Refusal :=
  runInstr s s.cur false fun s _ =>
    let t := s.thread s.cur
    .ok (ownerTrap (launchError s t.launch (0x01000000 + code.toNat)) s.cur 10 0 (code.setWidth 64) t.pc)

end Sys2Proof.Machine
end

