-- ==== Sys2Proof/Machine/Task.lean ====
section
/-! DEFINITION. Task class (spec/14_task_class.md R265 to R282, spec/23 R397): deques, join cells, stealing, the
dispenser and dependence counters. -/

namespace Sys2Proof.Machine

open Host (Outcome)

/-! ### The deque (R267 to R269) -/

/-- The deque with the entry at place `i` replaced. -/
def Core.setEntry (x : Core) (i : Nat) (e : DEntry) : Core :=
  if i < x.deque.length then { x with deque := x.deque.set i e }
  else { x with spilled := x.spilled.set (i - x.deque.length) e }

/-- A push at the bottom: none when the hardware part and `e` spilled entries are all full (R267). With fewer than 32
spill slots left, as many of the topmost entries move as there are slots (DESIGN CHOICE, entry 97). -/
def Core.pushEntry (x : Core) (e : Nat) (d : DEntry) : Option Core :=
  if x.deque.length < 64 then some { x with deque := d :: x.deque }
  else
    let n := min 32 (e - x.spilled.length)
    if n = 0 then none
    else
      let keep := x.deque.length - n
      some { x with deque := d :: x.deque.take keep, spilled := x.deque.drop keep ++ x.spilled }

/-- The 64 bytes of a spilled entry (R267); bytes 0 to 31 of a marker, of which the spec says nothing, are zero (DESIGN
CHOICE, entry 97). -/
def entryBytes (e : DEntry) : List Byte :=
  taskBytes e.task ++ bytesOfNat 1 e.slot ++ bytesOfNat 1 (if e.marker then 1 else 0) ++ bytesOfNat 2 0 ++
  bytesOfNat 4 (e.jcell.getD 0xFFFFFFFF) ++ bytesOfNat 24 0

/-- The spilled entries of a core in their launches' regions, oldest first. -/
def dequeMirror (s : State) (core : Nat) : State :=
  (s.core core).spilled.zipIdx.foldr (fun p s =>
    match spillPlace s core p.2 with
    | some q => engineWrite s (ownerWho (s.launch q.1).owner q.1) q.2 (entryBytes p.1)
    | none => s) s

/-- A core's new deque, and its spilled entries in memory. -/
def putDeque (s : State) (core : Nat) (x : Core) : State := dequeMirror (s.setCore core x) core

/-- The entry `e` at place `i` of a core's deque as it is read: one from the spill area may be uncorrectable (R352). -/
def takenEntry (s : State) (core i : Nat) (e : DEntry) : DEntry :=
  let n := (s.core core).deque.length
  if n ≤ i ∧ spillLost s core (i - n) then e.lost else e

/-- What that read counts. -/
def takenCount (s : State) (core i : Nat) : State :=
  let n := (s.core core).deque.length
  if n ≤ i then spillCount s core (i - n) else s

/-- The accesses to the spill area that the read makes (R333). -/
def takenReads (s : State) (core i : Nat) : List (Word × Nat) :=
  let n := (s.core core).deque.length
  if n ≤ i then ((spillPlace s core (i - n)).map fun p => (p.2, 1)).toList else []

/-- The accesses to the spill area that a refill of a core's deque makes (R333). -/
def refillReads (s : State) (core : Nat) : List (Word × Nat) :=
  if (s.core core).deque.isEmpty then ((spillPlace s core 0).map fun p => (p.2, 1)).toList else []

/-- The entry at place `i` leaves a core's deque, which is refilled where that empties its hardware part. -/
def popEntry (s : State) (core i : Nat) : State :=
  dequeMirror (refillDeque (s.setCore core ((s.core core).removeEntry i)) core) core

/-- The bottommost entry of a slot: its place and itself (R275), by the slot's tag alone: where a thread of another launch has
left entries under the tag, R275 does not say whether they are the slot's (DESIGN CHOICE, entry 108). -/
def bottomOf (x : Core) (slot : Nat) : Option (Nat × DEntry) :=
  (x.entries.zipIdx.find? fun p => p.1.slot == slot).map fun p => (p.2, p.1)

/-- The topmost record of a launch: its place and itself (R268). -/
def topmostOf (x : Core) (lk : Nat) : Option (Nat × DEntry) :=
  (x.entries.zipIdx.reverse.find? fun p => !p.1.marker && p.1.launch == lk).map fun p => (p.2, p.1)

/-! ### Join cells (R270) -/

/-- A field of a join cell. -/
def cellRead (s : State) (l : Launch) (c off n : Nat) : Nat :=
  natOfBytes (engineRead s l.owner (cellAddr l c + BitVec.ofNat 64 off) n)

/-- Write a field of a join cell of the launch of the thread in slot `g`, for that thread. An uncorrectable unit is counted
by the write of the atomic that reads it, and so is a cell that a check refuses (R270, R352, R390). -/
def cellWrite (s : State) (g c off n v : Nat) : State :=
  engineWrite s (whoIn s g) (cellAddr (s.launch (s.thread g).launch) c + BitVec.ofNat 64 off) (bytesOfNat n v)

/-- The accesses of an operation to cell `c` of the launch of thread `g` (R333). -/
def cellReads (s : State) (g c : Nat) : List (Word × Nat) := [(cellAddr (s.launch (s.thread g).launch) c, 1)]

/-- The lowest-numbered free cell from `c` on, `n` cells left (R272). -/
def freeCell (s : State) (l : Launch) (c : Nat) : Nat → Option Nat
  | 0 => none
  | n + 1 => if cellState s l c = 0 then some c else freeCell s l (c + 1) n

/-- The 128 bits of a segment register (R118). -/
def Seg.word (x : Seg) : Nat := x.base.toNat + x.limit.toNat * 2 ^ 64 + x.code.toNat * 2 ^ 112

/-- A segment register from its 128 bits. -/
def Seg.ofWord (n : Nat) : Seg :=
  { base := BitVec.ofNat 64 n, limit := BitVec.ofNat 48 (n / 2 ^ 64), code := BitVec.ofNat 6 (n / 2 ^ 112) }

/-- Numbers of `n` bytes each, in order. -/
def packBytes (n : Nat) : List Nat → List Byte
  | [] => []
  | v :: l => bytesOfNat n v ++ packBytes n l

/-- A suspended frame as bytes 8 to 455 of its cell (R270). -/
def frameBytes (t : Thread) (resume : Word) : List Byte :=
  let loops := (if t.lev0.active then 1 else 0) + (if t.lev1.active then 2 else 0) + (if t.inner1 then 4 else 0)
  bytesOfNat 1 2 ++ bytesOfNat 1 t.rb.toNat ++ bytesOfNat 1 loops ++ bytesOfNat 5 0 ++ bytesOfNat 8 resume.toNat ++
  bytesOfNat 8 0 ++ packBytes 8 ((t.regs.toList.drop 1).map (·.read.toNat)) ++
  packBytes 16 (t.segs.toList.map Seg.word) ++
  packBytes 8 ([t.lev0.count, t.lev0.start, t.lev0.stop, t.lev1.count, t.lev1.start, t.lev1.stop].map BitVec.toNat)

/-- The thread with the frame of a cell, whose 512 bytes are `x` (R277). -/
def frameRestore (t : Thread) (x : Nat) : Thread :=
  let w (off : Nat) : Word := BitVec.ofNat 64 (x / 2 ^ (8 * off))
  let loops := x / 2 ^ 80 % 256
  let t := (List.range 31).foldl (fun (t : Thread) k =>
    if h : k + 1 < 32 then t.fill ⟨k + 1, h⟩ (w (32 + 8 * k)) else t) t
  let segs := (List.range 8).foldl (fun (v : Vector Seg 8) k =>
    v.setIfInBounds k (Seg.ofWord (x / 2 ^ (8 * (280 + 16 * k)) % 2 ^ 128))) t.segs
  { t with
    rb := BitVec.ofNat 3 (x / 2 ^ 72)
    segs := segs
    lev0 := { count := w 408, start := w 416, stop := w 424, active := loops % 2 == 1 }
    lev1 := { count := w 432, start := w 440, stop := w 448, active := loops / 2 % 2 == 1 }
    inner1 := loops / 4 % 2 == 1
    jcell := none
    pc := w 16 }

/-! ### Taking a record (R265, R277) -/

/-- The thread leaves its wait and enters at its new pc, as after an `isync` (R96). -/
def enterTaken (s : State) (g : Nat) : State :=
  let c := (s.core (coreOf g)).clock
  syncLines (s.modThread g fun t => { t.notBefore (c + 1) with status := .ready, pass := [], port := none }) g

/-- A thread takes a record (R265). -/
def takeTask (s : State) (g : Nat) (x : Task) (jcell : Option Nat) : State :=
  enterTaken (s.modThread g fun t =>
    { ((t.fill 30 x.frame).fill 1 x.a0).fill 2 x.a1 with jcell := jcell, pc := x.pc }) g

/-- A thread takes the resume of a suspended cell and frees the cell (R277). R265 says of a record that its taker enters as
after an `isync`; R277 does not say so of a resume: the model empties the line store for both (DESIGN CHOICE, entry 115). -/
def takeResume (s : State) (g c : Nat) : State :=
  let l := s.launch (s.thread g).launch
  let x := cellRead s l c 0 512
  -- an uncorrectable first unit is counted by the write
  let s := engineCount s (whoIn s g) (cellAddr l c + 64) 448
  enterTaken ((cellWrite s g c 8 1 0).modThread g fun t => frameRestore t x) g

/-- The thread becomes a worker (R271, R278); the earliest issue clock after clock `c` stands (R43). -/
def becomeWorker (s : State) (g c : Nat) (st : Stall) (steal : Bool) : State :=
  s.modThread g fun t =>
    { t with status := .parked (.worker steal), ready := c + 8 * (st.toNat + 1), base := c + 8
             turns := t.turns + 1, pass := [] }

/-- What `tjoin` and `waitw` wait for (R276, R278). -/
def quiet : List Need := [.counts true true true, .noFill]

/-- What `tret` waits for: as `halt`, its vector stores performed too (R93, R275). -/
def childDone : List Need := .vdone :: quiet

/-! ### Instructions -/

/-- The record of a fork or a post: fp, ga and gb (R274, R279). -/
def forkOperands (s : State) (g : Nat) (a b : RegNum) : Except Stop Opnds := operands s g [a, b, 30] []

/-- R274. -/
def execSpawn (st : Stall) (a b : RegNum) (tg : Target) (s : State) : Outcome State Fault Refusal :=
  runInstr s s.cur false fun s c => do
    let g := s.cur
    let o ← forkOperands s g a b
    let t := s.thread g
    let e : DEntry :=
      { marker := false, slot := slotOf g, jcell := t.jcell, launch := t.launch
        task := { pc := succOf t false, frame := o.v 2, a0 := o.v 0, a1 := o.v 1 } }
    match (s.core (coreOf g)).pushEntry (s.launch t.launch).e e with
    | none => throw (.localTrap 5 0 0)
    | some x =>
      let s := consume (putDeque s (coreOf g) x) g o.srcs
      let s := s.modThread g fun t => { t with jcell := none }
      return retire s g c st false (some (targetPc t.pc tg))

/-- A child's marker: its cell counts down, and a suspended frame whose count reaches zero is posted (R275, R277,
R397), without limit (DESIGN CHOICE, entry 107). The cell is one of the launch of the thread that executes `tret`, also where
a thread of another launch has left the marker (DESIGN CHOICE, entry 108). -/
def joinDown (s : State) (g c : Nat) : State :=
  let l := s.launch (s.thread g).launch
  let n := (cellRead s l c 0 8 + 2 ^ 64 - 1) % 2 ^ 64
  let s := cellWrite s g c 0 8 n
  if n = 0 ∧ cellState s l c = 2 then
    let pc : Word := BitVec.ofNat 64 (cellRead s l c 16 8)
    dispPost s (tileOf g)
      { launch := (s.thread g).launch, core := coreOf g, task := ⟨pc, 0, 0, 0⟩, resume := some c }
  else s

/-- The accesses that `tret` makes in turn when it finds entry `e` at place `i` (R333): for a refill that the end of a launch
has left, for the entry itself, for the refill after it, and for the cell of a marker. -/
def tretReads (s : State) (g i : Nat) (e : DEntry) : List (Word × Nat) :=
  let k := coreOf g
  let u := refillDeque s k
  refillReads s k ++ takenReads u k i ++ refillReads (u.setCore k ((u.core k).removeEntry i)) k ++
    (if e.marker then e.jcell.toList.flatMap (cellReads s g) else [])

/-- `tret` takes entry `e` from place `i` of its core's deque: a record, or a marker, whose cell counts down (R275). -/
def tretTake (s : State) (g c : Nat) (st : Stall) (i : Nat) (e : DEntry) : State :=
  let s := popEntry (takenCount s (coreOf g) i) (coreOf g) i
  let s := becomeWorker (s.modThread g fun t => { t with jcell := none }) g c st true
  if e.marker then
    match e.jcell with
    | some k => joinDown s g k
    | none => s
  else takeTask s g e.task e.jcell

/-- R275. -/
def execTret (st : Stall) (s : State) : Outcome State Fault Refusal :=
  runInstr s s.cur false fun s c => do
    let g := s.cur
    require s g childDone
    let u := refillDeque s (coreOf g)
    match bottomOf (u.core (coreOf g)) (slotOf g) with
    | none => return becomeWorker (s.modThread g fun t => { t with jcell := none }) g c st true
    | some (i, e) =>
      let e := takenEntry u (coreOf g) i e
      let l := tretReads s g i e
      portsWait s g l
      return tretTake (portsDone u g l) g c st i e

/-- R276. -/
def execTjoin (st : Stall) (s : State) : Outcome State Fault Refusal :=
  runInstr s s.cur false fun s c => do
    let g := s.cur
    require s g quiet
    let t := (s.thread g).landAll
    match t.jcell with
    | none => return retire s g c st false none
    | some k =>
      let l := s.launch t.launch
      portsWait s g (cellReads s g k)
      let s := portsDone s g (cellReads s g k)
      if cellRead s l k 0 8 = 0 then
        let s := (cellWrite s g k 8 1 0).modThread g fun t => { t with jcell := none }
        return retire s g c st false none
      else
        let s := engineWrite s (whoIn s g) (cellAddr l k)
          (bytesOfNat 8 (cellRead s l k 0 8) ++ frameBytes t (succOf t false) ++ bytesOfNat 56 0)
        let s := dataErrors (s.modThread g fun t => { t.landAll with jcell := none }) (whoIn s g)
          ((t.regs.toList.drop 1).countP (·.bad))
        return becomeWorker s g c st true

/-- R278. -/
def waitwOp (st : Stall) (steal : Bool) (s : State) : Outcome State Fault Refusal :=
  runInstr s s.cur false fun s c => do
    require s s.cur quiet
    return becomeWorker s s.cur c st steal

def execWaitw (st : Stall) (s : State) : Outcome State Fault Refusal := waitwOp st false s
def execWaitwS (st : Stall) (s : State) : Outcome State Fault Refusal := waitwOp st true s

/-- R279. -/
def execTpost (st : Stall) (a b : RegNum) (tg : Target) (s : State) : Outcome State Fault Refusal :=
  runInstr s s.cur false fun s c => do
    let g := s.cur
    let o ← forkOperands s g a b
    require s g [.dispenser]
    let t := s.thread g
    let r : DRec :=
      { launch := t.launch, core := coreOf g
        task := { pc := targetPc t.pc tg, frame := o.v 2, a0 := o.v 0, a1 := o.v 1 } }
    return retire (dispPost (consume s g o.srcs) (tileOf g) r) g c st false none

/-- R281: `depset` and `depdec`. -/
def depOp (st : Stall) (src : List RegNum) (m : MemArg) (f : Word → Access) (s : State) :
    Outcome State Fault Refusal :=
  runInstr s s.cur false fun s c => do
    let g := s.cur
    let q : MemAsk := { kind := .atomic, size := 64, rights := 4 }
    let o ← operands s g (m.off :: src) []
    require s g (kwNeeds m.kw)
    let a ← segCheck s (s.thread g).owner ((s.thread g).segs[m.seg.toNat]) (segOff (o.v 0) m.sc 64 m.disp)
      { size := 64, align := 64, rights := 4, types := [0] }
    bufCheck s (tileOf g) a 64 .store
    let key ← memKey s g a .atomic
    return memIssue s g c st q o a key (f (o.v 1)) []

def execDepsetM (st : Stall) (a : RegNum) (m : MemOp 14) (s : State) : Outcome State Fault Refusal :=
  depOp st [a] (memArg m) .depset s
def execDepsetN (st : Stall) (a : RegNum) (m : MemOp 40) (s : State) : Outcome State Fault Refusal :=
  depOp st [a] (memArg m) .depset s
def execDepdecM (st : Stall) (m : MemOp 14) (s : State) : Outcome State Fault Refusal :=
  depOp st [] (memArg m) (fun _ => .depdec) s
def execDepdecN (st : Stall) (m : MemOp 40) (s : State) : Outcome State Fault Refusal :=
  depOp st [] (memArg m) (fun _ => .depdec) s

/-- The word of `tcount` (R282). Its posted counts what waits in the dispenser, the resumes of cells among the records: R282
speaks of records only (DESIGN CHOICE, entry 115). -/
def tcountWord (s : State) (g : Nat) : Word :=
  let x := (s.core (coreOf g)).entries
  let posted := min ((s.tile (tileOf g)).disp.length) 65535
  let recs := min (x.countP fun e => !e.marker) 65535
  let marks := min (x.countP fun e => e.marker) 255
  BitVec.ofNat 64 (posted * 2 ^ 32 + recs * 2 ^ 16 + marks * 256 + (if (s.thread g).jcell.isSome then 1 else 0))

/-- R282. -/
def execTcount (st : Stall) (d : RegNum) (s : State) : Outcome State Fault Refusal :=
  runInstr s s.cur false fun s c => compute s s.cur c st 4 [] d fun _ => .ok (tcountWord s s.cur)

/-! ### Stealing (R271, R272) -/

/-- A list in ascending order of `key`, turned so that it starts after the key that was served last. -/
def rotateAfter (key : Nat → Nat) (last : Option Nat) (l : List Nat) : List Nat :=
  match last with
  | some x => l.filter (fun y => decide (x < key y)) ++ l.filter (fun y => decide (key y ≤ x))
  | none => l

/-- The class of a place seen from a tile: same tile 0, same berth 1, same die 2, other dies 3. -/
def nearClass (T T' : Nat) : Nat :=
  if T = T' then 0 else if berthOf T = berthOf T' then 1 else if dieOf T = dieOf T' then 2 else 3

/-- The class of a victim core (R271): own core, own tile, own die, other dies. -/
def victimClass (core c : Nat) : Fin 4 :=
  if c = core then 0 else if c / 4 = core / 4 then 1 else if dieOf (c / 4) = dieOf (core / 4) then 2 else 3

/-- A core of an owner by its logical tile. -/
def logicalCore (s : State) (c : Nat) : Nat := 4 * logicalTile s (c / 4) + c % 4

/-- The cores of the launch's tiles in ascending logical order: tiles that hold threads of the launch, and those whose
deques still hold records of it (R272). -/
def launchCores (s : State) (lk : Nat) : List Nat :=
  let o := (s.launch lk).owner
  let held := (s.cores.filter fun p => p.2.entries.any fun e => e.launch == lk).map fun p => p.1 / 4
  let tiles := ((launchThreads s lk).map tileOf ++ held).eraseDups
  ((List.range (ownerTiles s o)).filterMap fun t => (ownerTile s o t).filter tiles.contains).flatMap fun T =>
    (List.range 4).map fun k => 4 * T + k

/-- The victims of one pass (R271). -/
def stealPass (s : State) (g : Nat) : List Nat :=
  let t := s.thread g
  let core := coreOf g
  let own := (List.range 4).map fun k => core / 4 * 4 + k
  let all := own ++ (launchCores s t.launch).filter fun c => c / 4 != core / 4
  (List.finRange 4).flatMap fun k =>
    rotateAfter (logicalCore s) t.tried[k] (all.filter fun c => victimClass core c == k)

/-- The record that a take at a victim core finds: its place, itself as it is read, and the cell that it gets; none where there
is none or no cell is free (R272). -/
def stealFind (s : State) (g victim : Nat) : Option (Nat × DEntry × Nat) :=
  let l := s.launch (s.thread g).launch
  (topmostOf (s.core victim) (s.thread g).launch).bind fun p =>
    let e := takenEntry s victim p.1 p.2
    (e.jcell <|> freeCell s l 0 l.j).map fun c => (p.1, e, c)

/-- The accesses of a take in turn (R333): to the spilled record, and to the cell, or to the cells up to the first free one,
all of them where none is. -/
def stealReads (s : State) (g victim : Nat) : List (Word × Nat) :=
  let l := s.launch (s.thread g).launch
  match topmostOf (s.core victim) (s.thread g).launch with
  | none => []
  | some (i, e) =>
    takenReads s victim i ++
      (match (takenEntry s victim i e).jcell with
        | some c => cellReads s g c
        | none => if l.j = 0 then [] else [(cellAddr l 0, ((freeCell s l 0 l.j).map (· + 1)).getD l.j)])

/-- The take of R272; none when it is refused. -/
def stealTake (s : State) (g victim : Nat) : Option State :=
  (stealFind s g victim).map fun (i, e, c) =>
    let l := s.launch (s.thread g).launch
    let s := takenCount s victim i
    let s := if e.jcell.isSome then cellWrite s g c 0 8 (cellRead s l c 0 8 + 1) else cellWrite (cellWrite s g c 0 8 1) g c 8 1 1
    let s := putDeque s victim ((s.core victim).setEntry i { e with marker := true, jcell := some c, task := ⟨0, 0, 0, 0⟩ })
    takeTask s g e.task (some c)

/-! ### The dispenser (R279) -/

/-- A thread parked as a worker of a launch. -/
def isWorker (s : State) (lk g : Nat) : Bool :=
  let t := s.thread g
  t.launch == lk && !t.away && t.trapped.isNone && !t.stopping &&
    (match t.status with | .parked (.worker _) => true | _ => false)

/-- Class of a candidate for a record (R279): same core as its poster, same tile, same berth, same die, other dies. -/
def candidateClass (core g : Nat) : Fin 5 :=
  if coreOf g = core then 0
  else match nearClass (core / 4) (tileOf g) with
    | 0 => 1 | 1 => 2 | 2 => 3 | _ => 4

/-- A tile that Sluice marks (R311). -/
def marked (s : State) (T : Nat) : Bool := (s.tile T).hot || (s.tile T).overBudget

/-- Tiles whose dispensers hold a record of a launch, in ascending logical order. -/
def holders (s : State) (lk : Nat) : List Nat :=
  let o := (s.launch lk).owner
  (List.range (ownerTiles s o)).filterMap fun t =>
    (ownerTile s o t).filter fun T => (s.tile T).disp.any fun r => r.launch == lk

/-- The dispenser that gives candidate `g` its next record (R279). -/
def giver (s : State) (lk g : Nat) : Option Nat :=
  let t := s.thread g
  let l := holders s lk
  ((List.finRange 4).flatMap fun k =>
    rotateAfter (logicalTile s) t.gave[k] (l.filter fun T => nearClass (tileOf g) T == k.val)).head?

/-- Insert a thread behind those of ids below its own. -/
def insertById (s : State) (g : Nat) : List Nat → List Nat
  | [] => [g]
  | x :: l => if (s.thread x).id ≤ (s.thread g).id then x :: insertById s g l else g :: x :: l

/-- Threads in ascending owner-relative id. -/
def sortById (s : State) (l : List Nat) : List Nat := l.foldl (fun acc g => insertById s g acc) []

/-- The candidate for a record of tile `T`'s dispenser, with its class (R279): one that no other dispenser serves first,
on no marked tile unless its launch is deterministic. -/
def candidate (s : State) (T : Nat) (r : DRec) : Option (Fin 5 × Nat) :=
  let x := s.tile T
  let l := sortById s ((launchThreads s r.launch).filter fun g =>
    isWorker s r.launch g && (!marked s (tileOf g) || (s.launch r.launch).det) && giver s r.launch g == some T)
  ((List.finRange 5).flatMap fun k =>
    (rotateAfter (fun g => (s.thread g).id) x.dlast[k] (l.filter fun g => candidateClass r.core g == k)).map
      fun g => (k, g)).head?

/-- The first record of a dispenser that has a candidate: its place, itself, the candidate. -/
def nextPlaced (s : State) (T : Nat) : Option (Nat × DRec × Fin 5 × Nat) :=
  (s.tile T).disp.zipIdx.findSome? fun p => (candidate s T p.1).map fun c => (p.2, p.1, c)

/-- The spilled record that comes back from memory as record `i` of a dispenser's queue leaves: itself, or the first of those
beyond 64, which moves up. -/
def backIdx (i : Nat) : Nat := max i 64

/-- Record `k` of a dispenser's queue, read back from its place: zero where it is uncorrectable, and counted (R352). A resume
stays that of its cell. -/
def readBack (s : State) (T k : Nat) : State :=
  match (s.tile T).disp[k]?, dispAddr s T k with
  | some r, some a =>
    let x := s.launch r.launch
    let lost := engineLost s x.owner a 32
    let s := engineCount s (ownerWho x.owner r.launch) a 32
    if lost then s.modTile T fun y => { y with disp := y.disp.set k { r with task := ⟨0, 0, 0, 0⟩ } } else s
  | _, _ => s

/-- What the port of a tile is asked for as record `i` of its dispenser leaves, in calibration mode (R333). -/
def backPort (s : State) (T i : Nat) : Option Port :=
  match (s.tile T).disp[backIdx i]?, dispAddr s T (backIdx i) with
  | some r, some a => askPort s T (s.launch r.launch).owner a 1
  | _, _ => none

/-- The dispenser of a tile gives record `i` to thread `g`, a candidate of class `k`. -/
def giveRecord (s : State) (T i : Nat) (r : DRec) (k : Fin 5) (g : Nat) : State :=
  let s := readBack (latePort s T (s.tile T).back) T (backIdx i)
  let r := ((s.tile T).disp[i]?).getD r
  let s := s.modTile T fun x =>
    { x with disp := x.disp.eraseIdx i, dlast := x.dlast.set k (some (s.thread g).id), back := none }
  let s := dispMirror s T
  let s := s.modThread g fun t =>
    if h : nearClass (tileOf g) T < 4 then { t with gave := t.gave.set (nearClass (tileOf g) T) (some (logicalTile s T)) }
    else t
  match r.resume with
  | some c => takeResume (portsDone s g (cellReads s g c)) g c
  | none => takeTask s g r.task none

/-- R279: the dispenser of a tile places a record. In calibration mode the port reads what comes back from the spill first, and
that of the taker the cell of a resume; what the port has asked for is performed in a pause too (R333, R394). -/
def execDispenserPlacement (T : Nat) (s : State) : Outcome State Fault Refusal :=
  if T < Config.tiles then
    let x := s.tile T
    match x.back.filter fun p => !p.answered s with
    | some p => .next (if p.view.isSome ∧ tileClosed s T then s else s.setTile T { x with back := some (p.go s T) })
    | none =>
      match nextPlaced s T with
      | none => .next s
      | some (i, r, k, g) =>
        let cell := r.resume.toList.flatMap (cellReads s g)
        .next (if tileClosed s T ∨ tileClosed s (tileOf g) then s
          else if (backPort s T i).any fun p => x.back.all (·.addr != p.addr) then s.setTile T { x with back := backPort s T i }
          else if !portsReady s g cell then portsAsk s g cell
          else giveRecord s T i r k g)
  else .fault .illFormed

/-- A dispenser offers the thread a record (R279). -/
def offered (s : State) (g : Nat) : Bool := s.tiles.any fun x => (nextPlaced s x.1).any fun y => y.2.2.2 == g

/-- A thread that steals, and whose tile and victim a request may pass: no dispenser offers it a record first (R271). -/
def mayTry (s : State) (g victim : Nat) : Bool :=
  let t := s.thread g
  t.status == .parked (.worker true) && !t.away && !t.stopping && !tileClosed s (tileOf g) &&
    !tileClosed s (victim / 4) && !offered s g

/-- R271, R272: a thief's request reaches its next victim. -/
def execStealRequest (g victim : Nat) (s : State) : Outcome State Fault Refusal :=
  if g < Config.threads ∧ victim < Config.cores then
    if !mayTry s g victim then .next s
    else
      let t := s.thread g
      let pass := if t.pass.isEmpty then stealPass s g else t.pass
      let l := stealReads s g victim
      if pass.head? ≠ some victim then .next s
      else if !portsReady s g l then .next (portsAsk s g l)
      else
        let s := portsDone s g l
        let k := victimClass (coreOf g) victim
        let s := s.modThread g fun t =>
          { t with pass := pass.drop 1, tried := t.tried.set k (some (logicalCore s victim)) }
        .next ((stealTake s g victim).getD s)
  else .fault .illFormed

end Sys2Proof.Machine
end

