-- ==== Sys2Proof/Machine/Work.lean ====
section
/-! DEFINITION. The life of threads outside issue (spec/05_control_class.md R74, R80, R93, spec/07 R119, spec/16 R307,
R322, R323, spec/17 R347, R353 to R355, R359, spec/18 R377, R378, R380): placement, the end of a thread, stopping a
launch, pre-emption, overflow rotation, trapped threads and the service of trap records. -/

namespace Sys2Proof.Machine

open Host (Outcome)

/-! ### Physical slots (R322, R323, R353, R354) -/

/-- The thread in architectural slot `k` of core `c` has no use of a physical slot: none is there, a trap holds it, or
Firn has swapped it out. -/
def slotIdle (s : State) (c k : Nat) : Bool :=
  let t := s.thread (8 * c + k)
  t.status == .empty || t.trapped.isSome || t.away

/-- The slots of a core are left to the overflow queue: in strict rotation a waiting overflow thread takes each at the end
of its fixed period, also one that has been left (R323; entry 65, DEDUCED). -/
def slotsWaited (s : State) (c : Nat) : Bool := coreDet s c && !(s.core c).overflow.isEmpty

/-- A free physical slot of a core: no thread is in it or comes into it that has a use of it, the lowest-numbered that no
swap occupies before one from which a context still moves out. The spec does not say which of several free slots a thread
takes (DESIGN CHOICE, entry 103). -/
def freePhys (s : State) (c : Nat) : Option Nat :=
  let x := s.core c
  let swapped (p : Nat) : Bool := x.swap.any fun e => e.1 == p
  let l := (List.range x.phys.length).filter fun p =>
    match x.phys.getD p none with
    | none => true
    | some k => !swapped p && slotIdle s c k
  if slotsWaited s c then none else (l.find? fun p => !swapped p) <|> l.head?

/-- The periods of strict rotation of a core's slots begin (R323): the core has an overflow thread, or a deterministic one,
and had none (entry 65, DEDUCED). -/
def Core.startPeriods (x : Core) : Core := { x with since := (List.range x.phys.length).map fun p => (p, x.clock) }

/-- A thread joins the tail of the overflow queue. -/
def Core.joinOverflow (x : Core) (k : Nat) : Core :=
  let y := if x.overflow.isEmpty then x.startPeriods else x
  { y with overflow := x.overflow ++ [k] }

/-- The thread takes a physical slot (R80, R354): its own if no other thread took it, else a free one; without one it
joins the tail of the overflow queue. `swap`: the slot is occupied for 64 clocks (R353). -/
def takePhys (s : State) (g : Nat) (swap : Bool) : State :=
  let c := coreOf g
  let k := slotOf g
  let x := s.core c
  let mark (x : Core) (p : Nat) : Core :=
    if swap then { x with swap := (p, x.clock + 64) :: x.swap.filter (fun e => e.1 != p) } else x
  if x.overflow.contains k then s
  else
    let p := x.phys.idxOf (some k)
    if p < x.phys.length ∧ !slotsWaited s c then s.setCore c (mark x p)
    else
      match freePhys s c with
      | some p => s.setCore c (mark { x with phys := x.phys.set p (some k) } p)
      | none => s.setCore c (x.joinOverflow k)

/-- A physical slot of core `c` changes its thread (R323): in strict rotation when its 4,096 clocks have passed, whatever
it holds; in normal rotation when it is free, or its thread has used its quantum or waits. -/
def quantumOver (s : State) (c p : Nat) : Bool :=
  let x := s.core c
  if coreDet s c then decide ((mget x.since p).getD 0 + 8 * 4096 ≤ x.clock)
  else
    match x.phys.getD p none with
    | none => true
    | some k =>
      let t := s.thread (8 * c + k)
      decide (4096 ≤ t.turns) || slotIdle s c k || (match t.status with | .parked _ | .dropped _ _ => true | _ => false)

/-- A physical slot changes its thread where that is due. -/
def quantumStep (s : State) (c p : Nat) : State :=
  let x := s.core c
  if tileClosed s (c / 4) ∨ x.phys.length ≤ p ∨ x.swap.any (fun e => e.1 == p) ∨ !quantumOver s c p then s
  else
    match overflowNext s c with
    | none => s
    | some n =>
      swapIn s c p n (match x.phys.getD p none with
        | some k => if slotIdle s c k then [] else [k]
        | none => [])

/-- R323: a physical slot changes its thread. -/
def execOverflowQuantumExpiry (core phys : Nat) (s : State) : Outcome State Fault Refusal :=
  if core < Config.cores ∧ phys < 8 then .next (quantumStep s core phys) else .fault .illFormed

/-- The swap of a physical slot ends where its 64 clocks have passed: the incoming thread's quantum begins, and it issues
from the clock at which the swap ended. -/
def swapStep (s : State) (c p : Nat) : State :=
  let x := s.core c
  match x.swap.find? fun e => e.1 == p with
  | none => s
  | some e =>
    if x.clock < e.2 then s
    else
      let s := s.setCore c { x with swap := x.swap.filter fun e => e.1 != p }
      match x.phys.getD p none with
      | some k => s.modThread (8 * c + k) fun t => { t.notBefore e.2 with turns := 0 }
      | none => s

/-- R323: the 64 clocks of a swap have passed. -/
def execOverflowSwapDone (core phys : Nat) (s : State) : Outcome State Fault Refusal :=
  if core < Config.cores ∧ phys < 8 then .next (swapStep s core phys) else .fault .illFormed

/-- Every change of a core's physical slots that is due has been made (R323). -/
def settleSlots (s : State) (c : Nat) : State :=
  if (s.core c).swap.isEmpty ∧ (s.core c).overflow.isEmpty then s
  else (List.range 8).foldl (fun s p => quantumStep (swapStep s c p) c p) s

/-! ### Placement (R80, R119, R307, R377, R378, R380) -/

/-- The lowest empty slot of a tile, as a thread. -/
def emptySlot (s : State) (T : Nat) : Option Nat := ((List.range 32).map (32 * T + ·)).find? fun g => !live s g

/-- A placement may not use a tile that Sluice marks, unless its launch is deterministic (R311). -/
def tileOpen (s : State) (l : Launch) (T : Nat) : Bool := l.det || !marked s T

/-- The tiles of an owner, from the tile `T0` outward: tile, berth, die, other dies, each in ascending order (R377). -/
def tilesFrom (s : State) (o T0 : Nat) : List Nat :=
  let all := (List.range (ownerTiles s o)).filterMap (ownerTile s o)
  (List.range 4).flatMap fun k => all.filter fun T => nearClass T0 T == k

/-- The slot that a placement takes now (R377). -/
def placeSlot (s : State) (l : Launch) (p : Place) : Option Nat :=
  match p.fixed with
  | some i =>
    match ownerThread s l.owner i with
    | some g => if !live s g && tileOpen s l (tileOf g) then some g else none
    | none => none
  | none =>
    match ownerTile s l.owner (l.base / 32) with
    | some T0 => ((tilesFrom s l.owner T0).filter (tileOpen s l)).findSome? (emptySlot s)
    | none => none

/-- Placements that may be made next: of an ACTORS launch only those of the highest stage that remains (R380). -/
def openPlaces (l : Launch) : List Place :=
  if l.actors then
    let top := l.places.foldl (fun m p => max m p.stage) 0
    l.places.filter fun p => p.stage == top
  else l.places

/-- A placement waits for its ramp slot. -/
def inRamp (s : State) (lk k : Nat) : Bool :=
  s.dies.any fun d => d.2.waiting.any fun w => w.place == some (lk, k)

/-- The next placement of a launch that has a slot now, and the slot. -/
def nextPlace (s : State) (lk : Nat) : Option (Place × Nat) :=
  let l := s.launch lk
  if !l.admitted || l.done then none
  else (openPlaces l).findSome? fun p =>
    if inRamp s lk p.k then none else (placeSlot s l p).map fun g => (p, g)

/-- Launch `a` is taken before launch `b`: inlet priority, then the order in which their packets started (R377). -/
def launchBefore (s : State) (a b : Launch) : Bool :=
  let pa := (s.inlet a.inlet).prio
  let pb := (s.inlet b.inlet).prio
  decide (pb < pa) || (pa == pb && decide (a.order < b.order))

/-- The empty slots that a launch's placements may take, in the order of R377. -/
def emptySlots (s : State) (l : Launch) : List Nat :=
  match ownerTile s l.owner (l.base / 32) with
  | none => []
  | some T0 => ((tilesFrom s l.owner T0).filter (tileOpen s l)).flatMap fun T =>
      ((List.range 32).map (32 * T + ·)).filter fun g => !live s g

/-- A placement of the launch that waits wants the slot: one that is fixed there, or one of those that take the next empty
slots. -/
def wantsSlot (s : State) (l : Launch) (g : Nat) : Bool :=
  let open_ := openPlaces l
  l.admitted && !l.done &&
    (open_.any (fun p => p.fixed.any fun i => ownerThread s l.owner i == some g && tileOpen s l (tileOf g)) ||
      ((emptySlots s l).take (open_.countP (·.fixed.isNone))).contains g)

/-- Another launch, taken before this one, wants the slot (R377). -/
def slotWanted (s : State) (lk g : Nat) : Bool :=
  s.launches.any fun p => p.1 != lk && launchBefore s p.2 (s.launch lk) && wantsSlot s p.2 g

/-- The segment registers of a new thread (R119). -/
def launchSegs (l : Launch) (T : Nat) : Vector Seg 8 :=
  #v[{ base := BitVec.ofNat 64 (T * 2 ^ 21), limit := 0x180000, code := 0x1F },
     { base := l.args, limit := BitVec.ofNat 48 l.argLen, code := 0x01 }, {}, {}, {}, {}, {}, {}]

/-- The identity registers of a new thread (R378). -/
def launchIds (s : State) (l : Launch) (p : Place) (g : Nat) : Vector Word 16 :=
  let T := logicalTile s (tileOf g)
  let w (n : Nat) : Word := BitVec.ofNat 64 n
  #v[w (32 * T + g % 32), w T, w (coreOf g % 4), w (slotOf g), w (ownerTiles s l.owner), 0, w l.id, p.i7, p.i8, p.i9,
     l.argv[(0 : Nat)], l.argv[(1 : Nat)], l.argv[(2 : Nat)], l.argv[(3 : Nat)], l.argv[(4 : Nat)], l.argv[(5 : Nat)]]

/-- The state of a new thread (R80, R119, R378). -/
def newThread (s : State) (lk : Nat) (p : Place) (g : Nat) : Thread :=
  let l := s.launch lk
  let c := (s.core (coreOf g)).clock
  let T := logicalTile s (tileOf g)
  { status := .ready, pc := p.pc, ready := c + 1, base := c + 1, owner := l.owner, launch := lk, serial := s.serials
    id := 32 * T + g % 32, det := l.det, seed := l.seed, segs := launchSegs l T, ids := launchIds s l p g }

/-- A tile that receives a deterministic thread runs at P0 (R314, R334), and the periods of a core that becomes strict begin
(R323). -/
def detPlaced (s : State) (g : Nat) : State :=
  let s := if coreDet s (coreOf g) then s else s.modCore (coreOf g) Core.startPeriods
  s.modTile (tileOf g) fun x => { x with point := 0 }

/-- A placement is made: the thread takes its slot and enters at its pc (R80); the first one of a launch updates its
signal (R373). -/
def placeThread (s : State) (lk : Nat) (p : Place) (g : Nat) : State :=
  let s := if (s.launch lk).det then detPlaced s g else s
  let s := { s.setThread g (newThread s lk p g) with serials := s.serials + 1 }
  let s := s.modLaunch lk fun l => { l with places := l.places.filter fun q => q.k != p.k, live := l.live + 1 }
  launchFirst (syncLines (takePhys s g false) g) lk

/-- The slots that those placements of a launch may take now which have yet to ask for their grants (R377): the fixed ones,
and as many empty slots as there are others. -/
def waitingSlots (s : State) (lk : Nat) : List Nat :=
  let l := s.launch lk
  let ps := (openPlaces l).filter fun p => !inRamp s lk p.k
  if !l.admitted || l.done then []
  else
    (ps.filter (·.fixed.isSome)).filterMap (placeSlot s l) ++ (emptySlots s l).take (ps.countP (·.fixed.isNone))

/-- Another launch, taken before this one, has placements on the die that wait for their grants (R377). -/
def asksFirst (s : State) (lk d : Nat) : Bool :=
  s.launches.any fun q =>
    q.1 != lk && !launchPinned s q.1 && launchBefore s q.2 (s.launch lk) &&
      (waitingSlots s q.1).any fun g => dieOf (tileOf g) == d && !tileClosed s (tileOf g) && !slotWanted s q.1 g

/-- R80, R377: the next placement of a launch is made, or asks for its ramp slot. -/
def execLaunchRecordPlacement (lk : Nat) (s : State) : Outcome State Fault Refusal :=
  match nextPlace s lk with
  | none => .next s
  | some (p, g) =>
    if tileClosed s (tileOf g) ∨ slotWanted s lk g then .next s
    else if launchPinned s lk then .next (placeThread s lk p g)
    else if asksFirst s lk (dieOf (tileOf g)) then .next s
    else
      let x := rampAsk s { place := some (lk, p.k), tile := tileOf g, since := sluiceNow s }
      .next (if x.2 then placeThread x.1 lk p g else x.1)

/-! ### Ramp slots (R307) -/

/-- A grant leaves a die's waiting grants. -/
def rampDrop (s : State) (d : Nat) (w : RampWait) : State := s.modDie d fun x => { x with waiting := x.waiting.erase w }

/-- A waiting grant is granted in this tick: charged, and counted as a stagger of its tile when it waited a tick. -/
def rampTake (s : State) (d : Nat) (w : RampWait) (T : Nat) : State :=
  let s := (rampDrop s d w).modDie d fun x => (x.inTick (sluiceNow s)).charge (s.param 0) (rampCost s w)
  if w.since < sluiceNow s then s.modTile T fun x => { x with stagger := x.stagger + 1 } else s

/-- What a waiting grant can do now on its die. -/
inductive RampNow where
  /-- A placement takes its slot. -/
  | place (lk : Nat) (p : Place) (g : Nat)
  /-- A lease is granted. -/
  | lease (r : LeaseReq)
  /-- A placement's slot has come to lie on another die, at tile `T`: it waits there. -/
  | move (T : Nat)
  /-- Its slot is taken, its lease is held or a pinned launch's, or its tile takes nothing: it keeps its place. -/
  | stay
  /-- Its launch or its request is gone. -/
  | gone
  deriving DecidableEq, Repr

/-- What a waiting grant of die `d` can do now. -/
def rampNow (s : State) (d : Nat) (w : RampWait) : RampNow :=
  match w.place with
  | some (lk, k) =>
    match (s.launch lk).places.find? fun p => p.k == k with
    | none => .gone
    | some p =>
      match placeSlot s (s.launch lk) p with
      | some g =>
        if dieOf (tileOf g) ≠ d then .move (tileOf g)
        else if !tileClosed s (tileOf g) ∧ !slotWanted s lk g then .place lk p g
        else .stay
      | none => .stay
  | none =>
    let m := (s.tile w.tile).mx
    match leaseNext m fun _ => true with
    | none => .gone
    | some r =>
      if m.requests.all fun r => launchPinned s r.who.launch then .gone
      else if m.lease.isNone ∧ !tileClosed s w.tile ∧ !launchPinned s r.who.launch then .lease r
      else .stay

/-- A waiting grant among others in the order in which they were requested. -/
def insertWait (w : RampWait) : List RampWait → List RampWait
  | [] => [w]
  | x :: l => if x.since ≤ w.since then x :: insertWait w l else w :: x :: l

/-- The waiting grants of a die that are void leave it, and those whose slot has come to lie on another die wait there, in
the order in which they were requested. -/
def settleWaits (s : State) (d : Nat) : State :=
  let l := (s.die d).waiting
  let kept := l.filter fun w =>
    match rampNow s d w with
    | .move _ | .gone => false
    | _ => true
  l.foldl (fun s' w =>
    match rampNow s d w with
    | .move T => s'.modDie (dieOf T) fun x => { x with waiting := insertWait { w with tile := T } x.waiting }
    | _ => s') (s.modDie d fun x => { x with waiting := kept })

/-- R307: of a die's waiting grants, the first that can be made is made, in a tick that has room for it; those that have
become void leave. -/
def execRampSlotGrant (d : Nat) (s : State) : Outcome State Fault Refusal :=
  if d < Config.dies then
    let s := settleWaits s d
    match (s.die d).waiting.find? fun w => rampNow s d w != .stay with
    | none => .next s
    | some w =>
      if s.pause.isSome ∨ pinnedDue s ∨ !((s.die d).inTick (sluiceNow s)).fits (s.param 0) (rampCost s w) then
        .next s
      else
        match rampNow s d w with
        | .place lk p g => .next (placeThread (rampTake s d w (tileOf g)) lk p g)
        | .lease r => .next (grantLease (rampTake s d w w.tile) w.tile r)
        | _ => .next s
  else .fault .illFormed

/-! ### The end of a thread (R93) -/

/-- A place in a queue that was reserved for a result that will not come is given up. -/
def abandonPush (s : State) (g : Nat) (d : Dst) (tag : Nat) : State :=
  let drop (l : List Push) : List Push := l.filter fun p => !(p.tag == tag && p.val == none && p.g == g)
  match d with
  | .chain dir =>
    match chainPeer (coreOf g) dir with
    | some (c', d') =>
      if h : d' < 4 then s.modCore c' fun x => { x with flight := x.flight.set d' (drop x.flight[d']) } else s
    | none => s
  | .actor =>
    let s := s.modCore (coreOf g) fun x => { x with credits := x.credits + 1 }
    { s with cores := s.cores.map fun c => (c.1, { c.2 with inflight := drop c.2.inflight }) }
  | _ => s

/-- The waits of `halt` are over (R93). -/
def haltReady (s : State) (g : Nat) : Bool :=
  let t := s.thread g
  (t.status == .halting || (t.stopping && t.status == .ready)) && s.pause.isNone && pathDone s g .vector &&
    t.k1 == 0 && t.k2 == 0 && t.k3 == 0 && noFill t

/-- A thread ends whose record the owner's agent has: no call for it is left to come, and S no longer services it (R357,
R359). -/
def dropCall (s : State) (g : Nat) : State :=
  let o := (s.thread g).owner
  if (s.owner o).passed.any (·.g == g) then
    endWork (s.modOwner o fun x => { x with passed := x.passed.filter fun r => r.g != g }) (dieOf (tileOf g)) (.trap g)
  else s

/-- The thread ends: its lease and its floes go, its slot is empty, its barrier group and its launch lose a member. A lease
that it has requested stays requested (R249). -/
def finishThread (s : State) (g : Nat) : State :=
  let t := s.thread g
  let b := berthOf (tileOf g)
  let on := floesOn s b
  let s := dropCall (endLeaseOf s g) g
  let s := rputAbandon ((parkHeld s g).setThread g {}) g
  let s := vacate s g false
  let s := s.modLaunch t.launch fun l => { l with live := l.live - 1 }
  let s := barrierCheck s b t.launch
  let s := if on && !floesOn s b then disableFloes s b else s
  launchEndCheck s t.launch

/-- R93. -/
def execHaltCompletion (g : Nat) (s : State) : Outcome State Fault Refusal :=
  if g < Config.threads then .next (if haltReady s g then finishThread s g else s) else .fault .illFormed

/-! ### Stopping (R312, R353, R389) -/

/-- A wait that can be left at an instruction boundary is left: its arrival, watch or place is withdrawn, and what its
first attempt read is as it was, for the next attempt reads it again (R34, R166). A request for a lease is never
withdrawn (R249). -/
def withdraw (s : State) (g : Nat) : State :=
  let t := s.thread g
  match t.status with
  | .parked .barrier =>
    s.modBarrier (barOf s g) fun b => { b with arrivals := b.arrivals.filter fun a => a.g != g }
  | .parked (.flrecv d tag) =>
    abandonPush (s.modTile (tileOf g) fun x => { x with waiters := x.waiters.filter (· != g) }) g d tag
  | .parked (.access id) =>
    match findReq s id with
    | some r =>
      let s := putBackAll (dropReq s id) g r.ops
      match r.pieces with
      | p :: _ => abandonPush s g p.dst id
      | [] => s
    | none => { s with rputs := s.rputs.filter fun x => x.id != id }
  | _ => s

/-- The thread has a request of an instruction that will complete: an access, or a vector or matrix acceptance. -/
def midInstr (s : State) (g : Nat) : Bool :=
  match (s.thread g).status with
  | .parked (.access id) =>
    match findReq s id with
    | some r => !isSigwait r || r.stage == .performed
    | none => false
  | .parked .vaccept | .parked .maccept => true
  | _ => false

/-- The waiters of a barrier that a stopped thread belongs to include it in a generation that is being committed. -/
def committing (s : State) (g : Nat) : Bool :=
  (s.thread g).status == .parked .barrier &&
    ((s.barrier (barOf s g)).releasing ++ (s.barrier (barOf s g)).breaking).any fun a => a.g == g

/-- A thread of a stopped launch stops at its next instruction boundary and ends as `halt` does. -/
def stopThread (s : State) (g : Nat) : State :=
  let t := s.thread g
  if t.status = .empty ∨ t.status = .halting then s
  else if midInstr s g ∨ committing s g then s.setThread g { t with stopping := true }
  else
    let s := landPushes (withdraw s g) g
    s.setThread g { (s.thread g).capture with status := .halting, trapped := none, stopping := true, cut := false }

/-- A launch is stopped with an error code: nothing more is placed, and its threads stop. -/
def stopLaunch (s : State) (lk code : Nat) : State :=
  let l := s.launch lk
  if (mget s.launches lk).isNone ∨ l.done then s
  else if !l.admitted then launchRefused s lk code
  else
    let s := launchError s lk code
    let s := s.modLaunch lk fun l => { l with places := [] }
    let s := { s with dies := s.dies.map fun d =>
      (d.1, { d.2 with waiting := d.2.waiting.filter fun w => w.place.all fun p => p.1 != lk }) }
    launchEndCheck ((launchThreads s lk).foldl stopThread s) lk

/-! ### Pre-emption (R353, R354) -/

/-- R353: Firn swaps a thread out at its instruction boundary, its fixed-latency results written and its stall turns
discarded; its vector instructions have completed. A waiting instruction is attempted again later, but for a barrier, a
lease, an `rput` and a worker's wait, which keep their course; of these the thread keeps the copy of its line, which gives
the successor (R41). An overflow thread takes the slot. -/
def execPreemption (g : Nat) (s : State) : Outcome State Fault Refusal :=
  if g < Config.threads then
    let t := s.thread g
    if tileClosed s (tileOf g) ∨ t.away ∨ t.trapped.isSome ∨ t.status = .empty ∨ t.status = .halting ∨ midInstr s g ∨
        !vectorDone s g ∨ (physOfSlot (s.core (coreOf g)) (slotOf g)).isNone then .next s
    else
      let again : Bool := match t.status with
        | .parked (.access id) => (findReq s id).isSome
        | .parked .barrier | .parked .lease | .parked (.worker _) => false
        | .parked _ => true
        | _ => false
      let s := landPushes (if again then withdraw s g else s) g
      let t := (s.thread g).capture
      .next (vacate (s.setThread g
        { t with away := true, status := if again then .ready else t.status, cut := t.cut && !again
                 port := if again then none else t.port
                 line := if again ∨ t.status = .ready then none else t.line }) g true)
  else .fault .illFormed

/-- Firn restores a thread that it has swapped out (R354): into a free physical slot, or at the tail of the overflow
queue. One that is to issue enters its line anew. -/
def restoreThread (s : State) (g : Nat) : State :=
  let t := s.thread g
  if t.away ∧ !tileClosed s (tileOf g) then
    takePhys (s.setThread g
      { t.notBefore ((s.core (coreOf g)).clock + 1) with
        away := false, line := if t.status = .ready then none else t.line }) g true
  else s

/-! ### The context image (R354) -/

/-- Bit `k` for each `true` of a list, from bit 0. -/
def bitsOf : List Bool → Nat
  | [] => 0
  | b :: l => (if b then 1 else 0) + 2 * bitsOf l

/-- The code of a hint (R354). -/
def Hint.code : Hint → Nat
  | .c => 0 | .m => 1 | .w => 2

/-- What a thread waits for beyond its own registers (R354, bytes 2816 to 2879): its arrival at a barrier, what remains of
its limit, and its release; its request for a lease and whether it is granted; the waiting `rput` and `sigwait`. The places
within the 64 bytes are a DESIGN CHOICE (entry 64). -/
def pendingBytes (s : State) (g : Nat) : List Byte :=
  let t := s.thread g
  let b := s.barrier (barOf s g)
  let arrival := b.arrivals.find? (·.g == g)
  let left := match arrival with
    | some a => a.since + a.limit - s.work
    | none => 0
  let m := (s.tile (tileOf g)).mx
  let asks := m.requests.any fun r => r.who == whoIn s g
  let wait := match t.status with
    | .parked (.access id) => (findReq s id).map fun r => if isSigwait r then 2 else 1
    | _ => none
  bytesOfNat 1 (bitsOf [arrival.isSome, arrival.any (·.timed), b.releasing.any (·.g == g), b.breaking.any (·.g == g)]) ++
    bytesOfNat 7 0 ++ bytesOfNat 8 left ++
    bytesOfNat 1 (bitsOf [asks, m.lease.any (·.holder == g)]) ++ bytesOfNat 7 0 ++
    bytesOfNat 8 (wait.getD 0) ++ bytesOfNat 8 (s.rputs.countP fun x => x.target == g && x.arrived.isSome) ++ bytesOfNat 24 0

/-- The 3,072 bytes of a thread's context image (R354). -/
def contextImage (s : State) (g : Nat) : List Byte :=
  let t := (s.thread g).landAll
  packBytes 8 (0 :: (t.regs.toList.drop 1).map (·.val.toNat)) ++
  bytesOfNat 4 (bitsOf (t.regs.toList.map (·.full))) ++ bytesOfNat 4 (bitsOf (t.regs.toList.map (·.remote))) ++
  bytesOfNat 8 t.pc.toNat ++ bytesOfNat 1 t.rb.toNat ++ bytesOfNat 1 (bitsOf [t.lev0.active, t.lev1.active, t.inner1]) ++
  bytesOfNat 1 (Hint.code t.hint) ++
  bytesOfNat 1 (bitsOf [t.trapped.isSome, match t.status with | .dropped _ _ => true | _ => false,
    match t.status with | .parked _ => true | _ => false]) ++
  packBytes 1 [t.k1.toNat, t.k2.toNat, t.k3.toNat, 0] ++
  packBytes 8 ([t.lev0.count, t.lev0.start, t.lev0.stop, t.lev1.count, t.lev1.start, t.lev1.stop].map BitVec.toNat) ++
  packBytes 16 (t.segs.toList.map Seg.word) ++ packBytes 256 (t.w.toList.map (·.val.toNat)) ++
  packBytes 32 ((t.m.toList.drop 1).map (·.val.toNat)) ++
  bytesOfNat 1 (bitsOf (t.w.toList.map (·.full))) ++ bytesOfNat 1 (bitsOf ((t.m.toList.drop 1).map (·.full))) ++
  bytesOfNat 2 0 ++ bytesOfNat 4 (t.jcell.getD 0xFFFFFFFF) ++ bytesOfNat 8 t.paused ++
  packBytes 8 ((List.range 9).map fun i => ((sysReg t i).getD 0).toNat) ++
  packBytes 8 ((List.finRange 16).map fun i => (identity s t i).toNat) ++ pendingBytes s g ++ bytesOfNat 192 0

/-- The context cache of a tile (R322, R345, R353): the images of its threads that hold no physical slot. It has an entry for
each of the 32 architectural slots, so none spills to the backing region. -/
def contextCache (s : State) (T : Nat) : List (Nat × List Byte) :=
  ((List.range 32).map (32 * T + ·)).filterMap fun g =>
    if live s g ∧ !(s.core (coreOf g)).phys.contains (some (slotOf g)) then some (g, contextImage s g) else none

/-! ### Trapped threads (R355, R359) -/

/-- The owner's agent has the record of the trapped thread, and S runs: the agent's call for it can be carried out (R359). -/
def callStands (s : State) (g : Nat) : Bool :=
  let t := s.thread g
  (s.die (dieOf (tileOf g))).running && (s.owner t.owner).agentPolicy && t.trapped.isSome &&
    (s.owner t.owner).passed.any (·.g == g)

/-- The call of an agent for a thread that is not trapped, or that has ended, receives an error, and changes nothing (R359).
R359 says so of a call to resume: the model answers a call to end such a thread in the same way, and a call for a trapped
thread whose copy has not been passed yet does nothing (DESIGN CHOICE, entry 117). -/
def callRefused (s : State) (g : Nat) : State :=
  let o := berthOwner s (berthOf (tileOf g))
  if (s.die (dieOf (tileOf g))).running ∧ (s.owner o).agentPolicy ∧ (s.thread g).trapped.isNone then
    s.modOwner o fun x => { x with call := some false }
  else s

/-- The call of an agent for a thread has been carried out. -/
def callDone (s : State) (g : Nat) : State :=
  endWork (s.modOwner (s.thread g).owner fun x =>
    { x with call := some true, passed := x.passed.filter fun r => r.g != g }) (dieOf (tileOf g)) (.trap g)

/-- R354, R355, R359: at its agent's call a trapped thread is restored at its resume pc or at a pc that is supplied. -/
def execTrappedThreadResume (g : Nat) (pc : Option Word) (s : State) : Outcome State Fault Refusal :=
  if g < Config.threads then
    let t := s.thread g
    match t.trapped with
    | some r =>
      if !callStands s g ∨ tileClosed s (tileOf g) then .next s
      else
        let s := callDone s g
        .next (takePhys (s.setThread g { t.notBefore ((s.core (coreOf g)).clock + 1) with
          trapped := none, away := false, pc := pc.getD r, line := none, status := .ready }) g true)
    | none => .next (callRefused s g)
  else .fault .illFormed

/-- A trapped thread ends as a fatal trap ends it, with no further record (R355). -/
def endTrapped (s : State) (g : Nat) : State :=
  let t := s.thread g
  if t.trapped.isNone then s
  else (launchError s t.launch 0x11).setThread g { t with trapped := none, status := .halting }

/-- R355, R359: at its agent's call a trapped thread ends. -/
def execTrappedThreadEnd (g : Nat) (s : State) : Outcome State Fault Refusal :=
  if g < Config.threads then
    .next (if callStands s g then endTrapped (callDone s g) g else callRefused s g)
  else .fault .illFormed

/-! ### The service of trap records (R347, R359) -/

/-- R347: a held record is appended when there is room for it. -/
def execTrapRecordAppend (o : Nat) (s : State) : Outcome State Fault Refusal :=
  if 1 ≤ o ∧ o ≤ Config.owners then
    let x := s.owner o
    match x.tqHeld with
    | r :: l => .next (if x.tqTail - x.tqHead < 248 then tqAppend (s.setOwner o { x with tqHeld := l }) o r else s)
    | [] => .next s
  else .fault .illFormed

/-- S takes the record at the head of an owner's trap queue (R357). -/
def takeTrap (s : State) (o : Nat) : State :=
  match (s.owner o).tqRecs with
  | r :: _ =>
    let d := dieOf (tileOf r.g)
    if (s.die d).running ∧ (s.die d).delegated.getLsbD 1 ∧ !(s.die d).servicing.any (fun x => x.work == .trap r.g) then
      takeWork s d { owner := o, work := .trap r.g, bytes := r.bytes }
    else s
  | [] => s

/-- R359: S acts on the record at the head by the owner's policy, and head advances: a replayable record ends its thread,
or a copy of it is passed to the owner's agent, at whose call S will resume or end the thread. -/
def execTrapRecordService (o : Nat) (s : State) : Outcome State Fault Refusal :=
  if 1 ≤ o ∧ o ≤ Config.owners then
    let x := s.owner o
    match x.tqRecs with
    | [] => .next s
    | r :: l =>
      if !(s.die (dieOf (tileOf r.g))).running then .next s
      else
        let s := takeTrap s o
        let held : Bool := !r.fatal && (s.thread r.g).trapped == some r.resume
        let s :=
          if held && x.agentPolicy then s.modOwner o fun x => { x with passed := x.passed ++ [r] }
          else endWork (if held then endTrapped s r.g else s) (dieOf (tileOf r.g)) (.trap r.g)
        .next (tqMirror (s.modOwner o fun x => { x with tqHead := x.tqHead + 1, tqRecs := l }) o)
  else .fault .illFormed

end Sys2Proof.Machine
end

