-- ==== Sys2Proof/Machine/Power.lean ====
section
/-! DEFINITION. Power (spec/16_power_drift_class.md R306 to R318, R335 to R338): the instructions of the class, the tick
of Sluice, pinned admission, ballast and retention gating. Powers in milliwatts, temperatures in thousandths of a
degree. -/

namespace Sys2Proof.Machine

open Host (Outcome)

/-! ### Instructions (R336 to R338) -/

/-- R336. -/
def execPhase (st : Stall) (k : Hint) (s : State) : Outcome State Fault Refusal :=
  runInstr s s.cur false fun s c =>
    .ok (retire (s.modThread s.cur fun t => { t with hint := k }) s.cur c st false none)

/-- R337. -/
def execPcnt (st : Stall) (stagger : Bool) (d : RegNum) (s : State) : Outcome State Fault Refusal :=
  runInstr s s.cur false fun s c =>
    let x := s.tile (tileOf s.cur)
    compute s s.cur c st 4 [] d fun _ => .ok (if stagger then x.stagger else x.ballast)

/-- The words of `dstate` (R338). -/
def dstateWord (s : State) (g : Nat) (pause : Bool) : Word :=
  if pause then BitVec.ofNat 64 (s.thread g).paused
  else BitVec.ofNat 32 s.epochs ++ BitVec.ofNat 32 (s.timebase - s.lastResume)

/-- R338. -/
def execDstate (st : Stall) (pause : Bool) (d : RegNum) (s : State) : Outcome State Fault Refusal :=
  runInstr s s.cur false fun s c =>
    compute s s.cur c st 4 [] d fun _ => .ok (dstateWord s s.cur pause)

/-! ### Operating points (R311 to R314) -/

/-- Core clocks of a point in a tick (R313). -/
def pointClocks (p : Fin 4) : Nat :=
  match p with
  | 0 => 1300 | 1 => 1100 | 2 => 900 | 3 => 650

/-- Ballast steps of a point in a tick (R310). -/
def pointSteps (p : Fin 4) : Nat := pointClocks p / 4

/-- The point that a hint asks for (R314). -/
def hintPoint : Hint → Fin 4
  | .c => 0 | .m => 1 | .w => 3

/-- The request of a tile: the highest of those of its live threads (R314). -/
def tileRequest (s : State) (T : Nat) : Fin 4 :=
  s.threads.foldl (fun p t => if tileOf t.1 = T ∧ t.2.status != .empty then min p (hintPoint t.2.hint) else p) 3

/-- A point `n` below `p`. -/
def pointBelow (p : Fin 4) (n : Nat) : Fin 4 := ⟨min 3 (p.val + n), by omega⟩

/-- A placement of an admitted deterministic launch waits for a slot of the tile (R314). -/
def detPending (s : State) (T : Nat) : Bool :=
  s.launches.any fun p => p.2.det && p.2.admitted && !p.2.done && p.2.places.any fun q =>
    q.fixed.any fun i => (ownerThread s p.2.owner i).any fun g => tileOf g == T

/-- The tile runs at P0 and is never lowered: it holds a deterministic thread, or is to receive one (R314, R334). -/
def heldHigh (s : State) (T : Nat) : Bool := tileDet s T || detPending s T

/-- The point that Sluice chooses for a tile (R311, R312, R314). -/
def wantedPoint (s : State) (T : Nat) : Fin 4 :=
  if heldHigh s T then 0
  else
    let x := s.tile T
    pointBelow (if x.hot then max 2 (tileRequest s T) else tileRequest s T) x.lowered

/-- Power that a tile loses by a change of point, by its measured power in proportion to the clock. -/
def pointFall (x : Tile) (p : Fin 4) : Nat :=
  if x.point < p then x.power * (pointClocks x.point - pointClocks p) / pointClocks x.point else 0

/-- The points of a die's tiles change at the tick boundary; a tile is held where lowering it would exceed what is left of
the die's share of the fall limit, `limit` eighths (R314). -/
def setPoints (s : State) (limit : Nat) : List Nat → State
  | [] => s
  | T :: l =>
    let p := wantedPoint s T
    let fall := pointFall (s.tile T) p
    if inShare limit fall then setPoints (s.modTile T fun x => { x with point := p }) (limit - 8 * fall) l
    else setPoints s limit l

/-- Tiles that State lists, and those that hold a thread: every other tile is as after reset, idle and at P3 (R314). -/
def activeTiles (s : State) : List Nat := (s.tiles.map (·.1) ++ s.threads.map fun p => tileOf p.1).eraseDups

/-- Those of a die. -/
def listedTiles (s : State) (d : Nat) : List Nat := (activeTiles s).filter fun T => dieOf T == d

/-! ### Marks (R311) -/

/-- A sensor reading of a tile: temperature and power, and the marks that follow. -/
def readSensor (s : State) (r : Nat × Nat × Nat) : State :=
  s.modTile r.1 fun x =>
    { x with
      temp := r.2.1, power := r.2.2
      hot := if s.param 7 ≤ r.2.1 then true else if r.2.1 + 5000 < s.param 7 then false else x.hot
      overBudget := if s.param 6 < r.2.2 then true else if 10 * r.2.2 < 9 * s.param 6 then false else x.overBudget }

/-! ### Ballast (R309, R310) -/

/-- An idle array (R309). -/
def arrayIdle (x : Tile) : Bool :=
  x.mx.lease.isNone && x.mx.queue.isEmpty && x.mx.issued.isEmpty && x.gated.isNone

/-- The idle arrays of a die, those that can carry the fewest steps first. -/
def idleArrays (s : State) (d : Nat) : List Nat :=
  let all := ((List.range 240).map (240 * d + ·)).filter fun T => arrayIdle (s.tile T)
  [3, 2, 1, 0].flatMap fun p => all.filter fun T => (s.tile T).point == p

/-- Spread `n` steps as evenly as the arrays allow; what none can carry is left. -/
def spreadSteps (s : State) (n : Nat) : List Nat → State × Nat
  | [] => (s, n)
  | T :: l =>
    let k := min (pointSteps (s.tile T).point) ((n + l.length) / (l.length + 1))
    spreadSteps (if k = 0 then s else s.modTile T fun x => { x with steps := k }) (n - k) l

/-- The tile that arrives at the site of tile `T` in the next shift (R16, R319, R328). -/
def arriving (s : State) (T : Nat) : Nat :=
  let home := ((stripOf s T).val + 5 - (s.epochs + 1) % 5) % 5
  (dieOf T * 5 + home) * 48 + T % 48

/-- An idle array runs `n` ballast steps of its tick; in a pause they count for the tile that arrives at the site (R310). -/
def runSteps (s : State) (T n : Nat) : State :=
  let x := s.tile T
  let n := min n x.steps
  if n = 0 ∨ !arrayIdle x then s
  else
    let s := s.setTile T { x with steps := x.steps - n }
    s.modTile (if s.pause.isSome then arriving s T else T) fun y => { y with ballast := y.ballast + BitVec.ofNat 64 (4 * n) }

/-- The tick of a die is over: the steps that its arrays had still to run have been run (R310). -/
def endSteps (s : State) (d : Nat) : State :=
  (s.tiles.map (·.1)).foldl (fun s T =>
    if dieOf T = d then (runSteps s T (s.tile T).steps).modTile T fun x => { x with steps := 0 } else s) s

/-- The level of a die after a tick in which it measured `mW`, in eighths of a milliwatt, the fall share being `fall`
eighths (R309): ticks that have passed without the event are ticks with the power measured last (entry 110, DESIGN
CHOICE). -/
def Die.levelAt (x : Die) (now fall mW : Nat) : Nat :=
  max (8 * mW) (max (8 * x.measured) (x.level - (now - x.ticked - 1) * fall) - fall)

/-- Level, ballast and ramp misses of a die for the power that it measured (R309). -/
def ballastTick (s : State) (d mW : Nat) : State :=
  let level := (s.die d).levelAt (sluiceNow s) (s.param 1) mW
  let s := endSteps s d
  let n := (325 * (level - 8 * mW) + 8 * s.param 4 - 1) / (8 * s.param 4)
  let r := spreadSteps s n (idleArrays s d)
  r.1.modDie d fun x =>
    { x with level := level, measured := mW, rampMiss := if r.2 = 0 then x.rampMiss else x.rampMiss + 1 }

/-! ### The envelope (R312) -/

/-- The module's measured power. -/
def modulePower (s : State) : Nat := s.dies.foldl (fun n d => n + d.2.measured) 0

/-- Insert a tile behind those of at least its power. -/
def insertHot (s : State) (T : Nat) : List Nat → List Nat
  | [] => [T]
  | x :: l => if (s.tile T).power ≤ (s.tile x).power then x :: insertHot s T l else T :: x :: l

/-- Tiles that hold no deterministic thread, by falling power. -/
def byPower (s : State) : List Nat :=
  ((s.tiles.map (·.1)).filter fun T => !heldHigh s T).foldl (fun l T => insertHot s T l) []

/-- Tiles are lowered by one point until the estimate is under the envelope; the estimate that is reached. A tile that is
still to come down, which the fall share has held, is not lowered again. A tile that State does not list is at P3 and cannot
be lowered. -/
def lowerTiles (s : State) (est : Nat) : List Nat → State × Nat
  | [] => (s, est)
  | T :: l =>
    if est < s.param 5 then (s, est)
    else
      let x := s.tile T
      if x.point = 3 then lowerTiles s est l
      else if x.point < wantedPoint s T then lowerTiles s (est - pointFall x (wantedPoint s T)) l
      else lowerTiles (s.modTile T fun x => { x with lowered := x.lowered + 1 }) (est - pointFall x (pointBelow x.point 1)) l

/-- Lowered tiles are raised by one point while the estimate stays below 95 % of the envelope. -/
def raiseTiles (s : State) (est : Nat) : List Nat → State
  | [] => s
  | T :: l =>
    let x := s.tile T
    if x.lowered = 0 then raiseTiles s est l
    else
      let up := x.power * (pointClocks (x.point - 1) - pointClocks x.point) / pointClocks x.point
      if 100 * (est + up) < 95 * s.param 5 then
        raiseTiles (s.modTile T fun x => { x with lowered := x.lowered - 1 }) (est + up) l
      else raiseTiles s est l

/-- A launch has been stopped: nothing of it is placed, and its threads are ending. -/
def launchStopped (s : State) (lk : Nat) : Bool :=
  (s.launch lk).places.isEmpty && (launchThreads s lk).all fun g => (s.thread g).stopping || (s.thread g).status == .halting

/-- The deterministic launch that started last, of those that have not been stopped. -/
def lastDet (s : State) : Option Nat :=
  (s.launches.foldl (fun (b : Option (Nat × Nat)) p =>
    if p.2.det ∧ p.2.started ∧ !p.2.done ∧ !launchStopped s p.1 ∧ b.all (fun x => x.2 < p.2.order) then some (p.1, p.2.order) else b)
    none).map (·.1)

/-- R312: the module's rule, applied with the primary die's tick. -/
def envelopeTick (s : State) : State :=
  let l := byPower s
  if s.param 5 < modulePower s then
    let r := lowerTiles s (modulePower s) l
    if s.param 5 < r.2 ∧ l.all (fun T => (s.tile T).point == 3) then
      match lastDet r.1 with
      | some lk => stopLaunch r.1 lk 0x22
      | none => r.1
    else r.1
  else raiseTiles s (modulePower s) l

/-- Launches with a deterministic thread on a tile of the die at 115 °C or more (R312). -/
def thermalStops (s : State) (d : Nat) : List Nat :=
  ((s.threads.filter fun t =>
    t.2.status != .empty && t.2.det && dieOf (tileOf t.1) == d && decide (115000 ≤ (s.tile (tileOf t.1)).temp)).map
      fun t => t.2.launch).eraseDups

/-! ### Gating (R315 to R317) -/

/-- A thread does not keep its tile from being idle (R315). -/
def threadIdle (s : State) (t : Thread) : Bool :=
  (match t.status with
    | .empty => true
    | .parked (.worker _) | .parked (.flrecv _ _) | .parked .barrier => true
    | .parked (.access id) => (findReq s id).any isSigwait
    | _ => false) && noFill t && t.port.isNone

/-- R315. -/
def tileIdle (s : State) (T : Nat) : Bool :=
  let x := s.tile T
  s.threads.all (fun t => tileOf t.1 != T || threadIdle s t.2) &&
    s.traffic.all (fun r => r.tile != T || isSigwait r) &&
    x.chans.toList.all (fun c => c.queue.isEmpty && c.runs.isEmpty) && x.vrun.isEmpty &&
    x.mx.queue.isEmpty && x.mx.issued.isEmpty && x.mx.requests.isEmpty &&
    (List.range 4).all (fun c => (s.core (4 * T + c)).vq.isEmpty) &&
    x.slots.toList.all (fun y => y != .landed && (match y with | .outbound _ => false | _ => true)) &&
    x.landing.isEmpty && x.appended == x.refilled && x.refill.isNone && x.back.isNone && s.floes.all fun f => !(f.src == T && f.dest == 0xFFFF)

/-- Tiles that are not idle are seen as busy at the present tick (R315). -/
def watchIdle (s : State) : State :=
  (activeTiles s).foldl (fun s' T => if tileIdle s T then s' else s'.modTile T fun x => { x with busyAt := s.timebase }) s

/-- R306: a tick of a die's Sluice unit, once at each multiple of 250 ticks, with the power it measured and the readings of
its sensors: tile, temperature, power. -/
def execSluiceTick (d mW : Nat) (sensors : List (Nat × Nat × Nat)) (s : State) : Outcome State Fault Refusal :=
  if d < Config.dies then
    if s.timebase % Config.sluiceTicks ≠ 0 ∨ sluiceNow s ≤ (s.die d).ticked then .next s
    else
      let s := (sensors.filter fun r => dieOf r.1 == d).foldl readSensor s
      let s := (ballastTick s d mW).modDie d fun x => { x.inTick (sluiceNow s) with ticked := sluiceNow s }
      let s := (thermalStops s d).foldl (fun s lk => stopLaunch s lk 0x23) s
      let s := if d = s.primary then envelopeTick s else s
      .next (setPoints s (s.param 1) (listedTiles s d))
  else .fault .illFormed

/-- R315: Sluice gates a tile that has been idle for 12,500 ticks. -/
def execTileGate (T : Nat) (s : State) : Outcome State Fault Refusal :=
  if T < Config.tiles then
    let x := s.tile T
    if x.gated.isSome ∨ tileDet s T ∨ s.pause.isSome ∨ !tileIdle s T ∨ s.timebase < x.busyAt + 12500 then .next s
    else .next (s.setTile T { x with gated := some s.timebase, wake := false, held := [] })
  else .fault .illFormed

/-- The running copy of a channel reads next from the store of tile `T`. -/
def Chan.readsFrom (s : State) (T' T : Nat) (k : Chan) : Bool :=
  (k.runs.find? fun x => !x.handed).any fun x =>
    let a := x.readAddr s T'
    region a == .window && windowOk s x.owner a && (windowTile s x.owner a).1 == T

/-- A thread waits to read the store of tile `T`. -/
def Thread.readsFrom (T : Nat) (t : Thread) : Bool :=
  match t.status with
  | .parked (.needs l) => l.contains (.awake T)
  | _ => false

/-- A COPY of an inlet that moves. -/
def runningCopy (x : Inlet) : Option Pkt := x.live.find? fun p => match p with
  | .copy _ _ _ _ _ _ _ stuck _ => !stuck
  | _ => false

/-- The running COPY of an inlet moves its next unit from or to the store of tile `T`. -/
def Inlet.copyAt (s : State) (T : Nat) (x : Inlet) : Bool :=
  match runningCopy x with
  | some (.copy _ src dst len next _ _ _ _) =>
    decide (next < len) && [src, dst].any fun a =>
      let b := a + BitVec.ofNat 64 next
      region b == .window && windowOk s x.owner b && (windowTile s x.owner b).1 == T
  | _ => false

/-- Something is aimed at a gated tile (R316). -/
def wakeNeeded (s : State) (T : Nat) : Bool :=
  let aimed (key : Nat) : Bool := decide (2 ^ 52 ≤ key) && (key - 2 ^ 52) / 2 ^ 21 == T
  !(s.tile T).held.isEmpty || s.traffic.any (fun r => (r.stage == .sent && aimed r.key) || (r.stage == .performed && r.tile == T)) ||
    s.rputs.any (fun x => tileOf x.target == T) ||
    (List.range 4).any (fun c =>
      let x := s.core (4 * T + c)
      x.flight.toList.any (fun l => !l.isEmpty) || !x.inflight.isEmpty || x.returning != 0) ||
    s.floes.any (fun f => f.dest != 0xFFFF && f.tile == T) || s.inlets.any (fun x => x.2.copyAt s T) ||
    s.threads.any (fun t => t.2.status == .parked (.worker true) && tileOf t.1 != T &&
      (t.2.pass.isEmpty || t.2.pass.head?.any fun v => v / 4 == T) && (launchThreads s t.2.launch).any fun g => tileOf g == T) ||
    s.tiles.any (fun x => x.2.chans.toList.any (·.readsFrom s x.1 T)) || s.threads.any (·.2.readsFrom T) ||
    s.tiles.any (fun x => (nextPlaced s x.1).any fun y => tileOf y.2.2.2 == T) ||
    s.launches.any (fun p => (nextPlace s p.1).any fun y => tileOf y.2 == T) ||
    s.barriers.any fun b =>
      (!b.2.committing && b.2.releasing.any fun a => tileOf a.g == T) || b.2.breaking.any (fun a => tileOf a.g == T) ||
        b.2.arrivals.any fun a => tileOf a.g == T && a.expired s.work

/-- A tile whose hold has ended joins its die's in-rush FIFO. -/
def joinInrush (s : State) (T : Nat) : State :=
  s.modDie (dieOf T) fun d =>
    if d.inrush.any (·.1 == T) then d else { d with inrush := d.inrush ++ [(T, s.timebase)] }

/-- The half tick at which the arbiter of a die grants the first of its FIFO: when it has joined, the period of the grant
before is over, and no pause is on (R317). -/
def Die.grantAt (x : Die) (lastResume joined : Nat) : Nat := max x.inrushFree (2 * max joined lastResume)

/-- The hold of a gated tile is over. -/
def holdOver (s : State) (T : Nat) : Bool := (s.tile T).gated.any fun t => decide (t + 5000 ≤ s.timebase)

/-- R316: something arrives at a gated tile: it asks for a wake, which waits while the hold lasts. -/
def execTileWakeRequest (T : Nat) (s : State) : Outcome State Fault Refusal :=
  if T < Config.tiles then
    if (s.tile T).gated.isNone ∨ !wakeNeeded s T then .next s
    else
      let s := s.modTile T fun x => { x with wake := true }
      .next (if holdOver s T then joinInrush s T else s)
  else .fault .illFormed

/-- R316: the hold of a gated tile ends; a wake that waited joins the FIFO. -/
def execGateHoldExpiry (T : Nat) (s : State) : Outcome State Fault Refusal :=
  if T < Config.tiles then .next (if holdOver s T ∧ (s.tile T).wake then joinInrush s T else s)
  else .fault .illFormed

/-- R317: the in-rush arbiter grants the first wake; the tile runs from the grant. -/
def execInrushGrant (d : Nat) (s : State) : Outcome State Fault Refusal :=
  if d < Config.dies then
    let x := s.die d
    match x.inrush with
    | [] => .next s
    | (T, joined) :: l =>
      let due := x.grantAt s.lastResume joined
      if x.inrushBusy ∨ s.pause.isSome ∨ 2 * s.timebase < due then .next s
      else
        let s := s.setDie d { x with inrush := l, inrushBusy := true, inrushFree := due + 125 }
        .next (s.modTile T fun y => { y with gated := none, wake := false, busyAt := s.timebase })
  else .fault .illFormed

/-- R317: 250 ns, 62.5 ticks, after its grant the arbiter is free. -/
def execInrushPeriodEnd (d : Nat) (s : State) : Outcome State Fault Refusal :=
  if d < Config.dies then
    let x := s.die d
    .next (if x.inrushBusy ∧ x.inrushFree ≤ 2 * s.timebase then s.setDie d { x with inrushBusy := false } else s)
  else .fault .illFormed

/-- R310: an idle array runs a ballast step of its tick. -/
def execBallastStep (T : Nat) (s : State) : Outcome State Fault Refusal :=
  if T < Config.tiles then .next (runSteps s T 1) else .fault .illFormed

/-! ### Pinned admission (R308) -/

/-- The placements of a launch with the slots that the dispenser chooses now, in the order of R377, among those that
are empty; a placement for which there is none stays without. -/
def chosenPlaces (s : State) (l : Launch) : List Place :=
  let free := emptySlots s l
  (l.places.zipIdx).map fun p =>
    match p.1.fixed with
    | some _ => p.1
    | none => { p.1 with fixed := free[p.2]?.map fun g => 32 * logicalTile s (tileOf g) + g % 32 }

/-- The tiles of a launch's placements; one without a slot counts on the tile of ⌊base / 32⌋. -/
def plannedTiles (s : State) (l : Launch) : List Nat :=
  (chosenPlaces s l).map fun p => tileOf ((ownerThread s l.owner (p.fixed.getD (l.base / 32 * 32))).getD 0)

/-- The cost of a launch on a die. -/
def pinnedCost (s : State) (tiles : List Nat) (d : Nat) : Nat :=
  let l := tiles.filter fun T => dieOf T == d
  s.param 2 * l.length + s.param 3 * l.eraseDups.length

/-- A placement of an admitted launch is made at once where its slot is empty: ahead of every unpinned grant, after a
pinned launch that is taken before it and waits for the slot (R308, R377). -/
def placeNow (lk : Nat) (s : State) (p : Place) : State :=
  match placeSlot s (s.launch lk) p with
  | some g =>
    let sooner := s.launches.any fun q =>
      q.1 != lk && launchPinned s q.1 && launchBefore s q.2 (s.launch lk) && (nextPlace s q.1).any fun x => x.2 == g
    if tileClosed s (tileOf g) ∨ sooner ∨ (openPlaces (s.launch lk)).all (fun q => q.k != p.k) then s
    else placeThread s lk p g
  | none => s

/-- The tick boundary at which a pinned launch is admitted or refused: the first after it has reached the head of its inlet
(R308). -/
def admissionTick (l : Launch) : Nat := (l.start / Config.sluiceTicks + 1) * Config.sluiceTicks

/-- A pinned launch that is taken before this one waits for the same boundary (R377). -/
def admittedLater (s : State) (lk : Nat) : Bool :=
  s.launches.any fun p =>
    p.1 != lk && launchPinned s p.1 && !p.2.admitted && !p.2.done && decide (admissionTick p.2 ≤ s.timebase) &&
      launchBefore s p.2 (s.launch lk)

/-- R308: a pinned launch is admitted or refused at its tick boundary, which no tick passes (moveTick). -/
def execPinnedLaunchAdmission (lk : Nat) (s : State) : Outcome State Fault Refusal :=
  let l := s.launch lk
  if (mget s.launches lk).isNone ∨ l.admitted ∨ l.done ∨ !launchPinned s lk ∨ s.timebase ≠ admissionTick l ∨
      admittedLater s lk then .next s
  else
    let places := chosenPlaces s l
    let tiles := plannedTiles s l
    if (List.range Config.dies).any fun d => !inShare (s.param 0) (pinnedCost s tiles d) then .next (launchRefused s lk 0x21)
    else
      let n := sluiceNow s
      let s := ((List.range Config.dies).filter fun d => pinnedCost s tiles d != 0).foldl (fun s' d =>
        s'.modDie d fun x => (x.inTick n).charge (s.param 0) (pinnedCost s tiles d)) s
      let s := s.modLaunch lk fun l => { l with admitted := true, places := places }
      let s := if l.det then tiles.eraseDups.foldl (fun s T => s.modTile T fun x => { x with point := 0 }) s else s
      .next ((places.mergeSort fun a b => b.stage ≤ a.stage).foldl (placeNow lk) s)

end Sys2Proof.Machine
end

