-- ==== Sys2Proof/Machine/Drift.lean ====
section
/-! DEFINITION. The Drift (spec/16_power_drift_class.md R319 to R334, spec/17 R354, spec/21 R394, R395): freeze, drain,
shift, resume and calibration mode. Tiles keep their names, so a shift moves only the sites that hold them. -/

namespace Sys2Proof.Machine

open Host (Outcome)

/-- The tick of the next freeze (R319). -/
def freezeTick (s : State) : Nat := (s.epochs + 1) * 2 ^ s.log2E

/-! ### Sites (R8, R16, R322) -/

/-- The physical row of a logical row of a column (R8): the failed site is skipped; without one the southernmost site is the
spare. -/
def physRow (failed row : Nat) : Nat := if row < failed then row else row + 1

/-- The logical row that stands on a physical row, none on the failed or the spare site. -/
def logicalRow (failed row : Nat) : Option Nat :=
  if row = failed then none else if failed < row then some (row - 1) else if row = 12 then none else some row

/-- The failed row of a column of a die. -/
def failedRow (s : State) (d column : Nat) : Nat := ((s.die d).repair.toList.getD column 13).val

/-- Key of the site of a core in its die's slot counts: column × 13 + physical row, then core. -/
def siteKey (s : State) (core : Nat) : Nat :=
  let T := core / 4
  let column := (stripOf s T).val * 4 + colOf T
  (column * 13 + physRow (failedRow s (dieOf T) column) (rowOf T)) * 4 + core % 4

/-- Physical slots of the site that holds a core. -/
def siteSlots (s : State) (core : Nat) : Nat := (mget (s.die (dieOf (core / 4))).slots (siteKey s core)).getD 8

/-- The core that stands at a site of a die, if any does. -/
def siteCore (s : State) (d key : Nat) : Option Nat :=
  let column := key / 52
  let home := (column / 4 + 5 - (s.die d).phase.val) % 5
  (logicalRow (failedRow s d column) (key / 4 % 13)).map fun row =>
    4 * ((d * 5 + home) * 48 + row * 4 + column % 4) + key % 4

/-- Cores that State lists, and those at sites whose slot count is listed. -/
def coresToFill (s : State) : List Nat :=
  (s.cores.map (·.1) ++ s.dies.flatMap fun d => d.2.slots.filterMap fun p => siteCore s d.1 p.1).eraseDups

/-- The slots of a core are filled anew (R322): threads that were resident in ascending slot, then the queue; who finds no
slot joins the tail. -/
def refillCore (s : State) (c : Nat) : State :=
  let x := s.core c
  let n := siteSlots s c
  let here := (List.range 8).filter fun k => x.phys.contains (some k) && !slotIdle s c k
  let taken := (here ++ x.overflow).take n
  let entering := taken.drop here.length
  let phys := taken.map some ++ List.replicate (n - taken.length) none
  let since := (List.range n).foldl (fun m p =>
    if x.phys.getD p none = phys.getD p none then m else mput m p x.clock) x.since
  let y : Core :=
    { x with phys := phys, swap := [], since := since, overflow := x.overflow.drop entering.length ++ here.drop n }
  let s := s.setCore c (if x.overflow.isEmpty ∧ !y.overflow.isEmpty then y.startPeriods else y)
  entering.foldl (fun s k => s.modThread (8 * c + k) fun t => { t with turns := 0 }) s

/-! ### Freeze, drain, shift (R324 to R328) -/

/-- A swap in progress ends before its core has reached its boundary (R353). -/
def endSwaps (s : State) : State :=
  s.cores.foldl (fun s p =>
    p.2.swap.foldl (fun s e =>
      match p.2.phys.getD e.1 none with
      | some k => s.modThread (8 * p.1 + k) fun t => { t with turns := 0 }
      | none => s) (s.modCore p.1 fun x => { x with swap := [] })) s

/-- R319, R324: at its tick every die freezes and drains; every thread is captured, and every result bound for a queue is
written (R46). -/
def execDriftFreeze (s : State) : Outcome State Fault Refusal :=
  if s.pause.isSome ∨ !s.booted ∨ s.timebase ≠ freezeTick s then .next s
  else
    let s := mapPushes (endSwaps s) fun p => p.land (s.core (coreOf p.g)).clock
    .next ((List.range Config.dies).foldl (fun s d => s.modDie d fun x => { x with drift := .draining })
      { s with pause := some { freeze := s.timebase }
               threads := s.threads.map fun p => (p.1, if p.2.status = .empty then p.2 else p.2.capture) })

/-- The answer of a request is collected by whoever made it (R130, R131, R333). -/
def Req.collected (r : Req) : Bool :=
  match r.by_ with
  | .ordinary | .relaxed | .fetch | .walk _ | .commit _ | .copy _ _ => true
  | _ => false

/-- A request keeps the drain of its die going: at the memory side and not answered (R325); an answer that calibration
mode holds back does not count (R394), nor one for a gated tile, which takes none in a pause (R316). -/
def keepsDrain (s : State) (d : Nat) (r : Req) : Bool :=
  dieOf r.tile == d && decide (r.key < 2 ^ 52) && r.size != 0 && !isSigwait r && !behindHeld s r s.traffic &&
    (r.stage == .sent ||
      (r.stage == .performed && decide (r.due ≤ s.work) && r.collected && (s.tile r.tile).gated.isNone))

/-- What a port reads is on its way: it is not performed yet (R325, R394). -/
def portOut (p : Option Port) : Bool := p.any (·.view.isNone)

/-- A thread waits for a walk that ends in this drain, or its port's request is on its way; the tables that calibration mode
has read one at a time are requests of their own. -/
def threadKeepsDrain (s : State) (g : Nat) (t : Thread) : Bool :=
  portOut t.port || (match t.status with
    | .parked (.walk a _) => !walkReading s g a
    | _ => false)

/-- What the ports of a tile read is on its way: for its floes, its dispenser, its channels. -/
def tileKeepsDrain (x : Tile) : Bool :=
  portOut x.refill || portOut x.back || x.chans.toList.any fun k => k.runs.any fun y => portOut y.port

/-- R226, R324, R325: the vector units have completed what they had accepted, stores included, and every request of the die's
tiles at the memory side has been answered. -/
def drained (s : State) (d : Nat) : Bool :=
  !(s.traffic.any fun r => keepsDrain s d r || (dieOf r.tile == d && r.path == .vector)) &&
    !(s.threads.any fun p => dieOf (tileOf p.1) == d && threadKeepsDrain s p.1 p.2) &&
    !(s.floes.any fun f => dieOf f.src == d && portOut f.port) &&
    s.tiles.all fun p => dieOf p.1 != d || (p.2.vrun.isEmpty && !tileKeepsDrain p.2)

/-- R325. -/
def execDriftDrainEnd (d : Nat) (s : State) : Outcome State Fault Refusal :=
  if d < Config.dies then
    .next (if s.pause.isSome ∧ (s.die d).drift = .draining ∧ drained s d then
      s.modDie d fun x => { x with drift := .shifting } else s)
  else .fault .illFormed

/-- R328: the die's tiles stand at their new sites. -/
def execDriftShiftEnd (d : Nat) (s : State) : Outcome State Fault Refusal :=
  if d < Config.dies then
    .next (if s.pause.isSome ∧ (s.die d).drift = .shifting then
      s.modDie d fun x => { x with drift := .reported, reportAt := s.timebase } else s)
  else .fault .illFormed

/-! ### Resume (R319, R320, R322, R326, R329, R331, R395) -/

/-- Every die has reported the end of its shift. -/
def allReported (s : State) : Bool := (List.range Config.dies).all fun d => (s.die d).drift == .reported

/-- A deterministic thread is live. -/
def detLive (s : State) : Bool := s.threads.any fun p => p.2.status != .empty && p.2.det

/-- What a resume changes in a thread: the ticks of the pause are added (R338). -/
def addPause (n : Nat) (t : Thread) : Thread := if t.status = .empty then t else { t with paused := t.paused + n }

/-- The module resumes: the phase, the epoch count, the slots of the new sites, empty first-level TLBs. -/
def resumeAll (s : State) (freeze : Nat) : State :=
  let n := s.timebase - freeze
  let k := s.epochs + 1
  let s := (List.range Config.dies).foldl (fun s d =>
    s.modDie d fun x => { x with drift := .running, phase := ⟨k % 5, by omega⟩ }) s
  let s := { s with
    pause := none, epochs := k, lastResume := s.timebase
    threads := s.threads.map fun p => (p.1, addPause n p.2)
    cores := s.cores.map fun p => (p.1, { p.2 with tlb := [] }) }
  (coresToFill s).foldl refillCore s

/-- The first tick boundary after the last report of the end of a shift (R329). -/
def afterReports (s : State) : Nat := (List.range Config.dies).foldl (fun m d => max m ((s.die d).reportAt + 1)) 0

/-- The tick at which a pause that began at `freeze` resumes, once every die has reported: with a deterministic thread live
not before 2,500 ticks (R329, R331). -/
def resumeTick (s : State) (freeze : Nat) : Nat :=
  if detLive s then max (afterReports s) (freeze + 2500) else afterReports s

/-- The resume can be broadcast: all dies have reported, and the primary's complex runs, for else its successor takes its
place first (R329, R364). -/
def canResume (s : State) : Bool := allReported s && (s.die s.primary).running

/-- R329: the primary's controller broadcasts resume at its tick, which no tick passes while it can (moveTick). -/
def execDriftResume (s : State) : Outcome State Fault Refusal :=
  match s.pause with
  | some p => .next (if canResume s ∧ resumeTick s p.freeze ≤ s.timebase then resumeAll s p.freeze else s)
  | none => .next s

/-- R331: 2,500 ticks after its freeze a pause with a deterministic thread live resumes. -/
def execDeterministicResumeExpiry (s : State) : Outcome State Fault Refusal :=
  match s.pause with
  | some p =>
    .next (if canResume s ∧ detLive s ∧ afterReports s ≤ s.timebase ∧ p.freeze + 2500 = s.timebase then
      resumeAll s p.freeze else s)
  | none => .next s

/-! ### Calibration mode (R333) -/

/-- R333: Firn sets calibration mode at bring-up, before any owner is assigned. -/
def execCalibrationModeSet (d : Vector Nat 5) (s : State) : Outcome State Fault Refusal :=
  if d.all (fun x => 1 ≤ x && x ≤ 63) then .next (if !s.assigned then { s with calib := some d } else s)
  else .fault .illFormed

end Sys2Proof.Machine
end

