-- ==== Sys2Proof/Machine/Shake.lean ====
section
/-! DEFINITION. SHAKE256 as FIPS 202 defines it, which spec/18 R368 and spec/19 R386 to R388 name without defining it:
PRESUMED (entry 10). A state is 25 lanes of 64 bits, lane x + 5 y. -/

namespace Sys2Proof.Machine

/-- The lanes of Keccak-f[1600]. -/
abbrev Lanes := List (BitVec 64)

/-- A lane; lanes are numbered 0 to 24. -/
def laneAt (a : Lanes) (i : Nat) : BitVec 64 := a.getD i 0

/-- The step theta. -/
def shakeTheta (a : Lanes) : Lanes :=
  let c := (List.range 5).map fun x =>
    laneAt a x ^^^ laneAt a (x + 5) ^^^ laneAt a (x + 10) ^^^ laneAt a (x + 15) ^^^ laneAt a (x + 20)
  let d := (List.range 5).map fun x => laneAt c ((x + 4) % 5) ^^^ (laneAt c ((x + 1) % 5)).rotateLeft 1
  (List.range 25).map fun i => laneAt a i ^^^ laneAt d (i % 5)

/-- The lanes in the order of the walk that pi takes from lane (1, 0): (x, y) goes to (y, 2 x + 3 y). -/
def shakeWalk : Nat → Nat → Nat → List Nat
  | 0, _, _ => []
  | n + 1, x, y => (x + 5 * y) :: shakeWalk n y ((2 * x + 3 * y) % 5)

/-- The rotation of a lane in rho: the lane at place t of the walk turns by the triangular number of t + 1; lane (0, 0),
which the walk does not meet, stands. -/
def shakeTurn (lane : Nat) : Nat :=
  if lane = 0 then 0
  else
    let t := (shakeWalk 24 1 0).idxOf lane
    (t + 1) * (t + 2) / 2 % 64

/-- The steps rho and pi: lane (y, 2 x + 3 y) is lane (x, y) rotated. -/
def shakeRhoPi (a : Lanes) : Lanes :=
  (List.range 25).map fun i =>
    let x := (i % 5 + 3 * (i / 5)) % 5
    let j := x + 5 * (i % 5)
    (laneAt a j).rotateLeft (shakeTurn j)

/-- The step chi. -/
def shakeChi (a : Lanes) : Lanes :=
  (List.range 25).map fun i =>
    let y := i / 5 * 5
    laneAt a i ^^^ (~~~ laneAt a (y + (i + 1) % 5) &&& laneAt a (y + (i + 2) % 5))

/-- One turn of the byte register that makes the bits of iota (polynomial x^8 + x^6 + x^5 + x^4 + 1). -/
def shakeShift (r : Nat) : Nat := if r < 128 then 2 * r else (2 * r - 256) ^^^ 0x71

/-- The round constant that `n` turns make, bit 2^j − 1 from turn j, and the register after them. -/
def shakeIota : Nat → Nat → Nat → Nat × Nat
  | 0, _, r => (0, r)
  | n + 1, j, r =>
    let q := shakeIota n (j + 1) (shakeShift r)
    (q.1 + (if r % 2 = 1 then 2 ^ (2 ^ j - 1) else 0), q.2)

/-- `n` rounds of the permutation; `r` is the register of iota. -/
def shakeRounds : Nat → Nat → Lanes → Lanes
  | 0, _, a => a
  | n + 1, r, a =>
    let k := shakeIota 7 0 r
    let b := shakeChi (shakeRhoPi (shakeTheta a))
    shakeRounds n k.2 ((laneAt b 0 ^^^ BitVec.ofNat 64 k.1) :: b.drop 1)

/-- The permutation: 24 rounds, the register of iota starting at 1. -/
def shakePermute (a : Lanes) : Lanes := shakeRounds 24 1 a

/-- A block of up to 136 bytes is added to the lanes. -/
def shakeAbsorb (a : Lanes) (block : List Byte) : Lanes :=
  (List.range 25).map fun i => laneAt a i ^^^ BitVec.ofNat 64 (natOfBytes ((block.drop (8 * i)).take 8))

/-- The padded message: 0x1F after it and the top bit of the last byte of its last block. -/
def shakePad (msg : List Byte) : List Byte :=
  let n := 135 - msg.length % 136
  if n = 0 then msg ++ [0x9F] else msg ++ 0x1F :: List.replicate (n - 1) 0 ++ [0x80]

/-- Absorb `n` blocks. -/
def shakeBlocks (a : Lanes) : Nat → List Byte → Lanes
  | 0, _ => a
  | n + 1, msg => shakeBlocks (shakePermute (shakeAbsorb a (msg.take 136))) n (msg.drop 136)

/-- SHAKE256 of a message, up to 136 bytes of output. -/
def shake256 (msg : List Byte) (out : Nat) : List Byte :=
  let a := shakeBlocks (List.replicate 25 0) (msg.length / 136 + 1) (shakePad msg)
  (a.flatMap fun w => bytesOfNat 8 w.toNat).take (min out 136)

end Sys2Proof.Machine
end

