-- ==== Sys2Proof/Machine/Firn.lean ====
section
/-! DEFINITION. Command class (spec/18_command_class_firn.md R356 to R384): wakes and conversions, inlets and their
packets, recovery of the supervisor, and the registers that Firn writes. -/

namespace Sys2Proof.Machine

open Host (Outcome)

/-! ### Packets (R365, R369 to R371) -/

/-- A field of a packet or table: `n` bytes from byte `k`, little-endian. -/
def pkField (b : List Byte) (k n : Nat) : Nat := natOfBytes ((b.drop k).take n)

/-- An address field. -/
def pkWord (b : List Byte) (k : Nat) : Word := BitVec.ofNat 64 (pkField b k 8)

/-- Owner address of the slot of an inlet's head. -/
def headSlot (x : Inlet) : Word := x.ring + BitVec.ofNat 64 (x.head.toNat % 2 ^ x.n * 64)

/-- The packet in the slot of an inlet's head, as its agent reads it with the owner's tag (R356, R390). -/
def headPacket (s : State) (x : Inlet) : List Byte := engineRead s x.owner (headSlot x) 64

/-- The phase of an index: bit n (R365). -/
def inletPhase (x : Inlet) : Bool := x.head.toNat / 2 ^ x.n % 2 == 1

/-- The slot at head holds a packet with the phase of head (R370). -/
def phaseRight (s : State) (x : Inlet) : Bool := (pkField (headPacket s x) 1 1 % 2 == 1) == inletPhase x

/-- A WAIT of the inlet has not completed, its completion held for a page included (R369, R372). -/
def waiting (x : Inlet) : Bool := x.live.any fun p => match p with
  | .wait _ _ _ => true
  | .held _ _ _ _ _ wait => wait
  | _ => false

/-- The agent of an inlet can read the slot at head: a hardware slot, a running supervisor, a new index, no WAIT in
progress. -/
def canRead (s : State) (x : Inlet) : Bool :=
  x.slot && (s.die x.die).running && x.head != x.tail && !waiting x

/-- The agent reads the slot at head now: it was not read yet, or 250 ticks have passed since it held the wrong phase
(R370). -/
def readDueNow (s : State) (x : Inlet) : Bool :=
  match x.retry with
  | none => true
  | some t => decide (t + 250 ≤ s.timebase)

/-! ### What an agent reads (R356, R375, R376, R377) -/

/-- `n` bytes from `a` translate for reading, page by page. -/
def agentOk (s : State) (o : Nat) (a : Word) (n : Nat) : Bool :=
  let first := a.toNat
  let last := a.toNat + n - 1
  let at_ (x : Nat) : Bool :=
    region (BitVec.ofNat 64 x) == .paged && (match translateNow s o (BitVec.ofNat 64 x) .load with
      | .ok _ => true
      | _ => false)
  n = 0 || (last < 2 ^ 64 && at_ first &&
    (List.range (last / 4096 - first / 4096)).all fun k => at_ ((first / 4096 + 1 + k) * 4096))

/-- The doublewords of an argument block of `len` bytes (R378); what it does not reach, and what does not translate, is
0. -/
def argWords (s : State) (o : Nat) (a : Word) (len : Nat) : Vector Word 6 :=
  let n := min len 48
  let b := if agentOk s o a n then engineRead s o a n else []
  #v[pkWord b 0, pkWord b 8, pkWord b 16, pkWord b 24, pkWord b 32, pkWord b 40]

/-- An entry of a binding table (R379). -/
structure Binding where
  tile : Nat
  core : Nat
  stage : Nat
  threads : Nat
  allow : Nat
  rest : Nat

/-- A binding table in memory. -/
def bindings (s : State) (o : Nat) (a : Word) (n : Nat) : List Binding :=
  (List.range n).map fun k =>
    let e := engineRead s o (a + BitVec.ofNat 64 (8 * k)) 8
    { tile := pkField e 0 2, core := pkField e 2 1, stage := pkField e 3 1, threads := pkField e 4 1
      allow := pkField e 5 1, rest := pkField e 6 2 }

/-- The module core of a binding. -/
def bindingCore (s : State) (o : Nat) (x : Binding) : Nat := 4 * (ownerTile s o x.tile).getD 0 + x.core

/-- A core is bound by a live ACTORS launch (R380 step 1). -/
def coreBound (s : State) (c : Nat) : Bool :=
  let x := s.core c
  x.inb.isSome || x.outb.isSome ||
    s.launches.any fun p => p.2.actors && !p.2.done &&
      (p.2.places.any (fun q => q.fixed.any fun i => (ownerThread s p.2.owner i).any fun g => coreOf g == c) ||
        (launchThreads s p.1).any fun g => coreOf g == c)

/-- The bytes from `k` to `k + n - 1` are zero. -/
def zeroAt (b : List Byte) (k n : Nat) : Bool := pkField b k n == 0

/-- The common header of a packet is well-formed (R371, R372). -/
def headerOk (b : List Byte) : Bool := pkField b 1 1 < 2 && pkField b 2 1 < 8 && zeroAt b 3 5

/-- What a LAUNCH or ACTORS packet names besides its places (R375, R376). -/
structure Named where
  entries : Nat := 0
  entryTable : Word := 0
  stations : Word := 0
  actors : Word := 0
  seed : Word := 0
  region : Word := 0
  e : Nat := 0
  j : Nat := 0
  p : Nat := 0
  floe : Bool := false
  park : Word := 0
  rings : Word := 0
  ringN : Nat := 0
  idLen : Nat := 0
  ids : Word := 0

/-- The object descriptor and the options block can be read. -/
def namedOk (s : State) (o : Nat) (obj opt : Word) : Bool := agentOk s o obj 64 && (opt == 0 || agentOk s o opt 128)

/-- The object descriptor and the options block, checked (R375, R376, R377). -/
def readNamed (s : State) (o : Nat) (obj opt : Word) : Option Named :=
  let x := s.owner o
  if !namedOk s o obj opt then none
  else
    let d := engineRead s o obj 64
    let b := if opt = 0 then [] else engineRead s o opt 128
    let r : Named :=
      { entries := pkField d 0 2, entryTable := pkWord d 8, stations := pkWord d 16, actors := pkWord d 24
        seed := pkWord b 0, region := pkWord b 8, e := pkField b 16 4, j := pkField b 20 4, p := pkField b 24 4
        floe := pkField b 28 4 / 2 % 2 == 1 && (pkWord b 32 != 0 || x.park != 0)
        park := pkWord b 32, rings := pkWord b 40, ringN := pkField b 48 4, idLen := pkField b 52 4, ids := pkWord b 56 }
    let tables := agentOk s o r.entryTable (8 * r.entries) &&
      (r.stations == 0 || agentOk s o r.stations 2048) && (r.actors == 0 || agentOk s o r.actors 512)
    let limits := pkField d 2 2 ≤ 256 && pkField d 4 2 ≤ 64 && zeroAt d 6 2 && zeroAt d 32 32 &&
      r.entryTable.toNat % 8 == 0 && r.stations.toNat % 8 == 0 && r.actors.toNat % 8 == 0 &&
      pkField b 28 4 < 4 && zeroAt b 64 64
    let same := !r.floe || x.park == 0 ||
      ((r.park == 0 || r.park == x.park) && (r.rings == 0 || r.rings == x.rings) && (r.ringN == 0 || r.ringN == x.ringN))
    if tables && limits && same then some r else none

/-- The ids of mode 2 (R376). -/
def idList (s : State) (o : Nat) (r : Named) : List Nat :=
  (List.range r.idLen).map fun k => natOfBytes (engineRead s o (r.ids + BitVec.ofNat 64 (4 * k)) 4)

/-- The fixed ids of a LAUNCH (R377): none when a check fails. -/
def launchIdList (s : State) (o : Nat) (b : List Byte) (r : Named) (n : Nat) : Option (List (Option Nat)) :=
  let cap := ownerTiles s o * 32
  match pkField b 44 1 with
  | 0 => some (List.replicate n none)
  | 1 =>
    let base := pkField b 48 4
    if cap ≤ base + n - 1 then none else some ((List.range n).map fun k => some (base + k))
  | _ =>
    if r.idLen ≠ n ∨ r.ids.toNat % 4 ≠ 0 ∨ !agentOk s o r.ids (4 * n) then none
    else
      let l := idList s o r
      if l.any (fun i => decide (cap ≤ i)) ∨ l.eraseDups.length ≠ n then none else some (l.map some)

/-- What the agent reads of an id list, where it reads it. -/
def idReads (s : State) (o : Nat) (b : List Byte) (r : Named) (n : Nat) : List (Word × Nat) :=
  if pkField b 44 1 ≠ 2 ∨ r.idLen ≠ n ∨ r.ids.toNat % 4 ≠ 0 ∨ !agentOk s o r.ids (4 * n) then [] else [(r.ids, 4 * n)]

/-- The packet's fields lie within their limits (R374). -/
def launchFieldsOk (s : State) (o : Nat) (b : List Byte) : Bool :=
  let x := pkField b 38 2
  let y := pkField b 40 2
  let z := pkField b 42 2
  let cap := ownerTiles s o * 32
  pkField b 16 8 % 64 == 0 && pkField b 56 8 % 64 == 0 && x != 0 && y != 0 && z != 0 && decide (x * y * z ≤ cap) &&
    decide (pkField b 44 1 ≤ 2) && zeroAt b 45 3 && zeroAt b 52 4 && (pkField b 44 1 != 0 || decide (pkField b 48 4 < cap))

/-- An entry within its limits (R379). -/
def bindingOk (s : State) (o n : Nat) (x : Binding) : Bool :=
  decide (x.tile < ownerTiles s o) && decide (x.core < 4) && decide (x.stage < n) && decide (1 ≤ x.threads) &&
    decide (x.threads ≤ 8) && x.rest == 0 &&
    (if x.stage + 1 = n then x.allow == 0 else decide (1 ≤ x.allow) && decide (x.allow ≤ 64))

/-- Every stage once, every core once, every entry within its limits. -/
def bindingsOk (s : State) (o n : Nat) (l : List Binding) : Bool :=
  l.all (bindingOk s o n) && (l.map (·.stage)).eraseDups.length == n &&
    (l.map (bindingCore s o)).eraseDups.length == n

/-- The placements of a stage (R379, R380). -/
def stagePlaces (s : State) (o n : Nat) (r : Named) (x : Binding) : List Place :=
  let pc : Word := BitVec.ofNat 64 (natOfBytes (engineRead s o (r.actors + BitVec.ofNat 64 (8 * x.stage)) 8))
  (List.range x.threads).map fun t =>
    { k := x.stage * 8 + t, fixed := some (x.tile * 32 + x.core * 8 + t), stage := x.stage
      i7 := BitVec.ofNat 64 x.stage, i8 := BitVec.ofNat 64 n, i9 := BitVec.ofNat 64 x.threads, pc := pc }

/-- What the agent finds when it checks a LAUNCH or ACTORS packet whole (R377): the error that it fails with, or 0; the bytes
that it has read, address and number; what the packet names, its placements and its bindings. -/
structure Plan where
  err : Nat := 0
  reads : List (Word × Nat) := []
  named : Named := {}
  places : List Place := []
  bound : List Binding := []

/-- What the agent reads of the object descriptor and the options block. -/
def namedReads (s : State) (o : Nat) (obj opt : Word) : List (Word × Nat) :=
  if !namedOk s o obj opt then [] else if opt = 0 then [(obj, 64)] else [(obj, 64), (opt, 128)]

/-- What the agent reads of the argument block. -/
def argReads (s : State) (o : Nat) (b : List Byte) : List (Word × Nat) :=
  let n := min (pkField b 32 4) 48
  if agentOk s o (pkWord b 24) n then [(pkWord b 24, n)] else []

/-- An entry of 8 bytes of a table. -/
def entrySlot (table : Word) (k : Nat) : Word := table + BitVec.ofNat 64 (8 * k)

/-- R374, R377: a LAUNCH packet is checked whole. -/
def launchPlan (s : State) (o : Nat) (b : List Byte) : Plan :=
  let x := pkField b 38 2
  let y := pkField b 40 2
  let z := pkField b 42 2
  if !launchFieldsOk s o b then { err := 0x41 }
  else
    let reads := namedReads s o (pkWord b 16) (pkWord b 56)
    match readNamed s o (pkWord b 16) (pkWord b 56) with
    | none => { err := 0x42, reads := reads }
    | some r =>
      let reads := reads ++ idReads s o b r (x * y * z)
      match launchIdList s o b r (x * y * z) with
      | none => { err := 0x42, reads := reads }
      | some l =>
        if r.entries ≤ pkField b 36 2 then { err := 0x42, reads := reads }
        else
          let a := entrySlot r.entryTable (pkField b 36 2)
          let pc : Word := BitVec.ofNat 64 (natOfBytes (engineRead s o a 8))
          { reads := reads ++ (a, 8) :: argReads s o b, named := r
            places := l.zipIdx.map fun p =>
              { k := p.2, fixed := p.1, i7 := BitVec.ofNat 64 x, i8 := BitVec.ofNat 64 y, i9 := BitVec.ofNat 64 z
                pc := pc } }

/-- R377, R379: an ACTORS packet is checked whole. -/
def actorsPlan (s : State) (o : Nat) (b : List Byte) : Plan :=
  let n := pkField b 36 1
  let table := pkWord b 48
  if pkField b 16 8 % 64 ≠ 0 ∨ pkField b 56 8 % 64 ≠ 0 ∨ n = 0 ∨ 64 < n ∨ !zeroAt b 37 11 then { err := 0x41 }
  else
    let reads := namedReads s o (pkWord b 16) (pkWord b 56)
    match readNamed s o (pkWord b 16) (pkWord b 56) with
    | none => { err := 0x42, reads := reads }
    | some r =>
      if r.actors = 0 ∨ !agentOk s o table (8 * n) then { err := 0x42, reads := reads }
      else
        let l := bindings s o table n
        let reads := reads ++ [(table, 8 * n)]
        if !bindingsOk s o n l then { err := 0x42, reads := reads }
        else
          { reads := reads ++ l.map (fun x => (entrySlot r.actors x.stage, 8)) ++ argReads s o b, named := r
            places := l.flatMap (stagePlaces s o n r), bound := l }

/-- The task region that a launch names is resident, or none is named: Firn makes it resident when the launch starts
(R266). -/
def regionResident (s : State) (o : Nat) (r : Named) : Bool :=
  let n := 512 * r.j + 32 * r.p * ownerTiles s o + 256 * r.e * ownerTiles s o
  n = 0 || (absentIn s o r.region n).isNone

/-- The launch is the first of its owner that enables floes: it establishes the park queue and the rings (R289, R294). -/
def establishes (s : State) (o : Nat) (r : Named) : Bool := r.floe && (s.owner o).park == 0

/-- The capacity of a park queue that Firn establishes (R294): what its field holds where that is a power of two from 1 to
4,096, else a free one (DESIGN CHOICE, entry 112). -/
def parkCapacity (s : State) (o : Nat) (block : Word) : Nat :=
  let v := natOfBytes ((ownerRead s o (block + 8) 4).getD [])
  if (List.range 13).any fun k => v == 2 ^ k then v else 2 ^ (Config.parkSlots o % 13)

/-- The park queue and the rings that a launch establishes are resident: Firn makes them so (R289, R294). -/
def floesResident (s : State) (o : Nat) (r : Named) : Bool :=
  !establishes s o r ||
    ((absentIn s o r.park 64).isNone && (absentIn s o r.park (64 + 4352 * parkCapacity s o r.park)).isNone &&
      (r.ringN == 0 || (absentIn s o r.rings (4352 * r.ringN * ownerTiles s o)).isNone))

/-- Nothing is missing that a LAUNCH or ACTORS packet waits for: the pages that Firn makes resident (R266, R289, R294) and,
of an ACTORS packet, its cores (R380). One that fails its checks waits for nothing (R377). -/
def Plan.ready (s : State) (o : Nat) (p : Plan) : Bool :=
  p.err != 0 || (regionResident s o p.named && floesResident s o p.named &&
    p.bound.all fun x => !coreBound s (bindingCore s o x))

/-- Nothing that the packet at head waits for beyond its inlet is missing; a malformed packet waits for nothing (R372). No
launch of an owner starts between a STOP of its interface and the wipe that ends it (R389). -/
def canBegin (s : State) (x : Inlet) : Bool :=
  let b := headPacket s x
  !headerOk b || (match pkField b 0 1 with
    | 1 => !(s.owner x.owner).closing && (launchPlan s x.owner b).ready s x.owner
    | 2 => !(s.owner x.owner).closing && (actorsPlan s x.owner b).ready s x.owner
    | _ => true)

/-- The packet at head can start (R369, R370). -/
def canStart (s : State) (x : Inlet) : Bool :=
  canRead s x && readDueNow s x && phaseRight s x && (pkField (headPacket s x) 2 1 % 2 == 0 || x.live.isEmpty) &&
    canBegin s x

/-- Among numbers, the first after `last` in rotation. -/
def nextAfter (last : Nat) (l : List Nat) : Option Nat := (l.find? (last < ·)).orElse fun _ => l.head?

/-- The inlet of a die that the engine serves next among those that `ok` admits: the highest priority, round-robin
within it from the inlet of that priority that was served last (R369). -/
def inletNext (s : State) (d : Nat) (last : Vector Nat 4) (ok : Inlet → Bool) : Option Nat :=
  let l := s.inlets.filter fun p => p.2.die == d && ok p.2
  let top := l.foldl (fun m p => max m p.2.prio) 0
  nextAfter (last.toList.getD top 0) ((l.filter fun p => p.2.prio == top).map (·.1))

/-- The inlet's packet at head starts now. -/
def startsNow (s : State) (id : Nat) : Bool :=
  let d := (s.inlet id).die
  inletNext s d (s.die d).startLast (canStart s) == some id

/-- The type of the packet at head. -/
def headType (s : State) (id : Nat) : Nat := pkField (headPacket s (s.inlet id)) 0 1

/-- Head advances past a packet that has started (R369); S services it until it completes (R357). -/
def takeHead (s : State) (id : Nat) : State :=
  let x := s.inlet id
  let b := headPacket s x
  let s := engineCount s (ownerWho x.owner 0) (headSlot x) 64
  let s := putInlet s id { x with head := x.head + 1, retry := none }
  let s := takeWork s x.die { owner := x.owner, work := .packet id x.head.toNat, bytes := b }
  ({ s with starts := s.starts + 1 }).modDie x.die fun d => { d with startLast := d.startLast.setIfInBounds x.prio id }

/-- A packet ends at its start with an error or none (R372, R373); a malformed one is counted. -/
def endAtStart (s : State) (id err : Nat) : State :=
  let x := s.inlet id
  let sig := pkWord (headPacket s x) 8
  let s := takeHead s id
  let s := if err = 0x41 then misuseOwner s x.owner else s
  completePkt s id x.head.toNat sig none err false false

/-- A start of a packet of a type: malformed headers end it, else `f` starts it. -/
def startPacket (id type : Nat) (s : State) (f : State → List Byte → State) : State :=
  if !startsNow s id ∨ (if type = 1 then ¬(headType s id = 1 ∨ 5 < headType s id) else headType s id ≠ type) then s
  else
    let b := headPacket s (s.inlet id)
    if !headerOk b ∨ 5 < headType s id then endAtStart s id 0x41 else f s b

/-- R373: a NOP completes at its start. -/
def execNopPacket (id : Nat) (s : State) : Outcome State Fault Refusal :=
  .next (startPacket id 0 s fun s _ => endAtStart s id 0)

/-- R370: the slot at head holds no packet of this phase; it is read again every 250 ticks, with the counts of an agent's
read (R390). -/
def execInletPhaseRetry (id : Nat) (s : State) : Outcome State Fault Refusal :=
  let x := s.inlet id
  .next (if (mget s.inlets id).isSome ∧ canRead s x ∧ !phaseRight s x ∧ readDueNow s x then
    putInlet (engineCount s (ownerWho x.owner 0) (headSlot x) 64) id
      { x with stalls := bump32 x.stalls, retry := some s.timebase } else s)

/-- An inlet has nothing to do in its hardware slot. -/
def inletAtRest (x : Inlet) : Bool := x.head == x.tail && x.live.isEmpty

/-- The inlets of a die in hardware slots. -/
def slotted (s : State) (d : Nat) : List (Nat × Inlet) := s.inlets.filter fun p => p.2.die == d && p.2.slot

/-- An inlet wants a hardware slot: it has none, and with all 64 taken it has something to do in one. -/
def inletWants (s : State) (d : Nat) (y : Inlet) : Bool :=
  !y.slot && (decide ((slotted s d).length < 64) || !inletAtRest y)

/-- R369: an inlet takes a hardware slot of its die's engine, by priority and then in rotation; with all 64 taken, one of
an inlet at rest. -/
def execInletSlotAssign (id : Nat) (s : State) : Outcome State Fault Refusal :=
  let x := s.inlet id
  let d := x.die
  if (mget s.inlets id).isNone ∨ inletNext s d (s.die d).slotLast (inletWants s d) ≠ some id then .next s
  else
    let give (s : State) : State :=
      (s.setInlet id { x with slot := true }).modDie d fun y => { y with slotLast := y.slotLast.setIfInBounds x.prio id }
    if (slotted s d).length < 64 then .next (give s)
    else
      match (slotted s d).find? fun p => inletAtRest p.2 with
      | some p => .next (give (s.setInlet p.1 { p.2 with slot := false }))
      | none => .next s

/-- The launch id after the owner's last: from 1 upward, modulo 2 ^ 32, skipping 0 (R378). -/
def nextLaunchId (x : Owner) : Nat := if x.lastLaunch + 1 < 2 ^ 32 then x.lastLaunch + 1 else 1

/-- The first launch of an owner that enables floes establishes the park queue and the rings (R289, R294): Firn writes the
queue's capacity, and the owner's inlet control blocks show the queue (R366). -/
def establishFloes (s : State) (o : Nat) (r : Named) : State :=
  if !establishes s o r then s
  else
    let s := s.modOwner o fun x => { x with park := r.park, rings := r.rings, ringN := r.ringN }
    let s := ownerWrite s 0 o 0 (r.park + 8) (bytesOfNat 4 (parkCapacity s o r.park))
    (s.inlets.filter fun p => p.2.owner == o).foldl (fun s p => putInlet s p.1 p.2) s

/-- What the agent read for a packet counts as its reads do (R352, R390). -/
def countReads (s : State) (w : Who) (l : List (Word × Nat)) : State := l.foldl (fun s x => engineCount s w x.1 x.2) s

/-- A launch enters the launch table (R378), and its packet has started. -/
def tableLaunch (s : State) (id : Nat) (b : List Byte) (p : Plan) (actors : Bool) : State × Nat :=
  let x := s.inlet id
  let r := p.named
  let o := x.owner
  let det := decide (4 ≤ pkField b 2 1) || (s.owner o).det
  let pinned := pkField b 2 1 / 2 % 2 == 1
  let lid := nextLaunchId (s.owner o)
  let lk := launchKey o lid
  let len := pkField b 32 4
  let l : Launch :=
    { owner := o, id := lid, inlet := id, index := x.head.toNat, order := s.starts, actors := actors
      pinned := pinned, det := det, signal := pkWord b 8, start := s.timebase
      args := pkWord b 24, argLen := len, argv := argWords s o (pkWord b 24) len
      seed := r.seed, region := r.region, e := r.e, j := r.j, p := r.p, floe := r.floe, stations := r.stations
      base := if actors then 0 else pkField b 48 4
      places := p.places, admitted := !pinned && !det }
  let s := establishFloes (takeHead s id) o r
  let s := (s.modOwner o fun y => { y with lastLaunch := lid }).setLaunch lk l
  (putPkt (countReads s (ownerWho o lk) p.reads) id (.launch x.head.toNat lk false), lk)

/-- R377: a launch that fails its checks starts nothing; Firn has assigned it a launch id (entry 72). -/
def failLaunch (s : State) (id : Nat) (actors : Bool) (reads : List (Word × Nat)) : State :=
  let x := s.inlet id
  let o := x.owner
  let lid := nextLaunchId (s.owner o)
  let lk := launchKey o lid
  let l : Launch :=
    { owner := o, id := lid, inlet := id, index := x.head.toNat, order := s.starts, actors := actors
      signal := pkWord (headPacket s x) 8, start := s.timebase, done := true }
  let s := (s.modOwner o fun y => { y with lastLaunch := lid }).setLaunch lk l
  let s := launchError (countReads s (ownerWho o lk) reads) lk 0x42
  endAtStart s id (s.launch lk).error

/-- A LAUNCH or ACTORS packet that has been checked starts, or ends with its error (R372, R377). -/
def startPlan (s : State) (id : Nat) (b : List Byte) (p : Plan) (actors : Bool) (f : State × Nat → State) : State :=
  if p.err = 0x41 then endAtStart s id 0x41
  else if p.err ≠ 0 then failLaunch s id actors p.reads
  else f (tableLaunch s id b p actors)

/-! ### LAUNCH and ACTORS (R374 to R380) -/

/-- R374, R377: a LAUNCH is checked whole, then its placements wait for their grants. -/
def startLaunch (id : Nat) (s : State) (b : List Byte) : State :=
  startPlan s id b (launchPlan s (s.inlet id).owner b) false (·.1)

/-- R377; a packet of an unknown type is malformed and ends here too (R372). -/
def execLaunch (id : Nat) (s : State) : Outcome State Fault Refusal := .next (startPacket id 1 s (startLaunch id))

/-- The endpoint of a stage (R176). -/
def endpoint (l : List Binding) (stage : Nat) : Nat :=
  match l.find? (·.stage == stage) with
  | some x => x.tile * 4 + x.core
  | none => 0

/-- The allowance of a stage's output channel. -/
def allowance (l : List Binding) (stage : Nat) : Nat :=
  match l.find? (·.stage == stage) with
  | some x => x.allow
  | none => 0

/-- R380 step 2: the channels of a stage are bound. -/
def bindStage (n lk : Nat) (l : List Binding) (s : State) (o : Nat) (x : Binding) : State :=
  s.modCore (bindingCore s o x) fun c =>
    { c with
      inb := if x.stage = 0 then none
        else some { peer := endpoint l (x.stage - 1), allow := allowance l (x.stage - 1), stage := x.stage, launch := lk }
      outb := if x.stage + 1 = n then none
        else some { peer := endpoint l (x.stage + 1), allow := x.allow, stage := x.stage, launch := lk }
      credits := x.allow, returning := 0, infifo := [], inflight := [] }

/-- R379, R380: an ACTORS packet, whose cores are free, is checked, binds its channels, and its placements wait for their
grants. -/
def startActors (id : Nat) (s : State) (b : List Byte) : State :=
  let o := (s.inlet id).owner
  let p := actorsPlan s o b
  startPlan s id b p true fun t =>
    p.bound.foldl (fun s x => bindStage (pkField b 36 1) t.2 p.bound s o x) t.1

/-- R380. -/
def execActors (id : Nat) (s : State) : Outcome State Fault Refusal := .next (startPacket id 2 s (startActors id))

/-! ### WAIT (R381) -/

/-- A WAIT takes a watch, and its condition is seen for the first time (R165). A read that the memory controller refuses is
counted and acknowledged, and watches nothing: the WAIT ends without an error (R390; DEDUCED, entry 33). -/
def beginWatch (s : State) (id index : Nat) (w : PWait) (sig : Word) (key : Nat) : State :=
  let o := (s.inlet id).owner
  if gate s o key ≠ .pass then completePkt (gateCount s o key) id index sig none 0 false true
  else
    putPkt (countBad s (ownerWho o 0) (s.poison.contains (unitOf key))) id
      (.wait index { w with key := some key, ticket := none, hit := sigHolds w.c (sigValue s key) w.v } sig)

/-- The watch of a WAIT is placed, at once or behind those that wait for one (R165); a page that is not resident is waited
for; a fatal translation ends it. -/
def placeWait (s : State) (id index : Nat) (w : PWait) (sig : Word) : State :=
  let o := (s.inlet id).owner
  match translateNow s o w.addr .load with
  | .ok p =>
    if gate s o p ≠ .pass ∨ watchFree s (homeDie p) then beginWatch s id index w sig p
    else putPkt { s with nextId := s.nextId + 1 } id (.wait index { w with ticket := some (p, s.nextId) } sig)
  | .fatal => completePkt s id index sig none 0x43 false true
  | .miss => holdPkt (putPkt s id (.wait index w sig)) id index w.addr .load

/-- A WAIT that waits for a watch takes one that has become free, in its turn (R165). -/
def takeWatch (s : State) (id index : Nat) (w : PWait) (sig : Word) (key ticket : Nat) : State :=
  if watchNext s (homeDie key) ticket then beginWatch s id index w sig key else s

/-- The condition of a WAIT (R381). -/
def waitCond (n : Nat) : SigCond :=
  match n with
  | 0 => .eq | 1 => .ne | 2 => .ge | _ => .lt

/-- A WAIT starts. -/
def startWait (id : Nat) (s : State) (b : List Byte) : State :=
  let x := s.inlet id
  let a := pkWord b 16
  if a.toNat % 32 ≠ 0 ∨ region a ≠ .signal ∨ 3 < pkField b 32 1 ∨ !zeroAt b 33 7 then endAtStart s id 0x41
  else
    let w : PWait :=
      { key := none, addr := a, c := waitCond (pkField b 32 1), v := pkWord b 24, limit := pkField b 40 8, since := s.work }
    placeWait (takeHead s id) id x.head.toNat w (pkWord b 8)

/-- The WAIT of an inlet. -/
def waitOf (x : Inlet) : Option (Nat × PWait × Word) := x.live.findSome? fun p => match p with
  | .wait i w sig => some (i, w, sig)
  | _ => none

/-- R381: a WAIT starts, takes a watch that has become free, or completes. -/
def execWait (id : Nat) (s : State) : Outcome State Fault Refusal :=
  let x := s.inlet id
  match waitOf x with
  | some (i, w, sig) =>
    if w.hit then .next (completePkt s id i sig none 0 false true)
    else
      match w.key, w.ticket with
      | none, some (k, n) => .next (takeWatch s id i w sig k n)
      | none, none => .next (if x.held.contains i then s else placeWait s id i w sig)
      | some _, _ => .next s
  | none => .next (startPacket id 3 s (startWait id))

/-- R381: the limit of a WAIT, counted outside pauses. -/
def execWaitLimitExpiry (id : Nat) (s : State) : Outcome State Fault Refusal :=
  match waitOf (s.inlet id) with
  | some (i, w, sig) =>
    .next (if !w.hit ∧ w.limit ≠ 0 ∧ w.since + w.limit ≤ s.work then completePkt s id i sig none 0x44 false true else s)
  | none => .next s

/-! ### SIGNAL (R382) -/

/-- The update of a SIGNAL, or its wait for the page. -/
def doSignal (s : State) (id index : Nat) (target : Word) (set : Bool) (v sig : Word) : State :=
  let o := (s.inlet id).owner
  match sigDest s o target with
  | .key k =>
    let s := engineUpdate s o 0 k fun x a b e => (if set then v.toNat else x + v.toNat, a, b, e)
    completePkt s id index sig none 0 false false
  | .absent => holdPkt (putPkt s id (.signal index target set v sig)) id index target .atomic
  | _ => completePkt s id index sig none 0x43 false false

/-- A SIGNAL starts. -/
def startSignal (id : Nat) (s : State) (b : List Byte) : State :=
  let x := s.inlet id
  let a := pkWord b 16
  if a = 0 ∨ a.toNat % 32 ≠ 0 ∨ region a ≠ .signal ∨ 1 < pkField b 32 1 ∨ !zeroAt b 33 15 then endAtStart s id 0x41
  else doSignal (takeHead s id) id x.head.toNat a (pkField b 32 1 == 1) (pkWord b 24) (pkWord b 8)

/-- R382. -/
def execSignal (id : Nat) (s : State) : Outcome State Fault Refusal := .next (startPacket id 4 s (startSignal id))

/-! ### COPY (R383) -/

/-- A COPY may name the `len` bytes from `a`: they lie in paged memory, or in the tile-store window. -/
def copyReach (a : Word) (len : Nat) : Bool :=
  let r := region a
  (r == .paged || r == .window) &&
    (len = 0 || (decide (a.toNat + len ≤ 2 ^ 64) && region (a + BitVec.ofNat 64 (len - 1)) == r))

/-- A COPY starts. -/
def startCopy (id : Nat) (s : State) (b : List Byte) : State :=
  let x := s.inlet id
  let src := pkWord b 16
  let dst := pkWord b 24
  let len := pkField b 32 8
  if !zeroAt b 40 8 ∨ !copyReach src len ∨ !copyReach dst len then endAtStart s id 0x41
  else
    let s := takeHead s id
    putPkt { s with nextId := s.nextId + 1 } id (.copy x.head.toNat src dst len 0 (pkWord b 8) 0 false { n := s.nextId })

/-- A COPY waits for Firn's wake, as requester 3; what is uncorrectable among the tables of the walk that finds no page is
counted (R352). -/
def stickCopy (s : State) (id i : Nat) (p : Pkt) (a : Word) (k : AKind) : State :=
  let s := if region a = .paged then countWalk s (ownerWho (s.inlet id).owner 0) a else s
  engineFault ((putPkt s id p).modInlet id fun x => { x with heldCopy := x.heldCopy ++ [i] }) id 3 a k

/-- The write of a unit of `n` bytes by an engine with the owner's tag. -/
def engineStore (s : State) (o key n : Nat) (bs : List Byte) : State :=
  if gate s o key = .pass then
    unitWrite (countBad s (ownerWho o 0) (s.poison.contains (unitOf key) && decide (n < 64))) key n (natOfBytes bs) (maskOf n)
  else gateCount s o key

/-- An address of an owner lies over a link (R393). -/
def linkAt (s : State) (o : Nat) (a : Word) (k : AKind) : Bool :=
  match engineKey s o a k with
  | .ok key => overLink key
  | _ => false

/-- A unit of a COPY is moved: its source's answer and its write, or what a lost request leaves of them: zeros that count as
uncorrectable for the source, no write and a data error for the destination (R393; entry 82). -/
def putUnit (s : State) (id i : Nat) (src dst : Word) (len next n : Nat) (sig : Word) (err : Nat) (link : CopyLink)
    (r : ChanRead) (key : Nat) : State :=
  let o := (s.inlet id).owner
  let lostSrc := link.lost && linkAt s o (src + BitVec.ofNat 64 next) .load
  let lostDst := link.lost && !lostSrc && overLink key
  let bad := r.bad || lostSrc
  let s := countBad (countDrop (serveBanks s (bankOf key :: r.banks)) o r.dropped) (ownerWho o 0) (bad || lostDst)
  let s := if lostDst then s else engineStore s o key n (if bad then [] else r.bytes)
  putPkt s id (.copy i src dst len (next + n) sig (if (bad ∨ lostDst) ∧ err = 0 then 0x12 else err) false
    { link with lost := false })

/-- The next 64-byte unit of a COPY is moved, or the COPY ends. A unit aimed at a bank whose landing bit is 1 has no effect
(R285); no instruction is there to take the fault, and the COPY ends as after a fatal translation (DESIGN CHOICE, entry
95). -/
def moveUnit (s : State) (id i : Nat) (src dst : Word) (len next : Nat) (sig : Word) (err : Nat) (link : CopyLink) :
    State :=
  let o := (s.inlet id).owner
  if len ≤ next then completePkt s id i sig none err false false
  else
    let a := src + BitVec.ofNat 64 next
    let d := dst + BitVec.ofNat 64 next
    let n := min (len - next) (64 - d.toNat % 64)
    let stuck := Pkt.copy i src dst len next sig err true link
    if storeClosed s o a ∨ storeClosed s o d then s
    else
      match chanRead s o (if region a = .window then 1 else 0) a n with
      | .error (b, false) => stickCopy s id i stuck b .load
      | .error (_, true) => completePkt s id i sig none 0x43 false false
      | .ok r =>
        match engineKey s o d .store with
        | .fatal => completePkt s id i sig none 0x43 false false
        | .miss => stickCopy s id i stuck d .store
        | .ok key =>
          if onLanding s key then completePkt s id i sig none 0x43 false false
          else if r.waits s ∨ bankTaken s (bankOf key) then s
          else putUnit s id i src dst len next n sig err link r key

/-- R383: a COPY starts, or the oldest under way moves its next unit or ends. -/
def execCopy (id : Nat) (s : State) : Outcome State Fault Refusal :=
  if startsNow s id ∧ headType s id = 5 then .next (startPacket id 5 s (startCopy id))
  else
    match runningCopy (s.inlet id) with
    | some (.copy i src dst len next sig err _ link) => .next (moveUnit s id i src dst len next sig err link)
    | _ => .next s

/-! ### Wakes and conversions (R358) -/

/-- The thread that a wake names, if it is dropped (R129). -/
def droppedThread (s : State) (d : Nat) (w : WakeId) : Option Nat :=
  match ownerThread s w.owner.toNat w.ident.toNat with
  | some g =>
    match (s.thread g).status with
    | .dropped _ _ => if dieOf (tileOf g) = d then some g else none
    | _ => none
  | none => none

/-- The copy of a channel that waits for a wake (R181). -/
def stuckCopy (s : State) (d : Nat) (w : WakeId) : Option (Nat × Nat × Copy) :=
  match ownerThread s w.owner.toNat w.ident.toNat with
  | some g =>
    let T := tileOf g
    if dieOf T ≠ d then none
    else (((s.tile T).chan w.channel.toNat).runs.find? fun x => x.fault.isSome).map fun x => (T, w.channel.toNat, x)
  | none => none

/-- The inlet that a wake names, homed on the die. -/
def wokenInlet (s : State) (d : Nat) (w : WakeId) : Option Nat :=
  let id := w.ident.toNat
  if (mget s.inlets id).isSome ∧ (s.inlet id).owner = w.owner.toNat ∧ (s.inlet id).die = d then some id else none

/-- The first update of a launch is made after a wake (R372). -/
def retryFirst (s : State) (id i lk : Nat) : State :=
  let l := s.launch lk
  match sigDest s l.owner l.signal with
  | .key k => firstUpdate (putPkt s id (.launch i lk false)) l.owner lk k l.start
  | .absent => holdPkt s id i l.signal .atomic
  | .bad => misuseOwner (putPkt s id (.launch i lk false)) l.owner
  | .none => putPkt s id (.launch i lk false)

/-- A packet goes on after a wake. -/
def retryPkt (s : State) (id : Nat) (p : Pkt) : State :=
  match p with
  | .launch i lk true => retryFirst s id i lk
  | .launch _ _ false => s
  | .held i sig st err first wait => settlePkt s id i sig st err first wait
  | .signal i t set v sig => doSignal s id i t set v sig
  | .wait i w sig => placeWait s id i w sig
  | .copy i src dst len next sig err _ link => putPkt s id (.copy i src dst len next sig err false link)

/-- A packet ends after a conversion; a held update of a completion signal is given up and counted, the first update of a
launch by itself, whose completion then follows (R372). -/
def convertPkt (s : State) (id : Nat) (p : Pkt) : State :=
  let o := (s.inlet id).owner
  match p with
  | .launch i lk true => misuseOwner (putPkt s id (.launch i lk false)) o
  | .launch _ _ false => s
  | .held i sig st err true wait => settlePkt (misuseOwner s o) id i sig st err false wait
  | .held i _ _ _ false _ => misuseOwner (dropPkt s id i) o
  | .signal i _ _ _ sig => completePkt s id i sig none 0x43 false false
  | .wait i _ sig => completePkt s id i sig none 0x43 false true
  | .copy i _ _ _ _ sig _ _ _ => completePkt s id i sig none 0x43 false false

/-- The packet whose record an engine posted first: it waits no longer, and `f` acts on it. -/
def popHeld (s : State) (id : Nat) (copy : Bool) (f : State → Nat → Pkt → State) : State :=
  let x := s.inlet id
  match (if copy then x.heldCopy else x.held) with
  | [] => s
  | i :: l =>
    let s := s.setInlet id (if copy then { x with heldCopy := l } else { x with held := l })
    match x.live.find? fun p => p.index == i with
    | some p => f s id p
    | none => s

/-- S takes the oldest record of a die's fault queue (R357, R358). -/
def takeFault (s : State) (d : Nat) : State :=
  let x := s.die d
  match x.faults with
  | r :: l =>
    if x.running ∧ x.delegated.getLsbD 0 then
      takeWork (s.setDie d { x with faults := l }) d { owner := r.owner, work := .fault r, bytes := r.bytes }
    else s
  | [] => s

/-- The record of a wake or a conversion has been served (R357). -/
def servedFault (d : Nat) (w : WakeId) (s : State) : State :=
  s.modDie d fun y => { y with servicing := y.servicing.filter fun x => match x.work with
    | .fault r => !(r.owner == w.owner.toNat && r.ident.toNat == w.ident.toNat && r.requester == w.requester.toNat &&
        r.ch == w.channel.toNat)
    | _ => true }

/-- R358: a wake; while S is stopped it comes from nowhere (R362). -/
def execWakeRegisterWrite (d : Nat) (w : WakeId) (s : State) : Outcome State Fault Refusal :=
  if d < Config.dies then
    if !(s.die d).running then .next s
    else
    let s := servedFault d w (s.modDie d fun x => { x with wake := some w })
    match w.requester.toNat with
    | 0 => match droppedThread s d w with
      | some g => .next (becomeReady s g)
      | none => .next s
    | 1 => match stuckCopy s d w with
      | some (T, ch, x) => .next (modRun s T ch x.n fun x => { x with fault := none })
      | none => .next s
    | 2 => match wokenInlet s d w with
      | some id => .next (popHeld s id false retryPkt)
      | none => .next s
    | 3 => match wokenInlet s d w with
      | some id => .next (popHeld s id true retryPkt)
      | none => .next s
    | _ => .next s
  else .fault .illFormed

/-- R358: a conversion into a fatal translation fault. -/
def execConvertRegisterWrite (d : Nat) (w : WakeId) (s : State) : Outcome State Fault Refusal :=
  if d < Config.dies then
    if !(s.die d).running then .next s
    else
    let s := servedFault d w (s.modDie d fun x => { x with convert := some w })
    match w.requester.toNat with
    | 0 => match droppedThread s d w with
      | some g =>
        match (s.thread g).status with
        | .dropped a _ => .next (ownerTrap s g 6 0 a (s.thread g).pc)
        | _ => .next s
      | none => .next s
    | 1 => match stuckCopy s d w with
      | some (T, ch, x) =>
        .next (modRun s T ch x.n fun x => { x with fault := none, status := 1, stopped := true })
      | none => .next s
    | 2 => match wokenInlet s d w with
      | some id => .next (popHeld s id false convertPkt)
      | none => .next s
    | 3 => match wokenInlet s d w with
      | some id => .next (popHeld s id true convertPkt)
      | none => .next s
    | _ => .next s
  else .fault .illFormed

/-! ### Notify writes (R368) -/

/-- The tag of a notify: the first 16 bytes of SHAKE256 over the key and bytes 0 to 15. -/
def notifyTag (key : BitVec 256) (b : List Byte) : List Byte := shake256 (bytesOfNat 32 key.toNat ++ b.take 16) 16

/-- R368: a notify write that reaches the endpoint of a die. -/
def execNotifyWrite (d : Nat) (msg : BitVec 256) (s : State) : Outcome State Fault Refusal :=
  if d < Config.dies then
    let b := bytesOfNat 32 msg.toNat
    let id := pkField b 0 2
    match mget s.inlets id with
    | none => .next (s.modDie d fun x => { x with notifyDrop := x.notifyDrop + 1 })
    | some x =>
      let v : BitVec 32 := BitVec.ofNat 32 (pkField b 4 4)
      let q := pkWord b 8
      if zeroAt b 2 2 ∧ notifyTag x.key b = (b.drop 16).take 16 ∧ x.seq.toNat < q.toNat ∧ tailAccepted x v then
        .next (putInlet s id { x with seq := q, tail := v })
      else .next (putInlet s id { x with dropped := bump32 x.dropped })
  else .fault .illFormed

/-! ### Recovery of the supervisor (R361 to R364) -/

/-- What a restarted S does with an inlet's packets (R363): a WAIT is evaluated from its beginning, its limit too. -/
def restartPkt (s : State) (id : Nat) (p : Pkt) : State :=
  match p with
  | .signal i _ _ _ sig => completePkt s id i sig none 0x40 false false
  | .copy i _ _ _ _ sig _ _ _ => completePkt s id i sig none 0x40 false false
  | .wait i w sig => putPkt s id (.wait i { w with key := none, ticket := none, hit := false, since := s.work } sig)
  | _ => s

/-- The packet at head after a restart: SIGNAL, COPY and NOP complete with 0x40 and are not performed (R363). -/
def restartHead (s : State) (id : Nat) : State :=
  let x := s.inlet id
  if x.head = x.tail ∨ !phaseRight s x ∨ waiting x ∨ headType s id ∉ [0, 4, 5] then s else endAtStart s id 0x40

/-- R363 for every inlet of a die. -/
def restartInlets (s : State) (d : Nat) : State :=
  (s.inlets.filter fun p => p.2.die == d).foldl (fun s p =>
    restartHead (p.2.live.foldl (fun s q => restartPkt s p.1 q) s) p.1) s

/-- Launches that are not done and hold a thread that `ok` admits. -/
def liveLaunches (s : State) (ok : Nat → Bool) : List Nat :=
  (s.launches.filter fun p => !p.2.done && (launchThreads s p.1).any ok).map (·.1)

/-- R362: M recovers a die: S is verified against its boot measurement and restarted, or stays stopped. -/
def recoverDie (s : State) (d : Nat) : State :=
  let x := s.die d
  -- records that S had taken and not served are in its queue again: S rebuilds its state from memory
  let taken := x.servicing.reverse.filterMap fun y => match y.work with
    | .fault r => some r
    | _ => none
  let kept := x.servicing.filter fun y => match y.work with
    | .packet _ _ => true
    | _ => false
  let x : Die := { x with faults := taken ++ x.faults, servicing := kept }
  if shake256 x.image 64 = x.measure then
    restartInlets (s.setDie d
      { x with running := true, delegated := BitVec.allOnes 5, reports := Vector.replicate 8 s.timebase }) d
  else
    let s := s.setDie d { x with running := false, delegated := 0 }
    (liveLaunches s fun g => dieOf (tileOf g) == d).foldl (fun s lk => stopLaunch s lk 0x32) s

/-- Launches of an owner that are not done. -/
def ownerLaunches (s : State) (o : Nat) : List Nat :=
  (s.launches.filter fun p => !p.2.done && p.2.owner == o).map (·.1)

/-- The trap frame of a hart: its integer registers and its pc (R361; the order of its bytes is a DESIGN CHOICE, entry
99). -/
def hartFrame (h : Hart) : List Byte := packBytes 8 ((h.x.toList.drop 1).map (·.toNat) ++ [h.pc.toNat])

/-- R361: S, which runs, takes an exception of its own while it is servicing: M logs the frames of the S harts and the record or packet
that S took last, recovers the die, and ends the launches of its owner. -/
def execSupervisorFaultEscalation (d : Nat) (s : State) : Outcome State Fault Refusal :=
  if d < Config.dies then
    match (s.die d).running, (s.die d).servicing with
    | true, x :: _ =>
      let frames := ((s.die d).harts.toList.filter (·.mode == .s)).flatMap hartFrame
      let s := s.modDie d fun y => { y with log := y.log ++ [frames ++ x.bytes] }
      let l := ownerLaunches s x.owner
      let s := l.foldl (fun s lk => (launchThreads s lk).foldl stopThread s) s
      .next (l.foldl (fun s lk => stopLaunch s lk 0x31) (recoverDie s d))
    | _, _ => .next s
  else .fault .illFormed

/-- R362: an S hart has not reported for two periods. The spec does not say which harts are S harts: the model takes each of
the eight harts of the complex for one, whatever privilege level it runs at (DESIGN CHOICE, entry 118). -/
def execWatchdogExpiry (d hart : Nat) (s : State) : Outcome State Fault Refusal :=
  if d < Config.dies ∧ hart < 8 then
    let x := s.die d
    .next (if x.running ∧ x.reports.toList.getD hart 0 + 2 * 2 ^ s.log2W ≤ s.timebase then recoverDie s d else s)
  else .fault .illFormed

/-- The next die in the promotion order, in rotation, whose complex runs. -/
def nextPrimary (s : State) : Option Nat :=
  let i := s.order.idxOf s.primary
  (s.order.drop (i + 1) ++ s.order.take i).find? fun d => (s.die d).running

/-- What promotes a die (R364): a stopped complex, a silent primary, or a resume that does not come, of the last promotion's
primary either. -/
def promotionDue (s : State) : Bool :=
  !(s.die s.primary).running || decide (s.heartbeat + Config.promoteTicks ≤ s.timebase) ||
    (s.pause.isSome && s.dies.any fun d =>
      d.2.drift == .reported && decide (max d.2.reportAt s.promotedAt + Config.promoteTicks ≤ s.timebase))

/-- R364. -/
def execPrimaryPromotion (s : State) : Outcome State Fault Refusal :=
  match nextPrimary s with
  | some d => .next (if s.booted ∧ promotionDue s then { s with primary := d, heartbeat := s.timebase, promotedAt := s.timebase } else s)
  | none => .next s

/-- R364. -/
def execPrimaryHeartbeat (s : State) : Outcome State Fault Refusal :=
  .next (if (s.die s.primary).running then { s with heartbeat := s.timebase } else s)

/-! ### Registers that Firn writes -/

/-- The ranges of the Sluice parameters in thousandths (R306). -/
def sluiceRange (i : Nat) : Nat × Nat :=
  match i with
  | 0 | 1 => (8000, 1000000)
  | 2 => (5, 100)
  | 3 | 4 => (100, 4000)
  | 5 => (1000000, 5200000)
  | 6 => (1000, 8000)
  | _ => (85000, 110000)

/-- A value of a parameter lies in its range. -/
def inRange (i v : Nat) : Bool := decide ((sluiceRange i).1 ≤ v) && decide (v ≤ (sluiceRange i).2)

/-- Firn may create an inlet, whose ring lies in paged memory (R365, R389). -/
def inletAllowed (s : State) (id o n prio die : Nat) (ring : Word) : Bool :=
  decide (id < 65536) && (mget s.inlets id).isNone && decide (1 ≤ o) && decide (o ≤ Config.owners) &&
    decide (4 ≤ n) && decide (n ≤ 16) && decide (prio ≤ 3) && decide (die < Config.dies) && ring.toNat % 64 == 0 &&
    region ring == .paged && region (ring + BitVec.ofNat 64 (64 * 2 ^ n - 1)) == .paged &&
    decide ((s.inlets.filter fun p => p.2.owner == o).length < 64) && (s.owner o).tdisp == .unlocked

/-- The bytes of a frame that goes from one owner to another, or to an owner from none: they were written under a key under
which they are no longer read, and what the reader finds is a free value (R391; entry 100). -/
def recodeFrame (s : State) (f : Nat) : State :=
  { s with mem := memWriteList s.mem (f * 4096) ((List.range 4096).map (Config.recoded s.draws)), draws := s.draws + 1 }

/-- Bytes have been written into a frame since it was scrubbed: one of them is listed. -/
def frameWritten (s : State) (f : Nat) : Bool := s.mem.any fun c => c.1 / 4096 == f

/-- A frame gets an owner (R390); none gets a kernel-reserved frame (R127, R327). What it holds under the key of another
owner, also where it had none in between, or under that of tag 0, is not presented (R391). A frame that no owner has had and
that holds nothing but the zeros of its scrub reads zero (DESIGN CHOICE, entry 100). -/
def giveFrame (s : State) (f o : Nat) : State :=
  let key := (mget s.coded f).getD 0
  if o ≠ 0 ∧ kernelRegion (f * 4096) then s
  else
    let s := if o ≠ 0 ∧ key ≠ o ∧ (key ≠ 0 ∨ frameWritten s f) then recodeFrame s f else s
    { s with frames := mput s.frames f o, coded := if o = 0 then s.coded else mput s.coded f o }

/-- A register is written. A write outside what its rule allows changes nothing; Sluice's limits are written by the
primary's S (R364). -/
def writeReg (s : State) (r : FirnReg) : State :=
  match r with
  | .sluice i v =>
    if (s.die s.primary).running ∧ v ≤ s.limits[i] ∧ inRange i.val v then { s with sluice := s.sluice.set i v } else s
  | .report die hart =>
    if die < Config.dies ∧ (s.die die).running then
      s.modDie die fun x => { x with reports := x.reports.setIfInBounds hart s.timebase }
    else s
  | .inlet id o n prio die ring block key =>
    if inletAllowed s id o n prio die ring then
      putInlet s id { owner := o, n := n, prio := prio, die := die, ring := ring, block := block, key := key }
    else s
  | .root o phys => s.modOwner o fun x => { x with root := phys }
  | .trapQueue o block =>
    tqMirror (s.modOwner o fun x => { x with tq := block, tqTail := 0, tqHead := 0, tqHeld := [], tqRecs := [], tqEsc := 0 }) o
  | .trapPolicy o agent => s.modOwner o fun x => { x with agentPolicy := agent }
  | .deterministic o on => s.modOwner o fun x => { x with det := on }
  | .frameOwner f o => giveFrame s f o
  | .lock f => { s with locks := if s.locks.contains f then s.locks else f :: s.locks }

/-- R306, R362, R365, R125, R127, R334, R347, R359, R390. -/
def execRegisterWrite (r : FirnReg) (s : State) : Outcome State Fault Refusal := .next (writeReg s r)

end Sys2Proof.Machine
end

