-- ==== Sys2Proof/Machine/Edge.lean ====
section
/-! DEFINITION. The edge (spec/19_edge_boot_isolation.md R385 to R393): reset and boot, assignment of berths, the SPDM
responders, the TDISP interfaces and lost link requests. -/

namespace Sys2Proof.Machine

open Host (Outcome)

/-! ### Wipes (R385) -/

/-- A memory key lies in the tile stores of a berth. -/
def inBerth (b key : Nat) : Bool :=
  decide (tileKey (b * 48) 0 ≤ key) && decide (key < tileKey (b * 48 + 48) 0)

/-- A bank lies in the tile stores of a berth. -/
def bankInBerth (b bank : Nat) : Bool :=
  decide (bankOf (tileKey (b * 48) 0) ≤ bank) && decide (bank < bankOf (tileKey (b * 48 + 48) 0))

/-- The physical slots of a core at its site, all free for their own architectural slots. -/
def initCore (s : State) (c : Nat) : State :=
  let n := siteSlots s c
  if n = 8 then s else s.setCore c { phys := (List.range n).map some }

/-- What a wipe leaves of a tile: its power state, which belongs to the silicon and not to the owner (R310 to R316), but
for the operating point, which is P3 after a wipe (R314). -/
def Tile.wiped (x : Tile) : Tile :=
  { hot := x.hot, overBudget := x.overBudget, temp := x.temp, power := x.power, lowered := x.lowered, steps := x.steps
    busyAt := x.busyAt, gated := x.gated }

/-- A berth is wiped: its tile stores and everything that its tiles hold (R385). -/
def wipeBerth (s : State) (b : Nat) : State :=
  let out (T : Nat) : Bool := berthOf T != b
  let gone := (s.traffic.filter fun r => !out r.tile).map (·.id)
  let s := { s with
    mem := s.mem.filter fun c => !inBerth b c.1
    poison := s.poison.filter fun u => !inBerth b (u * 64)
    tiles := s.tiles.map fun p => if out p.1 then p else (p.1, p.2.wiped)
    cores := s.cores.filter fun p => out (p.1 / 4)
    threads := s.threads.filter fun p => out (tileOf p.1)
    barriers := s.barriers.filter fun p => p.1 % 64 != b
    traffic := s.traffic.filter fun r => out r.tile
    atBank := s.atBank.filter fun x => !gone.contains x.2
    served := s.served.filter fun p => !bankInBerth b p.1
    usedAt := s.usedAt.filter fun p => !bankInBerth b p.1
    rputs := s.rputs.filter fun x => out (tileOf x.sender) && out (tileOf x.target)
    floes := s.floes.filter fun f => out f.src }
  (List.range 192).foldl (fun s k => initCore s (b * 192 + k)) s

/-- Physical byte `p` lies in a frame of an owner (R390). -/
def inFrames (s : State) (o p : Nat) : Bool :=
  decide (p < Config.hbmBytes) && (mget s.frames (p / 4096)).getD 0 == o

/-- The frames of an owner are scrubbed. -/
def wipeFrames (s : State) (o : Nat) : State :=
  { s with
    mem := s.mem.filter fun c => !inFrames s o c.1
    poison := s.poison.filter fun u => !inFrames s o (u * 64) }

/-- Every launch of an owner has completed. -/
def ownerQuiet (s : State) (o : Nat) : Bool := (ownerLaunches s o).isEmpty

/-! ### Assignment (R10, R385, R389, R391) -/

/-- M draws a key for an owner from the random source of its die (R391). -/
def drawKey (s : State) (o : Nat) : State :=
  { s with keys := mput s.keys o (Config.randomKey s.draws), draws := s.draws + 1, assigned := true }

/-- The keys of the frames after that of an owner is erased (R391): its frames are scrubbed, and nothing of it is left in
them; what it wrote in others, which it has no longer, has a key that no tag has any more, numbered 41. -/
def eraseKey (s : State) (o : Nat) : FMap Nat :=
  (s.coded.filter fun p => !(p.2 == o && mget s.frames p.1 == some o)).map fun p => if p.2 = o then (p.1, 41) else p

/-- An owner is unassigned: its berths are wiped, its frames are scrubbed and its key is erased (R391), and S services nothing
of it any more (R357). Its error counts stay until it is assigned again (R352). -/
def unassignOwner (s : State) (o : Nat) : State :=
  let x := s.owner o
  let s := x.berths.foldl wipeBerth (wipeFrames s o)
  { s with
    frames := s.frames.filter fun p => p.2 != o
    coded := eraseKey s o
    keys := s.keys.filter fun p => p.1 != o
    inlets := s.inlets.filter fun p => p.2.owner != o
    launches := s.launches.filter fun p => p.2.owner != o
    dies := s.dies.map fun p => (p.1, { p.2 with servicing := p.2.servicing.filter fun y => y.owner != o })
    owners := mput s.owners o { det := x.det, agentPolicy := x.agentPolicy, data := x.data, misuse := x.misuse } }

/-- A berth leaves its owner; with its last berth the owner is unassigned (R391; DESIGN CHOICE, entry 81). -/
def leaveBerth (s : State) (o b : Nat) : State :=
  if (s.owner o).berths == [b] then unassignOwner s o
  else s.modOwner o fun x => { x with berths := x.berths.filter (· != b) }

/-- R385, R391: Firn assigns a berth, which is wiped first; refused while a launch of its former owner runs, while an
interface is locked, or after a failed boot. The first berth assigns the owner: its key is drawn. An owner that runs
launches may get a further berth (R10, R11): what becomes of i4 in its live threads the spec does not say, and here they
keep the value of their placement, while the window, thread ids and the layout of task regions follow the new number of
berths at once (DESIGN CHOICE, entry 81). -/
def execBerthAssignment (o b : Nat) (s : State) : Outcome State Fault Refusal :=
  if 1 ≤ o ∧ o ≤ Config.owners ∧ b < Config.berths then
    let old := berthOwner s b
    if !s.booted ∨ (old ≠ 0 ∧ (!ownerQuiet s old ∨ (s.owner old).tdisp ≠ .unlocked)) ∨ (s.owner o).tdisp ≠ .unlocked then
      .next s
    else
      let s := if old = 0 then s else leaveBerth s old b
      let s := if (s.owner o).berths.isEmpty then
          (drawKey s o).modOwner o fun x => { x with data := 0, misuse := 0 }
        else s
      .next (wipeBerth (s.modOwner o fun x => { x with berths := x.berths ++ [b] }) b)
  else .fault .illFormed

/-- R391: an owner is unassigned: its frames are scrubbed and its key is erased. -/
def execOwnerUnassignment (o : Nat) (s : State) : Outcome State Fault Refusal :=
  if 1 ≤ o ∧ o ≤ Config.owners then
    .next (if !ownerQuiet s o ∨ (s.owner o).tdisp ≠ .unlocked then s else unassignOwner s o)
  else .fault .illFormed

/-! ### Reset and boot (R385 to R387) -/

/-- The fields of the configuration table lie within their limits (R386). -/
def tableFieldsOk (t : List Byte) (fused : BitVec 8) : Bool :=
  let order := (List.range 8).map fun k => pkField t (16 + k) 1
  (List.range 8).all (fun d => order.contains d) &&
    decide (16 ≤ pkField t 24 1) && decide (pkField t 24 1 ≤ 26) &&
    decide (16 ≤ pkField t 25 1) && decide (pkField t 25 1 ≤ 24) &&
    decide (pkField t 26 1 ≤ 2) && pkField t 26 1 == fused.toNat && decide (pkField t 27 1 < 4) &&
    (List.range 8).all (fun i => inRange i (pkField t (28 + 4 * i) 4)) &&
    pkField t 60 8 % 2 == 0 && decide (pkField t 60 8 < 2 ^ 41) && decide (pkField t 68 1 ≤ 1) && zeroAt t 69 11

/-- The first failure of a die's table (R387). -/
def tableCode (s : State) (t : List Byte) : Nat :=
  if !Config.falconVerify (shake256 (t.take 80) 64) (t.drop 80) then 1
  else if pkField t 0 4 ≠ 1 ∨ pkField t 4 4 ≠ 1360 then 2
  else if pkField t 8 8 < s.rollback then 3
  else if !tableFieldsOk t s.fusedLife then 4
  else 0

/-- The first code that is not 0 among the dies. -/
def firstCode (l : List Nat) : Nat := l.foldl (fun m c => if c ≠ 0 ∧ (m = 0 ∨ c < m) then c else m) 0

/-- How boot ends (R387): 0, or the first failing code. -/
def bootCode (s : State) : Nat :=
  let dies := List.range Config.dies
  let tables := firstCode (dies.map fun d => tableCode s (s.die d).flash)
  if tables ≠ 0 then tables
  else if dies.any fun d => !Config.falconVerify (shake256 (s.die d).image 64) (s.die d).imageSig then 5
  else if dies.any fun d => shake256 (s.die d).flash 64 ≠ shake256 (s.die 0).flash 64 then 6
  else 0

/-- What a reset keeps of a die: fuses, boot flash and the S image. -/
def keepDie (x : Die) : Die :=
  { repair := x.repair, slots := x.slots, flash := x.flash, image := x.image, imageSig := x.imageSig }

/-- The module wiped (R385): what is left is the fuses, the flash and the images. R385 speaks of the module's own memory; of
what a UALink window shows after a reset, which is a peer's memory, it says nothing, and here it reads zero (DESIGN CHOICE,
entry 120). -/
def wipeModule (s : State) : State :=
  { State.reset with
    rollback := s.rollback, fusedLife := s.fusedLife, dies := s.dies.map fun p => (p.1, keepDie p.2)
    agenda := s.agenda, focus := s.focus, draws := s.draws }

/-- Owners as the table sets them (R386): deterministic owners and the trap policy. -/
def tableOwners (t : List Byte) : FMap Owner :=
  (List.range Config.owners).map fun k =>
    (k + 1, { det := pkField t 60 8 / 2 ^ (k + 1) % 2 == 1, agentPolicy := pkField t 68 1 == 1 })

/-- A good boot: the fields of the table, the measurement, S started with the interrupts and exceptions of R357 delegated to
it, the rollback counter raised. -/
def bootGood (s : State) : State :=
  let t := (s.die 0).flash
  let order := (List.range 8).map fun k => pkField t (16 + k) 1
  let lim := Vector.ofFn fun (i : Fin 8) => pkField t (28 + 4 * i.val) 4
  let s := (List.range Config.dies).foldl (fun s d =>
    s.modDie d fun x => { x with running := true, delegated := BitVec.allOnes 5, measure := shake256 x.image 64 }) s
  let s := { s with
    log2E := pkField t 24 1, log2W := pkField t 25 1, sluice := lim, limits := lim
    revision := pkField t 8 8, order := order, primary := order.headD 0, lifeCycle := BitVec.ofNat 8 (pkField t 26 1)
    pcieRole := BitVec.ofNat 8 (pkField t 27 1), trapAgent := pkField t 68 1 == 1
    rollback := pkField t 8 8, booted := true, bootStatus := 0, owners := tableOwners t }
  -- tag 0 has a key too; when M draws it the spec does not say (DESIGN CHOICE, entry 100)
  (coresToFill s).foldl initCore { s with keys := [(0, Config.randomKey s.draws)], draws := s.draws + 1 }

/-- R385, R387: a reset wipes the module and boots it, or stops with the first failing code. -/
def execModuleReset (s : State) : Outcome State Fault Refusal :=
  let s := wipeModule s
  let code := bootCode s
  .next (if code = 0 then bootGood s else { s with bootStatus := code })

/-- R385: a change of life-cycle state wipes the module. -/
def execLifeCycleStateChange (st : BitVec 8) (s : State) : Outcome State Fault Refusal :=
  .next { wipeModule s with fusedLife := st }

/-! ### SPDM (R388) -/

/-- The response codes of SPDM 1.3 (DSP0274; PRESUMED, entry 9). -/
def spdmVersion : Nat := 0x04
def spdmCapabilities : Nat := 0x61
def spdmAlgorithms : Nat := 0x63
def spdmDigests : Nat := 0x01
def spdmCertificate : Nat := 0x02
def spdmChallengeAuth : Nat := 0x03
def spdmMeasurements : Nat := 0x60
def spdmKeyExchangeRsp : Nat := 0x64
def spdmFinishRsp : Nat := 0x65
def spdmEndSessionAck : Nat := 0x6C
def spdmError : Nat := 0x7F
/-- Error codes: InvalidRequest, UnexpectedRequest, UnsupportedRequest. -/
def errInvalid : Nat := 0x01
def errUnexpected : Nat := 0x04
def errUnsupported : Nat := 0x07

/-- A response of a die: version 1.3, the code and its payload; it joins the transcript. -/
def answer (s : State) (d code : Nat) (payload : List Byte) : State :=
  let b : List Byte := 0x13 :: BitVec.ofNat 8 code :: payload
  s.modDie d fun x => { x with answers := b :: x.answers, transcript := x.transcript ++ b }

/-- ERROR with a code. -/
def answerError (s : State) (d code : Nat) : State := answer s d spdmError (bytesOfNat 1 code)

/-- The responder moves to a state. -/
def setSpdm (s : State) (d : Nat) (x : Spdm) : State := s.modDie d fun y => { y with spdm := x }

/-- A request that needs a connection: in another state ERROR UnexpectedRequest. -/
def connectedOp (d : Nat) (s : State) (f : State → State) : Outcome State Fault Refusal :=
  if d < Config.dies then .next (if (s.die d).spdm = .none then answerError s d errUnexpected else f s)
  else .fault .illFormed

/-- The repair map of a die as bytes: the failed row of each column, and the slot counts of its cores (R8, R388; the spec
gives no form: DESIGN CHOICE, entry 9). -/
def repairMap (x : Die) : List Byte :=
  (x.repair.toList.flatMap fun r => bytesOfNat 1 r.val) ++ x.slots.flatMap fun p => bytesOfNat 2 p.1 ++ bytesOfNat 1 p.2

/-- A measurement block (R388). -/
def measurement (s : State) (d index : Nat) : Option (List Byte) :=
  let x := s.die d
  match index with
  | 1 => some (shake256 Config.monitorRom 64)
  | 2 => some (shake256 x.flash 64)
  | 3 => some x.measure
  | 4 => some (bytesOfNat 1 s.fusedLife.toNat ++ bytesOfNat 8 s.rollback ++
      shake256 (repairMap x) 64)
  | _ => none

def execGetVersion (d : Nat) (s : State) : Outcome State Fault Refusal :=
  if d < Config.dies then
    let s := s.modDie d fun x => { x with spdm := .connected, transcript := [] }
    .next (answer s d spdmVersion [0x13])
  else .fault .illFormed

def execGetCapabilities (d : Nat) (s : State) : Outcome State Fault Refusal :=
  connectedOp d s fun s => answer s d spdmCapabilities []

/-- The fields of an ALGORITHMS response that selects one extended asymmetric algorithm, Falcon-1024, and one extended
hash, SHAKE256 (R388; the layout is DSP0274's: PRESUMED, entry 9). -/
def algorithmsBody : List Byte :=
  bytesOfNat 2 0 ++ bytesOfNat 2 44 ++ bytesOfNat 2 1 ++ bytesOfNat 4 0 ++ bytesOfNat 4 0 ++ bytesOfNat 4 0 ++
    bytesOfNat 12 0 ++ bytesOfNat 1 1 ++ bytesOfNat 1 1 ++ bytesOfNat 2 0 ++
    bytesOfNat 4 (Config.algorithmId 0).toNat ++ bytesOfNat 4 (Config.algorithmId 1).toNat

/-- The key is a Falcon-1024 key, offered through the extended asymmetric field, and the hash SHAKE256; a requester that
offers either not finds no algorithm. -/
def execNegotiateAlgorithms (d : Nat) (falcon shake : Bool) (s : State) : Outcome State Fault Refusal :=
  connectedOp d s fun s =>
    if falcon ∧ shake then answer s d spdmAlgorithms algorithmsBody else answerError s d errInvalid

def execGetDigests (d : Nat) (s : State) : Outcome State Fault Refusal :=
  connectedOp d s fun s => answer s d spdmDigests (shake256 (Config.certificate d) 64)

def execGetCertificate (d : Nat) (s : State) : Outcome State Fault Refusal :=
  connectedOp d s fun s => answer s d spdmCertificate (Config.certificate d)

/-- The die signs the transcript with its identity key. -/
def execChallenge (d : Nat) (nonce : BitVec 256) (s : State) : Outcome State Fault Refusal :=
  connectedOp d s fun s =>
    answer s d spdmChallengeAuth (Config.falconSign d ((s.die d).transcript ++ bytesOfNat 32 nonce.toNat))

/-- Index 0 gives the number of blocks, 0xFF all of them (DSP0274; PRESUMED, entry 9). -/
def execGetMeasurements (d index : Nat) (s : State) : Outcome State Fault Refusal :=
  connectedOp d s fun s =>
    if index = 0 then answer s d spdmMeasurements [4]
    else if index = 255 then answer s d spdmMeasurements ([1, 2, 3, 4].flatMap fun i => (measurement s d i).getD [])
    else
      match measurement s d index with
      | some b => answer s d spdmMeasurements b
      | none => answerError s d errInvalid

def execKeyExchange (d : Nat) (data : BitVec 256) (s : State) : Outcome State Fault Refusal :=
  connectedOp d s fun s =>
    let s := answer s d spdmKeyExchangeRsp
      (bytesOfNat 64 (Config.randomKey s.draws).toNat ++
        Config.falconSign d ((s.die d).transcript ++ bytesOfNat 32 data.toNat))
    setSpdm { s with draws := s.draws + 1 } d .exchanged

def execFinish (d : Nat) (s : State) : Outcome State Fault Refusal :=
  connectedOp d s fun s =>
    if (s.die d).spdm = .exchanged then setSpdm (answer s d spdmFinishRsp []) d .session else answerError s d errUnexpected

def execEndSession (d : Nat) (s : State) : Outcome State Fault Refusal :=
  connectedOp d s fun s =>
    if (s.die d).spdm = .session then setSpdm (answer s d spdmEndSessionAck []) d .connected
    else answerError s d errUnexpected

/-- Every other request receives ERROR with code UnsupportedRequest. -/
def execSpdmUnsupportedRequest (d : Nat) (s : State) : Outcome State Fault Refusal :=
  if d < Config.dies then .next (answerError s d errUnsupported) else .fault .illFormed

/-! ### TDISP (R389) -/

/-- The interface of an owner enters a state. -/
def setTdisp (s : State) (o : Nat) (x : Tdisp) : State := s.modOwner o fun y => { y with tdisp := x }

/-- An event of an owner's interface. -/
def tdispOp (o : Nat) (s : State) (f : Tdisp → State) : Outcome State Fault Refusal :=
  if 1 ≤ o ∧ o ≤ Config.owners then .next (f (s.owner o).tdisp) else .fault .illFormed

/-- Every live launch of an owner is stopped (R312, R389). -/
def stopOwner (s : State) (o : Nat) : State := (ownerLaunches s o).foldl (fun s lk => stopLaunch s lk 0x33) s

/-- How a TDISP request was answered: carried out, or a TDISP error response. -/
def tdispReply (s : State) (o : Nat) (ok : Bool) : State := s.modOwner o fun y => { y with reply := some ok }

/-- A STOP that has been taken ends once the owner's launches have ended: its berths and frames are wiped, and the
interface is unlocked (R389). -/
def settleOwner (s : State) (o : Nat) : State :=
  if (s.owner o).closing ∧ ownerQuiet s o then
    let s := (s.owner o).berths.foldl wipeBerth (wipeFrames s o)
    s.modOwner o fun y => { y with tdisp := .unlocked, closing := false }
  else s

/-- Every STOP that can end does. -/
def settleOwners (s : State) : State := s.owners.foldl (fun s p => settleOwner s p.1) s

/-- R389: a state that the table has no row for answers with an error too, and nothing changes (DESIGN CHOICE, entry
101). -/
def execLockInterfaceRequest (o : Nat) (s : State) : Outcome State Fault Refusal :=
  tdispOp o s fun x => if x = .unlocked then tdispReply (setTdisp s o .locked) o true else tdispReply s o false

def execStartInterfaceRequest (o : Nat) (s : State) : Outcome State Fault Refusal :=
  tdispOp o s fun x =>
    if x = .locked ∧ !(s.owner o).closing then tdispReply (setTdisp s o .run) o true else tdispReply s o false

/-- The launches are stopped; the wipe and the new state follow at once when the last of them has ended. Until then no launch
of the owner starts, and the interface does not start either. -/
def execStopInterfaceRequest (o : Nat) (s : State) : Outcome State Fault Refusal :=
  tdispOp o s fun x =>
    if x = .unlocked then tdispReply s o false
    else
      let s := stopOwner s o
      settleOwner ((tdispReply s o true).modOwner o fun y => { y with closing := true }) o

def execTdispInterfaceError (o : Nat) (s : State) : Outcome State Fault Refusal :=
  tdispOp o s fun x => if x = .run then setTdisp (stopOwner s o) o .error else s

/-! ### Links (R393) -/

/-- The next access of an inlet's COPY crosses a link. -/
def Pkt.crossesLink (s : State) (o : Nat) (p : Pkt) : Bool :=
  match p with
  | .copy _ src dst len next _ _ _ _ => decide (next < len) &&
      (linkAt s o (src + BitVec.ofNat 64 next) .load || linkAt s o (dst + BitVec.ofNat 64 next) .store)
  | _ => false

/-- The next access over a link of the inlet COPY numbered `n` is lost. -/
def losePacket (s : State) (n : Nat) : State :=
  { s with inlets := s.inlets.map fun p => (p.1, { p.2 with live := p.2.live.map fun q =>
      match q with
      | .copy i src dst len next sig err stuck link =>
        if link.n = n ∧ q.crossesLink s p.2.owner then
          .copy i src dst len next sig err stuck { link with lost := true }
        else q
      | _ => q }) }

/-- R393: a request lost on a failed link completes as an uncorrectable read: zero, and an error counted. The number is
that of a request, of a copy whose channel reads its source over the link, of an inlet's COPY that does, or of a floe whose
memory stop does. -/
def execLinkRequestLost (id : Nat) (s : State) : Outcome State Fault Refusal :=
  match findReq s id with
  | none => .next (loseFloeUnit (losePacket (loseCopyRead s id) id) id)
  | some r =>
    if overLink r.key ∧ r.stage = .sent ∧ !blockedIn r s.traffic then
      .next (leaveBank (afterPerform (dataError s r.who) r 0) id)
    else .next s

end Sys2Proof.Machine
end

