-- ==== Sys2Proof/Machine/Integer.lean ====
section
/-! DEFINITION. Integer and address class (spec/06_integer_class.md R99 to R114). `width` says once what the two widths
of R100 do: the 64-bit form on whole values, the 32-bit form on the low halves with its result sign-extended. -/

namespace Sys2Proof.Machine

open Host (Outcome)

/-- The low 32 bits of a value. -/
def lo32 (x : Word) : BitVec 32 := x.setWidth 32

/-- W of R100. -/
def sextW (x : BitVec 32) : Word := x.signExtend 64

/-- A two-operand result in both widths (R100). -/
def width2 (w : Bool) (f : Word → Word → Word) (f32 : BitVec 32 → BitVec 32 → BitVec 32) (a b : Word) : Word :=
  if w then sextW (f32 (lo32 a) (lo32 b)) else f a b

/-! ### The results -/

/-- A signed value as an integer product's high half (R104). -/
def mulhS {n : Nat} (a b : BitVec n) : BitVec n := ((a.signExtend (2 * n)) * (b.signExtend (2 * n))).extractLsb' n n

/-- An unsigned product's high half (R104). -/
def mulhU {n : Nat} (a b : BitVec n) : BitVec n := ((a.setWidth (2 * n)) * (b.setWidth (2 * n))).extractLsb' n n

/-- Signed quotient with the results of R105. -/
def quotS {n : Nat} (a b : BitVec n) : BitVec n :=
  if b = 0 then BitVec.allOnes n
  else if a = BitVec.intMin n ∧ b = BitVec.allOnes n then a
  else BitVec.ofInt n (a.toInt.tdiv b.toInt)

/-- Signed remainder with the results of R105. -/
def remS {n : Nat} (a b : BitVec n) : BitVec n :=
  if b = 0 then a
  else if a = BitVec.intMin n ∧ b = BitVec.allOnes n then 0
  else BitVec.ofInt n (a.toInt.tmod b.toInt)

/-- Unsigned quotient with the results of R105. -/
def quotU {n : Nat} (a b : BitVec n) : BitVec n :=
  if b = 0 then BitVec.allOnes n else BitVec.ofNat n (a.toNat / b.toNat)

/-- Unsigned remainder with the results of R105. -/
def remU {n : Nat} (a b : BitVec n) : BitVec n := if b = 0 then a else BitVec.ofNat n (a.toNat % b.toNat)

/-- A shift count: the low log2 n bits (R106). -/
def shCount {n : Nat} (b : BitVec n) : Nat := b.toNat % n

def shlR {n : Nat} (a b : BitVec n) : BitVec n := a <<< shCount b
def shrR {n : Nat} (a b : BitVec n) : BitVec n := a >>> shCount b
def sarR {n : Nat} (a b : BitVec n) : BitVec n := a.sshiftRight (shCount b)
def rolR {n : Nat} (a b : BitVec n) : BitVec n := (a <<< shCount b) ||| (a >>> (n - shCount b))
def minS {n : Nat} (a b : BitVec n) : BitVec n := if a.sle b then a else b
def maxS {n : Nat} (a b : BitVec n) : BitVec n := if b.sle a then a else b
def minU {n : Nat} (a b : BitVec n) : BitVec n := if a.ule b then a else b
def maxU {n : Nat} (a b : BitVec n) : BitVec n := if b.ule a then a else b
def andNot {n : Nat} (a b : BitVec n) : BitVec n := a &&& ~~~ b
def absS {n : Nat} (a : BitVec n) : BitVec n := if a.slt 0 then -a else a

/-- Ones among the low `k` bits. -/
def popBits (a : Word) : Nat → Nat
  | 0 => 0
  | k + 1 => popBits a k + (if a.getLsbD k then 1 else 0)

/-- Zeros above the highest one among the low `k` bits (`k` when there is none). -/
def clzBits (a : Word) : Nat → Nat
  | 0 => 0
  | k + 1 => if a.getLsbD k then 0 else clzBits a k + 1

/-- Zeros below the lowest one of the `k` bits from bit `i` (`k` when there is none). -/
def ctzBits (a : Word) (i : Nat) : Nat → Nat
  | 0 => 0
  | k + 1 => if a.getLsbD i then 0 else ctzBits a (i + 1) k + 1

/-- R109. -/
def bcntR (k : BcntKind) (a : Word) : Word :=
  match k with
  | .pop => BitVec.ofNat 64 (popBits a 64)
  | .clz => BitVec.ofNat 64 (clzBits a 64)
  | .ctz => BitVec.ofNat 64 (ctzBits a 0 64)

/-- `len` ones from bit `pos`. -/
def maskAt (n pos len : Nat) : BitVec n := BitVec.ofNat n ((2 ^ len - 1) * 2 ^ pos)

/-- R110: `bext`. -/
def bextR {n : Nat} (a : BitVec n) (pos len : Nat) : BitVec n := (a >>> pos) &&& maskAt n 0 len

/-- R110: `bins`. -/
def binsR {n : Nat} (d a : BitVec n) (pos len : Nat) : BitVec n :=
  (d &&& ~~~ maskAt n pos len) ||| ((a &&& maskAt n 0 len) <<< pos)

/-- R111. -/
def extR (k : ExtKind) (a : Word) : Word :=
  match k with
  | .b => (a.setWidth 8).signExtend 64
  | .h => (a.setWidth 16).signExtend 64
  | .w => (a.setWidth 32).signExtend 64
  | .bu => (a.setWidth 8).setWidth 64
  | .hu => (a.setWidth 16).setWidth 64
  | .wu => (a.setWidth 32).setWidth 64

/-- R113: `li.hi` replaces bits [63:40]. -/
def liHiR (d : Word) (n : BitVec 24) : Word := n ++ d.extractLsb' 0 40

/-- A divisor of zero, in the width of the form (R105). -/
def zeroDivisor (w : Bool) (b : Word) : Bool := if w then lo32 b == 0 else b == 0

/-- A division: the trap when the divisor is zero and the thread enabled it, else the result (R105). -/
def divide (s : State) (g : Nat) (w : Bool) (f : Word → Word → Word) (f32 : BitVec 32 → BitVec 32 → BitVec 32)
    (v : List Word) : Except Stop Word :=
  if zeroDivisor w (v.getD 1 0) ∧ (s.thread g).dz then .error (.localTrap 1 0 0)
  else .ok (width2 w f f32 (v.getD 0 0) (v.getD 1 0))

/-- Latency of a division (R101). -/
def divLat (w : Bool) : Nat := if w then 40 else 64

/-- Operands of an instruction whose d field is read after its sources and written: it names g0 to g31 (R99). -/
def operandsRmw (s : State) (g : Nat) (srcs : List RegNum) (d : RegNum) : Except Stop Opnds := do
  let _ ← srcFields s g srcs
  if 32 ≤ d.toNat then throw (illegalOperand d)
  operands s g (srcs ++ [d]) [d]

/-! ### Meanings -/

/-- R104: `add`. -/
def execAdd (st : Stall) (w : Bool) (d a b : RegNum) (s : State) : Outcome State Fault Refusal :=
  runInstr s s.cur false fun s c =>
    compute s s.cur c st 4 [a, b] d fun v => .ok (width2 w (· + ·) (· + ·) (v.getD 0 0) (v.getD 1 0))

/-- R104: `sub`. -/
def execSub (st : Stall) (w : Bool) (d a b : RegNum) (s : State) : Outcome State Fault Refusal :=
  runInstr s s.cur false fun s c =>
    compute s s.cur c st 4 [a, b] d fun v => .ok (width2 w (· - ·) (· - ·) (v.getD 0 0) (v.getD 1 0))

/-- R104: `mul`. -/
def execMul (st : Stall) (w : Bool) (d a b : RegNum) (s : State) : Outcome State Fault Refusal :=
  runInstr s s.cur false fun s c =>
    compute s s.cur c st 12 [a, b] d fun v => .ok (width2 w (· * ·) (· * ·) (v.getD 0 0) (v.getD 1 0))

/-- R104: `mulh`. -/
def execMulh (st : Stall) (w : Bool) (d a b : RegNum) (s : State) : Outcome State Fault Refusal :=
  runInstr s s.cur false fun s c =>
    compute s s.cur c st 12 [a, b] d fun v => .ok (width2 w mulhS mulhS (v.getD 0 0) (v.getD 1 0))

/-- R104: `mulhu`. -/
def execMulhu (st : Stall) (w : Bool) (d a b : RegNum) (s : State) : Outcome State Fault Refusal :=
  runInstr s s.cur false fun s c =>
    compute s s.cur c st 12 [a, b] d fun v => .ok (width2 w mulhU mulhU (v.getD 0 0) (v.getD 1 0))

/-- R106: `and`. -/
def execAnd (st : Stall) (w : Bool) (d a b : RegNum) (s : State) : Outcome State Fault Refusal :=
  runInstr s s.cur false fun s c =>
    compute s s.cur c st 4 [a, b] d fun v => .ok (width2 w (· &&& ·) (· &&& ·) (v.getD 0 0) (v.getD 1 0))

/-- R106: `or`. -/
def execOr (st : Stall) (w : Bool) (d a b : RegNum) (s : State) : Outcome State Fault Refusal :=
  runInstr s s.cur false fun s c =>
    compute s s.cur c st 4 [a, b] d fun v => .ok (width2 w (· ||| ·) (· ||| ·) (v.getD 0 0) (v.getD 1 0))

/-- R106: `xor`. -/
def execXor (st : Stall) (w : Bool) (d a b : RegNum) (s : State) : Outcome State Fault Refusal :=
  runInstr s s.cur false fun s c =>
    compute s s.cur c st 4 [a, b] d fun v => .ok (width2 w (· ^^^ ·) (· ^^^ ·) (v.getD 0 0) (v.getD 1 0))

/-- R106: `andn`. -/
def execAndn (st : Stall) (w : Bool) (d a b : RegNum) (s : State) : Outcome State Fault Refusal :=
  runInstr s s.cur false fun s c =>
    compute s s.cur c st 4 [a, b] d fun v => .ok (width2 w andNot andNot (v.getD 0 0) (v.getD 1 0))

/-- R106: `shl`. -/
def execShl (st : Stall) (w : Bool) (d a b : RegNum) (s : State) : Outcome State Fault Refusal :=
  runInstr s s.cur false fun s c =>
    compute s s.cur c st 4 [a, b] d fun v => .ok (width2 w shlR shlR (v.getD 0 0) (v.getD 1 0))

/-- R106: `shr`. -/
def execShr (st : Stall) (w : Bool) (d a b : RegNum) (s : State) : Outcome State Fault Refusal :=
  runInstr s s.cur false fun s c =>
    compute s s.cur c st 4 [a, b] d fun v => .ok (width2 w shrR shrR (v.getD 0 0) (v.getD 1 0))

/-- R106: `sar`. -/
def execSar (st : Stall) (w : Bool) (d a b : RegNum) (s : State) : Outcome State Fault Refusal :=
  runInstr s s.cur false fun s c =>
    compute s s.cur c st 4 [a, b] d fun v => .ok (width2 w sarR sarR (v.getD 0 0) (v.getD 1 0))

/-- R106: `rol`. -/
def execRol (st : Stall) (w : Bool) (d a b : RegNum) (s : State) : Outcome State Fault Refusal :=
  runInstr s s.cur false fun s c =>
    compute s s.cur c st 4 [a, b] d fun v => .ok (width2 w rolR rolR (v.getD 0 0) (v.getD 1 0))

/-- R106: `min`. -/
def execMin (st : Stall) (w : Bool) (d a b : RegNum) (s : State) : Outcome State Fault Refusal :=
  runInstr s s.cur false fun s c =>
    compute s s.cur c st 4 [a, b] d fun v => .ok (width2 w minS minS (v.getD 0 0) (v.getD 1 0))

/-- R106: `max`. -/
def execMax (st : Stall) (w : Bool) (d a b : RegNum) (s : State) : Outcome State Fault Refusal :=
  runInstr s s.cur false fun s c =>
    compute s s.cur c st 4 [a, b] d fun v => .ok (width2 w maxS maxS (v.getD 0 0) (v.getD 1 0))

/-- R106: `minu`. -/
def execMinu (st : Stall) (w : Bool) (d a b : RegNum) (s : State) : Outcome State Fault Refusal :=
  runInstr s s.cur false fun s c =>
    compute s s.cur c st 4 [a, b] d fun v => .ok (width2 w minU minU (v.getD 0 0) (v.getD 1 0))

/-- R106: `maxu`. -/
def execMaxu (st : Stall) (w : Bool) (d a b : RegNum) (s : State) : Outcome State Fault Refusal :=
  runInstr s s.cur false fun s c =>
    compute s s.cur c st 4 [a, b] d fun v => .ok (width2 w maxU maxU (v.getD 0 0) (v.getD 1 0))

/-- R104: `addi` with a 14-bit immediate. -/
def execAddiC (st : Stall) (w : Bool) (d a : RegNum) (n : BitVec 14) (s : State) : Outcome State Fault Refusal :=
  runInstr s s.cur false fun s c =>
    compute s s.cur c st 4 [a] d fun v => .ok (width2 w (· + ·) (· + ·) (v.getD 0 0) (n.signExtend 64))

/-- R104: `addi` with a 40-bit immediate. -/
def execAddiD (st : Stall) (w : Bool) (d a : RegNum) (n : BitVec 40) (s : State) : Outcome State Fault Refusal :=
  runInstr s s.cur false fun s c =>
    compute s s.cur c st 4 [a] d fun v => .ok (width2 w (· + ·) (· + ·) (v.getD 0 0) (n.signExtend 64))

/-- R105: `div`. -/
def execDiv (st : Stall) (w : Bool) (d a b : RegNum) (s : State) : Outcome State Fault Refusal :=
  runInstr s s.cur false fun s c =>
    compute s s.cur c st (divLat w) [a, b] d (divide s s.cur w quotS quotS)

/-- R105: `divu`. -/
def execDivu (st : Stall) (w : Bool) (d a b : RegNum) (s : State) : Outcome State Fault Refusal :=
  runInstr s s.cur false fun s c =>
    compute s s.cur c st (divLat w) [a, b] d (divide s s.cur w quotU quotU)

/-- R105: `rem`. -/
def execRem (st : Stall) (w : Bool) (d a b : RegNum) (s : State) : Outcome State Fault Refusal :=
  runInstr s s.cur false fun s c =>
    compute s s.cur c st (divLat w) [a, b] d (divide s s.cur w remS remS)

/-- R105: `remu`. -/
def execRemu (st : Stall) (w : Bool) (d a b : RegNum) (s : State) : Outcome State Fault Refusal :=
  runInstr s s.cur false fun s c =>
    compute s s.cur c st (divLat w) [a, b] d (divide s s.cur w remU remU)

/-- R104: `mad`. -/
def execMad (st : Stall) (w : Bool) (d a b c' : RegNum) (s : State) : Outcome State Fault Refusal :=
  runInstr s s.cur false fun s c =>
    compute s s.cur c st 16 [a, b, c'] d fun v =>
      .ok (width2 w (· + ·) (· + ·) (width2 w (· * ·) (· * ·) (v.getD 0 0) (v.getD 1 0)) (v.getD 2 0))

/-- R107. -/
def execSet (st : Stall) (cc : Cond) (d a b : RegNum) (s : State) : Outcome State Fault Refusal :=
  runInstr s s.cur false fun s c =>
    compute s s.cur c st 4 [a, b] d fun v => .ok (if condHolds cc (v.getD 0 0) (v.getD 1 0) then 1 else 0)

/-- R108. -/
def execSel (st : Stall) (d a b c' : RegNum) (s : State) : Outcome State Fault Refusal :=
  runInstr s s.cur false fun s c =>
    compute s s.cur c st 4 [a, b, c'] d fun v => .ok (if v.getD 0 0 != 0 then v.getD 1 0 else v.getD 2 0)

/-- R109. -/
def execBcnt (st : Stall) (k : BcntKind) (d a : RegNum) (s : State) : Outcome State Fault Refusal :=
  runInstr s s.cur false fun s c =>
    compute s s.cur c st 6 [a] d fun v => .ok (bcntR k (v.getD 0 0))

/-- R110: `bext`. -/
def execBext (st : Stall) (w : Bool) (d a : RegNum) (pos len1 : BitVec 6) (s : State) :
    Outcome State Fault Refusal :=
  runInstr s s.cur false fun s c =>
    compute s s.cur c st 6 [a] d fun v =>
      .ok (if w then sextW (bextR (lo32 (v.getD 0 0)) pos.toNat (len1.toNat + 1))
           else bextR (v.getD 0 0) pos.toNat (len1.toNat + 1))

/-- R110: `bins`. -/
def execBins (st : Stall) (w : Bool) (d a : RegNum) (pos len1 : BitVec 6) (s : State) :
    Outcome State Fault Refusal :=
  runInstr s s.cur false fun s c => do
    let g := s.cur
    let o ← operandsRmw s g [a] d
    let v : Word :=
      if w then sextW (binsR (lo32 (o.v 1)) (lo32 (o.v 0)) pos.toNat (len1.toNat + 1))
      else binsR (o.v 1) (o.v 0) pos.toNat (len1.toNat + 1)
    return retire (writeLater (consume s g o.srcs) g (o.d 0) v (c + 6)) g c st false none

/-- R113: `li` with a 14-bit immediate. -/
def execLiC (st : Stall) (d : RegNum) (n : BitVec 14) (s : State) : Outcome State Fault Refusal :=
  runInstr s s.cur false fun s c => compute s s.cur c st 4 [] d fun _ => .ok (n.signExtend 64)

/-- R113: `li` with a 40-bit immediate. -/
def execLiD (st : Stall) (d : RegNum) (n : BitVec 40) (s : State) : Outcome State Fault Refusal :=
  runInstr s s.cur false fun s c => compute s s.cur c st 4 [] d fun _ => .ok (n.signExtend 64)

/-- R113: `li.hi`. -/
def execLiHi (st : Stall) (d : RegNum) (n : BitVec 24) (s : State) : Outcome State Fault Refusal :=
  runInstr s s.cur false fun s c => do
    let g := s.cur
    let o ← operandsRmw s g [] d
    return retire (writeLater (consume s g o.srcs) g (o.d 0) (liHiR (o.v 0) n) (c + 4)) g c st false none

/-- R114. -/
def execMov (st : Stall) (d a : RegNum) (s : State) : Outcome State Fault Refusal :=
  runInstr s s.cur false fun s c => compute s s.cur c st 4 [a] d fun v => .ok (v.getD 0 0)

/-- R111. -/
def execExt (st : Stall) (k : ExtKind) (d a : RegNum) (s : State) : Outcome State Fault Refusal :=
  runInstr s s.cur false fun s c => compute s s.cur c st 4 [a] d fun v => .ok (extR k (v.getD 0 0))

/-- R112. -/
def execAbs (st : Stall) (w : Bool) (d a : RegNum) (s : State) : Outcome State Fault Refusal :=
  runInstr s s.cur false fun s c =>
    compute s s.cur c st 4 [a] d fun v =>
      .ok (if w then sextW (absS (lo32 (v.getD 0 0))) else absS (v.getD 0 0))

end Sys2Proof.Machine
end

