-- ==== Sys2Proof/Machine/Dispatch.lean ====
section
/-! DEFINITION. One arm per row of spec/opcode_table.json: a direct call of its meaning. -/

namespace Sys2Proof.Machine

open Host (Outcome)

/-- The effect of an instruction of the thread `s.cur`, or of an event, on the state. -/
def exec (i : Instr) (s : State) : Host.Outcome State Fault Refusal :=
  match i with
  | .nop l st x t => Sys2Proof.Machine.execNop l st x t s
  | .rx => Sys2Proof.Machine.execRx s
  | .br st t => Sys2Proof.Machine.execBr st t s
  | .bc st c a b t => Sys2Proof.Machine.execBc st c a b t s
  | .bcz st c a t => Sys2Proof.Machine.execBcz st c a t s
  | .call st t => Sys2Proof.Machine.execCall st t s
  | .callr st a => Sys2Proof.Machine.execCallr st a s
  | .jr st a => Sys2Proof.Machine.execJr st a s
  | .ret st => Sys2Proof.Machine.execRet st s
  | .loop st lv a t => Sys2Proof.Machine.execLoop st lv a t s
  | .brot st => Sys2Proof.Machine.execBrot st s
  | .halt st => Sys2Proof.Machine.execHalt st s
  | .yield st => Sys2Proof.Machine.execYield st s
  | .pwait st a => Sys2Proof.Machine.execPwait st a s
  | .setrb st n => Sys2Proof.Machine.execSetrb st n s
  | .getrb st d => Sys2Proof.Machine.execGetrb st d s
  | .isync st => Sys2Proof.Machine.execIsync st s
  | .ldpc st d t => Sys2Proof.Machine.execLdpc st d t s
  | .tbr st d => Sys2Proof.Machine.execTbr st d s
  | .add st w d a b => Sys2Proof.Machine.execAdd st w d a b s
  | .sub st w d a b => Sys2Proof.Machine.execSub st w d a b s
  | .addiC st w d a n => Sys2Proof.Machine.execAddiC st w d a n s
  | .addiD st w d a n => Sys2Proof.Machine.execAddiD st w d a n s
  | .mul st w d a b => Sys2Proof.Machine.execMul st w d a b s
  | .mulh st w d a b => Sys2Proof.Machine.execMulh st w d a b s
  | .mulhu st w d a b => Sys2Proof.Machine.execMulhu st w d a b s
  | .mad st w d a b c => Sys2Proof.Machine.execMad st w d a b c s
  | .div st w d a b => Sys2Proof.Machine.execDiv st w d a b s
  | .divu st w d a b => Sys2Proof.Machine.execDivu st w d a b s
  | .rem st w d a b => Sys2Proof.Machine.execRem st w d a b s
  | .remu st w d a b => Sys2Proof.Machine.execRemu st w d a b s
  | .and st w d a b => Sys2Proof.Machine.execAnd st w d a b s
  | .or st w d a b => Sys2Proof.Machine.execOr st w d a b s
  | .xor st w d a b => Sys2Proof.Machine.execXor st w d a b s
  | .andn st w d a b => Sys2Proof.Machine.execAndn st w d a b s
  | .shl st w d a b => Sys2Proof.Machine.execShl st w d a b s
  | .shr st w d a b => Sys2Proof.Machine.execShr st w d a b s
  | .sar st w d a b => Sys2Proof.Machine.execSar st w d a b s
  | .rol st w d a b => Sys2Proof.Machine.execRol st w d a b s
  | .min st w d a b => Sys2Proof.Machine.execMin st w d a b s
  | .max st w d a b => Sys2Proof.Machine.execMax st w d a b s
  | .minu st w d a b => Sys2Proof.Machine.execMinu st w d a b s
  | .maxu st w d a b => Sys2Proof.Machine.execMaxu st w d a b s
  | .set st c d a b => Sys2Proof.Machine.execSet st c d a b s
  | .sel st d a b c => Sys2Proof.Machine.execSel st d a b c s
  | .bcnt st k d a => Sys2Proof.Machine.execBcnt st k d a s
  | .bext st w d a pos len1 => Sys2Proof.Machine.execBext st w d a pos len1 s
  | .bins st w d a pos len1 => Sys2Proof.Machine.execBins st w d a pos len1 s
  | .liC st d n => Sys2Proof.Machine.execLiC st d n s
  | .liD st d n => Sys2Proof.Machine.execLiD st d n s
  | .liHi st d n => Sys2Proof.Machine.execLiHi st d n s
  | .mov st d a => Sys2Proof.Machine.execMov st d a s
  | .ext st k d a => Sys2Proof.Machine.execExt st k d a s
  | .abs st w d a => Sys2Proof.Machine.execAbs st w d a s
  | .ldM st z d m => Sys2Proof.Machine.execLdM st z d m s
  | .ldN st z d m => Sys2Proof.Machine.execLdN st z d m s
  | .lduM st z d m => Sys2Proof.Machine.execLduM st z d m s
  | .lduN st z d m => Sys2Proof.Machine.execLduN st z d m s
  | .stM st z a m => Sys2Proof.Machine.execStM st z a m s
  | .stN st z a m => Sys2Proof.Machine.execStN st z a m s
  | .ldp st dbl d d2 m => Sys2Proof.Machine.execLdp st dbl d d2 m s
  | .stp st dbl a a2 m => Sys2Proof.Machine.execStp st dbl a a2 m s
  | .leaM st d m => Sys2Proof.Machine.execLeaM st d m s
  | .leaN st d m => Sys2Proof.Machine.execLeaN st d m s
  | .sset st n a b code => Sys2Proof.Machine.execSset st n a b code s
  | .sget st f d n => Sys2Proof.Machine.execSget st f d n s
  | .sadj st lim n a => Sys2Proof.Machine.execSadj st lim n a s
  | .fence st => Sys2Proof.Machine.execFence st s
  | .xfence st p q => Sys2Proof.Machine.execXfence st p q s
  | .cwait st k => Sys2Proof.Machine.execCwait st k s
  | .bfmt st bank fmt => Sys2Proof.Machine.execBfmt st bank fmt s
  | .bfget st d bank => Sys2Proof.Machine.execBfget st d bank s
  | .amo st op dbl d a m => Sys2Proof.Machine.execAmo st op dbl d a m s
  | .swap st dbl d a m => Sys2Proof.Machine.execSwap st dbl d a m s
  | .cas st dbl d a m => Sys2Proof.Machine.execCas st dbl d a m s
  | .fadd st dbl d a m => Sys2Proof.Machine.execFadd st dbl d a m s
  | .dadd st dbl a m => Sys2Proof.Machine.execDadd st dbl a m s
  | .sigupM st set a m => Sys2Proof.Machine.execSigupM st set a m s
  | .sigupN st set a m => Sys2Proof.Machine.execSigupN st set a m s
  | .sigwait st c d a m => Sys2Proof.Machine.execSigwait st c d a m s
  | .bar st => Sys2Proof.Machine.execBar st s
  | .barReset st => Sys2Proof.Machine.execBarReset st s
  | .barto st d a => Sys2Proof.Machine.execBarto st d a s
  | .qpoll st d a => Sys2Proof.Machine.execQpoll st d a s
  | .qcnt st d a => Sys2Proof.Machine.execQcnt st d a s
  | .rput st a b reg => Sys2Proof.Machine.execRput st a b reg s
  | .cpy st ch cf buf len m => Sys2Proof.Machine.execCpy st ch cf buf len m s
  | .cpy2 st ch cf buf a b c seg => Sys2Proof.Machine.execCpy2 st ch cf buf a b c seg s
  | .cpyg st ch cf buf a b c seg => Sys2Proof.Machine.execCpyg st ch cf buf a b c seg s
  | .cpys st ch cf buf a b c seg => Sys2Proof.Machine.execCpys st ch cf buf a b c seg s
  | .bufdecl st buf len m => Sys2Proof.Machine.execBufdecl st buf len m s
  | .bufset st e buf => Sys2Proof.Machine.execBufset st e buf s
  | .bufget st d buf => Sys2Proof.Machine.execBufget st d buf s
  | .cwp st ch d => Sys2Proof.Machine.execCwp st ch d s
  | .chbind st out d => Sys2Proof.Machine.execChbind st out d s
  | .vld st fmt wd m mask r => Sys2Proof.Machine.execVld st fmt wd m mask r s
  | .vst st fmt wa m mask r => Sys2Proof.Machine.execVst st fmt wa m mask r s
  | .vldg st fmt wd wb m mask r => Sys2Proof.Machine.execVldg st fmt wd wb m mask r s
  | .vsts st fmt wa wb m mask r => Sys2Proof.Machine.execVsts st fmt wa wb m mask r s
  | .vadd st fmt wd wa wb mask r => Sys2Proof.Machine.execVadd st fmt wd wa wb mask r s
  | .vsub st fmt wd wa wb mask r => Sys2Proof.Machine.execVsub st fmt wd wa wb mask r s
  | .vmul st fmt wd wa wb mask r => Sys2Proof.Machine.execVmul st fmt wd wa wb mask r s
  | .vfma st fmt wd wa wb wc mask r => Sys2Proof.Machine.execVfma st fmt wd wa wb wc mask r s
  | .vmin st fmt wd wa wb mask flush => Sys2Proof.Machine.execVmin st fmt wd wa wb mask flush s
  | .vmax st fmt wd wa wb mask flush => Sys2Proof.Machine.execVmax st fmt wd wa wb mask flush s
  | .vun st op fmt wd wa mask r => Sys2Proof.Machine.execVun st op fmt wd wa mask r s
  | .vcvt st dst src part wd wa mask r => Sys2Proof.Machine.execVcvt st dst src part wd wa mask r s
  | .vcmp st c fmt mk wa wb mask flush => Sys2Proof.Machine.execVcmp st c fmt mk wa wb mask flush s
  | .vsel st fmt wd wa wb mask => Sys2Proof.Machine.execVsel st fmt wd wa wb mask s
  | .vred st op fmt g wa mask r => Sys2Proof.Machine.execVred st op fmt g wa mask r s
  | .vscan st op fmt wd wa mask r => Sys2Proof.Machine.execVscan st op fmt wd wa mask r s
  | .vperm st fmt wd wa wb mask => Sys2Proof.Machine.execVperm st fmt wd wa wb mask s
  | .vbcast st fmt wd g mask => Sys2Proof.Machine.execVbcast st fmt wd g mask s
  | .vdot st fmt lg wd wa wb mask r => Sys2Proof.Machine.execVdot st fmt lg wd wa wb mask r s
  | .vfn st op fmt wd wa mask flush => Sys2Proof.Machine.execVfn st op fmt wd wa mask flush s
  | .vand st fmt wd wa wb mask => Sys2Proof.Machine.execVand st fmt wd wa wb mask s
  | .vor st fmt wd wa wb mask => Sys2Proof.Machine.execVor st fmt wd wa wb mask s
  | .vxor st fmt wd wa wb mask => Sys2Proof.Machine.execVxor st fmt wd wa wb mask s
  | .vshl st fmt wd wa wb mask => Sys2Proof.Machine.execVshl st fmt wd wa wb mask s
  | .vshr st arith fmt wd wa wb mask => Sys2Proof.Machine.execVshr st arith fmt wd wa wb mask s
  | .vrand st fmt wd g mask => Sys2Proof.Machine.execVrand st fmt wd g mask s
  | .vins st fmt wd g lane => Sys2Proof.Machine.execVins st fmt wd g lane s
  | .vext st fmt g wa lane => Sys2Proof.Machine.execVext st fmt g wa lane s
  | .vmask st op mk ma mb => Sys2Proof.Machine.execVmask st op mk ma mb s
  | .mlease st n => Sys2Proof.Machine.execMlease st n s
  | .mrel st => Sys2Proof.Machine.execMrel st s
  | .mldbM st m => Sys2Proof.Machine.execMldbM st m s
  | .mldbN st m => Sys2Proof.Machine.execMldbN st m s
  | .mzero st => Sys2Proof.Machine.execMzero st s
  | .mmaM st af ds8 m => Sys2Proof.Machine.execMmaM st af ds8 m s
  | .mmaN st af ds8 m => Sys2Proof.Machine.execMmaN st af ds8 m s
  | .mmas st af ds8 a m => Sys2Proof.Machine.execMmas st af ds8 a m s
  | .mdrainM st bias m => Sys2Proof.Machine.execMdrainM st bias m s
  | .mdrainN st bias m => Sys2Proof.Machine.execMdrainN st bias m s
  | .mscale st a => Sys2Proof.Machine.execMscale st a s
  | .mstat st d => Sys2Proof.Machine.execMstat st d s
  | .mwait st => Sys2Proof.Machine.execMwait st s
  | .spawn st a b t => Sys2Proof.Machine.execSpawn st a b t s
  | .tjoin st => Sys2Proof.Machine.execTjoin st s
  | .tret st => Sys2Proof.Machine.execTret st s
  | .waitw st => Sys2Proof.Machine.execWaitw st s
  | .waitwS st => Sys2Proof.Machine.execWaitwS st s
  | .tpost st a b t => Sys2Proof.Machine.execTpost st a b t s
  | .depsetM st a m => Sys2Proof.Machine.execDepsetM st a m s
  | .depsetN st a m => Sys2Proof.Machine.execDepsetN st a m s
  | .depdecM st m => Sys2Proof.Machine.execDepdecM st m s
  | .depdecN st m => Sys2Proof.Machine.execDepdecN st m s
  | .tcount st d => Sys2Proof.Machine.execTcount st d s
  | .flnew st d a => Sys2Proof.Machine.execFlnew st d a s
  | .flput st z a b off => Sys2Proof.Machine.execFlput st z a b off s
  | .flget st z d a off => Sys2Proof.Machine.execFlget st z d a off s
  | .flgetArg st d a => Sys2Proof.Machine.execFlgetArg st d a s
  | .flgetHdr st d a f => Sys2Proof.Machine.execFlgetHdr st d a f s
  | .flsend st a => Sys2Proof.Machine.execFlsend st a s
  | .flrecv st d => Sys2Proof.Machine.execFlrecv st d s
  | .flnext st a => Sys2Proof.Machine.execFlnext st a s
  | .flrw st a b k => Sys2Proof.Machine.execFlrw st a b k s
  | .flins st a b k => Sys2Proof.Machine.execFlins st a b k s
  | .fldel st a k => Sys2Proof.Machine.execFldel st a k s
  | .flpark st a => Sys2Proof.Machine.execFlpark st a s
  | .flresume st a => Sys2Proof.Machine.execFlresume st a s
  | .fldrop st a => Sys2Proof.Machine.execFldrop st a s
  | .phase st k => Sys2Proof.Machine.execPhase st k s
  | .pcnt st stagger d => Sys2Proof.Machine.execPcnt st stagger d s
  | .dstate st pause d => Sys2Proof.Machine.execDstate st pause d s
  | .trap st code => Sys2Proof.Machine.execTrap st code s
  | .sethnd st a => Sys2Proof.Machine.execSethnd st a s
  | .hret st => Sys2Proof.Machine.execHret st s
  | .rdsys st d idx => Sys2Proof.Machine.execRdsys st d idx s
  | .wrsys st a idx => Sys2Proof.Machine.execWrsys st a idx s
  | .ecnt st owner d => Sys2Proof.Machine.execEcnt st owner d s
  | .brk st code => Sys2Proof.Machine.execBrk st code s
  | .fail st code => Sys2Proof.Machine.execFail st code s
  | .haltCompletion g => Sys2Proof.Machine.execHaltCompletion g s
  | .parkConditionMet g => Sys2Proof.Machine.execParkConditionMet g s
  | .lineFetchArrival g => Sys2Proof.Machine.execLineFetchArrival g s
  | .relaxedLoadFill id => Sys2Proof.Machine.execRelaxedLoadFill id s
  | .relaxedStoreAck id => Sys2Proof.Machine.execRelaxedStoreAck id s
  | .ordinaryAccessCompletion id => Sys2Proof.Machine.execOrdinaryAccessCompletion id s
  | .bankAccessPerform id => Sys2Proof.Machine.execBankAccessPerform id s
  | .pageWalkComplete g => Sys2Proof.Machine.execPageWalkComplete g s
  | .faultRecordPost die => Sys2Proof.Machine.execFaultRecordPost die s
  | .wakeRegisterWrite die w => Sys2Proof.Machine.execWakeRegisterWrite die w s
  | .convertRegisterWrite die w => Sys2Proof.Machine.execConvertRegisterWrite die w s
  | .shootdownRegisterWrite die owner addr size => Sys2Proof.Machine.execShootdownRegisterWrite die owner addr size s
  | .shootdownComplete die => Sys2Proof.Machine.execShootdownComplete die s
  | .watchAllocated id => Sys2Proof.Machine.execWatchAllocated id s
  | .sigwaitSatisfied id => Sys2Proof.Machine.execSigwaitSatisfied id s
  | .bartoLimitExpiry berth lk => Sys2Proof.Machine.execBartoLimitExpiry berth lk s
  | .barrierRelease berth lk => Sys2Proof.Machine.execBarrierRelease berth lk s
  | .queueEntryArrival core dir => Sys2Proof.Machine.execQueueEntryArrival core dir s
  | .actorCreditReturn core => Sys2Proof.Machine.execActorCreditReturn core s
  | .rputDelivery id => Sys2Proof.Machine.execRputDelivery id s
  | .copyAcceptance tile ch => Sys2Proof.Machine.execCopyAcceptance tile ch s
  | .copyUnitWrite tile ch => Sys2Proof.Machine.execCopyUnitWrite tile ch s
  | .copyCompletion tile ch => Sys2Proof.Machine.execCopyCompletion tile ch s
  | .vectorAcceptance tile => Sys2Proof.Machine.execVectorAcceptance tile s
  | .vectorResultWrite tile => Sys2Proof.Machine.execVectorResultWrite tile s
  | .leaseGrant tile => Sys2Proof.Machine.execLeaseGrant tile s
  | .matrixCommandAcceptance tile => Sys2Proof.Machine.execMatrixCommandAcceptance tile s
  | .matrixCommandExecution tile => Sys2Proof.Machine.execMatrixCommandExecution tile s
  | .stealRequest g victim => Sys2Proof.Machine.execStealRequest g victim s
  | .dispenserPlacement tile => Sys2Proof.Machine.execDispenserPlacement tile s
  | .launchRecordPlacement lk => Sys2Proof.Machine.execLaunchRecordPlacement lk s
  | .floeDeparture tile slot => Sys2Proof.Machine.execFloeDeparture tile slot s
  | .floeArrival id => Sys2Proof.Machine.execFloeArrival id s
  | .floeRefill tile => Sys2Proof.Machine.execFloeRefill tile s
  | .floeClaim tile => Sys2Proof.Machine.execFloeClaim tile s
  | .memoryStop id => Sys2Proof.Machine.execMemoryStop id s
  | .sluiceTick die mW sensors => Sys2Proof.Machine.execSluiceTick die mW sensors s
  | .rampSlotGrant die => Sys2Proof.Machine.execRampSlotGrant die s
  | .pinnedLaunchAdmission lk => Sys2Proof.Machine.execPinnedLaunchAdmission lk s
  | .ballastStep tile => Sys2Proof.Machine.execBallastStep tile s
  | .tileGate tile => Sys2Proof.Machine.execTileGate tile s
  | .gateHoldExpiry tile => Sys2Proof.Machine.execGateHoldExpiry tile s
  | .tileWakeRequest tile => Sys2Proof.Machine.execTileWakeRequest tile s
  | .inrushGrant die => Sys2Proof.Machine.execInrushGrant die s
  | .inrushPeriodEnd die => Sys2Proof.Machine.execInrushPeriodEnd die s
  | .overflowQuantumExpiry core phys => Sys2Proof.Machine.execOverflowQuantumExpiry core phys s
  | .overflowSwapDone core phys => Sys2Proof.Machine.execOverflowSwapDone core phys s
  | .driftDrainEnd die => Sys2Proof.Machine.execDriftDrainEnd die s
  | .driftShiftEnd die => Sys2Proof.Machine.execDriftShiftEnd die s
  | .calibrationModeSet d => Sys2Proof.Machine.execCalibrationModeSet d s
  | .calibrationResponseDue id => Sys2Proof.Machine.execCalibrationResponseDue id s
  | .preemption g => Sys2Proof.Machine.execPreemption g s
  | .trapRecordAppend owner => Sys2Proof.Machine.execTrapRecordAppend owner s
  | .trapRecordService owner => Sys2Proof.Machine.execTrapRecordService owner s
  | .trappedThreadResume g pc => Sys2Proof.Machine.execTrappedThreadResume g pc s
  | .trappedThreadEnd g => Sys2Proof.Machine.execTrappedThreadEnd g s
  | .watchdogExpiry die hart => Sys2Proof.Machine.execWatchdogExpiry die hart s
  | .doorbellWrite inlet data => Sys2Proof.Machine.execDoorbellWrite inlet data s
  | .notifyWrite die msg => Sys2Proof.Machine.execNotifyWrite die msg s
  | .inletPhaseRetry inlet => Sys2Proof.Machine.execInletPhaseRetry inlet s
  | .inletSlotAssign inlet => Sys2Proof.Machine.execInletSlotAssign inlet s
  | .nopPacket inlet => Sys2Proof.Machine.execNopPacket inlet s
  | .launch inlet => Sys2Proof.Machine.execLaunch inlet s
  | .actors inlet => Sys2Proof.Machine.execActors inlet s
  | .wait inlet => Sys2Proof.Machine.execWait inlet s
  | .waitLimitExpiry inlet => Sys2Proof.Machine.execWaitLimitExpiry inlet s
  | .signal inlet => Sys2Proof.Machine.execSignal inlet s
  | .copy inlet => Sys2Proof.Machine.execCopy inlet s
  | .reservedHead h => Sys2Proof.Machine.execReservedHead h s
  | .registerWrite r => Sys2Proof.Machine.execRegisterWrite r s
  | .berthAssignment owner berth => Sys2Proof.Machine.execBerthAssignment owner berth s
  | .ownerUnassignment owner => Sys2Proof.Machine.execOwnerUnassignment owner s
  | .getVersion die => Sys2Proof.Machine.execGetVersion die s
  | .getCapabilities die => Sys2Proof.Machine.execGetCapabilities die s
  | .negotiateAlgorithms die falcon shake => Sys2Proof.Machine.execNegotiateAlgorithms die falcon shake s
  | .getDigests die => Sys2Proof.Machine.execGetDigests die s
  | .getCertificate die => Sys2Proof.Machine.execGetCertificate die s
  | .challenge die nonce => Sys2Proof.Machine.execChallenge die nonce s
  | .getMeasurements die index => Sys2Proof.Machine.execGetMeasurements die index s
  | .keyExchange die data => Sys2Proof.Machine.execKeyExchange die data s
  | .finish die => Sys2Proof.Machine.execFinish die s
  | .endSession die => Sys2Proof.Machine.execEndSession die s
  | .spdmUnsupportedRequest die => Sys2Proof.Machine.execSpdmUnsupportedRequest die s
  | .lockInterfaceRequest owner => Sys2Proof.Machine.execLockInterfaceRequest owner s
  | .startInterfaceRequest owner => Sys2Proof.Machine.execStartInterfaceRequest owner s
  | .stopInterfaceRequest owner => Sys2Proof.Machine.execStopInterfaceRequest owner s
  | .tdispInterfaceError owner => Sys2Proof.Machine.execTdispInterfaceError owner s
  | .linkRequestLost id => Sys2Proof.Machine.execLinkRequestLost id s
  | .lifeCycleStateChange st => Sys2Proof.Machine.execLifeCycleStateChange st s
  | .supervisorFaultEscalation die => Sys2Proof.Machine.execSupervisorFaultEscalation die s
  | .driftFreeze => Sys2Proof.Machine.execDriftFreeze s
  | .driftResume => Sys2Proof.Machine.execDriftResume s
  | .deterministicResumeExpiry => Sys2Proof.Machine.execDeterministicResumeExpiry s
  | .primaryPromotion => Sys2Proof.Machine.execPrimaryPromotion s
  | .moduleReset => Sys2Proof.Machine.execModuleReset s
  | .primaryHeartbeat => Sys2Proof.Machine.execPrimaryHeartbeat s

end Sys2Proof.Machine
end

