-- ==== Sys2Proof/Machine/Moves.lean ====
section
/-! DEFINITION. Who moves next. The module is many agents; State.agenda lists their next moves, and with an empty agenda
the barrel of the core State.focus issues as spec/05_control_class.md R75 and R76 give. -/

namespace Sys2Proof.Machine

open Host (Outcome)

/-- The thread may issue (R74): it is ready, no trap, swap, stop, pause or gating holds it, and it is resident. -/
def issuable (s : State) (g : Nat) : Bool :=
  let t := s.thread g
  t.status == .ready && t.trapped.isNone && !t.away && !t.stopping && s.pause.isNone &&
    (s.tile (tileOf g)).gated.isNone && (physOfSlot (s.core (coreOf g)) (slotOf g)).isSome

/-- A turn of a thread: the head at its pc is decoded and runs. A thread that has not entered its line enters it; a head
that the decoder refuses raises the illegal-instruction trap (R32, R50). -/
def runThread (s : State) (g : Nat) : Outcome State Fault Refusal :=
  let s := { s with cur := g }
  match (s.thread g).line with
  | none => .next (enter s g)
  | some ln =>
    match lineInstr ln (headIdx (s.thread g).pc) with
    | .ok i => exec i s
    | .error _ => runInstr s g false fun _ _ => .error illegalInstr

/-! ### Whose turn it is (R75 to R77, R323) -/

/-- Resident slots of a core in rotation order, from the slot after the last that issued (R75). The rule says only "slot";
where physical and architectural slots differ these are the architectural ones (DESIGN CHOICE, entry 103). -/
def rotation (x : Core) : List Nat := (List.range 8).map fun k => (x.last + 1 + k) % 8

/-- The slot that has been eligible longest, the first in rotation order among equals (R75). -/
def longest (s : State) (c clock : Nat) : List Nat → Option Nat → Option Nat
  | [], best => best
  | k :: l, best =>
    let g := 8 * c + k
    let sooner : Bool := match best with
      | none => true
      | some b => decide ((s.thread g).ready < (s.thread (8 * c + b)).ready)
    if issuable s g ∧ (s.thread g).ready ≤ clock ∧ sooner then longest s c clock l (some k)
    else longest s c clock l best

/-- The slot of a core that issues at a clock, if any (R75, R76). -/
def barrelSlot (s : State) (c clock : Nat) : Option Nat :=
  let x := s.core c
  if coreDet s c then
    match x.phys.getD (clock % 8) none with
    | some k => if issuable s (8 * c + k) ∧ (s.thread (8 * c + k)).ready ≤ clock then some k else none
    | none => none
  else longest s c clock (rotation x) none

/-- Clocks at which threads of a core would issue. -/
def issueClocks (s : State) (c : Nat) : List Nat :=
  ((List.range 8).filter fun k => issuable s (8 * c + k)).map fun k => issueClock s (8 * c + k)

/-- Clocks at which the physical slots of a core change by the clock: the end of a swap, and in strict rotation the end of a
quantum (R323). -/
def slotClocks (s : State) (c : Nat) : List Nat :=
  let x := s.core c
  x.swap.map (·.2) ++
    (if coreDet s c ∧ !x.overflow.isEmpty then
      (List.range x.phys.length).map fun p => (mget x.since p).getD 0 + 8 * 4096
    else [])

/-- No slot of the core changes by the clock between its clock and `clock`. -/
def slotsStand (s : State) (c clock : Nat) : Bool :=
  (slotClocks s c).all fun e => decide (e ≤ (s.core c).clock) || decide (clock < e)

/-- The next issue of its core is the thread's (R75, R76): no sibling issues at an earlier clock, the barrel chooses the
thread at its own, and no limit of a barrier has run out before it (R168). -/
def coreTurn (s : State) (g : Nat) : Bool :=
  let c := coreOf g
  let k := issueClock s g
  issuable s g && (issueClocks s c).all (fun x => decide (k ≤ x)) && slotsStand s c k && clockOpen s c k &&
    barrelSlot s c k == some (slotOf g)

/-- The state in which a thread takes its turn: what its core's slots owe is done (R323), and its tile is busy (R315). -/
def turnState (s : State) (g : Nat) : State :=
  { (settleSlots s (coreOf g)).modTile (tileOf g) fun x => { x with busyAt := s.timebase } with cur := g }

/-- The bank of its own tile store that a turn of the thread would take (R121). -/
def asksBank (s : State) (g : Nat) : Option Nat :=
  match runThread s g with
  | .next u => if s.atBank.length < u.atBank.length then u.atBank.getLast?.map (·.1) else none
  | _ => none

/-- The instruction acts on a buffer's descriptor (R185). -/
def isDescriptor (i : Instr) : Bool :=
  match i with
  | .bufdecl .. | .bufset .. | .cpy .. | .cpy2 .. | .cpyg .. | .cpys .. => true
  | _ => false

/-- A turn of the thread would be a descriptor operation, one that faults too, and no attempt that parks (R185). -/
def asksDescriptor (s : State) (g : Nat) : Bool :=
  (instrAt (s.thread g)).any isDescriptor &&
    (match runThread s g with
      | .next u => (match (u.thread g).status with | .parked (.needs _) => false | _ => true)
      | _ => false)

/-- The thread of core `c` that issues at clock `k` and asks for what `asks` says in its turn. -/
def askingThread (s : State) (c k : Nat) (asks : State → Nat → Bool) : Option Nat :=
  ((List.range 8).map fun j => 8 * c + j).find? fun h =>
    let u := turnState s h
    issueClock u h == k && coreTurn u h && asks u h

/-- The thread of another core that is served before `g` among those that ask for one thing at one clock: the cores of a tile
take their places in rotation from the one after the core `last` that was served last (R121). -/
def tileRival (s : State) (g last : Nat) (asks : State → Nat → Bool) : Option Nat :=
  (((List.range 4).map fun k => (last + 1 + k) % 4).takeWhile (· != coreOf g % 4)).findSome? fun k =>
    askingThread s (4 * tileOf g + k) (issueClock s g) asks

/-- The thread of another core that a bank serves before `g` in one clock (R121). -/
def bankRival (s : State) (g : Nat) : Option Nat :=
  match asksBank s g with
  | none => none
  | some b => tileRival s g ((mget s.served b).getD 3) fun u h => asksBank u h == some b

/-- The thread of another core whose descriptor operation is applied before that of `g` in one clock (R185). -/
def descriptorRival (s : State) (g : Nat) : Option Nat :=
  if asksDescriptor s g then tileRival s g (s.tile (tileOf g)).blast asksDescriptor else none

/-- The thread of another core that comes before `g` in one clock. -/
def rival (s : State) (g : Nat) : Option Nat := bankRival s g <|> descriptorRival s g

/-- The next issue of its core is the thread's, and of a bank or a descriptor that it takes (R121, R185). -/
def myTurn (s : State) (g : Nat) : Bool := coreTurn s g && (rival s g).isNone

/-- What follows a turn of a thread: an `rput` that waited for a read which the turn has made is delivered in the clock
after it (R178). -/
def afterTurn (g : Nat) (o : Outcome State Fault Refusal) : Outcome State Fault Refusal :=
  match o with
  | .next u => .next (deliverRead u g)
  | o => o

/-- A turn of a thread, where its turn is next. -/
def moveThread (s : State) (g : Nat) : Outcome State Fault Refusal :=
  let u := turnState s g
  if myTurn u g then afterTurn g (runThread u g) else .next s

/-- A turn of the thread that a core's barrel has chosen, or of the one of another core that comes first (R121, R185). -/
def barrelThread (s : State) (g : Nat) : Outcome State Fault Refusal :=
  match rival (turnState s g) g with
  | some h => moveThread s h
  | none => moveThread s g

/-- The barrel of a core: one clock (R75, R76); in a pause its counter stands. -/
def barrel (s : State) (c : Nat) : Outcome State Fault Refusal :=
  if tileClosed s (c / 4) then .next s
  else
    let s := settleSlots s c
    match barrelSlot s c (s.core c).clock with
    | some k => barrelThread s (8 * c + k)
    | none => .next (if limitOut s c then s else s.modCore c fun x => { x with clock := x.clock + 1 })

/-- Clocks of a core pass: no eligible thread is passed over, no change of its slots (R75 to R77, R323), and no limit of a
barrier that has run out (R168). -/
def passClocks (s : State) (c n : Nat) : State :=
  let s := settleSlots s c
  let n := if limitOut s c then 0 else n
  let k := (s.core c).clock
  let due := (issueClocks s c ++ (slotClocks s c).filter fun e => decide (k < e)).map (· - k)
  s.modCore c fun x => { x with clock := x.clock + due.foldl min n }

/-- Clocks of the cores of a tile pass, none in a pause or while the tile is gated (R76, R315). -/
def moveClock (s : State) (T n : Nat) : State :=
  if tileClosed s T then s else (List.range 4).foldl (fun s k => passClocks s (4 * T + k) n) s

/-! ### Ticks -/

/-- Ticks from now to tick `t`; 0 when it has come. -/
def ticksTo (s : State) (t : Nat) : Nat := t - s.timebase

/-- The last answer of a port, with the tile that reads. -/
def lastAnswer (T : Nat) (p : Option Port) : List (Nat × Nat) :=
  (p.filter fun x => x.view.isSome && x.left == 0).toList.map fun x => (T, x.due)

/-- The answers that ports hold: tile, working tick at which they are due (R333). Some are delivered by an event that another
cause may delay: they hold time back only before they are due. -/
def portAnswers (s : State) : List (Nat × Nat) :=
  s.threads.flatMap (fun p => lastAnswer (tileOf p.1) p.2.port) ++
    s.tiles.flatMap (fun p => lastAnswer p.1 p.2.refill ++ lastAnswer p.1 p.2.back ++
      p.2.chans.toList.flatMap fun k => k.runs.flatMap fun x => lastAnswer p.1 x.port) ++
    s.floes.flatMap fun f => lastAnswer f.src f.port

/-- Ticks to the answers that the memory ports of calibration mode hold: each is delivered when it is due, of a request, of a
thread that waits for nothing else, and of a memory stop that has moved its bytes (R333). -/
def answersDue (s : State) : List Nat :=
  if s.calib.isNone ∨ s.pause.isSome then []
  else
    let open_ (T : Nat) : Bool := (s.tile T).gated.isNone
    (s.traffic.filter fun r =>
      r.stage == .performed && r.collected && decide (r.key < 2 ^ 52) && decide (s.work ≤ r.due) && open_ r.tile).map
        (fun r => r.due - s.work) ++
    (s.threads.filter fun p =>
      (match p.2.status with | .parked (.port _ _) => true | _ => false) && open_ (tileOf p.1) &&
        p.2.port.any fun x => x.view.isSome && x.left == 0 && decide (s.work ≤ x.due)).filterMap
          (fun p => p.2.port.map fun x => x.due - s.work) ++
    ((portAnswers s).filter fun x => open_ x.1 && decide (s.work < x.2)).map (fun x => x.2 - s.work) ++
    (s.floes.filter fun f =>
      f.dest == 0xFFFF && decide (s.work ≤ f.due) && decide (imgLength f.img ≤ f.next) && open_ f.src).map
        fun f => f.due - s.work

/-- Ticks to the limits of the waiters at barriers (R170): the first that runs out breaks its barrier. -/
def limitsDue (s : State) : List Nat :=
  if s.pause.isSome then []
  else
    (s.barriers.filter fun p => !p.2.broken).flatMap fun p =>
      (p.2.arrivals.filter fun a => a.timed && a.limit != 0).map fun a => a.since + a.limit - s.work

/-- A barrier one of whose limits runs out as time comes to working tick `work`: the clocks of its berth's cores are kept
(R168). -/
def noteLimit (s : State) (work : Nat) (p : Nat × Barrier) : Nat × Barrier :=
  if p.2.ranOut work ∧ !p.2.ranOut s.work then
    (p.1, { p.2 with ranAt := (s.cores.filter fun c => berthOf (c.1 / 4) == p.1 % 64).map fun c => (c.1, c.2.clock) })
  else p

/-- Ticks to what falls due at the module's clock and is not passed over: a freeze (R319), the resume of a pause (R329,
R331), the admission of a pinned launch (R308), a grant of the in-rush arbiter (R317), the end of a hold that a wake waits
for (R316), an answer in calibration mode (R333), a limit of a barrier (R170). -/
def ticksDue (s : State) : List Nat :=
  (match s.pause with
    | none => if s.booted then [ticksTo s (freezeTick s)] else []
    | some p => if canResume s then [ticksTo s (resumeTick s p.freeze)] else []) ++
  ((s.launches.filter fun p =>
    launchPinned s p.1 && !p.2.admitted && !p.2.done && decide (s.timebase ≤ admissionTick p.2)).map fun p =>
      ticksTo s (admissionTick p.2)) ++
  ((s.dies.filter fun p => !p.2.inrush.isEmpty && s.pause.isNone).map fun p =>
    let due := if p.2.inrushBusy then p.2.inrushFree else p.2.grantAt s.lastResume ((p.2.inrush.map (·.2)).headD 0)
    ticksTo s ((due + 1) / 2)) ++
  ((s.tiles.filter fun p => p.2.wake && !((s.die (dieOf p.1)).inrush.any (·.1 == p.1))).filterMap fun p =>
    p.2.gated.map fun t => ticksTo s (t + 5000)) ++ answersDue s ++ limitsDue s

/-- Ticks pass, up to what falls due. -/
def moveTick (s : State) (n : Nat) : State :=
  let n := (ticksDue s).foldl min n
  let work := if s.pause.isNone then s.work + n else s.work
  watchIdle { s with timebase := s.timebase + n, work := work, barriers := s.barriers.map (noteLimit s work) }

/-! ### Events -/

/-- An event of the opcode table: not an instruction of a thread. -/
def Instr.isEvent (i : Instr) : Bool := (encode i).isNone

/-- The event changes the state. -/
def acts (s : State) (i : Instr) : Bool :=
  match exec i s with
  | .next u => u != s
  | _ => false

/-- An event that is Sluice's or Firn's own and arrives at no tile (R310, R315, R353). -/
def atNoTile (i : Instr) : Bool :=
  match i with
  | .tileGate _ | .ballastStep _ | .preemption _ => true
  | _ => false

/-- The gated tile at which an event arrives, that would act on the tile if it ran (R316). -/
def heldAt (s : State) (i : Instr) : Option Nat :=
  if atNoTile i ∨ acts s i then none
  else
    ((s.tiles.filter fun p => p.2.gated.isSome).map (·.1)).find? fun T =>
      acts (s.modTile T fun x => { x with gated := none }) i

/-- The event is held at the tile's ingress, and the tile asks for a wake (R316). -/
def holdEvent (s : State) (T : Nat) (i : Instr) : State :=
  let s := s.modTile T fun x => { x with held := if x.held.contains i then x.held else x.held ++ [i], wake := true }
  if holdOver s T then joinInrush s T else s

/-- What was held for a tile that runs again comes next, in the order in which it arrived (R317). -/
def releaseHeld (s : State) : State :=
  s.tiles.foldl (fun s p =>
    if p.2.gated.isSome ∨ p.2.held.isEmpty then s
    else { s.modTile p.1 fun x => { x with held := [] } with agenda := p.2.held.map .event ++ s.agenda }) s

/-- An event happens, or is held for a gated tile; interfaces whose STOP can end then do (R389). -/
def moveEvent (s : State) (i : Instr) : Outcome State Fault Refusal :=
  match heldAt s i with
  | some T => .next (holdEvent s T i)
  | none =>
    match exec i s with
    | .next u => .next (settleOwners (releaseHeld u))
    | o => o

/-! ### Writers and harts (R356, R357, R390, R392) -/

/-- A hart of a Firn complex runs the inlet agent of an owner. -/
def agentRuns (s : State) (o : Nat) : Bool :=
  s.dies.any fun p => p.2.running && p.2.harts.toList.any fun h => h.mode == .u && h.agent == o

/-- A tag of an owner (R10). -/
def ownerTag (o : Nat) : Bool := decide (1 ≤ o) && decide (o ≤ Config.owners)

/-- The owner in whose name a writer's access goes, where it may write: an agent that runs, a host or peer through an
interface in RUN (R389), a client (R392), each with an owner's tag; tag 0 is Firn's alone (R10, R390). -/
def writerOwner (s : State) (w : Writer) : Option Nat :=
  match w with
  | .firn => some 0
  | .agent o => if ownerTag o ∧ agentRuns s o then some o else none
  | .link o => if ownerTag o ∧ (s.owner o).tdisp = .run then some o else none
  | .client o => if ownerTag o then some o else none

/-- Bytes written at physical addresses with tag 0. -/
def firnWrite (s : State) (phys : Nat) (bytes : List Byte) : State :=
  (bytes.foldl (fun (x : State × Nat) b => (unitWrite x.1 x.2 1 b.toNat 255, x.2 + 1)) (s, phys)).1

/-- A write from outside the tiles: Firn's at a physical address, every other translated and checked as its owner's; every
watch sees the new state. -/
def moveWrite (s : State) (w : Writer) (addr : Nat) (bytes : List Byte) : State :=
  match writerOwner s w with
  | none => s
  | some 0 => signalScan (firnWrite s addr bytes)
  | some o => signalScan (engineWrite s (ownerWho o 0) (BitVec.ofNat 64 addr) bytes)

/-- A hart runs on: level M always, level S while S runs, level U for an owner with an inlet at the die (R356). -/
def hartMay (s : State) (d : Nat) (h : Hart) : Bool :=
  match h.mode with
  | .m => true
  | .s => (s.die d).running
  | .u => (s.die d).running && s.inlets.any fun p => p.2.die == d && p.2.owner == h.agent

/-- A loop level with one of its registers zero. -/
def Level.spoil (x : Level) (k : Nat) : Level :=
  match k with
  | 0 => { x with count := 0 }
  | 1 => { x with start := 0 }
  | _ => { x with stop := 0 }

/-- A system register reads zero (R339). -/
def Thread.spoilSys (t : Thread) (i : Nat) : Thread :=
  match i with
  | 0 => { t with handler := 0 }
  | 1 => { t with det := false, inh := false, dz := false, sb := false }
  | 2 => { t with trapPc := 0 }
  | 3 => { t with trapSucc := 0 }
  | 4 => { t with trapCause := 0 }
  | 5 => { t with trapInfo := 0 }
  | 6 => { t with seed := 0 }
  | 7 => { t with data := 0, misuse := 0 }
  | _ => t

/-- A register that a thread's context image holds besides those reads zero (R354): pc, rb, k1 to k3, jcell, the hint, the ticks
of pause, the states of the loop levels. -/
def Thread.spoilImage (t : Thread) (i : Nat) : Thread :=
  match i with
  | 0 => { t with pc := 0, line := none }
  | 1 => { t with rb := 0 }
  | 2 => { t with k1 := 0 }
  | 3 => { t with k2 := 0 }
  | 4 => { t with k3 := 0 }
  | 5 => { t with jcell := some 0 }
  | 6 => { t with hint := .c }
  | 7 => { t with paused := 0 }
  | 8 => { t with lev0 := { t.lev0 with active := false }, lev1 := { t.lev1 with active := false }, inner1 := false }
  | _ => t

/-- A register of a thread that no operand names becomes uncorrectable: segment 0 to 7, loop 8 to 13, system 14 to 21,
identity 22 to 37, the rest of the context image 38 to 46. Hardware reads these at moments of its own: it is zero and counted
at once (DESIGN CHOICE, entry 109). -/
def Thread.spoilOther (t : Thread) (k : Nat) : Thread :=
  if k < 8 then { t with segs := t.segs.setIfInBounds k { code := 0 } }
  else if k < 11 then { t with lev0 := t.lev0.spoil (k - 8) }
  else if k < 14 then { t with lev1 := t.lev1.spoil (k - 11) }
  else if k < 22 then t.spoilSys (k - 14)
  else if k < 38 then { t with ids := t.ids.setIfInBounds (k - 22) 0 }
  else t.spoilImage (k - 38)

/-- A register of a thread becomes uncorrectable (R352): an operand's register is zero and counted when it is read. -/
def Thread.spoil (t : Thread) (reg : Nat) : Thread :=
  if h : reg < 32 then { t with regs := t.regs.set reg { t.regs[reg] with bad := true } }
  else if h : reg - 32 < 8 then { t with w := t.w.set (reg - 32) { t.w[reg - 32] with bad := true } }
  else if h : reg - 40 < 4 then { t with m := t.m.set (reg - 40) { t.m[reg - 40] with bad := true } }
  else t.spoilOther (reg - 44)

/-- Register `reg` of a live thread becomes uncorrectable; one that no operand names counts at once. -/
def spoilReg (s : State) (g reg : Nat) : State :=
  if !live s g ∨ 91 ≤ reg then s
  else
    let s := s.modThread g fun t => t.spoil reg
    countBad s (whoIn s g) (decide (44 ≤ reg))

/-! ### One move -/

/-- One move. -/
def doMove (s : State) (m : Move) : Outcome State Fault Refusal :=
  match m with
  | .thread g => moveThread s g
  | .reach ids => .next (reachBanks s (ids.filter fun id => (findReq s id).all fun r => !tileHeld s r))
  | .event i => if Instr.isEvent i then moveEvent s i else .next s
  | .hand T ch => .next (copyHand s T ch)
  | .tick n => .next (moveTick s n)
  | .clock T n => .next (moveClock s T n)
  | .write w addr bytes => .next (moveWrite s w addr bytes)
  | .poison unit => .next { s with poison := if s.poison.contains unit then s.poison else unit :: s.poison }
  | .spoil g reg => .next (spoilReg s g reg)
  | .corrected d => .next (s.modDie d fun x => { x with corrected := x.corrected + 1 })
  | .flash d table image sig => .next (s.modDie d fun x => { x with flash := table, image := image, imageSig := sig })
  | .hart d k h => .next (if hartMay s d h then s.modDie d fun x => { x with harts := x.harts.setIfInBounds k h } else s)
  | .faultTaken d => .next (takeFault s d)
  | .trapTaken o => .next (takeTrap s o)
  | .restore g => .next (restoreThread s g)

/-- What one step does: the next move of the agenda, or with none a clock of the focused core. -/
def advance (s : State) : Outcome State Fault Refusal :=
  match s.agenda with
  | m :: rest => doMove { s with agenda := rest } m
  | [] => barrel s s.focus

/-! ### Placing an instruction where the next step fetches it -/

/-- A line of 32 halfwords from a list. -/
def lineOf (l : List (BitVec 16)) : BitVec 512 :=
  BitVec.ofNat 512 (l.foldr (fun h acc => h.toNat + 65536 * acc) 0)

/-- The halfwords of a tail. -/
def tailHalves (t : BitVec 64) (n : Nat) : List (BitVec 16) :=
  (List.range n).map fun k => t.extractLsb' (16 * k) 16

/-- A legal line whose head 1 is `h` with tail `t`; `nop` heads without tails fill it (R28, R29). -/
def wordLine (h : BitVec 16) (t : BitVec 64) : BitVec 512 :=
  let n := tailLen (h.extractLsb' 14 2)
  lineOf (BitVec.ofNat 16 (31 - n) :: h :: List.replicate (30 - n) 0 ++ tailHalves t n)

/-- A placed thread for a state in which the issuing thread's turn is not next (entry 2): thread 0 of owner 1. -/
def loneThread : Thread :=
  { status := .ready, pc := 0x10000000001, owner := 1, launch := launchKey 1 1
    segs := (Vector.replicate 8 ({} : Seg)).set 0 { base := 0, limit := 0x180000, code := 0x1F }
    ids := ((Vector.replicate 16 (0 : Word)).set 4 48).set 6 1 }

/-- Thread 0 of owner 1 alone on a fresh tile 0, in module state `s`. -/
def loneState (s : State) (t : Thread) : State :=
  { s with
    pause := none
    threads := mput (s.threads.filter fun p => tileOf p.1 != 0) 0 t
    cores := s.cores.filter fun p => p.1 / 4 != 0
    tiles := s.tiles.filter fun p => p.1 != 0
    owners := mput s.owners 1 { s.owner 1 with berths := [0] }
    launches := mput s.launches (launchKey 1 1) { owner := 1, id := 1, live := 1 }
    cur := 0
    agenda := [.thread 0] }

/-- Head 1 of the thread's line is the word, and the thread's move is next. -/
def placeWord (s : State) (nbits w : Nat) : State :=
  let p := splitWord nbits w
  let put (t : Thread) : Thread := { t with pc := lineAddr t.pc ||| 1, line := some (wordLine p.1 p.2) }
  let u := s.modThread s.cur put
  if myTurn (turnState u s.cur) s.cur then { u with agenda := [.thread s.cur] }
  else loneState s (put loneThread)

end Sys2Proof.Machine
end

