-- ==== Sys2Proof/Machine/Step.lean ====
section
/-! DEFINITION. One step of the module, and the placing of an instruction where the next step fetches it. -/

namespace Sys2Proof.Machine

open Host (Outcome)

/-- One step: the next move of the agenda, or a clock of the focused core. -/
def step (s : State) : Outcome State Fault Refusal := advance s

/-- `s` with an instruction of the opcode table as the next one that step fetches and runs. -/
def State.withFetchWord (s : State) (nbits w : Nat) : State := placeWord s nbits w

end Sys2Proof.Machine
end

