-- ==== Sys2Proof/Safety.lean ====
section
/-! DEFINITION. What a safe run is: no step of it ends in a fault or a refusal. Sys2Proof.Claims holds the words of the
statements: the state in which a thread issues, what it is to be ready, what it is to complete. -/

namespace Sys2Proof

/-- `k` steps from `s` all answer a next state. -/
def Safe (k : Nat) (s : Machine.State) : Prop :=
  match Host.Core.run core k s with
  | .next _ => True
  | _ => False

end Sys2Proof

namespace Sys2Proof.Claims

open Sys2Proof.Machine

/-- The clock at which the thread s.cur issues (R43, R75, R76). -/
def clockOf (s : State) : Nat := issueClock s s.cur

/-- The state in which it issues: its fixed-latency results that are due have landed (R44). -/
def landed (s : State) : State := s.modThread s.cur fun t => t.land (clockOf s)

/-- Its source and destination fields may be used and are available, and `o` holds their values (R24, R33, R34, R45). -/
def Ready (s : State) (srcs dsts : List RegNum) (o : Opnds) : Prop := operands (landed s) s.cur srcs dsts = .ok o

/-- The conditions hold for which an instruction parks (R79). -/
def Meets (s : State) (l : List Need) : Prop := l.all (needHolds (landed s) s.cur) = true

/-- The instruction answers the state `u` in which it has acted, the turn passed (R75). -/
def Acts (s : State) (i : Instr) (u : State) : Prop := exec i s = .next (passTurn u s.cur (clockOf s))

/-- It has acted in `u` and completes: levels, pc and earliest next issue (R43, R84), at a transfer the target. -/
def Completes (s : State) (i : Instr) (st : Stall) (u : State) (xfer : Option Word) : Prop :=
  Acts s i (retire u s.cur (clockOf s) st false xfer)

/-- It completes with the one result `v`, written to destination 0 after `lat` clocks (R44, R101, R102). -/
def Gives (s : State) (i : Instr) (st : Stall) (lat : Nat) (o : Opnds) (v : Word) : Prop :=
  Completes s i st (writeLater (consume (landed s) s.cur o.srcs) s.cur (o.d 0) v (clockOf s + lat)) none

/-- A memory operand passes stages 1 to 5 of R120: operands, count-wait, checks, translation, room. It has address `a`
and memory key `key`. -/
def Reaches (s : State) (m : MemArg) (q : MemAsk) (srcs dsts : List RegNum) (o : Opnds) (a : Word) (key : Nat) : Prop :=
  memStages (landed s) s.cur m q srcs dsts = .ok (o, a, key)

/-- The segment checks of an extent (R120, R116) give address `a`. -/
def Extent (s : State) (sg : Seg) (off : Word) (n align rights : Nat) (a : Word) : Prop :=
  extentCheck (landed s) ((landed s).thread s.cur).owner sg off n align rights = .ok a

/-- The thread s.cur as it issues. -/
def issuer (s : State) : Thread := (landed s).thread s.cur

/-- A 32-bit result, sign-extended (R100). -/
def wide (x : BitVec 32) : Word := x.signExtend 64

/-- The low half of a value (R100). -/
def half (x : Word) : BitVec 32 := x.setWidth 32

/-- The request of a thread-path access (R130, R131, R146). -/
def request (s : State) (st : Stall) (q : MemAsk) (a : Word) (key : Nat) (acc : Access) (pieces : List Piece) : Req :=
  { id := s.nextId, by_ := if q.relaxed then .relaxed else .ordinary, path := .thread, g := s.cur
    serial := (issuer s).serial, owner := (issuer s).owner, launch := (issuer s).launch, tile := tileOf s.cur, key := key, size := q.size, acc := acc
    kcls := countClass (landed s) s.cur a, pieces := pieces, addr := a, clock := clockOf s, stall := st, pair := q.pair
    due := if key < 2 ^ 52 then calibDue s (tileOf s.cur) else 0 }

/-- The instruction sends request `r` and parks until it completes; memory stays (R130). -/
def Parks (s : State) (i : Instr) (r : Req) : Prop :=
  ∃ u, exec i s = .next u ∧ u.traffic = s.traffic ++ [r] ∧ u.nextId = s.nextId + 1 ∧
    (u.thread s.cur).status = .parked (.access r.id) ∧ (u.thread s.cur).pc = (s.thread s.cur).pc ∧ u.mem = s.mem

/-- The instruction sends request `r`, counts it in its class, and completes (R131). -/
def Relaxes (s : State) (i : Instr) (r : Req) : Prop :=
  ∃ v, exec i s = .next (passTurn (retire v s.cur (clockOf s) r.stall true none) s.cur (clockOf s)) ∧
    v.traffic = s.traffic ++ [r] ∧ v.nextId = s.nextId + 1 ∧ v.mem = s.mem ∧
    (v.thread s.cur).k1 = (s.thread s.cur).k1 + (if r.kcls = 1 then 1 else 0) ∧
    (v.thread s.cur).k2 = (s.thread s.cur).k2 + (if r.kcls = 2 then 1 else 0) ∧
    (v.thread s.cur).k3 = (s.thread s.cur).k3 + (if r.kcls = 3 then 1 else 0) ∧
    ∀ p ∈ r.pieces, ∀ x, p.dst = .reg x →
      ((v.thread s.cur).reg x).full = false ∧ ((v.thread s.cur).reg x).fill = true

/-- The instruction parks for the answers of the memory port, of which `p` says for which (R333); memory stays. -/
def Asks (s : State) (i : Instr) (p : Option (Word × Nat)) : Prop :=
  ∃ u a n, p = some (a, n) ∧ exec i s = .next u ∧ (u.thread s.cur).status = .parked (.port a n) ∧
    (u.thread s.cur).pc = (s.thread s.cur).pc ∧ u.mem = s.mem

/-- The prefix stands before instruction `i` in the thread's line (R42). -/
def Prefixes (s : State) (i : Instr) : Prop :=
  ∃ ln, (s.thread s.cur).line = some ln ∧ headIdx (s.thread s.cur).pc < lineCount ln ∧
    lineInstr ln (headIdx (s.thread s.cur).pc + 1) = .ok i

/-- A copy instruction starts copy `x` on channel `ch` and completes (R190). -/
def Starts (s : State) (i : Instr) (st : Stall) (ch : Nat) (x : Copy) : Prop :=
  ∃ v, Completes s i st v none ∧ v.nextId = s.nextId + 1 ∧ v.mem = s.mem ∧
    (let T := tileOf s.cur
     ((v.tile T).chan ch).queue = ((s.tile T).chan ch).queue ++ [x] ∧
     ((v.tile T).chan ch).ptr[x.slot]? = some 0 ∧
     (v.tile T).buf x.buf = { (s.tile T).buf x.buf with state := .filling, ch := ch, status := 0 }) ∧
    ∀ r, x.cf = some r → ((v.thread s.cur).reg r).full = false ∧ ((v.thread s.cur).reg r).fill = true

/-- The copy of the instruction that issues. -/
def copyOf (s : State) (kind : CopyKind) (buf : Nat) (sg : Seg) (off : Word) (len : Nat) (cf : Option (Fin 32)) : Copy :=
  { n := s.nextId, pc := (issuer s).pc, g := s.cur, serial := (issuer s).serial, slot := s.cur % 32
    owner := (issuer s).owner, launch := (issuer s).launch, kind := kind, buf := buf, base := sg.base
    limit := sg.limit.toNat, sty := sg.type, off := off, len := len, cf := cf }

/-- A channel and a declared buffer take a copy (R190). -/
def Takes (s : State) (ch buf : Nat) : Prop :=
  Meets s [.channel ch] ∧ ((s.tile (tileOf s.cur)).buf buf).declared = true ∧
    ((s.tile (tileOf s.cur)).buf buf).state = .empty

/-- A bank serves the request of a thread now, and it passes its checks: its turn, its tile, its owner, whole data
(R146, R127, R390, R352). -/
def Served (s : State) (r : Req) : Prop :=
  findReq s r.id = some r ∧ bankTurn s r = true ∧ (r.key < 2 ^ 51 ∨ 2 ^ 52 ≤ r.key) ∧
    gate s r.owner r.key = .pass ∧ unitOf r.key ∉ s.poison ∧
    (r.by_ = .ordinary ∨ r.by_ = .relaxed ∨ r.by_ = .fetch ∨ ∃ l, r.by_ = .walk l)

/-- The request has been performed and may answer its thread (R130, R131, R166). -/
def Answers (s : State) (r : Req) : Prop := findReq s r.id = some r ∧ responds s r = true

/-- The completion of the instruction that waits for request `r` (R130): the count of an answer that comes late (R333), its
fills, then its retirement, without the stall turns that a freeze or a preemption has discarded (R46). -/
def completed (s : State) (r : Req) : State :=
  let v := freeFields (fillPieces (dropReq (countLate s r) r.id) r) r.g r.ops
  let u := retire v r.g r.clock (if (v.thread r.g).cut then 0 else r.stall) r.pair none
  u.modThread r.g fun t => { t.notBefore ((u.core (coreOf r.g)).clock + 1) with cut := false }

/-- A vector instruction finds its vector and mask registers full and room in its core's queue (R222, R224). -/
def VecMeets (s : State) (ws : List (BitVec 3)) (ms : List (BitVec 2)) : Prop :=
  Meets s (ws.map Need.vfull ++ (ms.filter (· != 0)).map Need.mfull ++ [.vqueue])

/-- In `v` instruction `i` has joined its core's vector queue, with its g source read and its destinations empty; `old` is the
vector register, its destination, whose lanes it keeps where its mask is inactive. -/
def Queued (s v : State) (i : Instr) (o : Opnds) (d : Dst) (wd : Option (BitVec 3)) (md : Option (BitVec 2)) : Prop :=
  (∃ ws ms old, (∀ x, old = some x → wd = some x.1) ∧ (v.core (coreOf s.cur)).vq = (s.core (coreOf s.cur)).vq ++
    [{ n := s.nextId, g := s.cur, pc := (issuer s).pc, ins := i, ws := ws, ms := ms, old := old, gval := o.v 0
       seed := (issuer s).seed, dst := d }]) ∧
  v.nextId = s.nextId + 1 ∧ v.mem = s.mem ∧
  (∀ w, wd = some w → ((v.thread s.cur).w[w.toNat]).full = false) ∧
  (∀ k, md = some k → ((v.thread s.cur).m[k.toNat]).full = false) ∧
  ∀ r, d = .reg r → ((v.thread s.cur).reg r).full = false ∧ ((v.thread s.cur).reg r).fill = true

/-- A vector instruction without memory issues and completes at the thread (R224). -/
def Enqueues (s : State) (i : Instr) (st : Stall) (o : Opnds) (d : Dst) (wd : Option (BitVec 3))
    (md : Option (BitVec 2)) : Prop :=
  ∃ v, Completes s i st v none ∧ Queued s v i o d wd md

/-- A vector memory instruction issues, and the thread waits for its acceptance (R227). -/
def EnqueuesMem (s : State) (i : Instr) (o : Opnds) (wd : Option (BitVec 3)) : Prop :=
  ∃ u, exec i s = .next u ∧ Queued s u i o .none wd none ∧ (u.thread s.cur).status = .parked .vaccept

/-- Lane `k` of a register, for lanes of `n` bits (R223). -/
def lane (n : Nat) (v : BitVec 2048) (k : Nat) : Nat := v.toNat / 2 ^ (n * k) % 2 ^ n

/-- The integer that a lane of an integer format is: signed in the codes 4 to 7 (R39). -/
def laneInt (f : BitVec 4) (x : Nat) : Int := if f.toNat < 8 then signedOf (laneBits f) x else x

/-- Element `m` of level `l` of the tree of R220 over the lanes `x`; `none` is the identity, beside which a node returns its
other element unchanged. -/
def treeAt (node : Nat → Nat → Nat) (x : Nat → Option Nat) : Nat → Nat → Option Nat
  | 0, m => x m
  | l + 1, m =>
    match treeAt node x l (2 * m), treeAt node x l (2 * m + 1) with
    | some a, some b => some (node a b)
    | a, none => a
    | none, b => b

/-- Lanes 0 to `k` that a mask makes active, as leaves (R220). -/
def activeTo (mask : BitVec 256) (k : Nat) (x : Nat → Nat) (j : Nat) : Option Nat :=
  if j ≤ k ∧ mask.getLsbD j = true then some (x j) else none

/-- The core of the thread that issues holds lease `l` with commands left (R250, R253). -/
def Leased (s : State) (l : Lease) : Prop :=
  (s.tile (tileOf s.cur)).mx.lease = some l ∧ l.core = coreOf s.cur ∧ l.left ≠ 0

/-- A matrix command joins the issued ones, reserves one of its lease, and its thread waits for its acceptance (R250). -/
def Commands (s : State) (i : Instr) (l : Lease) (oval gval : Word) : Prop :=
  ∃ u, exec i s = .next u ∧ (u.thread s.cur).status = .parked .maccept ∧ u.mem = s.mem ∧ u.nextId = s.nextId + 1 ∧
    (u.tile (tileOf s.cur)).mx.lease = some { l with left := l.left - 1 } ∧
    (u.tile (tileOf s.cur)).mx.issued = (s.tile (tileOf s.cur)).mx.issued ++
      [{ n := s.nextId, who := whoIn s s.cur, core := coreOf s.cur, lease := l.id, ins := i, oval := oval, gval := gval }]

/-- Element A(i, k) of a step whose A operand is the bytes `a`, in the step's format and under its block scale (R213,
R247, R260). -/
def stepA (c : MCmd) (q : MStep) (a : List Byte) (i k : Nat) : Val :=
  scaled (if q.scaled then some (c.scale.getD (i * (q.depth / 16) + k / 16) 0) else none)
    (operandAt (storedElem c.fmt (stepElem q.x)) (stepElem q.x) (natOfBytes a) (i * q.depth + k))

/-- Element B(k, n) of a step. -/
def stepB (m : Matrix) (c : MCmd) (q : MStep) (k n : Nat) : Val :=
  scaled (if q.scaled then some (c.scale.getD (q.depth + k / 16 * 16 + n) 0) else none)
    (operandAt (storedElem m.btag q.bElem) q.bElem (natOfBytes m.b) (k * 16 + n))

/-- The operand of `depset` and `depdec` passes its checks: it has address `a` and key `key` (R281, R120). -/
def ReachesCell (s : State) (m : MemArg) (src : List RegNum) (o : Opnds) (a : Word) (key : Nat) : Prop :=
  Ready s (m.off :: src) [] o ∧ Meets s (kwNeeds m.kw) ∧
    segCheck (landed s) (issuer s).owner ((issuer s).segs[m.seg.toNat]) (segOff (o.v 0) m.sc 64 m.disp)
      { size := 64, align := 64, rights := 4, types := [0] } = .ok a ∧
    bufCheck (landed s) (tileOf s.cur) a 64 .store = .ok () ∧ memKey (landed s) s.cur a .atomic = .ok key

/-- Floes are enabled, and value `v` is the handle of slot `j`, which the thread that issues holds (R285, R286). -/
def Handle (s : State) (v : Word) (j : Nat) : Prop :=
  floesOn (landed s) (berthOf (tileOf s.cur)) = true ∧ v.toNat = j ∧ j < 16 ∧ slotState s (tileOf s.cur) j = .held s.cur

/-- The destination of an instruction whose only effect is one result (R99). -/
def resultOf : Instr → Option RegNum
  | .add _ _ d _ _ | .sub _ _ d _ _ | .addiC _ _ d _ _ | .addiD _ _ d _ _ | .mul _ _ d _ _ | .mulh _ _ d _ _ => some d
  | .mulhu _ _ d _ _ | .mad _ _ d _ _ _ | .div _ _ d _ _ | .divu _ _ d _ _ | .rem _ _ d _ _ | .remu _ _ d _ _ => some d
  | .and _ _ d _ _ | .or _ _ d _ _ | .xor _ _ d _ _ | .andn _ _ d _ _ | .shl _ _ d _ _ | .shr _ _ d _ _ => some d
  | .sar _ _ d _ _ | .rol _ _ d _ _ | .min _ _ d _ _ | .max _ _ d _ _ | .minu _ _ d _ _ | .maxu _ _ d _ _ => some d
  | .set _ _ d _ _ | .sel _ d _ _ _ | .bcnt _ _ d _ | .bext _ _ d _ _ _ | .bins _ _ d _ _ _ | .liC _ d _ => some d
  | .liD _ d _ | .liHi _ d _ | .mov _ d _ | .ext _ _ d _ | .abs _ _ d _ | .getrb _ d | .ldpc _ d _ | .tbr _ d => some d
  | .leaM _ d _ | .leaN _ d _ | .sget _ _ d _ | .bfget _ d _ | .qpoll _ d _ | .qcnt _ d _ | .bufget _ d _ => some d
  | .cwp _ _ d | .chbind _ _ d | .mstat _ d | .tcount _ d | .pcnt _ _ d | .dstate _ _ d | .rdsys _ d _ => some d
  | .ecnt _ _ d => some d
  | _ => none

/-- An instruction that sends one access of the thread path (R130, R131). -/
def accesses : Instr → Bool
  | .ldM .. | .ldN .. | .lduM .. | .lduN .. | .stM .. | .stN .. | .ldp .. | .stp .. => true
  | .amo .. | .swap .. | .cas .. | .fadd .. | .sigupM .. | .sigupN .. | .sigwait .. => true
  | .depsetM .. | .depsetN .. | .depdecM .. | .depdecN .. => true
  | _ => false

/-- The step from `s` to `u` took no trap of the thread s.cur, and its line at the new pc is legal (R85). -/
def Untrapped (s u : State) : Prop :=
  (u.thread s.cur).status ≠ .halting ∧ (u.thread s.cur).trapped = none ∧ (u.thread s.cur).inh = (s.thread s.cur).inh

/-- The value of a register once every result on its way to it has landed (R44). -/
def regVal (s : State) (g : Nat) (r : Fin 32) : Word := ((s.thread g).landAll.reg r).val

/-- `t'` has the registers of `t` that no general register belongs to: segments, vector and mask registers, counts, loop
and rotation state aside, the system registers, identity and launch. -/
def SameRest (t t' : Thread) : Prop :=
  t'.segs = t.segs ∧ t'.w = t.w ∧ t'.m = t.m ∧ t'.rb = t.rb ∧ t'.jcell = t.jcell ∧ t'.hint = t.hint ∧
    t'.handler = t.handler ∧ t'.det = t.det ∧ t'.dz = t.dz ∧ t'.sb = t.sb ∧ t'.trapPc = t.trapPc ∧
    t'.trapSucc = t.trapSucc ∧ t'.trapCause = t.trapCause ∧ t'.trapInfo = t.trapInfo ∧ t'.seed = t.seed ∧
    t'.data = t.data ∧ t'.misuse = t.misuse ∧ t'.ids = t.ids ∧ t'.id = t.id ∧ t'.owner = t.owner ∧
    t'.launch = t.launch ∧ t'.paused = t.paused ∧ t'.cut = t.cut ∧ t'.port = t.port

/-- Everything of the module but threads, cores, traffic, operations on remote registers and the turn is unchanged. -/
def SameModule (s u : State) : Prop :=
  u.mem = s.mem ∧ u.poison = s.poison ∧ u.locks = s.locks ∧ u.frames = s.frames ∧ u.coded = s.coded ∧ u.tiles = s.tiles ∧
    u.dies = s.dies ∧ u.owners = s.owners ∧ u.keys = s.keys ∧ u.launches = s.launches ∧ u.barriers = s.barriers ∧
    u.inlets = s.inlets ∧ u.floes = s.floes ∧ u.usedAt = s.usedAt ∧ u.calib = s.calib ∧ u.timebase = s.timebase ∧
    u.epochs = s.epochs ∧ u.pause = s.pause

/-- A request with which a thread's next instruction is prepared: that of its line, or of a table that the walk for its page
reads through the port in calibration mode (R81, R124, R333). -/
def prefetch (r : Req) : Bool := r.by_ == .fetch || r.by_.level.isSome

end Sys2Proof.Claims
end

