-- ==== Sys2Proof/Certificates/Slice0/Obligations.lean ====
section
/-! DEFINITION. The statements for the provers, in the words of Safety.lean. -/

open Sys2Proof Sys2Proof.Machine Sys2Proof.Claims

/-! ### Integer class -/

/-- R104, R100, R101: sums, differences and products, in both widths. -/
def Obligations.IntegerArithmetic : Prop :=
  ∀ (s : State) (st : Stall) (d a b c : RegNum) (o : Opnds),
    (Ready s [a, b] [d] o →
      Gives s (.add st false d a b) st 4 o (o.v 0 + o.v 1) ∧
      Gives s (.add st true d a b) st 4 o (wide (half (o.v 0) + half (o.v 1))) ∧
      Gives s (.sub st false d a b) st 4 o (o.v 0 - o.v 1) ∧
      Gives s (.sub st true d a b) st 4 o (wide (half (o.v 0) - half (o.v 1))) ∧
      Gives s (.mul st false d a b) st 12 o (o.v 0 * o.v 1) ∧
      Gives s (.mul st true d a b) st 12 o (wide (half (o.v 0) * half (o.v 1))) ∧
      Gives s (.mulh st false d a b) st 12 o (BitVec.ofInt 64 ((o.v 0).toInt * (o.v 1).toInt / 2 ^ 64)) ∧
      Gives s (.mulh st true d a b) st 12 o
        (wide (BitVec.ofInt 32 ((half (o.v 0)).toInt * (half (o.v 1)).toInt / 2 ^ 32))) ∧
      Gives s (.mulhu st false d a b) st 12 o (BitVec.ofNat 64 ((o.v 0).toNat * (o.v 1).toNat / 2 ^ 64)) ∧
      Gives s (.mulhu st true d a b) st 12 o
        (wide (BitVec.ofNat 32 ((half (o.v 0)).toNat * (half (o.v 1)).toNat / 2 ^ 32)))) ∧
    (Ready s [a, b, c] [d] o →
      Gives s (.mad st false d a b c) st 16 o (o.v 0 * o.v 1 + o.v 2) ∧
      Gives s (.mad st true d a b c) st 16 o (wide (half (o.v 0) * half (o.v 1) + half (o.v 2)))) ∧
    (Ready s [a] [d] o →
      (∀ n : BitVec 14, Gives s (.addiC st false d a n) st 4 o (o.v 0 + n.signExtend 64)) ∧
      (∀ n : BitVec 14, Gives s (.addiC st true d a n) st 4 o (wide (half (o.v 0) + half (n.signExtend 64)))) ∧
      (∀ n : BitVec 40, Gives s (.addiD st false d a n) st 4 o (o.v 0 + n.signExtend 64)) ∧
      (∀ n : BitVec 40, Gives s (.addiD st true d a n) st 4 o (wide (half (o.v 0) + half (n.signExtend 64)))))

/-- R106, R100, R101: bits, shifts and extremes, in both widths. -/
def Obligations.IntegerLogic : Prop :=
  ∀ (s : State) (st : Stall) (d a b : RegNum) (o : Opnds), Ready s [a, b] [d] o →
    Gives s (.and st false d a b) st 4 o (o.v 0 &&& o.v 1) ∧
    Gives s (.and st true d a b) st 4 o (wide (half (o.v 0) &&& half (o.v 1))) ∧
    Gives s (.or st false d a b) st 4 o (o.v 0 ||| o.v 1) ∧
    Gives s (.or st true d a b) st 4 o (wide (half (o.v 0) ||| half (o.v 1))) ∧
    Gives s (.xor st false d a b) st 4 o (o.v 0 ^^^ o.v 1) ∧
    Gives s (.xor st true d a b) st 4 o (wide (half (o.v 0) ^^^ half (o.v 1))) ∧
    Gives s (.andn st false d a b) st 4 o (o.v 0 &&& ~~~ o.v 1) ∧
    Gives s (.andn st true d a b) st 4 o (wide (half (o.v 0) &&& ~~~ half (o.v 1))) ∧
    Gives s (.shl st false d a b) st 4 o (o.v 0 <<< ((o.v 1).toNat % 64)) ∧
    Gives s (.shl st true d a b) st 4 o (wide (half (o.v 0) <<< ((half (o.v 1)).toNat % 32))) ∧
    Gives s (.shr st false d a b) st 4 o (o.v 0 >>> ((o.v 1).toNat % 64)) ∧
    Gives s (.shr st true d a b) st 4 o (wide (half (o.v 0) >>> ((half (o.v 1)).toNat % 32))) ∧
    Gives s (.sar st false d a b) st 4 o ((o.v 0).sshiftRight ((o.v 1).toNat % 64)) ∧
    Gives s (.sar st true d a b) st 4 o (wide ((half (o.v 0)).sshiftRight ((half (o.v 1)).toNat % 32))) ∧
    Gives s (.rol st false d a b) st 4 o ((o.v 0).rotateLeft ((o.v 1).toNat % 64)) ∧
    Gives s (.rol st true d a b) st 4 o (wide ((half (o.v 0)).rotateLeft ((half (o.v 1)).toNat % 32))) ∧
    Gives s (.min st false d a b) st 4 o (if (o.v 0).sle (o.v 1) then o.v 0 else o.v 1) ∧
    Gives s (.min st true d a b) st 4 o (wide (if (half (o.v 0)).sle (half (o.v 1)) then half (o.v 0) else half (o.v 1))) ∧
    Gives s (.max st false d a b) st 4 o (if (o.v 1).sle (o.v 0) then o.v 0 else o.v 1) ∧
    Gives s (.max st true d a b) st 4 o (wide (if (half (o.v 1)).sle (half (o.v 0)) then half (o.v 0) else half (o.v 1))) ∧
    Gives s (.minu st false d a b) st 4 o (if (o.v 0).ule (o.v 1) then o.v 0 else o.v 1) ∧
    Gives s (.minu st true d a b) st 4 o (wide (if (half (o.v 0)).ule (half (o.v 1)) then half (o.v 0) else half (o.v 1))) ∧
    Gives s (.maxu st false d a b) st 4 o (if (o.v 1).ule (o.v 0) then o.v 0 else o.v 1) ∧
    Gives s (.maxu st true d a b) st 4 o (wide (if (half (o.v 1)).ule (half (o.v 0)) then half (o.v 0) else half (o.v 1)))

/-- R107 to R114: comparison, selection, counts, fields, immediates, moves, extension, absolute value. -/
def Obligations.IntegerMoves : Prop :=
  ∀ (s : State) (st : Stall) (d a b c : RegNum) (o : Opnds),
    (Ready s [a, b] [d] o →
      ∀ k : Cond, Gives s (.set st k d a b) st 4 o (if condHolds k (o.v 0) (o.v 1) then 1 else 0)) ∧
    (Ready s [a, b, c] [d] o → Gives s (.sel st d a b c) st 4 o (if o.v 0 ≠ 0 then o.v 1 else o.v 2)) ∧
    (Ready s [a] [d] o →
      (∀ k : BcntKind, Gives s (.bcnt st k d a) st 6 o (bcntR k (o.v 0))) ∧
      (∀ p n : BitVec 6, Gives s (.bext st false d a p n) st 6 o (bextR (o.v 0) p.toNat (n.toNat + 1))) ∧
      (∀ p n : BitVec 6, Gives s (.bext st true d a p n) st 6 o (wide (bextR (half (o.v 0)) p.toNat (n.toNat + 1)))) ∧
      Gives s (.mov st d a) st 4 o (o.v 0) ∧
      (∀ k : ExtKind, Gives s (.ext st k d a) st 4 o (extR k (o.v 0))) ∧
      Gives s (.abs st false d a) st 4 o (if (o.v 0).slt 0 then - o.v 0 else o.v 0) ∧
      Gives s (.abs st true d a) st 4 o (wide (absS (half (o.v 0))))) ∧
    (Ready s [] [d] o →
      (∀ n : BitVec 14, Gives s (.liC st d n) st 4 o (n.signExtend 64)) ∧
      (∀ n : BitVec 40, Gives s (.liD st d n) st 4 o (n.signExtend 64))) ∧
    (d.toNat < 32 → Ready s [a, d] [d] o →
      (∀ p n : BitVec 6, Gives s (.bins st false d a p n) st 6 o (binsR (o.v 1) (o.v 0) p.toNat (n.toNat + 1))) ∧
      (∀ p n : BitVec 6,
        Gives s (.bins st true d a p n) st 6 o (wide (binsR (half (o.v 1)) (half (o.v 0)) p.toNat (n.toNat + 1))))) ∧
    (d.toNat < 32 → Ready s [d] [d] o →
      ∀ n : BitVec 24, Gives s (.liHi st d n) st 4 o (n ++ (o.v 0).extractLsb' 0 40))

/-- R105: quotients and remainders when the divisor is not zero or the thread has not enabled the trap. -/
def Sys2Proof.Claims.DivisionResults : Prop :=
  ∀ (s : State) (st : Stall) (d a b : RegNum) (o : Opnds), Ready s [a, b] [d] o →
    ((o.v 1 ≠ 0 ∨ (issuer s).dz = false) →
      Gives s (.div st false d a b) st 64 o (quotS (o.v 0) (o.v 1)) ∧
      Gives s (.divu st false d a b) st 64 o (quotU (o.v 0) (o.v 1)) ∧
      Gives s (.rem st false d a b) st 64 o (remS (o.v 0) (o.v 1)) ∧
      Gives s (.remu st false d a b) st 64 o (remU (o.v 0) (o.v 1))) ∧
    ((half (o.v 1) ≠ 0 ∨ (issuer s).dz = false) →
      Gives s (.div st true d a b) st 40 o (wide (quotS (half (o.v 0)) (half (o.v 1)))) ∧
      Gives s (.divu st true d a b) st 40 o (wide (quotU (half (o.v 0)) (half (o.v 1)))) ∧
      Gives s (.rem st true d a b) st 40 o (wide (remS (half (o.v 0)) (half (o.v 1)))) ∧
      Gives s (.remu st true d a b) st 40 o (wide (remU (half (o.v 0)) (half (o.v 1)))))

/-- R105: with the trap enabled a zero divisor raises the local trap 1; in `.w` only the low half counts. -/
def Sys2Proof.Claims.DivisionTrap : Prop :=
  ∀ (s : State) (st : Stall) (d a b : RegNum) (o : Opnds), Ready s [a, b] [d] o → (issuer s).dz = true →
    let trap := takeLocal (landed s) s.cur (clockOf s) 1 0 0 false false
    (o.v 1 = 0 → Acts s (.div st false d a b) trap ∧ Acts s (.divu st false d a b) trap ∧
      Acts s (.rem st false d a b) trap ∧ Acts s (.remu st false d a b) trap) ∧
    (half (o.v 1) = 0 → Acts s (.div st true d a b) trap ∧ Acts s (.divu st true d a b) trap ∧
      Acts s (.rem st true d a b) trap ∧ Acts s (.remu st true d a b) trap)

/-- R105: the results with a zero divisor, and of the most negative number by −1, in any width. -/
def Sys2Proof.Claims.DivisionCorners : Prop :=
  ∀ (n : Nat) (a b : BitVec n), 0 < n →
    quotS a 0 = BitVec.allOnes n ∧ quotU a 0 = BitVec.allOnes n ∧ remS a 0 = a ∧ remU a 0 = a ∧
    quotS (BitVec.intMin n) (BitVec.allOnes n) = BitVec.intMin n ∧ remS (BitVec.intMin n) (BitVec.allOnes n) = 0 ∧
    (b ≠ 0 → (quotU a b).toNat = a.toNat / b.toNat ∧ (remU a b).toNat = a.toNat % b.toNat) ∧
    (b ≠ 0 → ¬ (a = BitVec.intMin n ∧ b = BitVec.allOnes n) →
      (quotS a b).toInt = a.toInt.tdiv b.toInt ∧ (remS a b).toInt = a.toInt.tmod b.toInt)

/-- R105: division. -/
def Obligations.IntegerDivision : Prop := Claims.DivisionResults ∧ Claims.DivisionTrap ∧ Claims.DivisionCorners

/-! ### Control class -/

/-- R88 to R90: branches, calls and returns go to their targets or to the successor. -/
def Obligations.ControlTransfers : Prop :=
  ∀ (s : State) (st : Stall) (t : Target) (a b : RegNum) (o : Opnds),
    Completes s (.br st t) st (landed s) (some (targetPc (issuer s).pc t)) ∧
    (Ready s [a, b] [] o → ∀ k : Cond, Completes s (.bc st k a b t) st (consume (landed s) s.cur o.srcs)
      (if condHolds k (o.v 0) (o.v 1) then some (targetPc (issuer s).pc t) else none)) ∧
    (Ready s [a] [] o → ∀ k : ZCond, Completes s (.bcz st k a t) st (consume (landed s) s.cur o.srcs)
      (if zcondHolds k (o.v 0) then some (targetPc (issuer s).pc t) else none)) ∧
    (Ready s [a] [] o → Completes s (.jr st a) st (consume (landed s) s.cur o.srcs) (some (o.v 0))) ∧
    (Ready s [31] [] o → Completes s (.ret st) st (consume (landed s) s.cur o.srcs) (some (o.v 0))) ∧
    (Ready s [] [31] o → Completes s (.call st t) st
      (writeLater (landed s) s.cur (o.d 0) (succOf (issuer s) false) (clockOf s + 4)) (some (targetPc (issuer s).pc t))) ∧
    (Ready s [a] [31] o → Completes s (.callr st a) st
      (writeLater (consume (landed s) s.cur o.srcs) s.cur (o.d 0) (succOf (issuer s) false) (clockOf s + 4))
      (some (o.v 0)))

/-- R83, R86, R91 to R98: loops, the rotating region, waiting, the line store, the clock. -/
def Sys2Proof.Claims.ControlKeeps : Prop :=
  ∀ (s : State) (st : Stall) (a d : RegNum) (o : Opnds),
    (∀ l x t, Completes s (.nop l st x t) st (landed s) none) ∧
    (∀ n, Completes s (.setrb st n) st ((landed s).modThread s.cur fun t => { t with rb := n }) none) ∧
    Completes s (.brot st) st ((landed s).modThread s.cur fun t => { t with rb := t.rb - 1 }) none ∧
    (Ready s [] [d] o →
      Gives s (.getrb st d) st 4 o ((issuer s).rb.setWidth 64) ∧
      (∀ t, Gives s (.ldpc st d t) st 4 o (targetPc (issuer s).pc t)) ∧
      Gives s (.tbr st d) st 4 o (BitVec.ofNat 64 s.timebase)) ∧
    (Ready s [a] [] o → o.v 0 ≠ 0 → ∀ lv t, Completes s (.loop st lv a t) st
      ((consume (landed s) s.cur o.srcs).modThread s.cur fun x => armLevel x lv
        { count := o.v 0, start := succOf (issuer s) false, stop := targetPc (issuer s).pc t, active := true }) none) ∧
    (Ready s [a] [] o → o.v 0 = 0 → ∀ lv t ln,
      needLine (landed s) s.cur (lineAddr (targetPc (issuer s).pc t)) = .ok ln →
      entryLegal ln (headIdx (targetPc (issuer s).pc t)) = true →
      Completes s (.loop st lv a t) st ((consume (landed s) s.cur o.srcs).modThread s.cur fun x => disarmLevel x lv)
        (some (succPc (lineCount ln) (targetPc (issuer s).pc t)))) ∧
    Acts s (.halt st) ((landPushes (landed s) s.cur).modThread s.cur fun t => { t.capture with status := .halting }) ∧
    (coreDet (retire (landed s) s.cur (clockOf s) 7 false none) (coreOf s.cur) = true →
      Completes s (.yield st) 7 (landed s) none) ∧
    (overflowNext (retire (landed s) s.cur (clockOf s) 7 false none) (coreOf s.cur) = none →
      Completes s (.yield st) 7 (landed s) none) ∧
    (∀ l, pwaitNeeds (landed s) s.cur a = .ok l → Meets s l → Completes s (.pwait st a) st (landed s) none) ∧
    (Meets s [.counts false false true] → ∃ x : Thread, x.pc = (evalLoops (issuer s) (issuer s).pc (succOf (issuer s) false)).2 ∧
      Acts s (.isync st) (syncLines ((landed s).setThread s.cur x) s.cur))

/-- R94, R323: outside strict rotation a resident thread that yields gives its physical slot to the waiting overflow
thread and joins the end of the queue. -/
def Sys2Proof.Claims.YieldSwap : Prop :=
  ∀ (s : State) (st : Stall) (p n : Nat),
    let r := retire (landed s) s.cur (clockOf s) 7 false none
    let c := r.core (coreOf s.cur)
    physOfSlot c (slotOf s.cur) = some p → coreDet r (coreOf s.cur) = false →
    overflowNext r (coreOf s.cur) = some n →
    ∃ u, exec (.yield st) s = .next u ∧
      (u.core (coreOf s.cur)).phys = c.phys.set p (some n) ∧
      (u.core (coreOf s.cur)).overflow = c.overflow.erase n ++ [slotOf s.cur] ∧
      (u.core (coreOf s.cur)).swap = (p, c.clock + 64) :: c.swap

/-- R83, R86, R91 to R98, R323: the control instructions that change the thread's state, and the swap of `yield`. -/
def Obligations.ControlState : Prop := Claims.ControlKeeps ∧ Claims.YieldSwap

/-- R50, R345: a reserved OP takes the illegal-instruction owner trap at its issue. -/
def Sys2Proof.Claims.ReservedTraps : Prop :=
  ∀ (s : State) (h : BitVec 16), Acts s (.reservedHead h) (ownerTrap (landed s) s.cur 1 0 0 (issuer s).pc)

/-! ### Memory class -/

/-- R120, R130, R136, R137: an ordinary load that passes its stages sends a load of its width and parks; its pieces say
how the result is extended. -/
def Obligations.MemoryLoads : Prop :=
  ∀ (s : State) (st : Stall) (d d2 : RegNum) (m : MemOp 14) (n : MemOp 40) (o : Opnds) (a : Word) (key : Nat),
    (∀ z : Width,
      let q : MemAsk := { kind := .load, size := widthBytes z, rights := 1 }
      (Reaches s (memArg m) q [] [d] o a key →
        Parks s (.ldM st z d m) (request s st q a key .load [⟨0, widthBytes z, true, o.d 0⟩]) ∧
        Parks s (.lduM st z d m) (request s st q a key .load [⟨0, widthBytes z, false, o.d 0⟩])) ∧
      (Reaches s (memArg n) q [] [d] o a key →
        Parks s (.ldN st z d n) (request s st q a key .load [⟨0, widthBytes z, true, o.d 0⟩]) ∧
        Parks s (.lduN st z d n) (request s st q a key .load [⟨0, widthBytes z, false, o.d 0⟩]))) ∧
    (∀ b : Bool,
      let k := if b then 8 else 4
      let q : MemAsk := { kind := .load, size := 2 * k, rights := 1, twin := true }
      (d = d2 → d = 0 ∨ 32 ≤ d.toNat) → Reaches s (memArg n) q [] [d, d2] o a key →
        Parks s (.ldp st b d d2 n) (request s st q a key .load [⟨0, k, true, o.d 0⟩, ⟨k, k, true, o.d 1⟩]))

/-- R120, R130, R136, R137: an ordinary store that passes its stages sends its bytes and parks. -/
def Obligations.MemoryStores : Prop :=
  ∀ (s : State) (st : Stall) (x x2 : RegNum) (m : MemOp 14) (n : MemOp 40) (o : Opnds) (a : Word) (key : Nat),
    (∀ z : Width,
      let q : MemAsk := { kind := .store, size := widthBytes z, rights := 2 }
      (Reaches s (memArg m) q [x] [] o a key →
        Parks s (.stM st z x m) (request s st q a key (storeAcc (widthBytes z) ((o.v 1).setWidth 512)) [])) ∧
      (Reaches s (memArg n) q [x] [] o a key →
        Parks s (.stN st z x n) (request s st q a key (storeAcc (widthBytes z) ((o.v 1).setWidth 512)) []))) ∧
    (∀ b : Bool,
      let k := if b then 8 else 4
      let q : MemAsk := { kind := .store, size := 2 * k, rights := 2, twin := true }
      Reaches s (memArg n) q [x, x2] [] o a key →
        Parks s (.stp st b x x2 n) (request s st q a key
          (storeAcc (2 * k) (BitVec.ofNat 512
            ((o.v 1).toNat % 2 ^ (8 * k) + (o.v 2).toNat % 2 ^ (8 * k) * 2 ^ (8 * k)))) []))

/-- R87, R131, R42: with the prefix an access is relaxed: sent, counted in its class, its destinations empty with a
fill pending, and the thread goes on. -/
def Obligations.RelaxedAccesses : Prop :=
  ∀ (s : State) (st : Stall) (z : Width) (b : Bool) (d d2 : RegNum) (m : MemOp 14) (n : MemOp 40) (o : Opnds) (a : Word)
    (key : Nat),
    let k := if b then 8 else 4
    let ql : MemAsk := { kind := .load, size := widthBytes z, rights := 1, relaxed := true, pair := true }
    let qs : MemAsk := { kind := .store, size := widthBytes z, rights := 2, relaxed := true, pair := true }
    let qlp : MemAsk :=
      { kind := .load, size := 2 * k, rights := 1, relaxed := true, pair := true, twin := true }
    let qsp : MemAsk :=
      { kind := .store, size := 2 * k, rights := 2, relaxed := true, pair := true, twin := true }
    (Prefixes s (.ldM st z d m) → Reaches s (memArg m) ql [] [d] o a key →
      Relaxes s .rx (request s st ql a key .load [⟨0, widthBytes z, true, o.d 0⟩])) ∧
    (Prefixes s (.ldN st z d n) → Reaches s (memArg n) ql [] [d] o a key →
      Relaxes s .rx (request s st ql a key .load [⟨0, widthBytes z, true, o.d 0⟩])) ∧
    (Prefixes s (.lduM st z d m) → Reaches s (memArg m) ql [] [d] o a key →
      Relaxes s .rx (request s st ql a key .load [⟨0, widthBytes z, false, o.d 0⟩])) ∧
    (Prefixes s (.lduN st z d n) → Reaches s (memArg n) ql [] [d] o a key →
      Relaxes s .rx (request s st ql a key .load [⟨0, widthBytes z, false, o.d 0⟩])) ∧
    (Prefixes s (.stM st z d m) → Reaches s (memArg m) qs [d] [] o a key →
      Relaxes s .rx (request s st qs a key (storeAcc (widthBytes z) ((o.v 1).setWidth 512)) [])) ∧
    (Prefixes s (.stN st z d n) → Reaches s (memArg n) qs [d] [] o a key →
      Relaxes s .rx (request s st qs a key (storeAcc (widthBytes z) ((o.v 1).setWidth 512)) [])) ∧
    (Prefixes s (.ldp st b d d2 n) → (d = d2 → d = 0 ∨ 32 ≤ d.toNat) → Reaches s (memArg n) qlp [] [d, d2] o a key →
      Relaxes s .rx (request s st qlp a key .load [⟨0, k, true, o.d 0⟩, ⟨k, k, true, o.d 1⟩])) ∧
    (Prefixes s (.stp st b d d2 n) → Reaches s (memArg n) qsp [d, d2] [] o a key →
      Relaxes s .rx (request s st qsp a key (storeAcc (2 * k) (BitVec.ofNat 512
        ((o.v 1).toNat % 2 ^ (8 * k) + (o.v 2).toNat % 2 ^ (8 * k) * 2 ^ (8 * k)))) []))

/-- R138 to R141: addresses without an access, and the segment registers. -/
def Sys2Proof.Claims.SegmentOps : Prop :=
  ∀ (s : State) (st : Stall) (d a b : RegNum) (x : BitVec 3) (o : Opnds),
    let sg := (issuer s).segs[x.toNat]
    let put := fun (y : Seg) => (consume (landed s) s.cur o.srcs).modThread s.cur fun t => t.setSeg x y
    (∀ m : MemOp 14, Ready s [m.off] [d] o → Meets s (kwNeeds m.kw) →
      Gives s (.leaM st d m) st 4 o (((issuer s).segs[m.seg.toNat]).base + (o.v 0 + m.disp.signExtend 64))) ∧
    (∀ m : MemOp 40, Ready s [m.off] [d] o → Meets s (kwNeeds m.kw) →
      Gives s (.leaN st d m) st 4 o (((issuer s).segs[m.seg.toNat]).base + (o.v 0 + m.disp.signExtend 64))) ∧
    (Ready s [a, b] [] o → ∀ code : BitVec 6, Completes s (.sset st x a b code) st
      (put { base := o.v 0, limit := BitVec.ofNat 48 (min (o.v 1).toNat (2 ^ 48 - 1)), code := code }) none) ∧
    (Ready s [] [d] o →
      Gives s (.sget st .base d x) st 4 o sg.base ∧
      Gives s (.sget st .limit d x) st 4 o (sg.limit.setWidth 64) ∧
      Gives s (.sget st .code d x) st 4 o (sg.code.setWidth 64)) ∧
    (Ready s [a] [] o → sg.code.toNat / 16 ≠ 3 →
      Completes s (.sadj st true x a) st
        (put { sg with limit := BitVec.ofNat 48 (min (o.v 0).toNat sg.limit.toNat) }) none ∧
      ((o.v 0).toNat ≤ sg.limit.toNat → Completes s (.sadj st false x a) st
        (put { sg with base := sg.base + o.v 0, limit := sg.limit - (o.v 0).setWidth 48 }) none))

/-- R142 to R145, R122: waits for counts and paths, and the bank-format registers. -/
def Sys2Proof.Claims.WaitsAndFormats : Prop :=
  ∀ (s : State) (st : Stall) (d : RegNum) (o : Opnds) (p q : Path) (k : BitVec 2) (bank fmt : BitVec 5),
    let T := tileOf s.cur
    (Meets s [.counts true true true] → Completes s (.fence st) st (landed s) none) ∧
    (Meets s [.path p, .path q] → Completes s (.xfence st p q) st (landed s) none) ∧
    (Meets s (kwNeeds k) → Completes s (.cwait st k) st (landed s) none) ∧
    (landingBit (landed s) T bank.toNat = false → Completes s (.bfmt st bank fmt) st
      ((landed s).modTile T fun x => { x with fmt := x.fmt.setIfInBounds bank.toNat fmt }) none) ∧
    (Ready s [] [d] o → Gives s (.bfget st d bank) st 4 o
      (if landingBit (landed s) T bank.toNat then 0x100 else ((s.tile T).fmt.toList.getD bank.toNat 0).setWidth 64))

/-- R122, R138 to R145: addresses, segment registers, waits and bank formats. -/
def Obligations.SegmentsAndWaits : Prop := Claims.SegmentOps ∧ Claims.WaitsAndFormats

/-! ### Banks -/

/-- R146, R116, R150: a bank that serves a load reads its bytes and changes none; a store replaces the bytes of its
mask and no other. -/
def Obligations.BankServesAccess : Prop :=
  ∀ (s : State) (r : Req), Served s r →
    (r.acc = .load → ∃ u, exec (.bankAccessPerform r.id) s = .next u ∧ u.mem = s.mem ∧
      findReq u r.id = some { r with stage := .performed, data := BitVec.ofNat 512 (memNat s.mem r.key r.size) }) ∧
    (∀ n v, r.acc = storeAcc n v → r.size = n → n ≤ 64 → r.key % 64 + n ≤ 64 → memWf s.mem = true →
      ∃ u, exec (.bankAccessPerform r.id) s = .next u ∧ findReq u r.id = some { r with stage := .performed, data := 0 } ∧
        memNat u.mem r.key n = v.toNat % 256 ^ n ∧
        ∀ x, (x < r.key ∨ r.key + n ≤ x) → memByte u.mem x = memByte s.mem x)

/-- R160 to R163: at its perform point an atomic reads the old value and writes the new one; no other byte changes. -/
def Sys2Proof.Claims.AtomicPerforms : Prop :=
  ∀ (s : State) (r : Req), Served s r → memWf s.mem = true → (r.size = 4 ∨ r.size = 8) → r.key % r.size = 0 →
    let old := memNat s.mem r.key r.size
    let dbl := r.size == 8
    let put := fun (new : Nat) => ∃ u, exec (.bankAccessPerform r.id) s = .next u ∧
      findReq u r.id = some { r with stage := .performed, data := BitVec.ofNat 512 old } ∧
      memNat u.mem r.key r.size = new % 256 ^ r.size ∧
      ∀ x, (x < r.key ∨ r.key + r.size ≤ x) → memByte u.mem x = memByte s.mem x
    (∀ v, r.acc = .swap dbl v → put v.toNat) ∧
    (∀ e v, r.acc = .cas dbl e v → put (if old = e.toNat % 256 ^ r.size then v.toNat else old)) ∧
    (∀ v, r.acc = .fadd dbl v → put (faddNew dbl old v)) ∧
    (∀ op v, r.acc = .amo op dbl v →
      put (if dbl then (amoR op (BitVec.ofNat 64 old) v).toNat
        else (amoR op (BitVec.ofNat 32 old) (half v)).toNat))

/-- R136, R133: the value that a load delivers: its bytes, sign-extended or zero-extended. -/
def Sys2Proof.Claims.LoadedValues : Prop :=
  ∀ (data : BitVec 512) (off size : Nat) (d : Dst), size = 1 ∨ size = 2 ∨ size = 4 ∨ size = 8 → off + size ≤ 64 →
    pieceValue data ⟨off, size, true, d⟩ = (data.extractLsb' (8 * off) (8 * size)).signExtend 64 ∧
    pieceValue data ⟨off, size, false, d⟩ = (data.extractLsb' (8 * off) (8 * size)).setWidth 64

/-- R130, R131, R165, R333: a performed access answers: the waiting instruction completes with its fills; a relaxed
one fills and is counted out of its class; in calibration mode the acknowledgement of a copy unit or of a barrier's commit is
held until it is due. -/
def Sys2Proof.Claims.AccessAnswers : Prop :=
  ∀ (s : State) (r : Req), Answers s r →
    (r.by_ = .ordinary → (s.thread r.g).status = .parked (.access r.id) →
      ((∀ c v, r.acc ≠ .sigwait c v) → exec (.ordinaryAccessCompletion r.id) s = .next (completed s r)) ∧
      (∀ c v, r.acc = .sigwait c v → exec (.sigwaitSatisfied r.id) s = .next (completed s r)) ∧
      (s.calib.isSome = true → exec (.calibrationResponseDue r.id) s = .next (completed s r))) ∧
    (r.by_ = .relaxed →
      let u := (fillPieces (dropReq (countLate s r) r.id) r).modThread r.g fun t => t.count r.kcls false
      (r.acc = .load → exec (.relaxedLoadFill r.id) s = .next u) ∧
      (r.acc ≠ .load → exec (.relaxedStoreAck r.id) s = .next u) ∧
      (s.calib.isSome = true → exec (.calibrationResponseDue r.id) s = .next u)) ∧
    (((∃ ch n, r.by_ = .copy ch n) ∨ ∃ key, r.by_ = .commit key) → s.calib.isSome = true →
      exec (.calibrationResponseDue r.id) s = .next (dropReq (countLate s r) r.id))

/-- R165: a request that waits for a watch gains a free one, and sees the signal as it stands. -/
def Sys2Proof.Claims.WatchGained : Prop :=
  ∀ (s : State) (r : Req), findReq s r.id = some r → r.stage = .waiting → watchNext s (homeDie r.key) r.ticket = true →
    ∃ u, exec (.watchAllocated r.id) s = .next u ∧ u.mem = s.mem ∧
      ∀ c v, r.acc = .sigwait c v → findReq u r.id = some
        (if sigHolds c (sigValue s r.key) v then
          { r with stage := .performed, data := (sigValue s r.key).setWidth 512 }
        else { r with stage := .watch })

/-- R130, R131, R133, R136, R165, R333: what a performed access delivers, to whom, and the watch that a `sigwait` gains. -/
def Obligations.AccessesAnswer : Prop := Claims.LoadedValues ∧ Claims.AccessAnswers ∧ Claims.WatchGained

/-- R79, R264, R226: a parked thread whose condition holds is eligible again from the next clock; `mwait` completes, without
the stall turns that a freeze or a preemption has discarded (R46); a trap or a drop that waited for the thread's vector
instructions is taken. In calibration mode the port goes on with what it reads for the thread until it is answered, and a
thread that waits for such an answer is eligible when it has come, or the port is asked (R333; entry 111). -/
def Sys2Proof.Claims.ParkedThreadsResume : Prop :=
  ∀ (s : State) (g : Nat), g < Config.threads →
    ((s.thread g).port.any (fun p => !p.answered s) = true → exec (.parkConditionMet g) s = .next (portGo s g)) ∧
    (tileClosed s (tileOf g) = false → (s.thread g).port.any (fun p => !p.answered s) = false →
    (∀ a n, (s.thread g).status = .parked (.port a n) → exec (.parkConditionMet g) s = .next
      (if portReady s g a n then becomeReady s g else portAsk s g a n)) ∧
    (∀ l, (s.thread g).status = .parked (.needs l) → l.all (needHolds s g) = true →
      ∃ u, exec (.parkConditionMet g) s = .next u ∧ (u.thread g).status = .ready ∧
        (u.thread g).ready = max (s.thread g).ready ((s.core (coreOf g)).clock + 1) ∧
        (u.thread g).pc = (s.thread g).pc ∧ u.mem = s.mem) ∧
    (∀ n, (s.thread g).status = .parked (.mwait n) → mwaitDone s g n = true →
      let u := retire s g (s.thread g).ready (if (s.thread g).cut then 0 else stallAt (s.thread g)) false none
      exec (.parkConditionMet g) s = .next
        (u.modThread g fun t => { t.notBefore ((u.core (coreOf g)).clock + 1) with cut := false })) ∧
    (∀ t, (s.thread g).status = .parked (.trap t) → vectorDone s g = true →
      exec (.parkConditionMet g) s = .next (t.take s g)) ∧
    (∀ a k, (s.thread g).status = .parked (.drop a k) → vectorDone s g = true →
      exec (.parkConditionMet g) s = .next (dropThread s g a k)))

/-- R81, R96: the line that a thread asked for arrives in its core's line store as its bank held it when the request was
performed (`Served` of O-BankServesAccess admits the request), and leaves the traffic; a line read before the core emptied its
line store does not enter it. The thread that waits for the line to enter it does, unless the fetch is one from before its
own `isync`: it waits on for the line that it has asked for since. -/
def Sys2Proof.Claims.LineArrives : Prop :=
  ∀ (s : State) (g : Nat) (r : Req), g < Config.threads → fetchAnswer s g = some r →
    ∃ u, exec (.lineFetchArrival g) s = .next u ∧
      (r.stale = false → lineStored (u.core (coreOf g)) r.owner r.addr = some r.data) ∧
      (r.stale = true → (u.core (coreOf g)).lines = (s.core (coreOf g)).lines) ∧
      ((s.thread g).status ≠ .parked (.fetch r.addr) → u.traffic = s.traffic.filter (·.id != r.id)) ∧
      ((s.thread g).status = .parked (.fetch r.addr) → r.void = true →
        u.threads = s.threads ∧ u.traffic = s.traffic.filter (·.id != r.id)) ∧
      ((s.thread g).status = .parked (.fetch r.addr) → (s.thread g).serial = r.serial → r.void = false →
        (s.thread g).line = none → lineAddr (s.thread g).pc = r.addr → entryLegal r.data (headIdx (s.thread g).pc) = true →
        (u.thread g).line = some r.data ∧ (u.thread g).status = .ready)

/-- R124, R128, R129, R226: a walk ends: its leaf enters the TLBs; an absent page drops the thread, whose vector instructions
have completed, and posts a record, which is written to the die's queue in kernel-reserved memory (entry 90) or held; a
malformed table is an access violation. That a walk outside calibration mode is one event, which reads all its tables at the
moment it ends, is the model's choice (entry 31); it counts an uncorrectable table entry that it reads (R352). In calibration
mode the entry of one table that has come ends the walk or has it read the next (R333). -/
def Sys2Proof.Claims.WalksEnd : Prop :=
  ∀ (s : State) (g : Nat) (a : Word) (k : AKind), g < Config.threads → (s.thread g).status = .parked (.walk a k) →
    (walkAnswer s g = none → walkReading s g a = false →
      let v := if (tlbFind (s.die (dieOf (tileOf g))).tlb2 (s.thread g).owner a).isSome then s
        else countWalk s (whoIn s g) a
      (∀ b lg e, walkVia s (dieOf (tileOf g)) (s.thread g).owner a = .leaf b lg e →
        leafAllows e a k (leafPhys e lg a) = true →
        ∃ u, exec (.pageWalkComplete g) s = .next u ∧
          tlbFind (u.core (coreOf g)).tlb (s.thread g).owner a = some (lg, e)) ∧
      (walkVia s (dieOf (tileOf g)) (s.thread g).owner a = .absent → vectorDone s g = false →
        exec (.pageWalkComplete g) s = .next (parkThread v g (.drop a k))) ∧
      (walkVia s (dieOf (tileOf g)) (s.thread g).owner a = .absent → vectorDone s g = true → memWf s.mem = true →
        ∃ u, exec (.pageWalkComplete g) s = .next u ∧ (u.thread g).status = .dropped a k ∧
          (let d := s.die (dieOf (tileOf g))
           let r : FRec := { addr := a, pc := (s.thread g).pc, ident := BitVec.ofNat 32 (s.thread g).id
                             owner := (s.thread g).owner, kind := k, requester := 0, ch := 0 }
           let at_ := kernelBase (dieOf (tileOf g)) + d.faultTail % 1024 * 32
           (d.faults.length < 1024 ∧ d.held = [] → (u.die (dieOf (tileOf g))).faults = d.faults ++ [r] ∧
             memReadList u.mem at_ 32 = r.bytes ∧ ∀ x, (x < at_ ∨ at_ + 32 ≤ x) → memByte u.mem x = memByte s.mem x) ∧
           (¬ (d.faults.length < 1024 ∧ d.held = []) →
             (u.die (dieOf (tileOf g))).held = d.held ++ [r] ∧ u.mem = s.mem))) ∧
      (walkVia s (dieOf (tileOf g)) (s.thread g).owner a = .malformed →
        exec (.pageWalkComplete g) s = .next (ownerTrap v g 6 0 a (s.thread g).pc))) ∧
    (∀ r l, walkAnswer s g = some r → r.serial = (s.thread g).serial → r.addr = a → r.by_ = .walk l →
      (∀ w, walkEntry s a l (r.key - 8 * entryIdx a l) (r.data.setWidth 64) = .done w →
        exec (.pageWalkComplete g) s = .next (walkEnd (dropReq (countLate s r) r.id) g a k w)) ∧
      (∀ t, walkEntry s a l (r.key - 8 * entryIdx a l) (r.data.setWidth 64) = .table t →
        exec (.pageWalkComplete g) s = .next (sendWalk (dropReq (countLate s r) r.id) g a (l - 1) t)))

/-- R79, R81, R124, R128, R129, R264: how the waits for a condition, a line and a page walk end. -/
def Obligations.WaitsEnd : Prop := Claims.ParkedThreadsResume ∧ Claims.LineArrives ∧ Claims.WalksEnd

/-- R129, R360: a held record is posted when the queue has room; an invalidation starts, and ends when no access
through its entries is on its way. -/
def Obligations.FaultQueueAndShootdowns : Prop :=
  ∀ (s : State) (d : Nat), d < Config.dies →
    (∀ r l, (s.die d).held = r :: l → (s.die d).faults.length < 1024 → ∃ u, exec (.faultRecordPost d) s = .next u ∧
      (u.die d).faults = (s.die d).faults ++ [r] ∧ (u.die d).held = l) ∧
    (∀ o a n, 1 ≤ o → o ≤ Config.owners → ∃ u, exec (.shootdownRegisterWrite d o a n) s = .next u ∧
      (u.die d).shoot = (s.die d).shoot ++ [{ owner := o, addr := a, size := n }]) ∧
    (∀ x l, (s.die d).shoot = x :: l → x.busy s = false → ∃ u, exec (.shootdownComplete d) s = .next u ∧
      (u.die d).shoot = l ∧ (∀ c e, e ∈ (u.core c).tlb → x.hits e = false ∧ e ∈ (s.core c).tlb) ∧
      ∀ y e, e ∈ (u.die y).tlb2 → x.hits e = false)

/-! ### Atomic and synchronisation class -/

/-- R158 to R165: atomics and signal operations are sent as ordinary accesses of their width, and the thread parks. -/
def Obligations.AtomicsAndSignals : Prop :=
  ∀ (s : State) (st : Stall) (b : Bool) (d x : RegNum) (m : MemOp 38) (o : Opnds) (a : Word) (key : Nat),
    let n := if b then 8 else 4
    let q : MemAsk := { kind := .atomic, size := n, rights := 4, only := some [0, 1] }
    let qu : MemAsk := { kind := .atomic, size := 32, rights := 4, only := some [2] }
    let qw : MemAsk := { kind := .load, size := 32, rights := 1, only := some [2] }
    (Reaches s (memArg m) q [x] [d] o a key →
      (∀ op, Parks s (.amo st op b d x m) (request s st q a key (.amo op b (o.v 1)) [⟨0, n, true, o.d 0⟩])) ∧
      Parks s (.swap st b d x m) (request s st q a key (.swap b (o.v 1)) [⟨0, n, true, o.d 0⟩]) ∧
      Parks s (.fadd st b d x m) (request s st q a key (.fadd b (o.v 1)) [⟨0, n, false, o.d 0⟩])) ∧
    (d.toNat < 32 → Reaches s (memArg m) q [x, d] [d] o a key →
      Parks s (.cas st b d x m) (request s st q a key (.cas b (o.v 2) (o.v 1)) [⟨0, n, true, o.d 0⟩])) ∧
    (∀ (m : MemOp 14) (set : Bool), Reaches s (memArg m) qu [x] [] o a key →
      Parks s (.sigupM st set x m) (request s st qu a key (.sigup set (o.v 1)) [])) ∧
    (∀ (m : MemOp 40) (set : Bool), Reaches s (memArg m) qu [x] [] o a key →
      Parks s (.sigupN st set x m) (request s st qu a key (.sigup set (o.v 1)) [])) ∧
    (∀ (m : MemOp 40) c, Reaches s (memArg m) qw [x] [d] o a key →
      Parks s (.sigwait st c d x m) { request s st qw a key (.sigwait c (o.v 1)) [⟨0, 8, false, o.d 0⟩] with
        ops := [(m.off, o.v 0), (x, o.v 1)] })

/-- R164, R152: at its perform point `sigup` adds to the value of a signal or sets it, counts the update, and leaves
the other fields and the other bytes of memory. -/
def Sys2Proof.Claims.SignalUpdatePerforms : Prop :=
  ∀ (s : State) (r : Req) (set : Bool) (v : Word), Served s r → memWf s.mem = true → r.size = 32 → r.key % 32 = 0 →
    r.acc = .sigup set v →
    ∃ u, exec (.bankAccessPerform r.id) s = .next u ∧
      memNat u.mem r.key 8 = (if set then v.toNat else (memNat s.mem r.key 8 + v.toNat) % 2 ^ 64) ∧
      memNat u.mem (r.key + 8) 20 = memNat s.mem (r.key + 8) 20 ∧
      memNat u.mem (r.key + 28) 4 = (memNat s.mem (r.key + 28) 4 + 1) % 2 ^ 32 ∧
      ∀ x, (x < r.key ∨ r.key + 32 ≤ x) → memByte u.mem x = memByte s.mem x

/-- R160 to R164: what atomics and signal updates do at their perform point. -/
def Obligations.AtomicsPerform : Prop := Claims.AtomicPerforms ∧ Claims.SignalUpdatePerforms

/-- R167 to R170: an arrival parks the thread; the last arrival of the group completes the generation; a broken barrier
traps `bar` and answers 1 to `barto`; `bar.reset` mends it. -/
def Sys2Proof.Claims.BarrierArrivals : Prop :=
  ∀ (s : State) (st : Stall) (d a : RegNum) (o : Opnds),
    let key := barKey (berthOf (tileOf s.cur)) (issuer s).launch
    let b := s.barrier key
    let arrives := fun (i : Instr) (x : Arrival) => ∃ u, exec i s = .next u ∧
      (u.thread s.cur).status = .parked .barrier ∧ u.mem = s.mem ∧
      (if b.committing = false ∧
          (members u (berthOf (tileOf s.cur)) (issuer s).launch).length = b.arrivals.length + 1 then
        (u.barrier key).arrivals = [] ∧ (u.barrier key).releasing = b.releasing ++ (b.arrivals ++ [x]) ∧
          (u.barrier key).committing = true ∧ (u.barrier key).contribs = []
      else (u.barrier key).arrivals = b.arrivals ++ [x] ∧ (u.barrier key).committing = b.committing)
    (Meets s [.counts true true true] → b.broken = false →
      arrives (.bar st) { g := s.cur, timed := false, limit := 0, since := s.work, dst := .none, tag := 0 }) ∧
    (Ready s [a] [d] o → Meets s [.counts true true true] → b.broken = false →
      arrives (.barto st d a)
        { g := s.cur, timed := true, limit := (o.v 0).toNat, since := s.work, dst := o.d 0, tag := s.nextId }) ∧
    (Ready s [a] [d] o → Meets s [.counts true true true] → b.broken = true →
      ∃ v, Completes s (.barto st d a) st v none ∧ v.mem = s.mem ∧
        ∀ r, o.d 0 = .reg r → ((v.thread s.cur).reg r).val = 1 ∧ ((v.thread s.cur).reg r).full = true) ∧
    (Meets s [.counts true true true] → b.broken = true →
      Acts s (.bar st) (takeLocal (landed s) s.cur (clockOf s) 3 0 0 false false)) ∧
    (b.broken = true → Completes s (.barReset st) st
      ((landed s).modBarrier key fun x => { x with broken := false, arrivals := [] }) none) ∧
    (b.broken = false → Completes s (.barReset st) st (landed s) none)

/-- R172, R393: `dadd` records its contribution, and the thread waits for its acceptance; the seventeenth of a thread takes
the local trap of cause 4; one that would cross modules is an access violation. -/
def Sys2Proof.Claims.Contributions : Prop :=
  ∀ (s : State) (st : Stall) (b : Bool) (x : RegNum) (m : MemOp 38) (o : Opnds) (a : Word) (key : Nat),
    let q : MemAsk := { kind := .atomic, size := if b then 8 else 4, rights := 4, only := some [0, 1] }
    let k := barKey (berthOf (tileOf s.cur)) (issuer s).launch
    Reaches s (memArg m) { q with bank := false } [x] [] o a key →
    (overLink key = false → contribCount (landed s) s.cur < 16 → ∃ u, exec (.dadd st b x m) s = .next u ∧ u.mem = s.mem ∧
      (u.barrier k).contribs = (s.barrier k).contribs ++
        [{ who := whoIn s s.cur, id := (issuer s).id, addr := a, key := key, dbl := b, val := o.v 1 }] ∧
      (u.thread s.cur).status = .parked (.access s.nextId)) ∧
    (overLink key = false → 16 ≤ contribCount (landed s) s.cur →
      Acts s (.dadd st b x m) (takeLocal (landed s) s.cur (clockOf s) 4 0 a false false)) ∧
    (overLink key = true → Acts s (.dadd st b x m) (ownerTrap (landed s) s.cur 6 0 a (issuer s).pc))

/-- R167 to R170, R172: arrivals, resets and contributions. -/
def Obligations.BarrierInstructions : Prop := Claims.BarrierArrivals ∧ Claims.Contributions

/-- R168, R170, R173, R316: a limit that runs out breaks the barrier; a generation whose commits are acknowledged is
released, its waiters on tiles that are not gated going on. -/
def Obligations.BarrierEvents : Prop :=
  ∀ (s : State) (berth lk : Nat), berth < Config.berths → s.pause = none →
    let key := barKey berth lk
    let b := s.barrier key
    (b.broken = false → b.arrivals.any (·.expired s.work) = true →
      ∃ u, exec (.bartoLimitExpiry berth lk) s = .next u ∧ (u.barrier key).broken = true ∧
        (u.barrier key).arrivals = [] ∧ (u.barrier key).contribs = []) ∧
    (b.committing = true → s.traffic.any (fun r => r.by_ == .commit key) = false →
      b.releasing.all (fun a => !a.gated s) = true → exec (.barrierRelease berth lk) s = .next
        (barrierCheck (b.releasing.foldl (releaseOne 0) (s.setBarrier key { b with committing := false, releasing := [] }))
          berth lk))

/-! ### Queue and copy class -/

/-- R189, R193 to R196: looking at queues, bindings, buffers and write pointers. -/
def Sys2Proof.Claims.QueueAndBufferReads : Prop :=
  ∀ (s : State) (st : Stall) (d a : RegNum) (o : Opnds) (n : Nat) (buf : BitVec 5) (ch : BitVec 2), Ready s [] [d] o →
    let T := s.tile (tileOf s.cur)
    (queueCount (landed s) s.cur a = .ok n →
      Gives s (.qpoll st d a) st 4 o (if n = 0 then 0 else 1) ∧ Gives s (.qcnt st d a) st 4 o (BitVec.ofNat 64 n)) ∧
    Gives s (.bufget st d buf) st 4 o (bufWord (T.buf buf.toNat)) ∧
    Gives s (.cwp st ch d) st 4 o (BitVec.ofNat 64 ((T.chan ch.toNat).ptr.toList.getD (s.cur % 32) 0)) ∧
    Gives s (.chbind st false d) st 4 o (bindWord (s.core (coreOf s.cur)).inb (s.core (coreOf s.cur)).stage) ∧
    Gives s (.chbind st true d) st 4 o (bindWord (s.core (coreOf s.cur)).outb (s.core (coreOf s.cur)).stage)

/-- R193, R194, R185: declaring a buffer, and its events; `applyBuf` notes whose descriptor operation came last, for the order
of R185. That both take effect in the turn in which they issue is the model's choice (entry 25; R193 and R194 give 4 core
clocks and more), and so is the address in the record of a fault of `bufset`, that of the buffer (entry 106). -/
def Sys2Proof.Claims.BufferStates : Prop :=
  ∀ (s : State) (st : Stall),
    let T := tileOf s.cur
    (∀ (e : BufEvent) (buf : BitVec 5) (y : BufState), bufMove ((s.tile T).buf buf.toNat) e = .ok y →
      Completes s (.bufset st e buf) st
        ((landed s).modTile T fun t => t.applyBuf s.cur buf.toNat { (s.tile T).buf buf.toNat with state := y }) none) ∧
    (∀ (e : BufEvent) (buf : BitVec 5) (k : Nat), bufMove ((s.tile T).buf buf.toNat) e = .error k →
      Acts s (.bufset st e buf) (ownerTrap (landed s) s.cur 5 k ((s.tile T).buf buf.toNat).addr (issuer s).pc)) ∧
    (∀ (buf len : RegNum) (m : MemOp 40) (o : Opnds) (a : Word),
      let sg := (issuer s).segs[m.seg.toNat]
      let n := (o.v 1).toNat
      let y := (s.tile T).buf buf.toNat
      buf.toNat < 32 → Ready s [m.off, len] [] o → Meets s (kwNeeds m.kw) →
      Extent s sg (o.v 0 + m.disp.signExtend 64) n 1 8 a →
      (y.declared = false ∨ y.state = .empty ∨ y.state = .full) →
      (n = 0 ∨ ((∀ z ∈ (s.tile T).bufs.toList.zipIdx, z.2 ≠ buf.toNat → z.1.declared = true →
          overlap a.toNat n z.1.addr.toNat z.1.len = false) ∧
        hitsLanding (landed s) (issuer s).owner a n 1 0 = false)) →
      Completes s (.bufdecl st buf len m) st ((consume (landed s) s.cur o.srcs).modTile T fun t => t.applyBuf s.cur buf.toNat
        (if n = 0 then { ch := y.ch } else { declared := true, addr := a, len := n, ch := y.ch })) none)

/-- R185, R189, R193 to R196: queues, bindings, buffers and write pointers as instructions see and set them. The model's own
choices are when a descriptor operation takes effect (entry 25) and the address that a fault of `bufset` records (entry
106). -/
def Obligations.QueuesAndBuffers : Prop := Claims.QueueAndBufferReads ∧ Claims.BufferStates

/-- R190 to R192: a copy that passes its checks, that of the landing banks among them (R285), joins its channel's queue, its
buffer is filling, its completion register waits, and the thread goes on. The status that `bufget` shows meanwhile is the
model's choice (entry 42). -/
def Obligations.CopyStarts : Prop :=
  ∀ (s : State) (st : Stall) (ch : BitVec 2) (cf : Bool) (buf a b c : RegNum) (seg : BitVec 3) (m : MemOp 40) (o : Opnds)
    (r : Option (Fin 32)) (w w' : Word),
    let clear := fun (n rows stride : Nat) => hitsLanding (landed s) (issuer s).owner
      ((s.tile (tileOf s.cur)).buf buf.toNat).addr n rows stride = false
    buf.toNat < 32 → Takes s ch.toNat buf.toNat →
    let room := ((s.tile (tileOf s.cur)).buf buf.toNat).len
    let sg := (issuer s).segs[seg.toNat]
    let owner := (issuer s).owner
    let T := tileOf s.cur
    let may := fun (ad : Word) (n : Nat) => inTile (landed s) owner T ad n && bufInTile (landed s) s.cur buf.toNat
    (let sg := (issuer s).segs[m.seg.toNat]
     let off := o.v 0 + m.disp.signExtend 64
     let n := (o.v 1).toNat
     cfReg (landed s) s.cur cf a = .ok r → Ready s [m.off, a] [] o → Meets s (kwNeeds m.kw) → Extent s sg off n 1 1 w →
     sourceCheck (landed s) T ⟨w, n, 1, 0⟩ = .ok () → clear n 1 0 → (may w n = true ∨ n ≤ room) →
     Starts s (.cpy st ch cf buf a m) st ch.toNat (copyOf s .flat buf.toNat sg off n r)) ∧
    (cfReg (landed s) s.cur cf a = .ok r → Ready s [a, b, c] [] o →
      (let len := (o.v 1).toNat % 2 ^ 32
       let rows := (o.v 1).toNat / 2 ^ 32
       let ss := (o.v 2).toNat % 2 ^ 32
       let ds := (o.v 2).toNat / 2 ^ 32
       let ext := rowExtent len rows ss
       Extent s sg (o.v 0) ext 1 1 w → sourceCheck (landed s) T ⟨w, len, rows, ss⟩ = .ok () →
       clear len rows (if ds = 0 then len else ds) →
       (may w ext = true ∨ ((ds = 0 ∨ len ≤ ds) ∧ rowExtent len rows (if ds = 0 then len else ds) ≤ room)) →
       Starts s (.cpy2 st ch cf buf a b c seg) st ch.toNat
         (copyOf s (.block len rows ss ds) buf.toNat sg (o.v 0) len r)) ∧
      (let e := (o.v 2).toNat % 2 ^ 32
       let n := (o.v 2).toNat / 2 ^ 32
       elemSizeOk e = true → Extent s (issuer s).segs[(0 : Nat)] (o.v 1) (n * 4) 4 1 w →
       sourceCheck (landed s) T ⟨w, n * 4, 1, 0⟩ = .ok () →
       (readable sg (o.v 0) = .ok () → clear (n * e) 1 0 → n * e ≤ room → Starts s (.cpyg st ch cf buf a b c seg) st ch.toNat
         (copyOf s (.gather e n w) buf.toNat sg (o.v 0) (n * e) r)) ∧
       (Extent s sg (o.v 0) (n * e) 1 1 w' → sourceCheck (landed s) T ⟨w', n * e, 1, 0⟩ = .ok () →
         Starts s (.cpys st ch cf buf a b c seg) st ch.toNat
           (copyOf s (.scatter e n w) buf.toNat sg (o.v 0) (n * e) r))))

/-- R174, R176 to R179: an entry arrives, a credit returns; `rput` sends a value to a register of another live thread
of the owner, and its delivery fills the register with the remote bit set; one that waits for a read is delivered in the clock
after it. -/
def Obligations.QueuesAndRputs : Prop :=
  ∀ (s : State),
    (∀ core dir, core < Config.cores → tileClosed s (core / 4) = false →
      (∀ (h : dir < 4) p l, takeReady s ((s.core core).flight[dir]) = some (p, l) →
        ∃ u, exec (.queueEntryArrival core dir) s = .next u ∧ (u.core core).flight[dir] = l ∧
          (u.core core).chain[dir] = (s.core core).chain[dir] ++ [p.val.getD 0]) ∧
      (∀ p l, dir = 4 → takeReady s (s.core core).inflight = some (p, l) →
        ∃ u, exec (.queueEntryArrival core dir) s = .next u ∧ (u.core core).inflight = l ∧
          (u.core core).infifo = (s.core core).infifo ++ [p.val.getD 0]) ∧
      ((s.core core).returning ≠ 0 → ∃ u, exec (.actorCreditReturn core) s = .next u ∧
        (u.core core).credits = (s.core core).credits + 1 ∧ (u.core core).returning = (s.core core).returning - 1)) ∧
    (∀ (st : Stall) (a b : RegNum) (n : BitVec 14) (o : Opnds) (g : Nat), n ≠ 0 → n.toNat < 32 → Ready s [a, b] [] o →
      ownerThread s (issuer s).owner (o.v 0).toNat = some g → live s g = true → (s.thread g).owner = (issuer s).owner →
      g ≠ s.cur →
      ∃ u, exec (.rput st a b n) s = .next u ∧ (u.thread s.cur).status = .parked (.access s.nextId) ∧
        u.rputs.getLast? = some { id := s.nextId, sender := s.cur, senderNo := (issuer s).serial, target := g
                                  targetNo := (s.thread g).serial, reg := physReg 0 (n.setWidth 6), val := o.v 1 }) ∧
    (∀ (x : Rput), s.rputs.find? (·.id == x.id) = some x → tileClosed s (tileOf x.target) = false →
      x.reaches s = true → x.sender ≠ x.target →
      ∀ r, (x.arrived = none ∧ r = rputReg s x ∧ ((s.thread x.target).reg r).full = false ∧
            ((s.thread x.target).reg r).fill = false ∧
            s.rputs.any (fun z => z.target == x.target && z.arrived == some r) = false ∨
          x.arrived = some r ∧ rputReady s x r = true ∧ rputFirst s x = true) →
      ∃ u, exec (.rputDelivery x.id) s = .next u ∧ u.rputs = s.rputs.filter (·.id != x.id) ∧
        ((u.thread x.target).reg r).val = x.val ∧ ((u.thread x.target).reg r).full = true ∧
        ((u.thread x.target).reg r).remote = true) ∧
    (∀ (x : Rput) (g : Nat) (r : Fin 32), s.rputs.filter (fun y => y.target == g && y.read) = [x] → x.arrived = some r →
      x.reaches s = true → x.sender ≠ g → ((s.thread g).reg r).full = true → ((s.thread g).reg r).remote = false →
      let u := deliverRead s g
      u.rputs = s.rputs.filter (·.id != x.id) ∧ ((u.thread g).reg r).val = x.val ∧
        ((u.thread g).reg r).full = true ∧ ((u.thread g).reg r).remote = true)

/-- R180, R183, R186, R187: a channel accepts its next copy when the one before has handed over its last unit; a unit
is performed at its bank; a copy whose units are performed ends with its buffer full. -/
def Obligations.CopyChannels : Prop :=
  ∀ (s : State) (T ch : Nat), T < Config.tiles → ch < 4 →
    let k := (s.tile T).chan ch
    (∀ x l, k.queue = x :: l → tileClosed s T = false → k.runs.all (·.handed) = true →
      ∃ u y, exec (.copyAcceptance T ch) s = .next u ∧ ((u.tile T).chan ch).queue = l ∧
        ((u.tile T).chan ch).runs = k.runs ++ [y] ∧ y.n = x.n ∧ y.buf = x.buf ∧ u.mem = s.mem) ∧
    (∀ r, firstUnit s T ch = some r → bankTurn s r = true →
      exec (.copyUnitWrite T ch) s = .next (performTurn s r)) ∧
    (∀ x l, k.runs = x :: l → x.handed = true → tileClosed s T = false → x.buf < 32 →
      s.traffic.any (fun r => r.tile == T && r.by_ == .copy ch x.n) = false →
      ∃ u, exec (.copyCompletion T ch) s = .next u ∧ ((u.tile T).chan ch).runs = l ∧
        ((u.tile T).buf x.buf).state = .full ∧ ((u.tile T).buf x.buf).status = x.status ∧
        ∀ r, x.cf = some r → x.who.live s = true →
          ((u.thread x.g).reg r).val = BitVec.ofNat 64 (x.status % 256 * 2 ^ 56 + x.next % 2 ^ 48) ∧
          ((u.thread x.g).reg r).full = true)

/-! ### Vector class -/

/-- R222, R224, R225: a vector instruction whose registers are full joins its core's queue with its destinations empty,
and the thread goes on. -/
def Sys2Proof.Claims.VectorArithmeticIssues : Prop :=
  ∀ (s : State) (st : Stall) (f : BitVec 4) (wd wa wb wc : BitVec 3) (k mk ma mb : BitVec 2) (g : RegNum) (o : Opnds)
    (r : FRnd) (fl : Bool),
    (Ready s [] [] o →
      (VecMeets s [wa, wb, wd] [k] →
        Enqueues s (.vadd st f wd wa wb k r) st o .none (some wd) none ∧
        Enqueues s (.vsub st f wd wa wb k r) st o .none (some wd) none ∧
        Enqueues s (.vmul st f wd wa wb k r) st o .none (some wd) none ∧
        Enqueues s (.vmin st f wd wa wb k fl) st o .none (some wd) none ∧
        Enqueues s (.vmax st f wd wa wb k fl) st o .none (some wd) none ∧
        Enqueues s (.vsel st f wd wa wb k) st o .none (some wd) none ∧
        Enqueues s (.vperm st f wd wa wb k) st o .none (some wd) none ∧
        (∀ lg, Enqueues s (.vdot st f lg wd wa wb k r) st o .none (some wd) none) ∧
        Enqueues s (.vand st f wd wa wb k) st o .none (some wd) none ∧
        Enqueues s (.vor st f wd wa wb k) st o .none (some wd) none ∧
        Enqueues s (.vxor st f wd wa wb k) st o .none (some wd) none ∧
        Enqueues s (.vshl st f wd wa wb k) st o .none (some wd) none ∧
        (∀ ar, Enqueues s (.vshr st ar f wd wa wb k) st o .none (some wd) none)) ∧
      (VecMeets s [wa, wb, wc, wd] [k] → Enqueues s (.vfma st f wd wa wb wc k r) st o .none (some wd) none) ∧
      (VecMeets s [wa, wd] [k] →
        (∀ op, Enqueues s (.vun st op f wd wa k r) st o .none (some wd) none) ∧
        (∀ src p rv, Enqueues s (.vcvt st f src p wd wa k rv) st o .none (some wd) none) ∧
        (∀ op, Enqueues s (.vscan st op f wd wa k r) st o .none (some wd) none) ∧
        (∀ op, Enqueues s (.vfn st op f wd wa k fl) st o .none (some wd) none)) ∧
      (mk ≠ 0 → VecMeets s [wa, wb] [k, mk] → ∀ c, Enqueues s (.vcmp st c f mk wa wb k fl) st o .none none (some mk)) ∧
      (mk ≠ 0 → VecMeets s [] [ma, mb, mk] → ∀ op, Enqueues s (.vmask st op mk ma mb) st o .none none (some mk))) ∧
    (Ready s [] [g] o →
      (VecMeets s [wa] [k] → ∀ op, Enqueues s (.vred st op f g wa k r) st o (o.d 0) none none) ∧
      (VecMeets s [wa] [] → ∀ n, Enqueues s (.vext st f g wa n) st o (o.d 0) none none)) ∧
    (Ready s [g] [] o →
      (VecMeets s [wd] [k] →
        Enqueues s (.vbcast st f wd g k) st o .none (some wd) none ∧
        Enqueues s (.vrand st f wd g k) st o .none (some wd) none) ∧
      (VecMeets s [wd] [] → ∀ n, Enqueues s (.vins st f wd g n) st o .none (some wd) none))

/-- R227, R229, R230: a vector memory instruction joins its core's queue and the thread waits for its acceptance. -/
def Sys2Proof.Claims.VectorMemoryIssues : Prop :=
  ∀ (s : State) (st : Stall) (f : BitVec 4) (w x : BitVec 3) (m : VMem) (k : BitVec 2) (o : Opnds) (r : VRnd),
    Ready s [m.g] [] o →
    (VecMeets s [w] [k] →
      EnqueuesMem s (.vld st f w m k r) o (some w) ∧ EnqueuesMem s (.vst st f w m k r) o none) ∧
    (VecMeets s [x, w] [k] → EnqueuesMem s (.vldg st f w x m k r) o (some w)) ∧
    (VecMeets s [w, x] [k] → EnqueuesMem s (.vsts st f w x m k r) o none)

/-- R222, R224, R225, R227, R229, R230: vector instructions join their core's queue. -/
def Obligations.VectorIssue : Prop := Claims.VectorArithmeticIssues ∧ Claims.VectorMemoryIssues

/-- R39, R223, R231, R232, R234: in the integer formats (codes 4 to 11) arithmetic, extremes and comparisons lane by lane,
modulo the lane's width; an inactive lane keeps its old value, its bit of a comparison is 0. -/
def Sys2Proof.Claims.IntegerOps : Prop :=
  ∀ (t : Thread) (op : VOp) (st : Stall) (f : BitVec 4) (wd wa wb wc : BitVec 3) (k mk : BitVec 2) (r : FRnd) (fl : Bool)
    (i : Nat), 4 ≤ f.toNat → f.toNat < 12 → i < 2048 / laneBits f →
    let n := laneBits f
    let a := lane n (wVal t wa) i
    let b := lane n (wVal t wb) i
    let le := fun (x y : Nat) => decide (laneInt f x ≤ laneInt f y)
    let gives := fun (ins : Instr) (x : Nat) => ∃ v, vectorResult t { op with ins := ins } = .w wd v ∧
      lane n v i = if (maskVal t k).getLsbD i then x else lane n (wVal t wd) i
    gives (.vadd st f wd wa wb k r) ((a + b) % 2 ^ n) ∧
    gives (.vsub st f wd wa wb k r) ((a + 2 ^ n - b) % 2 ^ n) ∧
    gives (.vmul st f wd wa wb k r) (a * b % 2 ^ n) ∧
    gives (.vfma st f wd wa wb wc k r) ((a * b + lane n (wVal t wc) i) % 2 ^ n) ∧
    gives (.vmin st f wd wa wb k fl) (if le a b then a else b) ∧
    gives (.vmax st f wd wa wb k fl) (if le a b then b else a) ∧
    gives (.vun st .neg f wd wa k r) ((2 ^ n - a) % 2 ^ n) ∧
    gives (.vun st .abs f wd wa k r) (if laneInt f a < 0 then (2 ^ n - a) % 2 ^ n else a) ∧
    ∀ c : VCond, ∃ v, vectorResult t { op with ins := .vcmp st c f mk wa wb k fl } = .m mk v ∧
      (∀ j, 2048 / n ≤ j → v.getLsbD j = false) ∧
      v.getLsbD i = ((maskVal t k).getLsbD i && (match c with
        | .eq => a == b | .ne => a != b | .lt => !le b a | .le => le a b | .gt => !le a b | .ge => le b a))

/-- R223, R232, R235, R237, R238, R241, R242, R244, R245: in every format the operations on the bits of a lane; an inactive
lane keeps its old value. -/
def Sys2Proof.Claims.LaneBits : Prop :=
  ∀ (t : Thread) (op : VOp) (st : Stall) (f : BitVec 4) (wd wa wb : BitVec 3) (k mk ma mb : BitVec 2) (g : RegNum)
    (r : FRnd) (i : Nat), i < 2048 / laneBits f →
    let n := laneBits f
    let a := lane n (wVal t wa) i
    let b := lane n (wVal t wb) i
    let gives := fun (ins : Instr) (x : Nat) => ∃ v, vectorResult t { op with ins := ins } = .w wd v ∧
      lane n v i = if (maskVal t k).getLsbD i then x else lane n (wVal t wd) i
    gives (.vand st f wd wa wb k) (a &&& b) ∧
    gives (.vor st f wd wa wb k) (a ||| b) ∧
    gives (.vxor st f wd wa wb k) (a ^^^ b) ∧
    gives (.vun st .not f wd wa k r) (2 ^ n - 1 - a) ∧
    gives (.vshl st f wd wa wb k) (a * 2 ^ (b % n) % 2 ^ n) ∧
    gives (.vshr st false f wd wa wb k) (a / 2 ^ (b % n)) ∧
    gives (.vshr st true f wd wa wb k) ((BitVec.ofNat n a).sshiftRight (b % n)).toNat ∧
    gives (.vperm st f wd wa wb k) (lane n (wVal t wa) (b % (2048 / n))) ∧
    gives (.vbcast st f wd g k) (op.gval.toNat % 2 ^ n) ∧
    (∃ v, vectorResult t { op with ins := .vsel st f wd wa wb k } = .w wd v ∧
      lane n v i = if (maskVal t k).getLsbD i then a else b) ∧
    (∀ j : BitVec 8, ∃ v, vectorResult t { op with ins := .vins st f wd g j } = .w wd v ∧
      lane n v i = if i = j.toNat then op.gval.toNat % 2 ^ n else lane n (wVal t wd) i) ∧
    (∀ j : BitVec 8, j.toNat < 2048 / n →
      vectorResult t { op with ins := .vext st f g wa j } = .scalar (laneScalar f (lane n (wVal t wa) j.toNat))) ∧
    vectorResult t { op with ins := .vmask st .and mk ma mb } = .m mk (maskVal t ma &&& maskVal t mb) ∧
    vectorResult t { op with ins := .vmask st .or mk ma mb } = .m mk (maskVal t ma ||| maskVal t mb) ∧
    vectorResult t { op with ins := .vmask st .xor mk ma mb } = .m mk (maskVal t ma ^^^ maskVal t mb) ∧
    vectorResult t { op with ins := .vmask st .not mk ma mb } = .m mk (~~~ maskVal t ma)

/-- R220, R236: in the integer formats the sum of the active lanes, modulo the lane's width, and their least and greatest,
over all lanes and over lanes 0 to `i`; with no lane active the identity. -/
def Sys2Proof.Claims.IntegerTrees : Prop :=
  ∀ (t : Thread) (op : VOp) (st : Stall) (f : BitVec 4) (g : RegNum) (wd wa : BitVec 3) (k : BitVec 2) (r : FRnd) (i : Nat),
    4 ≤ f.toNat → f.toNat < 12 → i < 2048 / laneBits f →
    let n := laneBits f
    let x := lane n (wVal t wa)
    let active := fun (upto : Nat) => (List.range upto).filter fun j => (maskVal t k).getLsbD j
    let sum := fun (upto : Nat) => ((active upto).map x).sum % 2 ^ n
    let least := fun (greatest : Bool) (upto v : Nat) => v < 2 ^ n ∧
      (active upto = [] → laneInt f v = if f.toNat < 8 then (if greatest then -2 ^ (n - 1) else 2 ^ (n - 1) - 1)
        else if greatest then 0 else 2 ^ n - 1) ∧
      (active upto ≠ [] → (∃ j ∈ active upto, v = x j) ∧ ∀ j ∈ active upto,
        if greatest then laneInt f (x j) ≤ laneInt f v else laneInt f v ≤ laneInt f (x j))
    let scans := fun (o : VRedOp) (h : Nat → Prop) => ∃ v, vectorResult t { op with ins := .vscan st o f wd wa k r } = .w wd v ∧
      ((maskVal t k).getLsbD i = true → h (lane n v i)) ∧
      ((maskVal t k).getLsbD i = false → lane n v i = lane n (wVal t wd) i)
    vectorResult t { op with ins := .vred st .add f g wa k r } = .scalar (laneScalar f (sum (2048 / n))) ∧
    (∃ v, vectorResult t { op with ins := .vred st .min f g wa k r } = .scalar (laneScalar f v) ∧ least false (2048 / n) v) ∧
    (∃ v, vectorResult t { op with ins := .vred st .max f g wa k r } = .scalar (laneScalar f v) ∧ least true (2048 / n) v) ∧
    scans .add (fun v => v = sum (i + 1)) ∧ scans .min (least false (i + 1)) ∧ scans .max (least true (i + 1))

/-- R39, R220, R223, R231, R232, R234 to R238, R241, R242, R244, R245: the values of the lanes. -/
def Obligations.IntegerLanes : Prop := Claims.IntegerOps ∧ Claims.LaneBits ∧ Claims.IntegerTrees

/-- R224 to R227, R352: the unit accepts the instruction at the head of the queue of the core that it serves, reads its
registers (`w` counts the uncorrectable ones among them), and later writes its result, of those whose clock has come the one
that is due first; a memory instruction that passes its checks is accepted and its thread goes on; one that does not stops at
its issue pc. That its queue entry is put back, when it stops, with what its instruction has read is the model's choice (entry
46), and so is the order of results that are due in one clock, that of acceptance (entry 121). -/
def Sys2Proof.Claims.VectorTurns : Prop :=
  ∀ (s : State) (T : Nat) (o : VOp), T < Config.tiles →
    (∀ k l, tileClosed s T = false → vectorCore s T = some k → (s.core (4 * T + k)).vq = o :: l →
      let v := (s.modCore (4 * T + k) fun x => { x with vq := l }).modTile T fun x => { x with vlast := k }
      let w := dataErrors v (whoIn v o.g) (badSources (v.thread o.g) o)
      (vmemOf o.ins = none → ∃ u, exec (.vectorAcceptance T) s = .next u ∧ (u.core (4 * T + k)).vq = l ∧
        (u.tile T).vrun = (s.tile T).vrun ++ 
          [{ vecFinish o (vectorResult (w.thread o.g) o) with due := tileClock s T + vecLatency o.ins 0 }]) ∧
      (∀ q a, vmemOf o.ins = some q → vmemCheck v o q = .ok a → (s.thread o.g).status = .parked .vaccept →
        exec (.vectorAcceptance T) s = .next
          (resumeRetire (freeFields (vmemAccept w o q a) o.g [(q.mem.g, o.gval)]) o.g)) ∧
      (∀ q e, vmemOf o.ins = some q → vmemCheck v o q = .error e →
        exec (.vectorAcceptance T) s = .next (applyStop
          (putBackAll (v.modThread o.g fun t => { vmemUndo t q with status := .ready }) o.g [(q.mem.g, o.gval)])
          o.g (s.core (4 * T + k)).clock false e))) ∧
    (∀ q, vecNext s T = some o → vmemOf o.ins = some q → o.wres = none →
      ∃ u, exec (.vectorResultWrite T) s = .next u ∧ (u.tile T).vrun = (s.tile T).vrun.filter (·.n != o.n) ∧
        (u.thread o.g).w[q.wr.toNat] = { val := loadLanes s o q, full := true }) ∧
    (vecNext s T = some o → vmemOf o.ins = none →
      ∃ u, exec (.vectorResultWrite T) s = .next u ∧ (u.tile T).vrun = (s.tile T).vrun.filter (·.n != o.n) ∧
        (∀ d v, o.wres = some (d, v) → (u.thread o.g).w[d.toNat] = { val := v, full := true }) ∧
        (∀ d v, o.mres = some (d, v) → (u.thread o.g).m[d.toNat] = { val := v, full := true }) ∧
        (∀ v r, o.sres = some v → o.dst = .reg r →
          ((u.thread o.g).reg r).val = v ∧ ((u.thread o.g).reg r).full = true))

/-- R203 to R207, R219, R231, R232, R234, R240: in the floating formats (codes 0 to 3) a lane's result is the exact result of
its decoded operands, rounded once; extremes, comparisons and functions are those of R207 and R219. That the root and the
functions are the values which `Val.sqrt`, `Val.rcp`, `Val.rsqrt`, `Val.exp2` and `Val.log2` compute is the model's choice
(entry 47). -/
def Sys2Proof.Claims.FloatOps : Prop :=
  ∀ (t : Thread) (op : VOp) (st : Stall) (f : BitVec 4) (wd wa wb wc : BitVec 3) (k mk : BitVec 2) (r : FRnd) (fl : Bool)
    (i : Nat), f.toNat < 4 → i < 2048 / laneBits f →
    let n := laneBits f
    let m := Mode.ofCode r.rnd
    let dec := fun (w : BitVec 3) => (laneFloat f).decode r.flush (lane n (wVal t w) i)
    let rounded := (laneFloat f).encode m r.flush true
    let near := fun (w : BitVec 3) => (laneFloat f).decode fl (lane n (wVal t w) i)
    let nearest := (laneFloat f).encode .rne fl true
    let gives := fun (ins : Instr) (x : Nat) => ∃ v, vectorResult t { op with ins := ins } = .w wd v ∧
      lane n v i = if (maskVal t k).getLsbD i then x else lane n (wVal t wd) i
    gives (.vadd st f wd wa wb k r) (rounded (Val.add m (dec wa) (dec wb))) ∧
    gives (.vsub st f wd wa wb k r) (rounded (Val.add m (dec wa) (dec wb).neg)) ∧
    gives (.vmul st f wd wa wb k r) (rounded ((dec wa).mul (dec wb))) ∧
    gives (.vfma st f wd wa wb wc k r) (rounded (Val.add m ((dec wa).mul (dec wb)) (dec wc))) ∧
    gives (.vun st .sqrt f wd wa k r) (rounded (dec wa).sqrt) ∧
    gives (.vun st .abs f wd wa k r) (rounded (dec wa).abs) ∧
    gives (.vun st .neg f wd wa k r) (rounded (dec wa).neg) ∧
    gives (.vmin st f wd wa wb k fl) (nearest (Val.pick false (near wa) (near wb))) ∧
    gives (.vmax st f wd wa wb k fl) (nearest (Val.pick true (near wa) (near wb))) ∧
    gives (.vfn st .rcp f wd wa k fl) (nearest (near wa).rcp) ∧
    gives (.vfn st .rsqrt f wd wa k fl) (nearest (near wa).rsqrt) ∧
    gives (.vfn st .exp2 f wd wa k fl) (nearest (near wa).exp2) ∧
    gives (.vfn st .log2 f wd wa k fl) (nearest (near wa).log2) ∧
    ∀ c : VCond, ∃ v, vectorResult t { op with ins := .vcmp st c f mk wa wb k fl } = .m mk v ∧
      v.getLsbD i = ((maskVal t k).getLsbD i && (match Val.cmp false (near wa) (near wb), c with
        | some x, .eq => x == .eq | some x, .ne => x != .eq | some x, .lt => x == .lt
        | some x, .le => x != .gt | some x, .gt => x == .gt | some x, .ge => x != .lt
        | none, .ne => true | none, _ => false))

/-- R208 to R210, R233: `vcvt` converts the elements of its part, of every lane format to every other; the other lanes keep
their value. That a conversion between equal formats decodes and encodes too is the model's choice (entry 49). -/
def Sys2Proof.Claims.Conversions : Prop :=
  ∀ (t : Thread) (op : VOp) (st : Stall) (dst src : BitVec 4) (p : BitVec 3) (wd wa : BitVec 3) (k : BitVec 2) (r : VRnd)
    (i : Nat), i < lanes dst →
    let old := lane (laneBits dst) (wVal t wd) i
    let conv := fun (j : Nat) => (laneElem dst).encode (Mode.ofCode r.rnd) r.flush r.nsat
      ((laneElem src).decode r.flush (lane (laneBits src) (wVal t wa) j))
    ∃ v, vectorResult t { op with ins := .vcvt st dst src p wd wa k r } = .w wd v ∧
      lane (laneBits dst) v i = if (maskVal t k).getLsbD i = false then old
        else if lanes dst ≤ lanes src then
          (if p.toNat * lanes dst + i < lanes src then conv (p.toNat * lanes dst + i) else lane (laneBits dst) v i)
        else if p.toNat * lanes src ≤ i ∧ i < (p.toNat + 1) * lanes src then conv (i - p.toNat * lanes src) else old

/-- R220, R236, R239: in the floating formats `vred`, `vscan` and `vdot` are roots of the tree of R220 over the active lanes,
each node rounded, with the identity where no lane is active. That a leaf is decoded and encoded again, alone in its tree too,
is the model's choice (entry 48). -/
def Sys2Proof.Claims.FloatTrees : Prop :=
  ∀ (t : Thread) (op : VOp) (st : Stall) (f : BitVec 4) (o : VRedOp) (g : RegNum) (wd wa wb : BitVec 3) (k : BitVec 2)
    (r : FRnd) (i : Nat) (lg : BitVec 4), f.toNat < 4 → i < 2048 / laneBits f →
    let n := laneBits f
    let top := Nat.log2 (2048 / n)
    let m := Mode.ofCode r.rnd
    let x := laneFloat f
    let sum := fun (a b : Nat) => x.encode m r.flush true (Val.add m (x.decode r.flush a) (x.decode r.flush b))
    let pick := fun (greater : Bool) (a b : Nat) =>
      x.encode .rne false true (Val.pick greater (x.decode false a) (x.decode false b))
    let node := match o with | .add => sum | .min => pick false | .max => pick true
    let identity := match o with | .add => x.signBit true | .min => x.infBits false | .max => x.infBits true
    let fl := o == .add && r.flush
    let leaf := fun (j : Nat) => x.encode .rne fl true (x.decode fl (lane n (wVal t wa) j))
    let root := fun (upto : Nat) => (treeAt node (activeTo (maskVal t k) upto leaf) top 0).getD identity
    let product := fun (j : Nat) =>
      let v := x.encode m r.flush true
        ((x.decode r.flush (lane n (wVal t wa) j)).mul (x.decode r.flush (lane n (wVal t wb) j)))
      x.encode .rne r.flush true (x.decode r.flush v)
    vectorResult t { op with ins := .vred st o f g wa k r } = .scalar (BitVec.ofNat 64 (root (2048 / n - 1))) ∧
    (∃ v, vectorResult t { op with ins := .vscan st o f wd wa k r } = .w wd v ∧
      lane n v i = if (maskVal t k).getLsbD i then root i else lane n (wVal t wd) i) ∧
    (1 ≤ lg.toNat → lg.toNat ≤ top → ∃ v, vectorResult t { op with ins := .vdot st f lg wd wa wb k r } = .w wd v ∧
      lane n v i = if i < 2048 / n / 2 ^ lg.toNat then
          (treeAt sum (activeTo (maskVal t k) (2048 / n - 1) product) lg.toNat i).getD (x.signBit true)
        else 0)

/-- R228, R229, R230: the bits that a vector load delivers to a lane are those of its element in the block that has been read,
converted unless the bank is raw or of the lane's format; a lane that is not read keeps its value. A vector store sends a store
for each block that its active lanes touch, with the bits of their elements, where two fall on one bit those of the later. -/
def Sys2Proof.Claims.VectorMoves : Prop :=
  ∀ (s : State) (o : VOp) (q : VMemOp),
    let n := laneBits q.fmt
    let mode := Mode.ofCode q.rnd.rnd
    (vmemOf o.ins = some q → (o.reads.map (·.1)).Nodup → ∀ i, i < 2048 / n →
      (∀ bit r, (i, bit) ∈ o.reads → (vecBlocks s o).find? (·.key == bit / 512 * 64) = some r →
        lane n (loadLanes s o q) i = match moveConv q.fmt o.bank with
          | none => r.data.toNat / 2 ^ (bit % 512) % 2 ^ n
          | some (l, b) => l.encode mode q.rnd.flush q.rnd.nsat
              (b.decode q.rnd.flush (r.data.toNat / 2 ^ (bit % 512) % 2 ^ (bankElem o.bank).bits))) ∧
      ((∀ p ∈ o.reads, p.1 ≠ i) → lane n (loadLanes s o q) i = lane n (wVal (s.thread o.g) q.wr) i)) ∧
    ∀ a : VAcc, q.store = true → ∃ vals : List Nat,
      (∀ i, i < 2048 / n → vals.getD i 0 = match moveConv q.fmt a.bank with
        | none => lane n (wVal (s.thread o.g) q.wr) i
        | some (l, b) => b.encode mode q.rnd.flush q.rnd.nsat (l.decode q.rnd.flush (lane n (wVal (s.thread o.g) q.wr) i))) ∧
      (∀ block ∈ blocksOf a, ∃ r ∈ (vmemAccept s o q a).traffic, r.by_ = .vector o.n ∧ r.key = block * 64 ∧
        r.acc = .store (BitVec.ofNat 512 (blockBits a vals block).1) (BitVec.ofNat 512 (blockBits a vals block).2)) ∧
      ∀ block j, j < 512 →
        let start := fun (p : Nat × Nat) => (a.key * 8 + p.2 * a.ebits) % 512
        let covers := fun (p : Nat × Nat) =>
          (a.key * 8 + p.2 * a.ebits) / 512 = block ∧ start p ≤ j ∧ j < start p + a.ebits
        ((blockBits a vals block).2.testBit j = true ↔ ∃ p ∈ a.elems, covers p) ∧
        ∀ l p r, a.elems = l ++ p :: r → covers p → (∀ x ∈ r, ¬ covers x) →
          (blockBits a vals block).1.testBit j = (vals.getD p.1 0).testBit (j - start p)

/-- R221, R243: a lane of `vrand` is its slice of the 2,048 bits of the words of its counter; in a floating format the slice's
upper bits as a multiple of 2^−p, p the format's precision. -/
def Sys2Proof.Claims.RandomLanes : Prop :=
  ∀ (t : Thread) (op : VOp) (st : Stall) (f : BitVec 4) (wd : BitVec 3) (g : RegNum) (k : BitVec 2) (i : Nat),
    i < 2048 / laneBits f →
    let n := laneBits f
    let word := fun (j : Nat) => mix (mix (op.seed ^^^ t.ids[(0 : Nat)]) ^^^ mix (op.gval + BitVec.ofNat 64 j))
    let x := (word (n * i / 64)).toNat / 2 ^ (n * i % 64) % 2 ^ n
    let p := (laneFloat f).mbits + 1
    ∃ v, vectorResult t { op with ins := .vrand st f wd g k } = .w wd v ∧
      lane n v i = if (maskVal t k).getLsbD i = false then lane n (wVal t wd) i
        else if fmtFloat f then (laneFloat f).encode .rne false true (.fin false (x / 2 ^ (n - p)) (-p) false) else x

/-- R203 to R210, R219 to R221, R224 to R234, R236, R239, R240, R243, R352: the vector unit's turns, what vector loads and
stores move, and the values of the floating operations, conversions and random streams. The model's own choices: the roots and
the functions of R219 as `Val` computes them (entry 47), the leaf of a tree decoded and encoded again (entry 48), `vcvt` between
equal formats (entry 49), what is put back at a stop of an acceptance (entry 46). -/
def Obligations.VectorUnit : Prop :=
  Claims.VectorTurns ∧ Claims.FloatOps ∧ Claims.Conversions ∧ Claims.FloatTrees ∧ Claims.VectorMoves ∧ Claims.RandomLanes

/-! ### Matrix class -/

/-- R250, R253 to R262: a command under a lease issues: it is numbered, reserves one of the lease, and its thread waits
for its acceptance. -/
def Sys2Proof.Claims.MatrixCommandsIssue : Prop :=
  ∀ (s : State) (st : Stall) (l : Lease) (a : RegNum) (o : Opnds) (x : BitVec 3) (b : Bool) (m : MemOp 14)
    (n : MemOp 40), Leased s l →
    (Ready s [m.off] [] o → Meets s (kwNeeds m.kw) →
      Commands s (.mldbM st m) l (o.v 0) 0 ∧ Commands s (.mmaM st x b m) l (o.v 0) 0 ∧
      Commands s (.mdrainM st b m) l (o.v 0) 0) ∧
    (Ready s [n.off] [] o → Meets s (kwNeeds n.kw) →
      Commands s (.mldbN st n) l (o.v 0) 0 ∧ Commands s (.mmaN st x b n) l (o.v 0) 0 ∧
      Commands s (.mdrainN st b n) l (o.v 0) 0) ∧
    (Ready s [n.off, a] [] o → Meets s (kwNeeds n.kw) → Commands s (.mmas st x b a n) l (o.v 0) (o.v 1)) ∧
    (Ready s [a] [] o → Commands s (.mscale st a) l 0 (o.v 0)) ∧
    Commands s (.mzero st) l 0 0

/-- R248, R250: without a lease of its core a command takes the local trap 6 with subcause 1, with none left 2. -/
def Sys2Proof.Claims.MatrixWithoutLease : Prop :=
  ∀ (s : State) (st : Stall),
    ((∀ l, (s.tile (tileOf s.cur)).mx.lease = some l → l.core ≠ coreOf s.cur) →
      Acts s (.mzero st) (takeLocal (landed s) s.cur (clockOf s) 6 1 0 false false)) ∧
    (∀ l, (s.tile (tileOf s.cur)).mx.lease = some l → l.core = coreOf s.cur → l.left = 0 →
      Acts s (.mzero st) (takeLocal (landed s) s.cur (clockOf s) 6 2 0 false false))

/-- R248, R250, R253 to R262: matrix commands issue under a lease, and trap without one. -/
def Obligations.MatrixIssue : Prop := Claims.MatrixCommandsIssue ∧ Claims.MatrixWithoutLease

/-- R256, R257, R263, R264: requests for leases, their release, the matrix status, the wait for commands. -/
def Obligations.LeaseInstructions : Prop :=
  ∀ (s : State) (st : Stall) (n : BitVec 14) (d : RegNum) (o : Opnds),
    let T := tileOf s.cur
    let m := (s.tile T).mx
    (m.lease.any (fun l => l.core == coreOf s.cur && l.holder == s.cur) = false → Meets s [.leaseFree] →
      ∃ u, exec (.mlease st n) s = .next u ∧ (u.thread s.cur).status = .parked .lease ∧
        (u.tile T).mx.requests = m.requests ++ [{ core := coreOf s.cur, who := whoIn s s.cur, n := n.toNat }]) ∧
    Completes s (.mrel st) st ((landed s).modTile T fun x =>
      { x with mx := if x.mx.lease.any (·.core == coreOf s.cur) then { x.mx with lease := none } else x.mx }) none ∧
    (Ready s [] [d] o → Gives s (.mstat st d) st 4 o (mstatWord m s.cur)) ∧
    (mwaitDone s s.cur s.nextId = true → Completes s (.mwait st) st (landed s) none) ∧
    (mwaitDone s s.cur s.nextId = false → ∃ u, exec (.mwait st) s = .next u ∧
      (u.thread s.cur).status = .parked (.mwait s.nextId))

/-- R246, R248, R249, R307, R308: the request that the rotation serves next is granted, that of an unpinned launch when its
tick has room for it: its thread holds the lease of as many commands as it asked for and goes on. The grant takes its place
among the commands, where ms becomes 1.0. A thread that waits no longer but has not ended holds it all the same; one that has
ended leaves no lease. -/
def Sys2Proof.Claims.LeaseGrants : Prop :=
  ∀ (s : State) (T : Nat) (r : LeaseReq), T < Config.tiles → tileClosed s T = false →
    let m := (s.tile T).mx
    let d := s.die (dieOf T)
    let mark : MCmd :=
      { n := s.nextId, who := r.who, core := r.core, lease := s.nextId, ins := .mrel 0, grant := true }
    m.lease = none → leaseNext m (fun x => launchPinned s x.who.launch || !leaseGated s T) = some r →
    (launchPinned s r.who.launch = true ∨ d.waiting = [] ∧ pinnedDue s = false ∧
      (d.inTick (sluiceNow s)).fits (s.param 0) (s.param 3) = true) →
    ∃ v, exec (.leaseGrant T) s = .next (if r.waits s then resumeRetire v r.who.g else v) ∧
      v.threads = s.threads ∧ v.mem = s.mem ∧
      (let x := (v.tile T).mx
       x.requests = m.requests.erase r ∧ x.last = r.core % 4 ∧ x.c = m.c ∧ x.b = m.b ∧
       x.lease = (if r.who.live s then some { id := s.nextId, core := r.core, holder := r.who.g, left := r.n } else none) ∧
       (m.issued = [] → x.msA = 0x3F800000 ∧ (m.queue = [] → x.ms = 0x3F800000)) ∧
       (∀ c l, m.issued = c :: l → c.grant = false → x.issued = m.issued ++ [mark]))

/-- R248, R250 to R255: the first issued command that passes its checks leaves the issued ones and stands last in the queue
with its acceptance number; its reads are on their way, and its thread goes on. One that a check stops returns its
reservation, and its thread, with its operands as they were, stops at it. The scales of a step are read at its acceptance,
once their bank can serve the read (R121, R153). -/
def Sys2Proof.Claims.MatrixAccepts : Prop :=
  ∀ (s : State) (T : Nat) (c : MCmd) (l : List MCmd), T < Config.tiles → tileClosed s T = false →
    let m := (s.tile T).mx
    let g := c.who.g
    let s₁ := serveBanks s (c.scaleBank s).toList
    m.issued = c :: l → c.grant = false → tileOf g = T → m.queued < 16 → scalesWait s T c = false →
    (∀ x, matrixAccept s₁ c = .ok x →
      let k := { x.cmd with seq := s.nextId }
      ∃ v, exec (.matrixCommandAcceptance T) s = .next (if c.waits s then resumeRetire v g else v) ∧ v.mem = s.mem ∧
        v.nextId = s.nextId + 1 + x.reads.2 ∧
        (v.tile T).mx = settle { x.mx with issued := l, queue := m.queue ++ [k] } ∧
        (l.head?.any (·.grant) = false → m.queue.head?.any (·.grant) = false →
          (v.tile T).mx.issued = l ∧ (v.tile T).mx.queue = m.queue ++ [k]) ∧
        (commandReqs v c).map (·.key) = (commandReqs s c).map (·.key) ++
          (List.range x.reads.2).map fun n => tileKey T (x.reads.1 + 64 * n)) ∧
    (∀ e, matrixAccept s₁ c = .error e →
      let v := modMx s₁ T fun m => settle { returnOne m c with issued := l }
      exec (.matrixCommandAcceptance T) s = .next (if c.waits s then
        applyStop (putBackAll (v.modThread g fun t => { t with status := .ready }) g (commandSources c)) g
          (s.core (coreOf g)).clock false e
      else freeFields v g (commandSources c)))

/-- R246, R258 to R262: what an acceptance sets of the tags in acceptance order, and what it reads: `mzero` clears the
accumulator's type, a step sets it and reads A, `mscale` sets the scale, `mldb` the tag of B, which it reads. -/
def Sys2Proof.Claims.MatrixAcceptEffects : Prop :=
  ∀ (s : State) (c : MCmd) (x : MAccept), matrixAccept s c = .ok x →
    let m := (s.tile (tileOf c.who.g)).mx
    let loads := fun (g : Seg) (off : Word) =>
      let w := (g.base + off).toNat % 2 ^ 21
      x.mx = { m with btagA := bankFmt s (tileOf c.who.g) (w / 65536) } ∧ x.reads = (w, 64) ∧ x.cmd.off = w
    (∀ st, c.ins = .mzero st → x.mx = { m with accA := 0 } ∧ x.reads.2 = 0) ∧
    (∀ st a, c.ins = .mscale st a → x.mx = { m with msA := c.gval.setWidth 32 } ∧ x.reads.2 = 0) ∧
    (∀ st o, c.ins = .mldbM st o →
      loads (s.thread c.who.g).segs[o.seg.toNat] (c.oval + o.disp.signExtend 64)) ∧
    (∀ st o, c.ins = .mldbN st o →
      loads (s.thread c.who.g).segs[o.seg.toNat] (c.oval + o.disp.signExtend 64)) ∧
    (∀ q, stepOf c.ins = some q → x.mx = { m with accA := q.acc } ∧ x.cmd.acc = q.acc ∧
      (m.accA = 0 ∨ m.accA = q.acc) ∧
      64 * x.reads.2 = 16 * q.depth * (storedElem x.cmd.fmt (stepElem q.x)).bits / 8)

/-- R251, R258 to R262: the first command of the queue executes once its reads are performed. `mzero` clears C, `mscale`
sets ms, `mldb` sets B and its tag; a step adds to each element of C the products of its row of A and its column of B; a
drain leaves C and sends each of its 256 elements, scaled, with its bias and in the bank's format, to the operand. -/
def Sys2Proof.Claims.MatrixExecutes : Prop :=
  ∀ (s : State) (T : Nat) (c : MCmd) (l : List MCmd), T < Config.tiles → tileClosed s T = false → c.core / 4 = T →
    let m := (s.tile T).mx
    let reads := commandReqs s c
    m.queue = c :: l → reads.any (·.stage != .performed) = false →
    let leaves := fun (f : Matrix → Matrix) (u : State) => exec (.matrixCommandExecution T) s = .next u ∧
      u.mem = s.mem ∧ u.threads = s.threads ∧ (u.tile T).mx = settle { f m with queue := l } ∧
      u.traffic.filter (fun r => r.by_ != .matrix c.n) = s.traffic.filter fun r => r.by_ != .matrix c.n
    let drains := fun (bias : Bool) =>
      let f := storedElem c.fmt (accElem c.acc)
      let e := f.bits
      let n := 256 * e / 8
      let b := fun (k : Nat) => if bias then
          some (f.decode false (natOfBytes (unitsRead reads T (c.off + n) 2) / 2 ^ (e * (k % 16)) % 2 ^ e))
        else none
      let bs := bytesOfNat n ((List.range 256).foldr (fun k acc => drainCell m c f (b k) k + 2 ^ e * acc) 0)
      ∃ u, leaves id u ∧ ∀ k, k < n / 64 → ∃ r ∈ u.traffic, r.by_ = .matrix c.n ∧ r.tile = T ∧ r.size = 64 ∧
        r.key = tileKey T (c.off + 64 * k) ∧
        r.acc = storeAcc 64 (BitVec.ofNat 512 (natOfBytes ((bs.drop (64 * k)).take 64)))
    let loads := ∃ u, leaves (fun m => { m with b := unitsRead reads T c.off 64, btag := c.fmt }) u
    (∀ st, c.ins = .mzero st → ∃ u, leaves (fun m => { m with c := [], acctype := 0 }) u) ∧
    (∀ st a, c.ins = .mscale st a → ∃ u, leaves (fun m => { m with ms := c.gval.setWidth 32 }) u) ∧
    (∀ st o, c.ins = .mldbM st o → loads) ∧ (∀ st o, c.ins = .mldbN st o → loads) ∧
    (∀ q, stepOf c.ins = some q → ∃ u cs, leaves (fun m => { m with acctype := q.acc, c := cs }) u ∧
      ∀ i n, i < 16 → n < 16 → (u.tile T).mx.cell (16 * i + n) = stepCell q.acc
        ((List.range q.depth).map (stepA c q (unitsRead reads T c.off reads.length) i))
        ((List.range q.depth).map fun k => stepB m c q k n) (m.cell (16 * i + n))) ∧
    (∀ st b o, c.ins = .mdrainM st b o → drains b) ∧ (∀ st b o, c.ins = .mdrainN st b o → drains b)

/-- R246 to R262: leases are granted, commands accepted and executed. -/
def Obligations.MatrixArray : Prop :=
  Claims.LeaseGrants ∧ Claims.MatrixAccepts ∧ Claims.MatrixAcceptEffects ∧ Claims.MatrixExecutes

/-! ### Task class -/

/-- R265, R274 to R279, R281, R282: forks, returns (which wait as `halt` does), joins, waits, posts and dependence
counters. The model's own choices: `tret` takes the bottommost entry of its slot by the slot's number alone, and counts a
marker down in a cell of its own launch (entry 108); what a push near the end of the spill area moves, and what is written
there (entries 97 and 54); what `tret` and `tjoin` wait for in calibration mode, their operations performed at the port's
answer (entry 111). -/
def Obligations.TaskInstructions : Prop :=
  ∀ (s : State) (st : Stall) (a b d : RegNum) (tg : Target) (o : Opnds),
    let T := tileOf s.cur
    let c := s.core (coreOf s.cur)
    let t := issuer s
    let l := (landed s).launch t.launch
    let free := (landed s).modThread s.cur fun t => { t with jcell := none }
    let e : DEntry :=
      { marker := false, slot := slotOf s.cur, jcell := t.jcell, launch := t.launch
        task := { pc := succOf t false, frame := o.v 2, a0 := o.v 0, a1 := o.v 1 } }
    (Ready s [a, b, 30] [] o → (∀ x, c.pushEntry l.e e = some x →
        ∃ v, Completes s (.spawn st a b tg) st v (some (targetPc t.pc tg)) ∧
          (v.core (coreOf s.cur)).entries = e :: c.entries ∧ (v.thread s.cur).jcell = none) ∧
      (c.pushEntry l.e e = none →
        Acts s (.spawn st a b tg) (takeLocal (landed s) s.cur (clockOf s) 5 0 0 false false)) ∧
      (Meets s [.dispenser] → ∃ v, Completes s (.tpost st a b tg) st v none ∧ (v.tile T).disp = (s.tile T).disp ++
        [{ launch := t.launch, core := coreOf s.cur
           task := { pc := targetPc t.pc tg, frame := o.v 2, a0 := o.v 0, a1 := o.v 1 } }])) ∧
    (Meets s [.vdone, .counts true true true, .noFill] →
      let r := refillDeque (landed s) (coreOf s.cur)
      (bottomOf (r.core (coreOf s.cur)) (slotOf s.cur) = none →
        Acts s (.tret st) (becomeWorker free s.cur (clockOf s) st true)) ∧
      (∀ i z, bottomOf (r.core (coreOf s.cur)) (slotOf s.cur) = some (i, z) →
        let y := takenEntry r (coreOf s.cur) i z
        let reads := tretReads (landed s) s.cur i y
        let u := takenCount (portsDone r s.cur reads) (coreOf s.cur) i
        let v := becomeWorker ((popEntry u (coreOf s.cur) i).modThread s.cur fun t => { t with jcell := none })
          s.cur (clockOf s) st true
        (portsReady (landed s) s.cur reads = true →
          (y.marker = false → Acts s (.tret st) (takeTask v s.cur y.task y.jcell)) ∧
          (∀ k, y.marker = true → y.jcell = some k → Acts s (.tret st) (joinDown v s.cur k)) ∧
          (y.marker = true → y.jcell = none → Acts s (.tret st) v)) ∧
        (portsReady (landed s) s.cur reads = false → Asks s (.tret st) (portPlan (landed s) s.cur reads)))) ∧
    (Meets s [.counts true true true, .noFill] →
      (t.jcell = none → Completes s (.tjoin st) st (landed s) none) ∧
      (∀ k, t.jcell = some k →
        let reads := cellReads (landed s) s.cur k
        let v := portsDone (landed s) s.cur reads
        (portsReady (landed s) s.cur reads = false → Asks s (.tjoin st) (portPlan (landed s) s.cur reads)) ∧
        (portsReady (landed s) s.cur reads = true → cellRead (landed s) l k 0 8 = 0 → Completes s (.tjoin st) st
          ((cellWrite v s.cur k 8 1 0).modThread s.cur fun t => { t with jcell := none }) none) ∧
        (portsReady (landed s) s.cur reads = true → cellRead (landed s) l k 0 8 ≠ 0 → ∃ u, exec (.tjoin st) s = .next u ∧
          (u.thread s.cur).status = .parked (.worker true) ∧ (u.thread s.cur).jcell = none)) ∧
      (∃ u, exec (.waitw st) s = .next u ∧ (u.thread s.cur).status = .parked (.worker false) ∧ u.mem = s.mem) ∧
      (∃ u, exec (.waitwS st) s = .next u ∧ (u.thread s.cur).status = .parked (.worker true) ∧ u.mem = s.mem)) ∧
    (Ready s [] [d] o → Gives s (.tcount st d) st 4 o (tcountWord s s.cur)) ∧
    (∀ (ad : Word) (key : Nat),
      let q : MemAsk := { kind := .atomic, size := 64, rights := 4 }
      (∀ m : MemOp 14,
        (ReachesCell s (memArg m) [a] o ad key →
          Parks s (.depsetM st a m) (request s st q ad key (.depset (o.v 1)) [])) ∧
        (ReachesCell s (memArg m) [] o ad key → Parks s (.depdecM st m) (request s st q ad key .depdec []))) ∧
      (∀ m : MemOp 40,
        (ReachesCell s (memArg m) [a] o ad key →
          Parks s (.depsetN st a m) (request s st q ad key (.depset (o.v 1)) [])) ∧
        (ReachesCell s (memArg m) [] o ad key → Parks s (.depdecN st m) (request s st q ad key .depdec []))))

/-- R271, R272, R279, R265: a thief that no dispenser offers a record tries its next victim and takes its topmost record,
leaving a marker; a dispenser places a record with a worker, which starts with the record's registers. What is read back from
a spill may be uncorrectable (R352); in calibration mode the port is asked for it first (R333; entry 111). -/
def Obligations.TaskEvents : Prop :=
  ∀ (s : State) (g victim T : Nat), g < Config.threads → victim < Config.cores → T < Config.tiles →
    tileClosed s (tileOf g) = false →
    let t := s.thread g
    let pass := if t.pass = [] then stealPass s g else t.pass
    let reads := stealReads s g victim
    let v := (portsDone s g reads).modThread g fun t =>
      { t with pass := pass.drop 1, tried := t.tried.set (victimClass (coreOf g) victim) (some (logicalCore s victim)) }
    (t.status = .parked (.worker true) → t.away = false → t.stopping = false → tileClosed s (victim / 4) = false →
      offered s g = false → pass.head? = some victim →
      (portsReady s g reads = false → exec (.stealRequest g victim) s = .next (portsAsk s g reads)) ∧
      (topmostOf (s.core victim) t.launch = none → exec (.stealRequest g victim) s = .next v) ∧
      (∀ i e u, portsReady s g reads = true → topmostOf (s.core victim) t.launch = some (i, e) →
        stealTake v g victim = some u → exec (.stealRequest g victim) s = .next u ∧ ∃ c, (u.core victim).entries[i]? =
          some { takenEntry v victim i e with marker := true, jcell := some c, task := ⟨0, 0, 0, 0⟩ })) ∧
    (∀ i r k, nextPlaced s T = some (i, r, k, g) → tileClosed s T = false → r.resume = none →
      let x := s.tile T
      let w := (readBack s T (backIdx i)).tile T
      x.back.any (fun p => !p.answered s) = false →
      ((backPort s T i).any (fun p => x.back.all (·.addr != p.addr)) = true →
        exec (.dispenserPlacement T) s = .next (s.setTile T { x with back := backPort s T i })) ∧
      ((backPort s T i).any (fun p => x.back.all (·.addr != p.addr)) = false → ∃ u y,
        exec (.dispenserPlacement T) s = .next u ∧ w.disp[i]? = some y ∧ (u.tile T).disp = w.disp.eraseIdx i ∧
        (u.thread g).pc = y.task.pc ∧ ((u.thread g).reg 30).val = y.task.frame ∧
        ((u.thread g).reg 1).val = y.task.a0 ∧ ((u.thread g).reg 2).val = y.task.a1 ∧
        (x.disp.length ≤ 64 → w.disp = x.disp ∧ y = r)))

/-! ### Floe class -/

/-- R286, R298, R299, R301, R302: the instructions on a floe that the thread holds. Writes to its slot are handed to the
banks (R153); what reads payload, parks or drops waits for them. -/
def Sys2Proof.Claims.FloeOperations : Prop :=
  ∀ (s : State) (st : Stall) (a b d : RegNum) (o : Opnds) (j : Nat),
    let T := tileOf s.cur
    let w := whoIn s s.cur
    let u := consume (landed s) s.cur o.srcs
    let count := slotNat s T j 1 1
    let index := slotNat s T j 2 1
    (Ready s [a] [] o → Handle s (o.v 0) j →
      let next := slotWrite u w T j 2 (bytesOfNat 1 (index + 1))
      Completes s (.flsend st a) st (sendSlot u s.cur j) none ∧
      (Meets s [.slot j] → Completes s (.fldrop st a) st (setSlot u T j .free) none ∧
        Completes s (.flpark st a) st (parkSlot u T j 6) none) ∧
      (index + 1 = count → Completes s (.flnext st a) st (setSlot next T j .free) none) ∧
      (index + 1 ≠ count → Completes s (.flnext st a) st (sendSlot next s.cur j) none) ∧
      (∀ k : BitVec 3, k.toNat < count → k.toNat ≠ index → Completes s (.fldel st a k) st (writeItinerary u w T j
        (count - 1) (if k.toNat < index then index - 1 else index)
        ((slotEntries s T j).eraseIdx k.toNat ++ [List.replicate 16 0])) none)) ∧
    (Ready s [a, b] [] o → Handle s (o.v 1) j → ∀ (z : Width) (off : BitVec 12),
      payloadOk s T j off.toNat (widthBytes z) = true → Completes s (.flput st z a b off) st
        (slotWrite u w T j (192 + off.toNat) (bytesOfNat (widthBytes z) (o.v 0).toNat)) none) ∧
    (Ready s [a] [d] o → Handle s (o.v 0) j → Meets s [.slot j] →
      let gives := fun (i : Instr) (k n : Nat) (signed : Bool) =>
        let x := portRead s (slotKey T j k) n
        let v := BitVec.ofNat (8 * n) (natOfBytes x.1)
        let p := servePort (landed s) s.cur [slotBank T j]
        Completes s i st (fillNow (consume (countBad p w x.2) s.cur o.srcs) s.cur (clockOf s) (o.d 0)
          (if signed then v.signExtend 64 else v.setWidth 64)) none
      (∀ (z : Width) (off : BitVec 12), payloadOk s T j off.toNat (widthBytes z) = true →
        gives (.flget st z d a off) (192 + off.toNat) (widthBytes z) true) ∧
      gives (.flgetArg st d a) (72 + 16 * index) 8 false ∧
      (∀ (f : BitVec 6) k n, headerField f.toNat = some (k, n) → gives (.flgetHdr st d a f) k n false)) ∧
    (Ready s [a, b] [] o → Handle s (o.v 0) j → ∀ (k : BitVec 3) ad e z,
      imageLoad (landed s) s.cur (o.v 1) 16 16 (some j) = .ok (ad, e, z) →
      let v := consume (portDone z s.cur ad) s.cur o.srcs
      (portReady (landed s) s.cur ad 1 = false →
        Asks s (.flrw st a b k) (some (ad, 1)) ∧ Asks s (.flins st a b k) (some (ad, 1))) ∧
      (portReady (landed s) s.cur ad 1 = true → imgNat e 3 5 = 0 →
        (k.toNat < count → Completes s (.flrw st a b k) st
          (writeItinerary v w T j count index ((slotEntries s T j).set k.toNat e)) none) ∧
        (k.toNat ≤ count → count < 8 → Completes s (.flins st a b k) st
          (writeItinerary v w T j (count + 1) (if k.toNat ≤ index then index + 1 else index)
            (((slotEntries s T j).take k.toNat ++ e :: (slotEntries s T j).drop k.toNat).take 8)) none)))

/-- R297, R300, R303: making a floe, in the lowest free slot (the model's choice, entry 114), waiting for one, and resuming a
parked one. What reads memory asks the port first in calibration mode (R333; entry 111). -/
def Sys2Proof.Claims.FloeStarts : Prop :=
  ∀ (s : State) (st : Stall) (a d : RegNum) (o : Opnds), floesOn (landed s) (berthOf (tileOf s.cur)) = true →
    let T := tileOf s.cur
    (Ready s [a] [d] o → ∀ h x j, imageLoad (landed s) s.cur (o.v 0) 192 64 none = .ok h →
      imageLoad (landed s) s.cur (o.v 0) (192 + imgLength h.2.1) 64 none = .ok x → Meets s [.outSlot] →
      [12, 13, 14, 15].find? (fun k => slotState s T k == .free) = some j →
      let ready := portReady (landed s) s.cur x.1 2
      (ready = false → Asks s (.flnew st d a) (some (x.1, 2))) ∧
      (ready = true → takenMalformed x.2.1 = false → ∃ v, Completes s (.flnew st d a) st v none ∧ slotState v T j = .held s.cur ∧
        (v.tile T).seq = (s.tile T).seq + 1 ∧
        ∀ r, o.d 0 = .reg r → ((v.thread s.cur).reg r).val = BitVec.ofNat 64 j ∧ ((v.thread s.cur).reg r).full = true) ∧
      (ready = true → takenMalformed x.2.1 = true → ∃ v, Completes s (.flnew st d a) st v none ∧ slotState v T j = .free ∧
        ∀ r, o.d 0 = .reg r → ((v.thread s.cur).reg r).val = BitVec.allOnes 64 ∧
          ((v.thread s.cur).reg r).full = true)) ∧
    (Ready s [] [d] o → ∃ u, exec (.flrecv st d) s = .next u ∧ (u.tile T).waiters = (s.tile T).waiters ++ [s.cur] ∧
      (u.thread s.cur).status = .parked (.flrecv (o.d 0) s.nextId)) ∧
    (Ready s [a] [] o → (o.v 0).toNat < 2 ^ 32 →
      let p := (resumeAddr (landed s) s.cur, resumeReads (landed s) s.cur (o.v 0).toNat)
      (portReady (landed s) s.cur p.1 p.2 = false → Asks s (.flresume st a) (some p)) ∧
      (portReady (landed s) s.cur p.1 p.2 = true → Completes s (.flresume st a) st
        (resumeEntry (consume (landed s) s.cur o.srcs) s.cur (o.v 0).toNat) none))

/-- R286, R297 to R303: the instructions of the floe class. -/
def Obligations.FloeInstructions : Prop := Claims.FloeOperations ∧ Claims.FloeStarts

/-- R287 to R292, R390: departures, behind the writes to the slot and in the order of sending (R288), arrivals at the station
tile that the sending found, where a floe of another owner is dropped and counted, refills, claims of floes whose landing is
performed (R304), and memory stops. What reads memory asks the port first in calibration mode, and waits for its answer
(R333; entry 111). -/
def Obligations.FloeEvents : Prop :=
  ∀ (s : State) (T j : Nat), T < Config.tiles → j < 16 → tileClosed s T = false →
    let w := berthOwner s (berthOf T)
    (∀ n, slotState s T j = .outbound n → slotSettled s T j = true → bankTaken s (slotBank T j) = false →
      slotBefore s T (slotStation s T j) n = false →
      let img := (portRead s (slotKey T j 0) 4288).1
      let dst := imgStation img (imgIndex img)
      (dst = 0xFFFF ∨ dst < ownerTiles s w) → ∃ u, exec (.floeDeparture T j) s = .next u ∧ slotState u T j = .free ∧
        u.floes = s.floes ++
          [{ id := n, owner := w, src := T, dest := dst, img := img, tile := (ownerTile s w dst).getD 0 }]) ∧
    (∀ f : Floe, s.floes.find? (·.id == f.id) = some f → f.dest ≠ 0xFFFF → sentBefore s f = false →
      f.tile = T → (f.owner = w → imgNat f.img 3 1 = w → imgMalformed f.img = false →
        floesOn s (berthOf T) = true → inSlot s T = some j → (s.tile T).appended = (s.tile T).refilled →
        ∃ u, exec (.floeArrival f.id) s = .next u ∧ slotState u T j = .landed ∧
          (u.tile T).landing = (s.tile T).landing ++ [j] ∧ u.floes = s.floes.filter (·.id != f.id)) ∧
      (f.owner ≠ w ∨ imgNat f.img 3 1 ≠ w → ∃ u, exec (.floeArrival f.id) s = .next u ∧
        u.floes = s.floes.filter (·.id != f.id) ∧ u.tiles = s.tiles ∧
        (u.die (dieOf T)).dropCount = (s.die (dieOf T)).dropCount + 1 ∧
        (u.owner f.owner).misuse = bump (s.owner f.owner).misuse)) ∧
    (inSlot s T = some j → (s.tile T).appended ≠ (s.tile T).refilled → floesOn s (berthOf T) = true →
      let x := s.tile T
      let a := ringEntry s w T x.refilled
      (∀ p, x.refill = some p → p.answered s = false →
        exec (.floeRefill T) s = .next (s.setTile T { x with refill := some (p.go s T) })) ∧
      (x.refill = none → (askPort s T w a 1).isSome = true → exec (.floeRefill T) s = .next (askRefill s T w a)) ∧
      (x.refill = none ∧ askPort s T w a 1 = none ∨ (∃ p, x.refill = some p ∧ p.answered s = true) →
        ∃ u, exec (.floeRefill T) s = .next u ∧ (u.tile T).refilled = x.refilled + 1 ∧ (u.tile T).refill = none)) ∧
    (∀ g l l' d tag, (s.tile T).landing = j :: l → (s.tile T).waiters = g :: l' → tileOf g = T →
      (s.thread g).status = .parked (.flrecv d tag) → slotSettled s T j = true →
      let n := slotNat s T j (66 + 16 * slotNat s T j 2 1) 1
      let a := stationEntry (s.launch (s.thread g).launch) n
      (stationAsks s g n = true → exec (.floeClaim T) s = .next (portAsk s g a 1)) ∧
      (∀ pc, stationAsks s g n = false →
        stationPc (portView s (threadPort s g a)) (s.thread g).launch n = some pc →
        ∃ u, exec (.floeClaim T) s = .next u ∧ slotState u T j = .held g ∧ (u.tile T).landing = l ∧
          (u.tile T).waiters = l' ∧ (u.thread g).pc = pc)) ∧
    (∀ f : Floe, s.floes.find? (·.id == f.id) = some f → f.dest = 0xFFFF → f.src = T →
      let i := imgIndex f.img
      let r := imgRoutine f.img i
      let a := f.addr
      let x := translateNow (portView s f.port) f.owner a (if r = 1 then .load else .store)
      let asks := f.port.isNone ∧ (askPort s T f.owner a 0).isSome
      (∀ p, f.port = some p → p.answered s = false →
        exec (.memoryStop f.id) s = .next (setFloe s { f with port := some (p.go s T) })) ∧
      (f.port.any (fun p => !p.answered s) = false →
        (1 < r → exec (.memoryStop f.id) s = .next (stopFail s f 5 0)) ∧
        (r ≤ 1 → imgLength f.img ≤ f.next → f.due ≤ s.work → exec (.memoryStop f.id) s = .next (stopEnd s f)) ∧
        (r ≤ 1 → f.next < imgLength f.img →
          (asks → exec (.memoryStop f.id) s = .next (setFloe s { f with port := askPort s T f.owner a 0 })) ∧
          (¬ asks → region a = .paged → ∀ p, x = .ok p → exec (.memoryStop f.id) s = .next
            (stopUnit s f r p (min (imgLength f.img - f.next) (64 - a.toNat % 64)))) ∧
          (¬ asks → f.due ≤ s.work → (region a = .paged → x = .miss →
              exec (.memoryStop f.id) s = .next (stopFail s f 3 a)) ∧
            (region a ≠ .paged ∨ x = .fatal → exec (.memoryStop f.id) s = .next (stopFail s f 4 a))))))

/-! ### Power and drift class, system class -/

/-- R336 to R341, R344, R351: hints and counters, the system registers, the return from a handler. -/
def Obligations.SystemInstructions : Prop :=
  ∀ (s : State) (st : Stall) (a d : RegNum) (o : Opnds),
    let t := issuer s
    let T := s.tile (tileOf s.cur)
    let w := s.owner t.owner
    (∀ k, Completes s (.phase st k) st ((landed s).modThread s.cur fun t => { t with hint := k }) none) ∧
    (Ready s [] [d] o →
      Gives s (.pcnt st false d) st 4 o T.ballast ∧ Gives s (.pcnt st true d) st 4 o T.stagger ∧
      Gives s (.dstate st false d) st 4 o (BitVec.ofNat 32 s.epochs ++ BitVec.ofNat 32 (s.timebase - s.lastResume)) ∧
      Gives s (.dstate st true d) st 4 o (BitVec.ofNat 64 t.paused) ∧
      Gives s (.ecnt st false d) st 4 o ((0 : BitVec 16) ++ t.data ++ t.misuse) ∧
      Gives s (.ecnt st true d) st 4 o ((0 : BitVec 16) ++ w.data ++ w.misuse) ∧
      ∀ p : BitVec 14 × Word, p ∈
        [(0, t.handler),
         (1, (0 : BitVec 60) ++ BitVec.ofBool t.det ++ BitVec.ofBool t.inh ++ BitVec.ofBool t.dz ++ BitVec.ofBool t.sb),
         (2, t.trapPc), (3, t.trapSucc), (4, t.trapCause), (5, t.trapInfo), (6, t.seed),
         (7, (0 : BitVec 16) ++ t.data ++ t.misuse),
         (8, BitVec.ofNat 64 (t.k1.toNat + t.k2.toNat * 2 ^ 8 + t.k3.toNat * 2 ^ 16)), (9, 0x00080100)] →
        Gives s (.rdsys st d p.1) st 4 o p.2) ∧
    (Ready s [a] [] o →
      let put := fun (f : Thread → Thread) => (consume (landed s) s.cur o.srcs).modThread s.cur f
      Completes s (.sethnd st a) st (put fun t => { t with handler := o.v 0 }) none ∧
      Completes s (.wrsys st a 0) st (put fun t => { t with handler := o.v 0 }) none ∧
      Completes s (.wrsys st a 1) st (put fun t => { t with dz := (o.v 0).getLsbD 1, sb := (o.v 0).getLsbD 0 }) none ∧
      Completes s (.wrsys st a 2) st (put fun t => { t with trapPc := o.v 0 }) none ∧
      Completes s (.wrsys st a 6) st (put fun t => { t with seed := o.v 0 }) none) ∧
    (t.inh = true → Completes s (.hret st) st ((landed s).modThread s.cur fun t => { t with inh := false })
      (some t.trapPc))

/-- R344, R349: the system registers that are absent or not written, and `hret` outside a handler, raise owner traps. -/
def Sys2Proof.Claims.SystemStops : Prop :=
  ∀ (s : State) (st : Stall) (a d : RegNum) (i : BitVec 14),
    (10 ≤ i.toNat →
      Acts s (.rdsys st d i) (ownerTrap (landed s) s.cur 3 (i.toNat % 256) 0 (issuer s).pc)) ∧
    (i.toNat ∉ [0, 1, 2, 6] →
      Acts s (.wrsys st a i) (ownerTrap (landed s) s.cur 3 (i.toNat % 256) 0 (issuer s).pc)) ∧
    ((issuer s).inh = false → Acts s (.hret st) (ownerTrap (landed s) s.cur 1 0 0 (issuer s).pc))

/-- R50, R344, R345, R349: reserved heads, absent system registers and a stray `hret` raise owner traps. -/
def Obligations.SystemTraps : Prop := Claims.ReservedTraps ∧ Claims.SystemStops

/-- R226, R343, R350: a local trap, once the thread's vector instructions have completed, saves the pc, the successor, the
cause and the info, inhibits further ones and goes on at the handler; the registers keep the values that have been written
to them. -/
def Obligations.LocalTrapEntry : Prop :=
  ∀ (s : State) (st : Stall) (code : BitVec 14),
    let t := issuer s
    let succ := succOf t false
    (vectorDone s s.cur = false →
      Acts s (.trap st code) (parkThread (landed s) s.cur (.trap (.loc 7 0 (code.setWidth 64) true false)))) ∧
    (vectorDone s s.cur = true → t.inh = false → t.handler ≠ 0 → ∃ u, exec (.trap st code) s = .next u ∧
      let v := u.thread s.cur
      v.pc = t.handler ∧ v.trapPc = succ ∧ v.trapSucc = succ ∧ v.trapCause = 7 ∧ v.trapInfo = code.setWidth 64 ∧
        v.inh = true ∧ v.ready = clockOf s + 8 ∧ v.regs = t.landAll.regs ∧ v.segs = t.segs ∧ v.w = t.w ∧ v.m = t.m ∧
        v.lev0 = t.lev0 ∧ v.lev1 = t.lev1 ∧ v.rb = t.rb ∧ v.k1 = t.k1 ∧ v.k2 = t.k2 ∧ v.k3 = t.k3 ∧
        u.traffic.filter (fun r => !prefetch r) = s.traffic.filter fun r => !prefetch r) ∧
    (vectorDone s s.cur = true → t.inh = false → t.handler = 0 →
      Acts s (.trap st code) (ownerTrap (landed s) s.cur 7 7 (code.setWidth 64) succ)) ∧
    (vectorDone s s.cur = true → t.inh = true → Acts s (.trap st code) (ownerTrap (landed s) s.cur 8 7 (code.setWidth 64) t.pc))

/-- R226, R345 to R348, R351, R352: once the thread's vector instructions have completed, `brk` holds the thread and posts
its record; `fail` sets the launch's code and ends the thread; a record that finds no room is held, a fatal one
escalates. -/
def Obligations.OwnerTrapEntry : Prop :=
  ∀ (s : State) (st : Stall) (code : BitVec 14),
    let t := issuer s
    let x := s.owner t.owner
    let holds := fun (r : TrapRec) (cause : Nat) (resume : Word) =>
      r.g = s.cur ∧ r.resume = resume ∧ r.fatal = trapFatal cause ∧ r.bytes.length = 64 ∧ pkWord r.bytes 0 = t.pc ∧
        pkWord r.bytes 8 = resume ∧ pkWord r.bytes 16 = code.setWidth 64 ∧ pkField r.bytes 24 4 = t.id % 2 ^ 32 ∧
        pkField r.bytes 32 1 = cause ∧ pkField r.bytes 33 1 = 0 ∧
        pkField r.bytes 34 1 = (if trapFatal cause then 1 else 0) ∧ pkField r.bytes 36 4 = s.epochs % 2 ^ 32 ∧
        pkField r.bytes 40 8 = s.timebase % 2 ^ 64
    (vectorDone s s.cur = true → ∃ u, exec (.brk st code) s = .next u ∧ (u.thread s.cur).status = .ready ∧
      (u.thread s.cur).trapped = some (succOf t false) ∧ (u.thread s.cur).pc = t.pc ∧
      ∃ r, holds r 9 (succOf t false) ∧
        (if x.tqTail - x.tqHead < 248 ∧ x.tqHeld = [] then
          (u.owner t.owner).tqRecs = x.tqRecs ++ [r] ∧ (u.owner t.owner).tqTail = x.tqTail + 1
        else (u.owner t.owner).tqHeld = x.tqHeld ++ [r] ∧ (u.owner t.owner).tqTail = x.tqTail)) ∧
    (vectorDone s s.cur = true → ∃ u, exec (.fail st code) s = .next u ∧ (u.thread s.cur).status = .halting ∧
      ((mget s.launches t.launch).isSome = true → (u.launch t.launch).error =
        (if (s.launch t.launch).error = 0 then 0x01000000 + code.toNat else (s.launch t.launch).error)) ∧
      ∃ r, holds r 10 t.pc ∧
        (if x.tqTail - x.tqHead < 256 then
          (u.owner t.owner).tqRecs = x.tqRecs ++ [r] ∧ (u.owner t.owner).tqTail = x.tqTail + 1
        else (u.die (dieOf (tileOf s.cur))).log = (s.die (dieOf (tileOf s.cur))).log ++ [r.bytes] ∧
          (u.owner t.owner).tqEsc = bump32 x.tqEsc))

/-! ### Threads: placement, end, pre-emption, traps -/

/-- R93, R378: a thread whose waits are over ends; its slot is empty, and the last one of a launch whose placements are
all made ends the launch. -/
def Sys2Proof.Claims.ThreadEnds : Prop :=
  ∀ (s : State) (g : Nat), g < Config.threads → haltReady s g = true →
    let lk := (s.thread g).launch
    let l := s.launch lk
    ∃ u, exec (.haltCompletion g) s = .next u ∧ u.thread g = {} ∧ (u.launch lk).live = l.live - 1 ∧
      (u.tile (tileOf g)).mx.lease.any (·.holder == g) = false ∧
      ((mget s.launches lk).isSome = true → l.done = false → l.admitted = true → l.places = [] → l.live = 1 →
        (u.launch lk).done = true)

/-- R80, R119, R377, R378: a placement that has a slot and its ramp slot, which no launch that is taken before it asks for, is
made: the thread stands at its pc with
registers 0 and full, the two segments of its launch and its identity. -/
def Sys2Proof.Claims.ThreadPlaced : Prop :=
  ∀ (s : State) (lk g : Nat) (p : Place), nextPlace s lk = some (p, g) → tileClosed s (tileOf g) = false →
    slotWanted s lk g = false →
    (launchPinned s lk = true ∨ asksFirst s lk (dieOf (tileOf g)) = false ∧
      (rampAsk s { place := some (lk, p.k), tile := tileOf g, since := sluiceNow s }).2 = true) →
    let l := s.launch lk
    let T := logicalTile s (tileOf g)
    ∃ u, exec (.launchRecordPlacement lk) s = .next u ∧
      (let t := u.thread g
       t.pc = p.pc ∧ t.launch = lk ∧ t.owner = l.owner ∧ t.id = 32 * T + g % 32 ∧ t.seed = l.seed ∧ t.handler = 0 ∧
        t.rb = 0 ∧ t.regs = Vector.replicate 32 { val := 0, full := true } ∧ t.jcell = none ∧ t.data = 0 ∧ t.misuse = 0 ∧
        t.segs[(0 : Nat)] = { base := BitVec.ofNat 64 (T * 2 ^ 21), limit := 0x180000, code := 0x1F } ∧
        t.segs[(1 : Nat)] = { base := l.args, limit := BitVec.ofNat 48 l.argLen, code := 0x01 } ∧
        (∀ k, 2 ≤ k → ∀ h : k < 8, t.segs[k].code = 0x30) ∧
        t.ids[(0 : Nat)] = BitVec.ofNat 64 (32 * T + g % 32) ∧ t.ids[(1 : Nat)] = BitVec.ofNat 64 T ∧
        t.ids[(2 : Nat)] = BitVec.ofNat 64 (coreOf g % 4) ∧ t.ids[(3 : Nat)] = BitVec.ofNat 64 (g % 8) ∧
        t.ids[(6 : Nat)] = BitVec.ofNat 64 l.id ∧ t.ids[(7 : Nat)] = p.i7 ∧ t.ids[(8 : Nat)] = p.i8 ∧
        t.ids[(9 : Nat)] = p.i9 ∧ t.ids[(10 : Nat)] = l.argv[(0 : Nat)] ∧ t.ids[(15 : Nat)] = l.argv[(5 : Nat)]) ∧
      (u.launch lk).places = l.places.filter (fun q => q.k != p.k) ∧ (u.launch lk).live = l.live + 1 ∧
      (u.launch lk).started = true

/-- R80, R93, R119, R377, R378: the placement and the end of a thread. -/
def Obligations.ThreadLife : Prop := Claims.ThreadPlaced ∧ Claims.ThreadEnds

/-- R322, R323, R353, R354: pre-emption and overflow change the thread in a physical slot, in 64 clocks; a thread that is
swapped out keeps its registers, the results of its issued instructions written and its stall turns discarded (R46). That in
strict rotation its slot stays empty is the model's choice (entry 65). -/
def Obligations.PhysicalSlots : Prop :=
  ∀ (s : State),
    (∀ g p, g < Config.threads → tileClosed s (tileOf g) = false → (s.thread g).status = .ready →
      (s.thread g).away = false → (s.thread g).trapped = none → vectorDone s g = true →
      physOfSlot (s.core (coreOf g)) (slotOf g) = some p → ∃ u n, exec (.preemption g) s = .next u ∧
        (u.thread g).away = true ∧ (u.thread g).regs = (s.thread g).landAll.regs ∧ (u.thread g).pc = (s.thread g).pc ∧
        (u.thread g).pend = [] ∧ (u.thread g).line = none ∧
        (u.thread g).ready = min (s.thread g).ready (s.thread g).base ∧
        (u.core (coreOf g)).phys = (s.core (coreOf g)).phys.set p n ∧ (coreDet s (coreOf g) = true → n = none) ∧
        (u.core (coreOf g)).swap = (p, (s.core (coreOf g)).clock + 64) :: (s.core (coreOf g)).swap) ∧
    (∀ c p n, c < Config.cores → p < 8 → tileClosed s (c / 4) = false → p < (s.core c).phys.length →
      overflowNext s c = some n → (s.core c).swap.any (fun e => e.1 == p) = false → quantumOver s c p = true →
      ∃ u, exec (.overflowQuantumExpiry c p) s = .next u ∧ (u.core c).phys = (s.core c).phys.set p (some n) ∧
        (u.core c).overflow = (s.core c).overflow.erase n ++ (match (s.core c).phys.getD p none with
          | some k => if slotIdle s c k then [] else [k]
          | none => []) ∧
        (u.core c).swap = (p, (s.core c).clock + 64) :: (s.core c).swap) ∧
    (∀ c p e, c < Config.cores → p < 8 → (s.core c).swap.find? (fun e => e.1 == p) = some e →
      e.2 ≤ (s.core c).clock → ∃ u, exec (.overflowSwapDone c p) s = .next u ∧
        (u.core c).swap = (s.core c).swap.filter (fun e => e.1 != p) ∧
        ∀ k, (s.core c).phys.getD p none = some k → (u.thread (8 * c + k)).turns = 0 ∧
          (u.thread (8 * c + k)).ready = max (s.thread (8 * c + k)).ready e.2)

/-- R347, R354, R355, R359: a held record is appended when there is room; S takes the record at the head, and ends its thread
or passes the record to the owner's agent; at the agent's call a trapped thread goes on at its resume pc or at the one that
is given, or ends; a call for another thread is refused. -/
def Obligations.TrapService : Prop :=
  ∀ (s : State) (o g : Nat), 1 ≤ o → o ≤ Config.owners → g < Config.threads →
    let x := s.owner o
    (∀ r l, x.tqHeld = r :: l → x.tqTail - x.tqHead < 248 → ∃ u, exec (.trapRecordAppend o) s = .next u ∧
      (u.owner o).tqRecs = x.tqRecs ++ [r] ∧ (u.owner o).tqHeld = l ∧ (u.owner o).tqTail = x.tqTail + 1) ∧
    (∀ r l, x.tqRecs = r :: l → (s.die (dieOf (tileOf r.g))).running = true →
      ∃ u, exec (.trapRecordService o) s = .next u ∧ (u.owner o).tqRecs = l ∧ (u.owner o).tqHead = x.tqHead + 1 ∧
        (x.agentPolicy = false → r.fatal = false → (s.thread r.g).trapped = some r.resume →
          (u.thread r.g).status = .halting ∧ (u.thread r.g).trapped = none) ∧
        (x.agentPolicy = true → u.thread r.g = s.thread r.g ∧
          (r.fatal = false → (s.thread r.g).trapped = some r.resume → (u.owner o).passed = x.passed ++ [r]))) ∧
    (let t := s.thread g
     let w := s.owner t.owner
     (s.die (dieOf (tileOf g))).running = true → w.agentPolicy = true →
     (∀ r, t.trapped = some r → w.passed.any (fun q => q.g == g) = true →
       (tileClosed s (tileOf g) = false → ∀ pc : Option Word, ∃ u, exec (.trappedThreadResume g pc) s = .next u ∧
         (u.thread g).pc = pc.getD r ∧ (u.thread g).trapped = none ∧ (u.thread g).away = false ∧
         (u.thread g).status = .ready ∧ (u.thread g).regs = t.regs ∧ (u.owner t.owner).call = some true) ∧
       ∃ u, exec (.trappedThreadEnd g) s = .next u ∧ (u.thread g).status = .halting ∧ (u.thread g).trapped = none ∧
         (u.owner t.owner).call = some true ∧ ((mget s.launches t.launch).isSome = true →
           (u.launch t.launch).error = (if (s.launch t.launch).error = 0 then 0x11 else (s.launch t.launch).error)))) ∧
    (let w := berthOwner s (berthOf (tileOf g))
     (s.die (dieOf (tileOf g))).running = true → (s.owner w).agentPolicy = true → (s.thread g).trapped = none →
       ∀ i ∈ [.trappedThreadEnd g, .trappedThreadResume g none], ∃ u, exec i s = .next u ∧
         (u.owner w).call = some false ∧ u.threads = s.threads)

/-! ### Power and drift: the events -/

/-- R306, R309, R311: at a tick boundary a die's level follows its measured power, falling by no more than its share, and
a sensor's reading sets the marks of its tile. Between boundaries, and a second time at one, nothing happens. The level counts
eighths of a milliwatt, in which a die's share of the module's fall limit is whole; the clause is for the tick after the last
(what ticks without the event do is the model's choice, entry 110). -/
def Sys2Proof.Claims.SluiceTicks : Prop :=
  ∀ (s : State) (d mW T temp power : Nat), d < Config.dies →
    (s.timebase % 250 ≠ 0 ∨ sluiceNow s ≤ (s.die d).ticked → exec (.sluiceTick d mW [(T, temp, power)]) s = .next s) ∧
    (s.timebase % 250 = 0 → (s.die d).ticked < sluiceNow s → dieOf T = d → ∃ u, exec (.sluiceTick d mW [(T, temp, power)]) s = .next u ∧
      (u.die d).measured = mW ∧ (u.die d).ticked = sluiceNow s ∧
      ((s.die d).ticked + 1 = sluiceNow s → 8 * (s.die d).measured ≤ (s.die d).level →
        (u.die d).level = max (8 * mW) ((s.die d).level - s.param 1)) ∧
      (u.tile T).temp = temp ∧ (u.tile T).power = power ∧
      (u.tile T).hot = (if s.param 7 ≤ temp then true else if temp + 5000 < s.param 7 then false else (s.tile T).hot) ∧
      (u.tile T).overBudget =
        (if s.param 6 < power then true else if 10 * power < 9 * s.param 6 then false else (s.tile T).overBudget))

/-- R307, R308, R310, R377. Of the waiting grants the first that can be made is made, and those whose slot has come to lie on
another die leave this die's list, by the model's choice (entry 85; R307 gives the order of the requests alone): it is made in a tick that has room and is charged to it; a
pinned launch is admitted at the first boundary after its start when every die's share holds its cost, else refused; a
ballast step counts four slots, in a pause for the tile that arrives. -/
def Sys2Proof.Claims.PowerGrants : Prop :=
  ∀ (s : State) (d T lk k g : Nat) (w : RampWait) (l : List RampWait) (p : Place), d < Config.dies → T < Config.tiles →
    let x := (s.die d).inTick (sluiceNow s)
    let stays := l.filter fun y => match rampNow s d y with | .move _ | .gone => false | _ => true
    ((s.die d).waiting = w :: l → s.pause = none → pinnedDue s = false → x.fits (s.param 0) (rampCost s w) = true →
      (w.place = some (lk, k) → (s.launch lk).places.find? (fun p => p.k == k) = some p →
        placeSlot s (s.launch lk) p = some g → dieOf (tileOf g) = d → tileClosed s (tileOf g) = false →
        slotWanted s lk g = false → ∃ u, exec (.rampSlotGrant d) s = .next u ∧ (u.die d).waiting = stays ∧
          (u.die d).granted = x.granted + s.param 2 ∧ (u.thread g).pc = p.pc ∧ (u.thread g).launch = lk ∧
          (u.tile (tileOf g)).stagger =
            (s.tile (tileOf g)).stagger + (if w.since < sluiceNow s then 1 else 0)) ∧
      (∀ r, w.place = none → (s.tile w.tile).mx.lease = none → tileClosed s w.tile = false →
        leaseNext (s.tile w.tile).mx (fun _ => true) = some r → launchPinned s r.who.launch = false →
        r.who.live s = true →
        ∃ u, exec (.rampSlotGrant d) s = .next u ∧ (u.die d).waiting = stays ∧
          (u.die d).granted = x.granted + s.param 3 ∧ (u.tile w.tile).mx.requests = (s.tile w.tile).mx.requests.erase r ∧
          (u.tile w.tile).mx.lease = some { id := s.nextId, core := r.core, holder := r.who.g, left := r.n })) ∧
    ((mget s.launches lk).isSome = true → (s.launch lk).admitted = false → (s.launch lk).done = false →
      launchPinned s lk = true → s.timebase = admissionTick (s.launch lk) → admittedLater s lk = false →
      let tiles := plannedTiles s (s.launch lk)
      ((∀ e, e < 8 → 8 * pinnedCost s tiles e ≤ s.param 0) → ∃ u, exec (.pinnedLaunchAdmission lk) s = .next u ∧
        (u.launch lk).admitted = true ∧ ∀ e, e < 8 → pinnedCost s tiles e ≠ 0 →
          (u.die e).granted = ((s.die e).inTick (sluiceNow s)).granted + pinnedCost s tiles e) ∧
      ((∃ e, e < 8 ∧ s.param 0 < 8 * pinnedCost s tiles e) → ∃ u, exec (.pinnedLaunchAdmission lk) s = .next u ∧
        (u.launch lk).done = true ∧ (u.launch lk).error = 0x21 ∧ (u.launch lk).places = [])) ∧
    ((s.tile T).steps ≠ 0 → arrayIdle (s.tile T) = true →
      let site := if s.pause.isSome then arriving s T else T
      ∃ u, exec (.ballastStep T) s = .next u ∧ (u.tile site).ballast = (s.tile site).ballast + 4 ∧
        (u.tile T).steps = (s.tile T).steps - 1)

/-- R306 to R311: ticks of Sluice, grants, admission and ballast. -/
def Obligations.PowerEvents : Prop := Claims.SluiceTicks ∧ Claims.PowerGrants

/-- R315 to R317: an idle tile is gated; what arrives asks for a wake, which joins the FIFO once the hold is over; the
arbiter wakes one tile at a time, 62.5 ticks after the grant before; its times are in half ticks. -/
def Obligations.Gating : Prop :=
  ∀ (s : State) (T d : Nat), T < Config.tiles → d < Config.dies →
    let x := s.tile T
    (x.gated = none → tileDet s T = false → s.pause = none → tileIdle s T = true →
      x.busyAt + 12500 ≤ s.timebase →
      ∃ u, exec (.tileGate T) s = .next u ∧ (u.tile T).gated = some s.timebase ∧ u.mem = s.mem) ∧
    (∀ t, x.gated = some t → wakeNeeded s T = true → ∃ u, exec (.tileWakeRequest T) s = .next u ∧
      (u.tile T).wake = true ∧ (u.tile T).gated = some t ∧
      (t + 5000 ≤ s.timebase → (u.die (dieOf T)).inrush.any (·.1 == T) = true) ∧
      (s.timebase < t + 5000 → (u.die (dieOf T)).inrush = (s.die (dieOf T)).inrush)) ∧
    (∀ t, x.gated = some t → t + 5000 ≤ s.timebase → x.wake = true →
      ∃ u, exec (.gateHoldExpiry T) s = .next u ∧
        (u.die (dieOf T)).inrush.any (·.1 == T) = true) ∧
    (∀ y j l, (s.die d).inrush = (y, j) :: l → (s.die d).inrushBusy = false → s.pause = none →
      let due := max (s.die d).inrushFree (2 * max j s.lastResume)
      (due ≤ 2 * s.timebase → ∃ u, exec (.inrushGrant d) s = .next u ∧ (u.die d).inrush = l ∧
        (u.die d).inrushBusy = true ∧ (u.die d).inrushFree = due + 125 ∧ (u.tile y).gated = none) ∧
      (2 * s.timebase < due → exec (.inrushGrant d) s = .next s)) ∧
    ((s.die d).inrushBusy = true → (s.die d).inrushFree ≤ 2 * s.timebase →
      ∃ u, exec (.inrushPeriodEnd d) s = .next u ∧ (u.die d).inrushBusy = false)

/-- R46, R319, R320, R324 to R331, R333, R338, R364, R395: the freeze, which captures every thread and writes every result on
its way to a queue (that a swap of physical slots under way ends with it is the model's choice, entry 70), the drain, the shift and
the resume of a drift at the first tick after the last report (R329), with a deterministic thread live not before 2,500
ticks (R331); and the setting of calibration mode at bring-up, before any owner has been assigned (R333). -/
def Obligations.Drift : Prop :=
  ∀ (s : State) (d : Nat), d < Config.dies →
    let resumed := fun (u : State) (f : Nat) =>
      u.pause = none ∧ u.epochs = s.epochs + 1 ∧ u.lastResume = s.timebase ∧ u.mem = s.mem ∧
        (∀ e, e < Config.dies → (u.die e).drift = .running ∧ (u.die e).phase.val = (s.epochs + 1) % 5) ∧
        (∀ c, (u.core c).tlb = []) ∧
        (∀ g, (s.thread g).status ≠ .empty → (u.thread g).paused = (s.thread g).paused + (s.timebase - f) ∧
          (u.thread g).regs = (s.thread g).regs ∧ (u.thread g).pc = (s.thread g).pc)
    (s.pause = none → s.booted = true → s.timebase = (s.epochs + 1) * 2 ^ s.log2E →
      ∃ u, exec .driftFreeze s = .next u ∧ u.pause = some { freeze := s.timebase } ∧ u.mem = s.mem ∧
        (∀ e, e < Config.dies → (u.die e).drift = .draining) ∧ (∀ c, (u.core c).swap = []) ∧
        (∀ c p, (p ∈ (u.core c).inflight ∨ ∃ k : Fin 4, p ∈ (u.core c).flight[k]) →
          p.due ≤ (s.core (coreOf p.g)).clock) ∧
        ∀ g, (s.thread g).status ≠ .empty → (u.thread g).regs = (s.thread g).landAll.regs ∧ (u.thread g).pend = [] ∧
          (u.thread g).ready ≤ (s.thread g).base ∧ (u.thread g).pc = (s.thread g).pc) ∧
    (s.pause.isSome = true → (s.die d).drift = .draining → drained s d = true →
      ∃ u, exec (.driftDrainEnd d) s = .next u ∧ (u.die d).drift = .shifting) ∧
    (s.pause.isSome = true → (s.die d).drift = .shifting →
      ∃ u, exec (.driftShiftEnd d) s = .next u ∧ (u.die d).drift = .reported ∧ (u.die d).reportAt = s.timebase) ∧
    (∀ p, s.pause = some p → (∀ e, e < Config.dies → (s.die e).drift = .reported) →
      (s.die s.primary).running = true →
      let past := ∀ e, e < Config.dies → (s.die e).reportAt < s.timebase
      (past → detLive s = false ∨ p.freeze + 2500 ≤ s.timebase →
        ∃ u, exec .driftResume s = .next u ∧ resumed u p.freeze) ∧
      (past → detLive s = true → p.freeze + 2500 = s.timebase →
        ∃ u, exec .deterministicResumeExpiry s = .next u ∧ resumed u p.freeze) ∧
      (¬ past ∨ detLive s = true ∧ s.timebase < p.freeze + 2500 → exec .driftResume s = .next s)) ∧
    (∀ v : Vector Nat 5, (v.all fun x => 1 ≤ x && x ≤ 63) = true →
      (s.assigned = false → ∃ u, exec (.calibrationModeSet v) s = .next u ∧ u.calib = some v) ∧
      (s.assigned = true → exec (.calibrationModeSet v) s = .next s))

/-! ### Command class and Firn -/

/-- R129, R181, R358, R362: while S runs, a wake lets a dropped thread issue again, a channel's copy and an inlet's COPY go
on; a conversion ends them as a fatal translation fault, a held SIGNAL, WAIT or COPY with 0x43. -/
def Obligations.WakesAndConversions : Prop :=
  ∀ (s : State) (d : Nat) (w : WakeId), d < Config.dies →
    ((s.die d).running = false →
      exec (.wakeRegisterWrite d w) s = .next s ∧ exec (.convertRegisterWrite d w) s = .next s) ∧
    ((s.die d).running = true → ∃ u, exec (.wakeRegisterWrite d w) s = .next u ∧ (u.die d).wake = some w ∧
      (∀ g, w.requester = 0 → droppedThread s d w = some g → (u.thread g).status = .ready ∧
        (u.thread g).pc = (s.thread g).pc ∧ (u.thread g).regs = (s.thread g).regs ∧ u.mem = s.mem) ∧
      (∀ T ch x, w.requester = 1 → stuckCopy s d w = some (T, ch, x) → ch < 4 →
        ∀ y ∈ ((u.tile T).chan ch).runs, y.n = x.n → y.fault = none) ∧
      (∀ id i l src dst n k sig e b link, w.requester = 3 → wokenInlet s d w = some id → (s.inlet id).heldCopy = i :: l →
        (s.inlet id).live.find? (fun p => p.index == i) = some (.copy i src dst n k sig e b link) →
        (u.inlet id).heldCopy = l ∧ .copy i src dst n k sig e false link ∈ (u.inlet id).live)) ∧
    ((s.die d).running = true → ∃ u, exec (.convertRegisterWrite d w) s = .next u ∧ (u.die d).convert = some w ∧
      (∀ g, w.requester = 0 → droppedThread s d w = some g → vectorDone s g = true → (u.thread g).status = .halting ∧
        (u.thread g).pc = (s.thread g).pc) ∧
      (∀ T ch x, w.requester = 1 → stuckCopy s d w = some (T, ch, x) → ch < 4 →
        ∀ y ∈ ((u.tile T).chan ch).runs, y.n = x.n → y.fault = none ∧ y.status = 1 ∧ y.stopped = true) ∧
      ∀ id i l p, wokenInlet s d w = some id → (s.inlet id).live.find? (fun q => q.index == i) = some p →
        let x := s.inlet id
        let v := servedFault d w (s.modDie d fun y => { y with convert := some w })
        let ends := fun (y : Inlet) (sig : Word) (wait : Bool) =>
          u = completePkt (v.setInlet id y) id i sig none 0x43 false wait
        (w.requester = 2 → x.held = i :: l →
          (∀ a set n sig, p = .signal i a set n sig → ends { x with held := l } sig false) ∧
          ∀ y sig, p = .wait i y sig → ends { x with held := l } sig true) ∧
        (w.requester = 3 → x.heldCopy = i :: l → ∀ src dst n k sig e b link, p = .copy i src dst n k sig e b link →
          ends { x with heldCopy := l } sig false))

/-- R365 to R370: the tails that doorbells and notify writes present, the phase that is not there yet, the hardware
slots. That with 64 slots taken the next inlet takes the slot of one at rest is the model's reading (entry 76, DEDUCED; R369
says that the others wait for a slot), and so is what counts as a stall. -/
def Obligations.Inlets : Prop :=
  ∀ (s : State) (id : Nat) (x : Inlet), mget s.inlets id = some x →
    let fits := fun (v : BitVec 32) => (v - x.head).toNat ≤ 2 ^ x.n ∧ (v - x.tail).toNat ≤ 2 ^ x.n
    (∀ data : Word, ∃ u, exec (.doorbellWrite id data) s = .next u ∧
      (data.toNat < 2 ^ 32 ∧ fits (data.setWidth 32) →
        (u.inlet id).tail = data.setWidth 32 ∧ (u.inlet id).dropped = x.dropped) ∧
      (¬ (data.toNat < 2 ^ 32 ∧ fits (data.setWidth 32)) →
        (u.inlet id).tail = x.tail ∧ (u.inlet id).dropped = bump32 x.dropped)) ∧
    (∀ (d : Nat) (msg : BitVec 256), d < Config.dies → msg.toNat % 2 ^ 16 = id →
      let b := bytesOfNat 32 msg.toNat
      let v : BitVec 32 := BitVec.ofNat 32 (pkField b 4 4)
      let good := zeroAt b 2 2 = true ∧ notifyTag x.key b = (b.drop 16).take 16 ∧ x.seq.toNat < (pkWord b 8).toNat ∧ fits v
      ∃ u, exec (.notifyWrite d msg) s = .next u ∧
        (good → (u.inlet id).tail = v ∧ (u.inlet id).seq = pkWord b 8 ∧ (u.inlet id).dropped = x.dropped) ∧
        (¬ good → (u.inlet id).tail = x.tail ∧ (u.inlet id).seq = x.seq ∧ (u.inlet id).dropped = bump32 x.dropped)) ∧
    (canRead s x = true → phaseRight s x = false → (∀ t, x.retry = some t → t + 250 ≤ s.timebase) →
      ∃ u, exec (.inletPhaseRetry id) s = .next u ∧ (u.inlet id).head = x.head ∧
        (u.inlet id).stalls = bump32 x.stalls ∧ (u.inlet id).retry = some s.timebase) ∧
    (inletNext s x.die (s.die x.die).slotLast (inletWants s x.die) = some id →
      let served := (s.die x.die).slotLast.setIfInBounds x.prio id
      ((slotted s x.die).length < 64 → ∃ u, exec (.inletSlotAssign id) s = .next u ∧ (u.inlet id).slot = true ∧
        (u.die x.die).slotLast = served) ∧
      ∀ q, 64 ≤ (slotted s x.die).length → (slotted s x.die).find? (fun p => inletAtRest p.2) = some q → q.1 ≠ id →
        ∃ u, exec (.inletSlotAssign id) s = .next u ∧ (u.inlet id).slot = true ∧ (u.inlet q.1).slot = false ∧
          (u.die x.die).slotLast = served)

/-- R371 to R383: the first packet of an inlet starts: NOP, SIGNAL, WAIT and COPY, and what completes a WAIT. That a WAIT whose
read the memory controller refuses ends without an error is the model's choice (entry 33). -/
def Obligations.PacketsStart : Prop :=
  ∀ (s : State) (id : Nat),
    let x := s.inlet id
    let b := headPacket s x
    let u := takeHead s id
    let i := x.head.toNat
    let begins := fun (type : Nat) => startsNow s id = true ∧ headType s id = type ∧ headerOk b = true
    (begins 0 → exec (.nopPacket id) s = .next (completePkt u id i (pkWord b 8) none 0 false false)) ∧
    (begins 4 → (pkWord b 16).toNat % 32 = 0 → region (pkWord b 16) = .signal → pkField b 32 1 ≤ 1 →
      zeroAt b 33 15 = true → ∀ k, sigDest u (u.inlet id).owner (pkWord b 16) = .key k →
      exec (.signal id) s = .next (completePkt
        (engineUpdate u x.owner 0 k fun v st e err =>
          (if pkField b 32 1 = 1 then (pkWord b 24).toNat else v + (pkWord b 24).toNat, st, e, err))
        id i (pkWord b 8) none 0 false false)) ∧
    (begins 3 → waitOf x = none → (pkWord b 16).toNat % 32 = 0 → region (pkWord b 16) = .signal → pkField b 32 1 ≤ 3 →
      zeroAt b 33 7 = true → ∀ k, translateNow u (u.inlet id).owner (pkWord b 16) .load = .ok k →
      let w : PWait :=
        { key := none, addr := pkWord b 16, c := waitCond (pkField b 32 1), v := pkWord b 24, limit := pkField b 40 8
          since := s.work }
      let passes := gate u (u.inlet id).owner k = .pass
      (passes → watchFree u (homeDie k) = true → exec (.wait id) s = .next (putPkt
        (countBad u (ownerWho (u.inlet id).owner 0) (u.poison.contains (unitOf k))) id
        (.wait i { w with key := some k, hit := sigHolds w.c (sigValue u k) w.v } (pkWord b 8)))) ∧
      (passes → watchFree u (homeDie k) = false → exec (.wait id) s = .next (putPkt { u with nextId := u.nextId + 1 } id
        (.wait i { w with ticket := some (k, u.nextId) } (pkWord b 8)))) ∧
      (¬ passes → exec (.wait id) s = .next
        (completePkt (gateCount u (u.inlet id).owner k) id i (pkWord b 8) none 0 false true))) ∧
    (∀ j w sig, waitOf x = some (j, w, sig) →
      (w.hit = true → exec (.wait id) s = .next (completePkt s id j sig none 0 false true)) ∧
      (w.hit = false → w.limit ≠ 0 → w.since + w.limit ≤ s.work →
        exec (.waitLimitExpiry id) s = .next (completePkt s id j sig none 0x44 false true))) ∧
    (begins 5 → zeroAt b 40 8 = true → copyReach (pkWord b 16) (pkField b 32 8) = true →
      copyReach (pkWord b 24) (pkField b 32 8) = true → exec (.copy id) s = .next
        (putPkt { u with nextId := u.nextId + 1 } id
          (.copy i (pkWord b 16) (pkWord b 24) (pkField b 32 8) 0 (pkWord b 8) 0 false { n := u.nextId }))) ∧
    (startsNow s id = true → headType s id ∈ [0, 3, 4, 5] → headerOk b = false → waitOf x = none →
      let ends := .next (completePkt (misuseOwner u x.owner) id i (pkWord b 8) none 0x41 false false)
      (headType s id = 0 → exec (.nopPacket id) s = ends) ∧ (headType s id = 3 → exec (.wait id) s = ends) ∧
      (headType s id = 4 → exec (.signal id) s = ends) ∧ (headType s id = 5 → exec (.copy id) s = ends))

/-- R374 to R380: a LAUNCH or ACTORS packet that passes its checks enters the launch table with its placements to be
made; the launches of an owner are numbered from 1 upward. Uncorrectable data that its start reads is a data error of the
launch (0x12, R352). -/
def Obligations.LaunchesStart : Prop :=
  ∀ (s : State) (id : Nat) (r : Named),
    let x := s.inlet id
    let o := x.owner
    let b := headPacket s x
    let lk := launchKey o (nextLaunchId (s.owner o))
    let pinned := pkField b 2 1 / 2 % 2 = 1
    let det := 4 ≤ pkField b 2 1 ∨ (s.owner o).det = true
    let enters := fun (u : State) (l : Launch) =>
      (u.owner o).lastLaunch = nextLaunchId (s.owner o) ∧ l.owner = o ∧ l.id = nextLaunchId (s.owner o) ∧ l.inlet = id ∧
        l.index = x.head.toNat ∧ (l.pinned = true ↔ pinned) ∧ (l.det = true ↔ det) ∧
        (l.admitted = true ↔ ¬ pinned ∧ ¬ det) ∧ l.signal = pkWord b 8 ∧ l.args = pkWord b 24 ∧ l.argLen = pkField b 32 4 ∧
        l.seed = r.seed ∧ l.region = r.region ∧ l.e = r.e ∧ l.j = r.j ∧ l.p = r.p ∧ l.floe = r.floe ∧ l.done = false ∧
        l.live = 0 ∧ (l.error = 0 ∨ l.error = 0x12) ∧ (s.poison = [] → l.error = 0) ∧ .launch x.head.toNat lk false ∈ (u.inlet id).live
    startsNow s id = true → headerOk b = true → readNamed s o (pkWord b 16) (pkWord b 56) = some r →
    (headType s id = 1 → launchFieldsOk s o b = true →
      let n := pkField b 38 2 * pkField b 40 2 * pkField b 42 2
      ∀ ids, launchIdList s o b r n = some ids → pkField b 36 2 < r.entries →
        ∃ u, exec (.launch id) s = .next u ∧ enters u (u.launch lk) ∧ (u.launch lk).actors = false ∧
          (u.launch lk).places.map (·.fixed) = ids ∧
          ∀ p ∈ (u.launch lk).places, p.i7 = BitVec.ofNat 64 (pkField b 38 2) ∧ p.i8 = BitVec.ofNat 64 (pkField b 40 2) ∧
            p.i9 = BitVec.ofNat 64 (pkField b 42 2) ∧ p.pc = BitVec.ofNat 64
              (natOfBytes (engineRead s o (r.entryTable + BitVec.ofNat 64 (8 * pkField b 36 2)) 8))) ∧
    (headType s id = 2 → pkField b 16 8 % 64 = 0 → pkField b 56 8 % 64 = 0 → zeroAt b 37 11 = true →
      let n := pkField b 36 1
      1 ≤ n → n ≤ 64 → r.actors ≠ 0 → agentOk s o (pkWord b 48) (8 * n) = true →
      let l := bindings s o (pkWord b 48) n
      bindingsOk s o n l = true →
        ∃ u, exec (.actors id) s = .next u ∧ enters u (u.launch lk) ∧ (u.launch lk).actors = true ∧
          (u.launch lk).places = l.flatMap (stagePlaces s o n r) ∧
          ∀ y ∈ l, (u.core (bindingCore s o y)).credits = y.allow ∧
            ((u.core (bindingCore s o y)).inb.isSome ↔ y.stage ≠ 0) ∧
            ((u.core (bindingCore s o y)).outb.isSome ↔ y.stage + 1 ≠ n))

/-- R372, R373, R390: a completion takes 1 from the value of its signal, writes the first placement of its launch, or else
its own tick, as start, and its tick as end, keeps the first error, counts the update, and the packet is no longer among the
started ones. -/
def Obligations.CompletionSignals : Prop :=
  ∀ (s : State) (id i k err : Nat) (start : Option Nat) (sig : Word) (wait : Bool),
    sigDest s (s.inlet id).owner sig = .key k → gate s (s.inlet id).owner k = .pass → k % 32 = 0 → memWf s.mem = true →
    unitOf k ∉ s.poison →
    let u := completePkt s id i sig start err false wait
    memNat u.mem k 8 = (memNat s.mem k 8 + 2 ^ 64 - 1) % 2 ^ 64 ∧
    memNat u.mem (k + 8) 8 = start.getD s.timebase % 2 ^ 64 ∧ memNat u.mem (k + 16) 8 = s.timebase % 2 ^ 64 ∧
    memNat u.mem (k + 24) 4 = (if memNat s.mem (k + 24) 4 = 0 then err % 2 ^ 32 else memNat s.mem (k + 24) 4) ∧
    memNat u.mem (k + 28) 4 = (memNat s.mem (k + 28) 4 + 1) % 2 ^ 32 ∧
    (∀ a, a < k ∨ k + 32 ≤ a → memByte u.mem a = memByte s.mem a) ∧ ∀ p ∈ (u.inlet id).live, p.index ≠ i

/-- R361 to R364: the monitor recovers a supervisor; another die becomes the primary; a heartbeat is recorded. The bytes of the
log's entry, the trap frames of the S harts and the record or packet that S had taken last, are the model's choice (entries 77
and 99), and so is which harts the watchdog watches, all eight (entry 118). That the next primary is the first running die
after the primary in the order, in rotation, is the model's reading (entry 78, DEDUCED). -/
def Sys2Proof.Claims.Recovery : Prop :=
  ∀ (s : State) (d hart : Nat), d < Config.dies → hart < 8 →
    let verified := decide (shake256 (s.die d).image 64 = (s.die d).measure)
    (∀ x l, (s.die d).running = true → (s.die d).servicing = x :: l → ∃ u, exec (.supervisorFaultEscalation d) s = .next u ∧
      (u.die d).log = (s.die d).log ++
        [((s.die d).harts.toList.filter (fun h => h.mode == .s)).flatMap hartFrame ++ x.bytes] ∧
      (u.die d).running = verified ∧ ∀ y ∈ (u.die d).servicing, ∃ a b, y.work = .packet a b) ∧
    ((s.die d).running = true → (s.die d).reports.toList.getD hart 0 + 2 * 2 ^ s.log2W ≤ s.timebase →
      ∃ u, exec (.watchdogExpiry d hart) s = .next u ∧ (u.die d).running = verified ∧
        (verified = true → (u.die d).reports = Vector.replicate 8 s.timebase)) ∧
    (s.booted = true → promotionDue s = true → ∀ e, nextPrimary s = some e →
      ∃ u, exec .primaryPromotion s = .next u ∧ u.primary = e ∧ (s.order.Nodup → e ≠ s.primary) ∧ (s.die e).running = true ∧
        u.heartbeat = s.timebase ∧ u.promotedAt = s.timebase) ∧
    ((s.die s.primary).running = true → ∃ u, exec .primaryHeartbeat s = .next u ∧ u.heartbeat = s.timebase)

/-- R125, R127, R306, R327, R334, R347, R359, R362, R364, R365, R390, R391: the registers that Firn writes. That a limit of
Sluice above the table's value is not written is the model's choice (entry 79), and so is the place of the kernel-reserved
frames (entry 90). Which frames keep their bytes when their owner changes, and under whose key a frame is held to be written
(`coded`), is the model's choice too (entry 100): the bytes stay unless the frame goes to an owner under whose key they were
not written. -/
def Sys2Proof.Claims.RegisterWrites : Prop :=
  ∀ (s : State),
    let writes := fun (r : FirnReg) (f : State → Prop) => ∃ u, exec (.registerWrite r) s = .next u ∧ f u
    (∀ (i : Fin 8) v, ((s.die s.primary).running = true → v ≤ s.limits[i] → inRange i.val v = true →
        writes (.sluice i v) fun u => u.sluice[i] = v) ∧
      (s.limits[i] < v → exec (.registerWrite (.sluice i v)) s = .next s)) ∧
    (∀ d hart, d < Config.dies → ∀ h : hart < 8, (s.die d).running = true →
      writes (.report d hart) fun u => (u.die d).reports[hart] = s.timebase) ∧
    (∀ id o n prio d ring block key, inletAllowed s id o n prio d ring = true →
      writes (.inlet id o n prio d ring block key) fun u => mget u.inlets id =
        some { owner := o, n := n, prio := prio, die := d, ring := ring, block := block, key := key }) ∧
    (∀ o phys, writes (.root o phys) fun u => (u.owner o).root = phys) ∧
    (∀ o block, writes (.trapQueue o block) fun u => (u.owner o).tq = block ∧ (u.owner o).tqRecs = []) ∧
    (∀ o b, writes (.trapPolicy o b) fun u => (u.owner o).agentPolicy = b) ∧
    (∀ o b, writes (.deterministic o b) fun u => (u.owner o).det = b) ∧
    (∀ f o, (o ≠ 0 ∧ kernelRegion (f * 4096) = true → exec (.registerWrite (.frameOwner f o)) s = .next s) ∧
      (o = 0 ∨ kernelRegion (f * 4096) = false → writes (.frameOwner f o) fun u => mget u.frames f = some o ∧
        (∀ f', f' ≠ f → mget u.frames f' = mget s.frames f') ∧
        (let key := (mget s.coded f).getD 0
         (o = 0 ∨ key = o ∨ key = 0 ∧ frameWritten s f = false → u.mem = s.mem) ∧ mget u.coded f = if o = 0 then mget s.coded f else some o) ∧
        ∀ a, a / 4096 ≠ f → memByte u.mem a = memByte s.mem a)) ∧
    (∀ f, writes (.lock f) fun u => f ∈ u.locks ∧ ∀ f', f' ≠ f → (f' ∈ u.locks ↔ f' ∈ s.locks))

/-- R361 to R364 and the registers that Firn writes. The model's own are the successor in promotion (entry 78), the log's bytes
(entries 77 and 99), the watchdog's harts (entry 118), limits of Sluice above the table (entry 79), the kernel-reserved frames
(entry 90), and whose key a frame's bytes are under (entry 100). -/
def Obligations.RecoveryAndRegisters : Prop := Claims.Recovery ∧ Claims.RegisterWrites

/-! ### Reset, assignment and the edge -/

/-- R385 to R387: a reset leaves no memory and no thread; with a good table it boots with the table's values, else it
stays stopped with the first failing code. A change of life-cycle state wipes too. By the model's choice the timebase starts at 0
at a reset (entry 3), and a change of life-cycle state sets the fuse and leaves the module stopped (entry 80). -/
def Sys2Proof.Claims.ResetAndBoot : Prop :=
  ∀ (s : State),
    let w := wipeModule s
    let t := (w.die 0).flash
    (∃ u, exec .moduleReset s = .next u ∧ u.mem = [] ∧ u.threads = [] ∧ u.traffic = [] ∧ u.frames = [] ∧ u.pause = none ∧
      u.timebase = 0 ∧ u.bootStatus = bootCode w ∧ (u.booted = true ↔ bootCode w = 0) ∧
      (bootCode w = 0 → u.log2E = pkField t 24 1 ∧ u.log2W = pkField t 25 1 ∧ u.rollback = pkField t 8 8 ∧
        u.revision = pkField t 8 8 ∧ u.primary = pkField t 16 1 ∧ (∀ i : Fin 8, u.sluice[i] = pkField t (28 + 4 * i.val) 4) ∧
        ∀ d, d < Config.dies → (u.die d).running = true ∧ (u.die d).measure = shake256 (w.die d).image 64)) ∧
    (∀ x, ∃ u, exec (.lifeCycleStateChange x) s = .next u ∧ u.mem = [] ∧ u.threads = [] ∧ u.fusedLife = x ∧
      u.booted = false)

/-- R10, R385, R389 to R391: a berth whose former owner has no live launch is wiped and joins its new owner's berths; the
first one draws the owner's key, by the model's choice at that moment (entry 100). An owner that is unassigned keeps no frame,
no byte of them, no key and no inlet; by the model's choice one that loses its last berth is unassigned (entry 81). -/
def Sys2Proof.Claims.Assignment : Prop :=
  ∀ (s : State) (o b : Nat), 1 ≤ o → o ≤ Config.owners → b < Config.berths → (s.owner o).tdisp = .unlocked →
    let old := berthOwner s b
    let last := old != 0 && (s.owner old).berths == [b]
    let rest := if old = o then (s.owner o).berths.filter (· != b) else (s.owner o).berths
    (s.booted = true → (old = 0 ∨ ownerQuiet s old = true ∧ (s.owner old).tdisp = .unlocked) →
      ∃ u, exec (.berthAssignment o b) s = .next u ∧ (u.owner o).berths = rest ++ [b] ∧ u.assigned = (s.assigned || rest.isEmpty) ∧
      (old ≠ 0 → old ≠ o → b ∉ (u.owner old).berths) ∧
      (rest = [] → mget u.keys o = some (Config.randomKey s.draws)) ∧
      (∀ a, inBerth b a = true → memByte u.mem a = 0) ∧
      (∀ a, inBerth b a = false → memByte u.mem a = if last = true ∧ inFrames s old a = true then 0 else memByte s.mem a) ∧
      (last = true → (∀ f, mget u.frames f ≠ some old) ∧ (old ≠ o → mget u.keys old = none) ∧
        ∀ i x, mget u.inlets i = some x → x.owner ≠ old) ∧
      (∀ g, berthOf (tileOf g) = b → u.thread g = {}) ∧ ∀ g, berthOf (tileOf g) ≠ b → u.thread g = s.thread g) ∧
    (ownerQuiet s o = true → ∃ u, exec (.ownerUnassignment o) s = .next u ∧ (u.owner o).berths = [] ∧ mget u.keys o = none ∧
      (∀ f, mget u.frames f ≠ some o) ∧ (∀ a, inFrames s o a = true → memByte u.mem a = 0) ∧
      (∀ c ∈ (s.owner o).berths, ∀ a, inBerth c a = true → memByte u.mem a = 0) ∧
      ∀ i x, mget u.inlets i = some x → x.owner ≠ o)

/-- R385 to R387, R389 to R391: reset, boot, assignment and unassignment. -/
def Obligations.ResetAndAssignment : Prop := Claims.ResetAndBoot ∧ Claims.Assignment

/-- R388: the responses of a die's SPDM responder, by the codes of SPDM 1.3 (entry 9, the model's own reading). -/
def Obligations.Attestation : Prop :=
  ∀ (s : State) (d : Nat), d < Config.dies →
    let x := s.die d
    let replies := fun (i : Instr) (code : Byte) (body : List Byte) (next : Spdm) =>
      ∃ u, exec i s = .next u ∧ (u.die d).answers = (0x13 :: code :: body) :: x.answers ∧ (u.die d).spdm = next
    replies (.getVersion d) 0x04 [0x13] .connected ∧
    replies (.spdmUnsupportedRequest d) 0x7F [7] x.spdm ∧
    (x.spdm = .none → ∀ i ∈ [.getCapabilities d, .getDigests d, .getCertificate d, .finish d, .endSession d,
      .negotiateAlgorithms d true true, .getMeasurements d 1, .challenge d 0, .keyExchange d 0], replies i 0x7F [4] .none) ∧
    (x.spdm ≠ .none →
      replies (.getCapabilities d) 0x61 [] x.spdm ∧
      replies (.negotiateAlgorithms d true true) 0x63 algorithmsBody x.spdm ∧
      replies (.getDigests d) 0x01 (shake256 (Config.certificate d) 64) x.spdm ∧
      replies (.getCertificate d) 0x02 (Config.certificate d) x.spdm ∧
      (∀ n, replies (.challenge d n) 0x03 (Config.falconSign d (x.transcript ++ bytesOfNat 32 n.toNat)) x.spdm) ∧
      replies (.getMeasurements d 2) 0x60 (shake256 x.flash 64) x.spdm ∧
      replies (.getMeasurements d 3) 0x60 x.measure x.spdm ∧
      (∀ n, replies (.keyExchange d n) 0x64 (bytesOfNat 64 (Config.randomKey s.draws).toNat ++
        Config.falconSign d (x.transcript ++ bytesOfNat 32 n.toNat)) .exchanged) ∧
      (x.spdm = .exchanged → replies (.finish d) 0x65 [] .session) ∧
      (x.spdm = .session → replies (.endSession d) 0x6C [] .connected))

/-- R389: the states of an owner's interface and its answers. R393: a request lost on a link completes with zero and a data
error; a copy's read that is lost counts as uncorrectable, an inlet's COPY and a floe's memory stop note their next access as
lost. That a lost store is not performed is the model's choice (entry 82), and so is what a request answers in a state that the
table has no row for, or while a STOP waits for the end of launches (entry 101). -/
def Obligations.InterfacesAndLinks : Prop :=
  ∀ (s : State) (o : Nat), 1 ≤ o → o ≤ Config.owners →
    let x := (s.owner o).tdisp
    let moves := fun (i : Instr) (y : Tdisp) => ∃ u, exec i s = .next u ∧ (u.owner o).tdisp = y
    let answers := fun (i : Instr) (ok : Bool) (y : Tdisp) => ∃ u, exec i s = .next u ∧ (u.owner o).tdisp = y ∧
      (u.owner o).reply = some ok
    (x = .unlocked → answers (.lockInterfaceRequest o) true .locked) ∧
    (x ≠ .unlocked → answers (.lockInterfaceRequest o) false x) ∧
    (x = .locked → (s.owner o).closing = false → answers (.startInterfaceRequest o) true .run) ∧
    (x ≠ .locked ∨ (s.owner o).closing = true → answers (.startInterfaceRequest o) false x) ∧
    (x = .unlocked → answers (.stopInterfaceRequest o) false x) ∧
    (x = .run → moves (.tdispInterfaceError o) .error) ∧
    (x ≠ .unlocked → ownerQuiet s o = true → ∃ u, exec (.stopInterfaceRequest o) s = .next u ∧
      (u.owner o).tdisp = .unlocked ∧ (u.owner o).reply = some true ∧ (∀ a, inFrames s o a = true → memByte u.mem a = 0) ∧
      ∀ c ∈ (s.owner o).berths, ∀ a, inBerth c a = true → memByte u.mem a = 0) ∧
    (∀ r : Req, findReq s r.id = some r → overLink r.key = true → r.stage = .sent → blockedIn r s.traffic = false →
      (r.by_ = .ordinary ∨ r.by_ = .relaxed ∨ r.by_ = .fetch) → ∃ u, exec (.linkRequestLost r.id) s = .next u ∧ u.mem = s.mem ∧
        findReq u r.id = some { r with stage := .performed, data := 0 } ∧
        (u.owner r.owner).data = bump (s.owner r.owner).data) ∧
    (∀ (T ch : Nat) (y : Copy), ch < 4 → findReq s y.n = none → y ∈ ((s.tile T).chan ch).runs → y.readsLink s T = true →
      ∃ u, exec (.linkRequestLost y.n) s = .next u ∧ { y with lost := true } ∈ ((u.tile T).chan ch).runs ∧ u.mem = s.mem) ∧
    (∀ f : Floe, findReq s f.id = none → f ∈ s.floes → f.overLink s = true →
      ∃ u, exec (.linkRequestLost f.id) s = .next u ∧ { f with lost := true } ∈ u.floes ∧ u.mem = s.mem) ∧
    ∀ (id i : Nat) (z : Inlet) (src dst : Word) (len next : Nat) (sig : Word) (err : Nat) (stuck : Bool) (link : CopyLink),
      mget s.inlets id = some z → findReq s link.n = none → .copy i src dst len next sig err stuck link ∈ z.live →
      Pkt.crossesLink s z.owner (.copy i src dst len next sig err stuck link) = true →
      ∃ u, exec (.linkRequestLost link.n) s = .next u ∧ u.mem = s.mem ∧
        .copy i src dst len next sig err stuck { link with lost := true } ∈ (u.inlet id).live

/-! ### Encodings, steps, invariants, frames -/

/-- R31 to R38, R49 to R66: decoding the encoding of a well-formed instruction gives it back, every operand at every value
that its encoding admits. -/
def Obligations.DecodeOfEncode : Prop :=
  ∀ (i : Instr) (h : BitVec 16) (t : BitVec 64), i.wf = true → encode i = some (h, t) → decode h t = .ok i

/-- R32, R50: what decodes is well-formed, and its encoding is the bits that were read; a reserved OP decodes to itself.
No two instructions have one encoding. -/
def Obligations.EncodeOfDecode : Prop :=
  ∀ (h : BitVec 16) (t : BitVec 64) (i : Instr),
    (decode h t = .ok i → i.wf = true ∧
      (reservedOp (headOp h) = false → encode i = some (h, t)) ∧
      (reservedOp (headOp h) = true → i = .reservedHead h)) ∧
    ∀ j, i.wf = true → j.wf = true → encode i = some (h, t) → encode j = some (h, t) → i = j

/-- A thread whose turn is next in its core's rotation runs the instruction that its head decodes to; so does the slot that
the barrel of the focused core chooses; an event of the agenda happens, and STOPs that can end then do (R389), or it is held
at a gated tile (R316). `turnState` is the state in which a turn is taken: what the core's physical slots owe has been done
(R323), and `afterTurn` delivers the `rput` that waited for a read which the turn has made (R178). The agenda and the focus are
the model's own (entry 13). -/
def Obligations.StepRunsDecoded : Prop :=
  ∀ (s : State) (i : Instr) (l : List Move),
    let s' := { s with agenda := l }
    (∀ g ln, s.agenda = .thread g :: l →
      let u := turnState s' g
      myTurn u g = true → (u.thread g).line = some ln → lineInstr ln (headIdx (u.thread g).pc) = .ok i →
      step s = afterTurn g (exec i u)) ∧
    (∀ k ln, s.agenda = [] → tileClosed s (s.focus / 4) = false →
      let v := settleSlots s s.focus
      let g := 8 * s.focus + k
      let u := turnState v g
      barrelSlot v s.focus (v.core s.focus).clock = some k → myTurn u g = true → (u.thread g).line = some ln →
      lineInstr ln (headIdx (u.thread g).pc) = .ok i → step s = afterTurn g (exec i u)) ∧
    (s.agenda = .event i :: l → encode i = none →
      (heldAt s' i = none → ∀ u, exec i s' = .next u → step s = .next (settleOwners (releaseHeld u))) ∧
      ∀ T, heldAt s' i = some T → step s = .next (holdEvent s' T i))

/-- The memory keeps its canonical form in every step: addresses rise strictly, and no listed byte is 0. -/
def Obligations.MemoryStaysCanonical : Prop :=
  ∀ s s' : State, memWf s.mem = true → step s = .next s' → memWf s'.mem = true

/-- R385 and the rules that give reset values: after reset memory reads zero, no thread is placed, no owner is assigned,
every register is 0, and the matrix scale is 1.0. By the model's choice every general, vector and mask register is 0 and full
before a placement (entry 15), the timebase starts at 0 (entry 3), the boot status before boot is 0 (entry 4), and the segment
registers hold no segment before a placement (entry 6). -/
def Obligations.ResetState : Prop :=
  let s := State.reset
  memWf s.mem = true ∧ (∀ a, memByte s.mem a = 0) ∧ (∀ g, live s g = false) ∧
    (∀ g r, ((s.thread g).reg r).val = 0 ∧ ((s.thread g).reg r).full = true) ∧
    (∀ g, (s.thread g).rb = 0 ∧ (s.thread g).handler = 0 ∧ controlWord (s.thread g) = 0 ∧ (s.thread g).k1 = 0 ∧
      (s.thread g).k2 = 0 ∧ (s.thread g).k3 = 0 ∧ (s.thread g).jcell = none) ∧
    (∀ g (k : Fin 8), (s.thread g).segs[k] = { base := 0, limit := 0, code := 0x30 } ∧
      (s.thread g).w[k] = { val := 0, full := true }) ∧
    (∀ g (k : Fin 4), (s.thread g).m[k] = { val := 0, full := true }) ∧
    (∀ T, (s.tile T).mx.ms = 0x3F800000 ∧ (s.tile T).mx.lease = none ∧ (s.tile T).ballast = 0 ∧
      ∀ b : Fin 24, (s.tile T).fmt[b] = 0) ∧
    (∀ o, (s.owner o).berths = [] ∧ errWord (s.owner o).data (s.owner o).misuse = 0 ∧ (s.owner o).tdisp = .unlocked) ∧
    (∀ d, (s.die d).faults = [] ∧ (s.die d).phase = 0 ∧ (s.die d).tlb2 = []) ∧
    s.epochs = 0 ∧ s.pause = none ∧ s.calib = none ∧ s.bootStatus = 0 ∧ s.timebase = 0

/-- R33, R34, R82, R174, R176, R320, R352: what a register field names. g0 reads as zero and discards; g1 to g31 read their
value, and zero bits where they are uncorrectable; g16 to g23 rotate; an inbound
queue with a neighbour, or whose channel is bound, is read at its head, and an outbound one is written; i5 reads the completed
pauses; the other fields are illegal operands. -/
def Obligations.RegisterFields : Prop :=
  ∀ (s : State) (g : Nat) (n : RegNum),
    let t := s.thread g
    let rb := t.rb.toNat
    let k := n.toNat
    let c := s.core (coreOf g)
    let illegal : Stop := .owner 3 k 0
    let reads := fun (v : Word) => ∃ x, srcField s g n = .ok x ∧ srcValues s g [] [x] = [v]
    (n = 0 → reads 0 ∧ dstField s g n = .ok .none ∧ ∀ v c, writeLater s g .none v c = s) ∧
    (∀ r : Fin 32, 1 ≤ n.toNat → n.toNat < 32 →
      r.val = (if 16 ≤ n.toNat ∧ n.toNat < 24 then 16 + (n.toNat - 16 + rb) % 8 else n.toNat) →
      reads (if (t.reg r).bad then 0 else (t.reg r).val) ∧ dstField s g n = .ok (.reg r)) ∧
    (48 ≤ n.toNat → reads (if n.toNat = 53 then BitVec.ofNat 64 s.epochs else t.ids.toList.getD (n.toNat - 48) 0) ∧
      dstField s g n = .error (.owner 3 n.toNat 0)) ∧
    (32 ≤ k → k < 36 → dstField s g n = .error illegal ∧
      ((neighbour (tileOf g) (k - 32)).isSome = true → reads ((queueEntries s (coreOf g) (k - 32)).getD 0 0)) ∧
      (neighbour (tileOf g) (k - 32) = none → srcField s g n = .error illegal)) ∧
    (36 ≤ k → k < 40 → srcField s g n = .error illegal ∧
      (∀ d : Fin 4, k = 36 + d.val → (neighbour (tileOf g) d.val).isSome = true → dstField s g n = .ok (.chain d)) ∧
      (neighbour (tileOf g) (k - 36) = none → dstField s g n = .error illegal)) ∧
    (k = 40 → dstField s g n = .error illegal ∧ (c.inb.isSome = true → reads (c.infifo.getD 0 0)) ∧
      (c.inb = none → srcField s g n = .error illegal)) ∧
    (k = 41 → srcField s g n = .error illegal ∧ (c.outb.isSome = true → dstField s g n = .ok .actor) ∧
      (c.outb = none → dstField s g n = .error illegal)) ∧
    (42 ≤ k → k < 48 → srcField s g n = .error illegal ∧ dstField s g n = .error illegal)

/-- R99, R44, R45: an instruction whose only effect is one result, when its step takes no trap, leaves the value of every
general register but its destination, every other register of its thread, every other thread, and everything of the
module but cores, operations on remote registers, the request for the next line (R81) or for the first table of the walk for
it (R333) and the counts of the uncorrectable registers that it reads (R352). Memory is among what it leaves. -/
def Obligations.ResultFrame : Prop :=
  ∀ (s u : State) (i : Instr) (d : RegNum), resultOf i = some d → exec i s = .next u → Untrapped s u →
    (∃ k, ((∀ r, ((s.thread s.cur).reg r).bad = false) → k = 0) ∧
      let s' := dataErrors s (whoIn s s.cur) k
      SameModule s' u ∧ SameRest (s'.thread s.cur) (u.thread s.cur)) ∧
    (u.traffic = s.traffic ∨ ∃ r, u.traffic = s.traffic ++ [r] ∧ prefetch r = true ∧ r.g = s.cur) ∧
    (u.thread s.cur).k1 = (s.thread s.cur).k1 ∧ (u.thread s.cur).k2 = (s.thread s.cur).k2 ∧
    (u.thread s.cur).k3 = (s.thread s.cur).k3 ∧
    (∀ r, dstField s s.cur d ≠ .ok (.reg r) → regVal u s.cur r = regVal s s.cur r) ∧
    ∀ g, g ≠ s.cur → u.thread g = s.thread g

/-- R130, R146: issuing an access, when its step takes no trap, changes no byte of memory and the value of no general
register (the destination is filled when the access completes); it leaves every other register of its thread, every other
thread, and everything of the module but cores, operations on remote registers, the request that it sends and the counts of
the uncorrectable registers that it reads (R352). When a bank serves it, no register of any thread changes. -/
def Obligations.AccessFrame : Prop :=
  ∀ (s u : State) (i : Instr),
    (accesses i = true → exec i s = .next u → Untrapped s u →
      (∃ k, ((∀ r, ((s.thread s.cur).reg r).bad = false) → k = 0) ∧
        let s' := dataErrors s (whoIn s s.cur) k
        SameModule s' u ∧ SameRest (s'.thread s.cur) (u.thread s.cur)) ∧
      (u.traffic = s.traffic ∨ ∃ r, u.traffic = s.traffic ++ [r] ∧ r.g = s.cur) ∧
      (∀ r, regVal u s.cur r = regVal s s.cur r) ∧ ∀ g, g ≠ s.cur → u.thread g = s.thread g) ∧
    ∀ r : Req, Served s r → exec (.bankAccessPerform r.id) s = .next u → ∀ g, u.thread g = s.thread g

/-- Words that the spec writes out, one or two of each class, decode to the instructions they stand for (spec/03, 06, 10, 14,
17, 20 to 24; the heads of the amo, barto, mmas and mdrain words also by spec/09 and 13). -/
def Obligations.WrittenWords : Prop :=
  decode 0x0008 0 = .ok (.rx) ∧
  decode 0xC018 0x00000000000012B5 = .ok (.bc 0 .eq 53 10 ⟨0, 1⟩) ∧
  decode 0xC048 0x000000000000903B = .ok (.loop 0 false 59 ⟨0, 9⟩) ∧
  decode 0x8100 0x00005107 = .ok (.add 0 false 7 4 5) ∧
  decode 0xB148 0x0003BE85 = .ok (.rem 6 false 5 58 59) ∧
  decode 0xC1E1 0x0000A3B195000005 = .ok (.liHi 0 5 0xA3B195) ∧
  decode 0x8202 0x00022084 = .ok (.ldM 0 .w 4 ⟨0, true, 0, 2, 2⟩) ∧
  decode 0xC21A 0x000000000034200C = .ok (.ldp 0 false 12 13 ⟨0, false, 0, 2, 0⟩) ∧
  decode 0x8230 0x00EBDF00 = .ok (.sset 0 2 60 61 7) ∧
  decode 0xC280 0xC000000300082000 = .ok (.amo 0 .add true 0 2 ⟨0x300, false, 0, 2, 0⟩) ∧
  decode 0x42C0 0x025A = .ok (.barto 0 26 9) ∧
  decode 0x8310 0x00642280 = .ok (.rput 0 10 2 25) ∧
  decode 0xC325 0x0000000002207142 = .ok (.cpy2 0 1 true 2 5 7 8 2) ∧
  decode 0xC4D0 0x0000000103404001 = .ok (.vins 0 1 1 13 1) ∧
  decode 0xC430 0x000000000000408B = .ok (.vmul 0 1 3 1 2 0 ⟨false, 0⟩) ∧
  decode 0xC52C 0x0000000000180141 = .ok (.mmas 0 4 true 6 ⟨0, false, 0, 0, 5⟩) ∧
  decode 0xC530 0x0000050000000000 = .ok (.mdrainN 0 false ⟨0x50000, false, 0, 0, 0⟩) ∧
  decode 0xC600 0x0000000000062185 = .ok (.spawn 0 5 6 ⟨3, 2⟩) ∧
  decode 0x86B8 0x00048100 = .ok (.flins 0 4 8 1) ∧
  decode 0x8692 0x0010010C = .ok (.flget 0 .w 12 4 4) ∧
  decode 0x4711 0x0005 = .ok (.dstate 0 true 5) ∧
  decode 0x8798 0x00100007 = .ok (.rdsys 0 7 4)
end

