-- ==== Sys2Proof/Laws/Lanes.lean ====
section
/-! SUPPORT. Laws of lanes (R223): what a register packed from lanes holds in each of them, that an encoded value fits its
lane (R208, R209), what an instruction that works lane by lane does, and the root of a tree (R220). -/

namespace Sys2Proof.Machine

/-! ### Packing and unpacking -/

@[simp] theorem lanesOf_length (n : Nat) (v : BitVec 2048) : (lanesOf n v).length = 2048 / n := by simp [lanesOf]

/-- Lane `k` of a register. -/
theorem lanesOf_getD (n : Nat) (v : BitVec 2048) (k d : Nat) (h : k < 2048 / n) :
    (lanesOf n v).getD k d = v.toNat / 2 ^ (n * k) % 2 ^ n := by
  simp [lanesOf, List.getD_eq_getElem?_getD, h]

/-- A lane is narrower than its width. -/
theorem lanesOf_lt {n : Nat} {v : BitVec 2048} {x : Nat} (h : x ∈ lanesOf n v) : x < 2 ^ n := by
  obtain ⟨k, -, rfl⟩ := List.mem_map.mp h
  exact Nat.mod_lt _ (Nat.two_pow_pos n)

theorem packNat_lt (n : Nat) (l : List Nat) (h : ∀ x ∈ l, x < 2 ^ n) :
    l.foldr (fun x acc => x + 2 ^ n * acc) 0 < 2 ^ (n * l.length) := by
  induction l with
  | nil => simp
  | cons x l ih =>
    have h1 := h x (by simp)
    have h2 := ih fun y hy => h y (by simp [hy])
    have h3 : n * (x :: l).length = n + n * l.length := by simp [Nat.mul_add, Nat.add_comm]
    rw [List.foldr_cons, h3, Nat.pow_add]
    generalize l.foldr (fun x acc => x + 2 ^ n * acc) 0 = y at h2 ⊢
    calc x + 2 ^ n * y < 2 ^ n + 2 ^ n * y := by omega
      _ = 2 ^ n * (y + 1) := by rw [Nat.mul_add, Nat.mul_one, Nat.add_comm]
      _ ≤ 2 ^ n * 2 ^ (n * l.length) := Nat.mul_le_mul_left _ h2

theorem packNat_lane (n : Nat) (l : List Nat) (h : ∀ x ∈ l, x < 2 ^ n) (i : Nat) (hi : i < l.length) :
    l.foldr (fun x acc => x + 2 ^ n * acc) 0 / 2 ^ (n * i) % 2 ^ n = l.getD i 0 := by
  induction l generalizing i with
  | nil => simp at hi
  | cons x l ih =>
    have hx := h x (by simp)
    have hp := Nat.two_pow_pos n
    cases i with
    | zero => simp [Nat.mod_eq_of_lt hx]
    | succ i =>
      have h3 : n * (i + 1) = n + n * i := by rw [Nat.mul_add, Nat.mul_one, Nat.add_comm]
      rw [List.foldr_cons, h3, Nat.pow_add, ← Nat.div_div_eq_div_mul, Nat.add_mul_div_left _ _ hp,
        Nat.div_eq_of_lt hx, Nat.zero_add, List.getD_cons_succ]
      exact ih (fun y hy => h y (by simp [hy])) i (by simpa using hi)

/-- Lane `i` of a register packed from lanes that fit. -/
theorem packLanes_lane (n : Nat) (l : List Nat) (h : ∀ x ∈ l, x < 2 ^ n) (hn : n * l.length ≤ 2048) (i : Nat)
    (hi : i < l.length) : (packLanes n l).toNat / 2 ^ (n * i) % 2 ^ n = l.getD i 0 := by
  have hl := Nat.lt_of_lt_of_le (packNat_lt n l h) (Nat.pow_le_pow_right (by omega) hn)
  rw [packLanes, BitVec.toNat_ofNat, Nat.mod_eq_of_lt hl, packNat_lane n l h i hi]

/-! ### Encoded values fit -/

/-- An encoded integer fits its width (R209). -/
theorem encodeInt_lt (sg : Bool) (n : Nat) (mode : Mode) (v : Val) : encodeInt sg n mode v < 2 ^ n := by
  have hw : ∀ i : Int, (i % 2 ^ n).toNat < 2 ^ n := fun i => by
    have hp : (0 : Int) < 2 ^ n := by positivity
    have h1 := Int.emod_lt_of_pos i hp
    have h2 := Int.emod_nonneg i (ne_of_gt hp)
    have h3 : ((2 ^ n : Nat) : Int) = 2 ^ n := by simp
    omega
  cases v <;> simp only [encodeInt]
  · exact Nat.two_pow_pos n
  · exact hw _
  · exact hw _

/-- What a floating format's fields must satisfy: a sign, an exponent and a fraction, and a largest exponent that the
exponent field holds. -/
structure FFmt.Fits (f : FFmt) : Prop where
  width : f.bits = f.mbits + f.ebits + 1
  frac : 1 ≤ f.mbits
  exp : 1 ≤ f.ebits
  top : (f.emax + f.bias).toNat + 1 ≤ 2 ^ f.ebits

theorem FFmt.signBit_le (f : FFmt) (s : Bool) : f.signBit s ≤ 2 ^ (f.bits - 1) := by
  cases s <;> simp [signBit]

/-- A sign and a magnitude of the format fit. -/
theorem FFmt.sign_add_lt {f : FFmt} (h : f.Fits) (s : Bool) {x : Nat} (hx : x < 2 ^ (f.bits - 1)) :
    f.signBit s + x < 2 ^ f.bits := by
  have h1 := f.signBit_le s
  have h2 : f.bits = (f.bits - 1) + 1 := by have := h.width; omega
  rw [h2, Nat.pow_succ, Nat.mul_two]
  omega

theorem FFmt.half (f : FFmt) (h : f.Fits) : 2 ^ (f.bits - 1) = 2 ^ f.ebits * 2 ^ f.mbits := by
  rw [h.width, Nat.add_sub_cancel, Nat.pow_add, Nat.mul_comm]

theorem FFmt.eOnes_mul (f : FFmt) (h : f.Fits) : f.eOnes * 2 ^ f.mbits + 2 ^ f.mbits = 2 ^ (f.bits - 1) := by
  have hp := Nat.two_pow_pos f.ebits
  rw [f.half h, eOnes, ← Nat.succ_mul]
  congr 1
  omega

theorem FFmt.nanBits_lt (f : FFmt) (h : f.Fits) : f.nanBits < 2 ^ (f.bits - 1) := by
  have h1 := f.eOnes_mul h
  have h2 := Nat.two_pow_pos (f.bits - 1)
  unfold nanBits
  split
  · have : 2 ^ (f.mbits - 1) < 2 ^ f.mbits := Nat.pow_lt_pow_right (by omega) (by have := h.frac; omega)
    omega
  · omega
  · omega

theorem FFmt.maxBits_lt (f : FFmt) (h : f.Fits) (s : Bool) : f.maxBits s < 2 ^ f.bits := by
  refine f.sign_add_lt h s ?_
  have h1 := f.eOnes_mul h
  have h2 := Nat.two_pow_pos (f.bits - 1)
  have h3 := Nat.two_pow_pos f.mbits
  split <;> omega

theorem FFmt.infBits_lt (f : FFmt) (h : f.Fits) (s : Bool) : f.infBits s < 2 ^ f.bits := by
  unfold infBits
  split
  · refine f.sign_add_lt h s ?_
    have h1 := f.eOnes_mul h
    have h3 := Nat.two_pow_pos f.mbits
    omega
  · exact Nat.lt_of_lt_of_le (f.nanBits_lt h) (Nat.pow_le_pow_right (by omega) (by omega))
  · exact f.maxBits_lt h s

theorem FFmt.overflow_lt (f : FFmt) (h : f.Fits) (mode : Mode) (s : Bool) : f.overflow mode s < 2 ^ f.bits := by
  cases mode <;> cases s <;> simp [overflow, f.infBits_lt h, f.maxBits_lt h]

/-- A packed value that does not exceed the format fits. -/
theorem FFmt.pack_lt (f : FFmt) (h : f.Fits) (s : Bool) (n : Nat) (q : Int) (hq : f.emin - f.mbits ≤ q)
    (he : f.exceeds n q = false) : f.pack s n q < 2 ^ f.bits := by
  unfold pack
  by_cases hn : n = 0
  · simpa [hn] using f.sign_add_lt h s (Nat.two_pow_pos (f.bits - 1))
  simp only [hn, if_false]
  have hl : n < 2 ^ (Nat.log2 n + 1) := Nat.lt_log2_self
  have hm := Nat.two_pow_pos f.mbits
  split
  next hlt =>
    refine f.sign_add_lt h s ?_
    have h1 : n * 2 ^ (q - (f.emin - f.mbits)).toNat < 2 ^ (Nat.log2 n + 1) * 2 ^ (q - (f.emin - f.mbits)).toNat :=
      Nat.mul_lt_mul_of_pos_right hl (Nat.two_pow_pos _)
    rw [← Nat.pow_add] at h1
    refine Nat.lt_of_lt_of_le h1 (Nat.pow_le_pow_right (by omega) ?_)
    have := h.width
    omega
  next hge =>
    have htop : (Nat.log2 n : Int) + q ≤ f.emax := by
      have := he
      simp only [exceeds, Bool.and_eq_false_iff, Bool.or_eq_false_iff, bne_eq_false_iff_eq, hn, false_or,
        decide_eq_false_iff_not, not_lt] at this
      exact this.1
    rw [Nat.add_assoc]
    refine f.sign_add_lt h s ?_
    have h1 : ((Nat.log2 n : Int) + q + f.bias).toNat + 1 ≤ 2 ^ f.ebits := by have := h.top; omega
    have h2 : (if Nat.log2 n ≤ f.mbits then n * 2 ^ (f.mbits - Nat.log2 n) else n / 2 ^ (Nat.log2 n - f.mbits)) <
        2 ^ f.mbits * 2 := by
      rw [← Nat.pow_succ]
      split
      next hle =>
        have : n * 2 ^ (f.mbits - Nat.log2 n) < 2 ^ (Nat.log2 n + 1) * 2 ^ (f.mbits - Nat.log2 n) :=
          Nat.mul_lt_mul_of_pos_right hl (Nat.two_pow_pos _)
        rwa [← Nat.pow_add, show Nat.log2 n + 1 + (f.mbits - Nat.log2 n) = f.mbits + 1 by omega] at this
      next hgt =>
        rw [Nat.div_lt_iff_lt_mul (Nat.two_pow_pos _), ← Nat.pow_add,
          show f.mbits + 1 + (Nat.log2 n - f.mbits) = Nat.log2 n + 1 by omega]
        exact hl
    rw [f.half h]
    calc _ < ((Nat.log2 n : Int) + q + f.bias).toNat * 2 ^ f.mbits + 2 ^ f.mbits := by omega
      _ = (((Nat.log2 n : Int) + q + f.bias).toNat + 1) * 2 ^ f.mbits := by rw [Nat.succ_mul]
      _ ≤ 2 ^ f.ebits * 2 ^ f.mbits := Nat.mul_le_mul_right _ h1

/-- An encoded value fits the format (R207, R208). -/
theorem FFmt.encode_lt (f : FFmt) (h : f.Fits) (mode : Mode) (flush nsat : Bool) (v : Val) :
    f.encode mode flush nsat v < 2 ^ f.bits := by
  have hs : ∀ s, f.signBit s < 2 ^ f.bits := fun s => by simpa using f.sign_add_lt h s (Nat.two_pow_pos (f.bits - 1))
  cases v with
  | nan => exact Nat.lt_of_lt_of_le (f.nanBits_lt h) (Nat.pow_le_pow_right (by omega) (by omega))
  | inf s => simp only [encode]; split_ifs <;> first | exact f.infBits_lt h s | exact f.maxBits_lt h s
  | fin s m e k =>
    simp only [encode]
    split
    · exact hs s
    · have hq : f.emin - f.mbits ≤ (if m = 0 then f.emin - f.mbits else f.quantum m e) := by
        split
        · omega
        · exact le_max_right _ _
      generalize (if m = 0 then f.emin - f.mbits else f.quantum m e) = q at hq ⊢
      generalize roundQ mode s m e k q = n
      split
      · split
        · exact f.overflow_lt h mode s
        · exact f.maxBits_lt h s
      next he =>
        split
        · exact hs s
        · exact f.pack_lt h s n q hq (by simpa using he)

/-- The floating formats of lanes and of banks. -/
theorem fits_formats : ∀ f ∈ [fp64, fp32, fp16, bf16, e4m3, e5m2, e2m1], f.Fits := by
  intro f hf
  simp only [List.mem_cons, List.not_mem_nil, or_false] at hf
  obtain rfl | rfl | rfl | rfl | rfl | rfl | rfl := hf <;> exact ⟨by decide, by decide, by decide, by decide⟩

/-- What is encoded for a lane fits it (R39, R208, R209). -/
theorem laneElem_encode_lt (fmt : BitVec 4) (mode : Mode) (flush nsat : Bool) (v : Val) :
    (laneElem fmt).encode mode flush nsat v < 2 ^ laneBits fmt := by
  revert mode flush nsat v
  have hi : ∀ sg n, ∀ (mode : Mode) (flush nsat : Bool) (v : Val), (Elem.int sg n).encode mode flush nsat v < 2 ^ n :=
    fun sg n mode _ _ v => encodeInt_lt sg n mode v
  have hf : ∀ f ∈ [fp64, fp32, fp16, bf16, e4m3, e5m2, e2m1], ∀ (mode : Mode) (flush nsat : Bool) (v : Val),
      (Elem.flt f).encode mode flush nsat v < 2 ^ f.bits :=
    fun f h mode flush nsat v => f.encode_lt (fits_formats f h) mode flush nsat v
  have hc : ∀ c : BitVec 4, (∃ sg, laneElem c = .int sg (laneBits c)) ∨
      ∃ f ∈ [fp64, fp32, fp16, bf16, e4m3, e5m2, e2m1], laneElem c = .flt f ∧ laneBits c = f.bits := by decide
  obtain ⟨sg, h⟩ | ⟨f, hm, h, hb⟩ := hc fmt
  · rw [h]; exact hi sg _
  · rw [h, hb]; exact hf f hm

/-- The floating format of a lane code from 0 to 3 has the lane's width, and what it encodes fits. -/
theorem laneFloat_bits (fmt : BitVec 4) (h : fmt.toNat < 4) : (laneFloat fmt).bits = laneBits fmt ∧ (laneFloat fmt).Fits := by
  have hc : ∀ c : BitVec 4, c.toNat < 4 → (laneFloat c).bits = laneBits c ∧
      laneFloat c ∈ [fp64, fp32, fp16, bf16, e4m3, e5m2, e2m1] := by decide
  exact ⟨(hc fmt h).1, fits_formats _ (hc fmt h).2⟩

/-! ### Lane by lane -/

/-- Active lanes are new, the others old (R223). -/
theorem blend_getD (mask : BitVec 256) (old new : List Nat) (i : Nat) (ho : i < old.length) (hn : i < new.length) :
    (blend mask old new).getD i 0 = if mask.getLsbD i then new.getD i 0 else old.getD i 0 := by
  simp [blend, List.getD_eq_getElem?_getD, ho, hn, List.zip]

theorem blend_length (mask : BitVec 256) (old new : List Nat) :
    (blend mask old new).length = min old.length new.length := by simp [blend]

theorem blend_mem {mask : BitVec 256} {old new : List Nat} {x : Nat} (h : x ∈ blend mask old new) : x ∈ old ∨ x ∈ new := by
  simp only [blend, List.mem_map, Prod.exists] at h
  obtain ⟨a, b, k, hm, rfl⟩ := h
  have hz := List.of_mem_zip (List.fst_mem_of_mem_zipIdx hm : (a, b) ∈ old.zip new)
  split
  · exact .inr hz.2
  · exact .inl hz.1

/-- Lanes of a width that divides the register fill it. -/
theorem lanes_fill (n : Nat) : n * (2048 / n) ≤ 2048 := Nat.mul_div_le 2048 n

/-- A register that keeps its inactive lanes: lane `i` (R223). -/
theorem packBlend_lane (n : Nat) (mask : BitVec 256) (old : BitVec 2048) (new : List Nat) (hl : new.length = 2048 / n)
    (hn : ∀ x ∈ new, x < 2 ^ n) (i : Nat) (hi : i < 2048 / n) :
    (packLanes n (blend mask (lanesOf n old) new)).toNat / 2 ^ (n * i) % 2 ^ n =
      if mask.getLsbD i then new.getD i 0 else old.toNat / 2 ^ (n * i) % 2 ^ n := by
  have hlen : (blend mask (lanesOf n old) new).length = 2048 / n := by simp [blend_length, hl]
  rw [packLanes_lane n _ ?_ (by rw [hlen]; exact lanes_fill n) i (by rw [hlen]; exact hi),
    blend_getD _ _ _ _ (by simpa using hi) (by rw [hl]; exact hi), lanesOf_getD n old i 0 hi]
  intro x hx
  obtain h | h := blend_mem hx
  · exact lanesOf_lt h
  · exact hn x h

/-- What an instruction that works lane by lane writes: `f` of its sources' lanes in the active lanes, where `f` answers
what fits a lane, and the old value in the others. -/
theorem lanewise_lane (t : Thread) (fmt : BitVec 4) (k : BitVec 2) (wd wa wb wc : BitVec 3) (f : Nat → Nat → Nat → Nat)
    (hf : ∀ a b c, a < 2 ^ laneBits fmt → b < 2 ^ laneBits fmt → c < 2 ^ laneBits fmt → f a b c < 2 ^ laneBits fmt) :
    ∃ v, lanewise t fmt k wd wa wb wc f = .w wd v ∧ ∀ i, i < 2048 / laneBits fmt →
      Claims.lane (laneBits fmt) v i = if (maskVal t k).getLsbD i then
          f (Claims.lane (laneBits fmt) (wVal t wa) i) (Claims.lane (laneBits fmt) (wVal t wb) i)
            (Claims.lane (laneBits fmt) (wVal t wc) i)
        else Claims.lane (laneBits fmt) (wVal t wd) i := by
  refine ⟨_, rfl, fun i hi => ?_⟩
  simp only [Claims.lane]
  rw [packBlend_lane _ _ _ _ (by simp) ?_ i hi]
  · simp [List.getD_eq_getElem?_getD, lanesOf, hi, List.zip]
  · intro x hx
    simp only [List.mem_map, Prod.exists] at hx
    obtain ⟨a, b, c, hm, rfl⟩ := hx
    have h1 := List.of_mem_zip hm
    have h2 := List.of_mem_zip h1.1
    exact hf a b c (lanesOf_lt h2.1) (lanesOf_lt h2.2) (lanesOf_lt h1.2)

/-- Bit `i` of a mask register from Booleans. -/
theorem packMask_getLsbD (l : List Bool) (i : Nat) (h : i < 256) : (packMask l).getLsbD i = l.getD i false := by
  have hb : ∀ (l : List Bool) i, (l.foldr (fun b acc => (if b then 1 else 0) + 2 * acc) 0 : Nat).testBit i = l.getD i false := by
    intro l
    induction l with
    | nil => simp
    | cons b l ih =>
      intro i
      cases i with
      | zero => cases b <;> simp [Nat.testBit_zero]
      | succ i =>
        rw [List.foldr_cons, Nat.testBit_succ, List.getD_cons_succ, ← ih i]
        congr 1
        cases b with | false => simp | true => (simp; omega)
  simp only [packMask, BitVec.getLsbD_ofNat, hb, h, decide_true, Bool.true_and]

/-! ### Trees (R220) -/

/-- The value of a node of a tree over its two elements. -/
def treePair (node : Nat → Nat → Nat) : Option Nat → Option Nat → Option Nat
  | some a, some b => some (node a b)
  | a, none => a
  | none, b => b

theorem treeAt_succ (node : Nat → Nat → Nat) (x : Nat → Option Nat) (l m : Nat) :
    Claims.treeAt node x (l + 1) m =
      treePair node (Claims.treeAt node x l (2 * m)) (Claims.treeAt node x l (2 * m + 1)) := by
  rw [Claims.treeAt]
  cases Claims.treeAt node x l (2 * m) <;> cases Claims.treeAt node x l (2 * m + 1) <;> rfl

/-- One level less over the elements of the first level. -/
theorem treeAt_level (node : Nat → Nat → Nat) (x : Nat → Option Nat) (l : Nat) : ∀ m,
    Claims.treeAt node x (l + 1) m =
      Claims.treeAt node (fun j => treePair node (x (2 * j)) (x (2 * j + 1))) l m := by
  induction l with
  | zero => intro m; rw [treeAt_succ]; rfl
  | succ l ih => intro m; rw [treeAt_succ, ih, ih, ← treeAt_succ]

theorem treeLevel_getD (node : Nat → Nat → Nat) : ∀ (l : List (Option Nat)) (j : Nat),
    (treeLevel node l).getD j none = treePair node (l.getD (2 * j) none) (l.getD (2 * j + 1) none)
  | [], j => by simp [treeLevel, treePair]
  | [x], j => by cases j <;> cases x <;> simp [treeLevel, treePair, Nat.mul_add]
  | x :: y :: l, j => by
    cases j with
    | zero => cases x <;> cases y <;> simp [treeLevel, treePair]
    | succ j =>
      have h := treeLevel_getD node l j
      have h1 : 2 * (j + 1) = 2 * j + 1 + 1 := by omega
      have h2 : 2 * (j + 1) + 1 = 2 * j + 1 + 1 + 1 := by omega
      rw [h2, h1]
      cases x <;> cases y <;> simpa [treeLevel] using h

/-- The root after `k` levels is element 0 of level `k` of the tree over the leaves. -/
theorem treeRoot_eq (node : Nat → Nat → Nat) : ∀ (k : Nat) (l : List (Option Nat)),
    treeRoot node k l = Claims.treeAt node (fun j => l.getD j none) k 0
  | 0, l => by cases l <;> simp [treeRoot, Claims.treeAt]
  | k + 1, l => by
    rw [treeRoot, treeRoot_eq node k, treeAt_level]
    congr 1
    exact funext fun j => treeLevel_getD node l j

/-- An element over leaves that are all the identity is the identity. -/
theorem treeAt_none (node : Nat → Nat → Nat) (x : Nat → Option Nat) : ∀ (l m : Nat), (∀ j, 2 ^ l * m ≤ j → x j = none) →
    Claims.treeAt node x l m = none
  | 0, m, h => h m (by simp)
  | l + 1, m, h => by
    have h1 : 2 ^ (l + 1) * m = 2 ^ l * (2 * m) := by rw [Nat.pow_succ, Nat.mul_assoc]
    rw [treeAt_succ, treeAt_none node x l (2 * m) fun j hj => h j (h1 ▸ hj),
      treeAt_none node x l (2 * m + 1) fun j hj => h j (h1 ▸ Nat.le_trans (Nat.mul_le_mul_left _ (by omega)) hj)]
    rfl

/-- Levels above those that the leaves need change nothing. -/
theorem treeAt_add (node : Nat → Nat → Nat) (x : Nat → Option Nat) (k : Nat) (h : ∀ j, 2 ^ k ≤ j → x j = none) : ∀ d,
    Claims.treeAt node x (k + d) 0 = Claims.treeAt node x k 0
  | 0 => rfl
  | d + 1 => by
    have h1 : Claims.treeAt node x (k + d) 1 = none := treeAt_none node x (k + d) 1 fun j hj =>
      h j (Nat.le_trans (by rw [Nat.mul_one]; exact Nat.pow_le_pow_right (by omega) (by omega)) hj)
    rw [← Nat.add_assoc, treeAt_succ, Nat.mul_zero, Nat.zero_add, treeAt_add node x k h d, h1]
    cases Claims.treeAt node x k 0 <;> rfl

end Sys2Proof.Machine
end

