-- ==== Sys2Proof/Laws/State.lean ====
section
/-! SUPPORT. The state record: what each update leaves alone, one conjunct per field, and reading a map after writing
it. -/

namespace Sys2Proof.Machine

theorem mget_mput_same {α : Type} (m : FMap α) (k : Nat) (v : α) : mget (mput m k v) k = some v := by
  induction m with
  | nil => simp [mput, mget]
  | cons p m ih =>
    obtain ⟨k', v'⟩ := p
    unfold mput
    split
    · simp [mget]
    · split
      · simp [mget]
      · simp [mget, *]

theorem mget_mput_other {α : Type} (m : FMap α) {k k' : Nat} (v : α) (h : k' ≠ k) :
    mget (mput m k v) k' = mget m k' := by
  induction m with
  | nil => simp [mput, mget, Ne.symm h]
  | cons p m ih =>
    obtain ⟨a, b⟩ := p
    unfold mput
    split
    · subst_vars
      simp [mget, Ne.symm h]
    · split
      · simp [mget, Ne.symm h]
      · simp [mget, ih]

end Sys2Proof.Machine

namespace Sys2Proof.Machine.State

/-- `setThread` changes threads alone. -/
@[simp] theorem setThread_rest (s : State) (k : Nat) (x : Thread) :
    (s.setThread k x).timebase = s.timebase ∧ (s.setThread k x).work = s.work ∧
    (s.setThread k x).epochs = s.epochs ∧ (s.setThread k x).lastResume = s.lastResume ∧
    (s.setThread k x).pause = s.pause ∧ (s.setThread k x).log2E = s.log2E ∧ (s.setThread k x).sluice = s.sluice ∧
    (s.setThread k x).limits = s.limits ∧ (s.setThread k x).log2W = s.log2W ∧
    (s.setThread k x).revision = s.revision ∧ (s.setThread k x).order = s.order ∧
    (s.setThread k x).pcieRole = s.pcieRole ∧ (s.setThread k x).trapAgent = s.trapAgent ∧
    (s.setThread k x).lifeCycle = s.lifeCycle ∧ (s.setThread k x).rollback = s.rollback ∧
    (s.setThread k x).fusedLife = s.fusedLife ∧ (s.setThread k x).bootStatus = s.bootStatus ∧
    (s.setThread k x).booted = s.booted ∧ (s.setThread k x).calib = s.calib ∧
    (s.setThread k x).primary = s.primary ∧ (s.setThread k x).heartbeat = s.heartbeat ∧
    (s.setThread k x).mem = s.mem ∧ (s.setThread k x).poison = s.poison ∧ (s.setThread k x).locks = s.locks ∧
    (s.setThread k x).frames = s.frames ∧ (s.setThread k x).cores = s.cores ∧ (s.setThread k x).tiles = s.tiles ∧
    (s.setThread k x).dies = s.dies ∧ (s.setThread k x).owners = s.owners ∧
    (s.setThread k x).launches = s.launches ∧ (s.setThread k x).barriers = s.barriers ∧
    (s.setThread k x).inlets = s.inlets ∧ (s.setThread k x).traffic = s.traffic ∧
    (s.setThread k x).rputs = s.rputs ∧ (s.setThread k x).floes = s.floes ∧ (s.setThread k x).agenda = s.agenda ∧
    (s.setThread k x).cur = s.cur ∧ (s.setThread k x).focus = s.focus ∧ (s.setThread k x).nextId = s.nextId ∧
    (s.setThread k x).starts = s.starts ∧ (s.setThread k x).draws = s.draws ∧
    (s.setThread k x).assigned = s.assigned ∧ (s.setThread k x).keys = s.keys ∧
    (s.setThread k x).promotedAt = s.promotedAt ∧ (s.setThread k x).atBank = s.atBank ∧
    (s.setThread k x).served = s.served ∧ (s.setThread k x).serials = s.serials ∧ (s.setThread k x).coded = s.coded ∧
    (s.setThread k x).usedAt = s.usedAt :=
  ⟨rfl, rfl, rfl, rfl, rfl, rfl, rfl, rfl, rfl, rfl, rfl, rfl, rfl, rfl, rfl, rfl, rfl, rfl, rfl, rfl, rfl, rfl, rfl,
    rfl, rfl, rfl, rfl, rfl, rfl, rfl, rfl, rfl, rfl, rfl, rfl, rfl, rfl, rfl, rfl, rfl, rfl, rfl, rfl, rfl,
    rfl, rfl, rfl, rfl, rfl⟩

/-- `modThread` changes threads alone. -/
@[simp] theorem modThread_rest (s : State) (k : Nat) (f : Thread → Thread) :
    (s.modThread k f).timebase = s.timebase ∧ (s.modThread k f).work = s.work ∧
    (s.modThread k f).epochs = s.epochs ∧ (s.modThread k f).lastResume = s.lastResume ∧
    (s.modThread k f).pause = s.pause ∧ (s.modThread k f).log2E = s.log2E ∧ (s.modThread k f).sluice = s.sluice ∧
    (s.modThread k f).limits = s.limits ∧ (s.modThread k f).log2W = s.log2W ∧
    (s.modThread k f).revision = s.revision ∧ (s.modThread k f).order = s.order ∧
    (s.modThread k f).pcieRole = s.pcieRole ∧ (s.modThread k f).trapAgent = s.trapAgent ∧
    (s.modThread k f).lifeCycle = s.lifeCycle ∧ (s.modThread k f).rollback = s.rollback ∧
    (s.modThread k f).fusedLife = s.fusedLife ∧ (s.modThread k f).bootStatus = s.bootStatus ∧
    (s.modThread k f).booted = s.booted ∧ (s.modThread k f).calib = s.calib ∧
    (s.modThread k f).primary = s.primary ∧ (s.modThread k f).heartbeat = s.heartbeat ∧
    (s.modThread k f).mem = s.mem ∧ (s.modThread k f).poison = s.poison ∧ (s.modThread k f).locks = s.locks ∧
    (s.modThread k f).frames = s.frames ∧ (s.modThread k f).cores = s.cores ∧ (s.modThread k f).tiles = s.tiles ∧
    (s.modThread k f).dies = s.dies ∧ (s.modThread k f).owners = s.owners ∧
    (s.modThread k f).launches = s.launches ∧ (s.modThread k f).barriers = s.barriers ∧
    (s.modThread k f).inlets = s.inlets ∧ (s.modThread k f).traffic = s.traffic ∧
    (s.modThread k f).rputs = s.rputs ∧ (s.modThread k f).floes = s.floes ∧ (s.modThread k f).agenda = s.agenda ∧
    (s.modThread k f).cur = s.cur ∧ (s.modThread k f).focus = s.focus ∧ (s.modThread k f).nextId = s.nextId ∧
    (s.modThread k f).starts = s.starts ∧ (s.modThread k f).draws = s.draws ∧
    (s.modThread k f).assigned = s.assigned ∧ (s.modThread k f).keys = s.keys ∧
    (s.modThread k f).promotedAt = s.promotedAt ∧ (s.modThread k f).atBank = s.atBank ∧
    (s.modThread k f).served = s.served ∧ (s.modThread k f).serials = s.serials ∧ (s.modThread k f).coded = s.coded ∧
    (s.modThread k f).usedAt = s.usedAt :=
  ⟨rfl, rfl, rfl, rfl, rfl, rfl, rfl, rfl, rfl, rfl, rfl, rfl, rfl, rfl, rfl, rfl, rfl, rfl, rfl, rfl, rfl, rfl, rfl,
    rfl, rfl, rfl, rfl, rfl, rfl, rfl, rfl, rfl, rfl, rfl, rfl, rfl, rfl, rfl, rfl, rfl, rfl, rfl, rfl, rfl,
    rfl, rfl, rfl, rfl, rfl⟩

@[simp] theorem thread_set (s : State) (k : Nat) (x : Thread) : (s.setThread k x).thread k = x := by
  simp [thread, setThread, mget_mput_same]

theorem thread_set_other (s : State) (k j : Nat) (x : Thread) (h : j ≠ k) : (s.setThread k x).thread j = s.thread j := by
  simp [thread, setThread, mget_mput_other _ _ h]

@[simp] theorem thread_mod (s : State) (k : Nat) (f : Thread → Thread) : (s.modThread k f).thread k = f (s.thread k) := by
  simp [modThread]

theorem thread_mod_other (s : State) (k j : Nat) (f : Thread → Thread) (h : j ≠ k) :
    (s.modThread k f).thread j = s.thread j := thread_set_other s k j _ h

/-- The parties that `setThread` does not change. -/
@[simp] theorem setThread_parties (s : State) (k : Nat) (x : Thread) (j : Nat) :
    (s.setThread k x).core j = s.core j ∧
    (s.setThread k x).tile j = s.tile j ∧
    (s.setThread k x).die j = s.die j ∧
    (s.setThread k x).owner j = s.owner j ∧
    (s.setThread k x).launch j = s.launch j ∧
    (s.setThread k x).barrier j = s.barrier j ∧
    (s.setThread k x).inlet j = s.inlet j :=
  ⟨rfl, rfl, rfl, rfl, rfl, rfl, rfl⟩

/-- The parties that `modThread` does not change. -/
@[simp] theorem modThread_parties (s : State) (k : Nat) (f : Thread → Thread) (j : Nat) :
    (s.modThread k f).core j = s.core j ∧
    (s.modThread k f).tile j = s.tile j ∧
    (s.modThread k f).die j = s.die j ∧
    (s.modThread k f).owner j = s.owner j ∧
    (s.modThread k f).launch j = s.launch j ∧
    (s.modThread k f).barrier j = s.barrier j ∧
    (s.modThread k f).inlet j = s.inlet j :=
  ⟨rfl, rfl, rfl, rfl, rfl, rfl, rfl⟩

/-- `setCore` changes cores alone. -/
@[simp] theorem setCore_rest (s : State) (k : Nat) (x : Core) :
    (s.setCore k x).timebase = s.timebase ∧ (s.setCore k x).work = s.work ∧ (s.setCore k x).epochs = s.epochs ∧
    (s.setCore k x).lastResume = s.lastResume ∧ (s.setCore k x).pause = s.pause ∧ (s.setCore k x).log2E = s.log2E ∧
    (s.setCore k x).sluice = s.sluice ∧ (s.setCore k x).limits = s.limits ∧ (s.setCore k x).log2W = s.log2W ∧
    (s.setCore k x).revision = s.revision ∧ (s.setCore k x).order = s.order ∧
    (s.setCore k x).pcieRole = s.pcieRole ∧ (s.setCore k x).trapAgent = s.trapAgent ∧
    (s.setCore k x).lifeCycle = s.lifeCycle ∧ (s.setCore k x).rollback = s.rollback ∧
    (s.setCore k x).fusedLife = s.fusedLife ∧ (s.setCore k x).bootStatus = s.bootStatus ∧
    (s.setCore k x).booted = s.booted ∧ (s.setCore k x).calib = s.calib ∧ (s.setCore k x).primary = s.primary ∧
    (s.setCore k x).heartbeat = s.heartbeat ∧ (s.setCore k x).mem = s.mem ∧ (s.setCore k x).poison = s.poison ∧
    (s.setCore k x).locks = s.locks ∧ (s.setCore k x).frames = s.frames ∧ (s.setCore k x).threads = s.threads ∧
    (s.setCore k x).tiles = s.tiles ∧ (s.setCore k x).dies = s.dies ∧ (s.setCore k x).owners = s.owners ∧
    (s.setCore k x).launches = s.launches ∧ (s.setCore k x).barriers = s.barriers ∧
    (s.setCore k x).inlets = s.inlets ∧ (s.setCore k x).traffic = s.traffic ∧ (s.setCore k x).rputs = s.rputs ∧
    (s.setCore k x).floes = s.floes ∧ (s.setCore k x).agenda = s.agenda ∧ (s.setCore k x).cur = s.cur ∧
    (s.setCore k x).focus = s.focus ∧ (s.setCore k x).nextId = s.nextId ∧ (s.setCore k x).starts = s.starts ∧
    (s.setCore k x).draws = s.draws ∧ (s.setCore k x).assigned = s.assigned ∧ (s.setCore k x).keys = s.keys ∧
    (s.setCore k x).promotedAt = s.promotedAt ∧ (s.setCore k x).atBank = s.atBank ∧
    (s.setCore k x).served = s.served ∧ (s.setCore k x).serials = s.serials ∧ (s.setCore k x).coded = s.coded ∧
    (s.setCore k x).usedAt = s.usedAt :=
  ⟨rfl, rfl, rfl, rfl, rfl, rfl, rfl, rfl, rfl, rfl, rfl, rfl, rfl, rfl, rfl, rfl, rfl, rfl, rfl, rfl, rfl, rfl, rfl,
    rfl, rfl, rfl, rfl, rfl, rfl, rfl, rfl, rfl, rfl, rfl, rfl, rfl, rfl, rfl, rfl, rfl, rfl, rfl, rfl, rfl,
    rfl, rfl, rfl, rfl, rfl⟩

/-- `modCore` changes cores alone. -/
@[simp] theorem modCore_rest (s : State) (k : Nat) (f : Core → Core) :
    (s.modCore k f).timebase = s.timebase ∧ (s.modCore k f).work = s.work ∧ (s.modCore k f).epochs = s.epochs ∧
    (s.modCore k f).lastResume = s.lastResume ∧ (s.modCore k f).pause = s.pause ∧ (s.modCore k f).log2E = s.log2E ∧
    (s.modCore k f).sluice = s.sluice ∧ (s.modCore k f).limits = s.limits ∧ (s.modCore k f).log2W = s.log2W ∧
    (s.modCore k f).revision = s.revision ∧ (s.modCore k f).order = s.order ∧
    (s.modCore k f).pcieRole = s.pcieRole ∧ (s.modCore k f).trapAgent = s.trapAgent ∧
    (s.modCore k f).lifeCycle = s.lifeCycle ∧ (s.modCore k f).rollback = s.rollback ∧
    (s.modCore k f).fusedLife = s.fusedLife ∧ (s.modCore k f).bootStatus = s.bootStatus ∧
    (s.modCore k f).booted = s.booted ∧ (s.modCore k f).calib = s.calib ∧ (s.modCore k f).primary = s.primary ∧
    (s.modCore k f).heartbeat = s.heartbeat ∧ (s.modCore k f).mem = s.mem ∧ (s.modCore k f).poison = s.poison ∧
    (s.modCore k f).locks = s.locks ∧ (s.modCore k f).frames = s.frames ∧ (s.modCore k f).threads = s.threads ∧
    (s.modCore k f).tiles = s.tiles ∧ (s.modCore k f).dies = s.dies ∧ (s.modCore k f).owners = s.owners ∧
    (s.modCore k f).launches = s.launches ∧ (s.modCore k f).barriers = s.barriers ∧
    (s.modCore k f).inlets = s.inlets ∧ (s.modCore k f).traffic = s.traffic ∧ (s.modCore k f).rputs = s.rputs ∧
    (s.modCore k f).floes = s.floes ∧ (s.modCore k f).agenda = s.agenda ∧ (s.modCore k f).cur = s.cur ∧
    (s.modCore k f).focus = s.focus ∧ (s.modCore k f).nextId = s.nextId ∧ (s.modCore k f).starts = s.starts ∧
    (s.modCore k f).draws = s.draws ∧ (s.modCore k f).assigned = s.assigned ∧ (s.modCore k f).keys = s.keys ∧
    (s.modCore k f).promotedAt = s.promotedAt ∧ (s.modCore k f).atBank = s.atBank ∧
    (s.modCore k f).served = s.served ∧ (s.modCore k f).serials = s.serials ∧ (s.modCore k f).coded = s.coded ∧
    (s.modCore k f).usedAt = s.usedAt :=
  ⟨rfl, rfl, rfl, rfl, rfl, rfl, rfl, rfl, rfl, rfl, rfl, rfl, rfl, rfl, rfl, rfl, rfl, rfl, rfl, rfl, rfl, rfl, rfl,
    rfl, rfl, rfl, rfl, rfl, rfl, rfl, rfl, rfl, rfl, rfl, rfl, rfl, rfl, rfl, rfl, rfl, rfl, rfl, rfl, rfl,
    rfl, rfl, rfl, rfl, rfl⟩

@[simp] theorem core_set (s : State) (k : Nat) (x : Core) : (s.setCore k x).core k = x := by
  simp [core, setCore, mget_mput_same]

theorem core_set_other (s : State) (k j : Nat) (x : Core) (h : j ≠ k) : (s.setCore k x).core j = s.core j := by
  simp [core, setCore, mget_mput_other _ _ h]

@[simp] theorem core_mod (s : State) (k : Nat) (f : Core → Core) : (s.modCore k f).core k = f (s.core k) := by
  simp [modCore]

theorem core_mod_other (s : State) (k j : Nat) (f : Core → Core) (h : j ≠ k) :
    (s.modCore k f).core j = s.core j := core_set_other s k j _ h

/-- The parties that `setCore` does not change. -/
@[simp] theorem setCore_parties (s : State) (k : Nat) (x : Core) (j : Nat) :
    (s.setCore k x).thread j = s.thread j ∧
    (s.setCore k x).tile j = s.tile j ∧
    (s.setCore k x).die j = s.die j ∧
    (s.setCore k x).owner j = s.owner j ∧
    (s.setCore k x).launch j = s.launch j ∧
    (s.setCore k x).barrier j = s.barrier j ∧
    (s.setCore k x).inlet j = s.inlet j :=
  ⟨rfl, rfl, rfl, rfl, rfl, rfl, rfl⟩

/-- The parties that `modCore` does not change. -/
@[simp] theorem modCore_parties (s : State) (k : Nat) (f : Core → Core) (j : Nat) :
    (s.modCore k f).thread j = s.thread j ∧
    (s.modCore k f).tile j = s.tile j ∧
    (s.modCore k f).die j = s.die j ∧
    (s.modCore k f).owner j = s.owner j ∧
    (s.modCore k f).launch j = s.launch j ∧
    (s.modCore k f).barrier j = s.barrier j ∧
    (s.modCore k f).inlet j = s.inlet j :=
  ⟨rfl, rfl, rfl, rfl, rfl, rfl, rfl⟩

/-- `setTile` changes tiles alone. -/
@[simp] theorem setTile_rest (s : State) (k : Nat) (x : Tile) :
    (s.setTile k x).timebase = s.timebase ∧ (s.setTile k x).work = s.work ∧ (s.setTile k x).epochs = s.epochs ∧
    (s.setTile k x).lastResume = s.lastResume ∧ (s.setTile k x).pause = s.pause ∧ (s.setTile k x).log2E = s.log2E ∧
    (s.setTile k x).sluice = s.sluice ∧ (s.setTile k x).limits = s.limits ∧ (s.setTile k x).log2W = s.log2W ∧
    (s.setTile k x).revision = s.revision ∧ (s.setTile k x).order = s.order ∧
    (s.setTile k x).pcieRole = s.pcieRole ∧ (s.setTile k x).trapAgent = s.trapAgent ∧
    (s.setTile k x).lifeCycle = s.lifeCycle ∧ (s.setTile k x).rollback = s.rollback ∧
    (s.setTile k x).fusedLife = s.fusedLife ∧ (s.setTile k x).bootStatus = s.bootStatus ∧
    (s.setTile k x).booted = s.booted ∧ (s.setTile k x).calib = s.calib ∧ (s.setTile k x).primary = s.primary ∧
    (s.setTile k x).heartbeat = s.heartbeat ∧ (s.setTile k x).mem = s.mem ∧ (s.setTile k x).poison = s.poison ∧
    (s.setTile k x).locks = s.locks ∧ (s.setTile k x).frames = s.frames ∧ (s.setTile k x).threads = s.threads ∧
    (s.setTile k x).cores = s.cores ∧ (s.setTile k x).dies = s.dies ∧ (s.setTile k x).owners = s.owners ∧
    (s.setTile k x).launches = s.launches ∧ (s.setTile k x).barriers = s.barriers ∧
    (s.setTile k x).inlets = s.inlets ∧ (s.setTile k x).traffic = s.traffic ∧ (s.setTile k x).rputs = s.rputs ∧
    (s.setTile k x).floes = s.floes ∧ (s.setTile k x).agenda = s.agenda ∧ (s.setTile k x).cur = s.cur ∧
    (s.setTile k x).focus = s.focus ∧ (s.setTile k x).nextId = s.nextId ∧ (s.setTile k x).starts = s.starts ∧
    (s.setTile k x).draws = s.draws ∧ (s.setTile k x).assigned = s.assigned ∧ (s.setTile k x).keys = s.keys ∧
    (s.setTile k x).promotedAt = s.promotedAt ∧ (s.setTile k x).atBank = s.atBank ∧
    (s.setTile k x).served = s.served ∧ (s.setTile k x).serials = s.serials ∧ (s.setTile k x).coded = s.coded ∧
    (s.setTile k x).usedAt = s.usedAt :=
  ⟨rfl, rfl, rfl, rfl, rfl, rfl, rfl, rfl, rfl, rfl, rfl, rfl, rfl, rfl, rfl, rfl, rfl, rfl, rfl, rfl, rfl, rfl, rfl,
    rfl, rfl, rfl, rfl, rfl, rfl, rfl, rfl, rfl, rfl, rfl, rfl, rfl, rfl, rfl, rfl, rfl, rfl, rfl, rfl, rfl,
    rfl, rfl, rfl, rfl, rfl⟩

/-- `modTile` changes tiles alone. -/
@[simp] theorem modTile_rest (s : State) (k : Nat) (f : Tile → Tile) :
    (s.modTile k f).timebase = s.timebase ∧ (s.modTile k f).work = s.work ∧ (s.modTile k f).epochs = s.epochs ∧
    (s.modTile k f).lastResume = s.lastResume ∧ (s.modTile k f).pause = s.pause ∧ (s.modTile k f).log2E = s.log2E ∧
    (s.modTile k f).sluice = s.sluice ∧ (s.modTile k f).limits = s.limits ∧ (s.modTile k f).log2W = s.log2W ∧
    (s.modTile k f).revision = s.revision ∧ (s.modTile k f).order = s.order ∧
    (s.modTile k f).pcieRole = s.pcieRole ∧ (s.modTile k f).trapAgent = s.trapAgent ∧
    (s.modTile k f).lifeCycle = s.lifeCycle ∧ (s.modTile k f).rollback = s.rollback ∧
    (s.modTile k f).fusedLife = s.fusedLife ∧ (s.modTile k f).bootStatus = s.bootStatus ∧
    (s.modTile k f).booted = s.booted ∧ (s.modTile k f).calib = s.calib ∧ (s.modTile k f).primary = s.primary ∧
    (s.modTile k f).heartbeat = s.heartbeat ∧ (s.modTile k f).mem = s.mem ∧ (s.modTile k f).poison = s.poison ∧
    (s.modTile k f).locks = s.locks ∧ (s.modTile k f).frames = s.frames ∧ (s.modTile k f).threads = s.threads ∧
    (s.modTile k f).cores = s.cores ∧ (s.modTile k f).dies = s.dies ∧ (s.modTile k f).owners = s.owners ∧
    (s.modTile k f).launches = s.launches ∧ (s.modTile k f).barriers = s.barriers ∧
    (s.modTile k f).inlets = s.inlets ∧ (s.modTile k f).traffic = s.traffic ∧ (s.modTile k f).rputs = s.rputs ∧
    (s.modTile k f).floes = s.floes ∧ (s.modTile k f).agenda = s.agenda ∧ (s.modTile k f).cur = s.cur ∧
    (s.modTile k f).focus = s.focus ∧ (s.modTile k f).nextId = s.nextId ∧ (s.modTile k f).starts = s.starts ∧
    (s.modTile k f).draws = s.draws ∧ (s.modTile k f).assigned = s.assigned ∧ (s.modTile k f).keys = s.keys ∧
    (s.modTile k f).promotedAt = s.promotedAt ∧ (s.modTile k f).atBank = s.atBank ∧
    (s.modTile k f).served = s.served ∧ (s.modTile k f).serials = s.serials ∧ (s.modTile k f).coded = s.coded ∧
    (s.modTile k f).usedAt = s.usedAt :=
  ⟨rfl, rfl, rfl, rfl, rfl, rfl, rfl, rfl, rfl, rfl, rfl, rfl, rfl, rfl, rfl, rfl, rfl, rfl, rfl, rfl, rfl, rfl, rfl,
    rfl, rfl, rfl, rfl, rfl, rfl, rfl, rfl, rfl, rfl, rfl, rfl, rfl, rfl, rfl, rfl, rfl, rfl, rfl, rfl, rfl,
    rfl, rfl, rfl, rfl, rfl⟩

@[simp] theorem tile_set (s : State) (k : Nat) (x : Tile) : (s.setTile k x).tile k = x := by
  simp [tile, setTile, mget_mput_same]

theorem tile_set_other (s : State) (k j : Nat) (x : Tile) (h : j ≠ k) : (s.setTile k x).tile j = s.tile j := by
  simp [tile, setTile, mget_mput_other _ _ h]

@[simp] theorem tile_mod (s : State) (k : Nat) (f : Tile → Tile) : (s.modTile k f).tile k = f (s.tile k) := by
  simp [modTile]

theorem tile_mod_other (s : State) (k j : Nat) (f : Tile → Tile) (h : j ≠ k) :
    (s.modTile k f).tile j = s.tile j := tile_set_other s k j _ h

/-- The parties that `setTile` does not change. -/
@[simp] theorem setTile_parties (s : State) (k : Nat) (x : Tile) (j : Nat) :
    (s.setTile k x).thread j = s.thread j ∧
    (s.setTile k x).core j = s.core j ∧
    (s.setTile k x).die j = s.die j ∧
    (s.setTile k x).owner j = s.owner j ∧
    (s.setTile k x).launch j = s.launch j ∧
    (s.setTile k x).barrier j = s.barrier j ∧
    (s.setTile k x).inlet j = s.inlet j :=
  ⟨rfl, rfl, rfl, rfl, rfl, rfl, rfl⟩

/-- The parties that `modTile` does not change. -/
@[simp] theorem modTile_parties (s : State) (k : Nat) (f : Tile → Tile) (j : Nat) :
    (s.modTile k f).thread j = s.thread j ∧
    (s.modTile k f).core j = s.core j ∧
    (s.modTile k f).die j = s.die j ∧
    (s.modTile k f).owner j = s.owner j ∧
    (s.modTile k f).launch j = s.launch j ∧
    (s.modTile k f).barrier j = s.barrier j ∧
    (s.modTile k f).inlet j = s.inlet j :=
  ⟨rfl, rfl, rfl, rfl, rfl, rfl, rfl⟩

/-- `setDie` changes dies alone. -/
@[simp] theorem setDie_rest (s : State) (k : Nat) (x : Die) :
    (s.setDie k x).timebase = s.timebase ∧ (s.setDie k x).work = s.work ∧ (s.setDie k x).epochs = s.epochs ∧
    (s.setDie k x).lastResume = s.lastResume ∧ (s.setDie k x).pause = s.pause ∧ (s.setDie k x).log2E = s.log2E ∧
    (s.setDie k x).sluice = s.sluice ∧ (s.setDie k x).limits = s.limits ∧ (s.setDie k x).log2W = s.log2W ∧
    (s.setDie k x).revision = s.revision ∧ (s.setDie k x).order = s.order ∧ (s.setDie k x).pcieRole = s.pcieRole ∧
    (s.setDie k x).trapAgent = s.trapAgent ∧ (s.setDie k x).lifeCycle = s.lifeCycle ∧
    (s.setDie k x).rollback = s.rollback ∧ (s.setDie k x).fusedLife = s.fusedLife ∧
    (s.setDie k x).bootStatus = s.bootStatus ∧ (s.setDie k x).booted = s.booted ∧ (s.setDie k x).calib = s.calib ∧
    (s.setDie k x).primary = s.primary ∧ (s.setDie k x).heartbeat = s.heartbeat ∧ (s.setDie k x).mem = s.mem ∧
    (s.setDie k x).poison = s.poison ∧ (s.setDie k x).locks = s.locks ∧ (s.setDie k x).frames = s.frames ∧
    (s.setDie k x).threads = s.threads ∧ (s.setDie k x).cores = s.cores ∧ (s.setDie k x).tiles = s.tiles ∧
    (s.setDie k x).owners = s.owners ∧ (s.setDie k x).launches = s.launches ∧ (s.setDie k x).barriers = s.barriers ∧
    (s.setDie k x).inlets = s.inlets ∧ (s.setDie k x).traffic = s.traffic ∧ (s.setDie k x).rputs = s.rputs ∧
    (s.setDie k x).floes = s.floes ∧ (s.setDie k x).agenda = s.agenda ∧ (s.setDie k x).cur = s.cur ∧
    (s.setDie k x).focus = s.focus ∧ (s.setDie k x).nextId = s.nextId ∧ (s.setDie k x).starts = s.starts ∧
    (s.setDie k x).draws = s.draws ∧ (s.setDie k x).assigned = s.assigned ∧ (s.setDie k x).keys = s.keys ∧
    (s.setDie k x).promotedAt = s.promotedAt ∧ (s.setDie k x).atBank = s.atBank ∧ (s.setDie k x).served = s.served ∧
    (s.setDie k x).serials = s.serials ∧ (s.setDie k x).coded = s.coded ∧
    (s.setDie k x).usedAt = s.usedAt :=
  ⟨rfl, rfl, rfl, rfl, rfl, rfl, rfl, rfl, rfl, rfl, rfl, rfl, rfl, rfl, rfl, rfl, rfl, rfl, rfl, rfl, rfl, rfl, rfl,
    rfl, rfl, rfl, rfl, rfl, rfl, rfl, rfl, rfl, rfl, rfl, rfl, rfl, rfl, rfl, rfl, rfl, rfl, rfl, rfl, rfl,
    rfl, rfl, rfl, rfl, rfl⟩

/-- `modDie` changes dies alone. -/
@[simp] theorem modDie_rest (s : State) (k : Nat) (f : Die → Die) :
    (s.modDie k f).timebase = s.timebase ∧ (s.modDie k f).work = s.work ∧ (s.modDie k f).epochs = s.epochs ∧
    (s.modDie k f).lastResume = s.lastResume ∧ (s.modDie k f).pause = s.pause ∧ (s.modDie k f).log2E = s.log2E ∧
    (s.modDie k f).sluice = s.sluice ∧ (s.modDie k f).limits = s.limits ∧ (s.modDie k f).log2W = s.log2W ∧
    (s.modDie k f).revision = s.revision ∧ (s.modDie k f).order = s.order ∧ (s.modDie k f).pcieRole = s.pcieRole ∧
    (s.modDie k f).trapAgent = s.trapAgent ∧ (s.modDie k f).lifeCycle = s.lifeCycle ∧
    (s.modDie k f).rollback = s.rollback ∧ (s.modDie k f).fusedLife = s.fusedLife ∧
    (s.modDie k f).bootStatus = s.bootStatus ∧ (s.modDie k f).booted = s.booted ∧ (s.modDie k f).calib = s.calib ∧
    (s.modDie k f).primary = s.primary ∧ (s.modDie k f).heartbeat = s.heartbeat ∧ (s.modDie k f).mem = s.mem ∧
    (s.modDie k f).poison = s.poison ∧ (s.modDie k f).locks = s.locks ∧ (s.modDie k f).frames = s.frames ∧
    (s.modDie k f).threads = s.threads ∧ (s.modDie k f).cores = s.cores ∧ (s.modDie k f).tiles = s.tiles ∧
    (s.modDie k f).owners = s.owners ∧ (s.modDie k f).launches = s.launches ∧ (s.modDie k f).barriers = s.barriers ∧
    (s.modDie k f).inlets = s.inlets ∧ (s.modDie k f).traffic = s.traffic ∧ (s.modDie k f).rputs = s.rputs ∧
    (s.modDie k f).floes = s.floes ∧ (s.modDie k f).agenda = s.agenda ∧ (s.modDie k f).cur = s.cur ∧
    (s.modDie k f).focus = s.focus ∧ (s.modDie k f).nextId = s.nextId ∧ (s.modDie k f).starts = s.starts ∧
    (s.modDie k f).draws = s.draws ∧ (s.modDie k f).assigned = s.assigned ∧ (s.modDie k f).keys = s.keys ∧
    (s.modDie k f).promotedAt = s.promotedAt ∧ (s.modDie k f).atBank = s.atBank ∧ (s.modDie k f).served = s.served ∧
    (s.modDie k f).serials = s.serials ∧ (s.modDie k f).coded = s.coded ∧
    (s.modDie k f).usedAt = s.usedAt :=
  ⟨rfl, rfl, rfl, rfl, rfl, rfl, rfl, rfl, rfl, rfl, rfl, rfl, rfl, rfl, rfl, rfl, rfl, rfl, rfl, rfl, rfl, rfl, rfl,
    rfl, rfl, rfl, rfl, rfl, rfl, rfl, rfl, rfl, rfl, rfl, rfl, rfl, rfl, rfl, rfl, rfl, rfl, rfl, rfl, rfl,
    rfl, rfl, rfl, rfl, rfl⟩

@[simp] theorem die_set (s : State) (k : Nat) (x : Die) : (s.setDie k x).die k = x := by
  simp [die, setDie, mget_mput_same]

theorem die_set_other (s : State) (k j : Nat) (x : Die) (h : j ≠ k) : (s.setDie k x).die j = s.die j := by
  simp [die, setDie, mget_mput_other _ _ h]

@[simp] theorem die_mod (s : State) (k : Nat) (f : Die → Die) : (s.modDie k f).die k = f (s.die k) := by
  simp [modDie]

theorem die_mod_other (s : State) (k j : Nat) (f : Die → Die) (h : j ≠ k) :
    (s.modDie k f).die j = s.die j := die_set_other s k j _ h

/-- The parties that `setDie` does not change. -/
@[simp] theorem setDie_parties (s : State) (k : Nat) (x : Die) (j : Nat) :
    (s.setDie k x).thread j = s.thread j ∧
    (s.setDie k x).core j = s.core j ∧
    (s.setDie k x).tile j = s.tile j ∧
    (s.setDie k x).owner j = s.owner j ∧
    (s.setDie k x).launch j = s.launch j ∧
    (s.setDie k x).barrier j = s.barrier j ∧
    (s.setDie k x).inlet j = s.inlet j :=
  ⟨rfl, rfl, rfl, rfl, rfl, rfl, rfl⟩

/-- The parties that `modDie` does not change. -/
@[simp] theorem modDie_parties (s : State) (k : Nat) (f : Die → Die) (j : Nat) :
    (s.modDie k f).thread j = s.thread j ∧
    (s.modDie k f).core j = s.core j ∧
    (s.modDie k f).tile j = s.tile j ∧
    (s.modDie k f).owner j = s.owner j ∧
    (s.modDie k f).launch j = s.launch j ∧
    (s.modDie k f).barrier j = s.barrier j ∧
    (s.modDie k f).inlet j = s.inlet j :=
  ⟨rfl, rfl, rfl, rfl, rfl, rfl, rfl⟩

/-- `setOwner` changes owners alone. -/
@[simp] theorem setOwner_rest (s : State) (k : Nat) (x : Owner) :
    (s.setOwner k x).timebase = s.timebase ∧ (s.setOwner k x).work = s.work ∧ (s.setOwner k x).epochs = s.epochs ∧
    (s.setOwner k x).lastResume = s.lastResume ∧ (s.setOwner k x).pause = s.pause ∧
    (s.setOwner k x).log2E = s.log2E ∧ (s.setOwner k x).sluice = s.sluice ∧ (s.setOwner k x).limits = s.limits ∧
    (s.setOwner k x).log2W = s.log2W ∧ (s.setOwner k x).revision = s.revision ∧ (s.setOwner k x).order = s.order ∧
    (s.setOwner k x).pcieRole = s.pcieRole ∧ (s.setOwner k x).trapAgent = s.trapAgent ∧
    (s.setOwner k x).lifeCycle = s.lifeCycle ∧ (s.setOwner k x).rollback = s.rollback ∧
    (s.setOwner k x).fusedLife = s.fusedLife ∧ (s.setOwner k x).bootStatus = s.bootStatus ∧
    (s.setOwner k x).booted = s.booted ∧ (s.setOwner k x).calib = s.calib ∧ (s.setOwner k x).primary = s.primary ∧
    (s.setOwner k x).heartbeat = s.heartbeat ∧ (s.setOwner k x).mem = s.mem ∧ (s.setOwner k x).poison = s.poison ∧
    (s.setOwner k x).locks = s.locks ∧ (s.setOwner k x).frames = s.frames ∧ (s.setOwner k x).threads = s.threads ∧
    (s.setOwner k x).cores = s.cores ∧ (s.setOwner k x).tiles = s.tiles ∧ (s.setOwner k x).dies = s.dies ∧
    (s.setOwner k x).launches = s.launches ∧ (s.setOwner k x).barriers = s.barriers ∧
    (s.setOwner k x).inlets = s.inlets ∧ (s.setOwner k x).traffic = s.traffic ∧ (s.setOwner k x).rputs = s.rputs ∧
    (s.setOwner k x).floes = s.floes ∧ (s.setOwner k x).agenda = s.agenda ∧ (s.setOwner k x).cur = s.cur ∧
    (s.setOwner k x).focus = s.focus ∧ (s.setOwner k x).nextId = s.nextId ∧ (s.setOwner k x).starts = s.starts ∧
    (s.setOwner k x).draws = s.draws ∧ (s.setOwner k x).assigned = s.assigned ∧ (s.setOwner k x).keys = s.keys ∧
    (s.setOwner k x).promotedAt = s.promotedAt ∧ (s.setOwner k x).atBank = s.atBank ∧
    (s.setOwner k x).served = s.served ∧ (s.setOwner k x).serials = s.serials ∧ (s.setOwner k x).coded = s.coded ∧
    (s.setOwner k x).usedAt = s.usedAt :=
  ⟨rfl, rfl, rfl, rfl, rfl, rfl, rfl, rfl, rfl, rfl, rfl, rfl, rfl, rfl, rfl, rfl, rfl, rfl, rfl, rfl, rfl, rfl, rfl,
    rfl, rfl, rfl, rfl, rfl, rfl, rfl, rfl, rfl, rfl, rfl, rfl, rfl, rfl, rfl, rfl, rfl, rfl, rfl, rfl, rfl,
    rfl, rfl, rfl, rfl, rfl⟩

/-- `modOwner` changes owners alone. -/
@[simp] theorem modOwner_rest (s : State) (k : Nat) (f : Owner → Owner) :
    (s.modOwner k f).timebase = s.timebase ∧ (s.modOwner k f).work = s.work ∧ (s.modOwner k f).epochs = s.epochs ∧
    (s.modOwner k f).lastResume = s.lastResume ∧ (s.modOwner k f).pause = s.pause ∧
    (s.modOwner k f).log2E = s.log2E ∧ (s.modOwner k f).sluice = s.sluice ∧ (s.modOwner k f).limits = s.limits ∧
    (s.modOwner k f).log2W = s.log2W ∧ (s.modOwner k f).revision = s.revision ∧ (s.modOwner k f).order = s.order ∧
    (s.modOwner k f).pcieRole = s.pcieRole ∧ (s.modOwner k f).trapAgent = s.trapAgent ∧
    (s.modOwner k f).lifeCycle = s.lifeCycle ∧ (s.modOwner k f).rollback = s.rollback ∧
    (s.modOwner k f).fusedLife = s.fusedLife ∧ (s.modOwner k f).bootStatus = s.bootStatus ∧
    (s.modOwner k f).booted = s.booted ∧ (s.modOwner k f).calib = s.calib ∧ (s.modOwner k f).primary = s.primary ∧
    (s.modOwner k f).heartbeat = s.heartbeat ∧ (s.modOwner k f).mem = s.mem ∧ (s.modOwner k f).poison = s.poison ∧
    (s.modOwner k f).locks = s.locks ∧ (s.modOwner k f).frames = s.frames ∧ (s.modOwner k f).threads = s.threads ∧
    (s.modOwner k f).cores = s.cores ∧ (s.modOwner k f).tiles = s.tiles ∧ (s.modOwner k f).dies = s.dies ∧
    (s.modOwner k f).launches = s.launches ∧ (s.modOwner k f).barriers = s.barriers ∧
    (s.modOwner k f).inlets = s.inlets ∧ (s.modOwner k f).traffic = s.traffic ∧ (s.modOwner k f).rputs = s.rputs ∧
    (s.modOwner k f).floes = s.floes ∧ (s.modOwner k f).agenda = s.agenda ∧ (s.modOwner k f).cur = s.cur ∧
    (s.modOwner k f).focus = s.focus ∧ (s.modOwner k f).nextId = s.nextId ∧ (s.modOwner k f).starts = s.starts ∧
    (s.modOwner k f).draws = s.draws ∧ (s.modOwner k f).assigned = s.assigned ∧ (s.modOwner k f).keys = s.keys ∧
    (s.modOwner k f).promotedAt = s.promotedAt ∧ (s.modOwner k f).atBank = s.atBank ∧
    (s.modOwner k f).served = s.served ∧ (s.modOwner k f).serials = s.serials ∧ (s.modOwner k f).coded = s.coded ∧
    (s.modOwner k f).usedAt = s.usedAt :=
  ⟨rfl, rfl, rfl, rfl, rfl, rfl, rfl, rfl, rfl, rfl, rfl, rfl, rfl, rfl, rfl, rfl, rfl, rfl, rfl, rfl, rfl, rfl, rfl,
    rfl, rfl, rfl, rfl, rfl, rfl, rfl, rfl, rfl, rfl, rfl, rfl, rfl, rfl, rfl, rfl, rfl, rfl, rfl, rfl, rfl,
    rfl, rfl, rfl, rfl, rfl⟩

@[simp] theorem owner_set (s : State) (k : Nat) (x : Owner) : (s.setOwner k x).owner k = x := by
  simp [owner, setOwner, mget_mput_same]

theorem owner_set_other (s : State) (k j : Nat) (x : Owner) (h : j ≠ k) : (s.setOwner k x).owner j = s.owner j := by
  simp [owner, setOwner, mget_mput_other _ _ h]

@[simp] theorem owner_mod (s : State) (k : Nat) (f : Owner → Owner) : (s.modOwner k f).owner k = f (s.owner k) := by
  simp [modOwner]

theorem owner_mod_other (s : State) (k j : Nat) (f : Owner → Owner) (h : j ≠ k) :
    (s.modOwner k f).owner j = s.owner j := owner_set_other s k j _ h

/-- The parties that `setOwner` does not change. -/
@[simp] theorem setOwner_parties (s : State) (k : Nat) (x : Owner) (j : Nat) :
    (s.setOwner k x).thread j = s.thread j ∧
    (s.setOwner k x).core j = s.core j ∧
    (s.setOwner k x).tile j = s.tile j ∧
    (s.setOwner k x).die j = s.die j ∧
    (s.setOwner k x).launch j = s.launch j ∧
    (s.setOwner k x).barrier j = s.barrier j ∧
    (s.setOwner k x).inlet j = s.inlet j :=
  ⟨rfl, rfl, rfl, rfl, rfl, rfl, rfl⟩

/-- The parties that `modOwner` does not change. -/
@[simp] theorem modOwner_parties (s : State) (k : Nat) (f : Owner → Owner) (j : Nat) :
    (s.modOwner k f).thread j = s.thread j ∧
    (s.modOwner k f).core j = s.core j ∧
    (s.modOwner k f).tile j = s.tile j ∧
    (s.modOwner k f).die j = s.die j ∧
    (s.modOwner k f).launch j = s.launch j ∧
    (s.modOwner k f).barrier j = s.barrier j ∧
    (s.modOwner k f).inlet j = s.inlet j :=
  ⟨rfl, rfl, rfl, rfl, rfl, rfl, rfl⟩

/-- `setLaunch` changes launches alone. -/
@[simp] theorem setLaunch_rest (s : State) (k : Nat) (x : Launch) :
    (s.setLaunch k x).timebase = s.timebase ∧ (s.setLaunch k x).work = s.work ∧
    (s.setLaunch k x).epochs = s.epochs ∧ (s.setLaunch k x).lastResume = s.lastResume ∧
    (s.setLaunch k x).pause = s.pause ∧ (s.setLaunch k x).log2E = s.log2E ∧ (s.setLaunch k x).sluice = s.sluice ∧
    (s.setLaunch k x).limits = s.limits ∧ (s.setLaunch k x).log2W = s.log2W ∧
    (s.setLaunch k x).revision = s.revision ∧ (s.setLaunch k x).order = s.order ∧
    (s.setLaunch k x).pcieRole = s.pcieRole ∧ (s.setLaunch k x).trapAgent = s.trapAgent ∧
    (s.setLaunch k x).lifeCycle = s.lifeCycle ∧ (s.setLaunch k x).rollback = s.rollback ∧
    (s.setLaunch k x).fusedLife = s.fusedLife ∧ (s.setLaunch k x).bootStatus = s.bootStatus ∧
    (s.setLaunch k x).booted = s.booted ∧ (s.setLaunch k x).calib = s.calib ∧
    (s.setLaunch k x).primary = s.primary ∧ (s.setLaunch k x).heartbeat = s.heartbeat ∧
    (s.setLaunch k x).mem = s.mem ∧ (s.setLaunch k x).poison = s.poison ∧ (s.setLaunch k x).locks = s.locks ∧
    (s.setLaunch k x).frames = s.frames ∧ (s.setLaunch k x).threads = s.threads ∧
    (s.setLaunch k x).cores = s.cores ∧ (s.setLaunch k x).tiles = s.tiles ∧ (s.setLaunch k x).dies = s.dies ∧
    (s.setLaunch k x).owners = s.owners ∧ (s.setLaunch k x).barriers = s.barriers ∧
    (s.setLaunch k x).inlets = s.inlets ∧ (s.setLaunch k x).traffic = s.traffic ∧
    (s.setLaunch k x).rputs = s.rputs ∧ (s.setLaunch k x).floes = s.floes ∧ (s.setLaunch k x).agenda = s.agenda ∧
    (s.setLaunch k x).cur = s.cur ∧ (s.setLaunch k x).focus = s.focus ∧ (s.setLaunch k x).nextId = s.nextId ∧
    (s.setLaunch k x).starts = s.starts ∧ (s.setLaunch k x).draws = s.draws ∧
    (s.setLaunch k x).assigned = s.assigned ∧ (s.setLaunch k x).keys = s.keys ∧
    (s.setLaunch k x).promotedAt = s.promotedAt ∧ (s.setLaunch k x).atBank = s.atBank ∧
    (s.setLaunch k x).served = s.served ∧ (s.setLaunch k x).serials = s.serials ∧ (s.setLaunch k x).coded = s.coded ∧
    (s.setLaunch k x).usedAt = s.usedAt :=
  ⟨rfl, rfl, rfl, rfl, rfl, rfl, rfl, rfl, rfl, rfl, rfl, rfl, rfl, rfl, rfl, rfl, rfl, rfl, rfl, rfl, rfl, rfl, rfl,
    rfl, rfl, rfl, rfl, rfl, rfl, rfl, rfl, rfl, rfl, rfl, rfl, rfl, rfl, rfl, rfl, rfl, rfl, rfl, rfl, rfl,
    rfl, rfl, rfl, rfl, rfl⟩

/-- `modLaunch` changes launches alone. -/
@[simp] theorem modLaunch_rest (s : State) (k : Nat) (f : Launch → Launch) :
    (s.modLaunch k f).timebase = s.timebase ∧ (s.modLaunch k f).work = s.work ∧
    (s.modLaunch k f).epochs = s.epochs ∧ (s.modLaunch k f).lastResume = s.lastResume ∧
    (s.modLaunch k f).pause = s.pause ∧ (s.modLaunch k f).log2E = s.log2E ∧ (s.modLaunch k f).sluice = s.sluice ∧
    (s.modLaunch k f).limits = s.limits ∧ (s.modLaunch k f).log2W = s.log2W ∧
    (s.modLaunch k f).revision = s.revision ∧ (s.modLaunch k f).order = s.order ∧
    (s.modLaunch k f).pcieRole = s.pcieRole ∧ (s.modLaunch k f).trapAgent = s.trapAgent ∧
    (s.modLaunch k f).lifeCycle = s.lifeCycle ∧ (s.modLaunch k f).rollback = s.rollback ∧
    (s.modLaunch k f).fusedLife = s.fusedLife ∧ (s.modLaunch k f).bootStatus = s.bootStatus ∧
    (s.modLaunch k f).booted = s.booted ∧ (s.modLaunch k f).calib = s.calib ∧
    (s.modLaunch k f).primary = s.primary ∧ (s.modLaunch k f).heartbeat = s.heartbeat ∧
    (s.modLaunch k f).mem = s.mem ∧ (s.modLaunch k f).poison = s.poison ∧ (s.modLaunch k f).locks = s.locks ∧
    (s.modLaunch k f).frames = s.frames ∧ (s.modLaunch k f).threads = s.threads ∧
    (s.modLaunch k f).cores = s.cores ∧ (s.modLaunch k f).tiles = s.tiles ∧ (s.modLaunch k f).dies = s.dies ∧
    (s.modLaunch k f).owners = s.owners ∧ (s.modLaunch k f).barriers = s.barriers ∧
    (s.modLaunch k f).inlets = s.inlets ∧ (s.modLaunch k f).traffic = s.traffic ∧
    (s.modLaunch k f).rputs = s.rputs ∧ (s.modLaunch k f).floes = s.floes ∧ (s.modLaunch k f).agenda = s.agenda ∧
    (s.modLaunch k f).cur = s.cur ∧ (s.modLaunch k f).focus = s.focus ∧ (s.modLaunch k f).nextId = s.nextId ∧
    (s.modLaunch k f).starts = s.starts ∧ (s.modLaunch k f).draws = s.draws ∧
    (s.modLaunch k f).assigned = s.assigned ∧ (s.modLaunch k f).keys = s.keys ∧
    (s.modLaunch k f).promotedAt = s.promotedAt ∧ (s.modLaunch k f).atBank = s.atBank ∧
    (s.modLaunch k f).served = s.served ∧ (s.modLaunch k f).serials = s.serials ∧ (s.modLaunch k f).coded = s.coded ∧
    (s.modLaunch k f).usedAt = s.usedAt :=
  ⟨rfl, rfl, rfl, rfl, rfl, rfl, rfl, rfl, rfl, rfl, rfl, rfl, rfl, rfl, rfl, rfl, rfl, rfl, rfl, rfl, rfl, rfl, rfl,
    rfl, rfl, rfl, rfl, rfl, rfl, rfl, rfl, rfl, rfl, rfl, rfl, rfl, rfl, rfl, rfl, rfl, rfl, rfl, rfl, rfl,
    rfl, rfl, rfl, rfl, rfl⟩

@[simp] theorem launch_set (s : State) (k : Nat) (x : Launch) : (s.setLaunch k x).launch k = x := by
  simp [launch, setLaunch, mget_mput_same]

theorem launch_set_other (s : State) (k j : Nat) (x : Launch) (h : j ≠ k) : (s.setLaunch k x).launch j = s.launch j := by
  simp [launch, setLaunch, mget_mput_other _ _ h]

@[simp] theorem launch_mod (s : State) (k : Nat) (f : Launch → Launch) : (s.modLaunch k f).launch k = f (s.launch k) := by
  simp [modLaunch]

theorem launch_mod_other (s : State) (k j : Nat) (f : Launch → Launch) (h : j ≠ k) :
    (s.modLaunch k f).launch j = s.launch j := launch_set_other s k j _ h

/-- The parties that `setLaunch` does not change. -/
@[simp] theorem setLaunch_parties (s : State) (k : Nat) (x : Launch) (j : Nat) :
    (s.setLaunch k x).thread j = s.thread j ∧
    (s.setLaunch k x).core j = s.core j ∧
    (s.setLaunch k x).tile j = s.tile j ∧
    (s.setLaunch k x).die j = s.die j ∧
    (s.setLaunch k x).owner j = s.owner j ∧
    (s.setLaunch k x).barrier j = s.barrier j ∧
    (s.setLaunch k x).inlet j = s.inlet j :=
  ⟨rfl, rfl, rfl, rfl, rfl, rfl, rfl⟩

/-- The parties that `modLaunch` does not change. -/
@[simp] theorem modLaunch_parties (s : State) (k : Nat) (f : Launch → Launch) (j : Nat) :
    (s.modLaunch k f).thread j = s.thread j ∧
    (s.modLaunch k f).core j = s.core j ∧
    (s.modLaunch k f).tile j = s.tile j ∧
    (s.modLaunch k f).die j = s.die j ∧
    (s.modLaunch k f).owner j = s.owner j ∧
    (s.modLaunch k f).barrier j = s.barrier j ∧
    (s.modLaunch k f).inlet j = s.inlet j :=
  ⟨rfl, rfl, rfl, rfl, rfl, rfl, rfl⟩

/-- `setBarrier` changes barriers alone. -/
@[simp] theorem setBarrier_rest (s : State) (k : Nat) (x : Barrier) :
    (s.setBarrier k x).timebase = s.timebase ∧ (s.setBarrier k x).work = s.work ∧
    (s.setBarrier k x).epochs = s.epochs ∧ (s.setBarrier k x).lastResume = s.lastResume ∧
    (s.setBarrier k x).pause = s.pause ∧ (s.setBarrier k x).log2E = s.log2E ∧ (s.setBarrier k x).sluice = s.sluice ∧
    (s.setBarrier k x).limits = s.limits ∧ (s.setBarrier k x).log2W = s.log2W ∧
    (s.setBarrier k x).revision = s.revision ∧ (s.setBarrier k x).order = s.order ∧
    (s.setBarrier k x).pcieRole = s.pcieRole ∧ (s.setBarrier k x).trapAgent = s.trapAgent ∧
    (s.setBarrier k x).lifeCycle = s.lifeCycle ∧ (s.setBarrier k x).rollback = s.rollback ∧
    (s.setBarrier k x).fusedLife = s.fusedLife ∧ (s.setBarrier k x).bootStatus = s.bootStatus ∧
    (s.setBarrier k x).booted = s.booted ∧ (s.setBarrier k x).calib = s.calib ∧
    (s.setBarrier k x).primary = s.primary ∧ (s.setBarrier k x).heartbeat = s.heartbeat ∧
    (s.setBarrier k x).mem = s.mem ∧ (s.setBarrier k x).poison = s.poison ∧ (s.setBarrier k x).locks = s.locks ∧
    (s.setBarrier k x).frames = s.frames ∧ (s.setBarrier k x).threads = s.threads ∧
    (s.setBarrier k x).cores = s.cores ∧ (s.setBarrier k x).tiles = s.tiles ∧ (s.setBarrier k x).dies = s.dies ∧
    (s.setBarrier k x).owners = s.owners ∧ (s.setBarrier k x).launches = s.launches ∧
    (s.setBarrier k x).inlets = s.inlets ∧ (s.setBarrier k x).traffic = s.traffic ∧
    (s.setBarrier k x).rputs = s.rputs ∧ (s.setBarrier k x).floes = s.floes ∧ (s.setBarrier k x).agenda = s.agenda ∧
    (s.setBarrier k x).cur = s.cur ∧ (s.setBarrier k x).focus = s.focus ∧ (s.setBarrier k x).nextId = s.nextId ∧
    (s.setBarrier k x).starts = s.starts ∧ (s.setBarrier k x).draws = s.draws ∧
    (s.setBarrier k x).assigned = s.assigned ∧ (s.setBarrier k x).keys = s.keys ∧
    (s.setBarrier k x).promotedAt = s.promotedAt ∧ (s.setBarrier k x).atBank = s.atBank ∧
    (s.setBarrier k x).served = s.served ∧ (s.setBarrier k x).serials = s.serials ∧ (s.setBarrier k x).coded = s.coded ∧
    (s.setBarrier k x).usedAt = s.usedAt :=
  ⟨rfl, rfl, rfl, rfl, rfl, rfl, rfl, rfl, rfl, rfl, rfl, rfl, rfl, rfl, rfl, rfl, rfl, rfl, rfl, rfl, rfl, rfl, rfl,
    rfl, rfl, rfl, rfl, rfl, rfl, rfl, rfl, rfl, rfl, rfl, rfl, rfl, rfl, rfl, rfl, rfl, rfl, rfl, rfl, rfl,
    rfl, rfl, rfl, rfl, rfl⟩

/-- `modBarrier` changes barriers alone. -/
@[simp] theorem modBarrier_rest (s : State) (k : Nat) (f : Barrier → Barrier) :
    (s.modBarrier k f).timebase = s.timebase ∧ (s.modBarrier k f).work = s.work ∧
    (s.modBarrier k f).epochs = s.epochs ∧ (s.modBarrier k f).lastResume = s.lastResume ∧
    (s.modBarrier k f).pause = s.pause ∧ (s.modBarrier k f).log2E = s.log2E ∧ (s.modBarrier k f).sluice = s.sluice ∧
    (s.modBarrier k f).limits = s.limits ∧ (s.modBarrier k f).log2W = s.log2W ∧
    (s.modBarrier k f).revision = s.revision ∧ (s.modBarrier k f).order = s.order ∧
    (s.modBarrier k f).pcieRole = s.pcieRole ∧ (s.modBarrier k f).trapAgent = s.trapAgent ∧
    (s.modBarrier k f).lifeCycle = s.lifeCycle ∧ (s.modBarrier k f).rollback = s.rollback ∧
    (s.modBarrier k f).fusedLife = s.fusedLife ∧ (s.modBarrier k f).bootStatus = s.bootStatus ∧
    (s.modBarrier k f).booted = s.booted ∧ (s.modBarrier k f).calib = s.calib ∧
    (s.modBarrier k f).primary = s.primary ∧ (s.modBarrier k f).heartbeat = s.heartbeat ∧
    (s.modBarrier k f).mem = s.mem ∧ (s.modBarrier k f).poison = s.poison ∧ (s.modBarrier k f).locks = s.locks ∧
    (s.modBarrier k f).frames = s.frames ∧ (s.modBarrier k f).threads = s.threads ∧
    (s.modBarrier k f).cores = s.cores ∧ (s.modBarrier k f).tiles = s.tiles ∧ (s.modBarrier k f).dies = s.dies ∧
    (s.modBarrier k f).owners = s.owners ∧ (s.modBarrier k f).launches = s.launches ∧
    (s.modBarrier k f).inlets = s.inlets ∧ (s.modBarrier k f).traffic = s.traffic ∧
    (s.modBarrier k f).rputs = s.rputs ∧ (s.modBarrier k f).floes = s.floes ∧ (s.modBarrier k f).agenda = s.agenda ∧
    (s.modBarrier k f).cur = s.cur ∧ (s.modBarrier k f).focus = s.focus ∧ (s.modBarrier k f).nextId = s.nextId ∧
    (s.modBarrier k f).starts = s.starts ∧ (s.modBarrier k f).draws = s.draws ∧
    (s.modBarrier k f).assigned = s.assigned ∧ (s.modBarrier k f).keys = s.keys ∧
    (s.modBarrier k f).promotedAt = s.promotedAt ∧ (s.modBarrier k f).atBank = s.atBank ∧
    (s.modBarrier k f).served = s.served ∧ (s.modBarrier k f).serials = s.serials ∧ (s.modBarrier k f).coded = s.coded ∧
    (s.modBarrier k f).usedAt = s.usedAt :=
  ⟨rfl, rfl, rfl, rfl, rfl, rfl, rfl, rfl, rfl, rfl, rfl, rfl, rfl, rfl, rfl, rfl, rfl, rfl, rfl, rfl, rfl, rfl, rfl,
    rfl, rfl, rfl, rfl, rfl, rfl, rfl, rfl, rfl, rfl, rfl, rfl, rfl, rfl, rfl, rfl, rfl, rfl, rfl, rfl, rfl,
    rfl, rfl, rfl, rfl, rfl⟩

@[simp] theorem barrier_set (s : State) (k : Nat) (x : Barrier) : (s.setBarrier k x).barrier k = x := by
  simp [barrier, setBarrier, mget_mput_same]

theorem barrier_set_other (s : State) (k j : Nat) (x : Barrier) (h : j ≠ k) : (s.setBarrier k x).barrier j = s.barrier j := by
  simp [barrier, setBarrier, mget_mput_other _ _ h]

@[simp] theorem barrier_mod (s : State) (k : Nat) (f : Barrier → Barrier) : (s.modBarrier k f).barrier k = f (s.barrier k) := by
  simp [modBarrier]

theorem barrier_mod_other (s : State) (k j : Nat) (f : Barrier → Barrier) (h : j ≠ k) :
    (s.modBarrier k f).barrier j = s.barrier j := barrier_set_other s k j _ h

/-- The parties that `setBarrier` does not change. -/
@[simp] theorem setBarrier_parties (s : State) (k : Nat) (x : Barrier) (j : Nat) :
    (s.setBarrier k x).thread j = s.thread j ∧
    (s.setBarrier k x).core j = s.core j ∧
    (s.setBarrier k x).tile j = s.tile j ∧
    (s.setBarrier k x).die j = s.die j ∧
    (s.setBarrier k x).owner j = s.owner j ∧
    (s.setBarrier k x).launch j = s.launch j ∧
    (s.setBarrier k x).inlet j = s.inlet j :=
  ⟨rfl, rfl, rfl, rfl, rfl, rfl, rfl⟩

/-- The parties that `modBarrier` does not change. -/
@[simp] theorem modBarrier_parties (s : State) (k : Nat) (f : Barrier → Barrier) (j : Nat) :
    (s.modBarrier k f).thread j = s.thread j ∧
    (s.modBarrier k f).core j = s.core j ∧
    (s.modBarrier k f).tile j = s.tile j ∧
    (s.modBarrier k f).die j = s.die j ∧
    (s.modBarrier k f).owner j = s.owner j ∧
    (s.modBarrier k f).launch j = s.launch j ∧
    (s.modBarrier k f).inlet j = s.inlet j :=
  ⟨rfl, rfl, rfl, rfl, rfl, rfl, rfl⟩

/-- `setInlet` changes inlets alone. -/
@[simp] theorem setInlet_rest (s : State) (k : Nat) (x : Inlet) :
    (s.setInlet k x).timebase = s.timebase ∧ (s.setInlet k x).work = s.work ∧ (s.setInlet k x).epochs = s.epochs ∧
    (s.setInlet k x).lastResume = s.lastResume ∧ (s.setInlet k x).pause = s.pause ∧
    (s.setInlet k x).log2E = s.log2E ∧ (s.setInlet k x).sluice = s.sluice ∧ (s.setInlet k x).limits = s.limits ∧
    (s.setInlet k x).log2W = s.log2W ∧ (s.setInlet k x).revision = s.revision ∧ (s.setInlet k x).order = s.order ∧
    (s.setInlet k x).pcieRole = s.pcieRole ∧ (s.setInlet k x).trapAgent = s.trapAgent ∧
    (s.setInlet k x).lifeCycle = s.lifeCycle ∧ (s.setInlet k x).rollback = s.rollback ∧
    (s.setInlet k x).fusedLife = s.fusedLife ∧ (s.setInlet k x).bootStatus = s.bootStatus ∧
    (s.setInlet k x).booted = s.booted ∧ (s.setInlet k x).calib = s.calib ∧ (s.setInlet k x).primary = s.primary ∧
    (s.setInlet k x).heartbeat = s.heartbeat ∧ (s.setInlet k x).mem = s.mem ∧ (s.setInlet k x).poison = s.poison ∧
    (s.setInlet k x).locks = s.locks ∧ (s.setInlet k x).frames = s.frames ∧ (s.setInlet k x).threads = s.threads ∧
    (s.setInlet k x).cores = s.cores ∧ (s.setInlet k x).tiles = s.tiles ∧ (s.setInlet k x).dies = s.dies ∧
    (s.setInlet k x).owners = s.owners ∧ (s.setInlet k x).launches = s.launches ∧
    (s.setInlet k x).barriers = s.barriers ∧ (s.setInlet k x).traffic = s.traffic ∧
    (s.setInlet k x).rputs = s.rputs ∧ (s.setInlet k x).floes = s.floes ∧ (s.setInlet k x).agenda = s.agenda ∧
    (s.setInlet k x).cur = s.cur ∧ (s.setInlet k x).focus = s.focus ∧ (s.setInlet k x).nextId = s.nextId ∧
    (s.setInlet k x).starts = s.starts ∧ (s.setInlet k x).draws = s.draws ∧ (s.setInlet k x).assigned = s.assigned ∧
    (s.setInlet k x).keys = s.keys ∧ (s.setInlet k x).promotedAt = s.promotedAt ∧
    (s.setInlet k x).atBank = s.atBank ∧ (s.setInlet k x).served = s.served ∧
    (s.setInlet k x).serials = s.serials ∧ (s.setInlet k x).coded = s.coded ∧
    (s.setInlet k x).usedAt = s.usedAt :=
  ⟨rfl, rfl, rfl, rfl, rfl, rfl, rfl, rfl, rfl, rfl, rfl, rfl, rfl, rfl, rfl, rfl, rfl, rfl, rfl, rfl, rfl, rfl, rfl,
    rfl, rfl, rfl, rfl, rfl, rfl, rfl, rfl, rfl, rfl, rfl, rfl, rfl, rfl, rfl, rfl, rfl, rfl, rfl, rfl, rfl,
    rfl, rfl, rfl, rfl, rfl⟩

/-- `modInlet` changes inlets alone. -/
@[simp] theorem modInlet_rest (s : State) (k : Nat) (f : Inlet → Inlet) :
    (s.modInlet k f).timebase = s.timebase ∧ (s.modInlet k f).work = s.work ∧ (s.modInlet k f).epochs = s.epochs ∧
    (s.modInlet k f).lastResume = s.lastResume ∧ (s.modInlet k f).pause = s.pause ∧
    (s.modInlet k f).log2E = s.log2E ∧ (s.modInlet k f).sluice = s.sluice ∧ (s.modInlet k f).limits = s.limits ∧
    (s.modInlet k f).log2W = s.log2W ∧ (s.modInlet k f).revision = s.revision ∧ (s.modInlet k f).order = s.order ∧
    (s.modInlet k f).pcieRole = s.pcieRole ∧ (s.modInlet k f).trapAgent = s.trapAgent ∧
    (s.modInlet k f).lifeCycle = s.lifeCycle ∧ (s.modInlet k f).rollback = s.rollback ∧
    (s.modInlet k f).fusedLife = s.fusedLife ∧ (s.modInlet k f).bootStatus = s.bootStatus ∧
    (s.modInlet k f).booted = s.booted ∧ (s.modInlet k f).calib = s.calib ∧ (s.modInlet k f).primary = s.primary ∧
    (s.modInlet k f).heartbeat = s.heartbeat ∧ (s.modInlet k f).mem = s.mem ∧ (s.modInlet k f).poison = s.poison ∧
    (s.modInlet k f).locks = s.locks ∧ (s.modInlet k f).frames = s.frames ∧ (s.modInlet k f).threads = s.threads ∧
    (s.modInlet k f).cores = s.cores ∧ (s.modInlet k f).tiles = s.tiles ∧ (s.modInlet k f).dies = s.dies ∧
    (s.modInlet k f).owners = s.owners ∧ (s.modInlet k f).launches = s.launches ∧
    (s.modInlet k f).barriers = s.barriers ∧ (s.modInlet k f).traffic = s.traffic ∧
    (s.modInlet k f).rputs = s.rputs ∧ (s.modInlet k f).floes = s.floes ∧ (s.modInlet k f).agenda = s.agenda ∧
    (s.modInlet k f).cur = s.cur ∧ (s.modInlet k f).focus = s.focus ∧ (s.modInlet k f).nextId = s.nextId ∧
    (s.modInlet k f).starts = s.starts ∧ (s.modInlet k f).draws = s.draws ∧ (s.modInlet k f).assigned = s.assigned ∧
    (s.modInlet k f).keys = s.keys ∧ (s.modInlet k f).promotedAt = s.promotedAt ∧
    (s.modInlet k f).atBank = s.atBank ∧ (s.modInlet k f).served = s.served ∧
    (s.modInlet k f).serials = s.serials ∧ (s.modInlet k f).coded = s.coded ∧
    (s.modInlet k f).usedAt = s.usedAt :=
  ⟨rfl, rfl, rfl, rfl, rfl, rfl, rfl, rfl, rfl, rfl, rfl, rfl, rfl, rfl, rfl, rfl, rfl, rfl, rfl, rfl, rfl, rfl, rfl,
    rfl, rfl, rfl, rfl, rfl, rfl, rfl, rfl, rfl, rfl, rfl, rfl, rfl, rfl, rfl, rfl, rfl, rfl, rfl, rfl, rfl,
    rfl, rfl, rfl, rfl, rfl⟩

@[simp] theorem inlet_set (s : State) (k : Nat) (x : Inlet) : (s.setInlet k x).inlet k = x := by
  simp [inlet, setInlet, mget_mput_same]

theorem inlet_set_other (s : State) (k j : Nat) (x : Inlet) (h : j ≠ k) : (s.setInlet k x).inlet j = s.inlet j := by
  simp [inlet, setInlet, mget_mput_other _ _ h]

@[simp] theorem inlet_mod (s : State) (k : Nat) (f : Inlet → Inlet) : (s.modInlet k f).inlet k = f (s.inlet k) := by
  simp [modInlet]

theorem inlet_mod_other (s : State) (k j : Nat) (f : Inlet → Inlet) (h : j ≠ k) :
    (s.modInlet k f).inlet j = s.inlet j := inlet_set_other s k j _ h

/-- The parties that `setInlet` does not change. -/
@[simp] theorem setInlet_parties (s : State) (k : Nat) (x : Inlet) (j : Nat) :
    (s.setInlet k x).thread j = s.thread j ∧
    (s.setInlet k x).core j = s.core j ∧
    (s.setInlet k x).tile j = s.tile j ∧
    (s.setInlet k x).die j = s.die j ∧
    (s.setInlet k x).owner j = s.owner j ∧
    (s.setInlet k x).launch j = s.launch j ∧
    (s.setInlet k x).barrier j = s.barrier j :=
  ⟨rfl, rfl, rfl, rfl, rfl, rfl, rfl⟩

/-- The parties that `modInlet` does not change. -/
@[simp] theorem modInlet_parties (s : State) (k : Nat) (f : Inlet → Inlet) (j : Nat) :
    (s.modInlet k f).thread j = s.thread j ∧
    (s.modInlet k f).core j = s.core j ∧
    (s.modInlet k f).tile j = s.tile j ∧
    (s.modInlet k f).die j = s.die j ∧
    (s.modInlet k f).owner j = s.owner j ∧
    (s.modInlet k f).launch j = s.launch j ∧
    (s.modInlet k f).barrier j = s.barrier j :=
  ⟨rfl, rfl, rfl, rfl, rfl, rfl, rfl⟩

/-- `setMem` changes mem alone. -/
@[simp] theorem setMem_rest (s : State) (m : Mem) :
    (s.setMem m).mem = m ∧ (s.setMem m).timebase = s.timebase ∧ (s.setMem m).work = s.work ∧
    (s.setMem m).epochs = s.epochs ∧ (s.setMem m).lastResume = s.lastResume ∧ (s.setMem m).pause = s.pause ∧
    (s.setMem m).log2E = s.log2E ∧ (s.setMem m).sluice = s.sluice ∧ (s.setMem m).limits = s.limits ∧
    (s.setMem m).log2W = s.log2W ∧ (s.setMem m).revision = s.revision ∧ (s.setMem m).order = s.order ∧
    (s.setMem m).pcieRole = s.pcieRole ∧ (s.setMem m).trapAgent = s.trapAgent ∧
    (s.setMem m).lifeCycle = s.lifeCycle ∧ (s.setMem m).rollback = s.rollback ∧
    (s.setMem m).fusedLife = s.fusedLife ∧ (s.setMem m).bootStatus = s.bootStatus ∧ (s.setMem m).booted = s.booted ∧
    (s.setMem m).calib = s.calib ∧ (s.setMem m).primary = s.primary ∧ (s.setMem m).heartbeat = s.heartbeat ∧
    (s.setMem m).poison = s.poison ∧ (s.setMem m).locks = s.locks ∧ (s.setMem m).frames = s.frames ∧
    (s.setMem m).threads = s.threads ∧ (s.setMem m).cores = s.cores ∧ (s.setMem m).tiles = s.tiles ∧
    (s.setMem m).dies = s.dies ∧ (s.setMem m).owners = s.owners ∧ (s.setMem m).launches = s.launches ∧
    (s.setMem m).barriers = s.barriers ∧ (s.setMem m).inlets = s.inlets ∧ (s.setMem m).traffic = s.traffic ∧
    (s.setMem m).rputs = s.rputs ∧ (s.setMem m).floes = s.floes ∧ (s.setMem m).agenda = s.agenda ∧
    (s.setMem m).cur = s.cur ∧ (s.setMem m).focus = s.focus ∧ (s.setMem m).nextId = s.nextId ∧
    (s.setMem m).starts = s.starts ∧ (s.setMem m).draws = s.draws ∧ (s.setMem m).assigned = s.assigned ∧
    (s.setMem m).keys = s.keys ∧ (s.setMem m).promotedAt = s.promotedAt ∧ (s.setMem m).atBank = s.atBank ∧
    (s.setMem m).served = s.served ∧ (s.setMem m).serials = s.serials ∧ (s.setMem m).coded = s.coded ∧
    (s.setMem m).usedAt = s.usedAt := by
  simp [setMem]

@[simp] theorem setMem_parties (s : State) (m : Mem) (j : Nat) :
    (s.setMem m).thread j = s.thread j ∧
    (s.setMem m).core j = s.core j ∧
    (s.setMem m).tile j = s.tile j ∧
    (s.setMem m).die j = s.die j ∧
    (s.setMem m).owner j = s.owner j ∧
    (s.setMem m).launch j = s.launch j ∧
    (s.setMem m).barrier j = s.barrier j ∧
    (s.setMem m).inlet j = s.inlet j :=
  ⟨rfl, rfl, rfl, rfl, rfl, rfl, rfl, rfl⟩

end Sys2Proof.Machine.State
end

