-- ==== Sys2Proof/Laws/Memory.lean ====
section
/-! SUPPORT. Memory: every operation keeps the canonical form, what is written is read back, and the bytes outside a
write stay. -/

namespace Sys2Proof.Machine

/-! ### The canonical form -/

theorem memWfFrom_cons {lo a : Nat} {b : Byte} {t : Mem} :
    memWfFrom lo ((a, b) :: t) = true ↔ lo ≤ a ∧ b ≠ 0 ∧ memWfFrom (a + 1) t = true := by
  simp [memWfFrom, and_assoc]

theorem memWfFrom_le {lo lo' : Nat} {m : Mem} (h : memWfFrom lo m = true) (hl : lo' ≤ lo) :
    memWfFrom lo' m = true := by
  cases m with
  | nil => rfl
  | cons p t =>
    obtain ⟨a, b⟩ := p
    rw [memWfFrom_cons] at h ⊢
    exact ⟨by omega, h.2⟩

theorem memWfFrom_insert {lo : Nat} {m : Mem} (h : memWfFrom lo m = true) {a : Nat} (ha : lo ≤ a) {b : Byte}
    (hb : b ≠ 0) : memWfFrom lo (memInsert m a b) = true := by
  induction m generalizing lo with
  | nil => exact memWfFrom_cons.2 ⟨ha, hb, rfl⟩
  | cons p t ih =>
    obtain ⟨a', b'⟩ := p
    rw [memWfFrom_cons] at h
    unfold memInsert
    split
    · subst_vars
      exact memWfFrom_cons.2 ⟨h.1, hb, h.2.2⟩
    · split
      · exact memWfFrom_cons.2 ⟨ha, hb, memWfFrom_cons.2 ⟨by omega, h.2⟩⟩
      · exact memWfFrom_cons.2 ⟨h.1, h.2.1, ih h.2.2 (by omega)⟩

theorem memWfFrom_erase {lo : Nat} {m : Mem} (h : memWfFrom lo m = true) (a : Nat) :
    memWfFrom lo (memErase m a) = true := by
  induction m generalizing lo with
  | nil => rfl
  | cons p t ih =>
    obtain ⟨a', b'⟩ := p
    rw [memWfFrom_cons] at h
    unfold memErase
    split
    · exact memWfFrom_le h.2.2 (by omega)
    · exact memWfFrom_cons.2 ⟨h.1, h.2.1, ih h.2.2⟩

theorem memWf_put {m : Mem} (h : memWf m = true) (a : Nat) (b : Byte) : memWf (memPut m a b) = true := by
  unfold memPut
  split
  · exact memWfFrom_erase h a
  · exact memWfFrom_insert h (Nat.zero_le a) ‹_›

theorem memWf_writeNat {m : Mem} (h : memWf m = true) (a n v : Nat) : memWf (memWriteNat m a n v) = true := by
  induction n generalizing m a v with
  | zero => exact h
  | succ n ih => exact ih (memWf_put h a _) _ _

theorem memWf_writeList {m : Mem} (h : memWf m = true) (a : Nat) (l : List Byte) :
    memWf (memWriteList m a l) = true := by
  induction l generalizing m a with
  | nil => exact h
  | cons b l ih => exact ih (memWf_put h a b) _

theorem memWf_writeMask {m : Mem} (h : memWf m = true) (a n data mask : Nat) :
    memWf (memWriteMask m a n data mask) = true := by
  induction n generalizing m a data mask with
  | zero => exact h
  | succ n ih =>
    simp only [memWriteMask]
    split
    · exact ih h _ _ _
    · exact ih (memWf_put h a _) _ _ _

theorem memWfFrom_filter {lo : Nat} {m : Mem} (h : memWfFrom lo m = true) (f : Host.Cell → Bool) :
    memWfFrom lo (m.filter f) = true := by
  induction m generalizing lo with
  | nil => rfl
  | cons p t ih =>
    obtain ⟨a, b⟩ := p
    rw [memWfFrom_cons] at h
    rw [List.filter_cons]
    split
    · exact memWfFrom_cons.2 ⟨h.1, h.2.1, ih h.2.2⟩
    · exact memWfFrom_le (ih h.2.2) (by omega)

theorem memWf_wipe {m : Mem} (h : memWf m = true) (a n : Nat) : memWf (memWipe m a n) = true := memWfFrom_filter h _

/-! ### Reads after writes -/

theorem memByte_below {lo : Nat} {m : Mem} (h : memWfFrom lo m = true) {a : Nat} (ha : a < lo) : memByte m a = 0 := by
  induction m generalizing lo with
  | nil => rfl
  | cons p t ih =>
    obtain ⟨a', b'⟩ := p
    rw [memWfFrom_cons] at h
    rw [memByte, if_neg (by omega)]
    exact ih h.2.2 (by omega)

theorem memByte_insert (m : Mem) (a x : Nat) (b : Byte) :
    memByte (memInsert m a b) x = if a = x then b else memByte m x := by
  induction m with
  | nil => simp [memInsert, memByte]
  | cons p t ih =>
    obtain ⟨a', b'⟩ := p
    unfold memInsert
    split
    · subst_vars
      simp only [memByte]
      split <;> rfl
    · split
      · simp [memByte]
      · simp only [memByte, ih]
        split
        · rw [if_neg (by omega)]
        · rfl

theorem memByte_erase {lo : Nat} {m : Mem} (h : memWfFrom lo m = true) (a x : Nat) :
    memByte (memErase m a) x = if a = x then 0 else memByte m x := by
  induction m generalizing lo with
  | nil => simp [memErase, memByte]
  | cons p t ih =>
    obtain ⟨a', b'⟩ := p
    rw [memWfFrom_cons] at h
    unfold memErase
    split
    · subst_vars
      split
      · subst_vars
        exact memByte_below h.2.2 (by omega)
      · rw [memByte, if_neg ‹_›]
    · simp only [memByte, ih h.2.2]
      split
      · rw [if_neg (by omega)]
      · rfl

/-- A write of one byte is read back, and every other byte stays. -/
theorem memByte_put {m : Mem} (h : memWf m = true) (a x : Nat) (b : Byte) :
    memByte (memPut m a b) x = if a = x then b else memByte m x := by
  unfold memPut
  split
  · subst_vars
    exact memByte_erase h a x
  · exact memByte_insert m a x b

theorem memByte_writeNat {m : Mem} (h : memWf m = true) (a n v x : Nat) :
    memByte (memWriteNat m a n v) x =
      if a ≤ x ∧ x < a + n then BitVec.ofNat 8 (v / 256 ^ (x - a)) else memByte m x := by
  induction n generalizing m a v with
  | zero => rw [memWriteNat, if_neg (by omega)]
  | succ n ih =>
    rw [memWriteNat, ih (memWf_put h a _), memByte_put h]
    by_cases h1 : a = x
    · subst h1
      rw [if_neg (by omega), if_pos rfl, if_pos (by omega)]
      simp
    · by_cases h2 : a + 1 ≤ x ∧ x < a + 1 + n
      · rw [if_pos h2, if_pos (by omega), Nat.div_div_eq_div_mul]
        congr 2
        rw [show x - a = (x - (a + 1)) + 1 by omega, Nat.pow_succ, Nat.mul_comm]
      · rw [if_neg h2, if_neg h1, if_neg (by omega)]

theorem memByte_writeList {m : Mem} (h : memWf m = true) (a x : Nat) (l : List Byte) :
    memByte (memWriteList m a l) x =
      if a ≤ x ∧ x < a + l.length then l.getD (x - a) 0 else memByte m x := by
  induction l generalizing m a with
  | nil => rw [memWriteList, if_neg (by simp)]
  | cons b l ih =>
    rw [memWriteList, ih (memWf_put h a _), memByte_put h]
    by_cases h1 : a = x
    · subst h1
      rw [if_neg (by omega), if_pos rfl, if_pos (by simp)]
      simp
    · by_cases h2 : a + 1 ≤ x ∧ x < a + 1 + l.length
      · rw [if_pos h2, if_pos (by simp; omega), show x - a = (x - (a + 1)) + 1 by omega]
        simp
      · rw [if_neg h2, if_neg h1, if_neg (by simp; omega)]

theorem memByte_writeMask_outside {m : Mem} (h : memWf m = true) (a n data mask x : Nat)
    (hx : x < a ∨ a + n ≤ x) : memByte (memWriteMask m a n data mask) x = memByte m x := by
  induction n generalizing m a data mask with
  | zero => rfl
  | succ n ih =>
    simp only [memWriteMask]
    split
    · exact ih h _ _ _ (by omega)
    · rw [ih (memWf_put h a _) _ _ _ (by omega), memByte_put h, if_neg (by omega)]

theorem memNat_congr {m m' : Mem} {a n : Nat} (h : ∀ x, a ≤ x → x < a + n → memByte m x = memByte m' x) :
    memNat m a n = memNat m' a n := by
  induction n generalizing a with
  | zero => rfl
  | succ n ih =>
    simp only [memNat]
    rw [h a (by omega) (by omega), ih fun x h1 h2 => h x (by omega) (by omega)]

/-- What is written little-endian is read back. -/
theorem memNat_writeNat {m : Mem} (h : memWf m = true) (a n v : Nat) :
    memNat (memWriteNat m a n v) a n = v % 256 ^ n := by
  induction n generalizing m a v with
  | zero => simp [memNat, Nat.mod_one]
  | succ n ih =>
    rw [memNat, memByte_writeNat h, if_pos (by omega), memWriteNat, ih (memWf_put h a _)]
    simp only [Nat.sub_self, Nat.pow_zero, Nat.div_one, BitVec.toNat_ofNat]
    have hp : 256 ^ (n + 1) = 256 * 256 ^ n := by rw [Nat.pow_succ, Nat.mul_comm]
    rw [hp, Nat.mod_mul]

/-- Canonical memories that read alike are equal. -/
theorem mem_ext {lo : Nat} {m m' : Mem} (h : memWfFrom lo m = true) (h' : memWfFrom lo m' = true)
    (he : ∀ x, memByte m x = memByte m' x) : m = m' := by
  induction m generalizing lo m' with
  | nil =>
    cases m' with
    | nil => rfl
    | cons p t =>
      obtain ⟨a, b⟩ := p
      rw [memWfFrom_cons] at h'
      have := he a
      simp [memByte] at this
      exact (h'.2.1 this.symm).elim
  | cons p t ih =>
    obtain ⟨a, b⟩ := p
    rw [memWfFrom_cons] at h
    cases m' with
    | nil =>
      have := he a
      simp [memByte] at this
      exact (h.2.1 this).elim
    | cons q t' =>
      obtain ⟨a', b'⟩ := q
      rw [memWfFrom_cons] at h'
      have haa : a = a' := by
        rcases Nat.lt_trichotomy a a' with hl | hl | hl
        · have := he a
          rw [memByte, if_pos rfl, memByte, if_neg (by omega), memByte_below h'.2.2 (by omega)] at this
          exact (h.2.1 this).elim
        · exact hl
        · have := he a'
          rw [memByte, if_neg (by omega), memByte, if_pos rfl, memByte_below h.2.2 (by omega)] at this
          exact (h'.2.1 this.symm).elim
      subst haa
      have hb := he a
      rw [memByte, if_pos rfl, memByte, if_pos rfl] at hb
      subst hb
      congr 1
      refine ih h.2.2 h'.2.2 fun x => ?_
      by_cases hx : a = x
      · subst hx
        rw [memByte_below h.2.2 (by omega), memByte_below h'.2.2 (by omega)]
      · have := he x
        rwa [memByte, if_neg hx, memByte, if_neg hx] at this

end Sys2Proof.Machine
end

