-- ==== Sys2Proof/Laws/Ops.lean ====
section
/-! SUPPORT. The shared operations that run an instruction: what each leaves alone, and how an instruction that acts, or
stops, answers its next state. -/

namespace Sys2Proof.Machine

open Sys2Proof.Machine.State

theorem mput_mput {α : Type} (m : FMap α) (k : Nat) (v w : α) : mput (mput m k v) k w = mput m k w := by
  induction m with
  | nil => simp [mput]
  | cons p m ih =>
    obtain ⟨a, b⟩ := p
    by_cases h : a = k
    · simp [mput, h]
    · by_cases h2 : k < a
      · simp [mput, h, h2]
      · simp [mput, h, h2, ih]

@[simp] theorem setThread_setThread (s : State) (g : Nat) (t u : Thread) :
    (s.setThread g t).setThread g u = s.setThread g u := by simp [State.setThread, mput_mput]

/-! ### Control: traps, lines, the end of an instruction -/

/-- A write changes memory and which units are uncorrectable. -/
theorem unitWrite_cases (s : State) (key n data mask : Nat) :
    ∃ m q, unitWrite s key n data mask = { s with mem := m, poison := q } := by
  unfold unitWrite
  dsimp only
  split
  · exact ⟨_, _, rfl⟩
  · exact ⟨_, s.poison, rfl⟩

/-- The launches alone. -/
theorem launchError_cases (s : State) (lk code : Nat) : ∃ x, launchError s lk code = { s with launches := x } := by
  unfold launchError
  split
  · split
    · exact ⟨_, rfl⟩
    · exact ⟨s.launches, rfl⟩
  · exact ⟨s.launches, rfl⟩

/-- A data error of an owner is counted there and in the launch. -/
theorem ownerError_cases (s : State) (o lk : Nat) : ∃ x l, ownerError s o lk = { s with owners := x, launches := l } := by
  obtain ⟨l, h⟩ := launchError_cases (s.modOwner o fun x => { x with data := bump x.data }) lk 0x12
  exact ⟨_, l, h⟩

theorem unitWriteList_cases (o lk n : Nat) : ∀ (s : State) (p : Nat) (bs : List Byte),
    ∃ m q x l, unitWriteList s o lk p n bs = { s with mem := m, poison := q, owners := x, launches := l } := by
  induction n with
  | zero => exact fun s _ _ => ⟨s.mem, s.poison, s.owners, s.launches, rfl⟩
  | succ n ih =>
    intro s p bs
    unfold unitWriteList
    split
    · exact ⟨s.mem, s.poison, s.owners, s.launches, rfl⟩
    · dsimp only
      have he : ∃ x l, (if s.poison.contains (unitOf p) ∧ (bs.take (64 - p % 64)).length < 64 then ownerError s o lk else s) =
          { s with owners := x, launches := l } := by
        split
        · exact ownerError_cases s o lk
        · exact ⟨s.owners, s.launches, rfl⟩
      obtain ⟨x, l, he⟩ := he
      rw [he]
      obtain ⟨m, q, h⟩ := unitWrite_cases { s with owners := x, launches := l } p (bs.take (64 - p % 64)).length
        (natOfBytes (bs.take (64 - p % 64))) (maskOf (bs.take (64 - p % 64)).length)
      rw [h]
      obtain ⟨m', q', x', l', h'⟩ := ih { s with owners := x, launches := l, mem := m, poison := q }
        (p + (bs.take (64 - p % 64)).length) (bs.drop (64 - p % 64))
      exact ⟨m', q', x', l', h'⟩

/-- What a check counts: the die's drops, the owner's misuse. -/
theorem gateCount_cases (s : State) (o key : Nat) : ∃ x d, gateCount s o key = { s with owners := x, dies := d } := by
  unfold gateCount
  split
  · exact ⟨s.owners, s.dies, rfl⟩
  · exact ⟨_, _, rfl⟩
  · exact ⟨_, s.dies, rfl⟩

/-- A write into an owner's structure: memory, and what is counted of it. -/
theorem ownerWrite_cases (s : State) (tag o lk : Nat) (a : Word) (bs : List Byte) :
    ∃ m q x d l, ownerWrite s tag o lk a bs =
      { s with mem := m, poison := q, owners := x, dies := d, launches := l } := by
  have he : ∃ x l, (if walkBadFrom s a 4 (s.owner o).root.toNat then ownerError s o lk else s) =
      { s with owners := x, launches := l } := by
    split
    · exact ownerError_cases s o lk
    · exact ⟨s.owners, s.launches, rfl⟩
  obtain ⟨x, l, he⟩ := he
  unfold ownerWrite
  dsimp only
  rw [he]
  split
  · split
    · obtain ⟨m, q, x', l', h⟩ := unitWriteList_cases o lk _ { s with owners := x, launches := l } _ bs
      rw [h]
      exact ⟨m, q, x', s.dies, l', rfl⟩
    · obtain ⟨x', d, h⟩ := gateCount_cases { s with owners := x, launches := l } o _
      rw [h]
      exact ⟨s.mem, s.poison, x', d, l, rfl⟩
  · exact ⟨s.mem, s.poison, x, s.dies, l, rfl⟩

theorem tqMirror_cases (s : State) (o : Nat) :
    ∃ m q x d l, tqMirror s o = { s with mem := m, poison := q, owners := x, dies := d, launches := l } :=
  ownerWrite_cases _ _ _ _ _ _

/-- The queue in memory, the owner, and what is counted. -/
theorem tqAppend_cases (s : State) (o : Nat) (r : TrapRec) :
    ∃ m q x d l, tqAppend s o r = { s with mem := m, poison := q, owners := x, dies := d, launches := l } := by
  unfold tqAppend
  dsimp only
  obtain ⟨m, q, x, d, l, h⟩ := ownerWrite_cases s o o (s.thread r.g).launch
    ((s.owner o).tq + 64 + BitVec.ofNat 64 ((s.owner o).tqTail % 256 * 64)) r.bytes
  rw [h]
  obtain ⟨m', q', x', d', l', h'⟩ := tqMirror_cases (State.modOwner
    { s with mem := m, poison := q, owners := x, dies := d, launches := l } o
    fun x => { x with tqTail := x.tqTail + 1, tqRecs := x.tqRecs ++ [r] }) o
  exact ⟨m', q', x', d', l', h'⟩

/-- Posting a trap record: the owner and its queue in memory; escalated, the die's log and the launch's error. -/
theorem postTrap_cases (s : State) (o : Nat) (r : TrapRec) :
    ∃ m q x d l, postTrap s o r = { s with mem := m, poison := q, owners := x, dies := d, launches := l } := by
  unfold postTrap
  dsimp only
  split
  · split
    · exact tqAppend_cases s o r
    · obtain ⟨l, h⟩ := launchError_cases
        (s.modDie (dieOf (tileOf r.g)) fun d => { d with log := d.log ++ [r.bytes] }) (s.thread r.g).launch 0x30
      have hl : (s.modDie (dieOf (tileOf r.g)) fun d => { d with log := d.log ++ [r.bytes] }).thread r.g = s.thread r.g :=
        rfl
      rw [hl, h]
      obtain ⟨m, q, x, d, l', h'⟩ := tqMirror_cases (State.setOwner
        { s.modDie (dieOf (tileOf r.g)) fun d => { d with log := d.log ++ [r.bytes] } with launches := l } o
        { s.owner o with tqEsc := bump32 (s.owner o).tqEsc }) o
      exact ⟨m, q, x, d, l', h'⟩
  · split
    · exact tqAppend_cases s o r
    · obtain ⟨m, q, x, d, l, h⟩ := tqMirror_cases (s.setOwner o { s.owner o with tqHeld := (s.owner o).tqHeld ++ [r] }) o
      exact ⟨m, q, x, d, l, h⟩

/-- The cores alone. -/
theorem swapIn_cases (s : State) (c p n : Nat) (back : List Nat) : ∃ x, swapIn s c p n back = { s with cores := x } :=
  ⟨_, rfl⟩

/-- The cores alone. -/
theorem vacate_cases (s : State) (g : Nat) (out : Bool) : ∃ x, vacate s g out = { s with cores := x } := by
  unfold vacate
  dsimp only
  split
  · exact ⟨_, rfl⟩
  · split
    · exact ⟨_, rfl⟩
    · split <;> exact ⟨_, rfl⟩

/-- The cores alone. -/
theorem landPushes_cases (s : State) (g : Nat) : ∃ x, landPushes s g = { s with cores := x } := ⟨_, rfl⟩

/-- Taking an owner trap: the thread and its slot, and what posting the record writes. -/
theorem captureOwner_cases (s : State) (g cause sub : Nat) (info resume : Word) :
    ∃ m q t c x d l, captureOwner s g cause sub info resume =
      { s with mem := m, poison := q, threads := t, cores := c, owners := x, dies := d, launches := l } := by
  unfold captureOwner
  obtain ⟨c0, h0⟩ := landPushes_cases s g
  rw [h0]
  generalize hu : ({ s with cores := c0 } : State) = u
  dsimp only
  obtain ⟨m, q, x, d, l, h⟩ := postTrap_cases u (u.thread g).capture.owner
    { bytes := trapBytes u { (u.thread g).capture with cut := false, port := none } cause sub info
        (u.thread g).capture.pc resume (trapHead { (u.thread g).capture with cut := false, port := none } cause)
      fatal := trapFatal cause, g := g, resume := resume }
  rw [h]
  subst hu
  split
  · split
    · obtain ⟨c, h⟩ := vacate_cases _ g true
      rw [h]
      exact ⟨m, q, _, c, x, d, l, rfl⟩
    · obtain ⟨l', h⟩ := launchError_cases _ _ 0x11
      rw [h]
      obtain ⟨c, h⟩ := vacate_cases _ g true
      rw [h]
      exact ⟨m, q, _, c, x, d, l', rfl⟩
  · obtain ⟨c, h⟩ := vacate_cases _ g true
    rw [h]
    exact ⟨m, q, _, c, x, d, l, rfl⟩

/-- The traffic alone. -/
theorem send_cases (s : State) (r : Req) : ∃ x n, send s r = { s with traffic := x, nextId := n } := ⟨_, _, rfl⟩

/-- The traffic alone. -/
theorem sendFetch_cases (s : State) (g : Nat) (la : Word) :
    ∃ x n, sendFetch s g la = { s with traffic := x, nextId := n } := by
  unfold sendFetch
  dsimp only
  split
  · exact send_cases _ _
  · exact ⟨s.traffic, s.nextId, rfl⟩

/-- The traffic alone. -/
theorem sendWalk_cases (s : State) (g : Nat) (a : Word) (l table : Nat) :
    ∃ x n, sendWalk s g a l table = { s with traffic := x, nextId := n } := send_cases _ _

/-- The threads alone. -/
theorem portAsk_cases (s : State) (g : Nat) (a : Word) (n : Nat) : ∃ t, portAsk s g a n = { s with threads := t } := by
  unfold portAsk
  split
  · exact ⟨s.threads, rfl⟩
  · exact ⟨_, rfl⟩

/-- Parking: the thread, and the request of one that waits for a line or a table. -/
theorem parkThread_cases (s : State) (g : Nat) (w : Wait) :
    ∃ t x n, parkThread s g w = { s with threads := t, traffic := x, nextId := n } := by
  unfold parkThread
  dsimp only
  split
  · obtain ⟨x, n, h⟩ := sendFetch_cases (s.modThread g fun t => { t with status := .parked (.fetch ‹_›) }) g ‹_›
    exact ⟨_, x, n, h⟩
  · split
    · obtain ⟨x, n, h⟩ := sendWalk_cases (s.modThread g fun t => { t with status := .parked (.walk ‹_› ‹_›) }) g ‹_› 4 _
      exact ⟨_, x, n, h⟩
    · exact ⟨_, s.traffic, s.nextId, rfl⟩
  · obtain ⟨t, h⟩ := portAsk_cases (s.modThread g fun t => { t with status := .parked (.port ‹_› ‹_›) }) g ‹_› ‹_›
    rw [h]
    exact ⟨t, s.traffic, s.nextId, rfl⟩
  · exact ⟨_, s.traffic, s.nextId, rfl⟩

/-- What the shared control operations may change: threads and cores, the records of a trap (the owner's queue in memory,
the die's log, the launch's error), and the request for a line or a table. -/
def ControlOnly (s u : State) : Prop :=
  ∃ m q t c x d l r n, u =
    { s with
      mem := m, poison := q, threads := t, cores := c, owners := x, dies := d, launches := l, traffic := r, nextId := n }

theorem ControlOnly.refl (s : State) : ControlOnly s s := ⟨_, _, _, _, _, _, _, _, _, rfl⟩

theorem ControlOnly.trans {s u v : State} (h : ControlOnly s u) (h' : ControlOnly u v) : ControlOnly s v := by
  obtain ⟨_, _, _, _, _, _, _, _, _, rfl⟩ := h
  obtain ⟨m, q, t, c, x, d, l, r, n, rfl⟩ := h'
  exact ⟨m, q, t, c, x, d, l, r, n, rfl⟩

theorem ControlOnly.setThread {s u : State} (h : ControlOnly s u) (g : Nat) (t : Thread) :
    ControlOnly s (u.setThread g t) := h.trans ⟨_, _, _, _, _, _, _, _, _, rfl⟩

theorem captureOwner_control (s : State) (g cause sub : Nat) (info resume : Word) :
    ControlOnly s (captureOwner s g cause sub info resume) := by
  obtain ⟨m, q, t, c, x, d, l, h⟩ := captureOwner_cases s g cause sub info resume
  exact ⟨m, q, t, c, x, d, l, s.traffic, s.nextId, h⟩

theorem parkThread_control (s : State) (g : Nat) (w : Wait) : ControlOnly s (parkThread s g w) := by
  obtain ⟨t, x, n, h⟩ := parkThread_cases s g w
  exact ⟨s.mem, s.poison, t, s.cores, s.owners, s.dies, s.launches, x, n, h⟩

/-- Raising an owner trap (R226, R345). -/
theorem ownerTrap_control (s : State) (g cause sub : Nat) (info resume : Word) :
    ControlOnly s (ownerTrap s g cause sub info resume) := by
  unfold ownerTrap
  split
  · exact captureOwner_control _ _ _ _ _ _
  · exact parkThread_control _ _ _

/-- Entering a line that has come (R30, R40). -/
theorem enterLine_control (s : State) (g : Nat) (ln : BitVec 512) : ControlOnly s (enterLine s g ln) := by
  have h := (ControlOnly.refl s).setThread g
  unfold enterLine
  dsimp only
  split
  · exact h _
  · exact (h _).trans (ownerTrap_control _ _ _ _ _ _)

/-- Entering a line (R85). -/
theorem enter_control (s : State) (g : Nat) : ControlOnly s (enter s g) := by
  have h := (ControlOnly.refl s).setThread g
  unfold enter
  dsimp only
  split
  · exact (h _).trans (ownerTrap_control _ _ _ _ _ _)
  · split
    · exact enterLine_control _ _ _
    · split
      · exact (h _).trans (parkThread_control _ _ _)
      · exact (h _).trans (parkThread_control _ _ _)
      · exact (h _).trans (ownerTrap_control _ _ _ _ _ _)

theorem transferTo_control (s : State) (g : Nat) (pc : Word) : ControlOnly s (transferTo s g pc) := by
  have h := (ControlOnly.refl s).setThread g
  unfold transferTo
  dsimp only
  split
  · exact h _
  · exact (h _).trans (enter_control _ _)

theorem goTo_control (s : State) (g : Nat) (pc : Word) : ControlOnly s (goTo s g pc) := by
  unfold goTo
  dsimp only
  split
  · split
    · exact (ControlOnly.refl s).setThread g _
    · exact transferTo_control _ _ _
  · exact transferTo_control _ _ _

/-- Completing (R43, R84). -/
theorem retire_control (s : State) (g c : Nat) (st : Stall) (pair : Bool) (xfer : Option Word) :
    ControlOnly s (retire s g c st pair xfer) := by
  unfold retire
  dsimp only
  split
  · exact ((ControlOnly.refl s).setThread g _).trans (transferTo_control _ _ _)
  · exact ((ControlOnly.refl s).setThread g _).trans (goTo_control _ _ _)

theorem landPushes_control (s : State) (g : Nat) : ControlOnly s (landPushes s g) :=
  ⟨_, _, _, _, _, _, _, _, _, rfl⟩

theorem captureLocal_control (s : State) (g c cause sub : Nat) (info : Word) (atSucc pair : Bool) :
    ControlOnly s (captureLocal s g c cause sub info atSucc pair) := by
  unfold captureLocal
  refine (landPushes_control s g).trans ?_
  dsimp only
  split
  · exact captureOwner_control _ _ _ _ _ _
  · split
    · exact captureOwner_control _ _ _ _ _ _
    · exact ((ControlOnly.refl _).setThread g _).trans (transferTo_control _ _ _)

/-- Raising a local trap (R226, R343). -/
theorem takeLocal_control (s : State) (g c cause sub : Nat) (info : Word) (atSucc pair : Bool) :
    ControlOnly s (takeLocal s g c cause sub info atSucc pair) := by
  unfold takeLocal
  split
  · exact captureLocal_control _ _ _ _ _ _ _ _
  · exact parkThread_control _ _ _

/-- Stopping (R78, R79, R343, R345). -/
theorem applyStop_control (s : State) (g c : Nat) (pair : Bool) (e : Stop) : ControlOnly s (applyStop s g c pair e) := by
  cases e with
  | owner _ _ _ => exact ownerTrap_control _ _ _ _ _ _
  | localTrap _ _ _ => exact takeLocal_control _ _ _ _ _ _ _ _
  | park _ => exact parkThread_control _ _ _
  | forfeit => exact ⟨_, _, _, _, _, _, _, _, _, rfl⟩

/-- The core alone. -/
theorem turn_cases (s : State) (g c : Nat) (e : Stop) : ∃ x, e.turn s g c = { s with cores := x } := by
  cases e <;> exact ⟨_, rfl⟩

/-! ### Registers and queues -/

/-- A data error is counted in the owner, the thread and the launch. -/
theorem dataError_cases (s : State) (w : Who) :
    ∃ t x l, dataError s w = { s with threads := t, owners := x, launches := l } := by
  unfold dataError
  dsimp only
  obtain ⟨l, h⟩ := launchError_cases (s.modOwner w.owner fun x => { x with data := bump x.data }) w.launch 0x12
  rw [h]
  split
  · exact ⟨_, _, l, rfl⟩
  · exact ⟨s.threads, _, l, rfl⟩

theorem countBad_cases (s : State) (w : Who) (b : Bool) :
    ∃ t x l, countBad s w b = { s with threads := t, owners := x, launches := l } := by
  unfold countBad
  split
  · exact dataError_cases s w
  · exact ⟨s.threads, s.owners, s.launches, rfl⟩

/-- Reading a register: its bits, the waiting `rput`s, and what an uncorrectable one counts. -/
theorem readReg_cases (s : State) (g : Nat) (r : Fin 32) :
    ∃ t p x l, readReg s g r = { s with threads := t, rputs := p, owners := x, launches := l } := by
  unfold readReg
  dsimp only
  obtain ⟨t, x, l, h⟩ := countBad_cases s (whoIn s g) ((s.thread g).reg r).bad
  rw [h]
  split
  · exact ⟨_, _, x, l, rfl⟩
  · exact ⟨t, _, x, l, rfl⟩

theorem queuePop_cases (s : State) (c q n : Nat) : ∃ x, queuePop s c q n = { s with cores := x } := by
  unfold queuePop
  split
  · exact ⟨s.cores, rfl⟩
  · split
    · exact ⟨_, rfl⟩
    · dsimp only
      split
      · exact ⟨_, rfl⟩
      · split <;> exact ⟨_, rfl⟩

/-- A place that was kept and is given up changes cores alone. -/
theorem queueFree_cases (s : State) (c q : Nat) : ∃ x, queueFree s c q = { s with cores := x } := by
  unfold queueFree
  dsimp only
  split
  · exact ⟨_, rfl⟩
  · split <;> exact ⟨_, rfl⟩

/-- Putting a source back changes registers and queues. -/
theorem putBack_cases (s : State) (g : Nat) (n : RegNum) (v : Word) :
    ∃ x y, putBack s g n v = { s with threads := x, cores := y } := by
  unfold putBack
  split
  · exact ⟨s.threads, _, rfl⟩
  · dsimp only
    split
    · exact ⟨_, s.cores, rfl⟩
    · exact ⟨s.threads, s.cores, rfl⟩
  · exact ⟨s.threads, s.cores, rfl⟩

theorem putBackAll_cases (s : State) (g : Nat) (l : List (RegNum × Word)) :
    ∃ x y, putBackAll s g l = { s with threads := x, cores := y } := by
  induction l with
  | nil => exact ⟨s.threads, s.cores, rfl⟩
  | cons p l ih =>
    obtain ⟨x, y, h⟩ := ih
    obtain ⟨x', y', h'⟩ := putBack_cases (putBackAll s g l) g p.1 p.2
    exact ⟨x', y', by rw [putBackAll, h', h]⟩

theorem queuePush_cases (s : State) (c : Nat) (d : Dst) (p : Push) : ∃ x, queuePush s c d p = { s with cores := x } := by
  unfold queuePush
  split
  · split
    · split
      · exact ⟨_, rfl⟩
      · exact ⟨s.cores, rfl⟩
    · exact ⟨s.cores, rfl⟩
  · dsimp only
    split
    · exact ⟨s.cores, rfl⟩
    · split <;> exact ⟨_, rfl⟩
  · exact ⟨s.cores, rfl⟩

/-- Reading registers: their bits, waiting `rput`s, and what uncorrectable ones count. -/
theorem readRegs_cases (s : State) (g : Nat) (ss : List Src) :
    ∃ t p x l, readRegs s g ss = { s with threads := t, rputs := p, owners := x, launches := l } := by
  have h : ∀ (l : List (Fin 32)) (u : State), ∃ t p x k,
      l.foldl (fun s r => readReg s g r) u = { u with threads := t, rputs := p, owners := x, launches := k } := by
    intro l
    induction l with
    | nil => exact fun u => ⟨u.threads, u.rputs, u.owners, u.launches, rfl⟩
    | cons a l ih =>
      intro u
      obtain ⟨t, p, x, k, h⟩ := readReg_cases u g a
      obtain ⟨t', p', x', k', h'⟩ := ih (readReg u g a)
      exact ⟨t', p', x', k', by rw [List.foldl_cons, h', h]⟩
  exact h _ s

/-- A fold whose every turn changes cores alone does so. -/
theorem foldl_cores {α : Type} (f : State → α → State) (hf : ∀ u a, ∃ y, f u a = { u with cores := y }) (l : List α) :
    ∀ u : State, ∃ y, l.foldl f u = { u with cores := y } := by
  induction l with
  | nil => exact fun u => ⟨u.cores, rfl⟩
  | cons a l ih =>
    intro u
    obtain ⟨y, h⟩ := hf u a
    obtain ⟨y', h'⟩ := ih (f u a)
    exact ⟨y', by rw [List.foldl_cons, h', h]⟩

/-- Reading sources changes registers' bits, waiting `rput`s, queues and what uncorrectable registers count. -/
theorem consume_cases (s : State) (g : Nat) (ss : List Src) :
    ∃ t p x l y, consume s g ss = { s with threads := t, rputs := p, owners := x, launches := l, cores := y } := by
  obtain ⟨t, p, x, l, h⟩ := readRegs_cases s g ss
  obtain ⟨y, h'⟩ := foldl_cores (fun s q => queuePop s (coreOf g) q (countQueue q ss)) (fun u a => queuePop_cases u _ a _)
    (List.range 5) (readRegs s g ss)
  exact ⟨t, p, x, l, y, by rw [consume, h', h]⟩

/-- So does reading the sources of an instruction that may give them back. -/
theorem consumeKept_cases (s : State) (g : Nat) (ss : List Src) :
    ∃ t p x l y, consumeKept s g ss = { s with threads := t, rputs := p, owners := x, launches := l, cores := y } := by
  obtain ⟨t, p, x, l, h⟩ := readRegs_cases s g ss
  obtain ⟨y, h'⟩ := foldl_cores (fun s q =>
      if countQueue q ss = 0 then s else s.modCore (coreOf g) fun x => x.takeEntries q (countQueue q ss))
    (fun u a => by split <;> exact ⟨_, rfl⟩) (List.range 5) (readRegs s g ss)
  exact ⟨t, p, x, l, y, by rw [consumeKept, h', h]⟩

/-- The places kept for fields that are read for good change cores alone. -/
theorem freeFields_cases (g : Nat) (l : List (RegNum × Word)) :
    ∀ s : State, ∃ y, freeFields s g l = { s with cores := y } := by
  induction l with
  | nil => exact fun s => ⟨s.cores, rfl⟩
  | cons p l ih =>
    intro s
    unfold freeFields
    split
    · obtain ⟨y, h⟩ := queueFree_cases s (coreOf g) ‹_›
      obtain ⟨y', h'⟩ := ih (queueFree s (coreOf g) ‹_›)
      exact ⟨y', by rw [h', h]⟩
    · exact ih s

theorem writeLater_cases (s : State) (g : Nat) (d : Dst) (v : Word) (due : Nat) :
    ∃ x y, writeLater s g d v due = { s with threads := x, cores := y } := by
  unfold writeLater
  split
  · exact ⟨s.threads, s.cores, rfl⟩
  · exact ⟨_, s.cores, rfl⟩
  · obtain ⟨y, h⟩ := queuePush_cases s (coreOf g) d { val := some v, due := due, g := g, serial := (s.thread g).serial, tag := 0 }
    exact ⟨s.threads, y, h⟩

theorem awaitDst_cases (s : State) (g : Nat) (d : Dst) (tag : Nat) :
    ∃ x l y, awaitDst s g d tag = { s with threads := x, rputs := l, cores := y } := by
  unfold awaitDst
  split
  · exact ⟨s.threads, s.rputs, s.cores, rfl⟩
  · exact ⟨_, _, s.cores, rfl⟩
  · obtain ⟨y, h⟩ := queuePush_cases s (coreOf g) d { val := none, due := 0, g := g, serial := (s.thread g).serial, tag := tag }
    exact ⟨s.threads, s.rputs, y, h⟩

theorem fillDst_cases (s : State) (g : Nat) (d : Dst) (v : Word) (tag : Nat) :
    ∃ x y, fillDst s g d v tag = { s with threads := x, cores := y } := by
  unfold fillDst
  split
  · exact ⟨s.threads, s.cores, rfl⟩
  · exact ⟨_, s.cores, rfl⟩
  · split
    · split
      · exact ⟨s.threads, _, rfl⟩
      · exact ⟨s.threads, s.cores, rfl⟩
    · exact ⟨s.threads, s.cores, rfl⟩
  · split
    · exact ⟨s.threads, s.cores, rfl⟩
    · split
      · exact ⟨s.threads, _, rfl⟩
      · exact ⟨s.threads, s.cores, rfl⟩

end Sys2Proof.Machine
end

