-- ==== Sys2Proof/Laws/PerInstr.lean ====
section
/-! SUPPORT. A statement per instruction: its tail fits the length that its head gives (R31), so that its words lie in a
line as the encoding has them. -/

namespace Sys2Proof.Laws.TailFits

/-- The tail of an encoded instruction has no bit above the tail length of its head. -/
def Statement (i : Instr) : Prop :=
  ∀ h t, i.wf = true → encode i = some (h, t) → t.toNat < 2 ^ tailBits (headL h)

theorem headL_mkHead (l : BitVec 2) (s : Stall) (op : BitVec 8) (x : BitVec 3) : headL (mkHead l s op x) = l := by
  unfold headL mkHead
  ext i hi
  simp only [BitVec.getElem_extractLsb', BitVec.getLsbD_append]
  simp [show ¬ 14 + i < 3 by omega, show ¬ 14 + i - 3 < 8 by omega, show ¬ 14 + i - 3 - 8 < 3 by omega,
    show 14 + i - 3 - 8 - 3 = i by omega, BitVec.getLsbD_eq_getElem hi]

theorem append_lt {m n k : Nat} (x : BitVec m) (y : BitVec n) (h : x.toNat < 2 ^ k) : (x ++ y).toNat < 2 ^ (k + n) := by
  rw [BitVec.toNat_append]
  refine Nat.or_lt_two_pow ?_ (Nat.lt_of_lt_of_le y.isLt (Nat.pow_le_pow_right (by omega) (by omega)))
  rw [Nat.shiftLeft_eq, Nat.pow_add]
  exact Nat.mul_lt_mul_of_pos_right h (Nat.two_pow_pos n)

theorem tailB_lt (a d : RegNum) : (tailB a d).toNat < 2 ^ tailBits 1 :=
  Nat.lt_of_lt_of_le (append_lt (k := 6) _ d (append_lt (k := 0) _ a (by simp))) (by decide)

theorem tailC_lt (n : BitVec 14) (b a d : RegNum) : (tailC n b a d).toNat < 2 ^ tailBits 2 :=
  append_lt (k := 26) _ d (append_lt (k := 20) _ a (append_lt (k := 14) _ b (append_lt (k := 0) _ n (by simp))))

theorem tailJ_lt (t : Target) : (tailJ t).toNat < 2 ^ tailBits 2 :=
  Nat.lt_of_lt_of_le (append_lt (k := 22) _ t.hd (append_lt (k := 0) _ t.off (by simp))) (by decide)

theorem tailM_lt (m : MemOp 14) (d : RegNum) : (tailM m d).toNat < 2 ^ tailBits 2 :=
  append_lt (k := 26) _ d (append_lt (k := 20) _ m.off (append_lt (k := 17) _ m.seg (append_lt (k := 15) _ m.kw
    (append_lt (k := 14) _ (bit m.sc) (append_lt (k := 0) _ m.disp (by simp))))))

theorem zero_lt (l : BitVec 2) : (0 : BitVec 64).toNat < 2 ^ tailBits l := by simp

theorem all_lt (t : BitVec 64) : t.toNat < 2 ^ tailBits 3 := t.isLt

/-- The statement from what encode gives. -/
theorem of_encode {i : Instr} {l : BitVec 2} {s : Stall} {op : BitVec 8} {x : BitVec 3} {t : BitVec 64}
    (he : encode i = some (mkHead l s op x, t)) (ht : t.toNat < 2 ^ tailBits l) : Statement i := by
  intro h t' _ h'
  rw [he] at h'
  obtain ⟨rfl, rfl⟩ := Prod.mk.inj (Option.some.inj h')
  rwa [headL_mkHead]

/-- The statement of a row that has no encoding: an event. -/
theorem of_none {i : Instr} (he : encode i = none) : Statement i := by
  intro h t _ h'
  rw [he] at h'
  cases h'

end Sys2Proof.Laws.TailFits

open Sys2Proof Sys2Proof.Laws.TailFits

theorem Sys2Proof.Laws.TailFits.nop (l : BitVec 2) (s : Stall) (x : BitVec 3) (t : BitVec 64) : Statement (.nop l s x t) := by
  intro h t' hw h'
  obtain ⟨rfl, rfl⟩ := Prod.mk.inj (Option.some.inj h')
  rw [headL_mkHead]
  simpa [Instr.wf] using hw

theorem Sys2Proof.Laws.TailFits.rx : Statement .rx := of_encode rfl (zero_lt _)
theorem Sys2Proof.Laws.TailFits.br (s : Stall) (t : Target) : Statement (.br s t) := of_encode rfl (tailJ_lt _)
theorem Sys2Proof.Laws.TailFits.bc (s : Stall) (c : Cond) (a b : RegNum) (t : Target) : Statement (.bc s c a b t) :=
  of_encode rfl (all_lt _)
theorem Sys2Proof.Laws.TailFits.bcz (s : Stall) (c : ZCond) (a : RegNum) (t : Target) : Statement (.bcz s c a t) :=
  of_encode rfl (all_lt _)
theorem Sys2Proof.Laws.TailFits.call (s : Stall) (t : Target) : Statement (.call s t) := of_encode rfl (tailJ_lt _)
theorem Sys2Proof.Laws.TailFits.callr (s : Stall) (a : RegNum) : Statement (.callr s a) :=
  of_encode rfl (tailB_lt _ _)
theorem Sys2Proof.Laws.TailFits.jr (s : Stall) (a : RegNum) : Statement (.jr s a) := of_encode rfl (tailB_lt _ _)
theorem Sys2Proof.Laws.TailFits.ret (s : Stall) : Statement (.ret s) := of_encode rfl (zero_lt _)
theorem Sys2Proof.Laws.TailFits.loop (s : Stall) (lv : Bool) (a : RegNum) (t : Target) : Statement (.loop s lv a t) :=
  of_encode rfl (all_lt _)
theorem Sys2Proof.Laws.TailFits.brot (s : Stall) : Statement (.brot s) := of_encode rfl (zero_lt _)
theorem Sys2Proof.Laws.TailFits.halt (s : Stall) : Statement (.halt s) := of_encode rfl (zero_lt _)
theorem Sys2Proof.Laws.TailFits.yield (s : Stall) : Statement (.yield s) := of_encode rfl (zero_lt _)
theorem Sys2Proof.Laws.TailFits.pwait (s : Stall) (a : RegNum) : Statement (.pwait s a) :=
  of_encode rfl (tailB_lt _ _)
theorem Sys2Proof.Laws.TailFits.setrb (s : Stall) (n : BitVec 3) : Statement (.setrb s n) :=
  of_encode rfl (tailC_lt _ _ _ _)
theorem Sys2Proof.Laws.TailFits.getrb (s : Stall) (d : RegNum) : Statement (.getrb s d) :=
  of_encode rfl (tailB_lt _ _)
theorem Sys2Proof.Laws.TailFits.isync (s : Stall) : Statement (.isync s) := of_encode rfl (zero_lt _)
theorem Sys2Proof.Laws.TailFits.ldpc (s : Stall) (d : RegNum) (t : Target) : Statement (.ldpc s d t) :=
  of_encode rfl (all_lt _)
theorem Sys2Proof.Laws.TailFits.tbr (s : Stall) (d : RegNum) : Statement (.tbr s d) := of_encode rfl (tailB_lt _ _)
theorem Sys2Proof.Laws.TailFits.add (s : Stall) (w : Bool) (d a b : RegNum) : Statement (.add s w d a b) :=
  of_encode rfl (tailC_lt _ _ _ _)
theorem Sys2Proof.Laws.TailFits.sub (s : Stall) (w : Bool) (d a b : RegNum) : Statement (.sub s w d a b) :=
  of_encode rfl (tailC_lt _ _ _ _)
theorem Sys2Proof.Laws.TailFits.addiC (s : Stall) (w : Bool) (d a : RegNum) (n : BitVec 14) : Statement (.addiC s w d a n) :=
  of_encode rfl (tailC_lt _ _ _ _)
theorem Sys2Proof.Laws.TailFits.addiD (s : Stall) (w : Bool) (d a : RegNum) (n : BitVec 40) : Statement (.addiD s w d a n) :=
  of_encode rfl (all_lt _)
theorem Sys2Proof.Laws.TailFits.mul (s : Stall) (w : Bool) (d a b : RegNum) : Statement (.mul s w d a b) :=
  of_encode rfl (tailC_lt _ _ _ _)
theorem Sys2Proof.Laws.TailFits.mulh (s : Stall) (w : Bool) (d a b : RegNum) : Statement (.mulh s w d a b) :=
  of_encode rfl (tailC_lt _ _ _ _)
theorem Sys2Proof.Laws.TailFits.mulhu (s : Stall) (w : Bool) (d a b : RegNum) : Statement (.mulhu s w d a b) :=
  of_encode rfl (tailC_lt _ _ _ _)
theorem Sys2Proof.Laws.TailFits.mad (s : Stall) (w : Bool) (d a b c : RegNum) : Statement (.mad s w d a b c) :=
  of_encode rfl (all_lt _)
theorem Sys2Proof.Laws.TailFits.div (s : Stall) (w : Bool) (d a b : RegNum) : Statement (.div s w d a b) :=
  of_encode rfl (tailC_lt _ _ _ _)
theorem Sys2Proof.Laws.TailFits.divu (s : Stall) (w : Bool) (d a b : RegNum) : Statement (.divu s w d a b) :=
  of_encode rfl (tailC_lt _ _ _ _)
theorem Sys2Proof.Laws.TailFits.rem (s : Stall) (w : Bool) (d a b : RegNum) : Statement (.rem s w d a b) :=
  of_encode rfl (tailC_lt _ _ _ _)
theorem Sys2Proof.Laws.TailFits.remu (s : Stall) (w : Bool) (d a b : RegNum) : Statement (.remu s w d a b) :=
  of_encode rfl (tailC_lt _ _ _ _)
theorem Sys2Proof.Laws.TailFits.and (s : Stall) (w : Bool) (d a b : RegNum) : Statement (.and s w d a b) :=
  of_encode rfl (tailC_lt _ _ _ _)
theorem Sys2Proof.Laws.TailFits.or (s : Stall) (w : Bool) (d a b : RegNum) : Statement (.or s w d a b) :=
  of_encode rfl (tailC_lt _ _ _ _)
theorem Sys2Proof.Laws.TailFits.xor (s : Stall) (w : Bool) (d a b : RegNum) : Statement (.xor s w d a b) :=
  of_encode rfl (tailC_lt _ _ _ _)
theorem Sys2Proof.Laws.TailFits.andn (s : Stall) (w : Bool) (d a b : RegNum) : Statement (.andn s w d a b) :=
  of_encode rfl (tailC_lt _ _ _ _)
theorem Sys2Proof.Laws.TailFits.shl (s : Stall) (w : Bool) (d a b : RegNum) : Statement (.shl s w d a b) :=
  of_encode rfl (tailC_lt _ _ _ _)
theorem Sys2Proof.Laws.TailFits.shr (s : Stall) (w : Bool) (d a b : RegNum) : Statement (.shr s w d a b) :=
  of_encode rfl (tailC_lt _ _ _ _)
theorem Sys2Proof.Laws.TailFits.sar (s : Stall) (w : Bool) (d a b : RegNum) : Statement (.sar s w d a b) :=
  of_encode rfl (tailC_lt _ _ _ _)
theorem Sys2Proof.Laws.TailFits.rol (s : Stall) (w : Bool) (d a b : RegNum) : Statement (.rol s w d a b) :=
  of_encode rfl (tailC_lt _ _ _ _)
theorem Sys2Proof.Laws.TailFits.min (s : Stall) (w : Bool) (d a b : RegNum) : Statement (.min s w d a b) :=
  of_encode rfl (tailC_lt _ _ _ _)
theorem Sys2Proof.Laws.TailFits.max (s : Stall) (w : Bool) (d a b : RegNum) : Statement (.max s w d a b) :=
  of_encode rfl (tailC_lt _ _ _ _)
theorem Sys2Proof.Laws.TailFits.minu (s : Stall) (w : Bool) (d a b : RegNum) : Statement (.minu s w d a b) :=
  of_encode rfl (tailC_lt _ _ _ _)
theorem Sys2Proof.Laws.TailFits.maxu (s : Stall) (w : Bool) (d a b : RegNum) : Statement (.maxu s w d a b) :=
  of_encode rfl (tailC_lt _ _ _ _)
theorem Sys2Proof.Laws.TailFits.set (s : Stall) (c : Cond) (d a b : RegNum) : Statement (.set s c d a b) :=
  of_encode rfl (tailC_lt _ _ _ _)
theorem Sys2Proof.Laws.TailFits.sel (s : Stall) (d a b c : RegNum) : Statement (.sel s d a b c) :=
  of_encode rfl (all_lt _)
theorem Sys2Proof.Laws.TailFits.bcnt (s : Stall) (k : BcntKind) (d a : RegNum) : Statement (.bcnt s k d a) :=
  of_encode rfl (tailB_lt _ _)
theorem Sys2Proof.Laws.TailFits.bext (s : Stall) (w : Bool) (d a : RegNum) (pos len1 : BitVec 6) : Statement (.bext s w d a pos len1) :=
  of_encode rfl (tailC_lt _ _ _ _)
theorem Sys2Proof.Laws.TailFits.bins (s : Stall) (w : Bool) (d a : RegNum) (pos len1 : BitVec 6) : Statement (.bins s w d a pos len1) :=
  of_encode rfl (tailC_lt _ _ _ _)
theorem Sys2Proof.Laws.TailFits.liC (s : Stall) (d : RegNum) (n : BitVec 14) : Statement (.liC s d n) :=
  of_encode rfl (tailC_lt _ _ _ _)
theorem Sys2Proof.Laws.TailFits.liD (s : Stall) (d : RegNum) (n : BitVec 40) : Statement (.liD s d n) :=
  of_encode rfl (all_lt _)
theorem Sys2Proof.Laws.TailFits.liHi (s : Stall) (d : RegNum) (n : BitVec 24) : Statement (.liHi s d n) :=
  of_encode rfl (all_lt _)
theorem Sys2Proof.Laws.TailFits.mov (s : Stall) (d a : RegNum) : Statement (.mov s d a) :=
  of_encode rfl (tailB_lt _ _)
theorem Sys2Proof.Laws.TailFits.ext (s : Stall) (k : ExtKind) (d a : RegNum) : Statement (.ext s k d a) :=
  of_encode rfl (tailB_lt _ _)
theorem Sys2Proof.Laws.TailFits.abs (s : Stall) (w : Bool) (d a : RegNum) : Statement (.abs s w d a) :=
  of_encode rfl (tailB_lt _ _)
theorem Sys2Proof.Laws.TailFits.ldM (s : Stall) (z : Width) (d : RegNum) (m : MemOp 14) : Statement (.ldM s z d m) :=
  of_encode rfl (tailM_lt _ _)
theorem Sys2Proof.Laws.TailFits.ldN (s : Stall) (z : Width) (d : RegNum) (m : MemOp 40) : Statement (.ldN s z d m) :=
  of_encode rfl (all_lt _)
theorem Sys2Proof.Laws.TailFits.lduM (s : Stall) (z : Width) (d : RegNum) (m : MemOp 14) : Statement (.lduM s z d m) :=
  of_encode rfl (tailM_lt _ _)
theorem Sys2Proof.Laws.TailFits.lduN (s : Stall) (z : Width) (d : RegNum) (m : MemOp 40) : Statement (.lduN s z d m) :=
  of_encode rfl (all_lt _)
theorem Sys2Proof.Laws.TailFits.stM (s : Stall) (z : Width) (a : RegNum) (m : MemOp 14) : Statement (.stM s z a m) :=
  of_encode rfl (tailM_lt _ _)
theorem Sys2Proof.Laws.TailFits.stN (s : Stall) (z : Width) (a : RegNum) (m : MemOp 40) : Statement (.stN s z a m) :=
  of_encode rfl (all_lt _)
theorem Sys2Proof.Laws.TailFits.ldp (s : Stall) (dbl : Bool) (d d2 : RegNum) (m : MemOp 40) : Statement (.ldp s dbl d d2 m) :=
  of_encode rfl (all_lt _)
theorem Sys2Proof.Laws.TailFits.stp (s : Stall) (dbl : Bool) (a a2 : RegNum) (m : MemOp 40) : Statement (.stp s dbl a a2 m) :=
  of_encode rfl (all_lt _)
theorem Sys2Proof.Laws.TailFits.leaM (s : Stall) (d : RegNum) (m : MemOp 14) : Statement (.leaM s d m) :=
  of_encode rfl (tailM_lt _ _)
theorem Sys2Proof.Laws.TailFits.leaN (s : Stall) (d : RegNum) (m : MemOp 40) : Statement (.leaN s d m) :=
  of_encode rfl (all_lt _)
theorem Sys2Proof.Laws.TailFits.sset (s : Stall) (n : BitVec 3) (a b : RegNum) (code : BitVec 6) : Statement (.sset s n a b code) :=
  of_encode rfl (tailC_lt _ _ _ _)
theorem Sys2Proof.Laws.TailFits.sget (s : Stall) (f : SegField) (d : RegNum) (n : BitVec 3) : Statement (.sget s f d n) :=
  of_encode rfl (tailC_lt _ _ _ _)
theorem Sys2Proof.Laws.TailFits.sadj (s : Stall) (lim : Bool) (n : BitVec 3) (a : RegNum) : Statement (.sadj s lim n a) :=
  of_encode rfl (tailC_lt _ _ _ _)
theorem Sys2Proof.Laws.TailFits.fence (s : Stall) : Statement (.fence s) := of_encode rfl (zero_lt _)
theorem Sys2Proof.Laws.TailFits.xfence (s : Stall) (p q : Path) : Statement (.xfence s p q) :=
  of_encode rfl (tailC_lt _ _ _ _)
theorem Sys2Proof.Laws.TailFits.cwait (s : Stall) (k : BitVec 2) : Statement (.cwait s k) := of_encode rfl (zero_lt _)
theorem Sys2Proof.Laws.TailFits.bfmt (s : Stall) (bank fmt : BitVec 5) : Statement (.bfmt s bank fmt) :=
  of_encode rfl (tailC_lt _ _ _ _)
theorem Sys2Proof.Laws.TailFits.bfget (s : Stall) (d : RegNum) (bank : BitVec 5) : Statement (.bfget s d bank) :=
  of_encode rfl (tailC_lt _ _ _ _)
theorem Sys2Proof.Laws.TailFits.amo (s : Stall) (op : AmoOp) (dbl : Bool) (d a : RegNum) (m : MemOp 38) : Statement (.amo s op dbl d a m) :=
  of_encode rfl (all_lt _)
theorem Sys2Proof.Laws.TailFits.swap (s : Stall) (dbl : Bool) (d a : RegNum) (m : MemOp 38) : Statement (.swap s dbl d a m) :=
  of_encode rfl (all_lt _)
theorem Sys2Proof.Laws.TailFits.cas (s : Stall) (dbl : Bool) (d a : RegNum) (m : MemOp 38) : Statement (.cas s dbl d a m) :=
  of_encode rfl (all_lt _)
theorem Sys2Proof.Laws.TailFits.fadd (s : Stall) (dbl : Bool) (d a : RegNum) (m : MemOp 38) : Statement (.fadd s dbl d a m) :=
  of_encode rfl (all_lt _)
theorem Sys2Proof.Laws.TailFits.dadd (s : Stall) (dbl : Bool) (a : RegNum) (m : MemOp 38) : Statement (.dadd s dbl a m) :=
  of_encode rfl (all_lt _)
theorem Sys2Proof.Laws.TailFits.sigupM (s : Stall) (set : Bool) (a : RegNum) (m : MemOp 14) : Statement (.sigupM s set a m) :=
  of_encode rfl (tailM_lt _ _)
theorem Sys2Proof.Laws.TailFits.sigupN (s : Stall) (set : Bool) (a : RegNum) (m : MemOp 40) : Statement (.sigupN s set a m) :=
  of_encode rfl (all_lt _)
theorem Sys2Proof.Laws.TailFits.sigwait (s : Stall) (c : SigCond) (d a : RegNum) (m : MemOp 40) : Statement (.sigwait s c d a m) :=
  of_encode rfl (all_lt _)
theorem Sys2Proof.Laws.TailFits.bar (s : Stall) : Statement (.bar s) := of_encode rfl (zero_lt _)
theorem Sys2Proof.Laws.TailFits.barReset (s : Stall) : Statement (.barReset s) := of_encode rfl (zero_lt _)
theorem Sys2Proof.Laws.TailFits.barto (s : Stall) (d a : RegNum) : Statement (.barto s d a) :=
  of_encode rfl (tailB_lt _ _)
theorem Sys2Proof.Laws.TailFits.qpoll (s : Stall) (d a : RegNum) : Statement (.qpoll s d a) :=
  of_encode rfl (tailB_lt _ _)
theorem Sys2Proof.Laws.TailFits.qcnt (s : Stall) (d a : RegNum) : Statement (.qcnt s d a) :=
  of_encode rfl (tailB_lt _ _)
theorem Sys2Proof.Laws.TailFits.rput (s : Stall) (a b : RegNum) (reg : BitVec 14) : Statement (.rput s a b reg) :=
  of_encode rfl (tailC_lt _ _ _ _)
theorem Sys2Proof.Laws.TailFits.cpy (s : Stall) (ch : BitVec 2) (cf : Bool) (buf len : RegNum) (m : MemOp 40) : Statement (.cpy s ch cf buf len m) :=
  of_encode rfl (all_lt _)
theorem Sys2Proof.Laws.TailFits.cpy2 (s : Stall) (ch : BitVec 2) (cf : Bool) (buf a b c : RegNum) (seg : BitVec 3) : Statement (.cpy2 s ch cf buf a b c seg) :=
  of_encode rfl (all_lt _)
theorem Sys2Proof.Laws.TailFits.cpyg (s : Stall) (ch : BitVec 2) (cf : Bool) (buf a b c : RegNum) (seg : BitVec 3) : Statement (.cpyg s ch cf buf a b c seg) :=
  of_encode rfl (all_lt _)
theorem Sys2Proof.Laws.TailFits.cpys (s : Stall) (ch : BitVec 2) (cf : Bool) (buf a b c : RegNum) (seg : BitVec 3) : Statement (.cpys s ch cf buf a b c seg) :=
  of_encode rfl (all_lt _)
theorem Sys2Proof.Laws.TailFits.bufdecl (s : Stall) (buf len : RegNum) (m : MemOp 40) : Statement (.bufdecl s buf len m) :=
  of_encode rfl (all_lt _)
theorem Sys2Proof.Laws.TailFits.bufset (s : Stall) (e : BufEvent) (buf : BitVec 5) : Statement (.bufset s e buf) :=
  of_encode rfl (tailC_lt _ _ _ _)
theorem Sys2Proof.Laws.TailFits.bufget (s : Stall) (d : RegNum) (buf : BitVec 5) : Statement (.bufget s d buf) :=
  of_encode rfl (tailC_lt _ _ _ _)
theorem Sys2Proof.Laws.TailFits.cwp (s : Stall) (ch : BitVec 2) (d : RegNum) : Statement (.cwp s ch d) :=
  of_encode rfl (tailB_lt _ _)
theorem Sys2Proof.Laws.TailFits.chbind (s : Stall) (out : Bool) (d : RegNum) : Statement (.chbind s out d) :=
  of_encode rfl (tailB_lt _ _)
theorem Sys2Proof.Laws.TailFits.vld (s : Stall) (fmt : BitVec 4) (wd : BitVec 3) (m : VMem) (mask : BitVec 2) (r : VRnd) : Statement (.vld s fmt wd m mask r) :=
  of_encode rfl (all_lt _)
theorem Sys2Proof.Laws.TailFits.vst (s : Stall) (fmt : BitVec 4) (wa : BitVec 3) (m : VMem) (mask : BitVec 2) (r : VRnd) : Statement (.vst s fmt wa m mask r) :=
  of_encode rfl (all_lt _)
theorem Sys2Proof.Laws.TailFits.vldg (s : Stall) (fmt : BitVec 4) (wd wb : BitVec 3) (m : VMem) (mask : BitVec 2) (r : VRnd) : Statement (.vldg s fmt wd wb m mask r) :=
  of_encode rfl (all_lt _)
theorem Sys2Proof.Laws.TailFits.vsts (s : Stall) (fmt : BitVec 4) (wa wb : BitVec 3) (m : VMem) (mask : BitVec 2) (r : VRnd) : Statement (.vsts s fmt wa wb m mask r) :=
  of_encode rfl (all_lt _)
theorem Sys2Proof.Laws.TailFits.vadd (s : Stall) (fmt : BitVec 4) (wd wa wb : BitVec 3) (mask : BitVec 2) (r : FRnd) : Statement (.vadd s fmt wd wa wb mask r) :=
  of_encode rfl (all_lt _)
theorem Sys2Proof.Laws.TailFits.vsub (s : Stall) (fmt : BitVec 4) (wd wa wb : BitVec 3) (mask : BitVec 2) (r : FRnd) : Statement (.vsub s fmt wd wa wb mask r) :=
  of_encode rfl (all_lt _)
theorem Sys2Proof.Laws.TailFits.vmul (s : Stall) (fmt : BitVec 4) (wd wa wb : BitVec 3) (mask : BitVec 2) (r : FRnd) : Statement (.vmul s fmt wd wa wb mask r) :=
  of_encode rfl (all_lt _)
theorem Sys2Proof.Laws.TailFits.vfma (s : Stall) (fmt : BitVec 4) (wd wa wb wc : BitVec 3) (mask : BitVec 2) (r : FRnd) : Statement (.vfma s fmt wd wa wb wc mask r) :=
  of_encode rfl (all_lt _)
theorem Sys2Proof.Laws.TailFits.vmin (s : Stall) (fmt : BitVec 4) (wd wa wb : BitVec 3) (mask : BitVec 2) (flush : Bool) : Statement (.vmin s fmt wd wa wb mask flush) :=
  of_encode rfl (all_lt _)
theorem Sys2Proof.Laws.TailFits.vmax (s : Stall) (fmt : BitVec 4) (wd wa wb : BitVec 3) (mask : BitVec 2) (flush : Bool) : Statement (.vmax s fmt wd wa wb mask flush) :=
  of_encode rfl (all_lt _)
theorem Sys2Proof.Laws.TailFits.vun (s : Stall) (op : VunOp) (fmt : BitVec 4) (wd wa : BitVec 3) (mask : BitVec 2) (r : FRnd) : Statement (.vun s op fmt wd wa mask r) :=
  of_encode rfl (all_lt _)
theorem Sys2Proof.Laws.TailFits.vcvt (s : Stall) (dst src : BitVec 4) (part : BitVec 3) (wd wa : BitVec 3) (mask : BitVec 2) (r : VRnd) : Statement (.vcvt s dst src part wd wa mask r) :=
  of_encode rfl (all_lt _)
theorem Sys2Proof.Laws.TailFits.vcmp (s : Stall) (c : VCond) (fmt : BitVec 4) (mk : BitVec 2) (wa wb : BitVec 3) (mask : BitVec 2) (flush : Bool) : Statement (.vcmp s c fmt mk wa wb mask flush) :=
  of_encode rfl (all_lt _)
theorem Sys2Proof.Laws.TailFits.vsel (s : Stall) (fmt : BitVec 4) (wd wa wb : BitVec 3) (mask : BitVec 2) : Statement (.vsel s fmt wd wa wb mask) :=
  of_encode rfl (all_lt _)
theorem Sys2Proof.Laws.TailFits.vred (s : Stall) (op : VRedOp) (fmt : BitVec 4) (g : RegNum) (wa : BitVec 3) (mask : BitVec 2) (r : FRnd) : Statement (.vred s op fmt g wa mask r) :=
  of_encode rfl (all_lt _)
theorem Sys2Proof.Laws.TailFits.vscan (s : Stall) (op : VRedOp) (fmt : BitVec 4) (wd wa : BitVec 3) (mask : BitVec 2) (r : FRnd) : Statement (.vscan s op fmt wd wa mask r) :=
  of_encode rfl (all_lt _)
theorem Sys2Proof.Laws.TailFits.vperm (s : Stall) (fmt : BitVec 4) (wd wa wb : BitVec 3) (mask : BitVec 2) : Statement (.vperm s fmt wd wa wb mask) :=
  of_encode rfl (all_lt _)
theorem Sys2Proof.Laws.TailFits.vbcast (s : Stall) (fmt : BitVec 4) (wd : BitVec 3) (g : RegNum) (mask : BitVec 2) : Statement (.vbcast s fmt wd g mask) :=
  of_encode rfl (all_lt _)
theorem Sys2Proof.Laws.TailFits.vdot (s : Stall) (fmt : BitVec 4) (lg : BitVec 4) (wd wa wb : BitVec 3) (mask : BitVec 2) (r : FRnd) : Statement (.vdot s fmt lg wd wa wb mask r) :=
  of_encode rfl (all_lt _)
theorem Sys2Proof.Laws.TailFits.vfn (s : Stall) (op : VfnOp) (fmt : BitVec 4) (wd wa : BitVec 3) (mask : BitVec 2) (flush : Bool) : Statement (.vfn s op fmt wd wa mask flush) :=
  of_encode rfl (all_lt _)
theorem Sys2Proof.Laws.TailFits.vand (s : Stall) (fmt : BitVec 4) (wd wa wb : BitVec 3) (mask : BitVec 2) : Statement (.vand s fmt wd wa wb mask) :=
  of_encode rfl (all_lt _)
theorem Sys2Proof.Laws.TailFits.vor (s : Stall) (fmt : BitVec 4) (wd wa wb : BitVec 3) (mask : BitVec 2) : Statement (.vor s fmt wd wa wb mask) :=
  of_encode rfl (all_lt _)
theorem Sys2Proof.Laws.TailFits.vxor (s : Stall) (fmt : BitVec 4) (wd wa wb : BitVec 3) (mask : BitVec 2) : Statement (.vxor s fmt wd wa wb mask) :=
  of_encode rfl (all_lt _)
theorem Sys2Proof.Laws.TailFits.vshl (s : Stall) (fmt : BitVec 4) (wd wa wb : BitVec 3) (mask : BitVec 2) : Statement (.vshl s fmt wd wa wb mask) :=
  of_encode rfl (all_lt _)
theorem Sys2Proof.Laws.TailFits.vshr (s : Stall) (arith : Bool) (fmt : BitVec 4) (wd wa wb : BitVec 3) (mask : BitVec 2) : Statement (.vshr s arith fmt wd wa wb mask) :=
  of_encode rfl (all_lt _)
theorem Sys2Proof.Laws.TailFits.vrand (s : Stall) (fmt : BitVec 4) (wd : BitVec 3) (g : RegNum) (mask : BitVec 2) : Statement (.vrand s fmt wd g mask) :=
  of_encode rfl (all_lt _)
theorem Sys2Proof.Laws.TailFits.vins (s : Stall) (fmt : BitVec 4) (wd : BitVec 3) (g : RegNum) (lane : BitVec 8) : Statement (.vins s fmt wd g lane) :=
  of_encode rfl (all_lt _)
theorem Sys2Proof.Laws.TailFits.vext (s : Stall) (fmt : BitVec 4) (g : RegNum) (wa : BitVec 3) (lane : BitVec 8) : Statement (.vext s fmt g wa lane) :=
  of_encode rfl (all_lt _)
theorem Sys2Proof.Laws.TailFits.vmask (s : Stall) (op : VMaskOp) (mk ma mb : BitVec 2) : Statement (.vmask s op mk ma mb) :=
  of_encode rfl (all_lt _)
theorem Sys2Proof.Laws.TailFits.mlease (s : Stall) (n : BitVec 14) : Statement (.mlease s n) :=
  of_encode rfl (tailC_lt _ _ _ _)
theorem Sys2Proof.Laws.TailFits.mrel (s : Stall) : Statement (.mrel s) := of_encode rfl (zero_lt _)
theorem Sys2Proof.Laws.TailFits.mldbM (s : Stall) (m : MemOp 14) : Statement (.mldbM s m) :=
  of_encode rfl (tailM_lt _ _)
theorem Sys2Proof.Laws.TailFits.mldbN (s : Stall) (m : MemOp 40) : Statement (.mldbN s m) := of_encode rfl (all_lt _)
theorem Sys2Proof.Laws.TailFits.mzero (s : Stall) : Statement (.mzero s) := of_encode rfl (zero_lt _)
theorem Sys2Proof.Laws.TailFits.mmaM (s : Stall) (af : BitVec 3) (ds8 : Bool) (m : MemOp 14) : Statement (.mmaM s af ds8 m) :=
  of_encode rfl (tailM_lt _ _)
theorem Sys2Proof.Laws.TailFits.mmaN (s : Stall) (af : BitVec 3) (ds8 : Bool) (m : MemOp 40) : Statement (.mmaN s af ds8 m) :=
  of_encode rfl (all_lt _)
theorem Sys2Proof.Laws.TailFits.mmas (s : Stall) (af : BitVec 3) (ds8 : Bool) (a : RegNum) (m : MemOp 40) : Statement (.mmas s af ds8 a m) :=
  of_encode rfl (all_lt _)
theorem Sys2Proof.Laws.TailFits.mdrainM (s : Stall) (bias : Bool) (m : MemOp 14) : Statement (.mdrainM s bias m) :=
  of_encode rfl (tailM_lt _ _)
theorem Sys2Proof.Laws.TailFits.mdrainN (s : Stall) (bias : Bool) (m : MemOp 40) : Statement (.mdrainN s bias m) :=
  of_encode rfl (all_lt _)
theorem Sys2Proof.Laws.TailFits.mscale (s : Stall) (a : RegNum) : Statement (.mscale s a) :=
  of_encode rfl (tailB_lt _ _)
theorem Sys2Proof.Laws.TailFits.mstat (s : Stall) (d : RegNum) : Statement (.mstat s d) :=
  of_encode rfl (tailB_lt _ _)
theorem Sys2Proof.Laws.TailFits.mwait (s : Stall) : Statement (.mwait s) := of_encode rfl (zero_lt _)
theorem Sys2Proof.Laws.TailFits.spawn (s : Stall) (a b : RegNum) (t : Target) : Statement (.spawn s a b t) :=
  of_encode rfl (all_lt _)
theorem Sys2Proof.Laws.TailFits.tjoin (s : Stall) : Statement (.tjoin s) := of_encode rfl (zero_lt _)
theorem Sys2Proof.Laws.TailFits.tret (s : Stall) : Statement (.tret s) := of_encode rfl (zero_lt _)
theorem Sys2Proof.Laws.TailFits.waitw (s : Stall) : Statement (.waitw s) := of_encode rfl (zero_lt _)
theorem Sys2Proof.Laws.TailFits.waitwS (s : Stall) : Statement (.waitwS s) := of_encode rfl (zero_lt _)
theorem Sys2Proof.Laws.TailFits.tpost (s : Stall) (a b : RegNum) (t : Target) : Statement (.tpost s a b t) :=
  of_encode rfl (all_lt _)
theorem Sys2Proof.Laws.TailFits.depsetM (s : Stall) (a : RegNum) (m : MemOp 14) : Statement (.depsetM s a m) :=
  of_encode rfl (tailM_lt _ _)
theorem Sys2Proof.Laws.TailFits.depsetN (s : Stall) (a : RegNum) (m : MemOp 40) : Statement (.depsetN s a m) :=
  of_encode rfl (all_lt _)
theorem Sys2Proof.Laws.TailFits.depdecM (s : Stall) (m : MemOp 14) : Statement (.depdecM s m) :=
  of_encode rfl (tailM_lt _ _)
theorem Sys2Proof.Laws.TailFits.depdecN (s : Stall) (m : MemOp 40) : Statement (.depdecN s m) :=
  of_encode rfl (all_lt _)
theorem Sys2Proof.Laws.TailFits.tcount (s : Stall) (d : RegNum) : Statement (.tcount s d) :=
  of_encode rfl (tailB_lt _ _)
theorem Sys2Proof.Laws.TailFits.flnew (s : Stall) (d a : RegNum) : Statement (.flnew s d a) :=
  of_encode rfl (tailB_lt _ _)
theorem Sys2Proof.Laws.TailFits.flput (s : Stall) (z : Width) (a b : RegNum) (off : BitVec 12) : Statement (.flput s z a b off) :=
  of_encode rfl (tailC_lt _ _ _ _)
theorem Sys2Proof.Laws.TailFits.flget (s : Stall) (z : Width) (d a : RegNum) (off : BitVec 12) : Statement (.flget s z d a off) :=
  of_encode rfl (tailC_lt _ _ _ _)
theorem Sys2Proof.Laws.TailFits.flgetArg (s : Stall) (d a : RegNum) : Statement (.flgetArg s d a) :=
  of_encode rfl (tailC_lt _ _ _ _)
theorem Sys2Proof.Laws.TailFits.flgetHdr (s : Stall) (d a : RegNum) (f : BitVec 6) : Statement (.flgetHdr s d a f) :=
  of_encode rfl (tailC_lt _ _ _ _)
theorem Sys2Proof.Laws.TailFits.flsend (s : Stall) (a : RegNum) : Statement (.flsend s a) :=
  of_encode rfl (tailB_lt _ _)
theorem Sys2Proof.Laws.TailFits.flrecv (s : Stall) (d : RegNum) : Statement (.flrecv s d) :=
  of_encode rfl (tailB_lt _ _)
theorem Sys2Proof.Laws.TailFits.flnext (s : Stall) (a : RegNum) : Statement (.flnext s a) :=
  of_encode rfl (tailB_lt _ _)
theorem Sys2Proof.Laws.TailFits.flrw (s : Stall) (a b : RegNum) (k : BitVec 3) : Statement (.flrw s a b k) :=
  of_encode rfl (tailC_lt _ _ _ _)
theorem Sys2Proof.Laws.TailFits.flins (s : Stall) (a b : RegNum) (k : BitVec 3) : Statement (.flins s a b k) :=
  of_encode rfl (tailC_lt _ _ _ _)
theorem Sys2Proof.Laws.TailFits.fldel (s : Stall) (a : RegNum) (k : BitVec 3) : Statement (.fldel s a k) :=
  of_encode rfl (tailC_lt _ _ _ _)
theorem Sys2Proof.Laws.TailFits.flpark (s : Stall) (a : RegNum) : Statement (.flpark s a) :=
  of_encode rfl (tailB_lt _ _)
theorem Sys2Proof.Laws.TailFits.flresume (s : Stall) (a : RegNum) : Statement (.flresume s a) :=
  of_encode rfl (tailB_lt _ _)
theorem Sys2Proof.Laws.TailFits.fldrop (s : Stall) (a : RegNum) : Statement (.fldrop s a) :=
  of_encode rfl (tailB_lt _ _)
theorem Sys2Proof.Laws.TailFits.phase (s : Stall) (k : Hint) : Statement (.phase s k) := of_encode rfl (zero_lt _)
theorem Sys2Proof.Laws.TailFits.pcnt (s : Stall) (stagger : Bool) (d : RegNum) : Statement (.pcnt s stagger d) :=
  of_encode rfl (tailB_lt _ _)
theorem Sys2Proof.Laws.TailFits.dstate (s : Stall) (pause : Bool) (d : RegNum) : Statement (.dstate s pause d) :=
  of_encode rfl (tailB_lt _ _)
theorem Sys2Proof.Laws.TailFits.trap (s : Stall) (code : BitVec 14) : Statement (.trap s code) :=
  of_encode rfl (tailC_lt _ _ _ _)
theorem Sys2Proof.Laws.TailFits.sethnd (s : Stall) (a : RegNum) : Statement (.sethnd s a) :=
  of_encode rfl (tailB_lt _ _)
theorem Sys2Proof.Laws.TailFits.hret (s : Stall) : Statement (.hret s) := of_encode rfl (zero_lt _)
theorem Sys2Proof.Laws.TailFits.rdsys (s : Stall) (d : RegNum) (idx : BitVec 14) : Statement (.rdsys s d idx) :=
  of_encode rfl (tailC_lt _ _ _ _)
theorem Sys2Proof.Laws.TailFits.wrsys (s : Stall) (a : RegNum) (idx : BitVec 14) : Statement (.wrsys s a idx) :=
  of_encode rfl (tailC_lt _ _ _ _)
theorem Sys2Proof.Laws.TailFits.ecnt (s : Stall) (owner : Bool) (d : RegNum) : Statement (.ecnt s owner d) :=
  of_encode rfl (tailB_lt _ _)
theorem Sys2Proof.Laws.TailFits.brk (s : Stall) (code : BitVec 14) : Statement (.brk s code) :=
  of_encode rfl (tailC_lt _ _ _ _)
theorem Sys2Proof.Laws.TailFits.fail (s : Stall) (code : BitVec 14) : Statement (.fail s code) :=
  of_encode rfl (tailC_lt _ _ _ _)
theorem Sys2Proof.Laws.TailFits.haltCompletion (g : Nat) : Statement (.haltCompletion g) := of_none rfl
theorem Sys2Proof.Laws.TailFits.parkConditionMet (g : Nat) : Statement (.parkConditionMet g) := of_none rfl
theorem Sys2Proof.Laws.TailFits.lineFetchArrival (g : Nat) : Statement (.lineFetchArrival g) := of_none rfl
theorem Sys2Proof.Laws.TailFits.relaxedLoadFill (id : Nat) : Statement (.relaxedLoadFill id) := of_none rfl
theorem Sys2Proof.Laws.TailFits.relaxedStoreAck (id : Nat) : Statement (.relaxedStoreAck id) := of_none rfl
theorem Sys2Proof.Laws.TailFits.ordinaryAccessCompletion (id : Nat) : Statement (.ordinaryAccessCompletion id) :=
  of_none rfl
theorem Sys2Proof.Laws.TailFits.bankAccessPerform (id : Nat) : Statement (.bankAccessPerform id) := of_none rfl
theorem Sys2Proof.Laws.TailFits.pageWalkComplete (g : Nat) : Statement (.pageWalkComplete g) := of_none rfl
theorem Sys2Proof.Laws.TailFits.faultRecordPost (die : Nat) : Statement (.faultRecordPost die) := of_none rfl
theorem Sys2Proof.Laws.TailFits.wakeRegisterWrite (die : Nat) (w : WakeId) : Statement (.wakeRegisterWrite die w) :=
  of_none rfl
theorem Sys2Proof.Laws.TailFits.convertRegisterWrite (die : Nat) (w : WakeId) : Statement (.convertRegisterWrite die w) :=
  of_none rfl
theorem Sys2Proof.Laws.TailFits.shootdownRegisterWrite (die owner : Nat) (addr : Word) (size : Nat) : Statement (.shootdownRegisterWrite die owner addr size) :=
  of_none rfl
theorem Sys2Proof.Laws.TailFits.shootdownComplete (die : Nat) : Statement (.shootdownComplete die) := of_none rfl
theorem Sys2Proof.Laws.TailFits.watchAllocated (id : Nat) : Statement (.watchAllocated id) := of_none rfl
theorem Sys2Proof.Laws.TailFits.sigwaitSatisfied (id : Nat) : Statement (.sigwaitSatisfied id) := of_none rfl
theorem Sys2Proof.Laws.TailFits.bartoLimitExpiry (berth lk : Nat) : Statement (.bartoLimitExpiry berth lk) :=
  of_none rfl
theorem Sys2Proof.Laws.TailFits.barrierRelease (berth lk : Nat) : Statement (.barrierRelease berth lk) := of_none rfl
theorem Sys2Proof.Laws.TailFits.queueEntryArrival (core dir : Nat) : Statement (.queueEntryArrival core dir) :=
  of_none rfl
theorem Sys2Proof.Laws.TailFits.actorCreditReturn (core : Nat) : Statement (.actorCreditReturn core) := of_none rfl
theorem Sys2Proof.Laws.TailFits.rputDelivery (id : Nat) : Statement (.rputDelivery id) := of_none rfl
theorem Sys2Proof.Laws.TailFits.copyAcceptance (tile ch : Nat) : Statement (.copyAcceptance tile ch) := of_none rfl
theorem Sys2Proof.Laws.TailFits.copyUnitWrite (tile ch : Nat) : Statement (.copyUnitWrite tile ch) := of_none rfl
theorem Sys2Proof.Laws.TailFits.copyCompletion (tile ch : Nat) : Statement (.copyCompletion tile ch) := of_none rfl
theorem Sys2Proof.Laws.TailFits.vectorAcceptance (tile : Nat) : Statement (.vectorAcceptance tile) := of_none rfl
theorem Sys2Proof.Laws.TailFits.vectorResultWrite (tile : Nat) : Statement (.vectorResultWrite tile) := of_none rfl
theorem Sys2Proof.Laws.TailFits.leaseGrant (tile : Nat) : Statement (.leaseGrant tile) := of_none rfl
theorem Sys2Proof.Laws.TailFits.matrixCommandAcceptance (tile : Nat) : Statement (.matrixCommandAcceptance tile) :=
  of_none rfl
theorem Sys2Proof.Laws.TailFits.matrixCommandExecution (tile : Nat) : Statement (.matrixCommandExecution tile) :=
  of_none rfl
theorem Sys2Proof.Laws.TailFits.stealRequest (g victim : Nat) : Statement (.stealRequest g victim) := of_none rfl
theorem Sys2Proof.Laws.TailFits.dispenserPlacement (tile : Nat) : Statement (.dispenserPlacement tile) := of_none rfl
theorem Sys2Proof.Laws.TailFits.launchRecordPlacement (lk : Nat) : Statement (.launchRecordPlacement lk) :=
  of_none rfl
theorem Sys2Proof.Laws.TailFits.floeDeparture (tile slot : Nat) : Statement (.floeDeparture tile slot) := of_none rfl
theorem Sys2Proof.Laws.TailFits.floeArrival (id : Nat) : Statement (.floeArrival id) := of_none rfl
theorem Sys2Proof.Laws.TailFits.floeRefill (tile : Nat) : Statement (.floeRefill tile) := of_none rfl
theorem Sys2Proof.Laws.TailFits.floeClaim (tile : Nat) : Statement (.floeClaim tile) := of_none rfl
theorem Sys2Proof.Laws.TailFits.memoryStop (id : Nat) : Statement (.memoryStop id) := of_none rfl
theorem Sys2Proof.Laws.TailFits.sluiceTick (die : Nat) (mW : Nat) (sensors : List (Nat × Nat × Nat)) : Statement (.sluiceTick die mW sensors) :=
  of_none rfl
theorem Sys2Proof.Laws.TailFits.rampSlotGrant (die : Nat) : Statement (.rampSlotGrant die) := of_none rfl
theorem Sys2Proof.Laws.TailFits.pinnedLaunchAdmission (lk : Nat) : Statement (.pinnedLaunchAdmission lk) :=
  of_none rfl
theorem Sys2Proof.Laws.TailFits.ballastStep (tile : Nat) : Statement (.ballastStep tile) := of_none rfl
theorem Sys2Proof.Laws.TailFits.tileGate (tile : Nat) : Statement (.tileGate tile) := of_none rfl
theorem Sys2Proof.Laws.TailFits.gateHoldExpiry (tile : Nat) : Statement (.gateHoldExpiry tile) := of_none rfl
theorem Sys2Proof.Laws.TailFits.tileWakeRequest (tile : Nat) : Statement (.tileWakeRequest tile) := of_none rfl
theorem Sys2Proof.Laws.TailFits.inrushGrant (die : Nat) : Statement (.inrushGrant die) := of_none rfl
theorem Sys2Proof.Laws.TailFits.inrushPeriodEnd (die : Nat) : Statement (.inrushPeriodEnd die) := of_none rfl
theorem Sys2Proof.Laws.TailFits.overflowQuantumExpiry (core phys : Nat) : Statement (.overflowQuantumExpiry core phys) :=
  of_none rfl
theorem Sys2Proof.Laws.TailFits.overflowSwapDone (core phys : Nat) : Statement (.overflowSwapDone core phys) :=
  of_none rfl
theorem Sys2Proof.Laws.TailFits.driftDrainEnd (die : Nat) : Statement (.driftDrainEnd die) := of_none rfl
theorem Sys2Proof.Laws.TailFits.driftShiftEnd (die : Nat) : Statement (.driftShiftEnd die) := of_none rfl
theorem Sys2Proof.Laws.TailFits.calibrationModeSet (d : Vector Nat 5) : Statement (.calibrationModeSet d) :=
  of_none rfl
theorem Sys2Proof.Laws.TailFits.calibrationResponseDue (id : Nat) : Statement (.calibrationResponseDue id) :=
  of_none rfl
theorem Sys2Proof.Laws.TailFits.preemption (g : Nat) : Statement (.preemption g) := of_none rfl
theorem Sys2Proof.Laws.TailFits.trapRecordAppend (owner : Nat) : Statement (.trapRecordAppend owner) := of_none rfl
theorem Sys2Proof.Laws.TailFits.trapRecordService (owner : Nat) : Statement (.trapRecordService owner) := of_none rfl
theorem Sys2Proof.Laws.TailFits.trappedThreadResume (g : Nat) (pc : Option Word) : Statement (.trappedThreadResume g pc) :=
  of_none rfl
theorem Sys2Proof.Laws.TailFits.trappedThreadEnd (g : Nat) : Statement (.trappedThreadEnd g) := of_none rfl
theorem Sys2Proof.Laws.TailFits.watchdogExpiry (die hart : Nat) : Statement (.watchdogExpiry die hart) := of_none rfl
theorem Sys2Proof.Laws.TailFits.doorbellWrite (inlet : Nat) (data : Word) : Statement (.doorbellWrite inlet data) :=
  of_none rfl
theorem Sys2Proof.Laws.TailFits.notifyWrite (die : Nat) (msg : BitVec 256) : Statement (.notifyWrite die msg) :=
  of_none rfl
theorem Sys2Proof.Laws.TailFits.inletPhaseRetry (inlet : Nat) : Statement (.inletPhaseRetry inlet) := of_none rfl
theorem Sys2Proof.Laws.TailFits.inletSlotAssign (inlet : Nat) : Statement (.inletSlotAssign inlet) := of_none rfl
theorem Sys2Proof.Laws.TailFits.nopPacket (inlet : Nat) : Statement (.nopPacket inlet) := of_none rfl
theorem Sys2Proof.Laws.TailFits.launch (inlet : Nat) : Statement (.launch inlet) := of_none rfl
theorem Sys2Proof.Laws.TailFits.actors (inlet : Nat) : Statement (.actors inlet) := of_none rfl
theorem Sys2Proof.Laws.TailFits.wait (inlet : Nat) : Statement (.wait inlet) := of_none rfl
theorem Sys2Proof.Laws.TailFits.waitLimitExpiry (inlet : Nat) : Statement (.waitLimitExpiry inlet) := of_none rfl
theorem Sys2Proof.Laws.TailFits.signal (inlet : Nat) : Statement (.signal inlet) := of_none rfl
theorem Sys2Proof.Laws.TailFits.copy (inlet : Nat) : Statement (.copy inlet) := of_none rfl
theorem Sys2Proof.Laws.TailFits.reservedHead (h : BitVec 16) : Statement (.reservedHead h) := by
  intro h' t _ he
  obtain ⟨rfl, rfl⟩ := Prod.mk.inj (Option.some.inj he)
  exact zero_lt _

theorem Sys2Proof.Laws.TailFits.registerWrite (r : FirnReg) : Statement (.registerWrite r) := of_none rfl
theorem Sys2Proof.Laws.TailFits.berthAssignment (owner berth : Nat) : Statement (.berthAssignment owner berth) :=
  of_none rfl
theorem Sys2Proof.Laws.TailFits.ownerUnassignment (owner : Nat) : Statement (.ownerUnassignment owner) := of_none rfl
theorem Sys2Proof.Laws.TailFits.getVersion (die : Nat) : Statement (.getVersion die) := of_none rfl
theorem Sys2Proof.Laws.TailFits.getCapabilities (die : Nat) : Statement (.getCapabilities die) := of_none rfl
theorem Sys2Proof.Laws.TailFits.negotiateAlgorithms (die : Nat) (falcon shake : Bool) : Statement (.negotiateAlgorithms die falcon shake) :=
  of_none rfl
theorem Sys2Proof.Laws.TailFits.getDigests (die : Nat) : Statement (.getDigests die) := of_none rfl
theorem Sys2Proof.Laws.TailFits.getCertificate (die : Nat) : Statement (.getCertificate die) := of_none rfl
theorem Sys2Proof.Laws.TailFits.challenge (die : Nat) (nonce : BitVec 256) : Statement (.challenge die nonce) :=
  of_none rfl
theorem Sys2Proof.Laws.TailFits.getMeasurements (die : Nat) (index : Nat) : Statement (.getMeasurements die index) :=
  of_none rfl
theorem Sys2Proof.Laws.TailFits.keyExchange (die : Nat) (data : BitVec 256) : Statement (.keyExchange die data) :=
  of_none rfl
theorem Sys2Proof.Laws.TailFits.finish (die : Nat) : Statement (.finish die) := of_none rfl
theorem Sys2Proof.Laws.TailFits.endSession (die : Nat) : Statement (.endSession die) := of_none rfl
theorem Sys2Proof.Laws.TailFits.spdmUnsupportedRequest (die : Nat) : Statement (.spdmUnsupportedRequest die) :=
  of_none rfl
theorem Sys2Proof.Laws.TailFits.lockInterfaceRequest (owner : Nat) : Statement (.lockInterfaceRequest owner) :=
  of_none rfl
theorem Sys2Proof.Laws.TailFits.startInterfaceRequest (owner : Nat) : Statement (.startInterfaceRequest owner) :=
  of_none rfl
theorem Sys2Proof.Laws.TailFits.stopInterfaceRequest (owner : Nat) : Statement (.stopInterfaceRequest owner) :=
  of_none rfl
theorem Sys2Proof.Laws.TailFits.tdispInterfaceError (owner : Nat) : Statement (.tdispInterfaceError owner) :=
  of_none rfl
theorem Sys2Proof.Laws.TailFits.linkRequestLost (id : Nat) : Statement (.linkRequestLost id) := of_none rfl
theorem Sys2Proof.Laws.TailFits.lifeCycleStateChange (st : BitVec 8) : Statement (.lifeCycleStateChange st) :=
  of_none rfl
theorem Sys2Proof.Laws.TailFits.supervisorFaultEscalation (die : Nat) : Statement (.supervisorFaultEscalation die) :=
  of_none rfl
theorem Sys2Proof.Laws.TailFits.driftFreeze : Statement .driftFreeze := of_none rfl
theorem Sys2Proof.Laws.TailFits.driftResume : Statement .driftResume := of_none rfl
theorem Sys2Proof.Laws.TailFits.deterministicResumeExpiry : Statement .deterministicResumeExpiry := of_none rfl
theorem Sys2Proof.Laws.TailFits.primaryPromotion : Statement .primaryPromotion := of_none rfl
theorem Sys2Proof.Laws.TailFits.moduleReset : Statement .moduleReset := of_none rfl
theorem Sys2Proof.Laws.TailFits.primaryHeartbeat : Statement .primaryHeartbeat := of_none rfl
end

