-- ==== Sys2Proof/Laws/Placement.lean ====
section
/-! SUPPORT. Placements: what making them leaves alone of a die's grants and of launches (R307, R308). -/

namespace Sys2Proof.Machine

/-- The sums of granted power stand, and no launch is admitted or refused. -/
def GrantsStand (s u : State) : Prop :=
  (∀ e, (u.die e).granted = (s.die e).granted) ∧ ∀ j, (u.launch j).admitted = (s.launch j).admitted

theorem GrantsStand.refl (s : State) : GrantsStand s s := ⟨fun _ => rfl, fun _ => rfl⟩

theorem GrantsStand.trans {s u v : State} (h : GrantsStand s u) (h' : GrantsStand u v) : GrantsStand s v :=
  ⟨fun e => (h'.1 e).trans (h.1 e), fun j => (h'.2 j).trans (h.2 j)⟩

/-- Dies and launches are the same lists. -/
theorem GrantsStand.same {s u : State} (h : u.dies = s.dies) (h' : u.launches = s.launches) : GrantsStand s u :=
  ⟨fun e => by simp only [State.die, h], fun j => by simp only [State.launch, h']⟩

/-- Reached by a form that names what changed. -/
theorem GrantsStand.by {s u v : State} (h : GrantsStand s u) (hd : v.dies = u.dies) (hl : v.launches = u.launches) :
    GrantsStand s v := h.trans (.same hd hl)

theorem GrantsStand.setThread {s u : State} (h : GrantsStand s u) (g : Nat) (t : Thread) :
    GrantsStand s (u.setThread g t) := h.by rfl rfl

theorem GrantsStand.modCore {s u : State} (h : GrantsStand s u) (c : Nat) (f : Core → Core) :
    GrantsStand s (u.modCore c f) := h.by rfl rfl

theorem GrantsStand.setOwner {s u : State} (h : GrantsStand s u) (o : Nat) (x : Owner) :
    GrantsStand s (u.setOwner o x) := h.by rfl rfl

theorem GrantsStand.modInlet {s u : State} (h : GrantsStand s u) (k : Nat) (f : Inlet → Inlet) :
    GrantsStand s (u.modInlet k f) := h.by rfl rfl

theorem GrantsStand.modDie {s u : State} (h : GrantsStand s u) (d : Nat) (f : Die → Die)
    (hf : ∀ x, (f x).granted = x.granted) : GrantsStand s (u.modDie d f) :=
  h.trans ⟨fun e => by
    by_cases h : e = d
    · subst h; simp [hf]
    · rw [State.die_mod_other u d e f h], fun j => by simp⟩

theorem GrantsStand.setLaunch {s u : State} (h : GrantsStand s u) (k : Nat) (l : Launch)
    (hf : l.admitted = (u.launch k).admitted) : GrantsStand s (u.setLaunch k l) :=
  h.trans ⟨fun e => by simp, fun j => by
    by_cases h : j = k
    · subst h; simp [hf]
    · rw [State.launch_set_other u k j l h]⟩

theorem GrantsStand.modLaunch {s u : State} (h : GrantsStand s u) (k : Nat) (f : Launch → Launch)
    (hf : ∀ x, (f x).admitted = x.admitted) : GrantsStand s (u.modLaunch k f) := h.setLaunch k _ (hf _)

theorem launchError_grants {s u : State} (h : GrantsStand s u) (lk code : Nat) :
    GrantsStand s (launchError u lk code) := by
  unfold launchError
  split
  · split
    · refine h.setLaunch lk _ ?_
      simp [State.launch, *]
    · exact h
  · exact h

theorem gateCount_grants {s u : State} (h : GrantsStand s u) (o key : Nat) : GrantsStand s (gateCount u o key) := by
  unfold gateCount
  split
  · exact h
  · exact (h.modDie _ (fun x => { x with dropCount := x.dropCount + 1 }) fun _ => rfl).by rfl rfl
  · exact h.by rfl rfl

theorem ownerError_grants {s u : State} (h : GrantsStand s u) (o lk : Nat) : GrantsStand s (ownerError u o lk) :=
  launchError_grants (h.by (v := u.modOwner o fun x => { x with data := bump x.data }) rfl rfl) lk 0x12

theorem unitWrite_grants {s u : State} (h : GrantsStand s u) (key n data mask : Nat) :
    GrantsStand s (unitWrite u key n data mask) := by
  obtain ⟨m, q, e⟩ := unitWrite_cases u key n data mask
  rw [e]
  exact h.by rfl rfl

theorem unitWriteList_grants {s : State} (o lk n : Nat) : ∀ {u : State}, GrantsStand s u → ∀ (p : Nat) (bs : List Byte),
    GrantsStand s (unitWriteList u o lk p n bs) := by
  induction n with
  | zero => exact fun h _ _ => h
  | succ n ih =>
    intro u h p bs
    unfold unitWriteList
    split
    · exact h
    · refine ih (unitWrite_grants ?_ _ _ _ _) _ _
      split
      · exact ownerError_grants h _ _
      · exact h

theorem ownerWrite_grants {s u : State} (h : GrantsStand s u) (tag o lk : Nat) (a : Word) (bs : List Byte) :
    GrantsStand s (ownerWrite u tag o lk a bs) := by
  have h' : GrantsStand s (if walkBadFrom u a 4 (u.owner o).root.toNat then ownerError u o lk else u) := by
    split
    · exact ownerError_grants h _ _
    · exact h
  unfold ownerWrite
  generalize (if walkBadFrom u a 4 (u.owner o).root.toNat then ownerError u o lk else u) = v at h'
  dsimp only
  split
  · split
    · exact unitWriteList_grants _ _ _ h' _ _
    · exact gateCount_grants h' _ _
  · exact h'

theorem tqMirror_grants {s u : State} (h : GrantsStand s u) (o : Nat) : GrantsStand s (tqMirror u o) :=
  ownerWrite_grants h _ _ _ _ _

theorem tqAppend_grants {s u : State} (h : GrantsStand s u) (o : Nat) (r : TrapRec) :
    GrantsStand s (tqAppend u o r) := by
  have h0 := ownerWrite_grants h o o (u.thread r.g).launch
    ((u.owner o).tq + 64 + BitVec.ofNat 64 ((u.owner o).tqTail % 256 * 64)) r.bytes
  unfold tqAppend
  dsimp only
  generalize ownerWrite u o o (u.thread r.g).launch _ r.bytes = v at h0 ⊢
  exact tqMirror_grants (h0.setOwner o _) o

theorem postTrap_grants {s u : State} (h : GrantsStand s u) (o : Nat) (r : TrapRec) :
    GrantsStand s (postTrap u o r) := by
  unfold postTrap
  dsimp only
  split
  · split
    · exact tqAppend_grants h _ _
    · exact tqMirror_grants ((launchError_grants (h.modDie _ (fun d => { d with log := d.log ++ [r.bytes] })
        fun _ => rfl) _ _).setOwner _ _) _
  · split
    · exact tqAppend_grants h _ _
    · exact tqMirror_grants (h.setOwner _ _) _

theorem vacate_grants {s u : State} (h : GrantsStand s u) (g : Nat) (out : Bool) :
    GrantsStand s (vacate u g out) := by
  obtain ⟨x, e⟩ := vacate_cases u g out
  rw [e]
  exact h.by rfl rfl

theorem parkThread_grants {s u : State} (h : GrantsStand s u) (g : Nat) (w : Wait) :
    GrantsStand s (parkThread u g w) := by
  obtain ⟨t, x, n, e⟩ := parkThread_cases u g w
  rw [e]
  exact h.by rfl rfl

theorem captureOwner_grants {s u : State} (h : GrantsStand s u) (g cause sub : Nat) (info resume : Word) :
    GrantsStand s (captureOwner u g cause sub info resume) := by
  have h0 : GrantsStand s (landPushes u g) := h.by rfl rfl
  unfold captureOwner
  generalize landPushes u g = v at h0
  dsimp only
  split
  · refine vacate_grants (GrantsStand.setThread ?_ _ _) _ _
    split
    · exact postTrap_grants h0 _ _
    · exact launchError_grants (postTrap_grants h0 _ _) _ _
  · exact vacate_grants ((postTrap_grants h0 _ _).setThread _ _) _ _

theorem ownerTrap_grants {s u : State} (h : GrantsStand s u) (g cause sub : Nat) (info resume : Word) :
    GrantsStand s (ownerTrap u g cause sub info resume) := by
  unfold ownerTrap
  split
  · exact captureOwner_grants h _ _ _ _ _
  · exact parkThread_grants h _ _

theorem enterLine_grants {s u : State} (h : GrantsStand s u) (g : Nat) (ln : BitVec 512) :
    GrantsStand s (enterLine u g ln) := by
  unfold enterLine
  dsimp only
  split
  · exact h.setThread _ _
  · exact ownerTrap_grants (h.setThread _ _) _ _ _ _ _

theorem enter_grants {s u : State} (h : GrantsStand s u) (g : Nat) : GrantsStand s (enter u g) := by
  unfold enter
  dsimp only
  split
  · exact ownerTrap_grants (h.setThread _ _) _ _ _ _ _
  · split
    · exact enterLine_grants h _ _
    · split
      · exact parkThread_grants (h.setThread _ _) _ _
      · exact parkThread_grants (h.setThread _ _) _ _
      · exact ownerTrap_grants (h.setThread _ _) _ _ _ _ _

theorem dataError_grants {s u : State} (h : GrantsStand s u) (w : Who) : GrantsStand s (dataError u w) := by
  unfold dataError
  dsimp only
  have h' := launchError_grants (h.by (v := u.modOwner w.owner fun x => { x with data := bump x.data }) rfl rfl)
    w.launch 0x12
  split
  · exact h'.by rfl rfl
  · exact h'

theorem countBad_grants {s u : State} (h : GrantsStand s u) (w : Who) (b : Bool) : GrantsStand s (countBad u w b) := by
  unfold countBad
  split
  · exact dataError_grants h w
  · exact h

theorem signalUpdate_grants {s u : State} (h : GrantsStand s u) (w : Who) (key : Nat)
    (f : Nat → Nat → Nat → Nat → Nat × Nat × Nat × Nat) : GrantsStand s (signalUpdate u w key f) := by
  have h' := countBad_grants h w (u.poison.contains (unitOf key))
  unfold signalUpdate signalScan unitWrite
  dsimp only
  split <;> exact h'.by rfl rfl

theorem engineUpdate_grants {s u : State} (h : GrantsStand s u) (o lk key : Nat)
    (f : Nat → Nat → Nat → Nat → Nat × Nat × Nat × Nat) : GrantsStand s (engineUpdate u o lk key f) := by
  unfold engineUpdate
  split
  · exact signalUpdate_grants h _ _ _
  · exact gateCount_grants h _ _

theorem postFault_grants {s u : State} (h : GrantsStand s u) (d : Nat) (r : FRec) :
    GrantsStand s (postFault u d r) := by
  unfold postFault queueFault
  dsimp only
  split
  · exact (h.modDie d (fun x => { x with faults := x.faults ++ [r], faultTail := x.faultTail + 1 }) fun _ => rfl).by
      rfl rfl
  · exact h.modDie d (fun x => { x with held := x.held ++ [r] }) fun _ => rfl

theorem launchFirst_grants {s u : State} (h : GrantsStand s u) (lk : Nat) : GrantsStand s (launchFirst u lk) := by
  unfold launchFirst
  dsimp only
  split
  · exact h
  · have h' : GrantsStand s (u.setLaunch lk { u.launch lk with started := true, start := u.timebase }) :=
      h.setLaunch lk _ rfl
    split
    · exact engineUpdate_grants h' _ _ _ _
    · unfold holdPkt engineFault countWalk
      exact postFault_grants ((countBad_grants (h'.modInlet _ _) _ _).modInlet _ _) _ _
    · exact h'

theorem takePhys_grants {s u : State} (h : GrantsStand s u) (g : Nat) (b : Bool) : GrantsStand s (takePhys u g b) := by
  unfold takePhys
  dsimp only
  split
  · exact h
  · split
    · exact h.by rfl rfl
    · split <;> exact h.by rfl rfl

theorem syncLines_grants {s u : State} (h : GrantsStand s u) (g : Nat) : GrantsStand s (syncLines u g) := by
  unfold syncLines
  refine enter_grants (u := State.modThread _ g _) ?_ g
  exact h.by rfl rfl

theorem detPlaced_grants {s u : State} (h : GrantsStand s u) (g : Nat) : GrantsStand s (detPlaced u g) := by
  unfold detPlaced
  split
  · exact h.by rfl rfl
  · exact h.by rfl rfl

/-- R80, R377: a placement. -/
theorem placeThread_grants {s u : State} (h : GrantsStand s u) (lk : Nat) (p : Place) (g : Nat) :
    GrantsStand s (placeThread u lk p g) := by
  have h0 : GrantsStand s (if (u.launch lk).det then detPlaced u g else u) := by
    split
    · exact detPlaced_grants h g
    · exact h
  unfold placeThread
  generalize (if (u.launch lk).det then detPlaced u g else u) = v at h0
  have h' : GrantsStand s { v.setThread g (newThread v lk p g) with serials := v.serials + 1 } := h0.by rfl rfl
  have h'' := h'.modLaunch lk (fun l => { l with places := l.places.filter fun q => q.k != p.k, live := l.live + 1 })
    fun _ => rfl
  exact launchFirst_grants (syncLines_grants (takePhys_grants h'' g false) g) lk

/-- R308: placements of a pinned launch at its admission. -/
theorem placeNow_grants {s u : State} (h : GrantsStand s u) (lk : Nat) (p : Place) :
    GrantsStand s (placeNow lk u p) := by
  unfold placeNow
  split
  · dsimp only
    split
    · exact h
    · exact placeThread_grants h lk p _
  · exact h

theorem placeNow_fold {s u : State} (h : GrantsStand s u) (lk : Nat) (l : List Place) :
    GrantsStand s (l.foldl (placeNow lk) u) := by
  induction l generalizing u with
  | nil => exact h
  | cons p l ih => exact ih (placeNow_grants h lk p)

end Sys2Proof.Machine
end

