-- ==== Sys2Proof/Laws/Run.lean ====
section
/-! SUPPORT. Running an instruction: the canonical form of memory through the shared operations, what completing can
do, and how a meaning that acts or stops gives the next state. -/

namespace Sys2Proof.Machine

open Sys2Proof.Claims

/-! ### The canonical form -/

theorem unitWrite_wf {s : State} (h : memWf s.mem = true) (key n data mask : Nat) :
    memWf (unitWrite s key n data mask).mem = true := by
  unfold unitWrite
  dsimp only
  split
  · exact memWf_writeMask (memWf_wipe h _ _) _ _ _ _
  · exact memWf_writeMask h _ _ _ _

theorem launchError_mem (s : State) (lk code : Nat) : (launchError s lk code).mem = s.mem := by
  obtain ⟨x, h⟩ := launchError_cases s lk code
  rw [h]

theorem ownerError_mem (s : State) (o lk : Nat) : (ownerError s o lk).mem = s.mem := by
  obtain ⟨x, l, h⟩ := ownerError_cases s o lk
  rw [h]

theorem gateCount_mem (s : State) (o key : Nat) : (gateCount s o key).mem = s.mem := by
  obtain ⟨x, d, h⟩ := gateCount_cases s o key
  rw [h]

theorem unitWriteList_wf (o lk n : Nat) : ∀ {s : State}, memWf s.mem = true → ∀ (p : Nat) (bs : List Byte),
    memWf (unitWriteList s o lk p n bs).mem = true := by
  induction n with
  | zero => exact fun h _ _ => h
  | succ n ih =>
    intro s h p bs
    unfold unitWriteList
    split
    · exact h
    · refine ih (unitWrite_wf ?_ _ _ _ _) _ _
      split
      · rwa [ownerError_mem]
      · exact h

theorem ownerWrite_wf {s : State} (h : memWf s.mem = true) (tag o lk : Nat) (a : Word) (bs : List Byte) :
    memWf (ownerWrite s tag o lk a bs).mem = true := by
  have h' : memWf (if walkBadFrom s a 4 (s.owner o).root.toNat then ownerError s o lk else s).mem = true := by
    split
    · rwa [ownerError_mem]
    · exact h
  unfold ownerWrite
  generalize (if walkBadFrom s a 4 (s.owner o).root.toNat then ownerError s o lk else s) = u at h'
  dsimp only
  split
  · split
    · exact unitWriteList_wf _ _ _ h' _ _
    · rwa [gateCount_mem]
  · exact h'

theorem tqMirror_wf {s : State} (h : memWf s.mem = true) (o : Nat) : memWf (tqMirror s o).mem = true :=
  ownerWrite_wf h _ _ _ _ _

theorem tqAppend_wf {s : State} (h : memWf s.mem = true) (o : Nat) (r : TrapRec) :
    memWf (tqAppend s o r).mem = true := by
  unfold tqAppend
  exact tqMirror_wf (by simpa using ownerWrite_wf h _ _ _ _ _) _

theorem vacate_mem (s : State) (g : Nat) (out : Bool) : (vacate s g out).mem = s.mem := by
  obtain ⟨x, h⟩ := vacate_cases s g out
  rw [h]

theorem parkThread_mem (s : State) (g : Nat) (w : Wait) : (parkThread s g w).mem = s.mem := by
  obtain ⟨t, x, n, h⟩ := parkThread_cases s g w
  rw [h]

theorem postTrap_wf {s : State} (h : memWf s.mem = true) (o : Nat) (r : TrapRec) :
    memWf (postTrap s o r).mem = true := by
  unfold postTrap
  dsimp only
  split
  · split
    · exact tqAppend_wf h _ _
    · exact tqMirror_wf (by simpa [launchError_mem] using h) _
  · split
    · exact tqAppend_wf h _ _
    · exact tqMirror_wf (by simpa using h) _

theorem captureOwner_wf {s : State} (h : memWf s.mem = true) (g cause sub : Nat) (info resume : Word) :
    memWf (captureOwner s g cause sub info resume).mem = true := by
  unfold captureOwner
  have h0 : memWf (landPushes s g).mem = true := h
  generalize landPushes s g = u at h0
  dsimp only
  split
  · split
    · simpa [vacate_mem] using postTrap_wf h0 _ _
    · simpa [vacate_mem, launchError_mem] using postTrap_wf h0 _ _
  · simpa [vacate_mem] using postTrap_wf h0 _ _

theorem ownerTrap_wf {s : State} (h : memWf s.mem = true) (g cause sub : Nat) (info resume : Word) :
    memWf (ownerTrap s g cause sub info resume).mem = true := by
  unfold ownerTrap
  split
  · exact captureOwner_wf h _ _ _ _ _
  · rwa [parkThread_mem]

theorem enterLine_wf {s : State} (h : memWf s.mem = true) (g : Nat) (ln : BitVec 512) :
    memWf (enterLine s g ln).mem = true := by
  unfold enterLine
  dsimp only
  split
  · simpa using h
  · exact ownerTrap_wf (by simpa using h) _ _ _ _ _

theorem enter_wf {s : State} (h : memWf s.mem = true) (g : Nat) : memWf (enter s g).mem = true := by
  unfold enter
  dsimp only
  split
  · exact ownerTrap_wf (by simpa using h) _ _ _ _ _
  · split
    · exact enterLine_wf h _ _
    · split
      · simpa [parkThread_mem] using h
      · simpa [parkThread_mem] using h
      · exact ownerTrap_wf (by simpa using h) _ _ _ _ _

theorem transferTo_wf {s : State} (h : memWf s.mem = true) (g : Nat) (pc : Word) :
    memWf (transferTo s g pc).mem = true := by
  unfold transferTo
  dsimp only
  split
  · simpa using h
  · exact enter_wf (by simpa using h) _

theorem goTo_wf {s : State} (h : memWf s.mem = true) (g : Nat) (pc : Word) : memWf (goTo s g pc).mem = true := by
  unfold goTo
  dsimp only
  split
  · split
    · simpa using h
    · exact transferTo_wf h _ _
  · exact transferTo_wf h _ _

theorem retire_wf {s : State} (h : memWf s.mem = true) (g c : Nat) (st : Stall) (pair : Bool) (x : Option Word) :
    memWf (retire s g c st pair x).mem = true := by
  unfold retire
  dsimp only
  split
  · exact transferTo_wf (by simpa using h) _ _
  · exact goTo_wf (by simpa using h) _ _

theorem takeLocal_wf {s : State} (h : memWf s.mem = true) (g c cause sub : Nat) (info : Word) (a p : Bool) :
    memWf (takeLocal s g c cause sub info a p).mem = true := by
  unfold takeLocal
  split
  · unfold captureLocal
    have h0 : memWf (landPushes s g).mem = true := h
    generalize landPushes s g = u at h0
    dsimp only
    split
    · exact captureOwner_wf h0 _ _ _ _ _
    · split
      · exact captureOwner_wf h0 _ _ _ _ _
      · exact transferTo_wf (by simpa using h0) _ _
  · rwa [parkThread_mem]

theorem applyStop_wf {s : State} (h : memWf s.mem = true) (g c : Nat) (p : Bool) (e : Stop) :
    memWf (applyStop s g c p e).mem = true := by
  cases e with
  | owner _ _ _ => exact ownerTrap_wf h _ _ _ _ _
  | localTrap _ _ _ => exact takeLocal_wf h _ _ _ _ _ _ _
  | park _ => simpa [applyStop, parkThread_mem] using h
  | forfeit => simpa [applyStop, forfeit] using h

theorem turn_mem (s : State) (g c : Nat) (e : Stop) : (e.turn s g c).mem = s.mem := by
  obtain ⟨x, h⟩ := turn_cases s g c e
  rw [h]

/-- A meaning that keeps the canonical form, run as an instruction, keeps it. -/
theorem runInstr_wf {s s' : State} {pair : Bool} {f : State → Nat → Except Stop State}
    (h : memWf s.mem = true) (hr : runInstr s s.cur pair f = .next s')
    (hf : ∀ u, f (landed s) (clockOf s) = .ok u → memWf u.mem = true) : memWf s'.mem = true := by
  have hl : memWf (landed s).mem = true := by simpa [landed] using h
  have hr' : (match f (landed s) (clockOf s) with
      | .ok u => Host.Outcome.next (passTurn u s.cur (clockOf s))
      | .error e => .next (e.turn (applyStop (landed s) s.cur (clockOf s) pair e) s.cur (clockOf s)) :
        Host.Outcome State Fault Refusal) = .next s' := hr
  cases hx : f (landed s) (clockOf s) with
  | ok u =>
    rw [hx] at hr'
    injection hr' with hr'
    subst hr'
    exact hf u hx
  | error e =>
    rw [hx] at hr'
    injection hr' with hr'
    subst hr'
    rw [turn_mem]
    exact applyStop_wf hl _ _ _ _

/-! ### Completing -/

/-- `t'` is `t` further on in its program: its place and turns differ, and nothing else. -/
def Kin (t t' : Thread) : Prop :=
  ∃ pc line status ready base turns lev0 lev1, t' =
    { t with
      pc := pc, line := line, status := status, ready := ready, base := base, turns := turns
      lev0 := lev0, lev1 := lev1 }

theorem Kin.refl (t : Thread) : Kin t t := ⟨_, _, _, _, _, _, _, _, rfl⟩

theorem Kin.trans {t t' t'' : Thread} (h : Kin t t') (h' : Kin t' t'') : Kin t t'' := by
  obtain ⟨_, _, _, _, _, _, _, _, rfl⟩ := h
  obtain ⟨_, _, _, _, _, _, _, _, rfl⟩ := h'
  exact ⟨_, _, _, _, _, _, _, _, rfl⟩

/-- The thread goes on, or parks for the line at its new pc or the walk to it, or raises the illegal-line or
access-violation trap there. -/
def GoesOn (s u : State) (g : Nat) : Prop :=
  ∃ t, Kin (s.thread g) t ∧
    ((u = s.setThread g t ∧ t.status ≠ .halting) ∨
      (u = parkThread (s.setThread g t) g (.fetch (lineAddr t.pc)) ∨
        u = parkThread (s.setThread g t) g (.walk (lineAddr t.pc) .fetch)) ∨
      ∃ cause info, (cause = 2 ∨ cause = 6) ∧ u = ownerTrap (s.setThread g t) g cause 0 info t.pc)

theorem enterLine_cases (s : State) (g : Nat) (ln : BitVec 512) : GoesOn s (enterLine s g ln) g := by
  unfold enterLine
  dsimp only
  split
  · exact ⟨_, ⟨_, _, _, _, _, _, _, _, rfl⟩, .inl ⟨rfl, by simp⟩⟩
  · exact ⟨_, ⟨_, _, _, _, _, _, _, _, rfl⟩, .inr (.inr ⟨2, 0, .inl rfl, rfl⟩)⟩

theorem enter_cases (s : State) (g : Nat) : GoesOn s (enter s g) g := by
  unfold enter
  dsimp only
  split
  · exact ⟨_, ⟨_, _, _, _, _, _, _, _, rfl⟩, .inr (.inr ⟨2, 0, .inl rfl, rfl⟩)⟩
  · split
    · exact enterLine_cases s g _
    · split
      · exact ⟨_, ⟨_, _, _, _, _, _, _, _, rfl⟩, .inr (.inl (.inl rfl))⟩
      · exact ⟨_, ⟨_, _, _, _, _, _, _, _, rfl⟩, .inr (.inl (.inr rfl))⟩
      · exact ⟨_, ⟨_, _, _, _, _, _, _, _, rfl⟩, .inr (.inr ⟨6, _, .inr rfl, rfl⟩)⟩

theorem GoesOn.after {s u : State} {g : Nat} {t : Thread} (h : GoesOn (s.setThread g t) u g) (hk : Kin (s.thread g) t) :
    GoesOn s u g := by
  obtain ⟨t', hk', h⟩ := h
  rw [State.thread_set] at hk'
  simp only [setThread_setThread] at h
  exact ⟨t', hk.trans hk', h⟩

theorem transferTo_cases (s : State) (g : Nat) (pc : Word) (hs : (s.thread g).status ≠ .halting) :
    GoesOn s (transferTo s g pc) g := by
  unfold transferTo
  dsimp only
  split
  · exact ⟨_, ⟨_, _, _, _, _, _, _, _, rfl⟩, .inl ⟨rfl, hs⟩⟩
  · exact (enter_cases _ g).after ⟨_, _, _, _, _, _, _, _, rfl⟩

theorem goTo_cases (s : State) (g : Nat) (pc : Word) (hs : (s.thread g).status ≠ .halting) :
    GoesOn s (goTo s g pc) g := by
  unfold goTo
  dsimp only
  split
  · split
    · exact ⟨_, ⟨_, _, _, _, _, _, _, _, rfl⟩, .inl ⟨rfl, hs⟩⟩
    · exact transferTo_cases _ _ _ hs
  · exact transferTo_cases _ _ _ hs

theorem evalLoops_kin (t : Thread) (p n : Word) : ∃ a b, (evalLoops t p n).1 = { t with lev0 := a, lev1 := b } := by
  unfold evalLoops
  dsimp only
  split
  · exact ⟨_, _, rfl⟩
  · split
    · split <;> exact ⟨_, _, rfl⟩
    · split <;> exact ⟨_, _, rfl⟩

/-- What completing can do (R43, R84). -/
theorem retire_cases (s : State) (g c : Nat) (st : Stall) (pair : Bool) (x : Option Word) :
    GoesOn s (retire s g c st pair x) g := by
  unfold retire
  dsimp only
  split
  · refine (transferTo_cases _ g _ ?_).after ⟨_, _, _, _, _, _, _, _, rfl⟩
    simp
  · obtain ⟨a, b, h⟩ := evalLoops_kin
      { s.thread g with
        ready := c + 8 * (st.toNat + 1), base := c + 8, status := .ready, turns := (s.thread g).turns + 1 }
      (s.thread g).pc
      (succOf { s.thread g with
        ready := c + 8 * (st.toNat + 1), base := c + 8, status := .ready, turns := (s.thread g).turns + 1 } pair)
    rw [h]
    refine (goTo_cases _ g _ ?_).after ⟨_, _, _, _, _, _, _, _, rfl⟩
    simp

/-! ### Acting and stopping -/

theorem landed_cur (s : State) : (landed s).cur = s.cur := rfl

theorem runInstr_ok {s u : State} {pair : Bool} {f : State → Nat → Except Stop State}
    (h : f (landed s) (clockOf s) = .ok u) : runInstr s s.cur pair f = .next (passTurn u s.cur (clockOf s)) := by
  show (match f (landed s) (clockOf s) with | .ok s' => _ | .error e => _) = _
  rw [h]
  rfl

theorem runInstr_err {s : State} {pair : Bool} {f : State → Nat → Except Stop State} {e : Stop}
    (h : f (landed s) (clockOf s) = .error e) :
    runInstr s s.cur pair f =
      .next (e.turn (applyStop (landed s) s.cur (clockOf s) pair e) s.cur (clockOf s)) := by
  show (match f (landed s) (clockOf s) with | .ok s' => _ | .error e => _) = _
  rw [h]
  rfl

/-- A meaning that answers `u` acts in `u`. -/
theorem acts_ok {s u : State} {i : Instr} {pair : Bool} {f : State → Nat → Except Stop State}
    (hi : exec i s = runInstr s s.cur pair f) (h : f (landed s) (clockOf s) = .ok u) : Acts s i u :=
  hi.trans (runInstr_ok h)

/-- A meaning that stops parks, traps or forfeits its turn. -/
theorem stops_err {s : State} {i : Instr} {pair : Bool} {f : State → Nat → Except Stop State} {e : Stop}
    (hi : exec i s = runInstr s s.cur pair f) (h : f (landed s) (clockOf s) = .error e) :
    exec i s = .next (e.turn (applyStop (landed s) s.cur (clockOf s) pair e) s.cur (clockOf s)) :=
  hi.trans (runInstr_err h)

theorem compute_ok {s : State} {g c lat : Nat} {st : Stall} {srcs : List RegNum} {d : RegNum} {o : Opnds} {v : Word}
    {f : List Word → Except Stop Word} (h : operands s g srcs [d] = .ok o) (hv : f o.vals = .ok v) :
    compute s g c st lat srcs d f =
      .ok (retire (writeLater (consume s g o.srcs) g (o.d 0) v (c + lat)) g c st false none) := by
  unfold compute
  rw [h]
  simp only [bind, Except.bind, hv]
  rfl

/-- An instruction that computes one result gives it. -/
theorem gives_of {s : State} {i : Instr} {st : Stall} {lat : Nat} {srcs : List RegNum} {d : RegNum} {o : Opnds}
    {v : Word} {f : State → List Word → Except Stop Word}
    (hi : exec i s = runInstr s s.cur false fun u c => compute u u.cur c st lat srcs d (f u))
    (h : Ready s srcs [d] o) (hv : f (landed s) o.vals = .ok v) : Gives s i st lat o v :=
  acts_ok hi (compute_ok h hv)

theorem require_ok {s : State} {g : Nat} {l : List Need} (h : l.all (needHolds s g) = true) :
    require s g l = .ok () := by
  unfold require
  rw [if_pos h]

end Sys2Proof.Machine
end

