-- ==== Sys2Proof/Tests/Slice0.lean ====
section
/-! SUPPORT. Tests: ill-formed terms are refused, words written out from the spec's encodings decode, single steps give
what the spec's text gives, and the hypotheses of every statement are met by a small state (test_hyp_…). -/

namespace Sys2Proof.Tests

set_option Elab.async false

open Sys2Proof Sys2Proof.Machine Sys2Proof.Claims

/-! ### Small states -/

/-- An answer that satisfies `p`. -/
def okWith {ε α : Type} (e : Except ε α) (p : α → Bool) : Bool :=
  match e with
  | .ok x => p x
  | .error _ => false

theorem of_okWith {ε α : Type} {e : Except ε α} (p : α → Bool) (h : okWith e p = true) : ∃ x, e = .ok x ∧ p x = true := by
  cases e with
  | ok x => exact ⟨x, rfl, h⟩
  | error _ => cases h

theorem of_ok {ε α : Type} {e : Except ε α} (h : okWith e (fun _ => true) = true) : ∃ x, e = .ok x :=
  let ⟨x, hx, _⟩ := of_okWith _ h
  ⟨x, hx⟩

theorem with_ok {ε α : Type} {e : Except ε α} (P : α → Prop) [DecidablePred P]
    (h : okWith e (fun x => decide (P x)) = true) : ∃ x, e = .ok x ∧ P x :=
  let ⟨x, hx, hp⟩ := of_okWith _ h
  ⟨x, hx, of_decide_eq_true hp⟩

/-- A memory operand that passes its stages. -/
theorem reaches_of {s : State} {m : MemArg} {q : MemAsk} {srcs dsts : List RegNum}
    (h : okWith (memStages (landed s) s.cur m q srcs dsts) (fun _ => true) = true) :
    ∃ o a key, Reaches s m q srcs dsts o a key :=
  let ⟨x, hx⟩ := of_ok h
  ⟨x.1, x.2.1, x.2.2, hx⟩

/-- A memory operand that passes its stages with a key of property `P`. -/
theorem reaches_with {s : State} {m : MemArg} {q : MemAsk} {srcs dsts : List RegNum} (P : Nat → Prop) [DecidablePred P]
    (h : okWith (memStages (landed s) s.cur m q srcs dsts) (fun x => decide (P x.2.2)) = true) :
    ∃ o a key, Reaches s m q srcs dsts o a key ∧ P key :=
  let ⟨x, hx, hp⟩ := of_okWith _ h
  ⟨x.1, x.2.1, x.2.2, hx, of_decide_eq_true hp⟩

/-- Thread 0 of owner 1 at the head of a line of one instruction, its segment 0 the tile store, and a TLB that maps a page
of signals and two pages of memory. -/
def base : State :=
  let s := State.reset.withFetchWord 16 0x0000
  { s with
    agenda := []
    frames := [(0x10, 1), (0x20, 1), (0x21, 1)]
    cores := [(0, { tlb := [(1, 0x8000000000, 12, 0x10087), (1, 0x10000000000, 12, 0x2000F), (1, 0x10000001000, 12, 0x2100F)] })] }

/-- `base` with another thread 0. -/
def baseT (f : Thread → Thread) : State := base.modThread 0 f

/-- `base` with register 4 set. -/
def baseR (v : Word) : State := baseT fun t => t.setReg 4 { val := v }

/-- `base` with segment 1 over the signals. -/
def baseS : State := baseT fun t => t.setSeg 1 { base := 0x8000000000, limit := 0x1000, code := 0x27 }

/-- A line of a prefix and an instruction behind it. -/
def pairLine (p : BitVec 16 × BitVec 64) : BitVec 512 :=
  let n := tailLen (p.1.extractLsb' 14 2)
  lineOf (BitVec.ofNat 16 (31 - n) :: 0x0008 :: p.1 :: List.replicate (29 - n) 0 ++ tailHalves p.2 n)

/-- `base` before a prefixed instruction. -/
def baseP (i : Instr) : State := baseT fun t => { t with line := (encode i).map pairLine }

theorem prefixes_of {s : State} {i : Instr} {ln : BitVec 512} (h : (s.thread s.cur).line = some ln)
    (h1 : headIdx (s.thread s.cur).pc < lineCount ln)
    (h2 : okWith (lineInstr ln (headIdx (s.thread s.cur).pc + 1)) (fun j => decide (j = i)) = true) : Prefixes s i :=
  let ⟨j, hj, hd⟩ := of_okWith _ h2
  ⟨ln, h, h1, by rw [hj, of_decide_eq_true hd]⟩

/-! ### Hypotheses: integer and control -/

theorem test_hyp_IntegerArithmetic :
    (∃ o, Ready base [4, 5] [7] o) ∧ (∃ o, Ready base [4, 5, 6] [31] o) ∧ ∃ o, Ready base [4] [0] o :=
  ⟨of_ok (by decide +kernel), of_ok (by decide +kernel), of_ok (by decide +kernel)⟩

theorem test_hyp_IntegerLogic : (∃ o, Ready base [63, 31] [31] o) ∧ ∃ o, Ready base [0, 48] [0] o :=
  ⟨of_ok (by decide +kernel), of_ok (by decide +kernel)⟩

theorem test_hyp_IntegerMoves :
    (∃ o, Ready base [4, 5] [7] o) ∧ (∃ o, Ready base [4, 5, 6] [7] o) ∧ (∃ o, Ready base [4] [7] o) ∧
    (∃ o, Ready base [] [31] o) ∧ ((31 : RegNum).toNat < 32 ∧ ∃ o, Ready base [4, 31] [31] o) ∧
    ((0 : RegNum).toNat < 32 ∧ ∃ o, Ready base [0] [0] o) :=
  ⟨of_ok (by decide +kernel), of_ok (by decide +kernel), of_ok (by decide +kernel), of_ok (by decide +kernel),
    ⟨by decide, of_ok (by decide +kernel)⟩, ⟨by decide, of_ok (by decide +kernel)⟩⟩

/-- Thread 0 has enabled the division trap. -/
def baseZ (v : Word) : State := baseT fun t => ({ t with dz := true }).setReg 4 { val := v }

theorem test_hyp_IntegerDivision :
    (∃ o, Ready (baseR 1) [5, 4] [7] o ∧ (o.v 1 ≠ 0 ∨ (issuer (baseR 1)).dz = false)) ∧
    (∃ o, Ready base [5, 4] [7] o ∧ (half (o.v 1) ≠ 0 ∨ (issuer base).dz = false)) ∧
    ((issuer (baseZ 0)).dz = true ∧ ∃ o, Ready (baseZ 0) [5, 4] [7] o ∧ o.v 1 = 0) ∧
    ((issuer (baseZ 0)).dz = true ∧ ∃ o, Ready (baseZ (1 <<< 32)) [5, 4] [7] o ∧ o.v 1 ≠ 0 ∧ half (o.v 1) = 0) ∧
    (0 < 64 ∧ (7 : Word) ≠ 0 ∧ ¬ ((5 : Word) = BitVec.intMin 64 ∧ (7 : Word) = BitVec.allOnes 64)) :=
  ⟨with_ok (fun o : Opnds => o.v 1 ≠ 0 ∨ (issuer (baseR 1)).dz = false) (by decide +kernel),
    with_ok (fun o : Opnds => half (o.v 1) ≠ 0 ∨ (issuer base).dz = false) (by decide +kernel),
    ⟨by decide +kernel, with_ok (fun o : Opnds => o.v 1 = 0) (by decide +kernel)⟩,
    ⟨by decide +kernel, with_ok (fun o : Opnds => o.v 1 ≠ 0 ∧ half (o.v 1) = 0) (by decide +kernel)⟩, by decide⟩

theorem test_hyp_ControlTransfers :
    (∃ o, Ready base [4, 5] [] o) ∧ (∃ o, Ready base [4] [] o) ∧ (∃ o, Ready base [31] [] o) ∧
    (∃ o, Ready base [] [31] o) ∧ ∃ o, Ready base [4] [31] o :=
  ⟨of_ok (by decide +kernel), of_ok (by decide +kernel), of_ok (by decide +kernel), of_ok (by decide +kernel),
    of_ok (by decide +kernel)⟩

/-- Thread 0 of a deterministic launch. -/
def baseD : State := baseT fun t => { t with det := true }

/-- `base` with the thread's line in its core's line store. -/
def baseLn : State := base.modCore 0 fun c => { c with lines := ((base.thread 0).line.toList).map fun l => (1, lineAddr (base.thread 0).pc, l) }

/-- `base` with thread 1 in the overflow queue: it is resident nowhere. -/
def baseO : State :=
  (base.setThread 1 { loneThread with id := 1 }).modCore 0 fun c => { c with phys := [some 0, none], overflow := [1] }

theorem test_hyp_ControlState :
    (∃ o, Ready base [] [7] o) ∧ (∃ o, Ready (baseR 1) [4] [] o ∧ o.v 0 ≠ 0) ∧
    (∃ o, Ready (baseR 0) [4] [] o ∧ o.v 0 = 0) ∧
    (∃ ln, needLine (landed baseLn) 0 (lineAddr (targetPc (issuer baseLn).pc ⟨0, 1⟩)) = .ok ln ∧
      entryLegal ln (headIdx (targetPc (issuer baseLn).pc ⟨0, 1⟩)) = true) ∧
    coreDet (retire (landed baseD) 0 (clockOf baseD) 7 false none) 0 = true ∧
    overflowNext (retire (landed base) 0 (clockOf base) 7 false none) 0 = none ∧
    (∃ l, pwaitNeeds (landed base) base.cur 4 = .ok l ∧ Meets base l) ∧ Meets base [.counts false false true] ∧
    (let r := retire (landed baseO) 0 (clockOf baseO) 7 false none
     physOfSlot (r.core 0) 0 = some 0 ∧ coreDet r 0 = false ∧ overflowNext r 0 = some 1) :=
  ⟨of_ok (by decide +kernel), with_ok (fun o : Opnds => o.v 0 ≠ 0) (by decide +kernel),
    with_ok (fun o : Opnds => o.v 0 = 0) (by decide +kernel),
    with_ok (fun ln : BitVec 512 => entryLegal ln (headIdx (targetPc (issuer baseLn).pc ⟨0, 1⟩)) = true) (by decide +kernel),
    by decide +kernel, by decide +kernel,
    with_ok (fun l : List Need => l.all (needHolds (landed base) base.cur) = true) (by decide +kernel),
    (by decide +kernel : [Need.counts false false true].all (needHolds (landed base) base.cur) = true), by decide +kernel⟩

/-! ### Hypotheses: memory -/

/-- An operand at byte `n` of segment `k`. -/
def at14 (n : BitVec 14) (k : BitVec 3) : MemOp 14 := ⟨n, false, 0, k, 0⟩
def at38 (n : BitVec 38) (k : BitVec 3) : MemOp 38 := ⟨n, false, 0, k, 0⟩
def at40 (n : BitVec 40) (k : BitVec 3) : MemOp 40 := ⟨n, false, 0, k, 0⟩

theorem test_hyp_MemoryLoads :
    (∃ o a key, Reaches base (memArg (at14 8 0)) { kind := .load, size := 8, rights := 1 } [] [7] o a key) ∧
    (∃ o a key, Reaches base (memArg (at40 0x17FFFF 0)) { kind := .load, size := 1, rights := 1 } [] [0] o a key) ∧
    ((0 : RegNum) = 0 ∧ ∃ o a key, Reaches base (memArg (at40 0 0))
      { kind := .load, size := 16, rights := 1, twin := true } [] [0, 0] o a key) ∧
    ∃ o a key, Reaches base (memArg (at40 8 0))
      { kind := .load, size := 8, rights := 1, twin := true } [] [7, 8] o a key :=
  ⟨reaches_of (by decide +kernel), reaches_of (by decide +kernel), ⟨rfl, reaches_of (by decide +kernel)⟩,
    reaches_of (by decide +kernel)⟩

theorem test_hyp_MemoryStores :
    (∃ o a key, Reaches base (memArg (at14 8 0)) { kind := .store, size := 8, rights := 2 } [7] [] o a key) ∧
    (∃ o a key, Reaches base (memArg (at40 0x17FFFF 0)) { kind := .store, size := 1, rights := 2 } [0] [] o a key) ∧
    ∃ o a key, Reaches base (memArg (at40 0 0)) { kind := .store, size := 16, rights := 2, twin := true } [7, 8] [] o a
      key :=
  ⟨reaches_of (by decide +kernel), reaches_of (by decide +kernel), reaches_of (by decide +kernel)⟩

theorem test_hyp_RelaxedAccesses :
    (let i : Instr := .ldM 0 .d 7 (at14 8 0)
     Prefixes (baseP i) i ∧ ∃ o a key, Reaches (baseP i) (memArg (at14 8 0))
      { kind := .load, size := 8, rights := 1, relaxed := true, pair := true } [] [7] o a key) ∧
    (let i : Instr := .ldN 0 .d 7 (at40 8 0)
     Prefixes (baseP i) i ∧ ∃ o a key, Reaches (baseP i) (memArg (at40 8 0))
      { kind := .load, size := 8, rights := 1, relaxed := true, pair := true } [] [7] o a key) ∧
    (let i : Instr := .lduM 0 .b 7 (at14 8 0)
     Prefixes (baseP i) i) ∧
    (let i : Instr := .lduN 0 .b 7 (at40 8 0)
     Prefixes (baseP i) i) ∧
    (let i : Instr := .stM 0 .d 7 (at14 8 0)
     Prefixes (baseP i) i ∧ ∃ o a key, Reaches (baseP i) (memArg (at14 8 0))
      { kind := .store, size := 8, rights := 2, relaxed := true, pair := true } [7] [] o a key) ∧
    (let i : Instr := .stN 0 .d 7 (at40 8 0)
     Prefixes (baseP i) i) ∧
    (let i : Instr := .ldp 0 true 7 8 (at40 0 0)
     Prefixes (baseP i) i ∧ ((7 : RegNum) = 8 → (7 : RegNum) = 0 ∨ 32 ≤ (7 : RegNum).toNat) ∧
      ∃ o a key, Reaches (baseP i) (memArg (at40 0 0))
        { kind := .load, size := 16, rights := 1, relaxed := true, pair := true, twin := true } [] [7, 8] o a key) ∧
    (let i : Instr := .stp 0 true 7 8 (at40 0 0)
     Prefixes (baseP i) i ∧ ∃ o a key, Reaches (baseP i) (memArg (at40 0 0))
      { kind := .store, size := 16, rights := 2, relaxed := true, pair := true, twin := true } [7, 8] [] o a key) :=
  ⟨⟨prefixes_of rfl (by decide +kernel) (by decide +kernel), reaches_of (by decide +kernel)⟩,
    ⟨prefixes_of rfl (by decide +kernel) (by decide +kernel), reaches_of (by decide +kernel)⟩,
    prefixes_of rfl (by decide +kernel) (by decide +kernel),
    prefixes_of rfl (by decide +kernel) (by decide +kernel),
    ⟨prefixes_of rfl (by decide +kernel) (by decide +kernel), reaches_of (by decide +kernel)⟩,
    prefixes_of rfl (by decide +kernel) (by decide +kernel),
    ⟨prefixes_of rfl (by decide +kernel) (by decide +kernel), by decide, reaches_of (by decide +kernel)⟩,
    ⟨prefixes_of rfl (by decide +kernel) (by decide +kernel), reaches_of (by decide +kernel)⟩⟩

theorem test_hyp_SegmentsAndWaits :
    (∃ o, Ready base [0] [7] o) ∧ (∃ o, Ready base [4, 5] [] o) ∧ (∃ o, Ready base [] [7] o) ∧
    (∃ o, Ready base [4] [] o ∧ (o.v 0).toNat ≤ ((issuer base).segs[(0 : Nat)]).limit.toNat) ∧
    ((issuer base).segs[(0 : Nat)]).code.toNat / 16 ≠ 3 ∧ Meets base (kwNeeds 0) ∧ Meets base (kwNeeds 3) ∧
    Meets base [.counts true true true] ∧ Meets base [.path .thread, .path .ext] ∧
    landingBit (landed base) 0 23 = false :=
  ⟨of_ok (by decide +kernel), of_ok (by decide +kernel), of_ok (by decide +kernel),
    with_ok (fun o : Opnds => (o.v 0).toNat ≤ ((issuer base).segs[(0 : Nat)]).limit.toNat) (by decide +kernel),
    by decide +kernel,
    (by decide +kernel : (kwNeeds 0).all (needHolds (landed base) base.cur) = true),
    (by decide +kernel : (kwNeeds 3).all (needHolds (landed base) base.cur) = true),
    (by decide +kernel : [Need.counts true true true].all (needHolds (landed base) base.cur) = true),
    (by decide +kernel : [Need.path .thread, .path .ext].all (needHolds (landed base) base.cur) = true),
    by decide +kernel⟩

/-! ### Hypotheses: banks, waits, atomics -/

/-- A request of thread 0 for `n` bytes of its tile store. -/
def req (n : Nat) (acc : Access) : Req :=
  { id := 0, by_ := .ordinary, path := .thread, g := 0, owner := 1, tile := 0, key := tileKey 0 0x17FFC0, size := n
    acc := acc, kcls := 1 }

/-- `base` with one request on its way, its thread waiting. -/
def baseQ (r : Req) : State := { baseT fun t => { t with status := .parked (.access r.id) } with traffic := [r], nextId := 1 }

theorem served_of {s : State} {r : Req}
    (h : findReq s r.id = some r ∧ bankTurn s r = true ∧ (r.key < 2 ^ 51 ∨ 2 ^ 52 ≤ r.key) ∧
      gate s r.owner r.key = .pass ∧ unitOf r.key ∉ s.poison ∧
      (r.by_ = .ordinary ∨ r.by_ = .relaxed ∨ r.by_ = .fetch ∨ r.by_.level.isSome = true)) : Served s r := by
  obtain ⟨h1, h2, h3, h4, h5, h6⟩ := h
  refine ⟨h1, h2, h3, h4, h5, ?_⟩
  obtain h | h | h | h := h6
  · exact .inl h
  · exact .inr (.inl h)
  · exact .inr (.inr (.inl h))
  · revert h
    cases r.by_ <;> intro h <;> first | exact .inr (.inr (.inr ⟨_, rfl⟩)) | cases h

theorem test_hyp_BankServesAccess :
    (let r := req 8 .load
     Served (baseQ r) r ∧ r.acc = .load) ∧
    (let r := req 64 (storeAcc 64 5)
     Served (baseQ r) r ∧ r.acc = storeAcc 64 5 ∧ r.size = 64 ∧ r.key % 64 + 64 ≤ 64 ∧ memWf (baseQ r).mem = true) :=
  ⟨⟨served_of (by decide +kernel), rfl⟩, served_of (by decide +kernel), rfl, rfl, by decide +kernel, by decide +kernel⟩

/-- A performed request. -/
def reqDone (b : By) (acc : Access) : Req := { req 8 acc with by_ := b, stage := .performed }

/-- Thread 0 waits for a signal at the controller, with no watch yet. -/
def reqSig : Req := { req 32 (.sigwait .eq 0) with key := 0x10000, stage := .waiting }

theorem test_hyp_AccessesAnswer :
    ((1 = 1 ∨ 1 = 2) ∧ 63 + 1 ≤ 64 ∧ 56 + 8 ≤ 64) ∧
    (let r := reqDone .ordinary .load
     findReq (baseQ r) r.id = some r ∧ responds (baseQ r) r = true ∧ r.by_ = .ordinary ∧
      ((baseQ r).thread r.g).status = .parked (.access r.id)) ∧
    (let r := reqDone .ordinary (.sigwait .ne 3)
     findReq (baseQ r) r.id = some r ∧ responds (baseQ r) r = true ∧ r.acc = .sigwait .ne 3) ∧
    (let r := reqDone .relaxed .load
     findReq (baseQ r) r.id = some r ∧ responds (baseQ r) r = true ∧ r.acc = .load) ∧
    (let r := reqDone .relaxed (storeAcc 8 1)
     let s := { baseQ r with calib := some (Vector.replicate 5 1) }
     findReq s r.id = some r ∧ responds s r = true ∧ r.acc ≠ .load ∧ s.calib.isSome = true) ∧
    (∀ b ∈ [By.copy 3 0, .commit (barKey 0 (launchKey 1 1))],
      let r := { reqDone b (storeAcc 8 1) with due := 5 }
      let s := { baseQ r with calib := some (Vector.replicate 5 1), work := 5 }
      findReq s r.id = some r ∧ responds s r = true ∧ r.by_ = b ∧ s.calib.isSome = true) ∧
    (let s := baseQ reqSig
     findReq s reqSig.id = some reqSig ∧ reqSig.stage = .waiting ∧
      watchNext s (homeDie reqSig.key) reqSig.ticket = true) := by
  decide +kernel

/-- Thread 0 parked. -/
def baseW (w : Wait) : State := baseT fun t => { t with status := .parked w }

/-- Memory answers requests after a delay: calibration mode (R333). -/
def calm (s : State) : State := { s with calib := some (Vector.replicate 5 1) }

/-- A port that reads for an operation, not answered yet. -/
def port0 (a : Word) : Port := { addr := a, left := 1, due := 5 }

/-- A port whose last answer is there, memory as it was empty. -/
def port1 (a : Word) : Port := { addr := a, left := 0, due := 0, view := some ([], []) }

/-- A record of the fault queue. -/
def frec : FRec := { addr := 0, pc := 0, ident := 0, owner := 1, kind := .load, requester := 0, ch := 0 }

/-- A page with no entry, and one whose entry has a reserved bit set. -/
def walkS (m : Mem) : State := { baseW (.walk 0x20000000000 .load) with mem := m }

/-- A thread whose port reads for it, waits for it, or asks it, and a voided fetch. -/
theorem test_hyp_PortsAnswer :
    (let s := baseT fun t => { t with port := some (port0 0) }
     (s.thread 0).port.any (fun p => !p.answered s) = true) ∧
    (let s := (baseW (.port 8 3)).modThread 0 fun t => { t with port := some (port1 8) }
     (s.thread 0).port.any (fun p => !p.answered s) = false ∧ (s.thread 0).status = .parked (.port 8 3) ∧
      portReady s 0 8 3 = true) ∧
    (let s := calm (baseW (.port 0x10000000000 3))
     (s.thread 0).status = .parked (.port 0x10000000000 3) ∧ portReady s 0 0x10000000000 3 = false) ∧
    (let r : Req := { req 64 .load with
       by_ := .fetch, path := .ext, key := 0x20040, addr := 0x10000000040, stage := .performed, stale := true, void := true }
     let s := { baseW (.fetch 0x10000000040) with traffic := [r] }
     fetchAnswer s 0 = some r ∧ (s.thread 0).status = .parked (.fetch r.addr) ∧ r.void = true) := by
  decide +kernel

theorem test_hyp_WaitsEnd :
    (let s := baseW (.needs [.full 1])
     0 < Config.threads ∧ tileClosed s (tileOf 0) = false ∧ (s.thread 0).port.any (fun p => !p.answered s) = false ∧
      (s.thread 0).status = .parked (.needs [.full 1]) ∧
      [Need.full 1].all (needHolds s 0) = true) ∧
    ((baseW (.mwait 3)).thread 0).status = .parked (.mwait 3) ∧ mwaitDone (baseW (.mwait 3)) 0 3 = true ∧
    (let s := baseW (.trap (.owner 9 0 5 1))
     (s.thread 0).status = .parked (.trap (.owner 9 0 5 1)) ∧ vectorDone s 0 = true) ∧
    (let s := baseW (.drop 0x20000000000 .load)
     (s.thread 0).status = .parked (.drop 0x20000000000 .load) ∧ vectorDone s 0 = true) ∧
    (∀ b ∈ [true, false],
      let r : Req := { req 64 .load with
        by_ := .fetch, path := .ext, key := 0x20040, addr := 0x10000000040, stage := .performed, stale := b }
      let s := { baseW (.fetch 0x10000000040) with traffic := [r] }
      fetchAnswer s 0 = some r ∧ fetchAnswer { base with traffic := [r] } 0 = some r ∧ r.stale = b ∧
        (base.thread 0).status ≠ .parked (.fetch r.addr)) ∧
    (let r : Req := { req 64 .load with
       by_ := .fetch, path := .ext, key := 0x20040, addr := 0x10000000040, stage := .performed
       data := ((base.thread 0).line.getD 0) }
     let s := { baseT fun t => { t with status := .parked (.fetch 0x10000000040), line := none, pc := 0x10000000041 } with
       traffic := [r] }
     fetchAnswer s 0 = some r ∧ (s.thread 0).status = .parked (.fetch r.addr) ∧ (s.thread 0).serial = r.serial ∧
      r.void = false ∧ (s.thread 0).line = none ∧ lineAddr (s.thread 0).pc = r.addr ∧
      entryLegal r.data (headIdx (s.thread 0).pc) = true) ∧
    (let s := (baseW (.walk 0x10000000000 .load)).modDie 0 fun d =>
      { d with tlb2 := [(1, 0x10000000000, 12, 0x2000F)] }
     walkAnswer s 0 = none ∧ walkReading s 0 0x10000000000 = false ∧
      walkVia s 0 1 0x10000000000 = .leaf 0x10000000000 12 0x2000F ∧
      leafAllows 0x2000F 0x10000000000 .load (leafPhys 0x2000F 12 0x10000000000) = true) ∧
    (let s := walkS []
     (s.thread 0).status = .parked (.walk 0x20000000000 .load) ∧ walkAnswer s 0 = none ∧
      walkReading s 0 0x20000000000 = false ∧
      walkVia s 0 1 0x20000000000 = .absent ∧ vectorDone s 0 = true ∧ memWf s.mem = true ∧ (s.die 0).faults.length < 1024 ∧ (s.die 0).held = []) ∧
    (let s := (walkS []).modDie 0 fun d => { d with held := [frec] }
     (s.thread 0).status = .parked (.walk 0x20000000000 .load) ∧ walkVia s 0 1 0x20000000000 = .absent ∧
      vectorDone s 0 = true ∧ ¬ ((s.die 0).faults.length < 1024 ∧ (s.die 0).held = [])) ∧
    (let s := (walkS []).modCore 0 fun c => { c with vq := [{ n := 3, g := 0, pc := 0, ins := .vmask 0 .and 1 2 3, gval := 0, seed := 0 }] }
     walkVia s 0 1 0x20000000000 = .absent ∧ vectorDone s 0 = false) ∧
    walkVia (walkS [(0, 0x11)]) 0 1 0x20000000000 = .malformed ∧
    (let walk (e : BitVec 512) (l : Nat) : Req :=
       { req 8 .load with by_ := .walk l, path := .ext, key := 0x30020, addr := 0x20000000000, stage := .performed, data := e }
     let s (r : Req) : State := calm { walkS [] with traffic := [r] }
     (∀ p ∈ [(0, 3), (0x4001, 3)],
       let r := walk (BitVec.ofNat 512 p.1) p.2
       walkAnswer (s r) 0 = some r ∧ r.serial = ((s r).thread 0).serial ∧ r.by_ = .walk p.2) ∧
      walkEntry (s (walk 0 3)) 0x20000000000 3 (0x30020 - 8 * entryIdx 0x20000000000 3) 0 = .done .absent ∧
      walkEntry (s (walk 0x4001 3)) 0x20000000000 3 (0x30020 - 8 * entryIdx 0x20000000000 3) 0x4001 =
        .table 0x4000) := by
  decide +kernel

theorem test_hyp_FaultQueueAndShootdowns :
    7 < Config.dies ∧
    (let s := base.modDie 7 fun d => { d with held := [frec] }
     (s.die 7).held = frec :: [] ∧ (s.die 7).faults.length < 1024) ∧
    (1 ≤ 40 ∧ 40 ≤ Config.owners) ∧
    (let x : Shoot := { owner := 40, addr := 0, size := 4096 }
     let s := base.modDie 7 fun d => { d with shoot := [x] }
     (s.die 7).shoot = x :: [] ∧ x.busy s = false) := by
  decide +kernel

theorem test_hyp_AtomicsAndSignals :
    (∃ o a key, Reaches base (memArg (at38 0 0))
      { kind := .atomic, size := 8, rights := 4, only := some [0, 1] } [5] [7] o a key) ∧
    ((31 : RegNum).toNat < 32 ∧ ∃ o a key, Reaches base (memArg (at38 4 0))
      { kind := .atomic, size := 4, rights := 4, only := some [0, 1] } [5, 31] [31] o a key) ∧
    (∃ o a key, Reaches baseS (memArg (at14 32 1))
      { kind := .atomic, size := 32, rights := 4, only := some [2] } [5] [] o a key) ∧
    (∃ o a key, Reaches baseS (memArg (at40 0xFE0 1))
      { kind := .atomic, size := 32, rights := 4, only := some [2] } [5] [] o a key) ∧
    ∃ o a key, Reaches baseS (memArg (at40 0xFE0 1))
      { kind := .load, size := 32, rights := 1, only := some [2] } [5] [7] o a key :=
  ⟨reaches_of (by decide +kernel), ⟨by decide, reaches_of (by decide +kernel)⟩, reaches_of (by decide +kernel),
    reaches_of (by decide +kernel), reaches_of (by decide +kernel)⟩

theorem test_hyp_AtomicsPerform :
    (∀ acc ∈ [Access.swap true 1, .cas true 0 1, .fadd true 1, .amo .add true 1], let r := req 8 acc
      Served (baseQ r) r ∧ memWf (baseQ r).mem = true ∧ r.size = 8 ∧ r.key % r.size = 0) ∧
    (let r := req 4 (.amo .max false 1)
     Served (baseQ r) r ∧ r.size = 4 ∧ r.key % r.size = 0) ∧
    (let r := { req 32 (.sigup true 1) with key := 0x10FE0 }
     Served (baseQ r) r ∧ memWf (baseQ r).mem = true ∧ r.size = 32 ∧ r.key % 32 = 0 ∧ r.acc = .sigup true 1) := by
  refine ⟨fun acc h => ?_, ⟨served_of (by decide +kernel), rfl, by decide +kernel⟩,
    served_of (by decide +kernel), rfl, rfl, by decide +kernel, rfl⟩
  simp only [List.mem_cons, List.not_mem_nil, or_false] at h
  obtain rfl | rfl | rfl | rfl := h <;>
    exact ⟨served_of (by decide +kernel), rfl, rfl, by decide +kernel⟩

/-- `base` with a barrier of its launch in its berth. -/
def baseB (b : Barrier) : State := base.setBarrier (barKey 0 (launchKey 1 1)) b

/-- A contribution of thread 0. -/
def contrib : Contrib := { who := whoIn base 0, id := 0, addr := 0, key := 2 ^ 52, dbl := true, val := 1 }

/-- 16 contributions of thread 0. -/
def baseB16 : State := baseB { contribs := List.replicate 16 contrib }

/-- `base` with a segment 1 over a UALink window. -/
def baseK1 : State :=
  (baseT fun t => t.setSeg 1 { base := 0x10000002000, limit := 0x1000, code := 0x07 }).modCore 0 fun c =>
    { c with tlb := [(1, 0x10000002000, 12, 0xC00000000F)] }

/-- What `dadd` asks of its operand. -/
def daddAsk (n : Nat) : MemAsk := { kind := .atomic, size := n, rights := 4, only := some [0, 1] }

theorem test_hyp_BarrierInstructions :
    (∃ o, Ready base [4] [7] o) ∧ Meets base [.counts true true true] ∧
    (base.barrier (barKey (berthOf (tileOf base.cur)) (issuer base).launch)).broken = false ∧
    (let s := baseB { broken := true }
     (∃ o, Ready s [4] [7] o) ∧ Meets s [.counts true true true] ∧
      (s.barrier (barKey (berthOf (tileOf s.cur)) (issuer s).launch)).broken = true) ∧
    ((∃ o a key, Reaches base (memArg (at38 0 0)) { daddAsk 8 with bank := false } [5] [] o a key ∧ overLink key = false) ∧
      contribCount (landed base) base.cur < 16) ∧
    ((∃ o a key, Reaches baseB16 (memArg (at38 0 0)) { daddAsk 4 with bank := false } [5] [] o a key ∧
      overLink key = false) ∧ 16 ≤ contribCount (landed baseB16) baseB16.cur) ∧
    ∃ o a key, Reaches baseK1 (memArg (at38 0 1)) { daddAsk 8 with bank := false } [5] [] o a key ∧ overLink key = true :=
  ⟨of_ok (by decide +kernel),
    (by decide +kernel : [Need.counts true true true].all (needHolds (landed base) base.cur) = true), by decide +kernel,
    ⟨of_ok (by decide +kernel),
      (by decide +kernel : [Need.counts true true true].all (needHolds (landed (baseB { broken := true })) 0) = true),
      by decide +kernel⟩,
    ⟨reaches_with (fun k => overLink k = false) (by decide +kernel), by decide +kernel⟩,
    ⟨reaches_with (fun k => overLink k = false) (by decide +kernel), by decide +kernel⟩,
    reaches_with (fun k => overLink k = true) (by decide +kernel)⟩

theorem test_hyp_BarrierEvents :
    39 < Config.berths ∧
    (let s := { baseB { arrivals := [⟨0, true, 5, 0, .none, 0⟩] } with work := 5 }
     let b := s.barrier (barKey 0 (launchKey 1 1))
     s.pause = none ∧ b.broken = false ∧ b.arrivals.any (·.expired s.work) = true) ∧
    (let s := baseB { committing := true, releasing := [⟨0, false, 0, 0, .none, 0⟩] }
     let b := s.barrier (barKey 0 (launchKey 1 1))
     b.committing = true ∧ s.traffic.any (fun r => r.by_ == .commit (barKey 0 (launchKey 1 1))) = false ∧
      b.releasing.all (fun a => !a.gated s) = true) := by
  decide +kernel

/-! ### Hypotheses: queues and copies -/

/-- `base` with buffer `b` of its tile. -/
def baseU (b : Nat) (y : Buf) : State := base.modTile 0 fun t => t.setBuf b y

/-- A declared buffer of 64 bytes at the end of the tile store. -/
def buf64 (st : BufState) : Buf := { declared := true, addr := 0x17FFC0, len := 64, state := st }

theorem test_hyp_QueuesAndBuffers :
    (∃ o, Ready base [] [7] o) ∧ queueCount (landed base) base.cur 33 = .ok 0 ∧
    queueCount (landed base) base.cur 38 = .ok 16 ∧
    (let s := baseU 31 (buf64 .full)
     bufMove ((s.tile 0).buf 31) .drain = .ok .draining) ∧
    bufMove ((base.tile 0).buf 31) .drain = .error 4 ∧
    (bufMove ((baseU 0 (buf64 .empty)).tile 0 |>.buf 0) .drain = .error 1) ∧
    ((31 : RegNum).toNat < 32 ∧ (∃ o, Ready (baseR 64) [0, 4] [] o ∧ (o.v 1).toNat = 64) ∧
      Meets (baseR 64) (kwNeeds 0) ∧ Extent (baseR 64) ((issuer (baseR 64)).segs[(0 : Nat)]) 0 64 1 8 0 ∧
      (((baseR 64).tile 0).buf 31).declared = false ∧ hitsLanding (landed (baseR 64)) 1 0 64 1 0 = false) ∧
    ((∃ o, Ready base [0, 4] [] o ∧ (o.v 1).toNat = 0) ∧
      Extent base ((issuer base).segs[(0 : Nat)]) 0x17FFFF 0 1 8 0x17FFFF) :=
  ⟨of_ok (by decide +kernel), by decide +kernel, by decide +kernel, by decide +kernel, by decide +kernel,
    by decide +kernel,
    ⟨by decide, with_ok (fun o : Opnds => (o.v 1).toNat = 64) (by decide +kernel),
      (by decide +kernel : (kwNeeds 0).all (needHolds (landed (baseR 64)) 0) = true),
      (by decide +kernel :
        extentCheck (landed (baseR 64)) 1 ((issuer (baseR 64)).segs[(0 : Nat)]) 0 64 1 8 = .ok 0),
      by decide +kernel, by decide +kernel⟩,
    with_ok (fun o : Opnds => (o.v 1).toNat = 0) (by decide +kernel),
    (by decide +kernel :
      extentCheck (landed base) 1 ((issuer base).segs[(0 : Nat)]) 0x17FFFF 0 1 8 = .ok 0x17FFFF)⟩

/-- Buffer 31 is declared and empty, and registers 4 to 6 hold the operands of a copy. -/
def baseC (a b c : Word) : State :=
  (baseU 31 (buf64 .empty)).modThread 0 fun t =>
    ((t.setReg 4 { val := a }).setReg 5 { val := b }).setReg 6 { val := c }

theorem takes_of {s : State} {ch buf : Nat}
    (h : [Need.channel ch].all (needHolds (landed s) s.cur) = true ∧ ((s.tile (tileOf s.cur)).buf buf).declared = true ∧
      ((s.tile (tileOf s.cur)).buf buf).state = .empty) : Takes s ch buf := h

theorem test_hyp_CopyStarts :
    ((31 : RegNum).toNat < 32 ∧ Takes (baseC 0 0 0) 3 31) ∧
    (let s := baseC 64 0 0
     cfReg (landed s) 0 true 4 = .ok (some 4) ∧ cfReg (landed s) 0 false 63 = .ok none ∧
      (∃ o, Ready s [0, 4] [] o ∧ (o.v 1).toNat = 64 ∧ (o.v 1).toNat ≤ ((s.tile 0).buf 31).len) ∧
      Meets s (kwNeeds 0) ∧ Extent s ((issuer s).segs[(0 : Nat)]) 0x17FFC0 64 1 1 0x17FFC0 ∧
      sourceCheck (landed s) 0 ⟨0x17FFC0, 64, 1, 0⟩ = .ok () ∧ hitsLanding (landed s) 1 0x17FFC0 64 1 0 = false ∧
      (inTile (landed s) 1 0 0x17FFC0 64 && bufInTile (landed s) 0 31) = true) ∧
    (let s := baseC 0 0x200000010 0x2000000010
     (∃ o, Ready s [4, 5, 6] [] o ∧ (o.v 1).toNat % 2 ^ 32 = 16 ∧ (o.v 1).toNat / 2 ^ 32 = 2 ∧
       (o.v 2).toNat % 2 ^ 32 = 16 ∧ (o.v 2).toNat / 2 ^ 32 = 32 ∧ 16 ≤ 32 ∧
       rowExtent 16 2 32 ≤ ((s.tile 0).buf 31).len) ∧
      Extent s ((issuer s).segs[(0 : Nat)]) 0 (rowExtent 16 2 16) 1 1 0 ∧
      sourceCheck (landed s) 0 ⟨0, 16, 2, 16⟩ = .ok () ∧ hitsLanding (landed s) 1 0x17FFC0 16 2 32 = false) ∧
    (let s := baseC 0 0 0x1000000004
     (∃ o, Ready s [4, 5, 6] [] o ∧ (o.v 2).toNat % 2 ^ 32 = 4 ∧ (o.v 2).toNat / 2 ^ 32 = 16 ∧ elemSizeOk 4 = true) ∧
      Extent s (issuer s).segs[(0 : Nat)] 0 (16 * 4) 4 1 0 ∧ sourceCheck (landed s) 0 ⟨0, 16 * 4, 1, 0⟩ = .ok () ∧
      readable (issuer s).segs[(0 : Nat)] 0 = .ok () ∧ hitsLanding (landed s) 1 0x17FFC0 (16 * 4) 1 0 = false ∧
      16 * 4 ≤ ((s.tile 0).buf 31).len ∧
      Extent s (issuer s).segs[(0 : Nat)] 0 (16 * 4) 1 1 0) :=
  ⟨⟨by decide, takes_of (by decide +kernel)⟩,
    ⟨by decide +kernel, by decide +kernel,
      with_ok (fun o : Opnds => (o.v 1).toNat = 64 ∧ (o.v 1).toNat ≤ (((baseC 64 0 0).tile 0).buf 31).len)
        (by decide +kernel),
      (by decide +kernel : (kwNeeds 0).all (needHolds (landed (baseC 64 0 0)) 0) = true),
      (by decide +kernel : extentCheck (landed (baseC 64 0 0)) 1 ((issuer (baseC 64 0 0)).segs[(0 : Nat)]) 0x17FFC0 64
        1 1 = .ok 0x17FFC0), by decide +kernel, by decide +kernel, by decide +kernel⟩,
    ⟨with_ok (fun o : Opnds => (o.v 1).toNat % 2 ^ 32 = 16 ∧ (o.v 1).toNat / 2 ^ 32 = 2 ∧
        (o.v 2).toNat % 2 ^ 32 = 16 ∧ (o.v 2).toNat / 2 ^ 32 = 32 ∧ 16 ≤ 32 ∧
        rowExtent 16 2 32 ≤ (((baseC 0 0x200000010 0x2000000010).tile 0).buf 31).len) (by decide +kernel),
      (by decide +kernel : extentCheck (landed (baseC 0 0x200000010 0x2000000010)) 1
        ((issuer (baseC 0 0x200000010 0x2000000010)).segs[(0 : Nat)]) 0 (rowExtent 16 2 16) 1 1 = .ok 0),
      by decide +kernel, by decide +kernel⟩,
    ⟨with_ok (fun o : Opnds => (o.v 2).toNat % 2 ^ 32 = 4 ∧ (o.v 2).toNat / 2 ^ 32 = 16 ∧ elemSizeOk 4 = true)
        (by decide +kernel),
      (by decide +kernel : extentCheck (landed (baseC 0 0 0x1000000004)) 1
        ((issuer (baseC 0 0 0x1000000004)).segs[(0 : Nat)]) 0 (16 * 4) 4 1 = .ok 0), by decide +kernel,
      by decide +kernel, by decide +kernel, by decide +kernel,
      (by decide +kernel : extentCheck (landed (baseC 0 0 0x1000000004)) 1
        ((issuer (baseC 0 0 0x1000000004)).segs[(0 : Nat)]) 0 (16 * 4) 1 1 = .ok 0)⟩⟩

/-- `base` with thread 1 of the same owner, and `rput` operations to it. -/
def base2 (l : List Rput) : State := { base.setThread 1 { loneThread with id := 1 } with rputs := l, nextId := 9 }

/-- An entry on its way. -/
def push1 : Push := { val := some 7, due := 0, g := 0, serial := 0, tag := 0 }

theorem test_hyp_QueuesAndRputs :
    (7679 < Config.cores ∧ tileClosed base (7679 / 4) = false) ∧
    (let s := base.modCore 7679 fun c => { c with flight := c.flight.set 3 [push1], inflight := [push1], returning := 1 }
     takeReady s ((s.core 7679).flight[3]) = some (push1, []) ∧
      takeReady s (s.core 7679).inflight = some (push1, []) ∧ (s.core 7679).returning ≠ 0) ∧
    (let s := (base2 []).modThread 0 fun t => t.setReg 4 { val := 1 }
     (31 : BitVec 14) ≠ 0 ∧ (31 : BitVec 14).toNat < 32 ∧
      (∃ o, Ready s [4, 5] [] o ∧ ownerThread s (issuer s).owner (o.v 0).toNat = some 1) ∧ live s 1 = true ∧
      (s.thread 1).owner = (issuer s).owner ∧ 1 ≠ s.cur) ∧
    (let x : Rput := { id := 3, sender := 0, target := 1, reg := 16, val := 5 }
     let s := (base2 [x]).modThread 1 fun t => t.setReg 16 { val := 0, full := false }
     s.rputs.find? (·.id == x.id) = some x ∧ tileClosed s (tileOf x.target) = false ∧ x.reaches s = true ∧
      x.sender ≠ x.target ∧ x.arrived = none ∧ rputReg s x = 16 ∧ ((s.thread x.target).reg 16).full = false ∧
      ((s.thread x.target).reg 16).fill = false ∧
      s.rputs.any (fun z => z.target == x.target && z.arrived == some 16) = false) ∧
    (let x : Rput := { id := 3, sender := 0, target := 1, reg := 5, val := 5, arrived := some 5, read := true }
     let s := base2 [x]
     s.rputs.find? (·.id == x.id) = some x ∧ tileClosed s (tileOf x.target) = false ∧ x.reaches s = true ∧
      x.sender ≠ x.target ∧ x.arrived = some 5 ∧ rputReady s x 5 = true ∧ rputFirst s x = true ∧
      s.rputs.filter (fun y => y.target == 1 && y.read) = [x] ∧ ((s.thread 1).reg 5).full = true ∧
      ((s.thread 1).reg 5).remote = false) :=
  ⟨by decide +kernel, by decide +kernel, ⟨by decide, by decide,
    with_ok (fun o : Opnds =>
      ownerThread ((base2 []).modThread 0 fun t => t.setReg 4 { val := 1 })
        (issuer ((base2 []).modThread 0 fun t => t.setReg 4 { val := 1 })).owner (o.v 0).toNat = some 1)
      (by decide +kernel), by decide +kernel, by decide +kernel, by decide +kernel⟩, by decide +kernel, by decide +kernel⟩

/-- A copy of 64 bytes into buffer 31, as started and as it has handed over its last unit. -/
def copy0 : Copy :=
  { n := 0, pc := 0, g := 0, slot := 0, owner := 1, launch := launchKey 1 1, kind := .flat, buf := 31, base := 0
    limit := 64, off := 0, len := 64, cf := some 5 }

/-- `base` with a channel 3. -/
def baseK (c : Chan) (l : List Req) : State :=
  { baseU 31 (buf64 .filling) with
    traffic := l, nextId := 1 }.modTile 0 fun t => t.modChan 3 fun _ => c

theorem test_hyp_CopyChannels :
    (0 < Config.tiles ∧ 3 < 4) ∧
    (let s := baseK { queue := [copy0] } []
     ((s.tile 0).chan 3).queue = copy0 :: [] ∧ tileClosed s 0 = false ∧
      ((s.tile 0).chan 3).runs.all (·.handed) = true) ∧
    (let r : Req := { req 64 (storeAcc 64 7) with by_ := .copy 3 0, path := .copy }
     let s := baseK { runs := [{ copy0 with dlen := 64, next := 64 }] } [r]
     firstUnit s 0 3 = some r ∧ bankTurn s r = true) ∧
    (let x := { copy0 with dlen := 64, next := 64 }
     let s := baseK { runs := [x] } []
     ((s.tile 0).chan 3).runs = x :: [] ∧ x.handed = true ∧ tileClosed s 0 = false ∧ x.buf < 32 ∧
      s.traffic.any (fun r => r.tile == 0 && r.by_ == .copy 3 x.n) = false ∧ x.cf = some 5 ∧ x.who.live s = true) := by
  decide +kernel

/-! ### Hypotheses: vector and matrix -/

theorem vecMeets_of {s : State} {ws : List (BitVec 3)} {ms : List (BitVec 2)}
    (h : (ws.map Need.vfull ++ (ms.filter (· != 0)).map Need.mfull ++ [Need.vqueue]).all (needHolds (landed s) s.cur) = true) :
    VecMeets s ws ms := h

theorem test_hyp_VectorIssue :
    (∃ o, Ready base [] [] o) ∧ (∃ o, Ready base [] [31] o) ∧ (∃ o, Ready base [63] [] o) ∧
    VecMeets base [0, 1, 7] [3] ∧ VecMeets base [0, 1, 2, 7] [0] ∧ VecMeets base [0, 7] [1] ∧
    ((3 : BitVec 2) ≠ 0 ∧ VecMeets base [0, 7] [0, 3]) ∧ ((1 : BitVec 2) ≠ 0 ∧ VecMeets base [] [2, 3, 1]) ∧
    VecMeets base [7] [3] ∧ VecMeets base [7] [] :=
  ⟨of_ok (by decide +kernel), of_ok (by decide +kernel), of_ok (by decide +kernel), vecMeets_of (by decide +kernel),
    vecMeets_of (by decide +kernel), vecMeets_of (by decide +kernel), ⟨by decide, vecMeets_of (by decide +kernel)⟩,
    ⟨by decide, vecMeets_of (by decide +kernel)⟩, vecMeets_of (by decide +kernel), vecMeets_of (by decide +kernel)⟩

theorem test_hyp_IntegerLanes :
    (31 < 2048 / laneBits 4 ∧ 4 ≤ (4 : BitVec 4).toNat ∧ (4 : BitVec 4).toNat < 12) ∧
    (255 < 2048 / laneBits 11 ∧ 4 ≤ (11 : BitVec 4).toNat ∧ (11 : BitVec 4).toNat < 12) ∧
    31 < 2048 / laneBits 0 ∧ 255 < 2048 / laneBits 13 ∧ (255 : BitVec 8).toNat < 2048 / laneBits 13 ∧
    ((List.range 255).filter fun j => (maskVal (base.thread 0) 0).getLsbD j) ≠ [] := by decide +kernel

/-- A vector instruction of thread 0 in its core's queue, or in the unit. -/
def vop (i : Instr) : VOp := { n := 3, g := 0, pc := 0, ins := i, gval := 0, seed := 0 }

/-- `base` with one vector instruction queued and its thread waiting for the acceptance. -/
def baseV (o : VOp) : State :=
  (baseT fun t => { t with status := .parked .vaccept }).modCore 0 fun c => { c with vq := [o] }

/-- Elements 0 and 64 of a raw bank, from three lanes. -/
def acc0 : VAcc := { key := 2 ^ 52, bank := 0, ebits := 8, elems := [(0, 0), (255, 64), (7, 64)] }

/-- A load whose read is performed, a store of three elements, two of them on the same bits. -/
theorem test_hyp_VectorMoves :
    (let o := { vop (.vld 3 5 1 ⟨0, 0, 0⟩ 0 ⟨false, false, 0⟩) with reads := [(3, 0x3FE20)] }
     let r : Req := { req 64 .load with id := 9, by_ := .vector o.n, key := 0x7FC0, stage := .performed }
     let s := { base.modTile 0 fun x => { x with vrun := [o] } with traffic := [r] }
     vecNext s 0 = some o ∧ (vmemOf o.ins).isSome = true ∧ o.wres = none ∧ (o.reads.map (·.1)).Nodup ∧
      (vecBlocks s o).find? (·.key == 0x3FE20 / 512 * 64) = some r ∧ 3 < 2048 / laneBits 5 ∧ ∀ p ∈ o.reads, p.1 ≠ 63) ∧
    (let a := acc0
     a.elems = [(0, 0), (255, 64)] ++ (7, 64) :: [] ∧
      (a.key * 8 + 64 * a.ebits) / 512 = 2 ^ 46 + 1 ∧ (a.key * 8 + 64 * a.ebits) % 512 ≤ 7 ∧
      7 < (a.key * 8 + 64 * a.ebits) % 512 + a.ebits ∧ ((⟨true, 5, 1, ⟨2, 0, 0⟩, 0, ⟨false, false, 0⟩, none⟩ : VMemOp).store = true)) ∧
    (31 < 2048 / laneBits 4 ∧ fmtFloat 3 = true ∧ fmtFloat 4 = false) := by
  decide +kernel

theorem test_hyp_VectorBlocks : 2 ^ 46 ∈ blocksOf acc0 ∧ 2 ^ 46 + 1 ∈ blocksOf acc0 := by
  simp [blocksOf, acc0]

theorem test_hyp_VectorUnit :
    0 < Config.tiles ∧
    (let o := vop (.vadd 0 5 1 2 3 0 ⟨false, 0⟩)
     tileClosed (baseV o) 0 = false ∧ vectorCore (baseV o) 0 = some 0 ∧ ((baseV o).core 0).vq = o :: [] ∧
      (vmemOf o.ins).isNone = true) ∧
    (let o := vop (.vld 0 5 1 ⟨0, 0, 0⟩ 0 ⟨false, false, 0⟩)
     let v := ((baseV o).modCore 0 fun x => { x with vq := [] }).modTile 0 fun x => { x with vlast := 0 }
     (vmemOf o.ins).isSome = true ∧
      okWith (vmemCheck v o ⟨false, 5, 1, ⟨0, 0, 0⟩, 0, ⟨false, false, 0⟩, none⟩) (fun _ => true) = true ∧
      ((baseV o).thread o.g).status = .parked .vaccept) ∧
    (let o := vop (.vst 0 5 1 ⟨2, 0, 0⟩ 0 ⟨false, false, 0⟩)
     let v := ((baseV o).modCore 0 fun x => { x with vq := [] }).modTile 0 fun x => { x with vlast := 0 }
     okWith (vmemCheck v o ⟨true, 5, 1, ⟨2, 0, 0⟩, 0, ⟨false, false, 0⟩, none⟩) (fun _ => true) = false) ∧
    (let o := { vop (.vadd 0 5 1 2 3 0 ⟨false, 0⟩) with wres := some (1, 5) }
     let s := base.modTile 0 fun x => { x with vrun := [o] }
     vecNext s 0 = some o ∧ (vmemOf o.ins).isNone = true) ∧
    ((3 : BitVec 4).toNat < 4 ∧ 127 < 2048 / laneBits 3 ∧ 31 < 2048 / laneBits 0) ∧
    (255 < lanes 12 ∧ 31 < lanes 4) ∧
    ((7 : BitVec 4).toNat ≤ Nat.log2 (2048 / laneBits 3) ∧ 1 ≤ (5 : BitVec 4).toNat ∧
      (5 : BitVec 4).toNat ≤ Nat.log2 (2048 / laneBits 0)) := by
  decide +kernel

/-- A command of thread 0, and a request of it for a lease. -/
def cmd (i : Instr) : MCmd := { n := 0, who := whoIn base 0, core := 0, lease := 5, ins := i }
def leaseReq (n : Nat) : LeaseReq := { core := 0, who := whoIn base 0, n := n }

/-- `base` whose core holds a lease. -/
def baseL (left : Nat) : State := modMx base 0 fun m => { m with lease := some ⟨5, 0, 0, left⟩ }

theorem test_hyp_MatrixIssue :
    Leased (baseL 1) ⟨5, 0, 0, 1⟩ ∧ (∃ o, Ready (baseL 1) [0] [] o) ∧ (∃ o, Ready (baseL 1) [0, 5] [] o) ∧
    (∃ o, Ready (baseL 1) [5] [] o) ∧ Meets (baseL 1) (kwNeeds 0) ∧
    ((base.tile (tileOf base.cur)).mx.lease = none) ∧
    (let l : Lease := ⟨5, 0, 0, 0⟩
     ((baseL 0).tile (tileOf (baseL 0).cur)).mx.lease = some l ∧ l.core = coreOf (baseL 0).cur ∧ l.left = 0) :=
  ⟨(by decide +kernel : ((baseL 1).tile (tileOf (baseL 1).cur)).mx.lease = some ⟨5, 0, 0, 1⟩ ∧
      (0 : Nat) = coreOf (baseL 1).cur ∧ (1 : Nat) ≠ 0), of_ok (by decide +kernel), of_ok (by decide +kernel),
    of_ok (by decide +kernel), (by decide +kernel : (kwNeeds 0).all (needHolds (landed (baseL 1)) 0) = true),
    by decide +kernel, by decide +kernel⟩

theorem test_hyp_LeaseInstructions :
    (let m := (base.tile (tileOf base.cur)).mx
     m.lease.any (fun l => l.core == coreOf base.cur && l.holder == base.cur) = false) ∧
    Meets base [.leaseFree] ∧ (∃ o, Ready base [] [7] o) ∧ mwaitDone base base.cur base.nextId = true ∧
    (let s := { modMx base 0 fun m => { m with queue := [cmd (.mzero 0)] } with nextId := 1 }
     mwaitDone s s.cur s.nextId = false) :=
  ⟨by decide +kernel, (by decide +kernel : [Need.leaseFree].all (needHolds (landed base) base.cur) = true),
    of_ok (by decide +kernel), by decide +kernel, by decide +kernel⟩

/-- `base` with an issued command, its thread waiting for the acceptance. -/
def baseM (i : Instr) : State :=
  modMx (baseT fun t => { t with status := .parked .maccept }) 0 fun m => { m with issued := [cmd i] }

/-- `base`, its thread waiting for a lease that it has asked for. -/
def baseLq (n : Nat) : State :=
  modMx (baseT fun t => { t with status := .parked .lease }) 0 fun m => { m with requests := [leaseReq n] }

theorem test_hyp_MatrixArray :
    (0 < Config.tiles ∧ tileClosed base 0 = false) ∧
    (let s := baseLq 64
     let m := (s.tile 0).mx
     let d := s.die (dieOf 0)
     m.lease = none ∧ leaseNext m (fun x => launchPinned s x.who.launch || !leaseGated s 0) = some (leaseReq 64) ∧
      (leaseReq 64).waits s = true ∧ (leaseReq 64).who.live s = true ∧ m.issued = [] ∧ m.queue = [] ∧ d.waiting = [] ∧ pinnedDue s = false ∧
      (d.inTick (sluiceNow s)).fits (s.param 0) (s.param 3) = true) ∧
    (let s := modMx (baseLq 1) 0 fun m => { m with issued := [cmd (.mzero 0)] }
     (s.tile 0).mx.issued = cmd (.mzero 0) :: [] ∧ (cmd (.mzero 0)).grant = false) ∧
    (let s := (baseLq 1).modLaunch (launchKey 1 1) fun l => { l with pinned := true }
     launchPinned s (leaseReq 1).who.launch = true) ∧
    (∀ i ∈ [Instr.mldbM 0 (at14 0 0), .mldbN 0 (at40 0 0), .mzero 0, .mscale 0 4, .mmaM 0 6 false (at14 0 0),
        .mdrainM 0 false (at14 0 0)],
      let s := baseM i
      (s.tile 0).mx.issued = cmd i :: [] ∧ (cmd i).grant = false ∧ tileOf (cmd i).who.g = 0 ∧
        (s.tile 0).mx.queued < 16 ∧ scalesWait s 0 (cmd i) = false ∧ (cmd i).waits s = true ∧ ([] : List MCmd).head?.any (·.grant) = false ∧
        (s.tile 0).mx.queue.head?.any (·.grant) = false ∧ okWith (matrixAccept (serveBanks s ((cmd i).scaleBank s).toList) (cmd i)) (fun _ => true) = true) ∧
    (let i : Instr := .mldbM 0 (at14 1 0)
     okWith (matrixAccept (baseM i) (cmd i)) (fun _ => true) = false) ∧
    (stepOf (.mmaM 0 6 false (at14 0 0))).isSome = true ∧
    (∀ i ∈ [Instr.mldbM 0 (at14 0 0), .mldbN 0 (at40 0 0), .mzero 0, .mscale 0 4, .mmaM 0 6 false (at14 0 0),
        .mdrainM 0 true (at14 0 0), .mdrainN 0 false (at40 0 0)],
      let s := modMx base 0 fun m => { m with queue := [cmd i] }
      (s.tile 0).mx.queue = cmd i :: [] ∧ (cmd i).core / 4 = 0 ∧
        (commandReqs s (cmd i)).any (·.stage != .performed) = false) := by
  decide +kernel

/-! ### Hypotheses: tasks and floes -/

/-- Page tables at 0x1000: a gigabyte of memory at 2^40 and one of signals at 2^39, both to physical 0. -/
def pages : Mem :=
  [(0x1000, 0x01), (0x1001, 0x20), (0x2008, 0x01), (0x2009, 0x40), (0x2010, 0x01), (0x2011, 0x30), (0x3000, 0x0F),
    (0x4000, 0x87)]

/-- `base` with those tables and further memory behind them; the launch's region and station table lie in it. -/
def baseG (m : Mem) : State :=
  let s := { base with mem := pages ++ m }
  (s.modOwner 1 fun o => { o with root := 0x1000 }).modLaunch (launchKey 1 1) fun l =>
    { l with region := 0x10000010000, j := 2, p := 1, stations := 0x10000010000, floe := true }

theorem cell_of {s : State} {m : MemArg} {src : List RegNum} {a : Word} {key : Nat}
    (h : okWith (operands (landed s) s.cur (m.off :: src) []) (fun o => decide
      ((kwNeeds m.kw).all (needHolds (landed s) s.cur) = true ∧
      segCheck (landed s) (issuer s).owner ((issuer s).segs[m.seg.toNat]) (segOff (o.v 0) m.sc 64 m.disp)
        { size := 64, align := 64, rights := 4, types := [0] } = .ok a ∧
      bufCheck (landed s) (tileOf s.cur) a 64 .store = .ok () ∧ memKey (landed s) s.cur a .atomic = .ok key)) = true) :
    ∃ o, ReachesCell s m src o a key :=
  let ⟨x, hx, hp⟩ := of_okWith _ h
  have h2 := of_decide_eq_true hp
  ⟨x, hx, h2⟩

/-- `base` with a segment 2 of memory. -/
def baseN : State := baseT fun t => t.setSeg 2 { base := 0x10000000000, limit := 0x1000, code := 0x07 }

/-- `base` with a deque. -/
def baseQs (l : List DEntry) (j : Option Nat) : State :=
  (baseT fun t => { t with jcell := j }).modCore 0 fun c => { c with deque := l }

/-- An entry of thread 0. -/
def entry0 (marker : Bool) (j : Option Nat) : DEntry :=
  { marker := marker, slot := 0, jcell := j, launch := launchKey 1 1, task := ⟨0x10000000001, 0, 0, 0⟩ }

theorem test_hyp_TaskInstructions :
    (∃ o, Ready base [4, 5, 30] [] o ∧
      ((base.core 0).pushEntry ((landed base).launch (issuer base).launch).e
        { entry0 false none with task := { pc := 0, frame := o.v 2, a0 := o.v 0, a1 := o.v 1 } }).isSome = true) ∧
    (let s := baseQs (List.replicate 64 (entry0 false none)) none
     (∃ o, Ready s [4, 5, 30] [] o) ∧
      (s.core 0).pushEntry ((landed s).launch (issuer s).launch).e (entry0 false none) = none) ∧
    Meets base [.dispenser] ∧ Meets base [.vdone, .counts true true true, .noFill] ∧
    Meets base [.counts true true true, .noFill] ∧
    bottomOf ((refillDeque (landed base) 0).core 0) 0 = none ∧
    (∀ e ∈ [entry0 false none, entry0 true (some 1), entry0 true none],
      let s := baseQs [e] none
      bottomOf ((refillDeque (landed s) 0).core 0) 0 = some (0, e) ∧ takenEntry (refillDeque (landed s) 0) 0 0 e = e ∧
        portsReady (landed s) 0 (tretReads (landed s) 0 0 e) = true) ∧
    (let e := entry0 true (some 1)
     let s := calm ((baseG []).modCore 0 fun c => { c with deque := [e] })
     bottomOf ((refillDeque (landed s) 0).core 0) 0 = some (0, e) ∧
       portsReady (landed s) 0 (tretReads (landed s) 0 0 (takenEntry (refillDeque (landed s) 0) 0 0 e)) = false) ∧
    (issuer base).jcell = none ∧
    (let s := baseQs [] (some 1)
     (issuer s).jcell = some 1 ∧ portsReady (landed s) 0 (cellReads (landed s) 0 1) = true ∧
      cellRead (landed s) ((landed s).launch (issuer s).launch) 1 0 8 = 0) ∧
    (let s := (baseG [(0x10200, 3)]).modThread 0 fun t => { t with jcell := some 1 }
     (issuer s).jcell = some 1 ∧ portsReady (landed s) 0 (cellReads (landed s) 0 1) = true ∧
      cellRead (landed s) ((landed s).launch (issuer s).launch) 1 0 8 ≠ 0 ∧
      portsReady (landed (calm s)) 0 (cellReads (landed (calm s)) 0 1) = false) ∧
    (∃ o, Ready base [] [7] o) ∧ (∃ o, ReachesCell baseN (memArg (at14 64 2)) [5] o 0x10000000040 0x20040) ∧
    (∃ o, ReachesCell baseN (memArg (at40 0xFC0 2)) [] o 0x10000000FC0 0x20FC0) :=
  ⟨with_ok (fun o : Opnds => ((base.core 0).pushEntry ((landed base).launch (issuer base).launch).e
        { entry0 false none with task := { pc := 0, frame := o.v 2, a0 := o.v 0, a1 := o.v 1 } }).isSome = true)
      (by decide +kernel), ⟨of_ok (by decide +kernel), by decide +kernel⟩,
    (by decide +kernel : [Need.dispenser].all (needHolds (landed base) base.cur) = true),
    (by decide +kernel : [Need.vdone, .counts true true true, .noFill].all (needHolds (landed base) base.cur) = true),
    (by decide +kernel : [Need.counts true true true, .noFill].all (needHolds (landed base) base.cur) = true),
    by decide +kernel, by decide +kernel, by decide +kernel, by decide +kernel, by decide +kernel, by decide +kernel,
    of_ok (by decide +kernel), cell_of (by decide +kernel), cell_of (by decide +kernel)⟩

/-- Thread 1 of the launch is a worker that steals, its own core's deque holds a record. -/
def baseW1 : State :=
  (baseQs [entry0 false none] none).setThread 1 { loneThread with id := 1, status := .parked (.worker true) }

/-- A record in a dispenser. -/
def drec0 : DRec := { launch := launchKey 1 1, core := 0, task := ⟨0x10000000001, 1, 2, 3⟩ }

theorem test_hyp_TaskEvents :
    (1 < Config.threads ∧ 0 < Config.cores ∧ 0 < Config.tiles ∧ tileClosed baseW1 0 = false) ∧
    (let t := baseW1.thread 1
     t.status = .parked (.worker true) ∧ t.away = false ∧ t.stopping = false ∧ t.pass = [] ∧ offered baseW1 1 = false ∧
      (stealPass baseW1 1).head? = some 0 ∧ topmostOf (baseW1.core 0) t.launch = some (0, entry0 false none)) ∧
    (let s := baseW1.modCore 0 fun c => { c with deque := [] }
     topmostOf (s.core 0) (s.thread 1).launch = none) ∧
    (let v := ((baseG []).modCore 0 fun c => { c with deque := [entry0 false none] }).setThread 1
      { loneThread with id := 1, status := .parked (.worker true) }
     (stealTake v 1 0).isSome = true ∧ portsReady v 1 (stealReads v 1 0) = true ∧
      portsReady (calm v) 1 (stealReads (calm v) 1 0) = false) ∧
    (let r := drec0
     let s := baseW1.modTile 0 fun x => { x with disp := [r] }
     nextPlaced s 0 = some (0, r, 0, 1) ∧ tileClosed s 0 = false ∧ r.resume = none ∧
      (s.tile 0).back.any (fun p => !p.answered s) = false ∧
      (backPort s 0 0).any (fun p => (s.tile 0).back.all (·.addr != p.addr)) = false ∧ (s.tile 0).disp.length ≤ 64) ∧
    (let s := calm (((baseG []).modTile 0 fun x => { x with disp := List.replicate 65 drec0 }).setThread 1
      { loneThread with id := 1, status := .parked (.worker true) })
     (backPort s 0 0).any (fun p => (s.tile 0).back.all (·.addr != p.addr)) = true ∧
      nextPlaced s 0 = some (0, drec0, 0, 1)) := by
  decide +kernel

/-- Floes are on, thread 0 holds slot `j` with an image there, and register 4 has its handle. -/
def baseF (j : Nat) (img : List Byte) : State :=
  let s := (base.modLaunch (launchKey 1 1) fun l => { l with floe := true }).modThread 0 fun t =>
    t.setReg 4 { val := BitVec.ofNat 64 j }
  { setSlot s 0 j (.held 0) with mem := memWriteList s.mem (slotKey 0 j 0) img }

theorem handle_of {s : State} {srcs dsts : List RegNum} (i j : Nat) (P : Opnds → Prop) [DecidablePred P]
    (h : okWith (operands (landed s) s.cur srcs dsts) (fun o => decide
      ((floesOn (landed s) (berthOf (tileOf s.cur)) = true ∧ (o.v i).toNat = j ∧ j < 16 ∧
        slotState s (tileOf s.cur) j = .held s.cur) ∧ P o)) = true) :
    ∃ o, Ready s srcs dsts o ∧ Handle s (o.v i) j ∧ P o :=
  let ⟨x, hx, hp⟩ := of_okWith _ h
  have h2 := of_decide_eq_true hp
  ⟨x, hx, h2.1, h2.2⟩

/-- A floe with one entry and 8 payload bytes, one with two entries, and none. -/
def sF1 : State := baseF 15 [1, 1, 0, 1, 8]
def sF2 : State := baseF 15 [1, 2, 0, 1]
def sF3 : State := baseF 11 []
/-- The tile store begins with an image of one entry. -/
def sF4 : State := { baseF 11 [] with mem := [(2 ^ 52, 1), (2 ^ 52 + 1, 8)] }

/-- Segment 0 is memory, which answers after a delay. -/
def sFp : State :=
  calm (({ sF1 with mem := pages ++ sF1.mem }.modOwner 1 fun o => { o with root := 0x1000 }).modThread 0 fun t =>
    t.setSeg 0 { base := 0x10000000000, limit := 0x1000, code := 0x07 })

theorem test_hyp_FloeOperations :
    (∃ o, Ready sF1 [4] [] o ∧ Handle sF1 (o.v 0) 15 ∧ True) ∧ Meets sF1 [.slot 15] ∧
    slotNat sF1 0 15 2 1 + 1 = slotNat sF1 0 15 1 1 ∧
    (∃ o, Ready sF2 [4] [] o ∧ Handle sF2 (o.v 0) 15 ∧ True) ∧ slotNat sF2 0 15 2 1 + 1 ≠ slotNat sF2 0 15 1 1 ∧
    ((1 : BitVec 3).toNat < slotNat sF2 0 15 1 1 ∧ (1 : BitVec 3).toNat ≠ slotNat sF2 0 15 2 1) ∧
    (∃ o, Ready sF1 [5, 4] [] o ∧ Handle sF1 (o.v 1) 15 ∧ True) ∧
    payloadOk sF1 0 15 0 (widthBytes .d) = true ∧ payloadOk sF1 0 15 7 (widthBytes .b) = true ∧
    (∃ o, Ready sF1 [4] [7] o ∧ Handle sF1 (o.v 0) 15 ∧ True) ∧ headerField 31 = some (184, 8) ∧
    (∃ o, Ready sF1 [4, 0] [] o ∧ Handle sF1 (o.v 0) 15 ∧
      okWith (imageLoad (landed sF1) sF1.cur (o.v 1) 16 16 (some 15)) (fun p => imgNat p.2.1 3 5 == 0 &&
        portReady (landed sF1) sF1.cur p.1 1) = true) ∧
    (∃ o, Ready sFp [4, 0] [] o ∧ Handle sFp (o.v 0) 15 ∧
      okWith (imageLoad (landed sFp) sFp.cur (o.v 1) 16 16 (some 15)) (fun p => !portReady (landed sFp) sFp.cur p.1 1) =
        true) ∧
    ((0 : BitVec 3).toNat < slotNat sF1 0 15 1 1 ∧ (1 : BitVec 3).toNat ≤ slotNat sF1 0 15 1 1 ∧
      slotNat sF1 0 15 1 1 < 8) :=
  ⟨handle_of 0 15 (fun _ => True) (by decide +kernel),
    (by decide +kernel : [Need.slot 15].all (needHolds (landed sF1) sF1.cur) = true), by decide +kernel,
    handle_of 0 15 (fun _ => True) (by decide +kernel), by decide +kernel, by decide +kernel,
    handle_of 1 15 (fun _ => True) (by decide +kernel), by decide +kernel, by decide +kernel,
    handle_of 0 15 (fun _ => True) (by decide +kernel), by decide +kernel,
    handle_of 0 15 (fun o : Opnds =>
      okWith (imageLoad (landed sF1) sF1.cur (o.v 1) 16 16 (some 15)) (fun p => imgNat p.2.1 3 5 == 0 &&
        portReady (landed sF1) sF1.cur p.1 1) = true) (by decide +kernel),
    handle_of 0 15 (fun o : Opnds =>
      okWith (imageLoad (landed sFp) sFp.cur (o.v 1) 16 16 (some 15)) (fun p => !portReady (landed sFp) sFp.cur p.1 1) =
        true) (by decide +kernel),
    by decide +kernel⟩

theorem test_hyp_FloeStarts :
    floesOn (landed sF3) (berthOf (tileOf sF3.cur)) = true ∧
    (∃ o, Ready sF3 [0] [7] o ∧ okWith (imageLoad (landed sF3) sF3.cur (o.v 0) 192 64 none)
      (fun h => imgLength h.2.1 == 0 && takenMalformed h.2.1 && portReady (landed sF3) sF3.cur h.1 2) = true) ∧
    Meets sF3 [.outSlot] ∧ [12, 13, 14, 15].find? (fun k => slotState sF3 0 k == .free) = some 12 ∧
    (∃ o, Ready sF3 [] [7] o) ∧ (∃ o, Ready sF3 [4] [] o ∧ (o.v 0).toNat < 2 ^ 32) ∧
    okWith (imageLoad (landed sF4) sF4.cur 0 192 64 none)
      (fun x => !takenMalformed x.2.1 && portReady (landed sF4) sF4.cur x.1 2) = true ∧
    okWith (imageLoad (landed sFp) sFp.cur 0 192 64 none) (fun x => !portReady (landed sFp) sFp.cur x.1 2) = true ∧
    portReady (landed sF3) sF3.cur (resumeAddr (landed sF3) sF3.cur) (resumeReads (landed sF3) sF3.cur 11) = true ∧
    (let s := sFp.modOwner 1 fun o => { o with park := 0x10000000000 }
     floesOn (landed s) (berthOf (tileOf s.cur)) = true ∧
      portReady (landed s) s.cur (resumeAddr (landed s) s.cur) (resumeReads (landed s) s.cur 15) = false) :=
  ⟨by decide +kernel, with_ok (fun o : Opnds => okWith (imageLoad (landed sF3) sF3.cur (o.v 0) 192 64 none)
      (fun h => imgLength h.2.1 == 0 && takenMalformed h.2.1 && portReady (landed sF3) sF3.cur h.1 2) = true)
      (by decide +kernel),
    (by decide +kernel : [Need.outSlot].all (needHolds (landed sF3) sF3.cur) = true), by decide +kernel,
    of_ok (by decide +kernel), with_ok (fun o : Opnds => (o.v 0).toNat < 2 ^ 32) (by decide +kernel), by decide +kernel,
    by decide +kernel, by decide +kernel, by decide +kernel⟩

/-- Floes on, with page tables; a floe on its way. -/
def baseFl (f : Floe) : State := { baseG [(0x10000, 0x40)] with floes := [f] }

/-- A floe from tile 0. -/
def floe0 (dest : Nat) (img : List Byte) : Floe := { id := 4, owner := 1, src := 0, dest := dest, img := img, tile := 0 }

/-- An image with one memory stop: routine `r`, argument 2^40 + 64, length `n`. -/
def stopImg (r n : Byte) : List Byte :=
  [1, 1, 0, 1, n] ++ List.replicate 59 0 ++ [0xFF, 0xFF, r, 0, 0, 0, 0, 0, 0x40, 0, 0, 0, 0, 1, 0, 0]

/-- The address of `stopImg`. -/
def f0addr : Word := 0x10000000040

theorem test_hyp_FloeEvents :
    (0 < Config.tiles ∧ 15 < 16 ∧ tileClosed (baseG []) 0 = false) ∧
    (let s := setSlot (baseG []) 0 15 (.outbound 3)
     let img := (portRead s (slotKey 0 15 0) 4288).1
     slotState s 0 15 = .outbound 3 ∧ slotSettled s 0 15 = true ∧ bankTaken s (slotBank 0 15) = false ∧
      slotBefore s 0 (slotStation s 0 15) 3 = false ∧
      imgStation img (imgIndex img) < ownerTiles s (berthOwner s (berthOf 0))) ∧
    (let s := setSlot { baseG [] with mem := pages ++ [(slotKey 0 0 64, 0xFF), (slotKey 0 0 65, 0xFF)] } 0 0 (.outbound 0)
     let img := (portRead s (slotKey 0 0 0) 4288).1
     slotState s 0 0 = .outbound 0 ∧ slotBefore s 0 (slotStation s 0 0) 0 = false ∧ imgStation img (imgIndex img) = 0xFFFF) ∧
    (let f := floe0 0 [1, 1, 0, 1]
     let s := baseFl f
     s.floes.find? (·.id == f.id) = some f ∧ f.dest ≠ 0xFFFF ∧ sentBefore s f = false ∧
      ownerTile s f.owner f.dest = some 0 ∧ imgNat f.img 3 1 = berthOwner s (berthOf 0) ∧ imgMalformed f.img = false ∧
      floesOn s (berthOf 0) = true ∧ inSlot s 0 = some 0 ∧ (s.tile 0).appended = (s.tile 0).refilled ∧ f.tile = 0 ∧
      f.owner = berthOwner s (berthOf 0)) ∧
    (let f := { floe0 0 [1, 1, 0, 2] with owner := 2 }
     let s := baseFl f
     s.floes.find? (·.id == f.id) = some f ∧ f.dest ≠ 0xFFFF ∧ sentBefore s f = false ∧ f.tile = 0 ∧
      f.owner ≠ berthOwner s (berthOf 0)) ∧
    (let s := ((baseG [(0x10000, 0x40)]).modTile 0 fun x => { x with landing := [11], waiters := [0] }).modThread 0
      fun t => { t with status := .parked (.flrecv (.reg 7) 0) }
     (s.tile 0).landing = 11 :: [] ∧ (s.tile 0).waiters = 0 :: [] ∧ tileOf 0 = 0 ∧
      (let n := slotNat s 0 11 (66 + 16 * slotNat s 0 11 2 1) 1
       stationAsks s 0 n = false ∧ stationAsks (calm s) 0 n = true ∧
        stationPc (portView s (threadPort s 0 (stationEntry (s.launch (s.thread 0).launch) n))) (s.thread 0).launch n =
          some 0x40) ∧
      (s.thread 0).status = .parked (.flrecv (.reg 7) 0) ∧ slotSettled s 0 11 = true) ∧
    berthOf 0 = 0 := by
  decide +kernel

/-- A refill that need not ask the port, asks it, waits for it and has its answer. -/
theorem test_hyp_FloeRefills :
    (let s := ((baseG []).modTile 0 fun x => { x with appended := 1 }).modOwner 1 fun o => { o with rings := 0x10000000000 }
     let a := ringEntry s (berthOwner s (berthOf 0)) 0 0
     inSlot s 0 = some 0 ∧ (s.tile 0).appended ≠ (s.tile 0).refilled ∧ floesOn s (berthOf 0) = true ∧
      (s.tile 0).refill = none ∧ askPort s 0 1 a 1 = none ∧ (askPort (calm s) 0 1 a 1).isSome = true) ∧
    (let s := (baseG []).modTile 0 fun x => { x with appended := 1, refill := some (port0 0) }
     inSlot s 0 = some 0 ∧ (port0 0).answered s = false) ∧
    (let s := (baseG []).modTile 0 fun x => { x with appended := 1, refill := some (port1 0) }
     inSlot s 0 = some 0 ∧ (port1 0).answered s = true) := by
  decide +kernel

theorem test_hyp_MemoryStops :
    (let f := floe0 0xFFFF (stopImg 2 8)
     (baseFl f).floes.find? (·.id == f.id) = some f ∧ f.dest = 0xFFFF ∧ f.src = 0 ∧
      f.port.any (fun p => !p.answered (baseFl f)) = false ∧ 1 < imgRoutine f.img (imgIndex f.img)) ∧
    (let f := { floe0 0xFFFF (stopImg 1 8) with port := some (port0 f0addr) }
     (baseFl f).floes.find? (·.id == f.id) = some f ∧ (port0 f0addr).answered (baseFl f) = false) ∧
    (let f := floe0 0xFFFF (stopImg 1 0)
     imgRoutine f.img (imgIndex f.img) ≤ 1 ∧ imgLength f.img ≤ f.next ∧ f.due ≤ base.work) ∧
    (let f := floe0 0xFFFF (stopImg 1 8)
     f.next < imgLength f.img ∧ f.addr = f0addr ∧ region f.addr = .paged ∧ (askPort (baseFl f) 0 1 f.addr 0).isSome = false ∧
      f.port.isNone = true ∧ (askPort (calm (baseFl f)) 0 1 f.addr 0).isSome = true ∧
      translateNow (portView (baseFl f) f.port) f.owner f.addr .load = .ok 0x40 ∧
      translateNow { base with floes := [f] } f.owner f.addr .load = .miss ∧
      (askPort { base with floes := [f] } 0 1 f.addr 0).isSome = false) ∧
    (let f := floe0 0xFFFF ([1, 1, 0, 1, 8] ++ List.replicate 59 0 ++ [0xFF, 0xFF, 1])
     f.next < imgLength f.img ∧ region f.addr ≠ .paged ∧ f.due ≤ base.work) ∧
    (let f := floe0 0xFFFF (stopImg 0 8)
     imgRoutine f.img (imgIndex f.img) ≤ 1 ∧ f.next < imgLength f.img ∧
      translateNow { baseFl f with mem := [(0x1000, 0x01), (0x1001, 0x20), (0x2010, 0x01), (0x2011, 0x30), (0x3000, 0x0B)] }
        f.owner f.addr .store = .fatal) := by
  decide +kernel

/-! ### Hypotheses: system, traps, threads -/

theorem test_hyp_SystemInstructions :
    (∃ o, Ready base [] [7] o) ∧ (∃ o, Ready base [4] [] o) ∧ (issuer (baseT fun t => { t with inh := true })).inh = true :=
  ⟨of_ok (by decide +kernel), of_ok (by decide +kernel), by decide +kernel⟩

theorem test_hyp_SystemTraps :
    10 ≤ (10 : BitVec 14).toNat ∧ (3 : BitVec 14).toNat ∉ [0, 1, 2, 6] ∧ (issuer base).inh = false := by decide +kernel

theorem test_hyp_LocalTrapEntry :
    (let s := base.modCore 0 fun c => { c with vq := [vop (.vadd 0 5 1 2 3 0 ⟨false, 0⟩)] }
     vectorDone s s.cur = false) ∧
    vectorDone base base.cur = true ∧
    (let s := baseT fun t => { t with handler := 0x10000000001 }
     vectorDone s s.cur = true ∧ (issuer s).inh = false ∧ (issuer s).handler ≠ 0) ∧
    ((issuer base).inh = false ∧ (issuer base).handler = 0) ∧
    (let s := baseT fun t => { t with inh := true }
     vectorDone s s.cur = true ∧ (issuer s).inh = true) := by
  decide +kernel

theorem test_hyp_OwnerTrapEntry :
    vectorDone base base.cur = true ∧ (mget base.launches (issuer base).launch).isSome = true ∧
    (let x := base.owner (issuer base).owner
     x.tqTail - x.tqHead < 248 ∧ x.tqHeld = []) ∧
    (let s := base.modOwner 1 fun o => { o with tqTail := 256 }
     ¬ (s.owner 1).tqTail - (s.owner 1).tqHead < 256 ∧ vectorDone s s.cur = true) := by
  decide +kernel

/-- A launch with one placement to be made on thread 61 of the tile. -/
def baseH (f : Launch → Launch) : State :=
  base.setLaunch (launchKey 1 2) (f { owner := 1, id := 2, admitted := true, places := [{ k := 0, fixed := some 1535 }] })

theorem test_hyp_ThreadLife :
    (let s := baseH id
     nextPlace s (launchKey 1 2) = some ({ k := 0, fixed := some 1535 }, 1535) ∧ tileClosed s (tileOf 1535) = false ∧
      slotWanted s (launchKey 1 2) 1535 = false ∧ asksFirst s (launchKey 1 2) (dieOf (tileOf 1535)) = false ∧
      (rampAsk s { place := some (launchKey 1 2, 0), tile := tileOf 1535, since := sluiceNow s }).2 = true) ∧
    (let s := baseH fun l => { l with pinned := true }
     launchPinned s (launchKey 1 2) = true) ∧
    (let s := (baseT fun t => { t with status := .halting }).modLaunch (launchKey 1 1) fun l => { l with admitted := true }
     let l := s.launch (launchKey 1 1)
     0 < Config.threads ∧ haltReady s 0 = true ∧ (s.thread 0).launch = launchKey 1 1 ∧
      (mget s.launches (launchKey 1 1)).isSome = true ∧ l.done = false ∧ l.admitted = true ∧ l.places = [] ∧ l.live = 1) := by
  decide +kernel

theorem test_hyp_PhysicalSlots :
    (0 < Config.threads ∧ tileClosed base (tileOf 0) = false ∧ (base.thread 0).status = .ready ∧
      (base.thread 0).away = false ∧ (base.thread 0).trapped = none ∧ vectorDone base 0 = true ∧
      physOfSlot (base.core (coreOf 0)) (slotOf 0) = some 0) ∧
    coreDet baseD (coreOf 0) = true ∧
    (let s := baseO.modThread 0 fun t => { t with turns := 4096 }
     0 < Config.cores ∧ tileClosed s 0 = false ∧ 0 < (s.core 0).phys.length ∧ overflowNext s 0 = some 1 ∧
      (s.core 0).swap.any (fun e => e.1 == 0) = false ∧ quantumOver s 0 0 = true) ∧
    quantumOver (baseO.modThread 0 fun t => { t with turns := 4095 }) 0 0 = false ∧
    (let s := base.modCore 7679 fun c => { c with swap := [(7, 64)], clock := 64 }
     (s.core 7679).swap.find? (fun e => e.1 == 7) = some (7, 64) ∧ 64 ≤ (s.core 7679).clock ∧
      (s.core 7679).phys.getD 7 none = some 7) := by
  decide +kernel

/-- A trap record of thread 0. -/
def trec : TrapRec := { bytes := List.replicate 64 0, fatal := false, g := 0, resume := 5 }

/-- Thread 0 trapped, its record in its owner's queue, S running. -/
def baseTr (agent : Bool) : State :=
  ((baseT fun t => { t with trapped := some 5 }).modDie 0 fun d => { d with running := true }).modOwner 1 fun o =>
    { o with tqRecs := [trec], agentPolicy := agent }

theorem test_hyp_TrapService :
    (1 ≤ 40 ∧ 40 ≤ Config.owners ∧ 0 < Config.threads) ∧
    (let s := base.modOwner 40 fun o => { o with tqHeld := [trec], tqTail := 247 }
     (s.owner 40).tqHeld = trec :: [] ∧ (s.owner 40).tqTail - (s.owner 40).tqHead < 248) ∧
    (∀ p ∈ [true, false], let s := baseTr p
      (s.owner 1).tqRecs = trec :: [] ∧ (s.die (dieOf (tileOf trec.g))).running = true ∧ (s.owner 1).agentPolicy = p ∧
        trec.fatal = false ∧ (s.thread trec.g).trapped = some trec.resume) ∧
    (let s := (baseTr true).modOwner 1 fun o => { o with tqRecs := [], passed := [trec] }
     (s.die (dieOf (tileOf 0))).running = true ∧ (s.owner (s.thread 0).owner).agentPolicy = true ∧
      (s.thread 0).trapped = some 5 ∧ (s.owner (s.thread 0).owner).passed.any (fun q => q.g == 0) = true ∧
      tileClosed s (tileOf 0) = false ∧ (mget s.launches (s.thread 0).launch).isSome = true) ∧
    (let s := (baseTr true).modThread 0 fun t => { t with trapped := none }
     (s.die (dieOf (tileOf 0))).running = true ∧ (s.owner (berthOwner s (berthOf (tileOf 0)))).agentPolicy = true ∧
      (s.thread 0).trapped = none) := by
  decide +kernel

/-! ### Hypotheses: power and drift -/

/-- A pinned launch that waits for its admission. -/
def baseA (start now : Nat) : State :=
  { baseH (fun l => { l with pinned := true, admitted := false, start := start }) with timebase := now }

theorem test_hyp_PowerEvents :
    (7 < Config.dies ∧ 1919 < Config.tiles) ∧ ({ base with timebase := 249 } : State).timebase % 250 ≠ 0 ∧
    (let s : State := { base with timebase := 500 }
     s.timebase % 250 = 0 ∧ (s.die 7).ticked < sluiceNow s ∧ dieOf 1919 = 7) ∧
    (∀ n ∈ [1, 2], let s := { base.modDie 7 fun d => { d with ticked := n, measured := 1000, level := 8001 } with timebase := 500 }
      (sluiceNow s ≤ (s.die 7).ticked ↔ n = 2) ∧ ((s.die 7).ticked + 1 = sluiceNow s ↔ n = 1) ∧
        8 * (s.die 7).measured ≤ (s.die 7).level) ∧
    (let w : RampWait := { place := some (launchKey 1 2, 0), tile := 47, since := 0 }
     let s := (baseH id).modDie 0 fun d => { d with waiting := [w] }
     (s.die 0).waiting = w :: [] ∧ s.pause = none ∧ pinnedDue s = false ∧
      ((s.die 0).inTick (sluiceNow s)).fits (s.param 0) (rampCost s w) = true ∧
      (s.launch (launchKey 1 2)).places.find? (fun p => p.k == 0) = some { k := 0, fixed := some 1535 } ∧
      placeSlot s (s.launch (launchKey 1 2)) { k := 0, fixed := some 1535 } = some 1535 ∧ dieOf (tileOf 1535) = 0 ∧
      tileClosed s (tileOf 1535) = false ∧ slotWanted s (launchKey 1 2) 1535 = false) ∧
    (let w : RampWait := { place := none, tile := 0, since := 0 }
     let s := (baseLq 1).modDie 0 fun d => { d with waiting := [w] }
     (s.die 0).waiting = w :: [] ∧ pinnedDue s = false ∧
      ((s.die 0).inTick (sluiceNow s)).fits (s.param 0) (rampCost s w) = true ∧ w.place = none ∧
      (s.tile w.tile).mx.lease = none ∧ tileClosed s w.tile = false ∧
      leaseNext (s.tile w.tile).mx (fun _ => true) = some (leaseReq 1) ∧
      launchPinned s (leaseReq 1).who.launch = false ∧ (leaseReq 1).who.live s = true) ∧
    (∀ p ∈ [(0, 250), (249, 250), (250, 500)], let s := baseA p.1 p.2
      let lk := launchKey 1 2
      (mget s.launches lk).isSome = true ∧ (s.launch lk).admitted = false ∧ (s.launch lk).done = false ∧
        launchPinned s lk = true ∧ s.timebase = admissionTick (s.launch lk) ∧ admittedLater s lk = false ∧
        ((List.range 8).all fun e => 8 * pinnedCost s (plannedTiles s (s.launch lk)) e ≤ s.param 0) = true) ∧
    (let s := { baseA 0 250 with sluice := #v[8000, 120000, 100, 1000, 1000, 5200000, 4000, 105000] }
     s.param 0 < 8 * pinnedCost s (plannedTiles s (s.launch (launchKey 1 2))) 0) ∧
    (let s := base.modTile 1919 fun x => { x with steps := 1 }
     (s.tile 1919).steps ≠ 0 ∧ arrayIdle (s.tile 1919) = true ∧
      ({ s with pause := some { freeze := 0 } } : State).pause.isSome = true) := by
  decide +kernel

theorem test_hyp_Gating :
    (1919 < Config.tiles ∧ 7 < Config.dies) ∧
    (let s := { base.modTile 1919 fun x => { x with busyAt := 3 } with timebase := 12503 }
     (s.tile 1919).gated = none ∧ tileDet s 1919 = false ∧ s.pause = none ∧ tileIdle s 1919 = true ∧
      (s.tile 1919).busyAt + 12500 ≤ s.timebase) ∧
    (let s := { (base.modTile 0 fun x => { x with gated := some 0 }) with traffic := [req 8 .load], timebase := 5000 }
     (s.tile 0).gated = some 0 ∧ wakeNeeded s 0 = true ∧ 0 + 5000 ≤ s.timebase) ∧
    (let s := { (base.modTile 0 fun x => { x with gated := some 0 }) with traffic := [req 8 .load], timebase := 4999 }
     wakeNeeded s 0 = true ∧ s.timebase < 0 + 5000) ∧
    (let s := { (base.modTile 0 fun x => { x with gated := some 0, wake := true }) with timebase := 5000 }
     (s.tile 0).gated = some 0 ∧ 0 + 5000 ≤ s.timebase ∧ (s.tile 0).wake = true) ∧
    (∀ p ∈ [(20, true), (19, false)],
      let s := { base.modDie 7 fun d => { d with inrush := [(1919, 20)], inrushFree := 39 } with timebase := p.1 }
      (s.die 7).inrush = (1919, 20) :: [] ∧ (s.die 7).inrushBusy = false ∧ s.pause = none ∧
        decide (max (s.die 7).inrushFree (2 * max 20 s.lastResume) ≤ 2 * s.timebase) = p.2) ∧
    (let s := { base.modDie 7 fun d => { d with inrushBusy := true, inrushFree := 125 } with timebase := 63 }
     (s.die 7).inrushBusy = true ∧ (s.die 7).inrushFree ≤ 2 * s.timebase) := by
  decide +kernel

/-- A pause in which every die is in one state, its last report at tick 100, and runs S. -/
def baseX (x : DieDrift) (now : Nat) : State :=
  { base with
    pause := some { freeze := 100 }, timebase := now
    dies := (List.range 8).map fun d => (d, { drift := x, running := true, reportAt := 100 }) }

/-- Every die has reported, before the present tick. -/
def reportedAll (s : State) : Bool :=
  (List.range Config.dies).all fun e => (s.die e).drift == .reported && decide ((s.die e).reportAt < s.timebase)

theorem test_hyp_Drift :
    7 < Config.dies ∧
    (let s := { base with booted := true, timebase := 2 ^ 21 }
     s.pause = none ∧ s.booted = true ∧ s.timebase = (s.epochs + 1) * 2 ^ s.log2E) ∧
    (let s := baseX .draining 100
     s.pause.isSome = true ∧ (s.die 7).drift = .draining ∧ drained s 7 = true) ∧
    (let s := baseX .shifting 100
     s.pause.isSome = true ∧ (s.die 7).drift = .shifting) ∧
    (let s := baseX .reported 101
     s.pause = some { freeze := 100 } ∧ reportedAll s = true ∧ (s.die s.primary).running = true ∧ detLive s = false) ∧
    (let s := baseX .reported 100
     (s.die s.primary).running = true ∧ ¬ (s.die 7).reportAt < s.timebase) ∧
    (let s := (baseX .reported 2599).modThread 0 fun t => { t with det := true }
     detLive s = true ∧ s.timebase < 100 + 2500) ∧
    (let s := (baseX .reported 2600).modThread 0 fun t => { t with det := true }
     reportedAll s = true ∧ (s.die s.primary).running = true ∧ detLive s = true ∧ 100 + 2500 = s.timebase ∧
      100 + 2500 ≤ s.timebase) ∧
    ((#v[1, 63, 1, 1, 63] : Vector Nat 5).all fun x => 1 ≤ x && x ≤ 63) = true ∧ base.assigned = false ∧
    ({ base with assigned := true } : State).assigned = true := by
  decide +kernel

/-! ### Hypotheses: Firn and the edge -/

/-- Thread 0 of tile 0, channel 3, or inlet 0, as Firn names them in a wake register. -/
def wake (requester channel : Nat) : WakeId :=
  { ident := 0, owner := 1, requester := BitVec.ofNat 8 requester, channel := BitVec.ofNat 8 channel }

/-- `baseG` with inlet 0 of owner 1, a packet in the slot at its head. -/
def baseI (pkt : Mem) (f : Inlet → Inlet) : State :=
  { ((baseG pkt).setInlet 0 (f { owner := 1, ring := 0x10000020000, tail := 1, slot := true })).modDie 0 fun d =>
      { d with running := true } with frames := [(0, 1), (0x20, 1), (0x30, 1), (0x31, 1), (0x32, 1), (0x33, 1)] }

theorem test_hyp_WakesAndConversions :
    7 < Config.dies ∧ (base.die 7).running = false ∧
    (let s := (baseT fun t => { t with status := .dropped 0 .load }).modDie 0 fun d => { d with running := true }
     (s.die 0).running = true ∧ (wake 0 0).requester = 0 ∧ droppedThread s 0 (wake 0 0) = some 0 ∧
      vectorDone s 0 = true) ∧
    (let x := { copy0 with fault := some 5 }
     let s := (baseK { runs := [x] } []).modDie 0 fun d => { d with running := true }
     (s.die 0).running = true ∧ (wake 1 3).requester = 1 ∧ stuckCopy s 0 (wake 1 3) = some (0, 3, x) ∧ 3 < 4) ∧
    (let p := Pkt.copy 9 1 2 64 0 0 0 true { n := 3 }
     let s := baseI [] fun x => { x with heldCopy := [9], live := [p] }
     (s.die 0).running = true ∧ (wake 3 0).requester = 3 ∧ wokenInlet s 0 (wake 3 0) = some 0 ∧
      (s.inlet 0).heldCopy = 9 :: [] ∧ (s.inlet 0).live.find? (fun p => p.index == 9) = some p) ∧
    (∀ p ∈ [Pkt.signal 9 0x8000000020 true 1 0,
        .wait 9 { key := none, addr := 0x8000000020, c := .eq, v := 0, limit := 0, since := 0 } 0],
      let s := baseI [] fun x => { x with held := [9], live := [p] }
      (s.die 0).running = true ∧ (wake 2 0).requester = 2 ∧ wokenInlet s 0 (wake 2 0) = some 0 ∧
        (s.inlet 0).held = 9 :: [] ∧ (s.inlet 0).live.find? (fun p => p.index == 9) = some p) := by
  decide +kernel

/-- The hypothesis on the tag of a notify is met by the tag itself. -/
theorem test_hyp_Inlets :
    (mget (baseI [] id).inlets 0).isSome = true ∧ 7 < Config.dies ∧
    ((2 : BitVec 32).toNat ≤ 2 ^ 4 ∧ (5 : Word).toNat < 2 ^ 32) ∧
    (let s := baseI [(0x20001, 1)] id
     canRead s (s.inlet 0) = true ∧ phaseRight s (s.inlet 0) = false ∧ (s.inlet 0).retry = none) ∧
    (let s := { baseI [(0x20001, 1)] (fun x => { x with retry := some 0 }) with timebase := 250 }
     (s.inlet 0).retry = some 0 ∧ 0 + 250 ≤ s.timebase) ∧
    (let s := baseI [] fun x => { x with slot := false }
     inletNext s 0 (s.die 0).slotLast (inletWants s 0) = some 0 ∧ (slotted s 0).length < 64) ∧
    (let s := (List.range 64).foldl (fun s k => s.setInlet (k + 1) { owner := 1, slot := true })
      (baseI [] fun x => { x with slot := false })
     inletNext s 0 (s.die 0).slotLast (inletWants s 0) = some 0 ∧ 64 ≤ (slotted s 0).length ∧
      (slotted s 0).find? (fun p => inletAtRest p.2) = some (1, { owner := 1, slot := true })) := by
  decide +kernel

theorem test_hyp_PacketsStart :
    (let s := baseI [] id
     startsNow s 0 = true ∧ headType s 0 = 0 ∧ headerOk (headPacket s (s.inlet 0)) = true) ∧
    (let s := baseI [(0x20000, 4), (0x20010, 0x20), (0x20014, 0x80)] id
     let b := headPacket s (s.inlet 0)
     startsNow s 0 = true ∧ headType s 0 = 4 ∧ headerOk b = true ∧ (pkWord b 16).toNat % 32 = 0 ∧
      region (pkWord b 16) = .signal ∧ pkField b 32 1 ≤ 1 ∧ zeroAt b 33 15 = true ∧
      sigDest (takeHead s 0) ((takeHead s 0).inlet 0).owner (pkWord b 16) = .key 0x20) ∧
    (let s := baseI [(0x20000, 3), (0x20010, 0x20), (0x20014, 0x80), (0x20020, 3)] id
     let b := headPacket s (s.inlet 0)
     let u := takeHead s 0
     startsNow s 0 = true ∧ headType s 0 = 3 ∧ headerOk b = true ∧ waitOf (s.inlet 0) = none ∧
      (pkWord b 16).toNat % 32 = 0 ∧ region (pkWord b 16) = .signal ∧ pkField b 32 1 ≤ 3 ∧ zeroAt b 33 7 = true ∧
      translateNow u (u.inlet 0).owner (pkWord b 16) .load = .ok 0x20 ∧ gate u (u.inlet 0).owner 0x20 = .pass ∧
      watchFree u (homeDie 0x20) = true ∧
      gate { u with frames := [(0, 2)] } (u.inlet 0).owner 0x20 ≠ .pass) ∧
    watchFree { base with traffic := [reqSig] } (homeDie reqSig.key) = false := by
  decide +kernel

theorem test_hyp_PacketsUnderWay :
    (let w : PWait := { key := some 0x20, addr := 0, c := .eq, v := 0, limit := 5, since := 0, hit := true }
     waitOf ((baseI [] fun x => { x with live := [.wait 0 w 7] }).inlet 0) = some (0, w, 7) ∧ w.hit = true) ∧
    (let w : PWait := { key := some 0x20, addr := 0, c := .eq, v := 0, limit := 5, since := 0 }
     let s := { baseI [] fun x => { x with live := [.wait 0 w 7] } with work := 5 }
     waitOf (s.inlet 0) = some (0, w, 7) ∧ w.hit = false ∧ w.limit ≠ 0 ∧ w.since + w.limit ≤ s.work) ∧
    (let s := baseI [(0x20000, 5), (0x20015, 1), (0x2001D, 1), (0x20020, 64)] id
     let b := headPacket s (s.inlet 0)
     startsNow s 0 = true ∧ headType s 0 = 5 ∧ headerOk b = true ∧ zeroAt b 40 8 = true ∧
      copyReach (pkWord b 16) (pkField b 32 8) = true ∧ copyReach (pkWord b 24) (pkField b 32 8) = true) ∧
    (let s := baseI [(0x20000, 5), (0x20003, 1)] id
     startsNow s 0 = true ∧ headType s 0 ∈ [0, 3, 4, 5] ∧ headerOk (headPacket s (s.inlet 0)) = false ∧
      waitOf (s.inlet 0) = none) := by
  decide +kernel

/-- A descriptor at 0x30000 behind a LAUNCH or ACTORS packet: one entry, its table and the table of actors. -/
def launchMem (pkt : Mem) : Mem :=
  pkt ++ [(0x30000, 1), (0x30009, 0x10), (0x3000A, 3), (0x3000D, 1), (0x30019, 0x30), (0x3001A, 3), (0x3001D, 1), (0x32004, 1)]

theorem test_hyp_LaunchesStart :
    (let s := baseI (launchMem [(0x20000, 1), (0x20012, 3), (0x20015, 1), (0x20026, 1), (0x20028, 1), (0x2002A, 1)]) id
     let b := headPacket s (s.inlet 0)
     startsNow s 0 = true ∧ headerOk b = true ∧ headType s 0 = 1 ∧ launchFieldsOk s 1 b = true ∧
      (readNamed s 1 (pkWord b 16) (pkWord b 56)).any (fun r =>
        (launchIdList s 1 b r 1).isSome && decide (pkField b 36 2 < r.entries)) = true) ∧
    (let s := baseI (launchMem [(0x20000, 2), (0x20012, 3), (0x20015, 1), (0x20024, 1), (0x20031, 0x20), (0x20032, 3),
        (0x20035, 1)]) id
     let b := headPacket s (s.inlet 0)
     startsNow s 0 = true ∧ headerOk b = true ∧ headType s 0 = 2 ∧ pkField b 16 8 % 64 = 0 ∧ pkField b 56 8 % 64 = 0 ∧
      zeroAt b 37 11 = true ∧ pkField b 36 1 = 1 ∧ agentOk s 1 (pkWord b 48) 8 = true ∧
      bindingsOk s 1 1 (bindings s 1 (pkWord b 48) 1) = true ∧
      (readNamed s 1 (pkWord b 16) (pkWord b 56)).any (fun r => r.actors != 0) = true) := by
  decide +kernel

theorem test_hyp_CompletionSignals :
    (let s := baseI [] id
     sigDest s (s.inlet 0).owner 0x8000000FE0 = .key 0xFE0 ∧ gate s (s.inlet 0).owner 0xFE0 = .pass ∧ 0xFE0 % 32 = 0 ∧ memWf s.mem = true ∧
      unitOf 0xFE0 ∉ s.poison) := by
  decide +kernel

/-- Die 7 runs an S image whose measurement is right, and services a trap record of owner 1. -/
def baseY : State :=
  base.modDie 7 fun d => { d with running := true, measure := shake256 [] 64, servicing := [⟨1, .trap 0, []⟩] }

theorem test_hyp_RecoveryAndRegisters :
    (7 < Config.dies ∧ 7 < 8) ∧ (baseY.die 7).running = true ∧ (baseY.die 7).servicing = ⟨1, .trap 0, []⟩ :: [] ∧
    (let s := { baseY with timebase := 2 ^ 21 }
     (s.die 7).running = true ∧ (s.die 7).reports.toList.getD 7 0 + 2 * 2 ^ s.log2W ≤ s.timebase ∧
      shake256 (s.die 7).image 64 = (s.die 7).measure) ∧
    (let s := { baseY with booted := true }
     s.booted = true ∧ promotionDue s = true ∧ nextPrimary s = some 7 ∧ s.order.Nodup) ∧
    (let s := { baseY with primary := 7 }
     (s.die s.primary).running = true ∧ 120000 ≤ s.limits[(0 : Fin 8)] ∧ inRange 0 120000 = true ∧
      s.limits[(0 : Fin 8)] < 120001) ∧
    (∀ p ∈ [(0, 2), (2, 2), (1, 0)], let s := { base with coded := if p.1 = 0 then [] else [(0x10, p.1)] }
      let key := (mget s.coded 0x10).getD 0
      key = p.1 ∧ (p.2 = 0 ∨ key = p.2 ∨ key = 0 ∧ frameWritten s 0x10 = false)) ∧
    kernelRegion (0x10 * 4096) = false ∧ kernelRegion (kernelBase 0 / 4096 * 4096) = true ∧
    inletAllowed State.reset 65535 40 16 3 7 0x10000000000 = true ∧ inletAllowed State.reset 0 1 4 0 0 0x10000000040 = true := by
  decide +kernel

/-- A configuration table whose fields lie within their limits: version 1, size 1360, the dies in order, the smallest
epoch and watchdog exponents and the default power parameters. -/
def goodTable : List Byte :=
  bytesOfNat 4 1 ++ bytesOfNat 4 1360 ++ bytesOfNat 8 7 ++ [0, 1, 2, 3, 4, 5, 6, 7] ++ [16, 16, 0, 0] ++
  ([120000, 120000, 20, 1000, 1000, 5200000, 4000, 105000].flatMap fun v => bytesOfNat 4 v) ++ bytesOfNat 8 0 ++
  bytesOfNat 12 0

/-- Every die has that table. -/
def baseBoot : State := { State.reset with dies := (List.range 8).map fun d => (d, { flash := goodTable }) }

/-- Boot succeeds where the Falcon signatures verify; whether they do is a free value (entry 9). -/
theorem test_hyp_ResetAndBoot (h : ∀ a b, Config.falconVerify a b = true) : bootCode (wipeModule baseBoot) = 0 := by
  have h1 : ∀ d ∈ List.range Config.dies, ((wipeModule baseBoot).die d).flash = goodTable := by decide +kernel
  have h2 : ∀ d ∈ List.range Config.dies, tableCode (wipeModule baseBoot) ((wipeModule baseBoot).die d).flash = 0 := by
    intro d hd
    rw [h1 d hd]
    unfold tableCode
    rw [h]
    decide +kernel
  have h3 : (List.range Config.dies).map (fun d => tableCode (wipeModule baseBoot) ((wipeModule baseBoot).die d).flash) =
      List.replicate 8 0 := List.eq_replicate_iff.mpr ⟨by simp, fun x hx => by
        obtain ⟨d, hd, rfl⟩ := List.mem_map.mp hx
        exact h2 d hd⟩
  have h4 : ∀ x, x < Config.dies →
      shake256 ((wipeModule baseBoot).die x).flash 64 = shake256 ((wipeModule baseBoot).die 0).flash 64 := fun x hx => by
    rw [h1 x (List.mem_range.mpr hx), h1 0 (by decide)]
  have h5 : firstCode [0, 0, 0, 0, 0, 0, 0, 0] = 0 := by decide
  simp [bootCode, h3, h5, h]
  exact h4

theorem test_hyp_Assignment :
    (1 ≤ 40 ∧ 40 ≤ Config.owners ∧ 39 < Config.berths) ∧
    (let s := { base with booted := true }
     (s.owner 40).tdisp = .unlocked ∧ berthOwner s 39 = 0 ∧ ownerQuiet s 40 = true ∧
      (s.owner 40).berths.filter (· != 39) = [] ∧ (s.owner 40).berths = []) ∧
    (let s := { base with booted := true }.modOwner 2 fun o => { o with berths := [39] }
     berthOwner s 39 = 2 ∧ (2 : Nat) ≠ 0 ∧ (2 : Nat) ≠ 40 ∧ ownerQuiet s 2 = true ∧ (s.owner 2).tdisp = .unlocked) ∧
    (let s := { base with booted := true }.modOwner 40 fun o => { o with berths := [39, 38] }
     berthOwner s 39 = 40 ∧ ownerQuiet s 40 = true ∧ (s.owner 40).tdisp = .unlocked ∧ ((s.owner 40).berths == [39]) = false) ∧
    (∀ o ∈ [2, 40], let s := { base with booted := true }.modOwner o fun x => { x with berths := [39] }
     berthOwner s 39 = o ∧ ownerQuiet s o = true ∧ (s.owner o).tdisp = .unlocked ∧
      (o != 0 && (s.owner o).berths == [39]) = true) := by
  decide +kernel

theorem test_hyp_Attestation :
    7 < Config.dies ∧ (base.die 7).spdm = .none ∧
    ((base.modDie 7 fun d => { d with spdm := .exchanged }).die 7).spdm = .exchanged ∧
    ((base.modDie 7 fun d => { d with spdm := .session }).die 7).spdm = .session := by
  decide +kernel

theorem test_hyp_InterfacesAndLinks :
    (1 ≤ 40 ∧ 40 ≤ Config.owners ∧ (base.owner 40).tdisp = .unlocked) ∧
    (∀ b ∈ [false, true], let s := (setTdisp base 40 .locked).modOwner 40 fun o => { o with closing := b }
     (s.owner 40).tdisp = .locked ∧ (s.owner 40).closing = b) ∧
    (let f := floe0 0xFFFF (stopImg 1 8)
     let s := { baseFl f with mem := [(0x1000, 0x01), (0x1001, 0x20), (0x2010, 0x01), (0x2011, 0x30), (0x3000, 0x07), (0x3004, 0xC0)] }
     findReq s f.id = none ∧ f ∈ s.floes ∧ f.overLink s = true) ∧
    (let s := setTdisp base 40 .run
     (s.owner 40).tdisp = .run ∧ (s.owner 40).tdisp ≠ .unlocked ∧ ownerQuiet s 40 = true) ∧
    (let r := { req 8 .load with key := Config.hbmBytes }
     let s := baseQ r
     findReq s r.id = some r ∧ overLink r.key = true ∧ r.stage = .sent ∧ blockedIn r s.traffic = false ∧
      r.by_ = .ordinary) ∧
    (let r := { req 64 .load with key := Config.hbmBytes, by_ := .fetch, path := .ext }
     findReq (baseQ r) r.id = some r ∧ overLink r.key = true ∧ blockedIn r (baseQ r).traffic = false) ∧
    (let y := { copy0 with n := 7, base := 0x10000002000, dlen := 64 }
     let s := (baseK { runs := [y] } []).modCore 0 fun c => { c with tlb := [] }
     let s := { s with mem := [(0x1000, 0x01), (0x1001, 0x20), (0x2010, 0x01), (0x2011, 0x30), (0x3000, 0x07), (0x3004, 0xC0)] }
     let s := s.modOwner 1 fun o => { o with root := 0x1000 }
     3 < 4 ∧ findReq s y.n = none ∧ y ∈ ((s.tile 0).chan 3).runs ∧ y.readsLink s 0 = true) ∧
    (let p := Pkt.copy 9 0x10000002000 0x10000000000 64 0 0 0 false { n := 7 }
     let s := baseI [] fun x => { x with live := [p] }
     let s := { s with mem := [(0x1000, 0x01), (0x1001, 0x20), (0x2010, 0x01), (0x2011, 0x30), (0x3000, 0x07), (0x3004, 0xC0)] }
     mget s.inlets 0 = some (s.inlet 0) ∧ findReq s 7 = none ∧ p ∈ (s.inlet 0).live ∧
      p.crossesLink s (s.inlet 0).owner = true) := by
  decide +kernel

/-! ### Hypotheses: encodings, steps, frames -/

theorem test_hyp_DecodeOfEncode :
    (Instr.ldN 7 .d 63 ⟨0xFFFFFFFFFF, true, 3, 7, 63⟩).wf = true ∧
    (encode (.ldN 7 .d 63 ⟨0xFFFFFFFFFF, true, 3, 7, 63⟩)).isSome = true := by decide +kernel

theorem test_hyp_EncodeOfDecode :
    okWith (decode 0x8100 0x00005107) (fun _ => true) = true ∧ reservedOp (headOp 0x8100) = false ∧
    okWith (decode 0x0098 0) (fun i => i == .reservedHead 0x0098) = true ∧ reservedOp (headOp 0x0098) = true ∧
    (Instr.add 0 false 7 4 5).wf = true ∧ encode (.add 0 false 7 4 5) = some (0x8100, 0x00005107) := by decide +kernel

theorem test_hyp_StepRunsDecoded :
    (let s := State.reset.withFetchWord 48 0x810000005107
     let u := turnState { s with agenda := [] } 0
     s.agenda = .thread 0 :: [] ∧ myTurn u 0 = true ∧
      okWith (match (u.thread 0).line with
        | some ln => lineInstr ln (headIdx (u.thread 0).pc)
        | none => .error .undefinedForm) (fun i => i == .add 0 false 7 4 5) = true) ∧
    (let v := settleSlots base base.focus
     let u := turnState v 0
     base.agenda = [] ∧ tileClosed base (base.focus / 4) = false ∧
      barrelSlot v base.focus (v.core base.focus).clock = some 0 ∧ myTurn u 0 = true ∧
      okWith (match (u.thread 0).line with
        | some ln => lineInstr ln (headIdx (u.thread 0).pc)
        | none => .error .undefinedForm) (fun i => i == .nop 0 0 0 0) = true) ∧
    (let s := { base with agenda := [.event (.haltCompletion 0)] }
     s.agenda = .event (.haltCompletion 0) :: [] ∧ encode (.haltCompletion 0) = none ∧
      heldAt { s with agenda := [] } (.haltCompletion 0) = none) ∧
    (let x : Rput := { id := 3, sender := 0, target := 1, reg := 16, val := 5 }
     let s := ((base2 [x]).modThread 1 fun t => t.setReg 16 { val := 0, full := false }).modTile 0 fun x => { x with gated := some 0 }
     heldAt s (.rputDelivery 3) = some 0) := by
  decide +kernel

/-- A next state that satisfies `p`. -/
def nextWith (o : Host.Outcome State Fault Refusal) (p : State → Bool) : Bool :=
  match o with
  | .next u => p u
  | _ => false

theorem of_nextWith {o : Host.Outcome State Fault Refusal} (P : State → Prop) [DecidablePred P]
    (h : nextWith o (fun u => decide (P u)) = true) : ∃ u, o = .next u ∧ P u := by
  cases o with
  | next u => exact ⟨u, rfl, of_decide_eq_true h⟩
  | fault _ => cases h
  | refused _ => cases h

theorem test_hyp_MemoryStaysCanonical : memWf base.mem = true ∧ ∃ u, step base = .next u ∧ True :=
  ⟨by decide +kernel, of_nextWith (fun _ => True) (by decide +kernel)⟩

theorem test_hyp_RegisterFields :
    (1 ≤ (31 : RegNum).toNat ∧ (31 : RegNum).toNat < 32 ∧ (31 : Fin 32).val = (31 : RegNum).toNat) ∧
    (base.thread 0).regs[(31 : Fin 32)].bad = false ∧ ((baseT fun t => t.setReg 31 { val := 5, bad := true }).thread 0).regs[(31 : Fin 32)].bad = true ∧
    ((base.thread 0).rb = 0 ∧ (23 : Fin 32).val = 16 + ((23 : RegNum).toNat - 16 + (base.thread 0).rb.toNat) % 8) ∧
    48 ≤ (48 : RegNum).toNat ∧ 48 ≤ (63 : RegNum).toNat ∧ (53 : RegNum).toNat = 53 ∧
    (neighbour (tileOf 0) ((33 : RegNum).toNat - 32)).isSome = true ∧ (neighbour (tileOf 6144) 0).isSome = false ∧
    (neighbour (tileOf 160) ((32 : RegNum).toNat - 32)).isSome = true ∧
    (neighbour (tileOf 160) ((35 : RegNum).toNat - 32)).isSome = true ∧
    ((36 : RegNum).toNat = 36 + (0 : Fin 4).val ∧ (neighbour (tileOf 160) (0 : Fin 4).val).isSome = true) ∧
    ((39 : RegNum).toNat = 36 + (3 : Fin 4).val ∧ (neighbour (tileOf 160) (3 : Fin 4).val).isSome = true) ∧
    (neighbour (tileOf 6144) ((32 : RegNum).toNat - 32) = none ∧ neighbour (tileOf 6144) ((36 : RegNum).toNat - 36) = none) ∧
    ((base.core 0).inb = none ∧ (base.core 0).outb = none) ∧
    (let s := base.modCore 0 fun c => { c with inb := some ⟨0, 0, 0, 16⟩, outb := some ⟨0, 0, 0, 16⟩ }
     (s.core (coreOf 0)).inb.isSome = true ∧ (s.core (coreOf 0)).outb.isSome = true) ∧
    (42 ≤ (42 : RegNum).toNat ∧ (47 : RegNum).toNat < 48) := by
  decide +kernel

theorem test_hyp_ResultFrame :
    resultOf (.add 0 false 7 4 5) = some 7 ∧
    ∃ u, exec (.add 0 false 7 4 5) base = .next u ∧
      ((u.thread base.cur).status ≠ .halting ∧ (u.thread base.cur).trapped = none ∧
        (u.thread base.cur).inh = (base.thread base.cur).inh) :=
  ⟨rfl, of_nextWith (fun u => (u.thread base.cur).status ≠ .halting ∧ (u.thread base.cur).trapped = none ∧
    (u.thread base.cur).inh = (base.thread base.cur).inh) (by decide +kernel)⟩

theorem test_hyp_AccessFrame :
    (accesses (.stM 0 .d 7 (at14 8 0)) = true ∧ ∃ u, exec (.stM 0 .d 7 (at14 8 0)) base = .next u ∧
      ((u.thread base.cur).status ≠ .halting ∧ (u.thread base.cur).trapped = none ∧
        (u.thread base.cur).inh = (base.thread base.cur).inh)) ∧
    (let r := req 8 (storeAcc 8 5)
     Served (baseQ r) r ∧ ∃ u, exec (.bankAccessPerform r.id) (baseQ r) = .next u ∧ True) ∧
    (let r := { req 8 .load with by_ := .walk 3, path := .ext, key := 0x20040 }
     Served (baseQ r) r ∧ ∃ u, exec (.bankAccessPerform r.id) (baseQ r) = .next u ∧ True) :=
  ⟨⟨rfl, of_nextWith (fun u => (u.thread base.cur).status ≠ .halting ∧ (u.thread base.cur).trapped = none ∧
      (u.thread base.cur).inh = (base.thread base.cur).inh) (by decide +kernel)⟩,
    ⟨served_of (by decide +kernel), of_nextWith (fun _ => True) (by decide +kernel)⟩,
    served_of (by decide +kernel), of_nextWith (fun _ => True) (by decide +kernel)⟩

/-! ### Ill-formed terms -/

/-- None of these terms is the encoding of anything. -/
def noneWf (l : List Instr) : Bool := l.all fun i => !i.wf

/-- Refused: a head index of 0 (R36), and a `nop` with a tail longer than its L. -/
theorem test_illformed_targets : noneWf [
    .nop 0 0 0 1, .nop 1 0 0 0x10000, .br 0 ⟨0, 0⟩, .bc 0 .eq 1 2 ⟨0, 0⟩, .bcz 0 .eq 1 ⟨0, 0⟩, .call 0 ⟨0, 0⟩,
    .loop 0 false 1 ⟨0, 0⟩, .ldpc 0 1 ⟨0, 0⟩, .spawn 0 1 2 ⟨0, 0⟩, .tpost 0 1 2 ⟨0, 0⟩] = true := by
  decide +kernel

/-- Refused: a bit field past the word, a width, a scale bit, a code or a bank outside its limits. -/
theorem test_illformed_fields : noneWf [
    .bext 0 false 1 2 63 1, .bext 0 true 1 2 31 1, .bins 0 false 1 2 1 63, .bins 0 true 1 2 0 32,
    .lduM 0 .d 1 ⟨0, false, 0, 0, 0⟩, .lduN 0 .d 1 ⟨0, false, 0, 0, 0⟩, .leaM 0 1 ⟨0, true, 0, 0, 0⟩,
    .leaN 0 1 ⟨0, true, 0, 0, 0⟩, .sset 0 0 1 2 0x31, .cwait 0 0, .bfmt 0 24 0, .bfmt 0 0 15, .bfget 0 1 24,
    .cpy 0 0 false 1 2 ⟨0, true, 0, 0, 0⟩, .bufdecl 0 1 2 ⟨0, true, 0, 0, 0⟩] = true := by
  decide +kernel

/-- Refused: a lane format outside the accepted set, or rounding fields on integers (R228). -/
theorem test_illformed_vector_arithmetic : noneWf [
    .vld 0 14 1 ⟨0, 0, 0⟩ 0 ⟨false, false, 0⟩, .vst 0 15 1 ⟨0, 0, 0⟩ 0 ⟨false, false, 0⟩,
    .vldg 0 14 1 2 ⟨0, 0, 0⟩ 0 ⟨false, false, 0⟩, .vsts 0 14 1 2 ⟨0, 0, 0⟩ 0 ⟨false, false, 0⟩,
    .vadd 0 12 1 2 3 0 ⟨false, 0⟩, .vadd 0 4 1 2 3 0 ⟨true, 0⟩, .vadd 0 4 1 2 3 0 ⟨false, 1⟩,
    .vsub 0 12 1 2 3 0 ⟨false, 0⟩, .vsub 0 4 1 2 3 0 ⟨true, 0⟩, .vsub 0 4 1 2 3 0 ⟨false, 1⟩,
    .vmul 0 12 1 2 3 0 ⟨false, 0⟩, .vmul 0 4 1 2 3 0 ⟨true, 0⟩, .vmul 0 4 1 2 3 0 ⟨false, 1⟩,
    .vfma 0 13 1 2 3 4 0 ⟨false, 0⟩, .vfma 0 4 1 2 3 4 0 ⟨true, 0⟩, .vmin 0 12 1 2 3 0 false,
    .vmin 0 5 1 2 3 0 true, .vmax 0 12 1 2 3 0 false, .vmax 0 5 1 2 3 0 true, .vun 0 .not 14 1 2 0 ⟨false, 0⟩,
    .vun 0 .not 1 1 2 0 ⟨true, 0⟩, .vun 0 .not 1 1 2 0 ⟨false, 1⟩, .vun 0 .sqrt 4 1 2 0 ⟨false, 0⟩,
    .vun 0 .abs 12 1 2 0 ⟨false, 0⟩, .vun 0 .neg 4 1 2 0 ⟨true, 0⟩, .vun 0 .abs 1 1 2 0 ⟨false, 1⟩,
    .vcvt 0 14 1 0 1 2 0 ⟨false, false, 0⟩, .vcvt 0 1 14 0 1 2 0 ⟨false, false, 0⟩,
    .vcvt 0 1 1 1 1 2 0 ⟨false, false, 0⟩, .vcvt 0 0 2 4 1 2 0 ⟨false, false, 0⟩,
    .vcvt 0 4 5 0 1 2 0 ⟨false, false, 1⟩, .vcvt 0 4 5 0 1 2 0 ⟨false, true, 0⟩,
    .vcvt 0 5 1 0 1 2 0 ⟨true, false, 0⟩, .vcmp 0 .eq 12 1 2 3 0 false, .vcmp 0 .eq 4 1 2 3 0 true] = true := by
  decide +kernel

/-- Refused: a lane format, a group size, a lane or a mask outside its limits (R228, R239, R243, R245). -/
theorem test_illformed_vector_rest : noneWf [
    .vsel 0 14 1 2 3 0, .vperm 0 14 1 2 3 0, .vand 0 14 1 2 3 0, .vor 0 14 1 2 3 0, .vxor 0 14 1 2 3 0,
    .vbcast 0 14 1 2 0, .vrand 0 14 1 2 0, .vred 0 .add 12 1 2 0 ⟨false, 0⟩, .vred 0 .add 4 1 2 0 ⟨false, 1⟩,
    .vred 0 .min 1 1 2 0 ⟨true, 0⟩, .vscan 0 .add 12 1 2 0 ⟨false, 0⟩, .vscan 0 .max 1 1 2 0 ⟨false, 1⟩,
    .vdot 0 12 1 1 2 3 0 ⟨false, 0⟩, .vdot 0 1 0 1 2 3 0 ⟨false, 0⟩, .vdot 0 1 7 1 2 3 0 ⟨false, 0⟩,
    .vdot 0 4 1 1 2 3 0 ⟨false, 1⟩, .vfn 0 .rcp 0 1 2 0 false, .vfn 0 .log2 4 1 2 0 false, .vshl 0 1 1 2 3 0,
    .vshl 0 12 1 2 3 0, .vshr 0 true 0 1 2 3 0, .vins 0 1 1 2 64, .vins 0 14 1 2 0, .vext 0 0 1 2 32,
    .vext 0 15 1 2 0, .vmask 0 .not 1 0 1] = true := by
  decide +kernel

/-- Refused: a lease size, a scale bit or a format outside its limits (R37, R63, R250). -/
theorem test_illformed_matrix : noneWf [
    .mlease 0 0, .mlease 0 65, .mldbM 0 ⟨0, true, 0, 0, 0⟩, .mldbN 0 ⟨0, true, 0, 0, 0⟩,
    .mmaM 0 0 false ⟨0, true, 0, 0, 0⟩, .mmaM 0 5 true ⟨0, false, 0, 0, 0⟩, .mmaN 0 0 false ⟨0, true, 0, 0, 0⟩,
    .mmaN 0 3 true ⟨0, false, 0, 0, 0⟩, .mmas 0 4 false 1 ⟨0, true, 0, 0, 0⟩, .mmas 0 3 false 1 ⟨0, false, 0, 0, 0⟩,
    .mmas 0 7 true 1 ⟨0, false, 0, 0, 0⟩, .mdrainM 0 false ⟨0, true, 0, 0, 0⟩, .mdrainN 0 false ⟨0, true, 0, 0, 0⟩] = true := by
  decide +kernel

/-- Refused: an event that names a thread, a core, a tile, a channel or a slot that is not there (R18). -/
theorem test_illformed_events : noneWf [
    .reservedHead 0x0008, .haltCompletion 61440, .parkConditionMet 61440, .lineFetchArrival 61440,
    .pageWalkComplete 61440, .preemption 61440, .trappedThreadEnd 61440, .trappedThreadResume 61440 none,
    .stealRequest 61440 0, .stealRequest 0 7680, .faultRecordPost 8, .wakeRegisterWrite 8 ⟨0, 1, 0, 0⟩,
    .convertRegisterWrite 8 ⟨0, 1, 0, 0⟩, .shootdownComplete 8, .shootdownRegisterWrite 8 1 0 0,
    .shootdownRegisterWrite 0 0 0 0, .shootdownRegisterWrite 0 41 0 0, .queueEntryArrival 7680 0,
    .queueEntryArrival 0 5, .actorCreditReturn 7680, .overflowQuantumExpiry 7680 0, .overflowQuantumExpiry 0 8,
    .overflowSwapDone 7680 0, .overflowSwapDone 0 8, .copyAcceptance 1920 0, .copyAcceptance 0 4,
    .copyUnitWrite 1920 0, .copyUnitWrite 0 4, .copyCompletion 1920 0, .copyCompletion 0 4, .vectorAcceptance 1920,
    .vectorResultWrite 1920, .leaseGrant 1920, .matrixCommandAcceptance 1920, .matrixCommandExecution 1920,
    .dispenserPlacement 1920, .floeRefill 1920, .floeClaim 1920, .ballastStep 1920, .tileGate 1920,
    .gateHoldExpiry 1920, .tileWakeRequest 1920, .floeDeparture 1920 0, .floeDeparture 0 16, .bartoLimitExpiry 40 0,
    .barrierRelease 40 0] = true := by
  decide +kernel

/-- Refused: an event that names a die, an S hart, an owner or a berth that is not there (R18, R388). -/
theorem test_illformed_outside : noneWf [
    .sluiceTick 8 0 [], .rampSlotGrant 8, .inrushGrant 8, .inrushPeriodEnd 8, .driftDrainEnd 8, .driftShiftEnd 8,
    .supervisorFaultEscalation 8, .getVersion 8, .getCapabilities 8, .getDigests 8, .getCertificate 8, .finish 8,
    .endSession 8, .spdmUnsupportedRequest 8, .notifyWrite 8 0, .watchdogExpiry 8 0, .watchdogExpiry 0 8,
    .calibrationModeSet ⟨#[1, 1, 0, 1, 1], rfl⟩, .calibrationModeSet ⟨#[1, 1, 64, 1, 1], rfl⟩,
    .berthAssignment 1 40, .berthAssignment 0 0, .negotiateAlgorithms 8 true true, .challenge 8 0,
    .getMeasurements 8 0, .keyExchange 8 0, .trapRecordAppend 0, .trapRecordAppend 41, .trapRecordService 0,
    .trapRecordService 41, .ownerUnassignment 0, .ownerUnassignment 41, .lockInterfaceRequest 0,
    .lockInterfaceRequest 41, .startInterfaceRequest 0, .startInterfaceRequest 41, .stopInterfaceRequest 0,
    .stopInterfaceRequest 41, .tdispInterfaceError 0, .tdispInterfaceError 41] = true := by
  decide +kernel

/-! ### Words of the spec's encodings -/

/-- Each head and tail decodes to the instruction beside it. -/
def readsAs (l : List (BitVec 16 × BitVec 64 × Instr)) : Bool :=
  l.all fun w => decide (decode w.1 w.2.1 = .ok w.2.2)

/-- Each head and tail is refused. -/
def refuses (l : List (BitVec 16 × BitVec 64)) : Bool := l.all fun w => !okWith (decode w.1 w.2) fun _ => true

/-- Words put together from the encoding tables of spec/05 decode to the instructions they stand for. -/
theorem test_decode_control : readsAs
    [(0x9805, 0x1234ABCD, .nop 2 3 5 0x1234ABCD),
     (0x0000, 0x0, .nop 0 0 0 0),
     (0x0008, 0x0, .rx),
     (0x8010, 0x7FFFFA7, .br 0 ⟨4194301, 7⟩),
     (0xC01C, 0x7FFFFE3086, .bc 0 .ltu 6 2 ⟨4194303, 3⟩),
     (0xC025, 0xBF009, .bcz 0 .gt 9 ⟨5, 31⟩),
     (0x9028, 0x21, .call 2 ⟨1, 1⟩),
     (0x4030, 0x840, .callr 0 33),
     (0x4038, 0x300, .jr 0 12),
     (0x3840, 0x0, .ret 7),
     (0xC049, 0x903B, .loop 0 true 59 ⟨0, 9⟩),
     (0x0050, 0x0, .brot 0),
     (0x0058, 0x0, .halt 0),
     (0x0060, 0x0, .yield 0),
     (0x4068, 0xA00, .pwait 0 40),
     (0x8070, 0x140000, .setrb 0 5),
     (0x4078, 0x15, .getrb 0 21),
     (0x0080, 0x0, .isync 0),
     (0xC088, 0x7FFFFC4011, .ldpc 0 17 ⟨4194302, 4⟩),
     (0x4090, 0x1E, .tbr 0 30)] = true := by
  decide +kernel

/-- Words put together from the encoding tables of spec/06 decode to the instructions they stand for. -/
theorem test_decode_integer : readsAs
    [(0x8100, 0x3C081, .add 0 false 1 2 60),
     (0x8909, 0x3B0C2, .sub 1 true 2 3 59),
     (0x9118, 0x3A103, .mul 2 false 3 4 58),
     (0x9921, 0x39144, .mulh 3 true 4 5 57),
     (0xA128, 0x38185, .mulhu 4 false 5 6 56),
     (0xA939, 0x371C6, .div 5 true 6 7 55),
     (0xB140, 0x36207, .divu 6 false 7 8 54),
     (0xB949, 0x35248, .rem 7 true 8 9 53),
     (0x8150, 0x34289, .remu 0 false 9 10 52),
     (0x8959, 0x332CA, .and 1 true 10 11 51),
     (0x9160, 0x3230B, .or 2 false 11 12 50),
     (0x9969, 0x3134C, .xor 3 true 12 13 49),
     (0xA170, 0x3038D, .andn 4 false 13 14 48),
     (0xA979, 0x2F3CE, .shl 5 true 14 15 47),
     (0xB180, 0x2E40F, .shr 6 false 15 16 46),
     (0xB989, 0x2D450, .sar 7 true 16 17 45),
     (0x8190, 0x2C491, .rol 0 false 17 18 44),
     (0x8999, 0x2B4D2, .min 1 true 18 19 43),
     (0x91A0, 0x2A513, .max 2 false 19 20 42),
     (0x99A9, 0x29554, .minu 3 true 20 21 41),
     (0xA1B0, 0x28595, .maxu 4 false 21 22 40),
     (0x8111, 0xFFEC00C4, .addiC 0 true 4 3 16379),
     (0xC110, 0xFFFFFFFFF90000C4, .addiD 0 false 4 3 1099511627769),
     (0xC130, 0x2481C6, .mad 0 false 6 7 8 9),
     (0x81BD, 0x81C6, .set 0 .geu 6 7 8),
     (0xC1C0, 0x2481C6, .sel 0 6 7 8 9),
     (0x41CA, 0x1C6, .bcnt 0 .ctz 6 7),
     (0x81D0, 0xFC01C6, .bext 0 false 6 7 63 0),
     (0x81D9, 0x1B1001C6, .bins 0 true 6 7 4 27),
     (0x81E0, 0xFFFC0005, .liC 0 5 16383),
     (0xC1E0, 0xF64C2D8E17000005, .liD 0 5 1057840008727),
     (0xC1E1, 0xA3B195000005, .liHi 0 5 0xA3B195),
     (0x41E8, 0xC1F, .mov 0 31 48),
     (0x41F6, 0x83, .ext 0 .wu 3 2),
     (0x41F1, 0x83, .ext 0 .h 3 2),
     (0x41F9, 0x83, .abs 0 true 3 2)] = true := by
  decide +kernel

/-- Words put together from the encoding tables of spec/07 decode to the instructions they stand for. -/
theorem test_decode_memory : readsAs
    [(0x8203, 0x4241C4, .ldM 0 .d 4 ⟨16, true, 0, 4, 7⟩),
     (0x8203, 0xFFE331C5, .ldM 0 .d 5 ⟨16376, true, 2, 3, 7⟩),
     (0xC200, 0xFFFFFFFFF800C185, .ldN 0 .b 5 ⟨1099511627768, false, 1, 4, 6⟩),
     (0x820A, 0x41A005, .lduM 0 .w 5 ⟨16, false, 3, 2, 0⟩),
     (0xC209, 0x100000027045, .lduN 0 .h 5 ⟨1048576, true, 0, 7, 1⟩),
     (0x8213, 0x201089, .stM 0 .d 9 ⟨8, false, 0, 1, 2⟩),
     (0xC211, 0x8001089, .stN 0 .h 9 ⟨8, false, 0, 1, 2⟩),
     (0xC21B, 0x2036210C, .ldp 0 true 12 13 ⟨32, true, 0, 2, 4⟩),
     (0xC222, 0xFFFFFFFFE034210C, .stp 0 false 12 13 ⟨1099511627744, false, 0, 2, 4⟩),
     (0x8228, 0xC5187, .leaM 0 7 ⟨3, false, 0, 5, 6⟩),
     (0xC228, 0xFFFFFFFFFD015187, .leaN 0 7 ⟨1099511627773, false, 2, 5, 6⟩),
     (0x8230, 0x6C9F00, .sset 0 3 60 9 3),
     (0x8239, 0x180004, .sget 0 .limit 4 6),
     (0x8241, 0x180100, .sadj 0 true 6 4),
     (0x0248, 0x0, .fence 0),
     (0x8250, 0xA40000, .xfence 0 .vector .ext),
     (0x025B, 0x0, .cwait 0 3),
     (0x8260, 0x1080000, .bfmt 0 2 2),
     (0x8268, 0x5C0008, .bfget 0 8 23)] = true := by
  decide +kernel

/-- Words put together from the encoding tables of spec/09, R59 decode to the instructions they stand for. -/
theorem test_decode_atomic : readsAs
    [(0xC280, 0xC000000010102003, .amo 0 .add true 3 4 ⟨16, false, 0, 2, 0⟩),
     (0xC287, 0xBFFFFFFFFC1AB1C5, .amo 0 .maxu false 5 6 ⟨274877906940, true, 1, 3, 7⟩),
     (0xC288, 0x80000000081831C5, .swap 0 false 5 6 ⟨8, false, 0, 3, 7⟩),
     (0xC290, 0xC0000000081A31C5, .cas 0 true 5 6 ⟨8, true, 0, 3, 7⟩),
     (0xC290, 0xC0000000001A31C5, .cas 0 true 5 6 ⟨0, true, 0, 3, 7⟩),
     (0xC2A0, 0x8000000000103000, .dadd 0 false 4 ⟨0, false, 0, 3, 0⟩),
     (0xC298, 0x80000000001831C5, .fadd 0 false 5 6 ⟨0, false, 0, 3, 7⟩),
     (0xC2A0, 0xC0000000001831C0, .dadd 0 true 6 ⟨0, false, 0, 3, 7⟩),
     (0x82A9, 0x804006, .sigupM 0 true 6 ⟨32, false, 0, 4, 0⟩),
     (0xC2A8, 0x40024086, .sigupN 0 false 6 ⟨64, true, 0, 4, 2⟩),
     (0xC2B2, 0x401C4086, .sigwait 0 .ge 6 7 ⟨64, false, 0, 4, 2⟩),
     (0x02B8, 0x0, .bar 0),
     (0x02B9, 0x0, .barReset 0),
     (0x42C0, 0x25A, .barto 0 26 9)] = true := by
  decide +kernel

/-- Words put together from the encoding tables of spec/10 decode to the instructions they stand for. -/
theorem test_decode_queue : readsAs
    [(0x4300, 0x885, .qpoll 0 5 34),
     (0x4308, 0xA45, .qcnt 0 5 41),
     (0x8310, 0x642280, .rput 0 10 2 25),
     (0xC31A, 0x100202107, .cpy 0 2 false 7 8 ⟨256, false, 0, 2, 4⟩),
     (0xC325, 0x2207142, .cpy2 0 1 true 2 5 7 8 2),
     (0xC328, 0x6207142, .cpyg 0 0 false 2 5 7 8 6),
     (0xC333, 0x1207142, .cpys 0 3 false 2 5 7 8 1),
     (0xC338, 0x4024011F, .bufdecl 0 31 9 ⟨64, false, 0, 0, 4⟩),
     (0x8342, 0x440000, .bufset 0 .drain 17),
     (0x8348, 0x480004, .bufget 0 4 18),
     (0x4353, 0x4, .cwp 0 3 4),
     (0x4359, 0x4, .chbind 0 true 4)] = true := by
  decide +kernel

/-- Words put together from the encoding tables of spec/12, R38 decode to the instructions they stand for. -/
theorem test_decode_vectorArith : readsAs
    [(0xC400, 0xFFFFFFC0227F1005, .vld 0 12 5 ⟨4294967232, 2, 9⟩ 1 ⟨true, true, 3⟩),
     (0xC408, 0x4000000004020, .vst 0 1 4 ⟨262144, 0, 0⟩ 0 ⟨false, false, 0⟩),
     (0xC410, 0x830410185, .vldg 0 4 5 6 ⟨8, 3, 1⟩ 0 ⟨false, false, 0⟩),
     (0xC418, 0x8304121A8, .vsts 0 4 5 6 ⟨8, 3, 1⟩ 2 ⟨false, false, 0⟩),
     (0xC420, 0x1830D1, .vadd 0 0 1 2 3 3 ⟨true, 2⟩),
     (0xC428, 0x18B0D1, .vsub 0 2 1 2 3 3 ⟨true, 2⟩),
     (0xC430, 0x1870D1, .vmul 0 1 1 2 3 3 ⟨true, 2⟩),
     (0xC438, 0x4C8D1, .vfma 0 3 1 2 3 4 0 ⟨false, 1⟩),
     (0xC440, 0x1040D1, .vmin 0 1 1 2 3 0 true),
     (0xC448, 0x250D1, .vmax 0 9 1 2 3 1 false),
     (0xC453, 0xC0011, .vun 0 .sqrt 0 1 2 0 ⟨false, 3⟩),
     (0xC452, 0x34011, .vun 0 .not 13 1 2 0 ⟨false, 0⟩),
     (0xC458, 0x1100230011, .vcvt 0 12 1 1 1 2 0 ⟨true, false, 0⟩),
     (0xC464, 0x3000150D0, .vcmp 0 .gt 5 3 2 3 1 false),
     (0xC468, 0x320D1, .vsel 0 12 1 2 3 2)] = true := by
  decide +kernel

/-- Words put together from the encoding tables of spec/12, R38 decode to the instructions they stand for. -/
theorem test_decode_vectorRest : readsAs
    [(0xC472, 0x5004010, .vred 0 .max 1 20 2 0 ⟨false, 0⟩),
     (0xC478, 0x44011, .vscan 0 .add 1 1 2 0 ⟨false, 1⟩),
     (0xC480, 0x2C0D1, .vperm 0 11 1 2 3 0),
     (0xC488, 0xF820001, .vbcast 0 8 1 62 0),
     (0xC490, 0x80002C0D1, .vdot 0 11 8 1 2 3 0 ⟨false, 0⟩),
     (0xC49A, 0x108011, .vfn 0 .exp2 2 1 2 0 true),
     (0xC4A0, 0x280D1, .vand 0 10 1 2 3 0),
     (0xC4A8, 0xD1, .vor 0 0 1 2 3 0),
     (0xC4B0, 0x340D1, .vxor 0 13 1 2 3 0),
     (0xC4B8, 0x180D1, .vshl 0 6 1 2 3 0),
     (0xC4C1, 0x1C0D1, .vshr 0 true 7 1 2 3 0),
     (0xC4C8, 0xC25006, .vrand 0 9 6 3 1),
     (0xC4D0, 0x3F03404001, .vins 0 1 1 13 63),
     (0xC4D8, 0xFF0341C008, .vext 0 7 13 1 255),
     (0xC4E1, 0x3900000000, .vmask 0 .or 1 2 3),
     (0xC4E3, 0x900000000, .vmask 0 .not 1 2 0)] = true := by
  decide +kernel

/-- Words put together from the encoding tables of spec/13 decode to the instructions they stand for. -/
theorem test_decode_matrix : readsAs
    [(0x8500, 0x1000000, .mlease 0 64),
     (0x0508, 0x0, .mrel 0),
     (0x8510, 0xFF0001C0, .mldbM 0 ⟨16320, false, 0, 0, 7⟩),
     (0xC510, 0x500000031C0, .mldbN 0 ⟨327680, false, 0, 3, 7⟩),
     (0x0518, 0x0, .mzero 0),
     (0x8526, 0x1001081, .mmaM 0 6 true ⟨64, false, 0, 1, 2⟩),
     (0xC523, 0x40001080, .mmaN 0 3 false ⟨64, false, 0, 1, 2⟩),
     (0xC52C, 0x180141, .mmas 0 4 true 6 ⟨0, false, 0, 0, 5⟩),
     (0x8531, 0x1001080, .mdrainM 0 true ⟨64, false, 0, 1, 2⟩),
     (0xC530, 0x50000000000, .mdrainN 0 false ⟨0x50000, false, 0, 0, 0⟩),
     (0x4538, 0x240, .mscale 0 9),
     (0x4540, 0x9, .mstat 0 9),
     (0x0548, 0x0, .mwait 0)] = true := by
  decide +kernel

/-- Words put together from the encoding tables of spec/14 decode to the instructions they stand for. -/
theorem test_decode_task : readsAs
    [(0xC600, 0x62185, .spawn 0 5 6 ⟨3, 2⟩),
     (0x0608, 0x0, .tjoin 0),
     (0x0610, 0x0, .tret 0),
     (0x0618, 0x0, .waitw 0),
     (0x0619, 0x0, .waitwS 0),
     (0xC620, 0x7FFFFA2185, .tpost 0 5 6 ⟨4194301, 2⟩),
     (0x8628, 0x220C9, .depsetM 0 9 ⟨0, true, 0, 2, 3⟩),
     (0xC628, 0x400020C9, .depsetN 0 9 ⟨64, false, 0, 2, 3⟩),
     (0x8630, 0x10020C0, .depdecM 0 ⟨64, false, 0, 2, 3⟩),
     (0xC630, 0xFFFFFFFFC00020C0, .depdecN 0 ⟨1099511627712, false, 0, 2, 3⟩),
     (0x4638, 0x9, .tcount 0 9)] = true := by
  decide +kernel

/-- Words put together from the encoding tables of spec/15 decode to the instructions they stand for. -/
theorem test_decode_floe : readsAs
    [(0x4680, 0xC4, .flnew 0 4 3),
     (0x868B, 0x3FFC81C0, .flput 0 .d 7 8 4095),
     (0x8692, 0x10010C, .flget 0 .w 12 4 4),
     (0x8694, 0x10C, .flgetArg 0 12 4),
     (0x8695, 0x14010C, .flgetHdr 0 12 4 5),
     (0x4698, 0x100, .flsend 0 4),
     (0x46A0, 0x4, .flrecv 0 4),
     (0x46A8, 0x100, .flnext 0 4),
     (0x86B0, 0x1C8100, .flrw 0 4 8 7),
     (0x86B8, 0x48100, .flins 0 4 8 1),
     (0x86C0, 0x80100, .fldel 0 4 2),
     (0x46C8, 0x100, .flpark 0 4),
     (0x46D0, 0x100, .flresume 0 4),
     (0x46D8, 0x100, .fldrop 0 4)] = true := by
  decide +kernel

/-- Words put together from the encoding tables of spec/16 and spec/17 decode to the instructions they stand for. -/
theorem test_decode_system : readsAs
    [(0x0701, 0x0, .phase 0 .m),
     (0x4709, 0x7, .pcnt 0 true 7),
     (0x4711, 0x7, .dstate 0 true 7),
     (0x8780, 0xFFFC0000, .trap 0 16383),
     (0x4788, 0x1C0, .sethnd 0 7),
     (0x2F90, 0x0, .hret 5),
     (0x8798, 0x100007, .rdsys 0 7 4),
     (0x87A0, 0x1001C0, .wrsys 0 7 4),
     (0x47A9, 0x7, .ecnt 0 true 7),
     (0x87B0, 0x300000, .brk 0 12),
     (0x87B8, 0x340000, .fail 0 13)] = true := by
  decide +kernel

/-- An X or a tail length that the mnemonic does not list is refused (R50). -/
theorem test_decode_undefined_form : refuses [
    (0x0009, 0x0), (0x8011, 0x1), (0x4010, 0x1), (0xC01E, 0x1000), (0x81BE, 0x0), (0x41CB, 0x0),
    (0x41F3, 0x0), (0x820B, 0x0), (0xC219, 0x0), (0x823B, 0x0), (0x0258, 0x0), (0xC2B4, 0x0), (0x8343, 0x0),
    (0xC454, 0x0), (0xC466, 0x0), (0xC473, 0x0), (0x8420, 0x0), (0x852C, 0x0), (0x061A, 0x0), (0x8696, 0x0),
    (0x0703, 0x0), (0x47AA, 0x0)] = true := by
  decide +kernel

/-- A bit that must be zero and is not, or a field outside its limits, is refused (R32 check 2, R36, R228). -/
theorem test_decode_bad_field : refuses [
    (0x0808, 0x0), (0x8010, 0x0), (0x8010, 0x8000001), (0xC018, 0x8000001000), (0xC020, 0x10C1),
    (0x4030, 0x41), (0x4030, 0x1040), (0x8070, 0x200000), (0x8100, 0x41041), (0x8110, 0x41041),
    (0xC130, 0x1041041), (0x81D0, 0x1FC01C6), (0x81D1, 0x17C01C6), (0xC1E1, 0x1000000000000),
    (0xC200, 0x40000), (0x8228, 0x20000), (0x8230, 0x6200000), (0x8250, 0x180000), (0x8260, 0x600000),
    (0x8260, 0x7800000), (0xC280, 0x4000000000000000), (0xC2A0, 0x8000000000000001), (0xC318, 0x20000),
    (0xC320, 0x8000000), (0x8340, 0x800000), (0xC420, 0x30000), (0xC420, 0x50000), (0xC420, 0x4200),
    (0xC420, 0x80004000), (0xC400, 0x38000), (0xC490, 0x4000), (0xC490, 0x700004000), (0xC498, 0x0),
    (0xC4B8, 0x4000), (0xC4D0, 0x4000004000), (0xC4E3, 0x1100000000), (0x8500, 0x0), (0x8500, 0x1040000),
    (0x8520, 0x2), (0x8523, 0x1), (0xC530, 0x1), (0xC600, 0x0), (0x8694, 0x40101), (0x8690, 0x40000000),
    (0x87A0, 0x1)] = true := by
  decide +kernel

/-- A head of a reserved OP decodes to the instruction whose effect is the trap (R50), whatever its tail. -/
theorem test_decode_reserved : readsAs
    [(0x0098, 0, .reservedHead 0x0098), (0x0270, 0, .reservedHead 0x0270), (0xC4E8, 5, .reservedHead 0xC4E8),
     (0x07C0, 0, .reservedHead 0x07C0), (0x8380, 1, .reservedHead 0x8380)] = true := by
  decide +kernel

/-- Words of the opcode table: the head alone, and the head above its 16-bit tail. -/
theorem test_decode_table_words :
    decodeTableWord 16 0x0050 = some (.brot 0) ∧ decodeTableWord 32 0x40300340 = some (.callr 0 13) ∧
    decodeTableWord 48 0x810000005107 = some (.add 0 false 7 4 5) ∧
    decodeTableWord 80 0xC280C000000010102003 = some (.amo 0 .add true 3 4 ⟨16, false, 0, 2, 0⟩) := by
  decide +kernel

/-! ### Values worked out in the spec -/

/-- The conversions that spec/11 works out: 464, 480 and −480 to E4M3, 2.5 and 7 to E2M1, 70,000 to FP16 and 300.5 to INT8
(R203 to R212); 0.3 and −3.7 are the FP64 numbers next to them. -/
theorem test_conversions :
    convertBits (.flt fp64) (.flt e4m3) .rne false false 0x3FD3333333333333 = 0x2A ∧
    convertBits (.flt fp64) (.flt e4m3) .rz false false 0x3FD3333333333333 = 0x29 ∧
    convertBits (.int true 32) (.flt e4m3) .rne false false 464 = 0x7E ∧
    convertBits (.int true 32) (.flt e4m3) .rne false false 480 = 0x7E ∧
    convertBits (.int true 32) (.flt e4m3) .rne false true 480 = 0x7F ∧
    convertBits (.int true 32) (.flt e4m3) .rz false true 480 = 0x7E ∧
    convertBits (.int true 32) (.flt e4m3) .rd false false 0xFFFFFE20 = 0xFE ∧
    convertBits (.int true 32) (.flt e4m3) .rd false true 0xFFFFFE20 = 0x7F ∧
    convertBits (.flt fp32) (.flt e2m1) .rne false false 0x40200000 = 4 ∧
    convertBits (.int true 32) (.flt e2m1) .rne false true 7 = 7 ∧
    convertBits (.int true 32) (.flt fp16) .ru false false 70000 = 0x7BFF ∧
    convertBits (.int true 32) (.flt fp16) .ru false true 70000 = 0x7C00 ∧
    convertBits (.flt fp64) (.int true 8) .rz false false 0xC00D99999999999A = 0xFD ∧
    convertBits (.flt fp32) (.int true 8) .rne false false 0x43964000 = 0x7F := by
  decide +kernel

/-- The DS8 bytes of R200: 1, 3, 16, 0 and −0.625, in FP32. -/
theorem test_ds8 : [0x40, 0x45, 0x77, 0x7F, 0x9B].map (convertBits .ds8 (.flt fp32) .rne false false) =
    [0x3F800000, 0x40400000, 0x41800000, 0x00000000, 0xBF200000] := by
  decide +kernel

/-- R220's example: 2^24 and three times 1.0 sum to 16,777,218 by the tree. -/
theorem test_vred_tree :
    redTree 1 .add ⟨false, 0⟩ (([0x4B800000, 0x3F800000, 0x3F800000, 0x3F800000] ++ List.replicate 60 0).map some) =
      0x4B800001 := by
  decide +kernel

/-- R206: a NaN that only meets identities is canonical; R220: the identity of a sum is −0. -/
theorem test_vred_leaf :
    redTree 1 .add ⟨false, 0⟩ (some 0xFF800001 :: List.replicate 63 none) = 0x7FC00000 ∧
    redTree 1 .add ⟨false, 3⟩ (some 0 :: List.replicate 63 none) = 0 ∧
    redTree 1 .add ⟨false, 0⟩ (List.replicate 64 none) = 0x80000000 := by
  decide +kernel

/-- R219: special values of `vfn`. -/
theorem test_vfn_specials :
    laneFn 1 .log2 false 0x3F800000 = 0 ∧ laneFn 1 .rcp false 0x80000000 = 0xFF800000 ∧
    laneFn 1 .rsqrt false 0xBF800000 = 0x7FC00000 ∧ laneFn 1 .exp2 false 0xFF800000 = 0 ∧
    laneFn 1 .exp2 false 0x80000000 = 0x3F800000 ∧ laneFn 1 .rcp false 0x40000000 = 0x3F000000 := by
  decide +kernel

/-- Block 0 of the step worked out in spec/11: the block sum is 72, and a NaN element under a zero scale stays NaN. -/
theorem test_block_sum :
    fp32.encode .rne false false (blockSum (List.replicate 16 (Val.mul (scaled (some 0x40) (e4m3.decode false 0x3C))
      (scaled (some 0x30) (Elem.decode .ds8 false 0x45))))) = 0x42900000 ∧
    scaled (some 0) (e4m3.decode false 0x7F) = .nan ∧ scaled (some 0) (e4m3.decode false 0x38) = Val.zero false := by
  decide +kernel

/-- R105's results, row by row of the table in spec/06. -/
theorem test_division :
    quotS (-7 : Word) 2 = -3 ∧ remS (-7 : Word) 2 = -1 ∧ quotS (7 : Word) (-2) = -3 ∧ remS (7 : Word) (-2) = 1 ∧
    quotS (0x8000000000000000 : Word) (-1) = 0x8000000000000000 ∧ remS (0x8000000000000000 : Word) (-1) = 0 ∧
    quotS (5 : Word) 0 = 0xFFFFFFFFFFFFFFFF ∧ remS (5 : Word) 0 = 5 := by
  decide +kernel

/-- SHAKE256 of the empty message (FIPS 202). -/
theorem test_shake256_empty : shake256 [] 8 = [0x46, 0xB9, 0xDD, 0x2B, 0x0B, 0xA8, 0x8D, 0x13] := by
  decide +kernel

/-! ### Single steps -/

/-- The value that register `r` of the thread gets from one instruction. -/
def resultIs (i : Instr) (s : State) (r : Fin 32) (v : Word) : Bool := nextWith (exec i s) fun u => regVal u u.cur r == v

/-- `base` with registers 4 and 5 set. -/
def base45 (a b : Word) : State := baseT fun t => (t.setReg 4 { val := a }).setReg 5 { val := b }

/-- R104: addition wraps; `.w` sign-extends its 32-bit result. -/
theorem test_add :
    resultIs (.add 0 false 7 4 5) (base45 0xFFFFFFFFFFFFFFFF 1) 7 0 = true ∧
    resultIs (.add 0 true 7 4 5) (base45 0x7FFFFFFF 1) 7 0xFFFFFFFF80000000 = true := by
  decide +kernel

/-- R106: the count of a shift is taken modulo the width; the source is also the destination. -/
theorem test_shifts :
    resultIs (.sar 0 true 4 4 5) (base45 0x80000000 33) 4 0xFFFFFFFFC0000000 = true ∧
    resultIs (.rol 0 false 7 4 5) (base45 0x8000000000000001 64) 7 0x8000000000000001 = true := by
  decide +kernel

/-- R33: a write to g0 is discarded. -/
theorem test_g0 : resultIs (.mov 0 0 4) (base45 9 0) 0 0 = true := by decide +kernel

/-- R350, R342: a trap with a handler enters it: cause 7, the code and the successor are saved. -/
theorem test_trap_entry :
    nextWith (exec (.trap 0 0x155) (baseT fun t => { t with handler := 0x20000000041 })) (fun u =>
      (u.thread u.cur).trapCause == 7 && (u.thread u.cur).trapInfo == 0x155 &&
      (u.thread u.cur).trapPc == (base.thread 0).pc + 1 && (u.thread u.cur).inh &&
      (u.thread u.cur).pc == 0x20000000041) = true := by
  decide +kernel

/-- The accesses worked out in spec/07 beside R120: past the limit, cause 4; a right the segment lacks, cause 2. -/
theorem test_segment_causes :
    segOff 0x2FFFE true 8 16 = 0x180000 ∧
    segCheck base 1 { base := 0xD000000, limit := 0x180000, code := 0x13 } (segOff 0x2FFFE true 8 16)
      { size := 8, align := 8, rights := 1, types := [0, 1, 2] } = .error (.owner 4 4 0xD180000) ∧
    segCheck base 1 { base := 0xD000000, limit := 0x180000, code := 0x13 } 0
      { size := 8, align := 8, rights := 4, types := [0, 1, 2] } = .error (.owner 4 2 0xD000000) := by
  decide +kernel

/-- R121: a bank of a tile store serves one access in a clock: where it has served one in the clock of its tile, a unit of
a channel waits and a thread's access forfeits. -/
theorem test_bank_serves_once :
    (let r : Req := { req 64 (storeAcc 64 7) with by_ := .copy 3 0, path := .copy }
     bankTurn (serveBanks (baseQ r) [bankOf r.key]) r = false ∧ bankTurn (baseQ r) r = true) ∧
    okWith (arbitrate (serveBanks base [bankOf (tileKey 0 64)]) 0 (tileKey 0 0)) (fun _ => true) = false ∧
    okWith (arbitrate base 0 (tileKey 0 0)) (fun _ => true) = true := by
  decide +kernel

/-- A step from reset runs the word placed before it. -/
theorem test_step_runs : nextWith (step (State.reset.withFetchWord 48 0x81E003FC0005))
    (fun u => regVal u 0 5 == 0xFF) = true := by
  decide +kernel

end Sys2Proof.Tests
end

section
/-! PROOFS. Integer class (spec/06_integer_class.md): the results of R104 and R106 as the statements write them, and the
instructions that give them. -/

namespace Sys2Proof.Machine

open Sys2Proof.Claims

/-! ### Results -/

/-- The low half of a 32-bit form's result is the result before W (R100). -/
theorem half_width2 (f : Word → Word → Word) (f32 : BitVec 32 → BitVec 32 → BitVec 32) (a b : Word) :
    half (width2 true f f32 a b) = f32 (half a) (half b) := by
  change ((f32 (half a) (half b)).signExtend 64).setWidth 32 = _
  apply BitVec.eq_of_toInt_eq
  rw [← BitVec.signExtend_eq_setWidth_of_le _ (by decide), BitVec.toInt_signExtend_eq_toInt_bmod_of_le _ (by decide),
    BitVec.toInt_signExtend_of_le (by decide), BitVec.toInt_bmod_cancel]

/-- The high half of `2 * n` bits, in terms of any integer that is congruent to them. -/
theorem extractLsb'_high_ofInt (n : Nat) (z : Int) :
    (BitVec.ofInt (2 * n) z).extractLsb' n n = BitVec.ofInt n (z / 2 ^ n) := by
  have hpos : (0 : Int) < 2 ^ n := by positivity
  have hquot : z / 2 ^ n = z % 2 ^ (2 * n) / 2 ^ n + z / 2 ^ (2 * n) * 2 ^ n := by
    rw [← Int.add_mul_ediv_right _ _ hpos.ne', mul_assoc, ← pow_add, ← two_mul, Int.emod_add_ediv_mul]
  apply BitVec.eq_of_toNat_eq
  zify
  simp only [BitVec.extractLsb'_toNat, BitVec.toNat_ofInt, Nat.shiftRight_eq_div_pow]
  push_cast
  rw [Int.toNat_of_nonneg (Int.emod_nonneg _ (by positivity)), Int.toNat_of_nonneg (Int.emod_nonneg _ hpos.ne'), hquot,
    Int.add_mul_emod_self_right]

/-- `mulh` keeps the exact signed product from bit `n` on (R104). -/
theorem mulhS_eq {n : Nat} (a b : BitVec n) : mulhS a b = BitVec.ofInt n (a.toInt * b.toInt / 2 ^ n) := by
  rw [← extractLsb'_high_ofInt, BitVec.ofInt_mul]
  rfl

/-- `mulhu` keeps the exact unsigned product from bit `n` on (R104). -/
theorem mulhU_eq {n : Nat} (a b : BitVec n) : mulhU a b = BitVec.ofNat n (a.toNat * b.toNat / 2 ^ n) := by
  have h := extractLsb'_high_ofInt n ((a.toNat * b.toNat : Nat) : Int)
  rw [BitVec.ofInt_natCast, BitVec.ofNat_mul, BitVec.ofNat_toNat, BitVec.ofNat_toNat] at h
  rw [← BitVec.ofInt_natCast, Int.natCast_div, Nat.cast_pow, Nat.cast_ofNat, ← h]
  rfl

/-- `rol` rotates by its count modulo the width (R106). -/
theorem rolR_eq {n : Nat} (a b : BitVec n) : rolR a b = a.rotateLeft (b.toNat % n) := by
  rw [BitVec.rotateLeft_def, Nat.mod_mod]
  rfl

/-! ### Instructions -/

/-- An instruction that computes one operation of `x` and `y` gives its result in both widths: on the whole values, and
on their low halves with the result sign-extended (R100). -/
theorem gives_width2 {s : State} {st : Stall} {lat : Nat} {srcs : List RegNum} {d : RegNum} {o : Opnds}
    (h : Ready s srcs [d] o) (i : Bool → Instr) (f : Word → Word → Word) (f32 : BitVec 32 → BitVec 32 → BitVec 32)
    (x y : Bool → List Word → Word)
    (hi : ∀ w, exec (i w) s = runInstr s s.cur false fun u c =>
      compute u u.cur c st lat srcs d fun v => .ok (width2 w f f32 (x w v) (y w v))) :
    Gives s (i false) st lat o (f (x false o.vals) (y false o.vals)) ∧
    Gives s (i true) st lat o (wide (f32 (half (x true o.vals)) (half (y true o.vals)))) :=
  ⟨gives_of (hi false) h rfl, gives_of (hi true) h rfl⟩

/-- `gives_width2` of the operands a and b. -/
theorem gives_binary {s : State} {st : Stall} {lat : Nat} {d a b : RegNum} {o : Opnds} (h : Ready s [a, b] [d] o)
    (i : Bool → Instr) (f : Word → Word → Word) (f32 : BitVec 32 → BitVec 32 → BitVec 32)
    (hi : ∀ w, exec (i w) s = runInstr s s.cur false fun u c =>
      compute u u.cur c st lat [a, b] d fun v => .ok (width2 w f f32 (v.getD 0 0) (v.getD 1 0))) :
    Gives s (i false) st lat o (f (o.v 0) (o.v 1)) ∧
    Gives s (i true) st lat o (wide (f32 (half (o.v 0)) (half (o.v 1)))) :=
  gives_width2 h i f f32 (fun _ v => v.getD 0 0) (fun _ v => v.getD 1 0) hi

/-- R104: `mad` adds c to the product, which in the 32-bit form it keeps in 32 bits. -/
theorem mad_gives {s : State} {st : Stall} {d a b c : RegNum} {o : Opnds} (h : Ready s [a, b, c] [d] o) :
    Gives s (.mad st false d a b c) st 16 o (o.v 0 * o.v 1 + o.v 2) ∧
    Gives s (.mad st true d a b c) st 16 o (wide (half (o.v 0) * half (o.v 1) + half (o.v 2))) := by
  obtain ⟨mad, madW⟩ := gives_width2 h (.mad st · d a b c) (· + ·) (· + ·)
    (fun w v => width2 w (· * ·) (· * ·) (v.getD 0 0) (v.getD 1 0)) (fun _ v => v.getD 2 0) fun _ => rfl
  rw [half_width2] at madW
  exact ⟨mad, madW⟩

/-- R104: `addi` adds its sign-extended immediate, here of layout C. -/
theorem addiC_gives {s : State} {st : Stall} {d a : RegNum} {o : Opnds} (h : Ready s [a] [d] o) (n : BitVec 14) :
    Gives s (.addiC st false d a n) st 4 o (o.v 0 + n.signExtend 64) ∧
    Gives s (.addiC st true d a n) st 4 o (wide (half (o.v 0) + half (n.signExtend 64))) :=
  gives_width2 h (.addiC st · d a n) (· + ·) (· + ·) (fun _ v => v.getD 0 0) (fun _ _ => n.signExtend 64) fun _ => rfl

/-- R104: `addi` of layout D. -/
theorem addiD_gives {s : State} {st : Stall} {d a : RegNum} {o : Opnds} (h : Ready s [a] [d] o) (n : BitVec 40) :
    Gives s (.addiD st false d a n) st 4 o (o.v 0 + n.signExtend 64) ∧
    Gives s (.addiD st true d a n) st 4 o (wide (half (o.v 0) + half (n.signExtend 64))) :=
  gives_width2 h (.addiD st · d a n) (· + ·) (· + ·) (fun _ v => v.getD 0 0) (fun _ _ => n.signExtend 64) fun _ => rfl

/-- Settles O1: each instruction computes one result, which the lemmas above give in the words of R104. -/
theorem integerArithmetic : Obligations.IntegerArithmetic := by
  intro s st d a b c o
  refine ⟨fun h => ?_, mad_gives, fun h => ⟨fun n => (addiC_gives h n).1, fun n => (addiC_gives h n).2,
    fun n => (addiD_gives h n).1, fun n => (addiD_gives h n).2⟩⟩
  obtain ⟨add, addW⟩ := gives_binary h (.add st · d a b) (· + ·) (· + ·) fun _ => rfl
  obtain ⟨sub, subW⟩ := gives_binary h (.sub st · d a b) (· - ·) (· - ·) fun _ => rfl
  obtain ⟨mul, mulW⟩ := gives_binary h (.mul st · d a b) (· * ·) (· * ·) fun _ => rfl
  obtain ⟨mulh, mulhW⟩ := gives_binary h (.mulh st · d a b) mulhS mulhS fun _ => rfl
  obtain ⟨mulhu, mulhuW⟩ := gives_binary h (.mulhu st · d a b) mulhU mulhU fun _ => rfl
  rw [mulhS_eq] at mulh mulhW
  rw [mulhU_eq] at mulhu mulhuW
  exact ⟨add, addW, sub, subW, mul, mulW, mulh, mulhW, mulhu, mulhuW⟩

/-- Settles O2: the model's operations are those of R106 as the statement writes them, `rol` by `rolR_eq`. -/
theorem integerLogic : Obligations.IntegerLogic := by
  intro s st d a b o h
  obtain ⟨and, andW⟩ := gives_binary h (.and st · d a b) (· &&& ·) (· &&& ·) fun _ => rfl
  obtain ⟨or, orW⟩ := gives_binary h (.or st · d a b) (· ||| ·) (· ||| ·) fun _ => rfl
  obtain ⟨xor, xorW⟩ := gives_binary h (.xor st · d a b) (· ^^^ ·) (· ^^^ ·) fun _ => rfl
  obtain ⟨andn, andnW⟩ := gives_binary h (.andn st · d a b) andNot andNot fun _ => rfl
  obtain ⟨shl, shlW⟩ := gives_binary h (.shl st · d a b) shlR shlR fun _ => rfl
  obtain ⟨shr, shrW⟩ := gives_binary h (.shr st · d a b) shrR shrR fun _ => rfl
  obtain ⟨sar, sarW⟩ := gives_binary h (.sar st · d a b) sarR sarR fun _ => rfl
  obtain ⟨rol, rolW⟩ := gives_binary h (.rol st · d a b) rolR rolR fun _ => rfl
  obtain ⟨min, minW⟩ := gives_binary h (.min st · d a b) minS minS fun _ => rfl
  obtain ⟨max, maxW⟩ := gives_binary h (.max st · d a b) maxS maxS fun _ => rfl
  obtain ⟨minu, minuW⟩ := gives_binary h (.minu st · d a b) minU minU fun _ => rfl
  obtain ⟨maxu, maxuW⟩ := gives_binary h (.maxu st · d a b) maxU maxU fun _ => rfl
  rw [rolR_eq] at rol rolW
  exact ⟨and, andW, or, orW, xor, xorW, andn, andnW, shl, shlW, shr, shrW, sar, sarW, rol, rolW, min, minW, max, maxW,
    minu, minuW, maxu, maxuW⟩

end Sys2Proof.Machine
end

section
/-! PROOFS. System class (spec/17_system_class.md): the entry of a local trap (R342, R343, R350). What its transfer to
the handler can still change of the thread is its line, its status, its port and what an owner trap at the handler marks
(R85). -/

namespace Sys2Proof.Machine

open Sys2Proof.Claims

/-! ### Results bound for queues -/

/-- A result that is written by a clock is written by it once. -/
theorem Push.land_land (c : Nat) (p : Push) : (p.land c).land c = p.land c := by
  simp [Push.land]

theorem Core.mapPushes_mapPushes (x : Core) (f h : Push → Push) : (x.mapPushes f).mapPushes h = x.mapPushes (h ∘ f) := by
  simp [Core.mapPushes, Function.comp_def]

theorem mapPushes_mapPushes (s : State) (f h : Push → Push) : mapPushes (mapPushes s f) h = mapPushes s (h ∘ f) := by
  simp [mapPushes, Core.mapPushes_mapPushes]

/-- A core's clock does not depend on the entries on their way. -/
theorem clock_mapPushes (s : State) (f : Push → Push) (k : Nat) : ((mapPushes s f).core k).clock = (s.core k).clock := by
  unfold State.core mapPushes
  dsimp only
  induction s.cores with
  | nil => rfl
  | cons p m ih =>
    rw [List.map_cons, mget, mget]
    split
    · rfl
    · exact ih

theorem thread_mapPushes (s : State) (f : Push → Push) (k : Nat) : (mapPushes s f).thread k = s.thread k := rfl

/-- Writing a thread's results a second time writes nothing more (R46). -/
theorem landPushes_landPushes (s : State) (g : Nat) : landPushes (landPushes s g) g = landPushes s g := by
  unfold landPushes
  rw [clock_mapPushes, mapPushes_mapPushes, thread_mapPushes]
  congr 1
  funext p
  by_cases hp : p.g = g
  · rw [Function.comp_apply, if_pos hp, if_pos (show (p.land _).g = g from hp), Push.land_land]
  · rw [Function.comp_apply, if_neg hp, if_neg hp]

/-! ### Taking a trap -/

/-- An owner trap is taken in the same way once the thread's results have been written. -/
theorem captureOwner_landPushes (s : State) (g cause sub : Nat) (info resume : Word) :
    captureOwner (landPushes s g) g cause sub info resume = captureOwner s g cause sub info resume := by
  unfold captureOwner
  rw [landPushes_landPushes]

theorem vacate_thread (s : State) (g k : Nat) (out : Bool) : (vacate s g out).thread k = s.thread k := by
  obtain ⟨_, h⟩ := vacate_cases s g out
  rw [h]
  rfl

/-- The context that an owner trap leaves in the image: that of the capture, marked ended or trapped (R345). -/
theorem captureOwner_thread (s : State) (g cause sub : Nat) (info resume : Word) :
    ∃ status trapped, (captureOwner s g cause sub info resume).thread g =
      { (s.thread g).capture with cut := false, port := none, status := status, trapped := trapped } := by
  unfold captureOwner
  dsimp only
  split
  · exact ⟨_, _, (vacate_thread _ g g true).trans (State.thread_set _ _ _)⟩
  · exact ⟨_, _, (vacate_thread _ g g true).trans (State.thread_set _ _ _)⟩

/-! ### Entering a line -/

/-- `t'` is `t` at the same pc, with the same context and earliest issue: its line, its status, an owner trap's mark and
the work of its port differ at most. -/
def InPlace (t t' : Thread) : Prop :=
  ∃ line status trapped cut port, t' =
    { t with line := line, status := status, trapped := trapped, cut := cut, port := port }

theorem InPlace.refl (t : Thread) : InPlace t t := ⟨_, _, _, _, _, rfl⟩

theorem InPlace.trans {t t' t'' : Thread} (h : InPlace t t') (h' : InPlace t' t'') : InPlace t t'' := by
  obtain ⟨_, _, _, _, _, rfl⟩ := h
  obtain ⟨_, _, _, _, _, rfl⟩ := h'
  exact ⟨_, _, _, _, _, rfl⟩

/-- A thread without results on their way and without stall turns that remain: a capture has nothing to write or to
discard (R46). -/
def Thread.Settled (t : Thread) : Prop := t.pend = [] ∧ t.ready = t.base

theorem Thread.Settled.inPlace {t t' : Thread} (ht : t.Settled) (h : InPlace t t') : t'.Settled := by
  obtain ⟨_, _, _, _, _, rfl⟩ := h
  exact ht

theorem Thread.Settled.capture {t : Thread} (ht : t.Settled) : t.capture = { t with cut := t.status.issued } := by
  obtain ⟨hp, hb⟩ := ht
  have hall : t.landAll = t := by
    unfold Thread.landAll
    rw [hp, landAllList, ← hp]
  rw [Thread.capture, hall, ← hb, min_self]

/-- The requests in flight that do not prepare a next instruction. -/
def dataTraffic (s : State) : List Req := s.traffic.filter fun r => !prefetch r

/-- From `s` to `u` the thread `g` stays in place, and no request but a prefetch is sent. -/
def Stays (g : Nat) (s u : State) : Prop := InPlace (s.thread g) (u.thread g) ∧ dataTraffic u = dataTraffic s

theorem Stays.refl (g : Nat) (s : State) : Stays g s s := ⟨InPlace.refl _, rfl⟩

theorem Stays.trans {g : Nat} {s u v : State} (h : Stays g s u) (h' : Stays g u v) : Stays g s v :=
  ⟨h.1.trans h'.1, h'.2.trans h.2⟩

theorem Stays.settled {g : Nat} {s u : State} (h : Stays g s u) (hs : (s.thread g).Settled) : (u.thread g).Settled :=
  hs.inPlace h.1

theorem stays_setThread {g : Nat} (s : State) {t : Thread} (h : InPlace (s.thread g) t) : Stays g s (s.setThread g t) :=
  ⟨by rwa [State.thread_set], rfl⟩

/-- A request that prepares a next instruction is sent. -/
theorem stays_send (g : Nat) (s : State) {r : Req} (hr : prefetch r = true) : Stays g s (send s r) := by
  have hr' : ∀ due, prefetch { r with due := due } = true := fun _ => hr
  refine ⟨⟨_, _, _, _, _, rfl⟩, ?_⟩
  simp [dataTraffic, send, List.filter_append, hr']

theorem sendFetch_stays (s : State) (g : Nat) (la : Word) : Stays g s (sendFetch s g la) := by
  unfold sendFetch
  dsimp only
  split
  · exact stays_send g s rfl
  · exact Stays.refl g s

theorem portAsk_stays (s : State) (g : Nat) (a : Word) (n : Nat) : Stays g s (portAsk s g a n) := by
  unfold portAsk
  split
  · exact Stays.refl g s
  · exact stays_setThread s ⟨_, _, _, _, _, rfl⟩

theorem parkThread_stays (s : State) (g : Nat) (w : Wait) : Stays g s (parkThread s g w) := by
  have hpark : Stays g s (s.modThread g fun t => { t with status := .parked w }) :=
    stays_setThread s ⟨_, _, _, _, _, rfl⟩
  refine hpark.trans ?_
  unfold parkThread
  dsimp only
  split
  · exact sendFetch_stays _ g _
  · split
    · exact stays_send g _ rfl
    · exact Stays.refl g _
  · exact portAsk_stays _ g _ _
  · exact Stays.refl g _

/-- An owner trap of a settled thread leaves its context in place (R345). -/
theorem captureOwner_stays {s : State} {g : Nat} (hs : (s.thread g).Settled) (cause sub : Nat) (info resume : Word) :
    Stays g s (captureOwner s g cause sub info resume) := by
  obtain ⟨status, trapped, ht⟩ := captureOwner_thread s g cause sub info resume
  obtain ⟨_, _, _, _, _, _, _, hu⟩ := captureOwner_cases s g cause sub info resume
  constructor
  · rw [ht, hs.capture]
    exact ⟨_, status, trapped, _, _, rfl⟩
  · rw [hu]
    rfl

theorem ownerTrap_stays {s : State} {g : Nat} (hs : (s.thread g).Settled) (cause sub : Nat) (info resume : Word) :
    Stays g s (ownerTrap s g cause sub info resume) := by
  unfold ownerTrap
  split
  · exact captureOwner_stays hs _ _ _ _
  · exact parkThread_stays s g _

/-- An owner trap at the entry of a line (R85). -/
theorem ownerTrap_noLine_stays {s : State} {g : Nat} (hs : (s.thread g).Settled) (cause sub : Nat) (info resume : Word) :
    Stays g s (ownerTrap (s.setThread g { s.thread g with line := none }) g cause sub info resume) :=
  have h : Stays g s (s.setThread g { s.thread g with line := none }) := stays_setThread s ⟨_, _, _, _, _, rfl⟩
  h.trans (ownerTrap_stays (h.settled hs) _ _ _ _)

theorem enterLine_stays {s : State} {g : Nat} (hs : (s.thread g).Settled) (ln : BitVec 512) :
    Stays g s (enterLine s g ln) := by
  unfold enterLine
  dsimp only
  split
  · exact stays_setThread s ⟨_, _, _, _, _, rfl⟩
  · exact ownerTrap_noLine_stays hs _ _ _ _

theorem enter_stays {s : State} {g : Nat} (hs : (s.thread g).Settled) : Stays g s (enter s g) := by
  have hline : Stays g s (s.setThread g { s.thread g with line := none }) := stays_setThread s ⟨_, _, _, _, _, rfl⟩
  unfold enter
  dsimp only
  split
  · exact ownerTrap_noLine_stays hs _ _ _ _
  · split
    · exact enterLine_stays hs _
    · split
      · exact hline.trans (parkThread_stays _ g _)
      · exact hline.trans (parkThread_stays _ g _)
      · exact ownerTrap_noLine_stays hs _ _ _ _

/-- A settled thread to which control is transferred is in place at the target (R85). -/
theorem transferTo_stays {s : State} {g : Nat} (hs : (s.thread g).Settled) (pc : Word) :
    Stays g (s.setThread g { s.thread g with pc := pc, line := none }) (transferTo s g pc) := by
  unfold transferTo
  dsimp only
  split
  · exact Stays.refl g _
  · exact enter_stays (by rwa [State.thread_set])

/-! ### Taking a local trap -/

/-- The thread captured by a local trap at clock `c` that its handler takes (R343): inhibited, the trap registers written,
`back` the pc that `hret` returns to. -/
def trapSaved (t : Thread) (c cause sub : Nat) (info back succ : Word) : Thread :=
  { t.capture with
    cut := false, port := none, trapPc := back, trapSucc := succ, trapCause := BitVec.ofNat 64 (cause + 256 * sub)
    trapInfo := info, inh := true, ready := c + 8, base := c + 8, status := .ready }

section
variable {s : State} {g : Nat} (c cause sub : Nat) (info : Word) (atSucc pair : Bool)

/-- Outside a handler and with one set, the thread goes on there (R343). -/
theorem captureLocal_handled (hinh : (s.thread g).inh = false) (hset : (s.thread g).handler ≠ 0) :
    let t := s.thread g
    let succ := succOf t pair
    Stays g ((landPushes s g).setThread g
        { trapSaved t c cause sub info (if atSucc then succ else t.pc) succ with pc := t.handler, line := none })
      (captureLocal s g c cause sub info atSucc pair) := by
  intro t succ
  have hlocal : captureLocal s g c cause sub info atSucc pair =
      transferTo ((landPushes s g).setThread g
        (trapSaved t c cause sub info (if atSucc then succ else t.pc) succ)) g t.handler :=
    (if_neg (ne_true_of_eq_false hinh)).trans (if_neg hset)
  have hgoes := transferTo_stays (s := (landPushes s g).setThread g
    (trapSaved t c cause sub info (if atSucc then succ else t.pc) succ)) (g := g)
    (by rw [State.thread_set]; exact ⟨rfl, rfl⟩) t.handler
  rwa [State.thread_set, setThread_setThread, ← hlocal] at hgoes

/-- Outside a handler and with none set: owner trap 7 (R343). -/
theorem captureLocal_unhandled (hinh : (s.thread g).inh = false) (hset : (s.thread g).handler = 0) :
    captureLocal s g c cause sub info atSucc pair =
      captureOwner s g 7 cause info (if atSucc then succOf (s.thread g) pair else (s.thread g).pc) := by
  rw [← captureOwner_landPushes]
  exact (if_neg (ne_true_of_eq_false hinh)).trans (if_pos hset)

/-- Inside a handler: owner trap 8 (R343). -/
theorem captureLocal_nested (hinh : (s.thread g).inh = true) :
    captureLocal s g c cause sub info atSucc pair = captureOwner s g 8 cause info (s.thread g).pc := by
  rw [← captureOwner_landPushes]
  exact if_pos hinh

end

/-! ### `trap` -/

theorem passTurn_thread (s : State) (g c k : Nat) : (passTurn s g c).thread k = s.thread k := rfl

/-- `trap` raises local trap 7 with its code, its trap pc the successor (R350). -/
theorem trap_acts (s : State) (st : Stall) (code : BitVec 14) :
    Acts s (.trap st code) (takeLocal (landed s) s.cur (clockOf s) 7 0 (code.setWidth 64) true false) :=
  stops_err (pair := false) (f := fun _ _ => .error (.localTrap 7 0 (code.setWidth 64))) rfl rfl

/-- Settles O35: `trap` takes its local trap once the thread's vector instructions have completed, with a handler, without
one, or inside one. -/
theorem localTrapEntry : Obligations.LocalTrapEntry := by
  intro s st code
  have htrap := trap_acts s st code
  have hdone : vectorDone (landed s) s.cur = vectorDone s s.cur := rfl
  refine ⟨fun hv => ?_, fun hv hinh hset => ?_, fun hv hinh hset => ?_, fun hv hinh => ?_⟩
  · rwa [takeLocal, hdone, if_neg (ne_true_of_eq_false hv)] at htrap
  · rw [takeLocal, hdone, if_pos hv] at htrap
    refine ⟨_, htrap, ?_⟩
    obtain ⟨⟨_, _, _, _, _, hthread⟩, htraffic⟩ :=
      captureLocal_handled (clockOf s) 7 0 (code.setWidth 64) true false hinh hset
    rw [State.thread_set] at hthread
    rw [passTurn_thread, hthread]
    exact ⟨rfl, rfl, rfl, rfl, rfl, rfl, rfl, rfl, rfl, rfl, rfl, rfl, rfl, rfl, rfl, rfl, rfl, htraffic⟩
  · rw [takeLocal, hdone, if_pos hv, captureLocal_unhandled _ _ _ _ _ _ hinh hset] at htrap
    rwa [ownerTrap, hdone, if_pos hv]
  · rw [takeLocal, hdone, if_pos hv, captureLocal_nested _ _ _ _ _ _ hinh] at htrap
    rwa [ownerTrap, hdone, if_pos hv]

end Sys2Proof.Machine
end

section
/-! PROOFS. Encodings (spec/03 R31 to R38, spec/04 R49 to R66): what each field reads from a head and from each tail layout,
and from this that the decoder picks the instruction whose encoding it is given. -/

namespace Sys2Proof

open BitVec (extractLsb'_append_eq_of_add_le extractLsb'_append_eq_of_le extractLsb'_setWidth_of_le)

/-! ### Fields -/

/-- The fields of a head (R31). -/
@[simp] theorem mkHead_fields (l : BitVec 2) (s : Stall) (op : BitVec 8) (x : BitVec 3) :
    headL (mkHead l s op x) = l ∧ headS (mkHead l s op x) = s ∧ headOp (mkHead l s op x) = op ∧
      headX (mkHead l s op x) = x := by
  simp only [mkHead, headL, headS, headOp, headX, BitVec.eq_of_getLsbD_eq_iff]
  grind

theorem bit_getLsbD (b : Bool) : (bit b).getLsbD 0 = b := by cases b <;> rfl

@[simp] theorem bit_getElem (b : Bool) : (bit b)[0] = b := bit_getLsbD b

@[simp] theorem tailB_fields (a d : RegNum) : f0 (tailB a d) = d ∧ f6 (tailB a d) = a := by
  simp only [tailB, f0, f6, BitVec.eq_of_getLsbD_eq_iff]
  grind

@[simp] theorem tailC_fields (n : BitVec 14) (b a d : RegNum) :
    f0 (tailC n b a d) = d ∧ f6 (tailC n b a d) = a ∧ f12 (tailC n b a d) = b ∧ fImm14 (tailC n b a d) = n := by
  simp only [tailC, f0, f6, f12, fImm14, BitVec.eq_of_getLsbD_eq_iff]
  grind

/-- A field inside the immediate of layout C. -/
@[simp] theorem tailC_inner (n : BitVec 14) (b a d : RegNum) (j k : Nat) (hj : 18 ≤ j) (hk : j + k ≤ 32) :
    (tailC n b a d).extractLsb' j k = n.extractLsb' (j - 18) k := by
  simp only [tailC, BitVec.eq_of_getLsbD_eq_iff]
  grind

@[simp] theorem tailD_fields (n : BitVec 40) (c b a d : RegNum) :
    f0 (tailD n c b a d) = d ∧ f6 (tailD n c b a d) = a ∧ f12 (tailD n c b a d) = b ∧ f18 (tailD n c b a d) = c ∧
      fImm40 (tailD n c b a d) = n := by
  simp only [tailD, f0, f6, f12, f18, fImm40, BitVec.eq_of_getLsbD_eq_iff]
  grind

/-- A field at the foot of the immediate of layout D. -/
@[simp] theorem tailD_inner (n : BitVec 40) (c b a d : RegNum) (k : Nat) :
    (tailD n c b a d).extractLsb' 24 k = n.extractLsb' 0 k := by
  simp only [tailD, BitVec.eq_of_getLsbD_eq_iff]
  grind

@[simp] theorem tailJ_target (t : Target) : fJ (tailJ t) = t := by
  cases t
  simp only [tailJ, fJ, Target.mk.injEq, BitVec.eq_of_getLsbD_eq_iff]
  grind

@[simp] theorem tailK_fields (t : Target) (b a : RegNum) :
    f0 (tailK t b a) = a ∧ f6 (tailK t b a) = b ∧ fK (tailK t b a) = t := by
  cases t
  simp only [tailK, f0, f6, fK, Target.mk.injEq, BitVec.eq_of_getLsbD_eq_iff]
  grind

@[simp] theorem tailM_fields (m : MemOp 14) (d : RegNum) : f0 (tailM m d) = d ∧ fM (tailM m d) = m := by
  cases m
  simp only [tailM, f0, fM, MemOp.mk.injEq, BitVec.eq_of_getLsbD_eq_iff]
  grind [bit_getLsbD]

@[simp] theorem tailN_fields (m : MemOp 40) (d2 d : RegNum) :
    f0 (tailN m d2 d) = d ∧ f18 (tailN m d2 d) = d2 ∧ fN (tailN m d2 d) = m := by
  cases m
  simp only [tailN, f0, f18, fN, MemOp.mk.injEq, BitVec.eq_of_getLsbD_eq_iff]
  grind [bit_getLsbD]

@[simp] theorem tailR59_fields (b : Bool) (m : MemOp 38) (d2 d : RegNum) :
    f0 (tailR59 b m d2 d) = d ∧ f18 (tailR59 b m d2 d) = d2 ∧ fR59 (tailR59 b m d2 d) = m ∧
      dblOf (tailR59 b m d2 d) = some b := by
  cases m
  simp only [tailR59, f0, f18, fR59, dblOf, MemOp.mk.injEq, BitVec.eq_of_getLsbD_eq_iff, BitVec.getLsbD_extractLsb',
    BitVec.getLsbD_append]
  grind [bit_getLsbD]

section
variable (n : BitVec 32) (sg : BitVec 3) (g : RegNum) (r : VRnd) (f : BitVec 4) (k : BitVec 2) (c b a d : BitVec 3)

@[simp] theorem tailV_registers :
    vWd (tailV n sg g r f k c b a d) = d ∧ vWa (tailV n sg g r f k c b a d) = a ∧
      vWb (tailV n sg g r f k c b a d) = b ∧ vWc (tailV n sg g r f k c b a d) = c ∧
      vMask (tailV n sg g r f k c b a d) = k ∧ vFmt (tailV n sg g r f k c b a d) = f := by
  simp only [tailV, vWd, vWa, vWb, vWc, vMask, vFmt, BitVec.eq_of_getLsbD_eq_iff, BitVec.getLsbD_extractLsb',
    BitVec.getLsbD_append]
  grind

@[simp] theorem tailV_memory : vG (tailV n sg g r f k c b a d) = g ∧ vMem (tailV n sg g r f k c b a d) = ⟨n, sg, g⟩ := by
  simp only [tailV, vG, vMem, vOp32, vSeg, VMem.mk.injEq, BitVec.eq_of_getLsbD_eq_iff, BitVec.getLsbD_extractLsb',
    BitVec.getLsbD_append]
  grind

@[simp] theorem tailV_flush : (tailV n sg g r f k c b a d)[20] = r.flush := by
  simp only [tailV, ← BitVec.getLsbD_eq_getElem, BitVec.getLsbD_append]
  simp

@[simp] theorem tailV_rounding :
    vRnd (tailV n sg g r f k c b a d) = r ∧ fRnd (tailV n sg g r f k c b a d) = ⟨r.flush, r.rnd⟩ := by
  cases r
  simp only [tailV, vRnd, fRnd, VRnd.mk.injEq, FRnd.mk.injEq, BitVec.eq_of_getLsbD_eq_iff, BitVec.getLsbD_extractLsb',
    BitVec.getLsbD_append]
  grind [bit_getLsbD]

/-- A field inside the operand of layout V. -/
@[simp] theorem tailV_inner (i j : Nat) (hj : 32 ≤ i) :
    (tailV n sg g r f k c b a d).extractLsb' i j = n.extractLsb' (i - 32) j := by
  have h : (tailV n sg g r f k c b a d).extractLsb' i j =
      n.extractLsb' (i - 3 - 3 - 3 - 3 - 2 - 4 - 2 - 1 - 1 - 6 - 3 - 1) j := by
    simp only [tailV]
    repeat rw [BitVec.extractLsb'_append_eq_of_le (by omega)]
  rw [h]
  congr 1

end

@[simp] theorem FRnd.v_fields (r : FRnd) : r.v.flush = r.flush ∧ r.v.rnd = r.rnd := ⟨rfl, rfl⟩
@[simp] theorem VRnd.ofFlush_flush (fl : Bool) : (VRnd.ofFlush fl).flush = fl := rfl

/-! ### Fields inside an immediate -/

/-- A field that an immediate holds at its foot. -/
@[simp] theorem extractLsb'_widened {k m : Nat} (x : BitVec k) (h : k ≤ m) : (x.setWidth m).extractLsb' 0 k = x := by
  rw [BitVec.extractLsb'_setWidth_of_le (by omega), BitVec.extractLsb'_eq_self]

/-- A channel or count class is below 4 in X. -/
@[simp] theorem toNat_mod_lt (k : BitVec 2) : k.toNat % 8 < 4 := by omega

/-- X of a copy: the channel and `.cf` (R188). -/
@[simp] theorem copyX_fields (cf : Bool) (ch : BitVec 2) : (bit cf ++ ch).extractLsb' 0 2 = ch ∧ (bit cf ++ ch)[2] = cf := by
  simp only [BitVec.eq_of_getLsbD_eq_iff]
  grind [bit_getLsbD]

/-- The bit field of `bext` and `bins`. -/
@[simp] theorem bitField_fields (len1 pos : BitVec 6) :
    BitVec.extractLsb' 0 6 ((0#2 ++ len1 ++ pos : BitVec 14)) = pos ∧
      BitVec.extractLsb' 6 6 ((0#2 ++ len1 ++ pos : BitVec 14)) = len1 := by
  simp only [BitVec.eq_of_getLsbD_eq_iff]
  grind

@[simp] theorem segCode_fields (code : BitVec 6) (n : BitVec 3) :
    BitVec.extractLsb' 0 3 ((0#5 ++ code ++ n : BitVec 14)) = n ∧
      BitVec.extractLsb' 3 6 ((0#5 ++ code ++ n : BitVec 14)) = code := by
  simp only [BitVec.eq_of_getLsbD_eq_iff]
  grind

@[simp] theorem pathPair_fields (q p : BitVec 3) :
    BitVec.extractLsb' 0 3 ((0#8 ++ q ++ p : BitVec 14)) = p ∧
      BitVec.extractLsb' 3 3 ((0#8 ++ q ++ p : BitVec 14)) = q := by
  simp only [BitVec.eq_of_getLsbD_eq_iff]
  grind

@[simp] theorem bankFormat_fields (fmt bank : BitVec 5) :
    BitVec.extractLsb' 0 5 ((0#4 ++ fmt ++ bank : BitVec 14)) = bank ∧
      BitVec.extractLsb' 5 5 ((0#4 ++ fmt ++ bank : BitVec 14)) = fmt := by
  simp only [BitVec.eq_of_getLsbD_eq_iff]
  grind

/-- The source format and the part of `vcvt`. -/
@[simp] theorem vcvtOp_fields (part : BitVec 3) (src : BitVec 4) :
    BitVec.extractLsb' 0 4 ((0#25 ++ part ++ src : BitVec 32)) = src ∧
      BitVec.extractLsb' 4 3 ((0#25 ++ part ++ src : BitVec 32)) = part := by
  simp only [BitVec.eq_of_getLsbD_eq_iff]
  grind

@[simp] theorem vmaskOp_fields (mb ma mk : BitVec 2) :
    BitVec.extractLsb' 0 2 ((0#26 ++ mb ++ ma ++ mk : BitVec 32)) = mk ∧
      BitVec.extractLsb' 2 2 ((0#26 ++ mb ++ ma ++ mk : BitVec 32)) = ma ∧
      BitVec.extractLsb' 4 2 ((0#26 ++ mb ++ ma ++ mk : BitVec 32)) = mb := by
  simp only [BitVec.eq_of_getLsbD_eq_iff]
  grind

/-! ### Codes of the modifiers -/

@[simp] theorem Width.ofCode_code (z : Width) : Width.ofCode z.code = some z := by cases z <;> rfl
@[simp] theorem Cond.ofCode_code (c : Cond) : Cond.ofCode c.code = some c := by cases c <;> rfl
@[simp] theorem ZCond.ofCode_code (c : ZCond) : ZCond.ofCode c.code = some c := by cases c <;> rfl
@[simp] theorem BcntKind.ofCode_code (k : BcntKind) : BcntKind.ofCode k.code = some k := by cases k <;> rfl
@[simp] theorem ExtKind.ofCode_code (k : ExtKind) : ExtKind.ofCode k.code = some k := by cases k <;> rfl
@[simp] theorem SegField.ofCode_xcode (f : SegField) : SegField.ofCode f.xcode = some f := by cases f <;> rfl
@[simp] theorem Path.ofCode_code (p : Path) : Path.ofCode p.code = some p := by cases p <;> rfl
@[simp] theorem AmoOp.ofCode_code (o : AmoOp) : AmoOp.ofCode o.code = o := by cases o <;> rfl
@[simp] theorem SigCond.ofCode_code (c : SigCond) : SigCond.ofCode c.code = some c := by cases c <;> rfl
@[simp] theorem BufEvent.ofCode_code (e : BufEvent) : BufEvent.ofCode e.code = some e := by cases e <;> rfl
@[simp] theorem VunOp.ofCode_code (o : VunOp) : VunOp.ofCode o.code = some o := by cases o <;> rfl
@[simp] theorem VCond.ofCode_code (c : VCond) : VCond.ofCode c.code = some c := by cases c <;> rfl
@[simp] theorem VRedOp.ofCode_code (o : VRedOp) : VRedOp.ofCode o.code = some o := by cases o <;> rfl
@[simp] theorem VfnOp.ofCode_code (o : VfnOp) : VfnOp.ofCode o.code = some o := by cases o <;> rfl
@[simp] theorem VMaskOp.ofCode_code (o : VMaskOp) : VMaskOp.ofCode o.code = some o := by cases o <;> rfl
@[simp] theorem Hint.ofCode_code (k : Hint) : Hint.ofCode k.code = some k := by cases k <;> rfl
@[simp] theorem flagOf_flagX (b : Bool) : flagOf (flagX b) = some b := by cases b <;> rfl
@[simp] theorem pairOf_pairX (b : Bool) : pairOf (pairX b) = some b := by cases b <;> rfl

/-- A width's code is neither that of an argument nor that of a header (R65). -/
@[simp] theorem Width.code_ne (z : Width) : z.code ≠ 4#3 ∧ z.code ≠ 5#3 := by cases z <;> decide

/-- The B selector of `mma` and `mmas` (R54). -/
@[simp] theorem dsOf_selField (ds : Bool) :
    (∀ m : MemOp 14, dsOf (tailM m (selField ds)) = some ds) ∧
      ∀ (m : MemOp 40) (a : RegNum), dsOf (tailN m a (selField ds)) = some ds := by
  cases ds <;> simp [dsOf, selField]

/-! ### The decoder picks what was encoded -/

/-- The instruction that the rows of R49 select for an encoding is the one encoded. -/
theorem pick_encode (i : Instr) (h : BitVec 16) (t : BitVec 64) (he : encode i = some (h, t))
    (hr : reservedOp (headOp h) = false) (hw : i.wf = true) : pick h t = some i := by
  cases i <;> simp only [encode, Option.some.injEq, Prod.mk.injEq, reduceCtorEq] at he <;> obtain ⟨rfl, rfl⟩ := he
  case reservedHead => simp_all [Instr.wf, headOp]
  all_goals
    simp [pick, pick0, pick1, pick2, pick3, pick4, pick5, pick6, pick8, pick9, pickA, pickT, pickF, pickE, pickS, pickC3,
      pickV3, pickV3n, pickCopy, only]

/-- Of what has an encoding, the reserved heads alone have a reserved OP (R50). -/
theorem reserved_encode {i : Instr} {h : BitVec 16} {t : BitVec 64} (he : encode i = some (h, t))
    (hr : reservedOp (headOp h) = true) : i = .reservedHead h := by
  cases i <;> simp only [encode, Option.some.injEq, Prod.mk.injEq, reduceCtorEq] at he <;> obtain ⟨rfl, rfl⟩ := he
  case reservedHead => rfl
  all_goals simp [reservedOp] at hr

/-- What is well-formed decodes from its encoding. -/
theorem decode_encode {i : Instr} {h : BitVec 16} {t : BitVec 64} (hw : i.wf = true) (he : encode i = some (h, t)) :
    decode h t = .ok i := by
  unfold decode
  by_cases hr : reservedOp (headOp h) = true
  · rw [if_pos hr, reserved_encode he hr]
  · rw [if_neg hr, pick_encode i h t he (by simpa using hr) hw]
    exact if_pos ⟨hw, he⟩

/-- What decodes is a reserved head, or a well-formed instruction that encodes to the bits that were read. -/
theorem decode_cases {h : BitVec 16} {t : BitVec 64} {i : Instr} (hd : decode h t = .ok i) :
    (reservedOp (headOp h) = true ∧ i = .reservedHead h) ∨
      (reservedOp (headOp h) = false ∧ i.wf = true ∧ encode i = some (h, t)) := by
  unfold decode at hd
  split at hd
  next hr => exact .inl ⟨hr, (Except.ok.inj hd).symm⟩
  next hr =>
    refine .inr ⟨by simpa using hr, ?_⟩
    split at hd
    · cases hd
    · split at hd
      next hc => exact Except.ok.inj hd ▸ hc
      · cases hd

/-- Settles O52. -/
theorem decodeOfEncode : Obligations.DecodeOfEncode := fun _ _ _ hw he => decode_encode hw he

/-- Settles O53: the decoder holds what it picks against the encoder, and decoding the encoding gives the instruction
back. -/
theorem encodeOfDecode : Obligations.EncodeOfDecode := by
  intro h t i
  refine ⟨fun hd => ?_, fun j hi hj hei hej => ?_⟩
  · rcases decode_cases hd with ⟨hr, rfl⟩ | ⟨hr, hw, he⟩
    · exact ⟨hr, fun h' => by simp [hr] at h', fun _ => rfl⟩
    · exact ⟨hw, fun _ => he, fun h' => by simp [hr] at h'⟩
  · exact Except.ok.inj ((decode_encode hi hei).symm.trans (decode_encode hj hej))

end Sys2Proof
end

section
/-! PROOFS. Operands of an instruction that issues (R24, R33, R34), and the results of the integer class and the transfers of
the control class that complete with them (spec/05 R88 to R90, spec/06 R105, R107 to R114). -/

namespace Sys2Proof.Machine

open Sys2Proof.Claims

/-! ### Operands -/

/-- What operands that may be read are: their fields, resolved, available, and their values. -/
theorem operands_ok {s : State} {g : Nat} {srcs dsts : List RegNum} {o : Opnds} (h : operands s g srcs dsts = .ok o) :
    srcFields s g srcs = .ok o.srcs ∧ dstFields s g dsts = .ok o.dsts ∧
      (fieldNeeds o.srcs o.dsts).all (needHolds s g) = true ∧ o.vals = srcValues s g [] o.srcs := by
  unfold operands at h
  cases hs : srcFields s g srcs with
  | error e => simp [hs, bind, Except.bind] at h
  | ok ss =>
    cases hd : dstFields s g dsts with
    | error e => simp [hs, hd, bind, Except.bind] at h
    | ok ds =>
      cases hr : (fieldNeeds ss ds).all (needHolds s g) with
      | false => simp [hs, hd, require, hr, bind, Except.bind] at h
      | true =>
        cases hb : scoreboard (s.thread g) (srcs.zip ss) with
        | error e => simp [hs, hd, require, hr, hb, bind, Except.bind] at h
        | ok u =>
          simp only [hs, hd, require, hr, hb, bind, Except.bind, if_true, pure, Except.pure, Except.ok.injEq] at h
          subst h
          exact ⟨rfl, rfl, hr, rfl⟩

/-- The sources of a list whose longer form resolves. -/
theorem srcFields_append_left {s : State} {g : Nat} {l l' : List RegNum} {ss : List Src}
    (h : srcFields s g (l ++ l') = .ok ss) : ∃ r, srcFields s g l = .ok r := by
  induction l generalizing ss with
  | nil => exact ⟨[], rfl⟩
  | cons n l ih =>
    rw [List.cons_append, srcFields] at h
    cases hn : srcField s g n with
    | error e => simp [hn, bind, Except.bind] at h
    | ok x =>
      cases hl : srcFields s g (l ++ l') with
      | error e => simp [hn, hl, bind, Except.bind] at h
      | ok r =>
        obtain ⟨r', hr'⟩ := ih hl
        exact ⟨x :: r', by simp [srcFields, hn, hr', bind, Except.bind, pure, Except.pure]⟩

/-- An instruction that reads its destination, g0 to g31, has the operands of its sources and that (R99). -/
theorem operandsRmw_ok {s : State} {g : Nat} {srcs : List RegNum} {d : RegNum} {o : Opnds} (hd : d.toNat < 32)
    (h : operands s g (srcs ++ [d]) [d] = .ok o) : operandsRmw s g srcs d = .ok o := by
  obtain ⟨r, hr⟩ := srcFields_append_left (operands_ok h).1
  simp [operandsRmw, hr, h, hd, bind, Except.bind]

/-! ### Integer class -/

/-- An instruction whose result is a function of its sources gives it. -/
theorem gives_value {s : State} {i : Instr} {st : Stall} {lat : Nat} {srcs : List RegNum} {d : RegNum} {o : Opnds}
    (h : Ready s srcs [d] o) (f : List Word → Word)
    (hi : exec i s = runInstr s s.cur false fun u c => compute u u.cur c st lat srcs d fun v => .ok (f v)) :
    Gives s i st lat o (f o.vals) := gives_of hi h rfl

/-- An instruction that reads its destination gives its result (R99). -/
theorem gives_rmw {s : State} {i : Instr} {st : Stall} {lat : Nat} {srcs : List RegNum} {d : RegNum} {o : Opnds}
    {v : Opnds → Word} (hd : d.toNat < 32) (h : Ready s (srcs ++ [d]) [d] o)
    (hi : exec i s = runInstr s s.cur false fun u c => do
      let o ← operandsRmw u u.cur srcs d
      return retire (writeLater (consume u u.cur o.srcs) u.cur (o.d 0) (v o) (c + lat)) u.cur c st false none) :
    Gives s i st lat o (v o) := by
  refine acts_ok hi ?_
  rw [landed_cur, operandsRmw_ok hd h]
  rfl

/-- Settles O3: each instruction computes one result, `bins` and `li.hi` of their destination too. -/
theorem integerMoves : Obligations.IntegerMoves := by
  intro s st d a b c o
  refine ⟨fun h k => ?_, fun h => ?_, fun h => ⟨fun k => ?_, fun p n => ?_, fun p n => ?_, ?_, fun k => ?_, ?_, ?_⟩,
    fun h => ⟨fun n => ?_, fun n => ?_⟩, fun hd h => ⟨fun p n => ?_, fun p n => ?_⟩, fun hd h n => ?_⟩
  · exact gives_value h (fun v => if condHolds k (v.getD 0 0) (v.getD 1 0) then 1 else 0) rfl
  · have hsel := gives_value (i := .sel st d a b c) h (fun v => if v.getD 0 0 != 0 then v.getD 1 0 else v.getD 2 0) rfl
    simp only [bne_iff_ne] at hsel
    exact hsel
  · exact gives_value h (fun v => bcntR k (v.getD 0 0)) rfl
  · exact gives_value h (fun v => bextR (v.getD 0 0) p.toNat (n.toNat + 1)) rfl
  · exact gives_value h (fun v => wide (bextR (half (v.getD 0 0)) p.toNat (n.toNat + 1))) rfl
  · exact gives_value h (fun v => v.getD 0 0) rfl
  · exact gives_value h (fun v => extR k (v.getD 0 0)) rfl
  · exact gives_value h (fun v => absS (v.getD 0 0)) rfl
  · exact gives_value h (fun v => wide (absS (half (v.getD 0 0)))) rfl
  · exact gives_value h (fun _ => n.signExtend 64) rfl
  · exact gives_value h (fun _ => n.signExtend 64) rfl
  · exact gives_rmw (srcs := [a]) (v := fun o => binsR (o.v 1) (o.v 0) p.toNat (n.toNat + 1)) hd h rfl
  · exact gives_rmw (srcs := [a])
      (v := fun o => wide (binsR (half (o.v 1)) (half (o.v 0)) p.toNat (n.toNat + 1))) hd h rfl
  · exact gives_rmw (srcs := []) (v := fun o => liHiR (o.v 0) n) hd h rfl

/-! ### Division (R105) -/

section
variable {s : State} {st : Stall} {d a b : RegNum} {o : Opnds} {i : Instr} {f : Word → Word → Word}
  {f32 : BitVec 32 → BitVec 32 → BitVec 32}

/-- A division whose divisor is not zero, or whose thread has not enabled the trap. -/
theorem divide_gives (w : Bool) (h : Ready s [a, b] [d] o)
    (hi : exec i s = runInstr s s.cur false fun u c =>
      compute u u.cur c st (divLat w) [a, b] d (divide u u.cur w f f32))
    (hz : zeroDivisor w (o.v 1) = false ∨ (issuer s).dz = false) :
    Gives s i st (divLat w) o (width2 w f f32 (o.v 0) (o.v 1)) := by
  refine gives_of (f := fun u => divide u u.cur w f f32) hi h ?_
  refine if_neg fun ⟨hb, hdz⟩ => ?_
  rcases hz with hz | hz
  · exact absurd hb (ne_true_of_eq_false hz)
  · exact absurd hdz (ne_true_of_eq_false hz)

/-- A zero divisor with the trap enabled takes local trap 1. -/
theorem divide_traps (w : Bool) (h : Ready s [a, b] [d] o)
    (hi : exec i s = runInstr s s.cur false fun u c =>
      compute u u.cur c st (divLat w) [a, b] d (divide u u.cur w f f32))
    (hz : zeroDivisor w (o.v 1) = true) (hdz : (issuer s).dz = true) :
    Acts s i (takeLocal (landed s) s.cur (clockOf s) 1 0 0 false false) := by
  have hdiv : divide (landed s) s.cur w f f32 o.vals = .error (.localTrap 1 0 0) := if_pos ⟨hz, hdz⟩
  refine stops_err hi (e := .localTrap 1 0 0) ?_
  rw [landed_cur, compute, show operands (landed s) s.cur [a, b] [d] = .ok o from h]
  simp only [bind, Except.bind, hdiv]

end

theorem zeroDivisor_whole (x : Word) : zeroDivisor false x = (x == 0) := rfl
theorem zeroDivisor_half (x : Word) : zeroDivisor true x = (half x == 0) := rfl

theorem divisionResults : DivisionResults := by
  intro s st d a b o h
  refine ⟨fun hz => ?_, fun hz => ?_⟩
  · replace hz : zeroDivisor false (o.v 1) = false ∨ (issuer s).dz = false := by simpa [zeroDivisor_whole] using hz
    exact ⟨divide_gives (f := quotS) (f32 := quotS) false h rfl hz, divide_gives (f := quotU) (f32 := quotU) false h rfl hz,
      divide_gives (f := remS) (f32 := remS) false h rfl hz, divide_gives (f := remU) (f32 := remU) false h rfl hz⟩
  · replace hz : zeroDivisor true (o.v 1) = false ∨ (issuer s).dz = false := by simpa [zeroDivisor_half] using hz
    exact ⟨divide_gives (f := quotS) (f32 := quotS) true h rfl hz, divide_gives (f := quotU) (f32 := quotU) true h rfl hz,
      divide_gives (f := remS) (f32 := remS) true h rfl hz, divide_gives (f := remU) (f32 := remU) true h rfl hz⟩

theorem divisionTrap : DivisionTrap := by
  intro s st d a b o h hdz
  refine ⟨fun hz => ?_, fun hz => ?_⟩
  · replace hz : zeroDivisor false (o.v 1) = true := by simpa [zeroDivisor_whole] using hz
    exact ⟨divide_traps (f := quotS) (f32 := quotS) false h rfl hz hdz, divide_traps (f := quotU) (f32 := quotU) false h rfl hz hdz,
      divide_traps (f := remS) (f32 := remS) false h rfl hz hdz, divide_traps (f := remU) (f32 := remU) false h rfl hz hdz⟩
  · replace hz : zeroDivisor true (o.v 1) = true := by simpa [zeroDivisor_half] using hz
    exact ⟨divide_traps (f := quotS) (f32 := quotS) true h rfl hz hdz, divide_traps (f := quotU) (f32 := quotU) true h rfl hz hdz,
      divide_traps (f := remS) (f32 := remS) true h rfl hz hdz, divide_traps (f := remU) (f32 := remU) true h rfl hz hdz⟩

theorem divisionCorners : DivisionCorners := by
  intro n a b hn
  have hones : BitVec.allOnes n ≠ 0 := by
    intro h
    have h' : 2 ^ n - 1 = 0 := by simpa using congrArg BitVec.toNat h
    have := Nat.one_lt_two_pow hn.ne'
    omega
  refine ⟨if_pos rfl, if_pos rfl, if_pos rfl, if_pos rfl, ?_, ?_, fun hb => ?_, fun hb hc => ?_⟩
  · rw [quotS, if_neg hones, if_pos ⟨rfl, rfl⟩]
  · rw [remS, if_neg hones, if_pos ⟨rfl, rfl⟩]
  · rw [quotU, remU, if_neg hb, if_neg hb, BitVec.toNat_ofNat, BitVec.toNat_ofNat,
      Nat.mod_eq_of_lt ((Nat.div_le_self _ _).trans_lt a.isLt), Nat.mod_eq_of_lt ((Nat.mod_le _ _).trans_lt a.isLt)]
    exact ⟨rfl, rfl⟩
  · rw [quotS, remS, if_neg hb, if_neg hb, if_neg hc, if_neg hc]
    have hne : a ≠ BitVec.intMin n ∨ b ≠ -1#n := by
      rw [BitVec.neg_one_eq_allOnes]
      exact not_and_or.mp hc
    rw [← BitVec.toInt_sdiv_of_ne_or_ne a b hne, ← BitVec.toInt_srem, BitVec.ofInt_toInt, BitVec.ofInt_toInt]
    exact ⟨rfl, rfl⟩

/-- Settles O4. -/
theorem integerDivision : Obligations.IntegerDivision := ⟨divisionResults, divisionTrap, divisionCorners⟩

/-! ### Transfers (R88 to R90) -/

/-- An instruction that goes on in `u` in every state acts in it. -/
theorem acts_always {s : State} {i : Instr} (u : State → Nat → State)
    (hi : exec i s = runInstr s s.cur false fun s c => .ok (u s c)) : Acts s i (u (landed s) (clockOf s)) :=
  acts_ok hi rfl

/-- An instruction that reads its operands and goes on in `u` acts in it. -/
theorem acts_operands {s : State} {i : Instr} {srcs dsts : List RegNum} {o : Opnds} {u : State → Nat → Opnds → State}
    (h : Ready s srcs dsts o)
    (hi : exec i s = runInstr s s.cur false fun s c => do
      let o ← operands s s.cur srcs dsts
      return u s c o) :
    Acts s i (u (landed s) (clockOf s) o) := by
  refine acts_ok hi ?_
  rw [landed_cur, show operands (landed s) s.cur srcs dsts = .ok o from h]
  rfl

/-- Settles O5: each transfer reads its operands and completes with its target or without one. -/
theorem controlTransfers : Obligations.ControlTransfers := by
  intro s st t a b o
  refine ⟨?_, fun h k => ?_, fun h k => ?_, fun h => ?_, fun h => ?_, fun h => ?_, fun h => ?_⟩
  · exact acts_always (fun s c => retire s s.cur c st false (some (targetPc (s.thread s.cur).pc t))) rfl
  · exact acts_operands (u := fun s c o => retire (consume s s.cur o.srcs) s.cur c st false
      (if condHolds k (o.v 0) (o.v 1) then some (targetPc (s.thread s.cur).pc t) else none)) h rfl
  · exact acts_operands (u := fun s c o => retire (consume s s.cur o.srcs) s.cur c st false
      (if zcondHolds k (o.v 0) then some (targetPc (s.thread s.cur).pc t) else none)) h rfl
  · exact acts_operands (u := fun s c o => retire (consume s s.cur o.srcs) s.cur c st false (some (o.v 0))) h rfl
  · exact acts_operands (u := fun s c o => retire (consume s s.cur o.srcs) s.cur c st false (some (o.v 0))) h rfl
  · exact acts_operands (u := fun s c o => retire (writeLater s s.cur (o.d 0) (succOf (s.thread s.cur) false) (c + 4))
      s.cur c st false (some (targetPc (s.thread s.cur).pc t))) h rfl
  · exact acts_operands (u := fun s c o => retire (writeLater (consume s s.cur o.srcs) s.cur (o.d 0)
      (succOf (s.thread s.cur) false) (c + 4)) s.cur c st false (some (o.v 0))) h rfl

end Sys2Proof.Machine
end

section
/-! PROOFS. Words that the spec writes out, the state after reset, and what a register field names (spec/03 R33, R34). -/

namespace Sys2Proof.Machine

open Sys2Proof.Claims

/-! ### Written words -/

/-- Settles O60: each word is the encoding of a well-formed instruction, so that `decode_encode` gives it. -/
theorem writtenWords : Obligations.WrittenWords := by
  refine ⟨decode_encode ?_ ?_, decode_encode ?_ ?_, decode_encode ?_ ?_, decode_encode ?_ ?_, decode_encode ?_ ?_,
    decode_encode ?_ ?_, decode_encode ?_ ?_, decode_encode ?_ ?_, decode_encode ?_ ?_, decode_encode ?_ ?_,
    decode_encode ?_ ?_, decode_encode ?_ ?_, decode_encode ?_ ?_, decode_encode ?_ ?_, decode_encode ?_ ?_,
    decode_encode ?_ ?_, decode_encode ?_ ?_, decode_encode ?_ ?_, decode_encode ?_ ?_, decode_encode ?_ ?_,
    decode_encode ?_ ?_, decode_encode ?_ ?_⟩
  all_goals decide

/-! ### Reset -/

/-- Every party of the reset state is its default. -/
theorem reset_parties (k : Nat) :
    State.reset.thread k = {} ∧ State.reset.tile k = {} ∧ State.reset.owner k = {} ∧ State.reset.die k = {} :=
  ⟨rfl, rfl, rfl, rfl⟩

theorem errWord_zero : errWord 0 0 = 0 := by decide

theorem controlWord_default : controlWord {} = 0 := by decide

/-- Settles O56: memory and every map of the reset state are empty. -/
theorem resetState : Obligations.ResetState := by
  refine ⟨rfl, fun _ => rfl, fun _ => rfl, fun g r => ?_, fun g => ⟨rfl, rfl, controlWord_default, rfl, rfl, rfl, rfl⟩, fun g k => ?_,
    fun g k => ?_, fun T => ⟨rfl, rfl, rfl, fun b => ?_⟩, fun o => ⟨rfl, errWord_zero, rfl⟩, fun d => ⟨rfl, rfl, rfl⟩, rfl, rfl,
    rfl, rfl, rfl⟩
  · rw [(reset_parties g).1]
    simp [Thread.reg]
  · rw [(reset_parties g).1]
    simp
  · rw [(reset_parties g).1]
    simp
  · rw [(reset_parties T).2.1]
    simp

/-! ### Register fields (R33) -/

section
variable {s : State} {g : Nat} {n : RegNum}

theorem srcField_zero : srcField s g 0 = .ok .zero := rfl
theorem dstField_zero : dstField s g 0 = .ok .none := rfl

/-- g1 to g31 as a source and as a destination: the physical register under rotation (R82). -/
theorem field_general (h1 : 1 ≤ n.toNat) (h2 : n.toNat < 32) :
    srcField s g n = .ok (.reg (physReg (s.thread g).rb n)) ∧ dstField s g n = .ok (.reg (physReg (s.thread g).rb n)) := by
  simp only [srcField, dstField, if_neg (show ¬ n.toNat = 0 by omega), if_pos h2, and_self]

/-- g16 to g23 rotate by the base (R82). -/
theorem physReg_val (rb : BitVec 3) (h : n.toNat < 32) :
    (physReg rb n).val = if 16 ≤ n.toNat ∧ n.toNat < 24 then 16 + (n.toNat - 16 + rb.toNat) % 8 else n.toNat := by
  unfold physReg
  dsimp only
  split
  · rfl
  · exact Nat.mod_eq_of_lt h

/-- i0 to i15 are read only. -/
theorem field_identity (h : 48 ≤ n.toNat) :
    srcField s g n = .ok (.ident ⟨n.toNat % 16, by omega⟩) ∧ dstField s g n = .error (illegalOperand n) := by
  simp only [srcField, dstField, if_neg (show ¬ n.toNat = 0 by omega), if_neg (show ¬ n.toNat < 32 by omega),
    if_neg (show ¬ n.toNat < 36 by omega), if_neg (show ¬ n.toNat = 40 by omega), if_neg (show ¬ n.toNat < 48 by omega),
    if_neg (show ¬ (36 ≤ n.toNat ∧ n.toNat < 40) by omega), if_neg (show ¬ n.toNat = 41 by omega), and_self]

/-- What an identity register reads: i5 the completed pauses (R320), the others the thread's own words. -/
theorem identity_ids (s : State) (t : Thread) (h : 48 ≤ n.toNat) :
    identity s t ⟨n.toNat % 16, by omega⟩ =
      if n.toNat = 53 then BitVec.ofNat 64 s.epochs else t.ids.toList.getD (n.toNat - 48) 0 := by
  have hmod : n.toNat % 16 = n.toNat - 48 := by omega
  have hfive : ((⟨n.toNat % 16, by omega⟩ : Fin 16) = 5) ↔ n.toNat = 53 := by
    rw [Fin.ext_iff]
    exact ⟨fun e => by change n.toNat % 16 = 5 at e; omega, fun e => by change n.toNat % 16 = 5; omega⟩
  simp only [identity, hfive]
  split
  · rfl
  · simp [hmod, List.getD, show n.toNat - 48 < 16 by omega]

/-- q0 to q3, the inbound chain queues (R174). -/
theorem field_inbound (h1 : 32 ≤ n.toNat) (h2 : n.toNat < 36) :
    srcField s g n = (if (neighbour (tileOf g) (n.toNat - 32)).isSome then .ok (.queue (n.toNat - 32))
      else .error (illegalOperand n)) ∧ dstField s g n = .error (illegalOperand n) := by
  simp only [srcField, dstField, if_neg (show ¬ n.toNat = 0 by omega), if_neg (show ¬ n.toNat < 32 by omega), if_pos h2,
    if_neg (show ¬ (36 ≤ n.toNat ∧ n.toNat < 40) by omega), if_neg (show ¬ n.toNat = 41 by omega), and_self]

/-- q4 to q7, the outbound chain queues (R174). -/
theorem field_outbound (h1 : 36 ≤ n.toNat) (h2 : n.toNat < 40) :
    srcField s g n = .error (illegalOperand n) ∧
      dstField s g n = if (neighbour (tileOf g) (n.toNat - 36)).isSome then .ok (.chain ⟨(n.toNat - 36) % 4, by omega⟩)
        else .error (illegalOperand n) := by
  simp only [srcField, dstField, if_neg (show ¬ n.toNat = 0 by omega), if_neg (show ¬ n.toNat < 32 by omega),
    if_neg (show ¬ n.toNat < 36 by omega), if_neg (show ¬ n.toNat = 40 by omega), if_pos (show n.toNat < 48 by omega),
    if_pos (And.intro h1 h2), and_self]

/-- q8 and q9, the actor channels (R176), and the numbers that name nothing. -/
theorem field_actor (h1 : 40 ≤ n.toNat) (h2 : n.toNat < 48) :
    srcField s g n = (if n.toNat = 40 ∧ (s.core (coreOf g)).inb.isSome then .ok (.queue 4) else .error (illegalOperand n)) ∧
      dstField s g n = if n.toNat = 41 ∧ (s.core (coreOf g)).outb.isSome then .ok .actor else .error (illegalOperand n) := by
  simp only [srcField, dstField, if_neg (show ¬ n.toNat = 0 by omega), if_neg (show ¬ n.toNat < 32 by omega),
    if_neg (show ¬ n.toNat < 36 by omega), if_pos h2, if_neg (show ¬ (36 ≤ n.toNat ∧ n.toNat < 40) by omega)]
  constructor
  · by_cases h : n.toNat = 40 <;> simp [h]
  · by_cases h : n.toNat = 41 <;> simp [h]

end

/-- Settles O57: the field's number decides what it names. -/
theorem registerFields : Obligations.RegisterFields := by
  intro s g n t rb k c illegal reads
  refine ⟨?_, fun r h1 h2 hr => ?_, fun h => ?_, fun h1 h2 => ?_, fun h1 h2 => ?_, fun h => ?_, fun h => ?_, fun h1 h2 => ?_⟩
  · rintro rfl
    exact ⟨⟨_, srcField_zero, rfl⟩, dstField_zero, fun _ _ => rfl⟩
  · obtain ⟨hs, hd⟩ := field_general (s := s) (g := g) h1 h2
    have hphys : physReg (s.thread g).rb n = r := Fin.ext ((physReg_val _ h2).trans hr.symm)
    rw [hphys] at hs hd
    exact ⟨⟨_, hs, rfl⟩, hd⟩
  · obtain ⟨hs, hd⟩ := field_identity (s := s) (g := g) h
    refine ⟨⟨_, hs, ?_⟩, hd⟩
    exact congrArg (· :: []) (identity_ids s (s.thread g) h)
  · obtain ⟨hs, hd⟩ := field_inbound (s := s) (g := g) h1 h2
    refine ⟨hd, fun hn => ⟨_, hs.trans (if_pos hn), rfl⟩, fun hn => ?_⟩
    exact hs.trans (if_neg (by simp [k] at hn; simp [hn]))
  · obtain ⟨hs, hd⟩ := field_outbound (s := s) (g := g) h1 h2
    refine ⟨hs, fun d hk hn => ?_, fun hn => ?_⟩
    · have hd' : n.toNat - 36 = d.val := by omega
      refine hd.trans ((if_pos (hd' ▸ hn)).trans ?_)
      exact congrArg (fun x => Except.ok (Dst.chain x)) (Fin.ext (show (n.toNat - 36) % 4 = d.val by omega))
    · exact hd.trans (if_neg (by simp [k] at hn; simp [hn]))
  · obtain ⟨hs, hd⟩ := field_actor (s := s) (g := g) (n := n) (by omega) (by omega)
    refine ⟨hd.trans (if_neg (by omega)), fun hb => ⟨_, hs.trans (if_pos ⟨h, hb⟩), rfl⟩, fun hb => ?_⟩
    exact hs.trans (if_neg (by simp [c] at hb; simp [hb]))
  · obtain ⟨hs, hd⟩ := field_actor (s := s) (g := g) (n := n) (by omega) (by omega)
    refine ⟨hs.trans (if_neg (by omega)), fun hb => hd.trans (if_pos ⟨h, hb⟩), fun hb => ?_⟩
    exact hd.trans (if_neg (by simp [c] at hb; simp [hb]))
  · obtain ⟨hs, hd⟩ := field_actor (s := s) (g := g) (n := n) (by omega) (by omega)
    exact ⟨hs.trans (if_neg (by omega)), hd.trans (if_neg (by omega))⟩

end Sys2Proof.Machine
end

section
/-! PROOFS. What a step does: the turn of a thread, the barrel's choice, an event of the agenda. -/

namespace Sys2Proof.Machine

open Host (Outcome)

section
variable {s u : State} {g T : Nat} {m : Move} {l : List Move} {ln : BitVec 512} {i : Instr}

theorem step_move (h : s.agenda = m :: l) : step s = doMove { s with agenda := l } m := by
  simp only [step, advance, h]

theorem step_barrel (h : s.agenda = []) : step s = barrel s s.focus := by
  simp only [step, advance, h]

theorem turnState_cur : (turnState s g).cur = g := rfl

/-- A thread that stands at a head which decodes runs the instruction. -/
theorem runThread_decoded (hl : (s.thread g).line = some ln) (hi : lineInstr ln (headIdx (s.thread g).pc) = .ok i) :
    runThread s g = exec i { s with cur := g } := by
  have hl' : (State.thread { s with cur := g } g).line = some ln := hl
  have hi' : lineInstr ln (headIdx (State.thread { s with cur := g } g).pc) = .ok i := hi
  simp only [runThread, hl', hi']

theorem moveThread_turn (h : myTurn (turnState s g) g = true) :
    moveThread s g = afterTurn g (runThread (turnState s g) g) := if_pos h

/-- A turn that is next runs the instruction at the thread's head. -/
theorem moveThread_decoded (h : myTurn (turnState s g) g = true) (hl : ((turnState s g).thread g).line = some ln)
    (hi : lineInstr ln (headIdx ((turnState s g).thread g).pc) = .ok i) :
    moveThread s g = afterTurn g (exec i (turnState s g)) := by
  rw [moveThread_turn h, runThread_decoded hl hi]
  rfl

/-- The thread that the barrel has chosen takes its turn where no thread of another core comes first. -/
theorem barrelThread_turn (h : myTurn (turnState s g) g = true) : barrelThread s g = moveThread s g := by
  have hr : rival (turnState s g) g = none := by
    simpa using (Bool.and_eq_true_iff.mp h).2
  simp only [barrelThread, hr]

/-- An open core's barrel gives the turn to the slot it chooses. -/
theorem barrel_slot {c k : Nat} (ho : tileClosed s (c / 4) = false)
    (hk : barrelSlot (settleSlots s c) c ((settleSlots s c).core c).clock = some k) :
    barrel s c = barrelThread (settleSlots s c) (8 * c + k) := by
  simp only [barrel, ho, hk, Bool.false_eq_true, if_false]

theorem moveEvent_next (h : heldAt s i = none) (hu : exec i s = .next u) :
    moveEvent s i = .next (settleOwners (releaseHeld u)) := by
  simp only [moveEvent, h, hu]

theorem moveEvent_held (h : heldAt s i = some T) : moveEvent s i = .next (holdEvent s T i) := by
  simp only [moveEvent, h]

theorem doMove_event (h : encode i = none) : doMove s (.event i) = moveEvent s i := by
  simp only [doMove, Instr.isEvent, h, Option.isNone_none, if_true]

end

/-- Settles O54: the agenda's head, or the barrel of the focused core, decides whose turn runs. -/
theorem stepRunsDecoded : Obligations.StepRunsDecoded := by
  intro s i l s'
  refine ⟨fun g ln ha ht hl hi => ?_, fun k ln ha ho hk ht hl hi => ?_, fun ha he => ⟨fun hh u hu => ?_, fun T hT => ?_⟩⟩
  · rw [step_move ha]
    exact moveThread_decoded ht hl hi
  · rw [step_barrel ha, barrel_slot ho hk, barrelThread_turn ht]
    exact moveThread_decoded ht hl hi
  · rw [step_move ha, doMove_event he]
    exact moveEvent_next hh hu
  · rw [step_move ha, doMove_event he]
    exact moveEvent_held hT

end Sys2Proof.Machine
end

section
/-! PROOFS. System class (spec/17 R335 to R351): the system registers, the stops that they raise, and the traps of `brk` and
`fail`. -/

namespace Sys2Proof.Machine

open Sys2Proof.Claims

/-! ### System registers -/

/-- `rdsys` of a register that is there gives it (R351). -/
theorem rdsys_gives {s : State} {st : Stall} {d : RegNum} {o : Opnds} {i : BitVec 14} {v : Word} (h : Ready s [] [d] o)
    (hv : sysReg (issuer s) i.toNat = some v) : Gives s (.rdsys st d i) st 4 o v := by
  refine acts_ok (pair := false) (f := fun s c => match sysReg (s.thread s.cur) i.toNat with
    | none => .error (illegalIndex i.toNat)
    | some v => compute s s.cur c st 4 [] d fun _ => .ok v) rfl ?_
  rw [landed_cur, show (landed s).thread s.cur = issuer s from rfl]
  simp only [hv]
  exact compute_ok (f := fun _ => .ok v) h rfl

/-- `wrsys` of a register that may be written writes it (R351). -/
theorem wrsys_writes {s : State} {st : Stall} {a : RegNum} {o : Opnds} {i : BitVec 14} {f : Word → Thread → Thread}
    (h : Ready s [a] [] o) (hf : ∀ t v, sysWrite t i.toNat v = some (f v t)) :
    Completes s (.wrsys st a i) st ((consume (landed s) s.cur o.srcs).modThread s.cur (f (o.v 0))) none := by
  refine acts_ok (pair := false) (f := fun s c => do
    let g := s.cur
    if (sysWrite (s.thread g) i.toNat 0).isNone then throw (illegalIndex i.toNat)
    let o ← operands s g [a] []
    let s := (consume s g o.srcs).modThread g fun t => (sysWrite t i.toNat (o.v 0)).getD t
    return retire s g c st false none) rfl ?_
  rw [landed_cur]
  simp only [hf, Option.isNone_some, Bool.false_eq_true, if_false, Option.getD_some,
    show operands (landed s) s.cur [a] [] = .ok o from h]
  rfl

/-- `hret` in a handler returns to the saved pc (R344). -/
theorem hret_returns {s : State} {st : Stall} (h : (issuer s).inh = true) :
    Completes s (.hret st) st ((landed s).modThread s.cur fun t => { t with inh := false }) (some (issuer s).trapPc) := by
  refine acts_ok (pair := false) (f := fun s c =>
    if !(s.thread s.cur).inh then .error illegalInstr
    else .ok (retire (s.modThread s.cur fun t => { t with inh := false }) s.cur c st false
      (some (s.thread s.cur).trapPc))) rfl ?_
  refine if_neg ?_
  rw [landed_cur, show (landed s).thread s.cur = issuer s from rfl, h]
  simp

/-- Settles O33: one lemma per form, and each register of R339 by its index. -/
theorem systemInstructions : Obligations.SystemInstructions := by
  intro s st a d o t T w
  refine ⟨fun k => ?_, fun h => ⟨?_, ?_, ?_, ?_, ?_, ?_, fun p hp => ?_⟩, fun h => ⟨?_, ?_, ?_, ?_, ?_⟩, hret_returns⟩
  · exact acts_always (fun s c => retire (s.modThread s.cur fun t => { t with hint := k }) s.cur c st false none) rfl
  · exact gives_of (f := fun s _ => .ok (s.tile (tileOf s.cur)).ballast) rfl h rfl
  · exact gives_of (f := fun s _ => .ok (s.tile (tileOf s.cur)).stagger) rfl h rfl
  · exact gives_of
      (f := fun s _ => .ok (BitVec.ofNat 32 s.epochs ++ BitVec.ofNat 32 (s.timebase - s.lastResume) : Word)) rfl h rfl
  · exact gives_of (f := fun s _ => .ok (BitVec.ofNat 64 (s.thread s.cur).paused)) rfl h rfl
  · exact gives_of (f := fun s _ => .ok (errWord (s.thread s.cur).data (s.thread s.cur).misuse)) rfl h rfl
  · exact gives_of (f := fun s _ => .ok (errWord (s.owner (s.thread s.cur).owner).data
      (s.owner (s.thread s.cur).owner).misuse)) rfl h rfl
  · simp only [List.mem_cons, List.not_mem_nil, or_false] at hp
    rcases hp with rfl | rfl | rfl | rfl | rfl | rfl | rfl | rfl | rfl | rfl
    all_goals exact rdsys_gives h rfl
  · exact acts_operands (u := fun s c o => retire ((consume s s.cur o.srcs).modThread s.cur fun t => { t with handler := o.v 0 })
      s.cur c st false none) h rfl
  · exact wrsys_writes (f := fun v t => { t with handler := v }) h fun _ _ => rfl
  · exact wrsys_writes (f := fun v t => { t with dz := v.getLsbD 1, sb := v.getLsbD 0 }) h fun _ _ => rfl
  · exact wrsys_writes (f := fun v t => { t with trapPc := v }) h fun _ _ => rfl
  · exact wrsys_writes (f := fun v t => { t with seed := v }) h fun _ _ => rfl

/-! ### Stops of the class (R50, R344, R349) -/

/-- A meaning that stops with an owner trap other than `brk`'s takes it at its pc (R345). -/
theorem acts_ownerTrap {s : State} {i : Instr} {f : State → Nat → Except Stop State} {cause sub : Nat} {info : Word}
    (hi : exec i s = runInstr s s.cur false f) (h : f (landed s) (clockOf s) = .error (.owner cause sub info))
    (hc : cause ≠ 9) : Acts s i (ownerTrap (landed s) s.cur cause sub info (issuer s).pc) := by
  have := stops_err hi h
  simp only [applyStop, if_neg hc] at this
  exact this

/-- Only registers 0 to 9 are there (R339). -/
theorem sysReg_absent {t : Thread} {i : Nat} (h : 10 ≤ i) : sysReg t i = none := by
  obtain ⟨k, rfl⟩ := Nat.exists_eq_add_of_le' h
  rfl

/-- Only registers 0, 1, 2 and 6 may be written (R340, R349). -/
theorem sysWrite_refused {t : Thread} {i : Nat} {v : Word} (h : i ∉ [0, 1, 2, 6]) : sysWrite t i v = none := by
  simp only [List.mem_cons, List.not_mem_nil, or_false, not_or] at h
  unfold sysWrite
  split <;> simp_all

theorem reservedTraps : ReservedTraps := fun _ h =>
  acts_ownerTrap (i := .reservedHead h) (f := fun _ _ => .error illegalInstr) rfl rfl (by decide)

theorem systemStops : SystemStops := by
  intro s st a d i
  refine ⟨fun h => ?_, fun h => ?_, fun h => ?_⟩
  · refine acts_ownerTrap (f := fun s c => match sysReg (s.thread s.cur) i.toNat with
      | none => .error (illegalIndex i.toNat)
      | some v => compute s s.cur c st 4 [] d fun _ => .ok v) rfl ?_ (by decide)
    simp only [sysReg_absent h]
    rfl
  · refine acts_ownerTrap (f := fun s c => do
      let g := s.cur
      if (sysWrite (s.thread g) i.toNat 0).isNone then throw (illegalIndex i.toNat)
      let o ← operands s g [a] []
      let s := (consume s g o.srcs).modThread g fun t => (sysWrite t i.toNat (o.v 0)).getD t
      return retire s g c st false none) rfl ?_ (by decide)
    simp only [sysWrite_refused h]
    rfl
  · refine acts_ownerTrap (f := fun s c =>
      if !(s.thread s.cur).inh then .error illegalInstr
      else .ok (retire (s.modThread s.cur fun t => { t with inh := false }) s.cur c st false
        (some (s.thread s.cur).trapPc))) rfl ?_ (by decide)
    refine if_pos ?_
    rw [landed_cur, show (landed s).thread s.cur = issuer s from rfl, h]
    rfl

/-- Settles O34. -/
theorem systemTraps : Obligations.SystemTraps := ⟨reservedTraps, systemStops⟩

/-! ### Numbers in bytes -/

@[simp] theorem bytesOfNat_length (n v : Nat) : (bytesOfNat n v).length = n := by
  induction n generalizing v with
  | zero => rfl
  | succ n ih => rw [bytesOfNat, List.length_cons, ih]

theorem natOfBytes_bytesOfNat (n v : Nat) : natOfBytes (bytesOfNat n v) = v % 256 ^ n := by
  induction n generalizing v with
  | zero => simp [bytesOfNat, natOfBytes, Nat.mod_one]
  | succ n ih => rw [bytesOfNat, natOfBytes, ih, BitVec.toNat_ofNat, show 256 ^ (n + 1) = 256 * 256 ^ n from Nat.pow_succ', Nat.mod_mul]

/-- Fields of given sizes, one behind the other. -/
def fieldBytes (l : List (Nat × Nat)) : List Byte := l.flatMap fun p => bytesOfNat p.1 p.2

theorem fieldBytes_length (l : List (Nat × Nat)) : (fieldBytes l).length = (l.map Prod.fst).sum := by
  induction l with
  | nil => rfl
  | cons p l ih =>
    rw [fieldBytes, List.flatMap_cons, List.length_append, bytesOfNat_length, List.map_cons, List.sum_cons, ← ih]
    rfl

/-- Field `i` reads back behind those before it. -/
theorem pkField_fields {l : List (Nat × Nat)} (i : Nat) {k n v : Nat} (h : l[i]? = some (n, v))
    (hk : ((l.take i).map Prod.fst).sum = k) : pkField (fieldBytes l) k n = v % 256 ^ n := by
  obtain ⟨hi, hv⟩ := List.getElem?_eq_some_iff.mp h
  have hl : fieldBytes l = fieldBytes (l.take i) ++ (bytesOfNat n v ++ fieldBytes (l.drop (i + 1))) := by
    conv_lhs => rw [← List.take_append_drop i l, List.drop_eq_getElem_cons hi, hv]
    simp [fieldBytes]
  rw [pkField, hl, ← hk, ← fieldBytes_length, List.drop_left, List.take_append_of_le_length (by simp),
    List.take_of_length_le (by simp), natOfBytes_bytesOfNat]

theorem pkWord_fields {l : List (Nat × Nat)} (i : Nat) {k : Nat} {v : Word} (h : l[i]? = some (8, v.toNat))
    (hk : ((l.take i).map Prod.fst).sum = k) : pkWord (fieldBytes l) k = v := by
  rw [pkWord, pkField_fields i h hk, Nat.mod_eq_of_lt (show v.toNat < 256 ^ 8 from v.isLt), BitVec.ofNat_toNat,
    BitVec.setWidth_eq]

/-! ### The trap record (R346) -/

/-- The fields of a trap record. -/
structure RecordHolds (s : State) (t : Thread) (k : Nat) (i p q : Word) (b : List Byte) : Prop where
  length : b.length = 64
  pc : pkWord b 0 = p
  resume : pkWord b 8 = q
  info : pkWord b 16 = i
  id : pkField b 24 4 = t.id % 2 ^ 32
  cause : pkField b 32 1 = k % 256
  sub : pkField b 33 1 = 0
  fatal : pkField b 34 1 = if trapFatal k then 1 else 0
  epoch : pkField b 36 4 = s.epochs % 2 ^ 32
  time : pkField b 40 8 = s.timebase % 2 ^ 64

theorem trapBytes_fields (s : State) (t : Thread) (cause : Nat) (info pc resume : Word) (head : BitVec 16) :
    trapBytes s t cause 0 info pc resume head =
      fieldBytes [(8, pc.toNat), (8, resume.toNat), (8, info.toNat), (4, t.id), (4, t.ids[6].toNat), (1, cause), (1, 0),
        (1, if trapFatal cause then 1 else 0), (1, 0), (4, s.epochs), (8, s.timebase), (2, head.toNat), (14, 0)] := by
  simp [trapBytes, fieldBytes]

theorem trapBytes_holds (s : State) (t : Thread) (cause : Nat) (info pc resume : Word) (head : BitVec 16) :
    RecordHolds s t cause info pc resume (trapBytes s t cause 0 info pc resume head) := by
  rw [trapBytes_fields]
  refine ⟨by simp [fieldBytes_length], pkWord_fields 0 rfl rfl, pkWord_fields 1 rfl rfl, pkWord_fields 2 rfl rfl,
    pkField_fields 3 rfl rfl, pkField_fields 5 rfl rfl, (pkField_fields 6 rfl rfl).trans (Nat.zero_mod _), (pkField_fields 7 rfl rfl).trans ?_,
    pkField_fields 9 rfl rfl, pkField_fields 10 rfl rfl⟩
  split <;> rfl

/-! ### Posting a record (R347, R348) -/

/-- The trap queues of the owners and the logs of the dies stand, and a launch keeps its first error code. -/
structure QueuesStand (s u : State) : Prop where
  tail : ∀ o, (u.owner o).tqTail = (s.owner o).tqTail
  head : ∀ o, (u.owner o).tqHead = (s.owner o).tqHead
  recs : ∀ o, (u.owner o).tqRecs = (s.owner o).tqRecs
  held : ∀ o, (u.owner o).tqHeld = (s.owner o).tqHeld
  esc : ∀ o, (u.owner o).tqEsc = (s.owner o).tqEsc
  log : ∀ d, (u.die d).log = (s.die d).log
  error : ∀ k, (s.launch k).error ≠ 0 → (u.launch k).error = (s.launch k).error

namespace QueuesStand

theorem refl (s : State) : QueuesStand s s := ⟨fun _ => rfl, fun _ => rfl, fun _ => rfl, fun _ => rfl, fun _ => rfl, fun _ => rfl, fun _ _ => rfl⟩

theorem trans {s u v : State} (h : QueuesStand s u) (h' : QueuesStand u v) : QueuesStand s v where
  tail o := (h'.tail o).trans (h.tail o)
  head o := (h'.head o).trans (h.head o)
  recs o := (h'.recs o).trans (h.recs o)
  held o := (h'.held o).trans (h.held o)
  esc o := (h'.esc o).trans (h.esc o)
  log d := (h'.log d).trans (h.log d)
  error k hk := (h'.error k (by rwa [h.error k hk])).trans (h.error k hk)

/-- What leaves owners, dies and launches as they are. -/
theorem of_eq {s u : State} (ho : u.owners = s.owners) (hd : u.dies = s.dies) (hl : u.launches = s.launches) :
    QueuesStand s u := by
  have howner : ∀ o, u.owner o = s.owner o := fun o => by simp only [State.owner, ho]
  exact ⟨fun o => by rw [howner], fun o => by rw [howner], fun o => by rw [howner], fun o => by rw [howner],
    fun o => by rw [howner], fun d => by simp only [State.die, hd], fun k _ => by simp only [State.launch, hl]⟩

/-- A change of an owner that leaves its queue. -/
theorem modOwner {s : State} {o : Nat} {f : Owner → Owner}
    (h : ∀ x, (f x).tqTail = x.tqTail ∧ (f x).tqHead = x.tqHead ∧ (f x).tqRecs = x.tqRecs ∧ (f x).tqHeld = x.tqHeld ∧
      (f x).tqEsc = x.tqEsc) : QueuesStand s (s.modOwner o f) := by
  have hat : ∀ k, (s.modOwner o f).owner k = if k = o then f (s.owner o) else s.owner k := by
    intro k
    split
    · next hk => rw [hk, State.owner_mod]
    · next hk => exact State.owner_mod_other s o k f hk
  refine ⟨fun k => ?_, fun k => ?_, fun k => ?_, fun k => ?_, fun k => ?_, fun _ => rfl, fun _ _ => rfl⟩
  all_goals
    rw [hat]
    split
    · next hk => simp [hk, h]
    · rfl

/-- A launch keeps its first error. -/
theorem launchError (s : State) (lk code : Nat) : QueuesStand s (launchError s lk code) := by
  unfold Machine.launchError
  split
  · next l hl =>
    split
    · next he =>
      refine ⟨fun _ => rfl, fun _ => rfl, fun _ => rfl, fun _ => rfl, fun _ => rfl, fun _ => rfl, fun k hk => ?_⟩
      rw [State.launch_set_other]
      rintro rfl
      simp [State.launch, hl, he] at hk
    · exact refl s
  · exact refl s

theorem ownerError (s : State) (o lk : Nat) : QueuesStand s (ownerError s o lk) :=
  (modOwner (f := fun x => { x with data := bump x.data }) fun _ => ⟨rfl, rfl, rfl, rfl, rfl⟩).trans (launchError _ lk 0x12)

theorem unitWrite (s : State) (key n data mask : Nat) : QueuesStand s (unitWrite s key n data mask) := by
  obtain ⟨m, q, h⟩ := unitWrite_cases s key n data mask
  rw [h]
  exact of_eq rfl rfl rfl

theorem unitWriteList (o lk n : Nat) (s : State) (p : Nat) (bs : List Byte) :
    QueuesStand s (unitWriteList s o lk p n bs) := by
  induction n generalizing s p bs with
  | zero => exact refl s
  | succ n ih =>
    unfold Machine.unitWriteList
    split
    · exact refl s
    · refine trans ?_ ((unitWrite _ _ _ _ _).trans (ih _ _ _))
      split
      · exact ownerError s o lk
      · exact refl s

theorem gateCount (s : State) (o key : Nat) : QueuesStand s (gateCount s o key) := by
  have hmisuse : ∀ u : State, QueuesStand u (misuseOwner u o) := fun u => modOwner fun _ => ⟨rfl, rfl, rfl, rfl, rfl⟩
  unfold Machine.gateCount
  split
  · exact refl s
  · next d _ =>
    refine trans ?_ (hmisuse _)
    refine ⟨fun _ => rfl, fun _ => rfl, fun _ => rfl, fun _ => rfl, fun _ => rfl, fun k => ?_, fun _ _ => rfl⟩
    by_cases hk : k = d
    · rw [hk, State.die_mod]
    · rw [State.die_mod_other s d k _ hk]
  · exact hmisuse s

theorem ownerWrite (s : State) (tag o lk : Nat) (a : Word) (bs : List Byte) : QueuesStand s (ownerWrite s tag o lk a bs) := by
  have hwalk : ∀ b : Bool, QueuesStand s (if b then Machine.ownerError s o lk else s) := by
    rintro (_ | _)
    · exact refl s
    · exact ownerError s o lk
  unfold Machine.ownerWrite
  refine (hwalk (walkBadFrom s a 4 (s.owner o).root.toNat)).trans ?_
  dsimp only
  generalize (if walkBadFrom s a 4 (s.owner o).root.toNat then Machine.ownerError s o lk else s) = u
  split
  · split
    · exact unitWriteList _ _ _ _ _ _
    · exact gateCount _ _ _
  · exact refl _

theorem tqMirror (s : State) (o : Nat) : QueuesStand s (tqMirror s o) := ownerWrite _ _ _ _ _ _

end QueuesStand

/-- Appending a record (R347). -/
theorem tqAppend_queue (s : State) (o : Nat) (r : TrapRec) :
    ((tqAppend s o r).owner o).tqRecs = (s.owner o).tqRecs ++ [r] ∧
      ((tqAppend s o r).owner o).tqTail = (s.owner o).tqTail + 1 ∧
      ∀ k, (s.launch k).error ≠ 0 → ((tqAppend s o r).launch k).error = (s.launch k).error := by
  unfold tqAppend
  have hw := QueuesStand.ownerWrite s o o (s.thread r.g).launch
    ((s.owner o).tq + 64 + BitVec.ofNat 64 ((s.owner o).tqTail % 256 * 64)) r.bytes
  set v := ownerWrite s o o (s.thread r.g).launch ((s.owner o).tq + 64 + BitVec.ofNat 64 ((s.owner o).tqTail % 256 * 64)) r.bytes
  have hm := QueuesStand.tqMirror (v.modOwner o fun x => { x with tqTail := x.tqTail + 1, tqRecs := x.tqRecs ++ [r] }) o
  refine ⟨?_, ?_, fun k hk => ?_⟩
  · rw [hm.recs, State.owner_mod, ← hw.recs]
  · rw [hm.tail, State.owner_mod, ← hw.tail]
  · have hv : (v.launch k).error = (s.launch k).error := hw.error k hk
    exact (hm.error k (by simpa [hv] using hk)).trans hv

/-- Posting a replayable record (R347): appended where the queue has room, else held. -/
theorem postTrap_replayable (s : State) (o : Nat) (r : TrapRec) (h : r.fatal = false) :
    if (s.owner o).tqTail - (s.owner o).tqHead < 248 ∧ (s.owner o).tqHeld = [] then
      ((postTrap s o r).owner o).tqRecs = (s.owner o).tqRecs ++ [r] ∧
        ((postTrap s o r).owner o).tqTail = (s.owner o).tqTail + 1
    else ((postTrap s o r).owner o).tqHeld = (s.owner o).tqHeld ++ [r] ∧
        ((postTrap s o r).owner o).tqTail = (s.owner o).tqTail := by
  have hm := QueuesStand.tqMirror (s.setOwner o { s.owner o with tqHeld := (s.owner o).tqHeld ++ [r] }) o
  unfold postTrap
  simp only [h, Bool.false_eq_true, if_false, List.isEmpty_iff]
  split
  · exact ⟨(tqAppend_queue s o r).1, (tqAppend_queue s o r).2.1⟩
  · exact ⟨by rw [hm.held, State.owner_set], by rw [hm.tail, State.owner_set]⟩

/-- Posting a fatal record (R348): appended where the queue has room, else escalated to the die's log. -/
theorem postTrap_fatal (s : State) (o : Nat) (r : TrapRec) (h : r.fatal = true) :
    if (s.owner o).tqTail - (s.owner o).tqHead < 256 then
      ((postTrap s o r).owner o).tqRecs = (s.owner o).tqRecs ++ [r] ∧
        ((postTrap s o r).owner o).tqTail = (s.owner o).tqTail + 1
    else ((postTrap s o r).die (dieOf (tileOf r.g))).log = (s.die (dieOf (tileOf r.g))).log ++ [r.bytes] ∧
        ((postTrap s o r).owner o).tqEsc = bump32 (s.owner o).tqEsc := by
  unfold postTrap
  simp only [h, if_true]
  split
  · exact ⟨(tqAppend_queue s o r).1, (tqAppend_queue s o r).2.1⟩
  · have he := QueuesStand.launchError (s.modDie (dieOf (tileOf r.g)) fun d => { d with log := d.log ++ [r.bytes] })
      (s.thread r.g).launch 0x30
    set v := launchError (s.modDie (dieOf (tileOf r.g)) fun d => { d with log := d.log ++ [r.bytes] })
      (s.thread r.g).launch 0x30
    have hm := QueuesStand.tqMirror (v.setOwner o { s.owner o with tqEsc := bump32 (s.owner o).tqEsc }) o
    refine ⟨(hm.log _).trans ((he.log _).trans ?_), ?_⟩
    · rw [State.die_mod]
    · exact (hm.esc o).trans (by rw [State.owner_set])

/-- A launch whose error is set keeps it whatever record is posted. -/
theorem postTrap_error (s : State) (o : Nat) (r : TrapRec) (k : Nat) (h : (s.launch k).error ≠ 0) :
    ((postTrap s o r).launch k).error = (s.launch k).error := by
  have hset : ∀ (u : State) x, (u.launch k).error = (s.launch k).error →
      ((tqMirror (u.setOwner o x) o).launch k).error = (s.launch k).error := fun u x hu =>
    ((QueuesStand.tqMirror (u.setOwner o x) o).error k (by simpa [hu] using h)).trans hu
  unfold postTrap
  dsimp only
  split
  · split
    · exact (tqAppend_queue s o r).2.2 k h
    · exact hset _ _ ((QueuesStand.launchError _ _ 0x30).error k h)
  · split
    · exact (tqAppend_queue s o r).2.2 k h
    · exact hset _ _ rfl

/-! ### Taking the trap (R345, R348) -/

theorem vacate_parties (s : State) (g : Nat) (out : Bool) (k : Nat) :
    (vacate s g out).thread k = s.thread k ∧ (vacate s g out).owner k = s.owner k ∧ (vacate s g out).die k = s.die k ∧
      (vacate s g out).launch k = s.launch k := by
  obtain ⟨c, h⟩ := vacate_cases s g out
  rw [h]
  exact ⟨rfl, rfl, rfl, rfl⟩

/-- The record that an owner trap posts for a thread (R346). -/
def trapRecord (s : State) (g cause sub : Nat) (info resume : Word) : TrapRec :=
  let t := { (s.thread g).capture with cut := false, port := none }
  { bytes := trapBytes s t cause sub info t.pc resume (trapHead t cause), fatal := trapFatal cause, g := g, resume := resume }

/-- A thread that an owner trap captures (R345). -/
def trapped (t : Thread) (status : Status) (resume : Option Word) : Thread :=
  { t.capture with cut := false, port := none, status := status, trapped := resume }

/-- A replayable trap holds the thread at its pc and posts its record (R345). -/
theorem captureOwner_replayable (s : State) (g sub : Nat) {cause : Nat} (info resume : Word) (h : trapFatal cause = false) :
    captureOwner s g cause sub info resume =
      vacate ((postTrap (landPushes s g) (s.thread g).owner (trapRecord (landPushes s g) g cause sub info resume)).setThread g
        (trapped (s.thread g) .ready (some resume))) g true :=
  if_neg (ne_true_of_eq_false h)

/-- A fatal trap ends the thread, with error 0x11 but for that of `fail`, and posts its record (R345). -/
theorem captureOwner_fatal (s : State) (g sub : Nat) {cause : Nat} (info resume : Word) (h : trapFatal cause = true) :
    captureOwner s g cause sub info resume =
      let v := postTrap (landPushes s g) (s.thread g).owner (trapRecord (landPushes s g) g cause sub info resume)
      vacate ((if cause = 10 then v else launchError v (s.thread g).launch 0x11).setThread g
        (trapped (s.thread g) .halting none)) g true :=
  if_pos h

/-- The trap of `fail` ends the thread and posts its record (R345, R351). -/
theorem captureOwner_fail (s : State) (g sub : Nat) (info resume : Word) :
    captureOwner s g 10 sub info resume =
      vacate ((postTrap (landPushes s g) (s.thread g).owner (trapRecord (landPushes s g) g 10 sub info resume)).setThread g
        (trapped (s.thread g) .halting none)) g true := by
  rw [captureOwner_fatal s g sub info resume rfl]
  simp only [if_true]

/-- A launch of the table takes the code where it has none. -/
theorem launchError_error {s : State} {lk code : Nat} (h : (mget s.launches lk).isSome = true) :
    ((launchError s lk code).launch lk).error = if (s.launch lk).error = 0 then code else (s.launch lk).error := by
  obtain ⟨l, hl⟩ := Option.isSome_iff_exists.mp h
  have hlaunch : s.launch lk = l := by simp [State.launch, hl]
  unfold launchError
  simp only [hl, hlaunch]
  split
  · rw [State.launch_set]
  · exact congrArg Launch.error hlaunch

/-- `brk` raises owner trap 9, its resume pc the successor (R351). -/
theorem brk_acts (s : State) (st : Stall) (code : BitVec 14) :
    Acts s (.brk st code) (ownerTrap (landed s) s.cur 9 0 (code.setWidth 64) (succOf (issuer s) false)) :=
  stops_err (pair := false) (f := fun _ _ => .error (.owner 9 0 (code.setWidth 64))) rfl rfl

/-- `fail` sets the launch's code and raises owner trap 10 (R351). -/
theorem fail_acts (s : State) (st : Stall) (code : BitVec 14) :
    Acts s (.fail st code) (ownerTrap (launchError (landed s) (issuer s).launch (0x01000000 + code.toNat)) s.cur 10 0
      (code.setWidth 64) (issuer s).pc) :=
  acts_ok (pair := false) (f := fun s _ => .ok (ownerTrap (launchError s (s.thread s.cur).launch (0x01000000 + code.toNat))
    s.cur 10 0 (code.setWidth 64) (s.thread s.cur).pc)) rfl rfl

theorem trapRecord_holds (s : State) (g cause : Nat) (info resume : Word) :
    RecordHolds s (s.thread g) cause info (s.thread g).pc resume (trapRecord s g cause 0 info resume).bytes := by
  obtain ⟨h1, h2, h3, h4, h5, h6, h7, h8, h9, h10⟩ := trapBytes_holds s
    { (s.thread g).capture with cut := false, port := none } cause info (s.thread g).pc resume
    (trapHead { (s.thread g).capture with cut := false, port := none } cause)
  exact ⟨h1, h2, h3, h4, h5, h6, h7, h8, h9, h10⟩

/-- What the thread, its owner, the dies and the launches are once a posted record's thread has left its slot. -/
theorem posted_parties (v : State) (g : Nat) (t : Thread) (c k : Nat) :
    let u := passTurn (vacate (v.setThread g t) g true) g c
    u.thread g = t ∧ u.owner k = v.owner k ∧ u.die k = v.die k ∧ u.launch k = v.launch k := by
  intro u
  obtain ⟨_, ho, hd, hl⟩ := vacate_parties (v.setThread g t) g true k
  exact ⟨(vacate_parties (v.setThread g t) g true g).1.trans (State.thread_set v g t), ho, hd, hl⟩

/-- Settles O36: the record is posted as `postTrap` says, and the launch's code, set before, is kept. -/
theorem ownerTrapEntry : Obligations.OwnerTrapEntry := by
  intro s st code t x holds
  have hholds : ∀ (u : State) cause resume, cause < 256 → u.thread s.cur = t → u.epochs = s.epochs →
      u.timebase = s.timebase → holds (trapRecord u s.cur cause 0 (code.setWidth 64) resume) cause resume := by
    intro u cause resume hc ht he hb
    have h := trapRecord_holds u s.cur cause (code.setWidth 64) resume
    rw [ht] at h
    exact ⟨rfl, rfl, rfl, h.length, h.pc, h.resume, h.info, h.id, h.cause.trans (Nat.mod_eq_of_lt hc), h.sub, h.fatal,
      he ▸ h.epoch, hb ▸ h.time⟩
  refine ⟨fun hv => ?_, fun hv => ?_⟩
  · have hacts := brk_acts s st code
    rw [ownerTrap, show vectorDone (landed s) s.cur = true from hv, if_pos rfl,
      captureOwner_replayable _ _ _ _ _ (by rfl)] at hacts
    obtain ⟨ht, ho, _, _⟩ := posted_parties (postTrap (landPushes (landed s) s.cur) ((landed s).thread s.cur).owner
      (trapRecord (landPushes (landed s) s.cur) s.cur 9 0 (code.setWidth 64) (succOf (issuer s) false))) s.cur
      (trapped ((landed s).thread s.cur) .ready (some (succOf (issuer s) false))) (clockOf s) t.owner
    refine ⟨_, hacts, congrArg Thread.status ht, congrArg Thread.trapped ht, (congrArg Thread.pc ht).trans rfl, _,
      hholds (landPushes (landed s) s.cur) 9 _ (by decide) rfl rfl rfl, ?_⟩
    rw [ho]
    exact postTrap_replayable (landPushes (landed s) s.cur) t.owner _ rfl
  · have hacts := fail_acts s st code
    obtain ⟨l, hl⟩ := launchError_cases (landed s) (issuer s).launch (0x01000000 + code.toNat)
    have herror : (mget s.launches t.launch).isSome = true → ((launchError (landed s) (issuer s).launch
        (0x01000000 + code.toNat)).launch t.launch).error =
        if (s.launch t.launch).error = 0 then 0x01000000 + code.toNat else (s.launch t.launch).error := launchError_error (s := landed s)
    rw [hl] at hacts herror
    generalize hu : ({ landed s with launches := l } : State) = u at hacts herror
    have hthread : u.thread s.cur = t := by rw [← hu]; rfl
    have howner : (landPushes u s.cur).owner t.owner = x := by rw [← hu]; rfl
    have hdie : ∀ d, (landPushes u s.cur).die d = s.die d := fun d => by rw [← hu]; rfl
    rw [ownerTrap, show vectorDone u s.cur = true by rw [← hu]; exact hv, if_pos rfl, captureOwner_fail, hthread] at hacts
    obtain ⟨ht, ho, hd, hl'⟩ := posted_parties (postTrap (landPushes u s.cur) t.owner
      (trapRecord (landPushes u s.cur) s.cur 10 0 (code.setWidth 64) (issuer s).pc)) s.cur (trapped t .halting none)
      (clockOf s) t.owner
    refine ⟨_, hacts, congrArg Thread.status ht, fun hm => ?_, _,
      hholds (landPushes u s.cur) 10 _ (by decide) hthread (by rw [← hu]; rfl) (by rw [← hu]; rfl), ?_⟩
    · refine Eq.trans ?_ (herror hm)
      rw [(posted_parties _ _ _ _ _).2.2.2]
      refine postTrap_error _ _ _ _ fun hz => ?_
      have hne := herror hm
      rw [show (u.launch t.launch).error = 0 from hz] at hne
      split at hne <;> omega
    · rw [ho, (posted_parties _ _ _ _ _).2.2.1, ← howner, ← hdie]
      exact postTrap_fatal (landPushes u s.cur) t.owner _ rfl

end Sys2Proof.Machine
end

section
/-! PROOFS. Reading operands and reserving destinations: what an instruction does to its thread's registers before it acts
(spec/03 R24, R34, R44; spec/17 R352), and what it leaves. -/

namespace Sys2Proof.Machine

open Sys2Proof.Claims

/-! ### Values on their way to a register (R44) -/

/-- The value of register `r` once the pending results of `l` have landed on `v`. -/
def landedVal (r : Fin 32) (l : List Pend) (v : Word) : Word := l.foldl (fun v p => if p.reg = r then p.val else v) v

theorem landedVal_cons (r : Fin 32) (p : Pend) (l : List Pend) (v : Word) :
    landedVal r (p :: l) v = landedVal r l (if p.reg = r then p.val else v) := rfl

theorem landedVal_append (r : Fin 32) (l l' : List Pend) (v : Word) :
    landedVal r (l ++ l') v = landedVal r l' (landedVal r l v) := List.foldl_append

theorem regs_set_val (regs : Vector GReg 32) (i r : Fin 32) (x : GReg) :
    ((regs.set i x)[r]).val = if i = r then x.val else (regs[r]).val := by
  by_cases h : i = r
  · simp [h]
  · have h' : i.val ≠ r.val := fun e => h (Fin.ext e)
    simp [h, h']

theorem landAllList_val (r : Fin 32) (l : List Pend) (regs : Vector GReg 32) :
    ((landAllList l regs)[r]).val = landedVal r l (regs[r]).val := by
  induction l generalizing regs with
  | nil => rfl
  | cons p l ih => rw [landAllList, ih, landedVal_cons, regs_set_val]

theorem landAll_val (t : Thread) (r : Fin 32) : ((t.landAll).reg r).val = landedVal r t.pend (t.reg r).val :=
  landAllList_val r t.pend t.regs

/-- Landing what is due leaves a register for which a result is held, and the results held for it. -/
theorem landList_held (c : Nat) (r : Fin 32) (l : List Pend) (held : List (Fin 32)) (regs : Vector GReg 32) (h : r ∈ held) :
    (landList c held l regs).2[r] = regs[r] ∧
      ∀ v, landedVal r (landList c held l regs).1 v = landedVal r l v := by
  induction l generalizing held regs with
  | nil => exact ⟨rfl, fun _ => rfl⟩
  | cons p l ih =>
    rw [landList]
    split
    · next hd =>
      have hne : p.reg ≠ r := fun e => hd.2 (e ▸ h)
      have hne' : p.reg.val ≠ r.val := fun e => hne (Fin.ext e)
      obtain ⟨h1, h2⟩ := ih held (regs.set p.reg { regs[p.reg] with val := p.val, bad := false }) h
      exact ⟨h1.trans (by simp [hne']), fun v => (h2 v).trans (by rw [landedVal_cons, if_neg hne])⟩
    · obtain ⟨h1, h2⟩ := ih (p.reg :: held) regs (List.mem_cons_of_mem _ h)
      exact ⟨h1, fun v => h2 _⟩

theorem landList_val (c : Nat) (r : Fin 32) (l : List Pend) (held : List (Fin 32)) (regs : Vector GReg 32) :
    landedVal r (landList c held l regs).1 ((landList c held l regs).2[r]).val = landedVal r l (regs[r]).val := by
  induction l generalizing held regs with
  | nil => rfl
  | cons p l ih =>
    rw [landList]
    split
    · rw [ih, landedVal_cons, regs_set_val]
    · rw [landedVal_cons, landedVal_cons]
      by_cases hp : p.reg = r
      · rw [if_pos hp, if_pos hp]
        exact (landList_held c r l (p.reg :: held) regs (hp ▸ List.mem_cons_self)).2 _
      · rw [if_neg hp, if_neg hp]
        exact ih _ _

theorem landList_bad (c : Nat) (l : List Pend) (held : List (Fin 32)) (regs : Vector GReg 32)
    (h : ∀ r : Fin 32, (regs[r]).bad = false) (r : Fin 32) : ((landList c held l regs).2[r]).bad = false := by
  induction l generalizing held regs with
  | nil => exact h r
  | cons p l ih =>
    rw [landList]
    split
    · refine ih _ _ fun i => ?_
      by_cases hi : p.reg = i
      · simp [hi]
      · have hi' : p.reg.val ≠ i.val := fun e => hi (Fin.ext e)
        simp only [Fin.getElem_fin, Vector.getElem_set, if_neg hi']
        exact h i
    · exact ih _ _ h

/-! ### The registers of a thread moved -/

/-- `t'` is `t` but for general registers and pending results, whose values are the same once these have landed, and no
register has become uncorrectable. -/
structure RegsMoved (t t' : Thread) : Prop where
  rest : ∃ regs pend, t' = { t with regs := regs, pend := pend }
  vals : ∀ r, ((t'.landAll).reg r).val = ((t.landAll).reg r).val
  bad : (∀ r, (t.reg r).bad = false) → ∀ r, (t'.reg r).bad = false

namespace RegsMoved

theorem refl (t : Thread) : RegsMoved t t := ⟨⟨_, _, rfl⟩, fun _ => rfl, fun h => h⟩

theorem trans {t t' t'' : Thread} (h : RegsMoved t t') (h' : RegsMoved t' t'') : RegsMoved t t'' := by
  refine ⟨?_, fun r => (h'.vals r).trans (h.vals r), fun hb => h'.bad (h.bad hb)⟩
  obtain ⟨_, _, h⟩ := h.rest
  obtain ⟨regs, pend, h'⟩ := h'.rest
  exact ⟨regs, pend, by rw [h', h]⟩

/-- Results that are due land (R44). -/
theorem land (t : Thread) (c : Nat) : RegsMoved t (t.land c) where
  rest := ⟨_, _, rfl⟩
  vals r := by
    rw [landAll_val, landAll_val]
    exact landList_val c r t.pend [] t.regs
  bad h := landList_bad c t.pend [] t.regs h

/-- A register whose value stays, and which does not become uncorrectable. -/
theorem setReg (t : Thread) (r : Fin 32) (x : GReg) (hv : x.val = (t.reg r).val) (hb : x.bad = (t.reg r).bad) :
    RegsMoved t (t.setReg r x) where
  rest := ⟨_, t.pend, rfl⟩
  vals i := by
    rw [landAll_val, landAll_val]
    refine congrArg (landedVal i t.pend) ((regs_set_val t.regs r i x).trans ?_)
    split
    · next h => rw [hv, h]
    · rfl
  bad h i := by
    show ((t.regs.set r x)[i]).bad = false
    by_cases hi : r = i
    · simp [← hi, hb, h]
    · have hi' : r.val ≠ i.val := fun e => hi (Fin.ext e)
      simp only [Fin.getElem_fin, Vector.getElem_set, if_neg hi']
      exact h i

theorem await (t : Thread) (r : Fin 32) : RegsMoved t (t.await r) :=
  setReg t r { t.reg r with full := false, remote := false, fill := true } rfl rfl

theorem withData {t t' : Thread} (h : RegsMoved t t') (d : BitVec 24) :
    RegsMoved { t with data := d } { t' with data := d } := by
  refine ⟨?_, h.vals, h.bad⟩
  obtain ⟨regs, pend, hr⟩ := h.rest
  exact ⟨regs, pend, by rw [hr]⟩

end RegsMoved

/-! ### Data errors (R352) -/

/-- The launches when an error code is set for one. -/
def errorLaunches (m : FMap Launch) (lk code : Nat) : FMap Launch :=
  match mget m lk with
  | some l => if l.error = 0 then mput m lk { l with error := code } else m
  | none => m

theorem launchError_eq (s : State) (lk code : Nat) :
    launchError s lk code = { s with launches := errorLaunches s.launches lk code } := by
  unfold launchError errorLaunches
  cases mget s.launches lk with
  | none => rfl
  | some l =>
    dsimp only
    split <;> rfl

/-- The owners when a data error is counted. -/
def errorOwners (m : FMap Owner) (o : Nat) : FMap Owner :=
  mput m o { (mget m o).getD {} with data := bump ((mget m o).getD {}).data }

/-- What a data error counts: the owner, the launch, and the thread while it is live. -/
theorem dataError_eq (s : State) (w : Who) :
    dataError s w =
      { s with
        owners := errorOwners s.owners w.owner
        launches := errorLaunches s.launches w.launch 0x12
        threads := if w.live s then mput s.threads w.g { s.thread w.g with data := bump (s.thread w.g).data }
          else s.threads } := by
  simp only [dataError, launchError_eq]
  show (if w.live s then _ else _) = _
  split <;> rfl

theorem dataError_thread_other (s : State) (w : Who) {j : Nat} (h : j ≠ w.g) : (dataError s w).thread j = s.thread j := by
  rw [dataError_eq]
  split
  · exact State.thread_set_other s w.g j _ h
  · rfl

theorem dataError_thread (s : State) (w : Who) :
    (dataError s w).thread w.g = if w.live s then { s.thread w.g with data := bump (s.thread w.g).data } else s.thread w.g := by
  rw [dataError_eq]
  split
  · exact State.thread_set s w.g _
  · rfl

theorem dataErrors_succ (s : State) (w : Who) (k : Nat) : dataErrors s w (k + 1) = dataError (dataErrors s w k) w := by
  induction k generalizing s with
  | zero => rfl
  | succ k ih => rw [dataErrors, ih, ← dataErrors]

theorem dataErrors_cases (s : State) (w : Who) (k : Nat) :
    ∃ t x l, dataErrors s w k = { s with threads := t, owners := x, launches := l } := by
  induction k with
  | zero => exact ⟨s.threads, s.owners, s.launches, rfl⟩
  | succ k ih =>
    obtain ⟨t, x, l, h⟩ := ih
    obtain ⟨t', x', l', h'⟩ := dataError_cases (dataErrors s w k) w
    exact ⟨t', x', l', by rw [dataErrors_succ, h', h]⟩

theorem dataErrors_thread (s : State) (w : Who) (k : Nat) :
    ∃ d, (dataErrors s w k).thread w.g = { s.thread w.g with data := d } := by
  induction k with
  | zero => exact ⟨_, rfl⟩
  | succ k ih =>
    obtain ⟨d, h⟩ := ih
    rw [dataErrors_succ, dataError_thread, h]
    split
    · exact ⟨_, rfl⟩
    · exact ⟨_, rfl⟩

/-! ### What operands read and reserve -/

/-- From `u` to `v` cores and operations on remote registers have changed, and of threads the registers of `g`. -/
structure Moved (u v : State) (g : Nat) : Prop where
  module : ∃ t c p, v = { u with threads := t, cores := c, rputs := p }
  others : ∀ j, j ≠ g → v.thread j = u.thread j
  own : RegsMoved (u.thread g) (v.thread g)

namespace Moved

theorem refl (s : State) (g : Nat) : Moved s s g := ⟨⟨s.threads, s.cores, s.rputs, rfl⟩, fun _ _ => rfl, .refl _⟩

theorem trans {s u v : State} {g : Nat} (h : Moved s u g) (h' : Moved u v g) : Moved s v g := by
  refine ⟨?_, fun j hj => (h'.others j hj).trans (h.others j hj), h.own.trans h'.own⟩
  obtain ⟨_, _, _, h⟩ := h.module
  obtain ⟨t, c, p, h'⟩ := h'.module
  exact ⟨t, c, p, by rw [h', h]⟩

theorem ofCores {s u : State} (g : Nat) (h : ∃ x, u = { s with cores := x }) : Moved s u g := by
  obtain ⟨x, rfl⟩ := h
  exact ⟨⟨s.threads, x, s.rputs, rfl⟩, fun _ _ => rfl, .refl _⟩

theorem ofRputs (s : State) (g : Nat) (p : List Rput) : Moved s { s with rputs := p } g :=
  ⟨⟨s.threads, s.cores, p, rfl⟩, fun _ _ => rfl, .refl _⟩

theorem setThread {s : State} {g : Nat} {t : Thread} (h : RegsMoved (s.thread g) t) : Moved s (s.setThread g t) g := by
  refine ⟨⟨_, s.cores, s.rputs, rfl⟩, fun j hj => State.thread_set_other s g j t hj, ?_⟩
  rwa [State.thread_set]

theorem modThread (s : State) (g : Nat) {f : Thread → Thread} (h : RegsMoved (s.thread g) (f (s.thread g))) :
    Moved s (s.modThread g f) g := setThread h

theorem foldl {α : Type} {g : Nat} (f : State → α → State) (h : ∀ u a, Moved u (f u a) g) (l : List α) (s : State) :
    Moved s (l.foldl f s) g := by
  induction l generalizing s with
  | nil => exact refl s g
  | cons a l ih => exact (h s a).trans (ih (f s a))

end Moved

/-- The thread that issues, its results that are due landed. -/
theorem landed_moved (s : State) : Moved s (landed s) s.cur := .modThread s s.cur (.land _ _)

/-- A destination is reserved (R131, R133). -/
theorem awaitDst_moved (s : State) (g : Nat) (d : Dst) (tag : Nat) : Moved s (awaitDst s g d tag) g := by
  unfold awaitDst
  split
  · exact .refl s g
  · exact (Moved.ofRputs s g _).trans (.modThread _ g ((RegsMoved.land _ _).trans (.await _ _)))
  · exact .ofCores g (queuePush_cases _ _ _ _)

/-- From `s` to `v` thread `g` has read operands and reserved destinations, and `k` uncorrectable registers have been
counted. -/
structure Reads (s v : State) (g k : Nat) : Prop where
  moved : Moved (dataErrors s (whoIn s g) k) v g
  none : (∀ r, ((s.thread g).reg r).bad = false) → k = 0

namespace Reads

theorem refl (s : State) (g : Nat) : Reads s s g 0 := ⟨.refl s g, fun _ => rfl⟩

theorem trans_moved {s u v : State} {g k : Nat} (h : Reads s u g k) (h' : Moved u v g) : Reads s v g k :=
  ⟨h.moved.trans h', h.none⟩

/-- What is read once registers have moved. -/
theorem of_moved {s u : State} {g : Nat} (h : Moved s u g) : Reads s u g 0 := ⟨h, fun _ => rfl⟩

section
variable {s u : State} {g k : Nat}

theorem thread (h : Reads s u g k) :
    ∃ regs pend data, u.thread g = { s.thread g with regs := regs, pend := pend, data := data } := by
  obtain ⟨regs, pend, hr⟩ := h.moved.own.rest
  obtain ⟨d, hd⟩ := dataErrors_thread s (whoIn s g) k
  rw [show (dataErrors s (whoIn s g) k).thread g = _ from hd] at hr
  exact ⟨regs, pend, d, hr⟩

theorem module (h : Reads s u g k) :
    ∃ t x l c p, u = { s with threads := t, owners := x, launches := l, cores := c, rputs := p } := by
  obtain ⟨t, c, p, hu⟩ := h.moved.module
  obtain ⟨_, x, l, hd⟩ := dataErrors_cases s (whoIn s g) k
  exact ⟨t, x, l, c, p, by rw [hu, hd]⟩

theorem who (h : Reads s u g k) : whoIn u g = whoIn s g := by
  obtain ⟨_, _, _, ht⟩ := h.thread
  simp only [whoIn, ht]

theorem live (h : Reads s u g k) : (whoIn s g).live u = (whoIn s g).live (dataErrors s (whoIn s g) k) := by
  obtain ⟨_, _, hr⟩ := h.moved.own.rest
  simp only [Who.live, Machine.live, show (whoIn s g).g = g from rfl, hr]

/-- No register has become uncorrectable. -/
theorem bad (h : Reads s u g k) (hs : ∀ r, ((s.thread g).reg r).bad = false) : ∀ r, ((u.thread g).reg r).bad = false := by
  refine h.moved.own.bad fun r => ?_
  obtain ⟨d, hd⟩ := dataErrors_thread s (whoIn s g) k
  rw [show (dataErrors s (whoIn s g) k).thread g = _ from hd]
  exact hs r

/-- An uncorrectable register is counted. -/
theorem error (h : Reads s u g k) {r : Fin 32} (hb : ((u.thread g).reg r).bad = true) :
    Reads s (dataError u (whoIn u g)) g (k + 1) := by
  rw [h.who]
  refine ⟨⟨?_, fun j hj => ?_, ?_⟩, fun hs => absurd hb (by simp [h.bad hs])⟩
  · obtain ⟨t, c, p, hu⟩ := h.moved.module
    rw [dataErrors_succ, dataError_eq u, dataError_eq (dataErrors s (whoIn s g) k), hu]
    exact ⟨_, c, p, rfl⟩
  · rw [dataError_thread_other _ _ hj, dataErrors_succ, dataError_thread_other _ _ hj, h.moved.others j hj]
  · have hu := dataError_thread u (whoIn s g)
    have hd := dataError_thread (dataErrors s (whoIn s g) k) (whoIn s g)
    rw [show (whoIn s g).g = g from rfl] at hu hd
    obtain ⟨regs, pend, hr⟩ := h.moved.own.rest
    rw [dataErrors_succ, hu, hd, h.live]
    split
    · have hdata : (u.thread g).data = ((dataErrors s (whoIn s g) k).thread g).data := (congrArg Thread.data hr).trans rfl
      rw [hdata]
      exact h.moved.own.withData _
    · exact h.moved.own

end

end Reads

/-- A register is read (R177, R352). -/
theorem Reads.readReg {s u : State} {g k : Nat} (h : Reads s u g k) (r : Fin 32) : ∃ k', Reads s (readReg u g r) g k' := by
  have hrest : ∀ v : State, Moved v (if ((v.thread g).reg r).remote then
      State.setThread { v with rputs := markRead g r v.rputs } g
        ((v.thread g).setReg r { (v.thread g).reg r with full := false, remote := false })
      else { v with rputs := markRead g r v.rputs }) g := by
    intro v
    refine (Moved.ofRputs v g (markRead g r v.rputs)).trans ?_
    split
    · exact .setThread (.setReg _ r _ rfl rfl)
    · exact .refl _ g
  unfold Machine.readReg countBad
  cases hb : ((u.thread g).reg r).bad with
  | false => exact ⟨k, h.trans_moved (hrest u)⟩
  | true => exact ⟨k + 1, (h.error hb).trans_moved (hrest _)⟩

theorem Reads.readRegs {s u : State} {g k : Nat} (hu : Reads s u g k) (ss : List Src) : ∃ k', Reads s (readRegs u g ss) g k' := by
  have h : ∀ (l : List (Fin 32)) (u : State) k, Reads s u g k →
      ∃ k, Reads s (l.foldl (fun s r => Machine.readReg s g r) u) g k := by
    intro l
    induction l with
    | nil => exact fun u k h => ⟨k, h⟩
    | cons a l ih =>
      intro u k h
      obtain ⟨k', h'⟩ := h.readReg a
      exact ih _ _ h'
  exact h _ u k hu

/-- The sources of an instruction are read. -/
theorem Reads.consume {s u : State} {g k : Nat} (hu : Reads s u g k) (ss : List Src) : ∃ k', Reads s (consume u g ss) g k' := by
  obtain ⟨k, h⟩ := hu.readRegs ss
  exact ⟨k, h.trans_moved (.ofCores g (foldl_cores _ (fun u a => queuePop_cases u _ a _) _ _))⟩

theorem consume_reads (s : State) (g : Nat) (ss : List Src) : ∃ k, Reads s (consume s g ss) g k := (Reads.refl s g).consume ss

/-- The sources of an instruction that may give them back are read. -/
theorem consumeKept_reads (s : State) (g : Nat) (ss : List Src) : ∃ k, Reads s (consumeKept s g ss) g k := by
  obtain ⟨k, h⟩ := (Reads.refl s g).readRegs ss
  exact ⟨k, h.trans_moved (.ofCores g (foldl_cores _ (fun u a => by split <;> exact ⟨_, rfl⟩) _ _))⟩

end Sys2Proof.Machine
end

section
/-! PROOFS. The instructions of the memory class and of the atomics: what sending an access does (spec/07 R120, R130, R131,
R136, R137, spec/09 R158 to R165), addresses, segments and waits (R138 to R145). -/

namespace Sys2Proof.Machine

open Sys2Proof.Claims

/-! ### Sending an access -/

theorem winBank_cases (s : State) (g c id key : Nat) :
    ∃ x y z, winBank s g c id key = { s with atBank := x, served := y, usedAt := z } := by
  unfold winBank
  split
  · exact ⟨_, _, _, rfl⟩
  · exact ⟨s.atBank, s.served, s.usedAt, rfl⟩

/-- The destination of one piece of an access is reserved: a register is emptied only by a relaxed one (R131, R133). -/
def reserve (q : MemAsk) (g id : Nat) (s : State) (p : Piece) : State :=
  match p.dst with
  | .reg _ => if q.relaxed then awaitDst s g p.dst id else s
  | d => awaitDst s g d id

theorem reserve_moved (q : MemAsk) (g id : Nat) (s : State) (p : Piece) : Moved s (reserve q g id s p) g := by
  unfold reserve
  split
  · split
    · exact awaitDst_moved s g _ id
    · exact .refl s g
  · exact awaitDst_moved s g _ id

/-- The state in which the operands of an access have been read and its destinations reserved. -/
def prepared (s : State) (g : Nat) (q : MemAsk) (o : Opnds) (pieces : List Piece) (ops : List (RegNum × Word)) : State :=
  pieces.foldl (reserve q g s.nextId) (if ops.isEmpty then consume s g o.srcs else consumeKept s g o.srcs)

theorem prepared_reads (s : State) (g : Nat) (q : MemAsk) (o : Opnds) (pieces : List Piece) (ops : List (RegNum × Word)) :
    ∃ k, Reads s (prepared s g q o pieces ops) g k := by
  have h : ∃ k, Reads s (if ops.isEmpty then consume s g o.srcs else consumeKept s g o.srcs) g k := by
    split
    · exact consume_reads s g o.srcs
    · exact consumeKept_reads s g o.srcs
  obtain ⟨k, h⟩ := h
  exact ⟨k, h.trans_moved (.foldl _ (reserve_moved q g s.nextId) pieces _)⟩

/-- The request of an access before it is sent. -/
def asked (s : State) (g c : Nat) (st : Stall) (q : MemAsk) (a : Word) (key : Nat) (acc : Access) (pieces : List Piece)
    (ops : List (RegNum × Word)) : Req :=
  { id := s.nextId, by_ := if q.relaxed then .relaxed else .ordinary, path := .thread, g := g
    serial := (s.thread g).serial, owner := (s.thread g).owner, launch := (s.thread g).launch, tile := tileOf g, key := key
    size := q.size, acc := acc, kcls := countClass s g a, pieces := pieces, addr := a, clock := c, stall := st
    pair := q.pair, ops := ops }

/-- The state in which an access has been sent. -/
def accessSent (s : State) (g c : Nat) (st : Stall) (q : MemAsk) (o : Opnds) (a : Word) (key : Nat) (acc : Access)
    (pieces : List Piece) (ops : List (RegNum × Word)) : State :=
  winBank (send (prepared s g q o pieces ops) (asked s g c st q a key acc pieces ops)) g c s.nextId key

theorem memIssue_eq (s : State) (g c : Nat) (st : Stall) (q : MemAsk) (o : Opnds) (a : Word) (key : Nat) (acc : Access)
    (pieces : List Piece) (ops : List (RegNum × Word)) :
    memIssue s g c st q o a key acc pieces ops =
      if q.relaxed then
        retire ((accessSent s g c st q o a key acc pieces ops).modThread g fun t => t.count (countClass s g a) true) g c st
          q.pair none
      else (accessSent s g c st q o a key acc pieces ops).modThread g fun t => { t with status := .parked (.access s.nextId) } :=
  rfl

section
variable {s : State} {i : Instr} {st : Stall} {q : MemAsk} {o : Opnds} {a : Word} {key : Nat} {acc : Access}
  {pieces : List Piece} {ops : List (RegNum × Word)}

/-- What is sent, and what sending it leaves. -/
theorem accessSent_sends (s : State) (st : Stall) (q : MemAsk) (o : Opnds) (a : Word) (key : Nat) (acc : Access)
    (pieces : List Piece) (ops : List (RegNum × Word)) :
    let v := accessSent (landed s) s.cur (clockOf s) st q o a key acc pieces ops
    v.traffic = s.traffic ++ [{ request s st q a key acc pieces with ops := ops }] ∧ v.nextId = s.nextId + 1 ∧
      v.mem = s.mem ∧ v.thread s.cur = (prepared (landed s) s.cur q o pieces ops).thread s.cur := by
  intro v
  obtain ⟨k, h⟩ := prepared_reads (landed s) s.cur q o pieces ops
  obtain ⟨t, x, l, c, p, hu⟩ := h.module
  obtain ⟨y, z, w, hw⟩ := winBank_cases (send (prepared (landed s) s.cur q o pieces ops)
    (asked (landed s) s.cur (clockOf s) st q a key acc pieces ops)) s.cur (clockOf s) s.nextId key
  have hv : v = _ := hw
  rw [hv, hu]
  exact ⟨rfl, rfl, rfl, rfl⟩

/-- The thread keeps its pc and its counts. -/
theorem prepared_thread (s : State) (q : MemAsk) (o : Opnds) (pieces : List Piece) (ops : List (RegNum × Word)) :
    ∃ regs pend data, (prepared (landed s) s.cur q o pieces ops).thread s.cur =
      { s.thread s.cur with regs := regs, pend := pend, data := data } := by
  obtain ⟨k, h⟩ := prepared_reads (landed s) s.cur q o pieces ops
  obtain ⟨regs, pend, data, ht⟩ := h.thread
  obtain ⟨_, _, hl⟩ := (landed_moved s).own.rest
  rw [hl] at ht
  exact ⟨regs, pend, data, ht⟩

/-- An ordinary access is sent, and the thread parks on it (R130). -/
theorem parks_of (hi : Acts s i (memIssue (landed s) s.cur (clockOf s) st q o a key acc pieces ops))
    (hq : q.relaxed = false) : Parks s i { request s st q a key acc pieces with ops := ops } := by
  rw [memIssue_eq, hq, if_neg Bool.false_ne_true] at hi
  obtain ⟨htraffic, hid, hmem, hthread⟩ := accessSent_sends s st q o a key acc pieces ops
  obtain ⟨regs, pend, data, ht⟩ := prepared_thread s q o pieces ops
  refine ⟨_, hi, htraffic, hid, ?_, ?_, hmem⟩
  · rw [passTurn_thread, State.thread_mod]
    rfl
  · rw [passTurn_thread, State.thread_mod, hthread, ht]

/-! ### Relaxed accesses (R131) -/

/-- Register `x` is empty with a fill pending. -/
def Awaits (s : State) (g : Nat) (x : Fin 32) : Prop :=
  ((s.thread g).reg x).full = false ∧ ((s.thread g).reg x).fill = true

theorem landList_bits (c : Nat) (r : Fin 32) (l : List Pend) (held : List (Fin 32)) (regs : Vector GReg 32) :
    ((landList c held l regs).2[r]).full = (regs[r]).full ∧ ((landList c held l regs).2[r]).fill = (regs[r]).fill := by
  induction l generalizing held regs with
  | nil => exact ⟨rfl, rfl⟩
  | cons p l ih =>
    rw [landList]
    split
    · obtain ⟨h1, h2⟩ := ih held (regs.set p.reg { regs[p.reg] with val := p.val, bad := false })
      rw [h1, h2]
      by_cases hp : p.reg = r
      · simp [hp]
      · have hp' : p.reg.val ≠ r.val := fun e => hp (Fin.ext e)
        simp [hp']
    · exact ih _ _

theorem reg_await (t : Thread) (r x : Fin 32) :
    (t.await r).reg x = if r = x then { t.reg x with full := false, remote := false, fill := true } else t.reg x := by
  by_cases h : r = x
  · subst h
    simp [Thread.await, Thread.reg]
  · have h' : r.val ≠ x.val := fun e => h (Fin.ext e)
    simp [Thread.await, Thread.reg, h, h']

theorem awaitDst_awaits (s : State) (g : Nat) (x : Fin 32) (tag : Nat) : Awaits (awaitDst s g (.reg x) tag) g x := by
  unfold awaitDst Awaits
  rw [State.thread_mod, reg_await, if_pos rfl]
  exact ⟨rfl, rfl⟩

theorem Awaits.awaitDst {s : State} {g : Nat} {x : Fin 32} (h : Awaits s g x) (d : Dst) (tag : Nat) :
    Awaits (awaitDst s g d tag) g x := by
  unfold Machine.awaitDst
  split
  · exact h
  · next r =>
    obtain ⟨h1, h2⟩ := landList_bits (s.core (coreOf g)).clock x (s.thread g).pend [] (s.thread g).regs
    unfold Awaits
    rw [State.thread_mod, reg_await]
    split
    · exact ⟨rfl, rfl⟩
    · exact ⟨h1.trans h.1, h2.trans h.2⟩
  · obtain ⟨y, hy⟩ := queuePush_cases s (coreOf g) d
      { val := none, due := 0, g := g, serial := (s.thread g).serial, tag := tag }
    rw [hy]
    exact h

theorem Awaits.reserve {s : State} {g : Nat} {x : Fin 32} (h : Awaits s g x) (q : MemAsk) (id : Nat) (p : Piece) :
    Awaits (reserve q g id s p) g x := by
  unfold Machine.reserve
  split
  · split
    · exact h.awaitDst _ _
    · exact h
  · exact h.awaitDst _ _

theorem Awaits.reserves {s : State} {g : Nat} {x : Fin 32} (h : Awaits s g x) (q : MemAsk) (id : Nat) (l : List Piece) :
    Awaits (l.foldl (Machine.reserve q g id) s) g x := by
  induction l generalizing s with
  | nil => exact h
  | cons p l ih => exact ih (h.reserve q id p)

/-- A relaxed access awaits the registers of its pieces. -/
theorem reserves_await {s : State} {g id : Nat} {l : List Piece} (hq : q.relaxed = true) {p : Piece} (hp : p ∈ l)
    {x : Fin 32} (hx : p.dst = .reg x) : Awaits (l.foldl (reserve q g id) s) g x := by
  induction l generalizing s with
  | nil => cases hp
  | cons p' l ih =>
    rcases List.mem_cons.mp hp with rfl | hp
    · refine Awaits.reserves ?_ q id l
      simp only [reserve, hx, hq, if_true]
      exact awaitDst_awaits s g x id
    · exact ih hp

theorem countClass_cases (s : State) (g : Nat) (a : Word) : countClass s g a = 1 ∨ countClass s g a = 2 ∨ countClass s g a = 3 := by
  unfold countClass
  split
  · split
    · exact .inl rfl
    · exact .inr (.inl rfl)
  · exact .inr (.inr rfl)

/-- Counting an access in adds one to the count of its class alone. -/
theorem count_up (t : Thread) {n : Nat} (h : n = 1 ∨ n = 2 ∨ n = 3) :
    (t.count n true).k1 = t.k1 + (if n = 1 then 1 else 0) ∧ (t.count n true).k2 = t.k2 + (if n = 2 then 1 else 0) ∧
      (t.count n true).k3 = t.k3 + (if n = 3 then 1 else 0) ∧ (t.count n true).regs = t.regs := by
  rcases h with rfl | rfl | rfl <;> simp [Thread.count]

/-- A relaxed access is sent and counted, its destinations wait for their fills, and the thread goes on (R131). -/
theorem relaxes_of (hi : Acts s i (memIssue (landed s) s.cur (clockOf s) st q o a key acc pieces []))
    (hq : q.relaxed = true) (hp : q.pair = true) : Relaxes s i (request s st q a key acc pieces) := by
  rw [memIssue_eq, hq, hp, if_pos rfl] at hi
  obtain ⟨htraffic, hid, hmem, hthread⟩ := accessSent_sends s st q o a key acc pieces []
  obtain ⟨regs, pend, data, ht⟩ := prepared_thread s q o pieces []
  obtain ⟨h1, h2, h3, hregs⟩ := count_up ((accessSent (landed s) s.cur (clockOf s) st q o a key acc pieces []).thread s.cur)
    (countClass_cases (landed s) s.cur a)
  refine ⟨_, hi, htraffic, hid, hmem, ?_, ?_, ?_, fun p hmp x hx => ?_⟩
  · rw [State.thread_mod, h1, hthread, ht]
    rfl
  · rw [State.thread_mod, h2, hthread, ht]
    rfl
  · rw [State.thread_mod, h3, hthread, ht]
    rfl
  · have haw : Awaits (prepared (landed s) s.cur q o pieces []) s.cur x := reserves_await hq hmp hx
    rw [State.thread_mod, Thread.reg, hregs, hthread]
    exact haw

/-! ### An operand that passes its stages -/

/-- An instruction of one access whose operand passes its stages has it issued. -/
theorem acts_access {pair : Bool} {m : MemArg} {srcs dsts : List RegNum} {f : Opnds → Access} {fp : Opnds → List Piece}
    {fo : Opnds → List (RegNum × Word)} (h : Reaches s m q srcs dsts o a key)
    (hi : exec i s = runInstr s s.cur pair fun s c => do
      let x ← memStages s s.cur m q srcs dsts
      return memIssue s s.cur c st q x.1 x.2.1 x.2.2 (f x.1) (fp x.1) (fo x.1)) :
    Acts s i (memIssue (landed s) s.cur (clockOf s) st q o a key (f o) (fp o) (fo o)) := by
  refine acts_ok hi ?_
  rw [landed_cur, show memStages (landed s) s.cur m q srcs dsts = .ok (o, a, key) from h]
  rfl

/-- An ordinary access whose operand passes its stages. -/
theorem parks_access {m : MemArg} {srcs dsts : List RegNum} (f : Opnds → Access) (fp : Opnds → List Piece)
    (h : Reaches s m q srcs dsts o a key) (hq : q.relaxed = false)
    (hi : exec i s = runInstr s s.cur false fun s c => do
      let x ← memStages s s.cur m q srcs dsts
      return memIssue s s.cur c st q x.1 x.2.1 x.2.2 (f x.1) (fp x.1)) :
    Parks s i (request s st q a key (f o) (fp o)) :=
  parks_of (acts_access (f := f) (fp := fp) (fo := fun _ => []) h hi) hq

/-- A relaxed access whose operand passes its stages. -/
theorem relaxes_access {m : MemArg} {srcs dsts : List RegNum} (f : Opnds → Access) (fp : Opnds → List Piece)
    (h : Reaches s m q srcs dsts o a key) (hq : q.relaxed = true) (hp : q.pair = true)
    (hi : exec i s = runInstr s s.cur true fun s c => do
      let x ← memStages s s.cur m q srcs dsts
      return memIssue s s.cur c st q x.1 x.2.1 x.2.2 (f x.1) (fp x.1)) :
    Relaxes s i (request s st q a key (f o) (fp o)) :=
  relaxes_of (acts_access (f := f) (fp := fp) (fo := fun _ => []) h hi) hq hp

/-! ### `ldp` -/

/-- The operands of an operand that passes its stages. -/
theorem reaches_operands {m : MemArg} {srcs dsts : List RegNum} (h : Reaches s m q srcs dsts o a key) :
    operands (landed s) s.cur (m.off :: srcs) dsts = .ok o := by
  unfold Reaches memStages at h
  cases ho : operands (landed s) s.cur (m.off :: srcs) dsts with
  | error e => simp [ho, bind, Except.bind] at h
  | ok o' =>
    simp only [ho, bind, Except.bind] at h
    repeat' split at h
    all_goals simp_all [pure, Except.pure]

/-- Two destinations of `ldp` that R137 admits. -/
theorem samePair_false {d d2 : RegNum} (h : d = d2 → d = 0 ∨ 32 ≤ d.toNat) : samePair d d2 = false := by
  unfold samePair
  by_cases hd : d = d2
  · rcases h hd with rfl | h
    · simp
    · simp [Nat.not_lt.mpr h]
  · simp [hd]

/-- `ldp` reads its operand as the other accesses do. -/
theorem acts_pair {pair : Bool} {m : MemArg} {d d2 : RegNum} {f : Opnds → Access} {fp : Opnds → List Piece}
    (h : Reaches s m q [] [d, d2] o a key) (hd : d = d2 → d = 0 ∨ 32 ≤ d.toNat)
    (hi : exec i s = runInstr s s.cur pair fun s c => do
      let _ ← srcField s s.cur m.off
      if samePair d d2 then throw (illegalOperand d2)
      let x ← memStages s s.cur m q [] [d, d2]
      return memIssue s s.cur c st q x.1 x.2.1 x.2.2 (f x.1) (fp x.1)) :
    Acts s i (memIssue (landed s) s.cur (clockOf s) st q o a key (f o) (fp o) []) := by
  obtain ⟨ss, hss⟩ := srcFields_append_left (l := [m.off]) (l' := []) (operands_ok (reaches_operands h)).1
  have hoff : ∃ x, srcField (landed s) s.cur m.off = .ok x := by
    rw [srcFields] at hss
    cases hx : srcField (landed s) s.cur m.off with
    | error e => simp [hx, bind, Except.bind] at hss
    | ok x => exact ⟨x, rfl⟩
  obtain ⟨x, hx⟩ := hoff
  refine acts_ok hi ?_
  rw [landed_cur, hx, show memStages (landed s) s.cur m q [] [d, d2] = .ok (o, a, key) from h]
  simp only [samePair_false hd, bind, Except.bind, Bool.false_eq_true, if_false]
  rfl

end

/-- Settles O7: the form decides width, extension and destinations. -/
theorem memoryLoads : Obligations.MemoryLoads := by
  intro s st d d2 m n o a key
  refine ⟨fun z => ⟨fun h => ⟨?_, ?_⟩, fun h => ⟨?_, ?_⟩⟩, fun b hd h => ?_⟩
  · exact parks_access (fun _ => .load) (fun o => [⟨0, widthBytes z, true, o.d 0⟩]) h rfl rfl
  · exact parks_access (fun _ => .load) (fun o => [⟨0, widthBytes z, false, o.d 0⟩]) h rfl rfl
  · exact parks_access (fun _ => .load) (fun o => [⟨0, widthBytes z, true, o.d 0⟩]) h rfl rfl
  · exact parks_access (fun _ => .load) (fun o => [⟨0, widthBytes z, false, o.d 0⟩]) h rfl rfl
  · exact parks_of (acts_pair (f := fun _ => .load) (fp := fun o => [⟨0, pairBytes b, true, o.d 0⟩, ⟨pairBytes b, pairBytes b, true, o.d 1⟩]) h hd rfl) rfl

/-- The bytes of `stp` (R137). -/
def pairStored (k : Nat) (o : Opnds) : Access :=
  storeAcc (2 * k) (BitVec.ofNat 512
    ((o.v 1).toNat % 2 ^ (8 * k) + (o.v 2).toNat % 2 ^ (8 * k) * 2 ^ (8 * k)))

/-- Settles O8: the form decides width and data. -/
theorem memoryStores : Obligations.MemoryStores := by
  intro s st x x2 m n o a key
  refine ⟨fun z => ⟨fun h => ?_, fun h => ?_⟩, fun b h => ?_⟩
  · exact parks_access (fun o => storeAcc (widthBytes z) ((o.v 1).setWidth 512)) (fun _ => []) h rfl rfl
  · exact parks_access (fun o => storeAcc (widthBytes z) ((o.v 1).setWidth 512)) (fun _ => []) h rfl rfl
  · exact parks_access (pairStored (pairBytes b)) (fun _ => []) h rfl rfl

/-- Settles O15: the form decides the operation, its width and its operands. -/
theorem atomicsAndSignals : Obligations.AtomicsAndSignals := by
  intro s st b d x m o a key n q qu qw
  refine ⟨fun h => ⟨fun op => ?_, ?_, ?_⟩, fun hd h => ?_, fun m set h => ?_, fun m set h => ?_, fun m c h => ?_⟩
  · exact parks_access (fun o => .amo op b (o.v 1)) (fun o => [⟨0, n, true, o.d 0⟩]) h rfl rfl
  · exact parks_access (fun o => .swap b (o.v 1)) (fun o => [⟨0, n, true, o.d 0⟩]) h rfl rfl
  · exact parks_access (fun o => .fadd b (o.v 1)) (fun o => [⟨0, n, false, o.d 0⟩]) h rfl rfl
  · refine parks_of (q := q) (o := o) (ops := []) (acts_ok (pair := false) (f := fun s c => do
      if 32 ≤ d.toNat then throw (illegalOperand d)
      let x ← memStages s s.cur (memArg m) q [x, d] [d]
      return memIssue s s.cur c st q x.1 x.2.1 x.2.2 (.cas b (x.1.v 2) (x.1.v 1)) [⟨0, n, true, x.1.d 0⟩]) rfl ?_) rfl
    rw [landed_cur, show memStages (landed s) s.cur (memArg m) q [x, d] [d] = .ok (o, a, key) from h]
    simp only [Nat.not_le.mpr hd, if_false]
    rfl
  · exact parks_access (fun o => .sigup set (o.v 1)) (fun _ => []) h rfl rfl
  · exact parks_access (fun o => .sigup set (o.v 1)) (fun _ => []) h rfl rfl
  · exact parks_of (acts_access (f := fun o => .sigwait c (o.v 1)) (fp := fun o => [⟨0, 8, false, o.d 0⟩])
      (fo := fun o => [(m.off, o.v 0), (x, o.v 1)]) h rfl) rfl

/-! ### Prefixed accesses (R42, R87) -/

/-- `rx` does what `f` says of the instruction behind it. -/
theorem rx_pair {s : State} {i : Instr} (h : Prefixes s i) :
    exec .rx s = match i with
      | .ldM st z d m => loadOp st z true d (memArg m) true s
      | .ldN st z d m => loadOp st z true d (memArg m) true s
      | .lduM st z d m => loadOp st z false d (memArg m) true s
      | .lduN st z d m => loadOp st z false d (memArg m) true s
      | .stM st z a m => storeOp st z a (memArg m) true s
      | .stN st z a m => storeOp st z a (memArg m) true s
      | .ldp st dbl d d2 m => loadPairOp st (pairBytes dbl) d d2 (memArg m) true s
      | .stp st dbl a a2 m => storePairOp st (pairBytes dbl) a a2 (memArg m) true s
      | _ => runInstr s s.cur false fun _ _ => .error illegalInstr := by
  obtain ⟨ln, hl, hc, hi⟩ := h
  show execRx s = _
  unfold execRx
  simp only [hl, hi, Nat.not_le.mpr hc, if_false]
  cases i <;> rfl

/-- Settles O9: `rx` makes the access of its pair relaxed. -/
theorem relaxedAccesses : Obligations.RelaxedAccesses := by
  intro s st z b d d2 m n o a key k ql qs qlp qsp
  refine ⟨fun hx h => ?_, fun hx h => ?_, fun hx h => ?_, fun hx h => ?_, fun hx h => ?_, fun hx h => ?_, fun hx hd h => ?_,
    fun hx h => ?_⟩
  · exact relaxes_access (fun _ => .load) (fun o => [⟨0, widthBytes z, true, o.d 0⟩]) h rfl rfl (rx_pair hx)
  · exact relaxes_access (fun _ => .load) (fun o => [⟨0, widthBytes z, true, o.d 0⟩]) h rfl rfl (rx_pair hx)
  · exact relaxes_access (fun _ => .load) (fun o => [⟨0, widthBytes z, false, o.d 0⟩]) h rfl rfl (rx_pair hx)
  · exact relaxes_access (fun _ => .load) (fun o => [⟨0, widthBytes z, false, o.d 0⟩]) h rfl rfl (rx_pair hx)
  · exact relaxes_access (fun o => storeAcc (widthBytes z) ((o.v 1).setWidth 512)) (fun _ => []) h rfl rfl (rx_pair hx)
  · exact relaxes_access (fun o => storeAcc (widthBytes z) ((o.v 1).setWidth 512)) (fun _ => []) h rfl rfl (rx_pair hx)
  · exact relaxes_of (acts_pair (f := fun _ => .load) (fp := fun o => [⟨0, k, true, o.d 0⟩, ⟨k, k, true, o.d 1⟩]) h hd
      (rx_pair hx)) rfl rfl
  · exact relaxes_access (pairStored k) (fun _ => []) h rfl rfl (rx_pair hx)

/-! ### Addresses, segments, waits and formats (R138 to R145) -/

/-- An instruction that reads its operands, waits for needs and goes on. -/
theorem acts_needs {s : State} {i : Instr} {srcs dsts : List RegNum} {needs : List Need} {o : Opnds}
    {u : State → Nat → Opnds → State} (h : Ready s srcs dsts o) (hn : Meets s needs)
    (hi : exec i s = runInstr s s.cur false fun s c => do
      let o ← operands s s.cur srcs dsts
      require s s.cur needs
      return u s c o) :
    Acts s i (u (landed s) (clockOf s) o) := by
  refine acts_ok hi ?_
  rw [landed_cur, show operands (landed s) s.cur srcs dsts = .ok o from h]
  simp only [bind, Except.bind, require_ok hn]
  rfl

/-- An instruction that waits for needs and goes on. -/
theorem acts_waits {s : State} {i : Instr} {needs : List Need} {u : State → Nat → State} (hn : Meets s needs)
    (hi : exec i s = runInstr s s.cur false fun s c => do
      require s s.cur needs
      return u s c) :
    Acts s i (u (landed s) (clockOf s)) := by
  refine acts_ok hi ?_
  rw [landed_cur, require_ok hn]
  rfl

theorem segOff_plain (off disp : Word) : segOff off false 1 disp = off + disp := rfl

/-- A limit is clipped to 48 bits (R139). -/
theorem segLimit_min (v : Word) : segLimit v = BitVec.ofNat 48 (min v.toNat (2 ^ 48 - 1)) := by
  unfold segLimit
  apply BitVec.eq_of_toNat_eq
  split
  · next h => rw [Nat.min_eq_left (by omega), BitVec.toNat_setWidth, BitVec.toNat_ofNat]
  · next h => rw [Nat.min_eq_right (by omega), BitVec.toNat_allOnes, BitVec.toNat_ofNat, Nat.mod_eq_of_lt (by omega)]

/-- `sadj` of a limit (R141). -/
theorem narrow_limit {x : Seg} {n : Word} (h : x.type ≠ 3) :
    narrow x true n = .ok { x with limit := BitVec.ofNat 48 (min n.toNat x.limit.toNat) } := by
  have hl : (if n.toNat < x.limit.toNat then n.setWidth 48 else x.limit) = BitVec.ofNat 48 (min n.toNat x.limit.toNat) := by
    apply BitVec.eq_of_toNat_eq
    split
    · next hn => rw [Nat.min_eq_left (by omega), BitVec.toNat_setWidth, BitVec.toNat_ofNat]
    · next hn => rw [Nat.min_eq_right (by omega), BitVec.toNat_ofNat, Nat.mod_eq_of_lt x.limit.isLt]
  rw [narrow, if_neg h, if_pos rfl, hl]

/-- `sadj` of a base (R141). -/
theorem narrow_base {x : Seg} {n : Word} (h : x.type ≠ 3) (hn : n.toNat ≤ x.limit.toNat) :
    narrow x false n = .ok { x with base := x.base + n, limit := x.limit - n.setWidth 48 } := by
  rw [narrow, if_neg h, if_neg Bool.false_ne_true, if_neg (by omega)]

/-- `sadj` that its segment admits. -/
theorem sadj_completes {s : State} {st : Stall} {lim : Bool} {x : BitVec 3} {a : RegNum} {o : Opnds} {y : Seg}
    (h : Ready s [a] [] o) (hy : narrow ((issuer s).segs[x.toNat]) lim (o.v 0) = .ok y) :
    Completes s (.sadj st lim x a) st ((consume (landed s) s.cur o.srcs).modThread s.cur fun t => t.setSeg x y) none := by
  refine acts_ok (pair := false) (f := fun s c => do
    let o ← operands s s.cur [a] []
    let y ← narrow ((s.thread s.cur).segs[x.toNat]) lim (o.v 0)
    return retire ((consume s s.cur o.srcs).modThread s.cur fun t => t.setSeg x y) s.cur c st false none) rfl ?_
  rw [landed_cur, show operands (landed s) s.cur [a] [] = .ok o from h]
  simp only [bind, Except.bind, show narrow ((landed s).thread s.cur).segs[x.toNat] lim (o.v 0) = .ok y from hy]
  rfl

theorem segmentOps : SegmentOps := by
  intro s st d a b x o sg put
  refine ⟨fun m h hm => ?_, fun m h hm => ?_, fun h code => ?_, fun h => ⟨?_, ?_, ?_⟩, fun h ht => ⟨?_, fun hn => ?_⟩⟩
  · exact acts_needs (u := fun s c o => retire (writeLater (consume s s.cur o.srcs) s.cur (o.d 0)
      (((s.thread s.cur).segs[m.seg.toNat]).base + segOff (o.v 0) false 1 (m.disp.signExtend 64)) (c + 4)) s.cur c st false
      none) h hm rfl
  · exact acts_needs (u := fun s c o => retire (writeLater (consume s s.cur o.srcs) s.cur (o.d 0)
      (((s.thread s.cur).segs[m.seg.toNat]).base + segOff (o.v 0) false 1 (m.disp.signExtend 64)) (c + 4)) s.cur c st false
      none) h hm rfl
  · rw [← segLimit_min]
    exact acts_operands (u := fun s c o => retire ((consume s s.cur o.srcs).modThread s.cur fun t => t.setSeg x
      { base := o.v 0, limit := segLimit (o.v 1), code := code }) s.cur c st false none) h rfl
  · exact gives_of (f := fun s _ => .ok ((s.thread s.cur).segs[x.toNat]).base) rfl h rfl
  · exact gives_of (f := fun s _ => .ok (((s.thread s.cur).segs[x.toNat]).limit.setWidth 64)) rfl h rfl
  · exact gives_of (f := fun s _ => .ok (((s.thread s.cur).segs[x.toNat]).code.setWidth 64)) rfl h rfl
  · exact sadj_completes h (narrow_limit ht)
  · exact sadj_completes h (narrow_base ht hn)

theorem waitsAndFormats : WaitsAndFormats := by
  intro s st d o p q k bank fmt T
  refine ⟨fun h => ?_, fun h => ?_, fun h => ?_, fun h => ?_, fun h => ?_⟩
  · exact acts_waits (u := fun s c => retire s s.cur c st false none) h rfl
  · exact acts_waits (u := fun s c => retire s s.cur c st false none) h rfl
  · exact acts_waits (u := fun s c => retire s s.cur c st false none) h rfl
  · refine acts_ok (pair := false) (f := fun s c => do
      let T := tileOf s.cur
      if landingBit s T bank.toNat then throw (illegalOperand (bank.setWidth 6))
      let s := s.modTile T fun x => { x with fmt := x.fmt.setIfInBounds bank.toNat fmt }
      return retire s s.cur c st false none) rfl ?_
    exact if_neg (ne_true_of_eq_false h)
  · exact gives_of (f := fun s _ => .ok (if landingBit s (tileOf s.cur) bank.toNat then 0x100
      else ((s.tile (tileOf s.cur)).fmt.toList.getD bank.toNat 0).setWidth 64)) rfl h rfl

/-- Settles O10. -/
theorem segmentsAndWaits : Obligations.SegmentsAndWaits := ⟨segmentOps, waitsAndFormats⟩

/-! ### What an access changes beside its request (R121) -/

/-- A thread of owner 1 alone on tile 0, its segment 0 the tile's own store. -/
def ownStoreState : State := loneState State.reset loneThread

/-- A load of 8 bytes at address 8 of the thread's own tile store. -/
def ownStoreLoad : Instr := .ldM 0 .d 7 ⟨8, false, 0, 0, 0⟩

/-- The step of the load takes no trap and notes that a bank has served it in this clock. -/
def notesBank (s : State) (i : Instr) : Bool :=
  match exec i s with
  | .next u => (u.thread s.cur).status != .halting && (u.thread s.cur).trapped.isNone &&
      (u.thread s.cur).inh == (s.thread s.cur).inh && u.usedAt != s.usedAt
  | _ => false

theorem notesBank_iff {s : State} {i : Instr} (h : notesBank s i = true) :
    ∃ u, exec i s = .next u ∧ Untrapped s u ∧ u.usedAt ≠ s.usedAt := by
  unfold notesBank at h
  split at h
  · next u hu =>
    simp only [Bool.and_eq_true, bne_iff_ne, beq_iff_eq, Option.isNone_iff_eq_none] at h
    obtain ⟨⟨⟨h1, h2⟩, h3⟩, h4⟩ := h
    exact ⟨u, hu, ⟨h1, h2, h3⟩, h4⟩
  · cases h

theorem ownStoreLoad_notes : notesBank ownStoreState ownStoreLoad = true := by decide +kernel

/-- Refutes O59: an access to a bank of the thread's own tile store notes the clock in which the bank has served it
(`State.usedAt`, R121), which the statement holds to be as before. -/
theorem not_accessFrame : ¬ Obligations.AccessFrame := by
  unfold Obligations.AccessFrame
  intro h
  obtain ⟨u, hu, ht, hused⟩ := notesBank_iff ownStoreLoad_notes
  obtain ⟨⟨k, _, hmodule, _⟩, _⟩ := (h ownStoreState u ownStoreLoad).1 rfl hu ht
  obtain ⟨_, _, _, hd⟩ := dataErrors_cases ownStoreState (whoIn ownStoreState ownStoreState.cur) k
  obtain ⟨_, _, _, _, _, _, _, _, _, _, _, _, _, hsame, _⟩ := hmodule
  rw [hd] at hsame
  exact hused hsame

end Sys2Proof.Machine
end

section
/-! PROOFS. What a bank does at a request's perform point (spec/08 R146, R150, R152, spec/09 R160 to R164). -/

namespace Sys2Proof.Machine

open Sys2Proof.Claims

/-! ### Memory -/

theorem memNat_lt (m : Mem) (a n : Nat) : memNat m a n < 256 ^ n := by
  induction n generalizing a with
  | zero => simp [memNat]
  | succ n ih =>
    have hb : (memByte m a).toNat < 256 := (memByte m a).isLt
    have hp : 256 ^ (n + 1) = 256 * 256 ^ n := Nat.pow_succ'
    have := ih (a + 1)
    rw [memNat]
    omega

/-- A number of memory in two parts. -/
theorem memNat_add (m : Mem) (a n k : Nat) : memNat m a (n + k) = memNat m a n + 256 ^ n * memNat m (a + n) k := by
  induction n generalizing a with
  | zero => simp [memNat]
  | succ n ih =>
    rw [show n + 1 + k = n + k + 1 by omega, memNat, ih (a + 1), memNat, show a + 1 + n = a + (n + 1) by omega,
      show 256 ^ (n + 1) = 256 * 256 ^ n from Nat.pow_succ', Nat.mul_add, Nat.mul_assoc, Nat.add_assoc]

theorem memNat_low (m : Mem) (a n k : Nat) : memNat m a n = memNat m a (n + k) % 256 ^ n := by
  rw [memNat_add, Nat.add_mul_mod_self_left, Nat.mod_eq_of_lt (memNat_lt m a n)]

theorem memNat_high (m : Mem) (a n k : Nat) : memNat m (a + n) k = memNat m a (n + k) / 256 ^ n := by
  rw [memNat_add, Nat.add_mul_div_left _ _ (Nat.pow_pos (by decide)), Nat.div_eq_of_lt (memNat_lt m a n), Nat.zero_add]

theorem maskOf_eq (n : Nat) : maskOf n = 256 ^ n - 1 := by
  rw [maskOf, Nat.pow_mul]

theorem toNat_mask {n w : Nat} (h : 8 * n ≤ w) : (BitVec.ofNat w (2 ^ (8 * n) - 1)).toNat = maskOf n := by
  rw [BitVec.toNat_ofNat, maskOf]
  exact Nat.mod_eq_of_lt (Nat.sub_one_lt_of_le (Nat.pow_pos (by decide)) (Nat.pow_le_pow_right (by decide) h))

/-- A write under the full mask is a plain write. -/
theorem memWriteMask_full (m : Mem) (a n v : Nat) : memWriteMask m a n v (maskOf n) = memWriteNat m a n v := by
  induction n generalizing m a v with
  | zero => rfl
  | succ n ih =>
    have hp : 256 ^ (n + 1) = 256 * 256 ^ n := Nat.pow_succ'
    have hpos : 0 < 256 ^ n := Nat.pow_pos (by decide)
    have hmask : maskOf (n + 1) = 256 * maskOf n + 255 := by
      rw [maskOf_eq, maskOf_eq]
      omega
    have hbyte : BitVec.ofNat 8 (maskOf (n + 1)) = BitVec.allOnes 8 := by
      apply BitVec.eq_of_toNat_eq
      rw [BitVec.toNat_ofNat, hmask, BitVec.toNat_allOnes]
      omega
    have hnext : maskOf (n + 1) / 256 = maskOf n := by omega
    rw [memWriteMask, memWriteNat, hnext, ih, hbyte]
    simp only [show BitVec.allOnes 8 ≠ 0 by decide, if_false, BitVec.and_allOnes, BitVec.not_allOnes, BitVec.and_zero,
      BitVec.zero_or]

/-! ### A request at its turn -/

theorem find_map_replace (l : List Req) (r r' : Req) (h : l.find? (·.id == r.id) = some r) (hid : r'.id = r.id) :
    (l.map fun x => if x.id = r'.id then r' else x).find? (·.id == r.id) = some r' := by
  induction l with
  | nil => cases h
  | cons x l ih =>
    by_cases hx : x.id = r.id
    · simp [hx, hid]
    · have hne : ¬ x.id = r'.id := by rwa [hid]
      rw [List.find?_cons_of_neg (by simpa using hx)] at h
      rw [List.map_cons, if_neg hne, List.find?_cons_of_neg (by simpa using hx)]
      exact ih h

/-- A request that has been replaced is found. -/
theorem findReq_setReq {s : State} {r r' : Req} (h : findReq s r.id = some r) (hid : r'.id = r.id) :
    findReq (setReq s r') r.id = some r' := find_map_replace s.traffic r r' h hid

theorem serveBanks_cases (s : State) (l : List Nat) : ∃ x, serveBanks s l = { s with usedAt := x } := ⟨_, rfl⟩

/-- The state in which the bank performs a request: a bank that an engine or a distant thread uses has noted it (R121). -/
def serving (s : State) (r : Req) : State := if r.winsBank then s else serveBanks s [bankOf r.key]

theorem serving_cases (s : State) (r : Req) : ∃ x, serving s r = { s with usedAt := x } := by
  unfold serving
  split
  · exact ⟨s.usedAt, rfl⟩
  · exact serveBanks_cases s _

theorem performTurn_eq (s : State) (r : Req) : performTurn s r = leaveBank (performReq (serving s r) r) r.id := rfl

/-- A bank whose turn it is performs the request. -/
theorem bank_performs {s : State} {r : Req} (hf : findReq s r.id = some r) (ht : bankTurn s r = true) :
    exec (.bankAccessPerform r.id) s = .next (performTurn s r) := by
  show execBankAccessPerform r.id s = _
  unfold execBankAccessPerform
  simp only [hf, ht, Bool.not_true, Bool.false_eq_true, if_false]

section
variable {s : State} {r : Req}

/-- Firn's tables are read with tag 0, which passes every check that its owner's tag does. -/
theorem served_gate (h : Served s r) : gate s r.tag r.key = .pass := by
  obtain ⟨_, _, _, hg, _, hby⟩ := h
  rcases hby with hby | hby | hby | ⟨l, hby⟩
  · rwa [show r.tag = r.owner by simp only [Req.tag, hby]]
  · rwa [show r.tag = r.owner by simp only [Req.tag, hby]]
  · rwa [show r.tag = r.owner by simp only [Req.tag, hby]]
  · rw [show r.tag = 0 by simp only [Req.tag, hby]]
    unfold gate
    split
    · simp
    · split <;> simp

/-- A request of a thread or of its walk stays in the traffic, performed. -/
theorem served_afterPerform (h : Served s r) (v : State) (data : BitVec 512) :
    afterPerform v r data = setReq v { r with stage := .performed, data := data } := by
  obtain ⟨_, _, _, _, _, hby⟩ := h
  rcases hby with hby | hby | hby | ⟨l, hby⟩ <;> simp only [afterPerform, hby]

/-- What serving a request does, given what it does to memory and reads. -/
theorem served_performs (h : Served s r) (hw : ∀ c v, r.acc ≠ .sigwait c v) :
    ∃ u, exec (.bankAccessPerform r.id) s = .next u ∧
      u = leaveBank (setReq (performMem (serving s r) r).1
        { r with stage := .performed, data := (performMem (serving s r) r).2 }) r.id := by
  have hat : performAt (serving s r) r = performMem (serving s r) r := by
    unfold performAt
    rw [if_pos]
    exact h.2.2.1
  refine ⟨_, bank_performs h.1 h.2.1, ?_⟩
  obtain ⟨x, hx⟩ := serving_cases s r
  have hgate : gate (serving s r) r.tag r.key = .pass := by
    have hpass := served_gate h
    rw [hx]
    exact hpass
  rw [performTurn_eq, performReq, hgate]
  simp only [hat, served_afterPerform h]

/-- A request whose effect is a change of memory alone has that effect, and holds what it read. -/
theorem served_mem (h : Served s r) (hw : ∀ c v, r.acc ≠ .sigwait c v) {m : Mem} {data : BitVec 512}
    (hm : performMem (serving s r) r = ({ serving s r with mem := m }, data)) :
    ∃ u, exec (.bankAccessPerform r.id) s = .next u ∧ u.mem = m ∧
      findReq u r.id = some { r with stage := .performed, data := data } := by
  obtain ⟨u, hu, he⟩ := served_performs h hw
  obtain ⟨x, hx⟩ := serving_cases s r
  refine ⟨u, hu, ?_, ?_⟩
  · rw [he, hm]
    rfl
  · rw [he, hm]
    exact findReq_setReq (s := { serving s r with mem := m }) (by rw [hx]; exact h.1) rfl

theorem served_clean (h : Served s r) : (serving s r).poison.contains (unitOf r.key) = false := by
  obtain ⟨x, hx⟩ := serving_cases s r
  rw [hx]
  simpa using h.2.2.2.2.1

/-- Whole data is read as it is. -/
theorem served_read (h : Served s r) (n : Nat) : unitRead (serving s r) r.key n = memNat s.mem r.key n := by
  have hc := served_clean h
  obtain ⟨x, hx⟩ := serving_cases s r
  rw [unitRead, hc, if_neg Bool.false_ne_true, hx]

/-- A write within whole data. -/
theorem served_write (h : Served s r) (n data mask : Nat) :
    unitWrite (serving s r) r.key n data mask = { serving s r with mem := memWriteMask (serving s r).mem r.key n data mask } := by
  unfold unitWrite
  simp only [served_clean h, Bool.false_eq_true, if_false]

theorem serving_mem (s : State) (r : Req) : (serving s r).mem = s.mem := by
  obtain ⟨x, hx⟩ := serving_cases s r
  rw [hx]

/-- A load reads its bytes and changes none (R150). -/
theorem served_load (h : Served s r) (ha : r.acc = .load) : ∃ u, exec (.bankAccessPerform r.id) s = .next u ∧ u.mem = s.mem ∧
    findReq u r.id = some { r with stage := .performed, data := BitVec.ofNat 512 (memNat s.mem r.key r.size) } := by
  have hm : performMem (serving s r) r =
      ({ serving s r with mem := (serving s r).mem }, BitVec.ofNat 512 (memNat s.mem r.key r.size)) := by
    unfold performMem
    rw [ha]
    simp only [served_clean h, served_read h, countBad, Bool.false_eq_true, if_false]
  obtain ⟨u, hu, hmem, hr⟩ := served_mem h (by simp [ha]) hm
  exact ⟨u, hu, hmem.trans (serving_mem s r), hr⟩

/-- A write of the low `n` bytes of a value under its full mask. -/
theorem served_put (h : Served s r) (hw : ∀ c v, r.acc ≠ .sigwait c v) {n v : Nat} {data : BitVec 512}
    (hm : performMem (serving s r) r = (unitWrite (serving s r) r.key n v (maskOf n), data)) (hwf : memWf s.mem = true) :
    ∃ u, exec (.bankAccessPerform r.id) s = .next u ∧ findReq u r.id = some { r with stage := .performed, data := data } ∧
      memNat u.mem r.key n = v % 256 ^ n ∧ ∀ x, (x < r.key ∨ r.key + n ≤ x) → memByte u.mem x = memByte s.mem x := by
  rw [served_write h, memWriteMask_full, serving_mem] at hm
  obtain ⟨u, hu, hmem, hr⟩ := served_mem h hw hm
  refine ⟨u, hu, hr, ?_, fun x hx => ?_⟩
  · rw [hmem, memNat_writeNat hwf]
  · rw [hmem, memByte_writeNat hwf, if_neg (by omega)]

end

/-- Settles O11: a load leaves memory, and the mask of a store covers its own bytes. -/
theorem bankServesAccess : Obligations.BankServesAccess := by
  intro s r h
  refine ⟨served_load h, fun n v ha hs hn _ hwf => ?_⟩
  have hmask : (BitVec.ofNat 512 (2 ^ (8 * n) - 1)).toNat = maskOf n := toNat_mask (by omega)
  refine served_put h (by simp [ha, storeAcc]) (v := v.toNat) ?_ hwf
  unfold performMem
  simp only [ha, storeAcc, served_clean h, Bool.false_and, countBad, Bool.false_eq_true, if_false, hmask, hs]

/-! ### Atomics (R160 to R163) -/

section
variable {s : State} {r : Req}

/-- An atomic that writes a new value. -/
theorem served_atomic (h : Served s r) (hw : ∀ c v, r.acc ≠ .sigwait c v) (hwf : memWf s.mem = true) {f : Nat → Option Nat}
    {v : Nat} (ha : performMem (serving s r) r = atomicAt (serving s r) r f) (hf : f (memNat s.mem r.key r.size) = some v) :
    ∃ u, exec (.bankAccessPerform r.id) s = .next u ∧
      findReq u r.id = some { r with stage := .performed, data := BitVec.ofNat 512 (memNat s.mem r.key r.size) } ∧
      memNat u.mem r.key r.size = v % 256 ^ r.size ∧
      ∀ x, (x < r.key ∨ r.key + r.size ≤ x) → memByte u.mem x = memByte s.mem x := by
  refine served_put h hw (n := r.size) (v := v) ?_ hwf
  rw [ha]
  unfold atomicAt
  simp only [served_clean h, served_read h, countBad, Bool.false_eq_true, if_false, hf]

/-- An atomic that leaves the old value. -/
theorem served_atomic_none (h : Served s r) (hw : ∀ c v, r.acc ≠ .sigwait c v) {f : Nat → Option Nat}
    (ha : performMem (serving s r) r = atomicAt (serving s r) r f) (hf : f (memNat s.mem r.key r.size) = none) :
    ∃ u, exec (.bankAccessPerform r.id) s = .next u ∧
      findReq u r.id = some { r with stage := .performed, data := BitVec.ofNat 512 (memNat s.mem r.key r.size) } ∧
      memNat u.mem r.key r.size = memNat s.mem r.key r.size % 256 ^ r.size ∧
      ∀ x, (x < r.key ∨ r.key + r.size ≤ x) → memByte u.mem x = memByte s.mem x := by
  have hm : performMem (serving s r) r =
      ({ serving s r with mem := (serving s r).mem }, BitVec.ofNat 512 (memNat s.mem r.key r.size)) := by
    rw [ha]
    unfold atomicAt
    simp only [served_clean h, served_read h, countBad, Bool.false_eq_true, if_false, hf]
  obtain ⟨u, hu, hmem, hr⟩ := served_mem h hw hm
  rw [serving_mem] at hmem
  exact ⟨u, hu, hr, by rw [hmem, Nat.mod_eq_of_lt (memNat_lt _ _ _)], fun x _ => by rw [hmem]⟩

end

theorem atomicPerforms : AtomicPerforms := by
  intro s r h hwf _ _ old dbl put
  refine ⟨fun v ha => ?_, fun e v ha => ?_, fun v ha => ?_, fun op v ha => ?_⟩
  · exact served_atomic h (by simp [ha]) hwf (f := fun _ => some v.toNat) (by simp only [performMem, ha]) rfl
  · have hperf : performMem (serving s r) r =
        atomicAt (serving s r) r fun old => if old = e.toNat % 2 ^ (8 * r.size) then some v.toNat else none := by
      simp only [performMem, ha]
    have hpow : 256 ^ r.size = 2 ^ (8 * r.size) := by rw [Nat.pow_mul]
    by_cases he : old = e.toNat % 256 ^ r.size
    · rw [if_pos he]
      exact served_atomic h (by simp [ha]) hwf hperf (if_pos (hpow ▸ he))
    · rw [if_neg he]
      exact served_atomic_none h (by simp [ha]) hperf (if_neg (hpow ▸ he))
  · exact served_atomic h (by simp [ha]) hwf (f := fun old => some (faddNew dbl old v)) (by simp only [performMem, ha]) rfl
  · exact served_atomic h (by simp [ha]) hwf (f := fun old => some (amoNew op dbl old v)) (by simp only [performMem, ha]) rfl

/-! ### Signals (R152, R164) -/

/-- A signal's new state from the number `x` that its 32 bytes are (R164, R373). -/
def signalNew (x : Nat) (f : Nat → Nat → Nat → Nat → Nat × Nat × Nat × Nat) : Nat :=
  let r := f (x % 2 ^ 64) (x / 2 ^ 64 % 2 ^ 64) (x / 2 ^ 128 % 2 ^ 64) (x / 2 ^ 192 % 2 ^ 32)
  r.1 % 2 ^ 64 + r.2.1 % 2 ^ 64 * 2 ^ 64 + r.2.2.1 % 2 ^ 64 * 2 ^ 128 + r.2.2.2 % 2 ^ 32 * 2 ^ 192 +
    (x / 2 ^ 224 + 1) % 2 ^ 32 * 2 ^ 224

theorem signalUpdate_eq (s : State) (w : Who) (key : Nat) (f : Nat → Nat → Nat → Nat → Nat × Nat × Nat × Nat) :
    signalUpdate s w key f = signalScan (unitWrite (countBad s w (s.poison.contains (unitOf key))) key 32
      (signalNew (unitRead s key 32) f) (maskOf 32)) := rfl

/-- The fields of a signal in memory: value, start, end, error, update count. -/
structure SignalHolds (m : Mem) (a v x b e n : Nat) : Prop where
  value : memNat m a 8 = v
  start : memNat m (a + 8) 8 = x
  stop : memNat m (a + 16) 8 = b
  error : memNat m (a + 24) 4 = e
  count : memNat m (a + 28) 4 = n

/-- The number that the 32 bytes of a signal are. -/
theorem signal_number (m : Mem) (a : Nat) :
    memNat m a 32 = memNat m a 8 + memNat m (a + 8) 8 * 2 ^ 64 + memNat m (a + 16) 8 * 2 ^ 128 +
      memNat m (a + 24) 4 * 2 ^ 192 + memNat m (a + 28) 4 * 2 ^ 224 := by
  have h1 : memNat m a 32 = _ := memNat_add m a 8 24
  have h2 : memNat m (a + 8) 24 = _ := memNat_add m (a + 8) 8 16
  have h3 : memNat m (a + 16) 16 = _ := memNat_add m (a + 16) 8 8
  have h4 : memNat m (a + 24) 8 = _ := memNat_add m (a + 24) 4 4
  simp only [show a + 8 + 8 = a + 16 by omega, show a + 16 + 8 = a + 24 by omega, show a + 24 + 4 = a + 28 by omega]
    at h2 h3 h4
  omega

/-- What the fields of a signal are after an update. -/
theorem signalNew_holds {m m' : Mem} {a : Nat} {f : Nat → Nat → Nat → Nat → Nat × Nat × Nat × Nat}
    (h : memNat m' a 32 = signalNew (memNat m a 32) f % 256 ^ 32) :
    let r := f (memNat m a 8) (memNat m (a + 8) 8) (memNat m (a + 16) 8) (memNat m (a + 24) 4)
    SignalHolds m' a (r.1 % 2 ^ 64) (r.2.1 % 2 ^ 64) (r.2.2.1 % 2 ^ 64) (r.2.2.2 % 2 ^ 32)
      ((memNat m (a + 28) 4 + 1) % 2 ^ 32) := by
  intro r
  have hx := signal_number m a
  have hy := signal_number m' a
  have l1 := memNat_lt m a 8
  have l2 := memNat_lt m (a + 8) 8
  have l3 := memNat_lt m (a + 16) 8
  have l4 := memNat_lt m (a + 24) 4
  have l5 := memNat_lt m (a + 28) 4
  have k1 := memNat_lt m' a 8
  have k2 := memNat_lt m' (a + 8) 8
  have k3 := memNat_lt m' (a + 16) 8
  have k4 := memNat_lt m' (a + 24) 4
  have k5 := memNat_lt m' (a + 28) 4
  have e1 : memNat m a 32 % 2 ^ 64 = memNat m a 8 := by omega
  have e2 : memNat m a 32 / 2 ^ 64 % 2 ^ 64 = memNat m (a + 8) 8 := by omega
  have e3 : memNat m a 32 / 2 ^ 128 % 2 ^ 64 = memNat m (a + 16) 8 := by omega
  have e4 : memNat m a 32 / 2 ^ 192 % 2 ^ 32 = memNat m (a + 24) 4 := by omega
  have e5 : memNat m a 32 / 2 ^ 224 = memNat m (a + 28) 4 := by omega
  have hn : signalNew (memNat m a 32) f = r.1 % 2 ^ 64 + r.2.1 % 2 ^ 64 * 2 ^ 64 + r.2.2.1 % 2 ^ 64 * 2 ^ 128 +
      r.2.2.2 % 2 ^ 32 * 2 ^ 192 + (memNat m (a + 28) 4 + 1) % 2 ^ 32 * 2 ^ 224 := by
    rw [signalNew, e1, e2, e3, e4, e5]
  generalize r.1 = r1 at hn ⊢
  generalize r.2.1 = r2 at hn ⊢
  generalize r.2.2.1 = r3 at hn ⊢
  generalize r.2.2.2 = r4 at hn ⊢
  constructor <;> omega

theorem signalScan_mem (s : State) : (signalScan s).mem = s.mem := rfl

theorem signalUpdatePerforms : SignalUpdatePerforms := by
  intro s r set v h hwf hsize _ hacc
  obtain ⟨u, hu, he⟩ := served_performs h (by simp [hacc])
  have hmem : u.mem = memWriteNat s.mem r.key 32 (signalNew (memNat s.mem r.key 32)
      fun x a b e => (if set then v.toNat else x + v.toNat, a, b, e)) := by
    rw [he]
    simp only [performMem, hacc, signalUpdate_eq, served_clean h, served_read h, countBad, Bool.false_eq_true, if_false,
      served_write h, memWriteMask_full, serving_mem]
    rfl
  have hall := memNat_writeNat hwf r.key 32 (signalNew (memNat s.mem r.key 32)
    fun x a b e => (if set then v.toNat else x + v.toNat, a, b, e))
  rw [← hmem] at hall
  obtain ⟨h1, h2, h3, h4, h5⟩ := signalNew_holds hall
  refine ⟨u, hu, ?_, ?_, h5, fun x hx => ?_⟩
  · rw [h1]
    split
    · exact Nat.mod_eq_of_lt v.isLt
    · rfl
  · have hl : ∀ m, memNat m (r.key + 8) 20 = memNat m (r.key + 8) 8 + memNat m (r.key + 16) 8 * 2 ^ 64 +
        memNat m (r.key + 24) 4 * 2 ^ 128 := by
      intro m
      have a1 : memNat m (r.key + 8) 20 = _ := memNat_add m (r.key + 8) 8 12
      have a2 : memNat m (r.key + 8 + 8) 12 = _ := memNat_add m (r.key + 8 + 8) 8 4
      simp only [show r.key + 8 + 8 = r.key + 16 by omega, show r.key + 16 + 8 = r.key + 24 by omega] at a1 a2
      omega
    rw [hl, hl, h2, h3, h4]
    have l1 := memNat_lt s.mem (r.key + 8) 8
    have l2 := memNat_lt s.mem (r.key + 16) 8
    have l3 := memNat_lt s.mem (r.key + 24) 4
    dsimp only
    omega
  · rw [hmem, memByte_writeNat hwf, if_neg (by omega)]

/-- Settles O16. -/
theorem atomicsPerform : Obligations.AtomicsPerform := ⟨atomicPerforms, signalUpdatePerforms⟩

end Sys2Proof.Machine
end

section
/-! PROOFS. What performed accesses deliver, and the watch that a `sigwait` gains (spec/07 R130, R131, R133, R136, spec/09
R165, spec/16 R333). -/

namespace Sys2Proof.Machine

open Sys2Proof.Claims

/-! ### Values (R136) -/

/-- The bytes of a piece are a field of the data. -/
theorem piece_bits (data : BitVec 512) (off size : Nat) :
    data.toNat / 2 ^ (8 * off) % 2 ^ (8 * size) = (data.extractLsb' (8 * off) (8 * size)).toNat := by
  rw [BitVec.extractLsb'_toNat, Nat.shiftRight_eq_div_pow]

theorem loadedValues : LoadedValues := by
  intro data off size d hs hoff
  have hzero : pieceValue data ⟨off, size, false, d⟩ = (data.extractLsb' (8 * off) (8 * size)).setWidth 64 := by
    simp only [pieceValue, piece_bits, Bool.false_eq_true, false_and, if_false]
    apply BitVec.eq_of_toNat_eq
    rw [BitVec.toNat_ofNat, BitVec.toNat_setWidth]
  refine ⟨?_, hzero⟩
  simp only [pieceValue, piece_bits, true_and]
  have hlt := (data.extractLsb' (8 * off) (8 * size)).isLt
  apply BitVec.eq_of_toNat_eq
  rw [BitVec.toNat_signExtend]
  rcases hs with rfl | rfl | rfl | rfl
  all_goals
    rw [BitVec.msb_eq_decide]
    generalize (data.extractLsb' (8 * off) _) = x at hlt ⊢
    simp only [BitVec.toNat_setWidth, Nat.reduceMul, Nat.reduceSub, decide_eq_true_eq]
    split
    · simp only [BitVec.toNat_ofNat, *]
      omega
    · simp only [BitVec.toNat_ofNat, *, Nat.add_zero]

/-! ### Completions (R130, R131) -/

/-- A fill changes no more of a thread than its registers and pending results. -/
theorem fillDst_thread (s : State) (g : Nat) (d : Dst) (v : Word) (tag j : Nat) :
    ∃ regs pend, (fillDst s g d v tag).thread j = { s.thread j with regs := regs, pend := pend } := by
  have hsame : ∀ u : State, u.threads = s.threads → ∃ regs pend, u.thread j = { s.thread j with regs := regs, pend := pend } :=
    fun u hu => ⟨(s.thread j).regs, (s.thread j).pend, by simp only [State.thread, hu]⟩
  unfold fillDst
  split
  · exact hsame s rfl
  · by_cases hj : j = g
    · subst hj
      exact ⟨_, _, State.thread_mod s j _⟩
    · exact ⟨_, _, State.thread_mod_other s g j _ hj⟩
  · split
    · split
      · exact hsame _ rfl
      · exact hsame s rfl
    · exact hsame s rfl
  · split
    · exact hsame s rfl
    · split
      · exact hsame _ rfl
      · exact hsame s rfl

theorem fillPieces_thread (s : State) (r : Req) (j : Nat) :
    ∃ regs pend, (fillPieces s r).thread j = { s.thread j with regs := regs, pend := pend } := by
  unfold fillPieces
  induction r.pieces generalizing s with
  | nil => exact ⟨_, _, rfl⟩
  | cons p l ih =>
    obtain ⟨_, _, h⟩ := fillDst_thread s r.g p.dst (pieceValue r.data p) r.id j
    obtain ⟨regs, pend, h'⟩ := ih (fillDst s r.g p.dst (pieceValue r.data p) r.id)
    exact ⟨regs, pend, by rw [List.foldl_cons, h', h]⟩

theorem countLate_cases (s : State) (r : Req) : ∃ x, countLate s r = { s with dies := x } := by
  unfold countLate
  split
  · exact ⟨_, rfl⟩
  · exact ⟨s.dies, rfl⟩

/-- What a request fills, once it has left the traffic. -/
def filled (s : State) (r : Req) : State := freeFields (fillPieces (dropReq (countLate s r) r.id) r) r.g r.ops

theorem filled_status (s : State) (r : Req) : ((filled s r).thread r.g).status = (s.thread r.g).status := by
  obtain ⟨y, hy⟩ := freeFields_cases r.g r.ops (fillPieces (dropReq (countLate s r) r.id) r)
  obtain ⟨_, _, hf⟩ := fillPieces_thread (dropReq (countLate s r) r.id) r r.g
  obtain ⟨x, hx⟩ := countLate_cases s r
  rw [filled, hy]
  refine (congrArg Thread.status hf).trans ?_
  rw [hx]
  rfl

/-- An ordinary access completes the instruction that waits for it. -/
theorem completion_ordinary {s : State} {r : Req} (h : responds s r = true) (hby : r.by_ = .ordinary)
    (hw : (s.thread r.g).status = .parked (.access r.id)) : completion s r = some (completed s r) := by
  have hstatus : ((filled s r).thread r.g).status = .parked (.access r.id) := (filled_status s r).trans hw
  simp only [completion, h, Bool.not_true, Bool.false_eq_true, if_false, hby]
  exact congrArg some (if_pos hstatus)

theorem completion_relaxed {s : State} {r : Req} (h : responds s r = true) (hby : r.by_ = .relaxed) :
    completion s r = some ((fillPieces (dropReq (countLate s r) r.id) r).modThread r.g fun t => t.count r.kcls false) := by
  simp only [completion, h, Bool.not_true, Bool.false_eq_true, if_false, hby]

theorem completion_held {s : State} {r : Req} (h : responds s r = true)
    (hby : (∃ ch n, r.by_ = .copy ch n) ∨ ∃ key, r.by_ = .commit key) :
    completion s r = some (dropReq (countLate s r) r.id) := by
  rcases hby with ⟨ch, n, hby⟩ | ⟨key, hby⟩ <;>
    simp only [completion, h, Bool.not_true, Bool.false_eq_true, if_false, hby]

/-- The completion of a request that fits. -/
theorem completeIf_next {s u : State} {r : Req} {ok : Req → Bool} (h : findReq s r.id = some r) (hok : ok r = true)
    (hu : completion s r = some u) : completeIf r.id s ok = .next u := by
  simp only [completeIf, h, hok, if_true, hu, Option.getD_some]

theorem isSigwait_false {r : Req} (h : ∀ c v, r.acc ≠ .sigwait c v) : isSigwait r = false := by
  unfold isSigwait
  split
  · next c v he => exact absurd he (h c v)
  · rfl

theorem accessAnswers : AccessAnswers := by
  rintro s r ⟨hf, hr⟩
  refine ⟨fun hby hw => ⟨fun hn => ?_, fun c v ha => ?_, fun hc => ?_⟩, fun hby => ⟨fun ha => ?_, fun ha => ?_, fun hc => ?_⟩,
    fun hby hc => ?_⟩
  · exact completeIf_next hf (by simp [hby, isSigwait_false hn]) (completion_ordinary hr hby hw)
  · exact completeIf_next hf (by simp [hby, isSigwait, ha]) (completion_ordinary hr hby hw)
  · exact completeIf_next hf hc (completion_ordinary hr hby hw)
  · exact completeIf_next hf (by simp [hby, ha]) (completion_relaxed hr hby)
  · exact completeIf_next hf (by simp [hby, ha]) (completion_relaxed hr hby)
  · exact completeIf_next hf hc (completion_relaxed hr hby)
  · exact completeIf_next hf hc (completion_held hr hby)

/-! ### Watches (R165) -/

theorem signalScanReq_id (s : State) (r : Req) : (signalScanReq s r).id = r.id := by
  unfold signalScanReq
  split
  · dsimp only
    split <;> rfl
  · rfl

theorem findReq_signalScan {s : State} {id : Nat} {r : Req} (h : findReq s id = some r) :
    findReq (signalScan s) id = some (signalScanReq s r) := by
  have hmap : ∀ l : List Req, (l.map (signalScanReq s)).find? (·.id == id) = (l.find? (·.id == id)).map (signalScanReq s) := by
    intro l
    rw [List.find?_map]
    congr 2
    funext x
    simp [signalScanReq_id]
  exact (hmap s.traffic).trans (by rw [show s.traffic.find? (·.id == id) = some r from h]; rfl)

/-- A watch that has been taken sees the signal as it stands. -/
theorem takeWatchFor_find {s : State} {r : Req} (h : findReq s r.id = some r) {c : SigCond} {v : Word}
    (ha : r.acc = .sigwait c v) :
    findReq (takeWatchFor s r) r.id = some
      (if sigHolds c (sigValue s r.key) v then
        { r with stage := .performed, data := (sigValue s r.key).setWidth 512 }
      else { r with stage := .watch }) := by
  obtain ⟨t, x, l, hb⟩ := countBad_cases s r.who (s.poison.contains (unitOf r.key))
  have hset : findReq (setReq (countBad s r.who (s.poison.contains (unitOf r.key))) { r with stage := .watch }) r.id =
      some { r with stage := .watch } := by
    rw [hb]
    exact findReq_setReq (s := { s with threads := t, owners := x, launches := l }) h rfl
  refine (findReq_signalScan hset).trans (congrArg some ?_)
  have hv : ∀ r', sigValue (setReq (countBad s r.who (s.poison.contains (unitOf r.key))) r') r.key = sigValue s r.key :=
    fun _ => by rw [hb]; rfl
  simp only [signalScanReq, ha, hv]

theorem takeWatchFor_mem (s : State) (r : Req) : (takeWatchFor s r).mem = s.mem := by
  obtain ⟨t, x, l, hb⟩ := countBad_cases s r.who (s.poison.contains (unitOf r.key))
  rw [takeWatchFor, signalScan_mem, hb]
  rfl

theorem watchGained : WatchGained := by
  intro s r hf hst hn
  refine ⟨takeWatchFor s r, ?_, takeWatchFor_mem s r, fun c v ha => takeWatchFor_find hf ha⟩
  show execWatchAllocated r.id s = _
  simp only [execWatchAllocated, hf]
  exact if_pos ⟨hst, hn⟩

/-- Settles O12. -/
theorem accessesAnswer : Obligations.AccessesAnswer := ⟨loadedValues, accessAnswers, watchGained⟩

end Sys2Proof.Machine
end

section
/-! PROOFS. How waits end: parked threads, line fetches, page walks, fault records and invalidations (spec/05 R79, R81, spec/07
R124, R128, R129, spec/17 R360). -/

namespace Sys2Proof.Machine

open Sys2Proof.Claims

/-! ### Maps changed at every key -/

theorem mget_map {α : Type} (f : α → α) (m : FMap α) (k : Nat) : mget (m.map fun p => (p.1, f p.2)) k = (mget m k).map f := by
  induction m with
  | nil => rfl
  | cons p m ih =>
    obtain ⟨a, b⟩ := p
    simp only [List.map_cons, mget]
    split
    · rfl
    · exact ih

/-- A part of a core that `f` leaves is as before in every core. -/
theorem core_map {s u : State} {f : Core → Core} (h : u.cores = s.cores.map fun p => (p.1, f p.2)) (c : Nat) :
    u.core c = f (s.core c) ∨ (u.core c = {} ∧ s.core c = {}) := by
  simp only [State.core, h, mget_map]
  cases mget s.cores c with
  | none => exact .inr ⟨rfl, rfl⟩
  | some x => exact .inl rfl

theorem die_map {s u : State} {f : Die → Die} (h : u.dies = s.dies.map fun p => (p.1, f p.2)) (d : Nat) :
    u.die d = f (s.die d) ∨ (u.die d = {} ∧ s.die d = {}) := by
  simp only [State.die, h, mget_map]
  cases mget s.dies d with
  | none => exact .inr ⟨rfl, rfl⟩
  | some x => exact .inl rfl

/-! ### Line stores and TLBs stand -/

/-- The line stores and first-level TLBs of the cores are as before. -/
def CachesStand (s u : State) : Prop := ∀ c, (u.core c).lines = (s.core c).lines ∧ (u.core c).tlb = (s.core c).tlb

namespace CachesStand

theorem refl (s : State) : CachesStand s s := fun _ => ⟨rfl, rfl⟩

theorem trans {s u v : State} (h : CachesStand s u) (h' : CachesStand u v) : CachesStand s v :=
  fun c => ⟨(h' c).1.trans (h c).1, (h' c).2.trans (h c).2⟩

theorem of_cores {s u : State} (h : u.cores = s.cores) : CachesStand s u := fun c => by simp only [State.core, h, and_self]

theorem setCore (s : State) (k : Nat) {x : Core} (h : x.lines = (s.core k).lines ∧ x.tlb = (s.core k).tlb) :
    CachesStand s (s.setCore k x) := by
  intro c
  by_cases hc : c = k
  · rw [hc, State.core_set]
    exact h
  · rw [State.core_set_other s k c x hc]
    exact ⟨rfl, rfl⟩

theorem modCore (s : State) (k : Nat) {f : Core → Core} (h : ∀ x, (f x).lines = x.lines ∧ (f x).tlb = x.tlb) :
    CachesStand s (s.modCore k f) := setCore s k (h _)

theorem landPushes (s : State) (g : Nat) : CachesStand s (landPushes s g) := by
  intro c
  rcases core_map (s := s) (u := Machine.landPushes s g) rfl c with h | ⟨h, h'⟩
  · rw [h]
    exact ⟨rfl, rfl⟩
  · rw [h, h']
    exact ⟨rfl, rfl⟩

theorem vacate (s : State) (g : Nat) (out : Bool) : CachesStand s (vacate s g out) := by
  have hq := modCore s (coreOf g) (f := fun x => { x with overflow := x.overflow.erase (slotOf g) }) fun _ => ⟨rfl, rfl⟩
  unfold Machine.vacate
  refine hq.trans ?_
  dsimp only
  split
  · exact refl _
  · split
    · exact setCore _ _ ⟨rfl, rfl⟩
    · split
      · exact modCore _ _ fun _ => ⟨rfl, rfl⟩
      · exact setCore _ _ ⟨rfl, rfl⟩

theorem captureOwner (s : State) (g cause sub : Nat) (info resume : Word) :
    CachesStand s (captureOwner s g cause sub info resume) := by
  have hpost : ∀ (u : State) o r, CachesStand u (postTrap u o r) := by
    intro u o r
    obtain ⟨_, _, _, _, _, h⟩ := postTrap_cases u o r
    rw [h]
    exact of_cores rfl
  have herror : ∀ (u : State) lk code, CachesStand u (launchError u lk code) := by
    intro u lk code
    obtain ⟨_, h⟩ := launchError_cases u lk code
    rw [h]
    exact of_cores rfl
  have hset : ∀ (u : State) t, CachesStand u (u.setThread g t) := fun u t => of_cores rfl
  cases h : trapFatal cause
  · rw [captureOwner_replayable s g sub info resume h]
    exact (landPushes s g).trans ((hpost _ _ _).trans ((hset _ _).trans (vacate _ g true)))
  · rw [captureOwner_fatal s g sub info resume h]
    refine (landPushes s g).trans ((hpost _ (s.thread g).owner
      (trapRecord (Machine.landPushes s g) g cause sub info resume)).trans (trans ?_ ((hset _ _).trans (vacate _ g true))))
    split
    · exact refl _
    · exact herror _ _ _

theorem parkThread (s : State) (g : Nat) (w : Wait) : CachesStand s (parkThread s g w) := by
  obtain ⟨_, _, _, h⟩ := parkThread_cases s g w
  rw [h]
  exact of_cores rfl

theorem ownerTrap (s : State) (g cause sub : Nat) (info resume : Word) : CachesStand s (ownerTrap s g cause sub info resume) := by
  unfold Machine.ownerTrap
  split
  · exact captureOwner s g cause sub info resume
  · exact parkThread s g _

theorem goesOn {s u : State} {g : Nat} (h : GoesOn s u g) : CachesStand s u := by
  obtain ⟨t, _, h⟩ := h
  have hset : CachesStand s (s.setThread g t) := of_cores rfl
  rcases h with ⟨rfl, _⟩ | (rfl | rfl) | ⟨_, _, _, rfl⟩
  · exact hset
  · exact hset.trans (parkThread _ g _)
  · exact hset.trans (parkThread _ g _)
  · exact hset.trans (ownerTrap _ g _ 0 _ _)

end CachesStand

/-! ### Parked threads (R79) -/

section
variable {s : State} {g : Nat}

/-- What a parked thread does whose port has answered what it was asked. -/
def parkGo (s : State) (g : Nat) : Host.Outcome State Fault Refusal :=
  match (s.thread g).status with
  | .parked (.port a n) =>
    .next (if tileClosed s (tileOf g) then s else if portReady s g a n then becomeReady s g else portAsk s g a n)
  | .parked (.needs l) => .next (if !tileClosed s (tileOf g) && l.all (needHolds s g) then becomeReady s g else s)
  | .parked (.mwait n) => .next (if !tileClosed s (tileOf g) && mwaitDone s g n then resumeRetire s g else s)
  | .parked (.trap t) => .next (if !tileClosed s (tileOf g) && vectorDone s g then t.take s g else s)
  | .parked (.drop a k) => .next (if !tileClosed s (tileOf g) && vectorDone s g then dropThread s g a k else s)
  | _ => .next s

theorem park_unasked (hg : g < Config.threads) (hp : ((s.thread g).port.any fun p => !p.answered s) = false) :
    exec (.parkConditionMet g) s = parkGo s g := by
  show execParkConditionMet g s = _
  unfold execParkConditionMet
  rw [if_pos hg, hp, if_neg Bool.false_ne_true]
  rfl

end

theorem parkedThreadsResume : ParkedThreadsResume := by
  intro s g hg
  refine ⟨fun hp => ?_, fun hc hp => ⟨fun a n hw => ?_, fun l hw hl => ?_, fun n hw hm => ?_, fun t hw hv => ?_,
    fun a k hw hv => ?_⟩⟩
  · show execParkConditionMet g s = _
    unfold execParkConditionMet
    rw [if_pos hg, hp, if_pos rfl]
  · rw [park_unasked hg hp, parkGo, hw]
    simp only [hc, Bool.false_eq_true, if_false]
  · refine ⟨becomeReady s g, ?_, ?_, ?_, ?_, rfl⟩
    · rw [park_unasked hg hp, parkGo, hw]
      simp only [hc, hl, Bool.not_false, Bool.and_self, if_true]
    all_goals rw [becomeReady, State.thread_mod]
    · rfl
    · rfl
  · rw [park_unasked hg hp, parkGo, hw]
    simp only [hc, hm, Bool.not_false, Bool.and_self, if_true]
    rfl
  · rw [park_unasked hg hp, parkGo, hw]
    simp only [hc, hv, Bool.not_false, Bool.and_self, if_true]
  · rw [park_unasked hg hp, parkGo, hw]
    simp only [hc, hv, Bool.not_false, Bool.and_self, if_true]

/-! ### Lines (R81) -/

theorem lineStored_insert (n draw : Nat) (c : Core) (o : Nat) (a : Word) (ln : BitVec 512) :
    lineStored { c with lines := cacheInsert n draw c.lines (o, a, ln) } o a = some ln := by
  unfold lineStored cacheInsert
  dsimp only
  split <;> simp

/-- A line that has come enters the line store. -/
theorem storeLine_stored (s : State) (r : Req) (h : r.stale = false) :
    lineStored ((storeLine s r).core (coreOf r.g)) r.owner r.addr = some r.data := by
  unfold storeLine
  rw [h, if_neg Bool.false_ne_true]
  show lineStored ((s.modCore (coreOf r.g) fun c => { c with lines := cacheInsert 128 s.draws c.lines (r.owner, r.addr, r.data) }).core
    (coreOf r.g)) r.owner r.addr = some r.data
  rw [State.core_mod]
  exact lineStored_insert 128 s.draws _ _ _ _

theorem storeLine_stale (s : State) (r : Req) (h : r.stale = true) : storeLine s r = s := if_pos h

theorem storeLine_cases (s : State) (r : Req) : ∃ c n, storeLine s r = { s with cores := c, draws := n } := by
  unfold storeLine
  split
  · exact ⟨s.cores, s.draws, rfl⟩
  · exact ⟨_, _, rfl⟩

theorem enterFetched_stands (s : State) (g : Nat) (a : Word) (ln : BitVec 512) : CachesStand s (enterFetched s g a ln) := by
  have hr : CachesStand s (becomeReady s g) := .of_cores rfl
  unfold enterFetched
  refine hr.trans ?_
  dsimp only
  split
  · exact .refl _
  · split
    · exact .goesOn (enterLine_cases _ g ln)
    · exact .goesOn (enter_cases _ g)

/-- The state in which a line has come: its request has left the traffic. -/
def lineCome (s : State) (r : Req) : State := storeLine (dropReq (countLate s r) r.id) r

theorem lineCome_cases (s : State) (r : Req) :
    (lineCome s r).threads = s.threads ∧ (lineCome s r).traffic = s.traffic.filter (·.id != r.id) := by
  obtain ⟨x, hx⟩ := countLate_cases s r
  obtain ⟨c, n, hc⟩ := storeLine_cases (dropReq (countLate s r) r.id) r
  rw [lineCome, hc, hx]
  exact ⟨rfl, rfl⟩

theorem lineArrives : LineArrives := by
  intro s g r hg hr
  have hgr : r.g = g := by
    have h := List.find?_some hr
    simp only [Bool.and_eq_true, beq_iff_eq] at h
    exact h.1.2
  obtain ⟨hthreads, htraffic⟩ := lineCome_cases s r
  have hthread : ∀ j, (lineCome s r).thread j = s.thread j := fun j => by simp only [State.thread, hthreads]
  have hstale : r.stale = true → (lineCome s r).cores = s.cores := by
    intro h
    obtain ⟨x, hx⟩ := countLate_cases s r
    rw [lineCome, storeLine_stale _ r h, hx]
    rfl
  have hexec : exec (.lineFetchArrival g) s = .next (if (s.thread g).status = .parked (.fetch r.addr) ∧
      (s.thread g).serial = r.serial ∧ r.void = false then enterFetched (lineCome s r) g r.addr r.data else lineCome s r) := by
    show execLineFetchArrival g s = _
    unfold execLineFetchArrival
    rw [if_pos hg, hr]
    refine congrArg Host.Outcome.next (if_congr ?_ rfl rfl)
    rw [show (storeLine (dropReq (countLate s r) r.id) r).thread g = s.thread g from hthread g]
    simp
  refine ⟨_, hexec, fun h => ?_, fun h => ?_, fun h => ?_, fun _ hv => ?_, fun hw hs hv hln ha hl => ?_⟩
  · have hstored := storeLine_stored (dropReq (countLate s r) r.id) r h
    rw [hgr] at hstored
    split
    · rw [lineStored, (enterFetched_stands _ _ _ _ _).1]
      exact hstored
    · exact hstored
  · split
    · rw [(enterFetched_stands _ _ _ _ _).1, State.core, hstale h]
      rfl
    · rw [State.core, hstale h]
      rfl
  · rw [if_neg (fun hc => h hc.1)]
    exact htraffic
  · rw [if_neg (by simp [hv])]
    exact ⟨hthreads, htraffic⟩
  · rw [if_pos ⟨hw, hs, hv⟩]
    have hready : ((becomeReady (lineCome s r) g).thread g) =
        { (s.thread g).notBefore (((lineCome s r).core (coreOf g)).clock + 1) with status := .ready } := by
      rw [becomeReady, State.thread_mod, hthread]
    have hline : ((becomeReady (lineCome s r) g).thread g).line = none := by rw [hready]; exact hln
    have hpc : ((becomeReady (lineCome s r) g).thread g).pc = (s.thread g).pc := by rw [hready]; rfl
    unfold enterFetched
    simp only [hline, hpc, ha, Option.isSome_none, Bool.false_eq_true, if_false, if_true]
    unfold enterLine
    simp only [hpc, hl, if_true]
    rw [State.thread_set]
    exact ⟨rfl, rfl⟩

/-! ### Walks (R124, R128) -/

/-- The state in which a walk has read its tables: where the second-level TLB did not have the page, the uncorrectable
entries read are counted. -/
def walked (s : State) (g : Nat) (a : Word) : State :=
  if (tlbFind (s.die (dieOf (tileOf g))).tlb2 (s.thread g).owner a).isSome then s else countWalk s (whoIn s g) a

theorem walked_cases (s : State) (g : Nat) (a : Word) :
    (∃ t x l, walked s g a = { s with threads := t, owners := x, launches := l }) ∧
      ∃ n, (walked s g a).thread g = { s.thread g with data := n } := by
  unfold walked countWalk countBad
  split
  · exact ⟨⟨_, _, _, rfl⟩, _, rfl⟩
  · split
    · exact ⟨dataErrors_cases s (whoIn s g) 1, dataErrors_thread s (whoIn s g) 1⟩
    · exact ⟨⟨_, _, _, rfl⟩, _, rfl⟩

theorem resumeFetch_stands (s : State) (g : Nat) : CachesStand s (resumeFetch s g) := by
  have hr : CachesStand s (becomeReady s g) := .of_cores rfl
  unfold resumeFetch
  refine hr.trans ?_
  dsimp only
  split
  · exact .goesOn (enter_cases _ g)
  · exact .refl _

theorem tlbFind_insert (n draw : Nat) (l : List (Nat × Word × Nat × BitVec 64)) (o : Nat) (a : Word) (lg : Nat) (e : BitVec 64) :
    tlbFind (cacheInsert n draw l (o, a, lg, e)) o a = some (lg, e) := by
  unfold tlbFind cacheInsert
  split <;> simp

/-- A leaf enters the TLB of the thread's core. -/
theorem tlbFill_finds (s : State) (g o : Nat) (a : Word) (lg : Nat) (e : BitVec 64) :
    tlbFind ((tlbFill s g o a lg e).core (coreOf g)).tlb o a = some (lg, e) := by
  have h : (tlbFill s g o a lg e).core (coreOf g) =
      (s.modCore (coreOf g) fun c => { c with tlb := cacheInsert 384 s.draws c.tlb (o, a, lg, e) }).core (coreOf g) := rfl
  rw [h, State.core_mod]
  exact tlbFind_insert 384 s.draws _ o a lg e

/-- A read of as many bytes as a list that was written there is that list. -/
theorem memReadList_eq {m : Mem} {a : Nat} {l : List Byte} (h : ∀ k, k < l.length → memByte m (a + k) = l.getD k 0) :
    memReadList m a l.length = l := by
  induction l generalizing a with
  | nil => rfl
  | cons b l ih =>
    have hb : memByte m a = b := h 0 (by simp)
    have hl := ih (a := a + 1) fun k hk => by
      rw [Nat.add_right_comm]
      exact h (k + 1) (by simpa using hk)
    rw [List.length_cons, memReadList, hb, hl]

theorem memReadList_writeList {m : Mem} (h : memWf m = true) (a : Nat) (l : List Byte) :
    memReadList (memWriteList m a l) a l.length = l :=
  memReadList_eq fun k hk => by rw [memByte_writeList h, if_pos (by omega), Nat.add_sub_cancel_left]

theorem FRec.bytes_length (r : FRec) : r.bytes.length = 32 := by simp [FRec.bytes, bytesOfNat_length]

/-- The record of a drop (R129). -/
def dropRecord (s : State) (g : Nat) (a : Word) (k : AKind) : FRec :=
  { addr := a, pc := (s.thread g).pc, ident := BitVec.ofNat 32 (s.thread g).id, owner := (s.thread g).owner, kind := k,
    requester := 0, ch := 0 }

/-- A fault record joins the queue of its die and is written there, or is held (R129, R358). -/
theorem postFault_queue {s : State} {d : Nat} {r : FRec} (h : (s.die d).faults.length < 1024 ∧ (s.die d).held = []) :
    ((postFault s d r).die d).faults = (s.die d).faults ++ [r] ∧
      (postFault s d r).mem = memWriteList s.mem (kernelBase d + (s.die d).faultTail % 1024 * 32) r.bytes := by
  unfold postFault
  dsimp only
  rw [if_pos (by simpa using h)]
  refine ⟨?_, rfl⟩
  show ((s.setDie d _).die d).faults = _
  rw [State.die_set]

theorem postFault_held {s : State} {d : Nat} {r : FRec} (h : ¬ ((s.die d).faults.length < 1024 ∧ (s.die d).held = [])) :
    ((postFault s d r).die d).held = (s.die d).held ++ [r] ∧ (postFault s d r).mem = s.mem := by
  unfold postFault
  dsimp only
  rw [if_neg (by simpa using h), State.die_set]
  exact ⟨rfl, rfl⟩

theorem postFault_threads (s : State) (d : Nat) (r : FRec) : (postFault s d r).threads = s.threads := by
  unfold postFault
  dsimp only
  split <;> rfl

theorem dropThread_status (s : State) (g : Nat) (a : Word) (k : AKind) : ((dropThread s g a k).thread g).status = .dropped a k := by
  unfold dropThread
  simp only [State.thread, postFault_threads]
  exact congrArg Thread.status (State.thread_set _ g _)

/-- The state in which the dropped thread has left its place: its record is posted next. -/
def dropping (s : State) (g : Nat) (a : Word) (k : AKind) : State :=
  (landPushes s g).setThread g { (s.thread g).capture with port := none, status := .dropped a k }

theorem dropThread_eq (s : State) (g : Nat) (a : Word) (k : AKind) :
    dropThread s g a k = postFault (dropping s g a k) (dieOf (tileOf g)) (dropRecord s g a k) := rfl

theorem dropThread_queue {s : State} {g : Nat} {a : Word} {k : AKind}
    (h : (s.die (dieOf (tileOf g))).faults.length < 1024 ∧ (s.die (dieOf (tileOf g))).held = []) :
    ((dropThread s g a k).die (dieOf (tileOf g))).faults = (s.die (dieOf (tileOf g))).faults ++ [dropRecord s g a k] ∧
      (dropThread s g a k).mem = memWriteList s.mem (kernelBase (dieOf (tileOf g)) +
        (s.die (dieOf (tileOf g))).faultTail % 1024 * 32) (dropRecord s g a k).bytes :=
  postFault_queue (s := dropping s g a k) h

theorem dropThread_held {s : State} {g : Nat} {a : Word} {k : AKind}
    (h : ¬ ((s.die (dieOf (tileOf g))).faults.length < 1024 ∧ (s.die (dieOf (tileOf g))).held = [])) :
    ((dropThread s g a k).die (dieOf (tileOf g))).held = (s.die (dieOf (tileOf g))).held ++ [dropRecord s g a k] ∧
      (dropThread s g a k).mem = s.mem :=
  postFault_held (s := dropping s g a k) h

/-- A walk that reads its tables in one event ends with what it has found. -/
theorem pageWalk_walked {s : State} {g : Nat} {a : Word} {k : AKind} (hg : g < Config.threads)
    (hw : (s.thread g).status = .parked (.walk a k)) (ha : walkAnswer s g = none) (hr : walkReading s g a = false) :
    exec (.pageWalkComplete g) s =
      .next (walkEnd (walked s g a) g a k (walkVia s (dieOf (tileOf g)) (s.thread g).owner a)) := by
  show execPageWalkComplete g s = _
  unfold execPageWalkComplete
  rw [if_pos hg, ha, hw]
  simp only [hr, Bool.false_eq_true, if_false]
  rfl

/-- Where the entry of one table has come, the walk goes on with it. -/
theorem pageWalk_answered {s : State} {g : Nat} {r : Req} (hg : g < Config.threads) (ha : walkAnswer s g = some r) :
    exec (.pageWalkComplete g) s = .next (walkOn (dropReq (countLate s r) r.id) g r) := by
  show execPageWalkComplete g s = _
  unfold execPageWalkComplete
  rw [if_pos hg, ha]

theorem walksEnd : WalksEnd := by
  intro s g a k hg hw
  refine ⟨fun ha hr => ⟨fun b lg e h hl => ?_, fun h hv => ?_, fun h hv hm => ?_, fun h => ?_⟩, fun r l ha hs hra hb => ?_⟩
  · obtain ⟨-, n, hthread⟩ := walked_cases s g a
    refine ⟨_, pageWalk_walked hg hw ha hr, ?_⟩
    rw [h, walkEnd]
    simp only [hl, if_true, hthread]
    rw [(resumeFetch_stands _ g _).2]
    exact tlbFill_finds _ g _ a lg e
  · obtain ⟨⟨t, x, l, heq⟩, -⟩ := walked_cases s g a
    have hd : vectorDone (walked s g a) g = false := by rw [heq]; exact hv
    rw [pageWalk_walked hg hw ha hr, h, walkEnd]
    simp only [hd, Bool.false_eq_true, if_false]
    rfl
  · obtain ⟨⟨t, x, l, heq⟩, n, hthread⟩ := walked_cases s g a
    have hd : vectorDone (walked s g a) g = true := by rw [heq]; exact hv
    have hexec : exec (.pageWalkComplete g) s = .next (dropThread (walked s g a) g a k) := by
      rw [pageWalk_walked hg hw ha hr, h, walkEnd]
      simp only [hd, if_true]
    have hdie : (walked s g a).die (dieOf (tileOf g)) = s.die (dieOf (tileOf g)) := by rw [heq]; rfl
    have hmem : (walked s g a).mem = s.mem := by rw [heq]
    have hrec : dropRecord (walked s g a) g a k = dropRecord s g a k := by rw [dropRecord, hthread]; rfl
    refine ⟨_, hexec, dropThread_status _ g a k, fun hq => ?_, fun hq => ?_⟩
    · obtain ⟨hfaults, hwritten⟩ := dropThread_queue (k := k) (a := a) (hdie ▸ hq)
      rw [hdie, hrec] at hfaults hwritten
      rw [hmem] at hwritten
      refine ⟨hfaults, ?_, fun x hx => ?_⟩
      · have hread := memReadList_writeList hm (kernelBase (dieOf (tileOf g)) +
          (s.die (dieOf (tileOf g))).faultTail % 1024 * 32) (dropRecord s g a k).bytes
        rw [FRec.bytes_length, ← hwritten] at hread
        exact hread
      · rw [hwritten, memByte_writeList hm, FRec.bytes_length, if_neg (by omega)]
    · obtain ⟨hheld, hkept⟩ := dropThread_held (k := k) (a := a) (hdie ▸ hq)
      rw [hdie, hrec] at hheld
      exact ⟨hheld, hkept.trans hmem⟩
  · obtain ⟨-, n, hthread⟩ := walked_cases s g a
    rw [pageWalk_walked hg hw ha hr, h, walkEnd]
    simp only [hthread]
    rfl
  · obtain ⟨x, hx⟩ := countLate_cases s r
    have hthread : (dropReq (countLate s r) r.id).thread g = s.thread g := by rw [hx]; rfl
    have hentry : walkEntry (dropReq (countLate s r) r.id) = walkEntry s := by
      rw [hx]; rfl
    rw [pageWalk_answered hg ha, walkOn]
    simp only [hthread, hw, hra, hs, hb, By.level, Option.getD_some, ne_eq, not_true_eq_false, or_self, if_false]
    rw [hentry]
    exact ⟨fun w h => by rw [h], fun t h => by rw [h]⟩

/-- Settles O13 (R79, R81, R124, R128, R129). -/
theorem waitsEnd : Obligations.WaitsEnd := ⟨parkedThreadsResume, lineArrives, walksEnd⟩

/-! ### Fault queue and invalidations (R129, R360) -/

/-- Every TLB has dropped the entries of an invalidation. -/
def shotDown (s : State) (x : Shoot) : State :=
  { s with
    cores := s.cores.map fun p => (p.1, { p.2 with tlb := p.2.tlb.filter fun e => !x.hits e })
    dies := s.dies.map fun p => (p.1, { p.2 with tlb2 := p.2.tlb2.filter fun e => !x.hits e }) }

theorem shotDown_core (s : State) (x : Shoot) (c : Nat) :
    ((shotDown s x).core c).tlb = (s.core c).tlb.filter fun e => !x.hits e := by
  rcases core_map (s := s) (u := shotDown s x) (f := fun y => { y with tlb := y.tlb.filter fun e => !x.hits e }) rfl c with
    h | ⟨h, h'⟩
  · rw [h]
  · rw [h, h']
    rfl

theorem shotDown_die (s : State) (x : Shoot) (d : Nat) :
    ((shotDown s x).die d).shoot = (s.die d).shoot ∧
      ((shotDown s x).die d).tlb2 = (s.die d).tlb2.filter fun e => !x.hits e := by
  rcases die_map (s := s) (u := shotDown s x) (f := fun y => { y with tlb2 := y.tlb2.filter fun e => !x.hits e }) rfl d with
    h | ⟨h, h'⟩
  · rw [h]
    exact ⟨rfl, rfl⟩
  · rw [h, h']
    exact ⟨rfl, rfl⟩

/-- Settles O14: a TLB that an invalidation has gone through holds none of its entries and gained none. -/
theorem faultQueueAndShootdowns : Obligations.FaultQueueAndShootdowns := by
  intro s d hd
  refine ⟨fun r l h hroom => ?_, fun o a n h1 h2 => ?_, fun x l h hb => ?_⟩
  · refine ⟨queueFault (s.setDie d { s.die d with held := l }) d r, ?_, ?_⟩
    · show execFaultRecordPost d s = _
      unfold execFaultRecordPost
      simp only [hd, if_true, h, hroom]
    · unfold queueFault
      rw [State.die_set]
      have hset : ∀ (u : State) y m, ((u.setDie d y).setMem m).die d = y := fun u y m => State.die_set u d y
      rw [hset]
      exact ⟨rfl, rfl⟩
  · refine ⟨_, if_pos ⟨hd, h1, h2⟩, ?_⟩
    rw [State.die_mod]
  · have hexec : exec (.shootdownComplete d) s = .next (shotDown (s.modDie d fun y => { y with shoot := l }) x) := by
      show execShootdownComplete d s = _
      unfold execShootdownComplete
      simp only [hd, if_true, h, hb, Bool.false_eq_true, if_false]
      rfl
    refine ⟨_, hexec, ?_, fun c e he => ?_, fun y e he => ?_⟩
    · rw [(shotDown_die _ x d).1, State.die_mod]
    · rw [shotDown_core] at he
      have he := List.mem_filter.mp he
      exact ⟨by simpa using he.2, he.1⟩
    · rw [(shotDown_die _ x y).2] at he
      simpa using (List.mem_filter.mp he).2

end Sys2Proof.Machine
end

section
/-! PROOFS. Barriers: arrivals, the generation that completes or breaks, contributions and the release (spec/09 R167 to
R173). -/

namespace Sys2Proof.Machine

open Sys2Proof.Claims

/-! ### A generation that completes (R168, R173) -/

theorem sendCommits_cases (key : Nat) (l : List Contrib) (s : State) :
    ∃ x n, l.foldl (sendCommits key) s = { s with traffic := x, nextId := n } := by
  induction l generalizing s with
  | nil => exact ⟨_, _, rfl⟩
  | cons a l ih =>
    obtain ⟨x, n, h⟩ := ih (sendCommits key s a)
    exact ⟨x, n, h⟩

section
variable {s : State} {berth lk : Nat}

theorem barrierCheck_waits (h : (s.barrier (barKey berth lk)).committing = true ∨
    (s.barrier (barKey berth lk)).arrivals.length ≠ (members s berth lk).length) : barrierCheck s berth lk = s :=
  if_pos (.inr h)

theorem barrierCheck_completes (hb : (s.barrier (barKey berth lk)).broken = false)
    (hc : (s.barrier (barKey berth lk)).committing = false)
    (hl : (s.barrier (barKey berth lk)).arrivals.length = (members s berth lk).length)
    (hne : (s.barrier (barKey berth lk)).arrivals ≠ []) :
    ∃ x n, barrierCheck s berth lk = { s.setBarrier (barKey berth lk) { s.barrier (barKey berth lk) with
      arrivals := [], releasing := (s.barrier (barKey berth lk)).releasing ++ (s.barrier (barKey berth lk)).arrivals,
      contribs := [], committing := true } with traffic := x, nextId := n } := by
  unfold barrierCheck
  dsimp only
  rw [if_neg (by simp [hb, hc, hl]), if_neg (by simp [hne])]
  exact sendCommits_cases _ _ _

end

/-! ### Arrivals (R168, R169) -/

/-- The state in which an arrival has joined its barrier, and its thread waits. -/
def joined (s : State) (c : Nat) (a : Arrival) : State :=
  (s.modThread a.g fun t => { t with status := .parked .barrier, ready := c, base := c }).modBarrier (barOf s a.g) fun b =>
    { b with arrivals := b.arrivals ++ [a] }

theorem arrive_eq (s : State) (c : Nat) (a : Arrival) :
    arrive s c a = barrierCheck (joined s c a) (berthOf (tileOf a.g)) (s.thread a.g).launch := by
  have h : ((joined s c a).thread a.g).launch = (s.thread a.g).launch := by
    show ((s.modThread a.g fun t => { t with status := .parked .barrier, ready := c, base := c }).thread a.g).launch = _
    rw [State.thread_mod]
  rw [← h]
  rfl

theorem joined_barrier (s : State) (c : Nat) (a : Arrival) :
    (joined s c a).barrier (barOf s a.g) = { s.barrier (barOf s a.g) with
      arrivals := (s.barrier (barOf s a.g)).arrivals ++ [a] } := State.barrier_mod _ _ _

theorem joined_status (s : State) (c : Nat) (a : Arrival) : ((joined s c a).thread a.g).status = .parked .barrier :=
  congrArg Thread.status (State.thread_mod s a.g fun t => { t with status := .parked .barrier, ready := c, base := c })

/-- What an arrival does to the barrier `b` of key `key`, which becomes `b'`; `n` counts the live members. -/
def Arrived (b b' : Barrier) (x : Arrival) (n : Nat) : Prop :=
  if b.committing = false ∧ n = b.arrivals.length + 1 then
    b'.arrivals = [] ∧ b'.releasing = b.releasing ++ (b.arrivals ++ [x]) ∧ b'.committing = true ∧ b'.contribs = []
  else b'.arrivals = b.arrivals ++ [x] ∧ b'.committing = b.committing

/-- An arrival at a barrier that is not broken joins the generation, and completes it when it is the last. -/
theorem arrive_holds {s : State} (c : Nat) {a : Arrival} (hb : (s.barrier (barOf s a.g)).broken = false) :
    ((arrive s c a).thread a.g).status = .parked .barrier ∧ (arrive s c a).mem = s.mem ∧
      Arrived (s.barrier (barOf s a.g)) ((arrive s c a).barrier (barOf s a.g)) a
        (members (arrive s c a) (berthOf (tileOf a.g)) (s.thread a.g).launch).length := by
  have hjoined := joined_barrier s c a
  have hstatus := joined_status s c a
  rw [arrive_eq]
  by_cases h : (s.barrier (barOf s a.g)).committing = false ∧
      (members (joined s c a) (berthOf (tileOf a.g)) (s.thread a.g).launch).length = (s.barrier (barOf s a.g)).arrivals.length + 1
  · obtain ⟨hc, hl⟩ := h
    obtain ⟨x, n, hu⟩ := barrierCheck_completes (s := joined s c a) (berth := berthOf (tileOf a.g)) (lk := (s.thread a.g).launch)
      ((congrArg Barrier.broken hjoined).trans hb) ((congrArg Barrier.committing hjoined).trans hc)
      ((congrArg (·.arrivals.length) hjoined).trans (by simp [hl]))
      (by rw [show (joined s c a).barrier (barKey _ _) = _ from hjoined]; simp)
    rw [hu]
    refine ⟨hstatus, rfl, ?_⟩
    rw [Arrived, if_pos ⟨hc, hl⟩]
    have hset : ∀ (v : State) b, ({ v.setBarrier (barOf s a.g) b with traffic := x, nextId := n } : State).barrier (barOf s a.g) = b :=
      fun v b => State.barrier_set v _ b
    rw [show barKey (berthOf (tileOf a.g)) (s.thread a.g).launch = barOf s a.g from rfl, hset, hjoined]
    exact ⟨rfl, rfl, rfl, rfl⟩
  · have hw : barrierCheck (joined s c a) (berthOf (tileOf a.g)) (s.thread a.g).launch = joined s c a := by
      refine barrierCheck_waits ?_
      rw [show (joined s c a).barrier (barKey _ _) = _ from hjoined]
      cases hc : (s.barrier (barOf s a.g)).committing with
      | true => exact .inl rfl
      | false => exact .inr fun he => h ⟨hc, by simpa using he.symm⟩
    rw [hw, Arrived, if_neg h, hjoined]
    exact ⟨hstatus, rfl, rfl, rfl⟩

/-- A destination that must be reserved before its result comes is reserved. -/
def reserveQueue (s : State) (g : Nat) (d : Dst) (tag : Nat) : State :=
  match d with
  | .chain _ | .actor => awaitDst s g d tag
  | _ => s

theorem reserveQueue_moved (s : State) (g : Nat) (d : Dst) (tag : Nat) : Moved s (reserveQueue s g d tag) g := by
  unfold reserveQueue
  split
  · exact awaitDst_moved s g _ tag
  · exact awaitDst_moved s g _ tag
  · exact .refl s g

/-- The state in which `barto` has read its limit and reserved its destination. -/
def bartoRead (s : State) (g : Nat) (o : Opnds) : State :=
  reserveQueue (consume { s with nextId := s.nextId + 1 } g o.srcs) g (o.d 0) s.nextId

theorem bartoRead_reads (s : State) (g : Nat) (o : Opnds) :
    ∃ k, Reads { s with nextId := s.nextId + 1 } (bartoRead s g o) g k := by
  obtain ⟨k, h⟩ := consume_reads { s with nextId := s.nextId + 1 } g o.srcs
  exact ⟨k, h.trans_moved (reserveQueue_moved _ _ _ _)⟩

theorem bartoRead_keeps (s : State) (g : Nat) (o : Opnds) :
    (bartoRead s g o).mem = s.mem ∧ (bartoRead s g o).barriers = s.barriers ∧
      ((bartoRead s g o).thread g).launch = (s.thread g).launch := by
  obtain ⟨k, h⟩ := bartoRead_reads s g o
  obtain ⟨t, x, l, c, p, hu⟩ := h.module
  obtain ⟨_, _, _, ht⟩ := h.thread
  refine ⟨by rw [hu], by rw [hu], ?_⟩
  rw [ht]
  rfl

theorem fillDst_mem (s : State) (g : Nat) (d : Dst) (v : Word) (tag : Nat) : (fillDst s g d v tag).mem = s.mem := by
  obtain ⟨_, _, h⟩ := fillDst_cases s g d v tag
  rw [h]

theorem reg_setReg (t : Thread) (r : Fin 32) (x : GReg) : (t.setReg r x).reg r = x := by simp [Thread.setReg, Thread.reg]

/-- A register that is filled. -/
theorem fillDst_reg (s : State) (g : Nat) (r : Fin 32) (v : Word) (tag : Nat) :
    (((fillDst s g (.reg r) v tag).thread g).reg r) = { val := v, full := true } := by
  rw [fillDst, State.thread_mod]
  exact reg_setReg _ r _

/-- The barrier instructions of a thread whose counts are zero. -/
theorem bar_acts {s : State} (st : Stall) (hn : Meets s [.counts true true true])
    (hb : (s.barrier (barOf (landed s) s.cur)).broken = false) :
    Acts s (.bar st) (arrive (landed s) (clockOf s)
      { g := s.cur, timed := false, limit := 0, since := s.work, dst := .none, tag := 0 }) := by
  refine acts_ok (pair := false) (f := fun s c => do
    require s s.cur [.counts true true true]
    if (s.barrier (barOf s s.cur)).broken then throw (.localTrap 3 0 0)
    return arrive s c { g := s.cur, timed := false, limit := 0, since := s.work, dst := .none, tag := 0 }) rfl ?_
  rw [landed_cur, require_ok hn]
  exact if_neg (ne_true_of_eq_false hb)

theorem barto_acts {s : State} {st : Stall} {d a : RegNum} {o : Opnds} (h : Ready s [a] [d] o)
    (hn : Meets s [.counts true true true]) :
    Acts s (.barto st d a) (if (s.barrier (barOf (landed s) s.cur)).broken then
        retire (fillDst (bartoRead (landed s) s.cur o) s.cur (o.d 0) 1 s.nextId) s.cur (clockOf s) st false none
      else arrive (bartoRead (landed s) s.cur o) (clockOf s)
        { g := s.cur, timed := true, limit := (o.v 0).toNat, since := s.work, dst := o.d 0, tag := s.nextId }) := by
  refine acts_ok (pair := false) (f := fun s c => do
    let o ← operands s s.cur [a] [d]
    require s s.cur [.counts true true true]
    let s' := bartoRead s s.cur o
    if (s.barrier (barOf s s.cur)).broken then
      return retire (fillDst s' s.cur (o.d 0) 1 s.nextId) s.cur c st false none
    return arrive s' c
      { g := s.cur, timed := true, limit := (o.v 0).toNat, since := s.work, dst := o.d 0, tag := s.nextId }) rfl ?_
  rw [landed_cur, show operands (landed s) s.cur [a] [d] = .ok o from h]
  simp only [bind, Except.bind, require_ok hn]
  by_cases hb : (s.barrier (barOf (landed s) s.cur)).broken = true
  · rw [if_pos hb, if_pos (show ((landed s).barrier (barOf (landed s) s.cur)).broken = true from hb)]
    rfl
  · rw [if_neg hb, if_neg (show ¬ ((landed s).barrier (barOf (landed s) s.cur)).broken = true from hb)]
    rfl

/-- What an instruction does that has its thread arrive at a barrier that is not broken. -/
theorem arrival_of {s v : State} {i : Instr} {x : Arrival} (hi : Acts s i (arrive v (clockOf s) x)) (hx : x.g = s.cur)
    (hbar : v.barriers = s.barriers) (hmem : v.mem = s.mem) (hl : (v.thread s.cur).launch = (issuer s).launch)
    (hb : (s.barrier (barKey (berthOf (tileOf s.cur)) (issuer s).launch)).broken = false) :
    ∃ u, exec i s = .next u ∧ (u.thread s.cur).status = .parked .barrier ∧ u.mem = s.mem ∧
      Arrived (s.barrier (barKey (berthOf (tileOf s.cur)) (issuer s).launch))
        (u.barrier (barKey (berthOf (tileOf s.cur)) (issuer s).launch)) x
        (members u (berthOf (tileOf s.cur)) (issuer s).launch).length := by
  have hkey : barOf v x.g = barKey (berthOf (tileOf s.cur)) (issuer s).launch := by rw [barOf, hx, hl]
  have hv : v.barrier (barOf v x.g) = s.barrier (barKey (berthOf (tileOf s.cur)) (issuer s).launch) := by
    rw [hkey, State.barrier, hbar]
    rfl
  obtain ⟨hstatus, hm, harrived⟩ := arrive_holds (s := v) (clockOf s) (a := x) (by rw [hv]; exact hb)
  rw [hv, hkey, hx, hl] at harrived
  rw [hx] at hstatus
  exact ⟨_, hi, hstatus, hm.trans hmem, harrived⟩

/-- `bar.reset` mends a broken barrier, whose waiters have left (R168). -/
def mended (s : State) (g : Nat) : State :=
  if (s.barrier (barOf s g)).broken then s.modBarrier (barOf s g) fun b => { b with broken := false, arrivals := [] } else s

theorem barReset_exec (s : State) (st : Stall) : exec (.barReset st) s =
    runInstr s s.cur false fun s c => .ok (retire (mended s s.cur) s.cur c st false none) := rfl

theorem barrierArrivals : BarrierArrivals := by
  intro s st d a o key b arrives
  refine ⟨fun hn hb => ?_, fun h hn hb => ?_, fun h hn hb => ?_, fun hn hb => ?_, fun hb => ?_, fun hb => ?_⟩
  · exact arrival_of (bar_acts st hn hb) rfl rfl rfl rfl hb
  · obtain ⟨hmem, hbar, hl⟩ := bartoRead_keeps (landed s) s.cur o
    have hi := barto_acts (st := st) h hn
    rw [if_neg (show ¬ (s.barrier (barOf (landed s) s.cur)).broken = true from ne_true_of_eq_false hb)] at hi
    exact arrival_of hi rfl hbar hmem hl hb
  · obtain ⟨hmem, hbar, hl⟩ := bartoRead_keeps (landed s) s.cur o
    have hi := barto_acts (st := st) h hn
    rw [if_pos (show (s.barrier (barOf (landed s) s.cur)).broken = true from hb)] at hi
    refine ⟨_, hi, (fillDst_mem _ _ _ _ _).trans hmem, fun r hr => ?_⟩
    rw [hr]
    rw [fillDst_reg]
    exact ⟨rfl, rfl⟩
  · refine stops_err (pair := false) (f := fun s c => do
      require s s.cur [.counts true true true]
      if (s.barrier (barOf s s.cur)).broken then throw (.localTrap 3 0 0)
      return arrive s c { g := s.cur, timed := false, limit := 0, since := s.work, dst := .none, tag := 0 })
      (e := .localTrap 3 0 0) rfl ?_
    rw [landed_cur, require_ok hn]
    exact if_pos hb
  · exact acts_ok (barReset_exec s st) (congrArg (fun u => Except.ok (retire u s.cur (clockOf s) st false none))
      (if_pos (c := ((landed s).barrier (barOf (landed s) s.cur)).broken = true) hb))
  · exact acts_ok (barReset_exec s st) (congrArg (fun u => Except.ok (retire u s.cur (clockOf s) st false none))
      (if_neg (c := ((landed s).barrier (barOf (landed s) s.cur)).broken = true) (ne_true_of_eq_false hb)))

/-! ### Contributions (R172) -/

/-- The state in which `dadd` has read its operands and its contribution is recorded. -/
def contributed (s : State) (g : Nat) (o : Opnds) (a : Word) (key : Nat) (dbl : Bool) : State :=
  (consume s g o.srcs).modBarrier (barOf s g) fun b => { b with
    contribs := b.contribs ++ [{ who := whoIn s g, id := (s.thread g).id, addr := a, key := key, dbl := dbl, val := o.v 1 }] }

theorem consume_module (s : State) (g : Nat) (ss : List Src) :
    ∃ t x l c p, consume s g ss = { s with threads := t, owners := x, launches := l, cores := c, rputs := p } := by
  obtain ⟨_, h⟩ := consume_reads s g ss
  exact h.module

theorem contributed_keeps (s : State) (g : Nat) (o : Opnds) (a : Word) (key : Nat) (dbl : Bool) :
    (contributed s g o a key dbl).mem = s.mem ∧ (contributed s g o a key dbl).nextId = s.nextId ∧
      ((contributed s g o a key dbl).barrier (barOf s g)).contribs = (s.barrier (barOf s g)).contribs ++
        [{ who := whoIn s g, id := (s.thread g).id, addr := a, key := key, dbl := dbl, val := o.v 1 }] := by
  obtain ⟨_, _, _, _, _, h⟩ := consume_module s g o.srcs
  unfold contributed
  rw [h, State.barrier_mod]
  exact ⟨rfl, rfl, rfl⟩

theorem whoIn_landed (s : State) : whoIn (landed s) s.cur = whoIn s s.cur := (Reads.of_moved (landed_moved s)).who

/-- A thread waits for the acceptance of its operation. -/
theorem sendAccepted_parks (s : State) (g c : Nat) (st : Stall) (a : Word) :
    (sendAccepted s g c st a).mem = s.mem ∧ (∀ k, (sendAccepted s g c st a).barrier k = s.barrier k) ∧
      ((sendAccepted s g c st a).thread g).status = .parked (.access s.nextId) := by
  unfold sendAccepted
  rw [State.thread_mod]
  exact ⟨rfl, fun _ => rfl, rfl⟩

/-- `dadd` behind the stages of its operand: where it goes over a link or is the seventeenth of its thread it traps. -/
theorem dadd_exec (s : State) (st : Stall) (b : Bool) (x : RegNum) (m : MemOp 38) :
    exec (.dadd st b x m) s = runInstr s s.cur false fun s c => do
      let y ← memStages s s.cur (memArg m) { atomicAsk (dblBytes b) with bank := false } [x] []
      if overLink y.2.2 then throw (.owner 6 0 y.2.1)
      if 16 ≤ contribCount s s.cur then throw (.localTrap 4 0 y.2.1)
      return sendAccepted (contributed s s.cur y.1 y.2.1 y.2.2 b) s.cur c st y.2.1 := rfl

theorem contributions : Contributions := by
  intro s st b x m o a key q k h
  have hstages : memStages (landed s) s.cur (memArg m) { atomicAsk (dblBytes b) with bank := false } [x] [] = .ok (o, a, key) := h
  refine ⟨fun hl hc => ?_, fun hl hc => ?_, fun hl => ?_⟩
  · have hi : Acts s (.dadd st b x m) (sendAccepted (contributed (landed s) s.cur o a key b) s.cur (clockOf s) st a) := by
      refine acts_ok (dadd_exec s st b x m) ?_
      rw [landed_cur, hstages]
      simp only [bind, Except.bind, hl, Bool.false_eq_true, if_false, if_neg (Nat.not_le.mpr hc)]
      rfl
    obtain ⟨hmem, hid, hbar⟩ := contributed_keeps (landed s) s.cur o a key b
    obtain ⟨hm, hb, hstatus⟩ := sendAccepted_parks (contributed (landed s) s.cur o a key b) s.cur (clockOf s) st a
    rw [hid] at hstatus
    rw [whoIn_landed] at hbar
    exact ⟨_, hi, hm.trans hmem, (congrArg Barrier.contribs (hb k)).trans hbar, hstatus⟩
  · refine stops_err (dadd_exec s st b x m) (e := .localTrap 4 0 a) ?_
    rw [landed_cur, hstages]
    simp only [bind, Except.bind, hl, Bool.false_eq_true, if_false, if_pos hc]
    rfl
  · refine stops_err (dadd_exec s st b x m) (e := .owner 6 0 a) ?_
    rw [landed_cur, hstages]
    simp only [bind, Except.bind, hl, if_true]
    rfl

/-- Settles O17. -/
theorem barrierInstructions : Obligations.BarrierInstructions := ⟨barrierArrivals, contributions⟩

/-! ### A limit that runs out, and the release (R168, R170, R173) -/

theorem ControlOnly.barrier {s u : State} (h : ControlOnly s u) (k : Nat) : u.barrier k = s.barrier k := by
  obtain ⟨_, _, _, _, _, _, _, _, _, rfl⟩ := h
  rfl

theorem ControlOnly.foldl {α : Type} {f : State → α → State} (h : ∀ u a, ControlOnly u (f u a)) (l : List α) (s : State) :
    ControlOnly s (l.foldl f s) := by
  induction l generalizing s with
  | nil => exact .refl s
  | cons a l ih => exact (h s a).trans (ih _)

theorem misuseBoth_control (s : State) (w : Who) : ControlOnly s (misuseBoth s w) := by
  unfold misuseBoth
  dsimp only
  split <;> exact ⟨_, _, _, _, _, _, _, _, _, rfl⟩

theorem releaseOne_control (status : Word) (s : State) (a : Arrival) : ControlOnly s (releaseOne status s a) := by
  have hresume : ∀ u, ControlOnly u (resumeRetire u a.g) := fun u =>
    (retire_control u a.g _ _ false none).trans ⟨_, _, _, _, _, _, _, _, _, rfl⟩
  unfold releaseOne
  dsimp only
  split
  · obtain ⟨_, _, h⟩ := fillDst_cases s a.g a.dst status a.tag
    have hfill : ControlOnly s (deliver s a.g a.dst status a.tag) := by
      rw [deliver, h]
      exact ⟨_, _, _, _, _, _, _, _, _, rfl⟩
    exact hfill.trans (hresume _)
  · exact hresume s

theorem breakOne_control (s : State) (a : Arrival) : ControlOnly s (breakOne s a) := by
  unfold breakOne
  split
  · exact releaseOne_control 1 s a
  · exact takeLocal_control s a.g _ 3 0 0 false false

/-- Waiters that leave a broken barrier leave it broken and empty. -/
theorem breakOut_barrier (s : State) (k : Nat) :
    (breakOut s k).barrier k = { s.barrier k with breaking := (s.barrier k).breaking.filter (·.gated s) } := by
  rw [breakOut, (ControlOnly.foldl breakOne_control _ _).barrier, State.barrier_set]

theorem discardContribs_barrier (s : State) (k : Nat) :
    (discardContribs s k).barrier k = { s.barrier k with contribs := [] } := by
  rw [discardContribs, (ControlOnly.foldl (fun u (x : Contrib) => misuseBoth_control u x.who) _ _).barrier, State.barrier_mod]

/-- Settles O18. -/
theorem barrierEvents : Obligations.BarrierEvents := by
  intro s berth lk hberth hp key b
  have hp' : s.pause.isSome = false := by rw [hp]; rfl
  refine ⟨fun hb ha => ?_, fun hc ht hr => ?_⟩
  · let v := s.setBarrier key { b with broken := true, arrivals := [], ranAt := [], breaking := b.breaking ++ b.arrivals }
    have hran : b.ranOut s.work = true := by rw [Barrier.ranOut, hb, ha]; rfl
    have hexec : exec (.bartoLimitExpiry berth lk) s = .next (breakOut (discardContribs v key) key) := by
      show execBartoLimitExpiry berth lk s = _
      unfold execBartoLimitExpiry
      simp only [hberth, if_true, hp', Bool.false_eq_true, if_false, show (s.barrier (barKey berth lk)).ranOut s.work = true from hran,
        Bool.not_true]
      rfl
    have hend : (breakOut (discardContribs v key) key).barrier key = { b with
        broken := true, arrivals := [], contribs := [], ranAt := []
        breaking := (b.breaking ++ b.arrivals).filter (·.gated (discardContribs v key)) } := by
      rw [breakOut_barrier, discardContribs_barrier, State.barrier_set]
    exact ⟨_, hexec, by rw [hend], by rw [hend], by rw [hend]⟩
  · have hfilter : b.releasing.filter (fun a => !a.gated s) = b.releasing := List.filter_eq_self.mpr fun a h =>
      List.all_eq_true.mp hr a h
    have hgated : b.releasing.filter (·.gated s) = [] := List.filter_eq_nil_iff.mpr fun a h => by
      simpa using List.all_eq_true.mp hr a h
    have hfree : ¬ (s.pause.isSome = true ∨ (!b.committing && b.releasing.isEmpty) = true ∨
        s.traffic.any (fun r => r.by_ == .commit key) = true) := by
      rw [hp', hc, ht]
      simp
    have hgated' : ∀ a : Arrival, a.gated (s.setBarrier key { b with committing := false, releasing := [] }) = a.gated s :=
      fun _ => rfl
    show execBarrierRelease berth lk s = _
    unfold execBarrierRelease
    rw [if_pos hberth]
    dsimp only
    rw [if_neg hfree]
    show Host.Outcome.next (barrierCheck ((b.releasing.filter fun a => !a.gated (s.setBarrier key
      { b with committing := false, releasing := b.releasing.filter (·.gated s) })).foldl (releaseOne 0) (s.setBarrier key
      { b with committing := false, releasing := b.releasing.filter (·.gated s) })) berth lk) = _
    rw [hgated]
    simp only [hgated']
    rw [hfilter]

end Sys2Proof.Machine
end

section
/-! PROOFS. Queues, bindings, buffers, copies, remote registers and channels (spec/10 R174 to R196). -/

namespace Sys2Proof.Machine

open Sys2Proof.Claims

/-! ### Reads of queues and buffers (R189, R193 to R196) -/

/-- A check that passes goes on to what follows. -/
theorem passes {α β : Type} {x : Except Stop α} {a : α} {f : α → Except Stop β} (h : x = .ok a) : (x >>= f) = f a := by
  rw [h]
  rfl

/-- An instruction that looks at a queue and has one result. -/
theorem gives_count {s : State} {i : Instr} {st : Stall} {d a : RegNum} {o : Opnds} {n : Nat} (f : Nat → Word)
    (h : Ready s [] [d] o) (hq : queueCount (landed s) s.cur a = .ok n)
    (hi : exec i s = runInstr s s.cur false fun s c => do
      let n ← queueCount s s.cur a
      compute s s.cur c st 4 [] d fun _ => .ok (f n)) :
    Gives s i st 4 o (f n) := by
  refine acts_ok hi ?_
  refine (passes hq).trans ?_
  exact compute_ok (v := f n) (f := fun _ => .ok (f n)) h rfl

theorem queueAndBufferReads : QueueAndBufferReads := by
  intro s st d a o n buf ch h T
  refine ⟨fun hq => ⟨?_, ?_⟩, ?_, ?_, ?_, ?_⟩
  · exact gives_count (fun n => if n = 0 then 0 else 1) h hq rfl
  · exact gives_count (BitVec.ofNat 64) h hq rfl
  · exact gives_of (f := fun s _ => .ok (bufWord ((s.tile (tileOf s.cur)).buf buf.toNat))) rfl h rfl
  · exact gives_of (f := fun s _ => .ok (BitVec.ofNat 64 (((s.tile (tileOf s.cur)).chan ch.toNat).ptr.toList.getD (s.cur % 32) 0)))
      rfl h rfl
  · exact gives_of (f := fun s _ => .ok (bindWord (s.core (coreOf s.cur)).inb (s.core (coreOf s.cur)).stage)) rfl h rfl
  · exact gives_of (f := fun s _ => .ok (bindWord (s.core (coreOf s.cur)).outb (s.core (coreOf s.cur)).stage)) rfl h rfl

/-! ### Descriptors (R185, R193, R194) -/

theorem bufset_exec (s : State) (st : Stall) (e : BufEvent) (buf : BitVec 5) : exec (.bufset st e buf) s =
    runInstr s s.cur false fun s c =>
      match bufMove ((s.tile (tileOf s.cur)).buf buf.toNat) e with
      | .error k => .error (bufFault k ((s.tile (tileOf s.cur)).buf buf.toNat).addr)
      | .ok b => .ok (retire (s.modTile (tileOf s.cur) fun t =>
          t.applyBuf s.cur buf.toNat { (s.tile (tileOf s.cur)).buf buf.toNat with state := b }) s.cur c st false none) := rfl

/-- The descriptor that `bufdecl` gives (R193). -/
def declaredBuf (n : Nat) (a : Word) (y : Buf) : Buf :=
  if n = 0 then { ch := y.ch } else { declared := true, addr := a, len := n, ch := y.ch }

theorem bufdecl_acts {s : State} {st : Stall} {buf len : RegNum} {m : MemOp 40} {o : Opnds} {a : Word} (hbuf : buf.toNat < 32)
    (h : Ready s [m.off, len] [] o) (hn : Meets s (kwNeeds m.kw))
    (he : Extent s (issuer s).segs[m.seg.toNat] (o.v 0 + m.disp.signExtend 64) (o.v 1).toNat 1 8 a)
    (hy : ¬ (((s.tile (tileOf s.cur)).buf buf.toNat).declared ∧ (((s.tile (tileOf s.cur)).buf buf.toNat).state = .filling ∨
      ((s.tile (tileOf s.cur)).buf buf.toNat).state = .draining)))
    (hfree : ¬ ((o.v 1).toNat ≠ 0 ∧ (((s.tile (tileOf s.cur)).bufs.toList.zipIdx.any (fun z => z.2 != buf.toNat && z.1.declared &&
      overlap a.toNat (o.v 1).toNat z.1.addr.toNat z.1.len)) ∨
        hitsLanding (landed s) (issuer s).owner a (o.v 1).toNat 1 0))) :
    Completes s (.bufdecl st buf len m) st ((consume (landed s) s.cur o.srcs).modTile (tileOf s.cur) fun t =>
      t.applyBuf s.cur buf.toNat (declaredBuf (o.v 1).toNat a ((s.tile (tileOf s.cur)).buf buf.toNat))) none := by
  refine acts_ok (pair := false) (f := fun s c => do
    if 32 ≤ buf.toNat then throw (illegalOperand buf)
    let o ← operands s s.cur [m.off, len] []
    require s s.cur (kwNeeds m.kw)
    let n := (o.v 1).toNat
    let a ← extentCheck s (s.thread s.cur).owner ((s.thread s.cur).segs[m.seg.toNat])
      (segOff (o.v 0) false 1 (m.disp.signExtend 64)) n 1 8
    let y := (s.tile (tileOf s.cur)).buf buf.toNat
    if y.declared ∧ (y.state = .filling ∨ y.state = .draining) then throw (bufFault 1 a)
    if n ≠ 0 ∧ ((s.tile (tileOf s.cur)).bufs.toList.zipIdx.any (fun z => z.2 != buf.toNat && z.1.declared &&
        overlap a.toNat n z.1.addr.toNat z.1.len) ∨ hitsLanding s (s.thread s.cur).owner a n 1 0) then throw (bufFault 5 a)
    return retire ((consume s s.cur o.srcs).modTile (tileOf s.cur) fun t => t.applyBuf s.cur buf.toNat (declaredBuf n a y)) s.cur
      c st false none) rfl ?_
  refine (if_neg (by omega)).trans ?_
  refine (passes h).trans ?_
  refine (passes (require_ok hn)).trans ?_
  refine (passes he).trans ?_
  refine (if_neg hy).trans ?_
  exact (if_neg hfree).trans rfl

theorem bufferStates : BufferStates := by
  intro s st T
  refine ⟨fun e buf y hm => ?_, fun e buf k hm => ?_, fun buf len m o a hbuf h hn he hy hfree => ?_⟩
  · refine acts_ok (bufset_exec s st e buf) ?_
    rw [landed_cur, show bufMove (((landed s).tile (tileOf s.cur)).buf buf.toNat) e = .ok y from hm]
    rfl
  · refine stops_err (bufset_exec s st e buf) (e := .owner 5 k ((s.tile T).buf buf.toNat).addr) ?_
    rw [landed_cur, show bufMove (((landed s).tile (tileOf s.cur)).buf buf.toNat) e = .error k from hm]
    rfl
  · refine bufdecl_acts hbuf h hn he ?_ ?_
    · rintro ⟨hd, hf⟩
      rcases hy with hy | hy | hy
      · exact absurd (hd.symm.trans hy) (by decide)
      · rcases hf with hf | hf <;> exact absurd (hy.symm.trans hf) (by decide)
      · rcases hf with hf | hf <;> exact absurd (hy.symm.trans hf) (by decide)
    · rintro ⟨hne, hf⟩
      obtain ⟨hover, hland⟩ := hfree.resolve_left hne
      rcases hf with hf | hf
      · obtain ⟨z, hz, hz'⟩ := List.any_eq_true.mp hf
        simp only [Bool.and_eq_true, bne_iff_ne] at hz'
        exact absurd (hover z hz hz'.1.1 hz'.1.2) (ne_false_of_eq_true hz'.2)
      · exact absurd hf (ne_true_of_eq_false hland)

/-- Settles O19. -/
theorem queuesAndBuffers : Obligations.QueuesAndBuffers := ⟨queueAndBufferReads, bufferStates⟩

/-! ### Copies that start (R190 to R192) -/

/-- The copy that a plan starts. -/
def planned (s : State) (g buf : Nat) (cf : Option (Fin 32)) (p : CopyPlan) : Copy :=
  { n := s.nextId, pc := (s.thread g).pc, g := g, serial := (s.thread g).serial, slot := g % 32, owner := (s.thread g).owner
    launch := (s.thread g).launch, kind := p.kind, buf := buf, base := p.seg.base, limit := p.seg.limit.toNat
    sty := p.seg.type, off := p.off, len := p.len, cf := cf }

/-- The state in which a copy has joined its channel's queue. -/
def copyQueued (s : State) (g : Nat) (ch : BitVec 2) (buf : Nat) (srcs : List Src) (x : Copy) : State :=
  (consume { s with nextId := s.nextId + 1 } g srcs).modTile (tileOf g) fun z =>
    (z.applyBuf g buf { (s.tile (tileOf g)).buf buf with state := .filling, ch := ch.toNat, status := 0 }).modChan ch.toNat
      fun k => { k with queue := k.queue ++ [x], ptr := k.ptr.setIfInBounds (g % 32) 0 }

/-- The state in which its completion register waits too (R187). -/
def copyAwaited (s : State) (g : Nat) (cf : Option (Fin 32)) : State :=
  match cf with
  | some r => awaitDst s g (.reg r) 0
  | none => s

/-- The checks of a start once its segments are checked (R120, R184, R190). -/
structure CopyPasses (s : State) (g : Nat) (ch : BitVec 2) (buf : Nat) (p : CopyPlan) : Prop where
  declared : ((s.tile (tileOf g)).buf buf).declared = true
  empty : ((s.tile (tileOf g)).buf buf).state = .empty
  clear : hitsLanding s (s.thread g).owner ((s.tile (tileOf g)).buf buf).addr p.writes.1 p.writes.2.1 p.writes.2.2 = false
  reads : ∀ x ∈ p.reads, sourceCheck s (tileOf g) x = .ok ()
  shape : p.shapeOk = true
  fits : p.plain = true → p.dext ≤ ((s.tile (tileOf g)).buf buf).len
  room : [Need.channel ch.toNat].all (needHolds s g) = true

theorem reads_pass {s : State} {T : Nat} {l : List Rows} (h : ∀ x ∈ l, sourceCheck s T x = .ok ()) :
    l.forM (sourceCheck s T) = .ok () := by
  induction l with
  | nil => rfl
  | cons a l ih =>
    refine (passes (h a (by simp))).trans ?_
    exact ih fun x hx => h x (by simp [hx])

theorem copyStart_ok {s : State} {g c : Nat} {st : Stall} {ch : BitVec 2} {buf : Nat} {cf : Option (Fin 32)} {srcs : List Src}
    {p : CopyPlan} (h : CopyPasses s g ch buf p) :
    copyStart s g c st ch buf cf srcs p =
      .ok (retire (copyAwaited (copyQueued s g ch buf srcs (planned s g buf cf p)) g cf) g c st false none) := by
  unfold copyStart
  refine (if_neg fun hc => ne_true_of_eq_false h.clear hc.2).trans ?_
  refine (passes (reads_pass h.reads)).trans ?_
  refine (if_neg (by simp [h.declared])).trans ?_
  refine (if_neg fun hc => hc h.empty).trans ?_
  refine (if_neg (by simp [h.shape])).trans ?_
  refine (if_neg fun hc => absurd (h.fits hc.1) (by omega)).trans ?_
  refine (passes (require_ok h.room)).trans ?_
  rfl

theorem chan_modChan (x : Tile) {ch : Nat} (f : Chan → Chan) (h : ch < 4) : (x.modChan ch f).chan ch = f (x.chan ch) := by
  simp [Tile.modChan, Tile.chan, h]

theorem buf_modChan (x : Tile) (ch b : Nat) (f : Chan → Chan) : (x.modChan ch f).buf b = x.buf b := by
  unfold Tile.modChan
  split <;> rfl

theorem buf_setBuf (x : Tile) {b : Nat} (y : Buf) (h : b < 32) : (x.setBuf b y).buf b = y := by
  simp [Tile.setBuf, Tile.buf, h]

theorem buf_applyBuf (x : Tile) (g : Nat) {b : Nat} (y : Buf) (h : b < 32) : (x.applyBuf g b y).buf b = y := buf_setBuf x y h

theorem copyAwaited_cases (s : State) (g : Nat) (cf : Option (Fin 32)) :
    ∃ t c p, copyAwaited s g cf = { s with threads := t, cores := c, rputs := p } := by
  unfold copyAwaited
  split
  · exact (awaitDst_moved s g _ 0).module
  · exact ⟨_, _, _, rfl⟩

theorem copyQueued_keeps (s : State) (g : Nat) (ch : BitVec 2) (buf : Nat) (srcs : List Src) (x : Copy) :
    (copyQueued s g ch buf srcs x).nextId = s.nextId + 1 ∧ (copyQueued s g ch buf srcs x).mem = s.mem ∧
      (copyQueued s g ch buf srcs x).tile (tileOf g) =
        ((s.tile (tileOf g)).applyBuf g buf { (s.tile (tileOf g)).buf buf with state := .filling, ch := ch.toNat, status := 0 }).modChan
          ch.toNat fun k => { k with queue := k.queue ++ [x], ptr := k.ptr.setIfInBounds (g % 32) 0 } := by
  obtain ⟨_, _, _, _, _, hu⟩ := consume_module { s with nextId := s.nextId + 1 } g srcs
  unfold copyQueued
  rw [hu, State.tile_mod]
  exact ⟨rfl, rfl, rfl⟩

/-- A copy instruction whose plan passes its checks starts its copy. -/
theorem starts_of {s : State} {i : Instr} {st : Stall} {ch : BitVec 2} {buf : Nat} {cf : Option (Fin 32)} {srcs : List Src}
    {p : CopyPlan} {f : State → Nat → Except Stop State} (hi : exec i s = runInstr s s.cur false f)
    (hf : f (landed s) (clockOf s) = copyStart (landed s) s.cur (clockOf s) st ch buf cf srcs p) (hbuf : buf < 32)
    (h : CopyPasses (landed s) s.cur ch buf p) :
    Starts s i st ch.toNat (planned (landed s) s.cur buf cf p) := by
  obtain ⟨t, c, r, hv⟩ := copyAwaited_cases (copyQueued (landed s) s.cur ch buf srcs (planned (landed s) s.cur buf cf p)) s.cur cf
  obtain ⟨hid, hmem, htile⟩ := copyQueued_keeps (landed s) s.cur ch buf srcs (planned (landed s) s.cur buf cf p)
  have htile' : (copyAwaited (copyQueued (landed s) s.cur ch buf srcs (planned (landed s) s.cur buf cf p)) s.cur cf).tile
      (tileOf s.cur) = (copyQueued (landed s) s.cur ch buf srcs (planned (landed s) s.cur buf cf p)).tile (tileOf s.cur) := by
    rw [hv]
    rfl
  refine ⟨_, acts_ok hi (hf.trans (copyStart_ok h)), ?_, ?_, ⟨?_, ?_, ?_⟩, fun r hr => ?_⟩
  · rw [hv]
    exact hid
  · rw [hv]
    exact hmem
  · rw [htile', htile, chan_modChan _ _ ch.isLt]
    rfl
  · rw [htile', htile, chan_modChan _ _ ch.isLt]
    exact Vector.getElem?_setIfInBounds_self_of_lt (Nat.mod_lt _ (by decide))
  · rw [htile', htile, buf_modChan]
    exact buf_applyBuf _ _ _ hbuf
  · have hcf : cf = some r := hr
    rw [hcf]
    exact awaitDst_awaits _ s.cur r 0

/-- Rows of no bytes touch no landing bank. -/
theorem hitsLanding_empty (s : State) (o : Nat) (a : Word) (rows stride : Nat) : hitsLanding s o a 0 rows stride = false := by
  simp [hitsLanding, rowsOverlap]

/-- The plan of `cpy` (R190). -/
def flatPlan (sg : Seg) (off : Word) (n : Nat) (conv : Bool) (a : Word) : CopyPlan where
  kind := .flat
  seg := sg
  off := off
  len := n
  plain := !conv
  shapeOk := true
  dext := n
  writes := (n, 1, 0)
  reads := [⟨a, n, 1, 0⟩]

/-- The plan of `cpy2` (R191). -/
def blockPlan (sg : Seg) (off : Word) (len rows ss ds : Nat) (conv : Bool) (a : Word) : CopyPlan where
  kind := .block len rows ss ds
  seg := sg
  off := off
  len := len
  plain := !conv
  shapeOk := conv || ds == 0 || len ≤ ds
  dext := rowExtent len rows (if ds = 0 then len else ds)
  writes := (len, rows, if ds = 0 then len else ds)
  reads := [⟨a, len, rows, ss⟩]

/-- The plan of `cpyg` (R192). -/
def gatherPlan (sg : Seg) (off : Word) (e n : Nat) (list : Word) : CopyPlan where
  kind := .gather e n list
  seg := sg
  off := off
  len := n * e
  plain := true
  shapeOk := elemSizeOk e
  dext := n * e
  writes := (n * e, 1, 0)
  reads := [⟨list, n * 4, 1, 0⟩]

/-- The plan of `cpys` (R192). -/
def scatterPlan (sg : Seg) (off : Word) (e n : Nat) (list a : Word) : CopyPlan where
  kind := .scatter e n list
  seg := sg
  off := off
  len := n * e
  plain := false
  shapeOk := elemSizeOk e
  dext := n * e
  writes := (0, 0, 0)
  reads := [⟨list, n * 4, 1, 0⟩, ⟨a, n * e, 1, 0⟩]

/-- Settles O20. -/
theorem copyStarts : Obligations.CopyStarts := by
  intro s st ch cf buf a b c seg m o r w w' clear hbuf htakes room sg owner T may
  obtain ⟨hroom, hdeclared, hempty⟩ := htakes
  have hnobuf : ¬ 32 ≤ buf.toNat := by omega
  refine ⟨fun hr h hn he hs hc hf => ?_, fun hr h => ⟨fun he hs hc hf => ?_, fun hel hl hs => ⟨fun hre hc hf => ?_, fun he hs' => ?_⟩⟩⟩
  · refine starts_of (cf := r) (srcs := o.srcs) (p := flatPlan (issuer s).segs[m.seg.toNat] (o.v 0 + m.disp.signExtend 64)
      (o.v 1).toNat (may w (o.v 1).toNat) w)
      (show execCpy st ch cf buf a m s = runInstr s s.cur false _ from rfl) ?_ hbuf
      ⟨hdeclared, hempty, hc, by simpa [flatPlan] using hs, rfl, fun hp => hf.resolve_left ?_, hroom⟩
    · refine (if_neg hnobuf).trans ?_
      refine (passes hr).trans ?_
      refine (passes h).trans ?_
      refine (passes (require_ok hn)).trans ?_
      exact (passes he).trans rfl
    · simpa [flatPlan] using hp
  · let len := (o.v 1).toNat % 2 ^ 32
    let rows := (o.v 1).toNat / 2 ^ 32
    let ss := (o.v 2).toNat % 2 ^ 32
    let ds := (o.v 2).toNat / 2 ^ 32
    have hshape : (may w (rowExtent len rows ss) || ds == 0 || decide (len ≤ ds)) = true := by
      rcases hf with hf | ⟨hf | hf, -⟩
      · rw [show may w (rowExtent len rows ss) = true from hf]
        rfl
      · simp [show ds = 0 from hf]
      · simp [show len ≤ ds from hf]
    refine starts_of (cf := r) (srcs := o.srcs) (p := blockPlan sg (o.v 0) len rows ss ds (may w (rowExtent len rows ss)) w)
      (show execCpy2 st ch cf buf a b c seg s = runInstr s s.cur false _ from rfl) ?_ hbuf ⟨hdeclared, hempty, hc, fun x hx => by rw [List.mem_singleton.mp hx]; exact hs, hshape, fun hp => (hf.resolve_left ?_).2, hroom⟩
    · refine (if_neg hnobuf).trans ?_
      refine (passes hr).trans ?_
      refine (passes h).trans ?_
      exact (passes he).trans rfl
    · exact ne_true_of_eq_false ((Bool.not_eq_true' _).mp hp)
  · refine starts_of (cf := r) (srcs := o.srcs) (p := gatherPlan sg (o.v 0) ((o.v 2).toNat % 2 ^ 32) ((o.v 2).toNat / 2 ^ 32) w)
      (show indexCopy st ch cf buf a b c seg false s = runInstr s s.cur false _ from rfl) ?_ hbuf ⟨hdeclared, hempty, hc, by simpa [gatherPlan] using hs, hel, fun _ => hf, hroom⟩
    refine (if_neg hnobuf).trans ?_
    refine (passes hr).trans ?_
    refine (passes h).trans ?_
    refine (passes hl).trans ?_
    refine (if_neg Bool.false_ne_true).trans ?_
    exact (passes (a := ([] : List Rows)) ((passes hre).trans rfl)).trans rfl
  · refine starts_of (cf := r) (srcs := o.srcs)
      (p := scatterPlan sg (o.v 0) ((o.v 2).toNat % 2 ^ 32) ((o.v 2).toNat / 2 ^ 32) w w')
      (show indexCopy st ch cf buf a b c seg true s = runInstr s s.cur false _ from rfl) ?_ hbuf
      ⟨hdeclared, hempty, hitsLanding_empty _ _ _ _ _, by simpa [scatterPlan] using ⟨hs, hs'⟩, hel,
        fun hp => absurd hp Bool.false_ne_true, hroom⟩
    refine (if_neg hnobuf).trans ?_
    refine (passes hr).trans ?_
    refine (passes h).trans ?_
    refine (passes hl).trans ?_
    refine (if_pos rfl).trans ?_
    exact (passes (a := [(⟨w', (o.v 2).toNat / 2 ^ 32 * ((o.v 2).toNat % 2 ^ 32), 1, 0⟩ : Rows)]) ((passes he).trans rfl)).trans rfl

/-! ### What completing leaves of other threads -/

theorem portAsk_other (s : State) (g : Nat) (a : Word) (n : Nat) {j : Nat} (h : j ≠ g) :
    (portAsk s g a n).thread j = s.thread j := by
  unfold portAsk
  split
  · rfl
  · exact State.thread_mod_other s g j _ h

theorem parkThread_other (s : State) (g : Nat) (w : Wait) {j : Nat} (h : j ≠ g) : (parkThread s g w).thread j = s.thread j := by
  have hpark : (s.modThread g fun t => { t with status := .parked w }).thread j = s.thread j := State.thread_mod_other s g j _ h
  unfold parkThread
  dsimp only
  split
  · obtain ⟨_, _, hx⟩ := sendFetch_cases (s.modThread g fun t => { t with status := .parked (.fetch ‹_›) }) g ‹_›
    rw [hx]
    exact hpark
  · split
    · exact hpark
    · exact hpark
  · exact (portAsk_other _ g _ _ h).trans hpark
  · exact hpark

theorem captureOwner_other (s : State) (g cause sub : Nat) (info resume : Word) {j : Nat} (h : j ≠ g) :
    (captureOwner s g cause sub info resume).thread j = s.thread j := by
  have hpost : ∀ (u : State) o r, (postTrap u o r).thread j = u.thread j := fun u o r => by
    obtain ⟨_, _, _, _, _, hx⟩ := postTrap_cases u o r
    rw [hx]
    rfl
  have hend : ∀ (u : State) t, (vacate (u.setThread g t) g true).thread j = u.thread j := fun u t => by
    obtain ⟨_, hx⟩ := vacate_cases (u.setThread g t) g true
    rw [hx]
    exact State.thread_set_other u g j t h
  cases hf : trapFatal cause with
  | false =>
    rw [captureOwner_replayable s g sub info resume hf, hend, hpost]
    rfl
  | true =>
    rw [captureOwner_fatal s g sub info resume hf]
    dsimp only
    rw [hend]
    split
    · exact (hpost _ _ _).trans rfl
    · obtain ⟨_, hx⟩ := launchError_cases (postTrap (landPushes s g) (s.thread g).owner
        (trapRecord (landPushes s g) g cause sub info resume)) (s.thread g).launch 0x11
      rw [hx]
      exact (hpost _ _ _).trans rfl

theorem ownerTrap_other (s : State) (g cause sub : Nat) (info resume : Word) {j : Nat} (h : j ≠ g) :
    (ownerTrap s g cause sub info resume).thread j = s.thread j := by
  unfold ownerTrap
  split
  · exact captureOwner_other s g cause sub info resume h
  · exact parkThread_other s g _ h

theorem GoesOn.other {s u : State} {g : Nat} (hg : GoesOn s u g) {j : Nat} (h : j ≠ g) : u.thread j = s.thread j := by
  obtain ⟨t, -, hg⟩ := hg
  have hset : (s.setThread g t).thread j = s.thread j := State.thread_set_other s g j t h
  rcases hg with ⟨rfl, -⟩ | (rfl | rfl) | ⟨_, _, -, rfl⟩
  · exact hset
  · exact (parkThread_other _ g _ h).trans hset
  · exact (parkThread_other _ g _ h).trans hset
  · exact (ownerTrap_other _ g _ 0 _ _ h).trans hset

theorem retire_other (s : State) (g c : Nat) (st : Stall) (pair : Bool) (x : Option Word) {j : Nat} (h : j ≠ g) :
    (retire s g c st pair x).thread j = s.thread j := (retire_cases s g c st pair x).other h

theorem dataErrors_other (s : State) (w : Who) (k : Nat) {j : Nat} (h : j ≠ w.g) : (dataErrors s w k).thread j = s.thread j := by
  induction k with
  | zero => rfl
  | succ k ih => rw [dataErrors_succ, dataError_thread_other _ _ h, ih]

theorem Reads.other {s u : State} {g k : Nat} (hr : Reads s u g k) {j : Nat} (h : j ≠ g) : u.thread j = s.thread j :=
  (hr.moved.others j h).trans (dataErrors_other s (whoIn s g) k h)

/-! ### Queue entries, credits and remote registers (R174 to R179) -/

theorem ControlOnly.rputs {s u : State} (h : ControlOnly s u) : u.rputs = s.rputs := by
  obtain ⟨_, _, _, _, _, _, _, _, _, rfl⟩ := h
  rfl

/-- An `rput` that ends leaves the others on their way, and every thread but its sender's. -/
theorem endRput_keeps (s : State) (x : Rput) :
    (endRput s x).rputs = s.rputs.filter (·.id != x.id) ∧ ∀ j, j ≠ x.sender → (endRput s x).thread j = s.thread j := by
  unfold endRput
  dsimp only
  split
  · refine ⟨(retire_control _ x.sender _ _ false none).rputs, fun j hj => ?_⟩
    exact (State.thread_mod_other _ x.sender j _ hj).trans (retire_other _ x.sender _ _ false none hj)
  · exact ⟨rfl, fun _ _ => rfl⟩

theorem reg_remoteFill (t : Thread) (r : Fin 32) (v : Word) :
    (t.remoteFill r v).reg r = { val := v, full := true, remote := true, fill := false } := by
  simp [Thread.remoteFill, Thread.reg]

/-- A delivery fills the register and takes the `rput` from those on their way (R178). -/
theorem delivered_holds (s : State) (x : Rput) {r : Fin 32} (hx : x.sender ≠ x.target) :
    let u := endRput (s.modThread x.target fun t => t.remoteFill r x.val) x
    u.rputs = s.rputs.filter (·.id != x.id) ∧ ((u.thread x.target).reg r).val = x.val ∧
      ((u.thread x.target).reg r).full = true ∧ ((u.thread x.target).reg r).remote = true := by
  intro u
  obtain ⟨hrputs, hthread⟩ := endRput_keeps (s.modThread x.target fun t => t.remoteFill r x.val) x
  have hu : u.thread x.target = (s.thread x.target).remoteFill r x.val := (hthread x.target (Ne.symm hx)).trans (State.thread_mod _ _ _)
  rw [hu, reg_remoteFill]
  exact ⟨hrputs, rfl, rfl, rfl⟩

/-- The state in which an `rput` has been sent and its sender waits. -/
def rputSent (s : State) (g g' c : Nat) (reg : Fin 32) (o : Opnds) : State :=
  let v := consume s g o.srcs
  (sendRput v g g' reg (o.v 1)).modThread g fun t => { t with status := .parked (.access v.nextId), ready := c, base := c }

theorem consume_serials (s : State) (g j : Nat) (ss : List Src) :
    ((consume s g ss).thread g).serial = (s.thread g).serial ∧ ((consume s g ss).thread j).serial = (s.thread j).serial := by
  obtain ⟨k, h⟩ := consume_reads s g ss
  obtain ⟨_, _, _, ht⟩ := h.thread
  have hg : ((consume s g ss).thread g).serial = (s.thread g).serial := by rw [ht]
  refine ⟨hg, ?_⟩
  by_cases hj : j = g
  · rw [hj]
    exact hg
  · rw [h.other hj]

theorem rputSent_status (s : State) (g g' c : Nat) (reg : Fin 32) (o : Opnds) :
    ((rputSent s g g' c reg o).thread g).status = .parked (.access s.nextId) := by
  obtain ⟨_, _, _, _, _, hu⟩ := consume_module s g o.srcs
  unfold rputSent
  dsimp only
  rw [State.thread_mod, hu]

theorem rput_acts {s : State} {st : Stall} {a b : RegNum} {n : BitVec 14} {o : Opnds} {g : Nat} (hn : n ≠ 0) (hn' : n.toNat < 32)
    (h : Ready s [a, b] [] o) (ht : ownerThread s (issuer s).owner (o.v 0).toNat = some g) (hl : live s g = true)
    (ho : (s.thread g).owner = (issuer s).owner) (hg : g ≠ s.cur) :
    Acts s (.rput st a b n) (rputSent (landed s) s.cur g (clockOf s) (physReg 0 (n.setWidth 6)) o) := by
  have hthread : (landed s).thread g = s.thread g := (landed_moved s).others g hg
  have hlive : live (landed s) g = true := by rw [live, hthread]; exact hl
  refine acts_ok (show execRput st a b n s = runInstr s s.cur false _ from rfl) ?_
  refine (if_neg fun hc => hc.elim hn (by omega)).trans ?_
  refine (passes h).trans ?_
  dsimp only
  rw [show ownerThread (landed s) ((landed s).thread (landed s).cur).owner (o.v 0).toNat = some g from ht]
  dsimp only
  rw [if_neg (by simp [hlive, hthread, ho, issuer, landed_cur]), landed_cur, if_neg hg]
  rfl

/-- Settles O21. -/
theorem queuesAndRputs : Obligations.QueuesAndRputs := by
  intro s
  refine ⟨fun core dir hc ht => ⟨fun h p l hp => ?_, fun p l hd hp => ?_, fun hr => ?_⟩, fun st a b n o g hn hn' h ht hl ho hg => ?_,
    fun x hx hc hr hne r hcase => ?_, fun x g r hx ha hr hne hfull hrem => ?_⟩
  · have hexec : exec (.queueEntryArrival core dir) s = .next (s.setCore core { s.core core with
        chain := (s.core core).chain.set dir ((s.core core).chain[dir] ++ [p.val.getD 0])
        flight := (s.core core).flight.set dir l }) := by
      show execQueueEntryArrival core dir s = _
      unfold execQueueEntryArrival
      rw [if_pos ⟨hc, by omega⟩]
      simp only [ht, Bool.false_eq_true, if_false, h, dif_pos, hp]
    refine ⟨_, hexec, ?_⟩
    simp [State.core_set]
  · subst hd
    have hexec : exec (.queueEntryArrival core 4) s = .next (s.setCore core { s.core core with
        infifo := (s.core core).infifo ++ [p.val.getD 0], inflight := l }) := by
      show execQueueEntryArrival core 4 s = _
      unfold execQueueEntryArrival
      rw [if_pos ⟨hc, by omega⟩]
      simp only [ht, Bool.false_eq_true, if_false, Nat.lt_irrefl, dif_neg, not_false_eq_true, hp]
    refine ⟨_, hexec, ?_⟩
    simp [State.core_set]
  · have hexec : exec (.actorCreditReturn core) s = .next (s.setCore core { s.core core with
        returning := (s.core core).returning - 1, credits := (s.core core).credits + 1 }) := by
      show execActorCreditReturn core s = _
      unfold execActorCreditReturn
      rw [if_pos hc]
      exact if_neg (by simp [hr, ht])
    refine ⟨_, hexec, ?_⟩
    simp [State.core_set]
  · refine ⟨_, rput_acts hn hn' h ht hl ho hg, ?_, ?_⟩
    · exact rputSent_status (landed s) s.cur g (clockOf s) _ o
    · obtain ⟨hs, ht⟩ := consume_serials (landed s) s.cur g o.srcs
      obtain ⟨_, _, _, _, _, hu⟩ := consume_module (landed s) s.cur o.srcs
      refine (List.getLast?_concat ..).trans ?_
      rw [hs, ht, show (landed s).thread g = s.thread g from (landed_moved s).others g hg, hu]
      rfl
  · have hexec : exec (.rputDelivery x.id) s = .next (endRput (s.modThread x.target fun t => t.remoteFill r x.val) x) := by
      show execRputDelivery x.id s = _
      unfold execRputDelivery
      rw [hx]
      simp only [hc, hr, Bool.false_eq_true, Bool.not_true, if_false]
      rcases hcase with ⟨ha, rfl, hf, hp, hq⟩ | ⟨ha, hready, hfirst⟩
      · rw [ha]
        exact if_pos (by simp [hf, hp, hq])
      · rw [ha]
        exact if_pos ⟨hready, hfirst⟩
    exact ⟨_, hexec, delivered_holds s x hne⟩
  · have hmem : x ∈ s.rputs.filter fun y => y.target == g && y.read := by rw [hx]; exact List.mem_singleton.mpr rfl
    obtain ⟨-, hread⟩ := List.mem_filter.mp hmem
    simp only [Bool.and_eq_true, beq_iff_eq] at hread
    obtain ⟨rfl, hread⟩ := hread
    have hready : rputReady s x r = true := by simp [rputReady, hfull, hrem, hread]
    have hu : deliverRead s x.target = endRput (s.modThread x.target fun t => t.remoteFill r x.val) x := by
      rw [deliverRead, hx]
      show (match x.arrived with | some r => _ | none => _) = _
      rw [ha]
      exact if_pos ⟨hr, hready⟩
    dsimp only
    rw [hu]
    exact delivered_holds s x hne

/-! ### Channels (R180 to R187) -/

/-- A copy as its channel accepts it: how it goes, or the status that ends it (R183). -/
def acceptedCopy (s : State) (T : Nat) (x : Copy) : Copy :=
  match copyMode s T x with
  | .error e => { x with status := e, stopped := true }
  | .ok m =>
    match copyShape s T x m with
    | .error e => { x with status := e, stopped := true }
    | .ok (r, d, n) => { x with mode := m, drow := r, dstr := d, dlen := n }

theorem acceptedCopy_same (s : State) (T : Nat) (x : Copy) : (acceptedCopy s T x).n = x.n ∧ (acceptedCopy s T x).buf = x.buf := by
  unfold acceptedCopy
  split
  · exact ⟨rfl, rfl⟩
  · split <;> exact ⟨rfl, rfl⟩

/-- The state in which the channel has accepted its next copy. -/
def accepted (s : State) (T ch : Nat) (x : Copy) (l : List Copy) : State :=
  s.modTile T fun y => y.modChan ch fun k => { k with queue := l, runs := k.runs ++ [acceptedCopy s T x] }

/-- The state in which a copy has ended. -/
def copyEnded (s : State) (T ch : Nat) (x : Copy) (l : List Copy) : State :=
  copyMisuse ((copyPointer s T ch x.n).modTile T fun y =>
    (y.modChan ch fun k => { k with runs := l }).setBuf x.buf { y.buf x.buf with state := .full, status := x.status }) x

/-- The completion register of a copy takes its word (R187). -/
def copyFilled (s : State) (x : Copy) : State :=
  match x.cf with
  | some r => if x.who.live s then s.modThread x.g fun t => t.fill r (cfWord x) else s
  | none => s

theorem ControlOnly.tile {s u : State} (h : ControlOnly s u) (k : Nat) : u.tile k = s.tile k := by
  obtain ⟨_, _, _, _, _, _, _, _, _, rfl⟩ := h
  rfl

theorem copyMisuse_control (s : State) (x : Copy) : ControlOnly s (copyMisuse s x) := by
  unfold copyMisuse
  split
  · exact .refl s
  · exact misuseBoth_control s x.who

/-- A misuse changes of a thread its count alone. -/
theorem misuseBoth_thread (s : State) (w : Who) (j : Nat) : ∃ n, (misuseBoth s w).thread j = { s.thread j with misuse := n } := by
  unfold misuseBoth
  dsimp only
  split
  · by_cases h : j = w.g
    · rw [h, State.thread_mod]
      exact ⟨_, rfl⟩
    · rw [State.thread_mod_other _ _ _ _ h]
      exact ⟨_, rfl⟩
  · exact ⟨_, rfl⟩

theorem copyMisuse_live (s : State) (x : Copy) : x.who.live (copyMisuse s x) = x.who.live s := by
  unfold copyMisuse
  split
  · rfl
  · obtain ⟨n, h⟩ := misuseBoth_thread s x.who x.who.g
    simp only [Who.live, live, h]

theorem copyFilled_tile (s : State) (x : Copy) (k : Nat) : (copyFilled s x).tile k = s.tile k := by
  unfold copyFilled
  split
  · split <;> rfl
  · rfl

theorem chan_setBuf (x : Tile) (b ch : Nat) (y : Buf) : (x.setBuf b y).chan ch = x.chan ch := rfl

/-- Settles O22. -/
theorem copyChannels : Obligations.CopyChannels := by
  intro s T ch hT hch k
  refine ⟨fun x l hq hc hh => ?_, fun r hr ht => ?_, fun x l hr hh hc hb ht => ?_⟩
  · refine ⟨accepted s T ch x l, acceptedCopy s T x, ?_, ?_, ?_, ?_, ?_, rfl⟩
    · show execCopyAcceptance T ch s = _
      unfold execCopyAcceptance
      rw [if_pos ⟨hT, hch⟩]
      simp only [show ((s.tile T).chan ch).queue = x :: l from hq]
      exact if_neg (by simp [hc, show ((s.tile T).chan ch).runs.all (·.handed) = true from hh])
    · rw [accepted, State.tile_mod, chan_modChan _ _ hch]
    · rw [accepted, State.tile_mod, chan_modChan _ _ hch]
    · exact (acceptedCopy_same s T x).1
    · exact (acceptedCopy_same s T x).2
  · show execCopyUnitWrite T ch s = _
    unfold execCopyUnitWrite
    rw [if_pos ⟨hT, hch⟩]
    simp only [hr, Option.isNone_some, Bool.false_eq_true, if_false, ht, Bool.not_true]
  · have hexec : exec (.copyCompletion T ch) s = .next (copyFilled (copyEnded s T ch x l) x) := by
      show execCopyCompletion T ch s = _
      unfold execCopyCompletion
      rw [if_pos ⟨hT, hch⟩]
      simp only [show ((s.tile T).chan ch).runs = x :: l from hr]
      rw [if_neg (by simp [hh, hc, ht])]
      unfold copyFilled
      cases x.cf <;> rfl
    have htile : (copyFilled (copyEnded s T ch x l) x).tile T =
        (((copyPointer s T ch x.n).tile T).modChan ch fun k => { k with runs := l }).setBuf x.buf
          { ((copyPointer s T ch x.n).tile T).buf x.buf with state := .full, status := x.status } := by
      rw [copyFilled_tile, copyEnded, (copyMisuse_control _ x).tile, State.tile_mod]
    refine ⟨_, hexec, ?_, ?_, ?_, fun r hf hl => ?_⟩
    · rw [htile, chan_setBuf, chan_modChan _ _ hch]
    · rw [htile, buf_setBuf _ _ hb]
    · rw [htile, buf_setBuf _ _ hb]
    · have hlive : x.who.live (copyEnded s T ch x l) = true := (copyMisuse_live _ x).trans hl
      rw [copyFilled, hf]
      dsimp only
      rw [if_pos hlive, State.thread_mod, Thread.fill]
      simp [Thread.reg, cfWord]

end Sys2Proof.Machine
end

section
/-! PROOFS. What reading operands and reserving destinations changes in the cores, and the issue of vector instructions (spec/12
R222, R224, R225, R227, R229, R230). -/

namespace Sys2Proof.Machine

open Sys2Proof.Claims

/-! ### Cores whose queues alone have changed -/

/-- Two states of a core that differ in its queues alone. -/
def QueuesMoved (x y : Core) : Prop :=
  ∃ chain flight infifo inflight kept credits returning, y =
    { x with
      chain := chain, flight := flight, infifo := infifo, inflight := inflight, kept := kept, credits := credits
      returning := returning }

theorem QueuesMoved.refl (x : Core) : QueuesMoved x x := ⟨_, _, _, _, _, _, _, rfl⟩

theorem QueuesMoved.trans {x y z : Core} (h : QueuesMoved x y) (h' : QueuesMoved y z) : QueuesMoved x z := by
  obtain ⟨_, _, _, _, _, _, _, rfl⟩ := h
  obtain ⟨_, _, _, _, _, _, _, rfl⟩ := h'
  exact ⟨_, _, _, _, _, _, _, rfl⟩

/-- The cores differ in their queues alone. -/
def CoreQueues (s u : State) : Prop := ∀ c, QueuesMoved (s.core c) (u.core c)

namespace CoreQueues

theorem refl (s : State) : CoreQueues s s := fun _ => .refl _

theorem trans {s u v : State} (h : CoreQueues s u) (h' : CoreQueues u v) : CoreQueues s v := fun c => (h c).trans (h' c)

theorem of_cores {s u : State} (h : u.cores = s.cores) : CoreQueues s u := fun c => by
  simp only [State.core, h]
  exact .refl _

theorem setCore (s : State) (k : Nat) {x : Core} (h : QueuesMoved (s.core k) x) : CoreQueues s (s.setCore k x) := by
  intro c
  by_cases hc : c = k
  · rw [hc, State.core_set]
    exact h
  · rw [State.core_set_other s k c x hc]
    exact .refl _

theorem modCore (s : State) (k : Nat) {f : Core → Core} (h : ∀ x, QueuesMoved x (f x)) : CoreQueues s (s.modCore k f) :=
  setCore s k (h _)

theorem foldl {α : Type} {f : State → α → State} (h : ∀ u a, CoreQueues u (f u a)) (l : List α) (s : State) :
    CoreQueues s (l.foldl f s) := by
  induction l generalizing s with
  | nil => exact .refl s
  | cons a l ih => exact (h s a).trans (ih _)

end CoreQueues

theorem takeEntries_moved (x : Core) (q n : Nat) : QueuesMoved x (x.takeEntries q n) := by
  unfold Core.takeEntries
  dsimp only
  repeat' split
  all_goals exact ⟨_, _, _, _, _, _, _, rfl⟩

theorem queuePop_queues (s : State) (c q n : Nat) : CoreQueues s (queuePop s c q n) := by
  unfold queuePop
  dsimp only
  split
  · exact .refl s
  · split
    · exact .modCore s c fun _ => ⟨_, _, _, _, _, _, _, rfl⟩
    · have hset : CoreQueues s (s.setCore c { s.core c with infifo := (s.core c).infifo.drop n }) :=
        .setCore s c ⟨_, _, _, _, _, _, _, rfl⟩
      split
      · exact hset
      · split
        · exact hset.trans (.modCore _ _ fun _ => ⟨_, _, _, _, _, _, _, rfl⟩)
        · exact hset

theorem queuePush_queues (s : State) (c : Nat) (d : Dst) (p : Push) : CoreQueues s (queuePush s c d p) := by
  unfold queuePush
  dsimp only
  split
  · split
    · split
      · exact .modCore s _ fun _ => ⟨_, _, _, _, _, _, _, rfl⟩
      · exact .refl s
    · exact .refl s
  · split
    · exact .refl s
    · have hset : CoreQueues s (s.setCore c { s.core c with credits := (s.core c).credits - 1 }) :=
        .setCore s c ⟨_, _, _, _, _, _, _, rfl⟩
      split
      · exact hset.trans (.modCore _ _ fun _ => ⟨_, _, _, _, _, _, _, rfl⟩)
      · exact hset
  · exact .refl s

theorem awaitDst_queues (s : State) (g : Nat) (d : Dst) (tag : Nat) : CoreQueues s (awaitDst s g d tag) := by
  unfold awaitDst
  split
  · exact .refl s
  · exact .of_cores rfl
  · exact queuePush_queues s _ _ _

theorem readRegs_cores (s : State) (g : Nat) (ss : List Src) : (readRegs s g ss).cores = s.cores := by
  have hread : ∀ (u : State) r, (readReg u g r).cores = u.cores := by
    intro u r
    have hcount : (countBad u (whoIn u g) ((u.thread g).reg r).bad).cores = u.cores := by
      unfold countBad
      split
      · obtain ⟨_, _, _, h⟩ := dataError_cases u (whoIn u g)
        rw [h]
      · rfl
    unfold readReg
    dsimp only
    split <;> exact hcount
  have hfold : ∀ (l : List (Fin 32)) (u : State), (l.foldl (fun s r => readReg s g r) u).cores = u.cores := by
    intro l
    induction l with
    | nil => exact fun _ => rfl
    | cons a l ih => exact fun u => (ih _).trans (hread u a)
  exact hfold _ s

theorem consume_queues (s : State) (g : Nat) (ss : List Src) : CoreQueues s (consume s g ss) :=
  (CoreQueues.of_cores (readRegs_cores s g ss)).trans (.foldl (fun u q => queuePop_queues u _ q _) _ _)

theorem consumeKept_queues (s : State) (g : Nat) (ss : List Src) : CoreQueues s (consumeKept s g ss) := by
  refine (CoreQueues.of_cores (readRegs_cores s g ss)).trans (.foldl (fun u q => ?_) _ _)
  split
  · exact .refl u
  · exact .modCore u _ fun x => takeEntries_moved x q _

/-! ### Issue of a vector instruction (R224) -/

/-- The operation that a vector instruction is in its core's queue. -/
def vecOp (s : State) (g : Nat) (i : Instr) (q : VAsk) (o : Opnds) : VOp :=
  { n := s.nextId, g := g, pc := (s.thread g).pc, ins := i, ws := q.ws, ms := q.ms
    old := if writesAll i then none else q.wd, gval := o.v 0, seed := (s.thread g).seed
    dst := if q.gdst.isSome then o.d 0 else .none }

/-- The state in which a vector instruction has read its g source. -/
def vecRead (s : State) (g : Nat) (q : VAsk) (o : Opnds) : State :=
  if q.mem then consumeKept { s with nextId := s.nextId + 1 } g o.srcs else consume { s with nextId := s.nextId + 1 } g o.srcs

/-- The state in which a vector instruction has joined its core's queue. -/
def vecQueued (s : State) (g : Nat) (i : Instr) (q : VAsk) (o : Opnds) : State :=
  (vecAwait (vecRead s g q o) g q (if q.gdst.isSome then o.d 0 else .none) s.nextId).modCore (coreOf g) fun y => { y with vq := y.vq ++ [vecOp s g i q o] }

section
variable {s : State} {i : Instr} {st : Stall} {q : VAsk} {o : Opnds}

/-- A vector instruction that finds its registers full and room in the queue issues. -/
theorem vector_acts (hi : exec i s = vectorIssue st i q s) (hm : q.md ≠ some 0)
    (h : Ready s q.gsrc.toList q.gdst.toList o) (hn : VecMeets s (q.ws ++ q.wd.toList.map (·.1)) (q.ms ++ q.md.toList)) :
    Acts s i (if q.mem then (vecQueued (landed s) s.cur i q o).modThread s.cur fun t =>
        { t with status := .parked .vaccept, ready := clockOf s, base := clockOf s }
      else retire (vecQueued (landed s) s.cur i q o) s.cur (clockOf s) st false none) := by
  refine acts_ok (hi.trans (show vectorIssue st i q s = runInstr s s.cur false _ from rfl)) ?_
  refine (if_neg hm).trans ?_
  refine (passes h).trans ?_
  exact (passes (require_ok hn)).trans rfl

end

theorem vecRead_keeps (s : State) (g : Nat) (q : VAsk) (o : Opnds) :
    (vecRead s g q o).nextId = s.nextId + 1 ∧ (vecRead s g q o).mem = s.mem ∧ CoreQueues s (vecRead s g q o) := by
  unfold vecRead
  split
  · obtain ⟨_, h⟩ := consumeKept_reads { s with nextId := s.nextId + 1 } g o.srcs
    obtain ⟨_, _, _, _, _, hu⟩ := h.module
    have hq := consumeKept_queues { s with nextId := s.nextId + 1 } g o.srcs
    exact ⟨by rw [hu], by rw [hu], (CoreQueues.of_cores rfl).trans hq⟩
  · obtain ⟨_, _, _, _, _, hu⟩ := consume_module { s with nextId := s.nextId + 1 } g o.srcs
    have hq := consume_queues { s with nextId := s.nextId + 1 } g o.srcs
    exact ⟨by rw [hu], by rw [hu], (CoreQueues.of_cores rfl).trans hq⟩

/-- The vector and mask registers that an instruction writes are empty. -/
def emptied (t : Thread) (q : VAsk) : Thread :=
  let t := match q.wd with
    | some (w, _) => { t with w := t.w.set w.toNat { t.w[w.toNat] with full := false } }
    | none => t
  match q.md with
  | some k => { t with m := t.m.set k.toNat { t.m[k.toNat] with full := false } }
  | none => t

theorem emptied_full (t : Thread) (q : VAsk) :
    (∀ w f, q.wd = some (w, f) → ((emptied t q).w[w.toNat]).full = false) ∧
      ∀ k, q.md = some k → ((emptied t q).m[k.toNat]).full = false := by
  unfold emptied
  constructor
  · intro w f h
    rw [h]
    cases q.md <;> simp
  · intro k h
    rw [h]
    simp

theorem vecAwait_keeps (s : State) (g : Nat) (q : VAsk) (d : Dst) (tag : Nat) :
    (vecAwait s g q d tag).nextId = s.nextId ∧ (vecAwait s g q d tag).mem = s.mem ∧ CoreQueues s (vecAwait s g q d tag) ∧
      (∀ w f, q.wd = some (w, f) → (((vecAwait s g q d tag).thread g).w[w.toNat]).full = false) ∧
      (∀ k, q.md = some k → (((vecAwait s g q d tag).thread g).m[k.toNat]).full = false) ∧
      ∀ r, d = .reg r → Awaits (vecAwait s g q d tag) g r := by
  have heq : vecAwait s g q d tag = awaitDst (s.modThread g fun t => emptied t q) g d tag := rfl
  have hmoved := awaitDst_moved (s.modThread g fun t => emptied t q) g d tag
  obtain ⟨_, _, _, hu⟩ := hmoved.module
  obtain ⟨_, _, ht⟩ := hmoved.own.rest
  rw [State.thread_mod] at ht
  obtain ⟨hw, hm⟩ := emptied_full (s.thread g) q
  rw [heq]
  refine ⟨by rw [hu]; rfl, by rw [hu]; rfl, ?_, fun w f h => ?_, fun k h => ?_, fun r h => ?_⟩
  · exact (CoreQueues.of_cores rfl).trans (awaitDst_queues _ g d tag)
  · rw [ht]
    exact hw w f h
  · rw [ht]
    exact hm k h
  · rw [h]
    exact awaitDst_awaits _ g r tag

theorem vecQueued_queued (s : State) (i : Instr) (q : VAsk) (o : Opnds) :
    Queued s (vecQueued (landed s) s.cur i q o) i o (if q.gdst.isSome then o.d 0 else .none) (q.wd.map (·.1)) q.md := by
  obtain ⟨hid, hmem, hqueues⟩ := vecRead_keeps (landed s) s.cur q o
  obtain ⟨hid', hmem', hqueues', hw, hm, hr⟩ := vecAwait_keeps (vecRead (landed s) s.cur q o) s.cur q
    (if q.gdst.isSome then o.d 0 else .none) s.nextId
  have hcore : CoreQueues s (vecAwait (vecRead (landed s) s.cur q o) s.cur q (if q.gdst.isSome then o.d 0 else .none) s.nextId) :=
    (CoreQueues.of_cores rfl).trans (hqueues.trans hqueues')
  refine ⟨⟨q.ws, q.ms, if writesAll i then none else q.wd, fun x hx => ?_, ?_⟩, hid'.trans hid, hmem'.trans hmem, fun w h => ?_, hm, hr⟩
  · split at hx
    · cases hx
    · rw [hx]
      rfl
  · obtain ⟨_, _, _, _, _, _, _, hc⟩ := hcore (coreOf s.cur)
    refine (congrArg Core.vq (State.core_mod _ _ _)).trans ?_
    show (State.core (vecAwait (vecRead (landed s) s.cur q o) s.cur q _ s.nextId) (coreOf s.cur)).vq ++ _ = _
    rw [hc]
    rfl
  · obtain ⟨x, hx, rfl⟩ := Option.map_eq_some_iff.mp h
    exact hw x.1 x.2 hx

section
variable {s : State} {i : Instr} {st : Stall} {o : Opnds}

/-- A vector instruction without memory completes at its thread. -/
theorem enqueues_of (q : VAsk) (h : Ready s q.gsrc.toList q.gdst.toList o)
    (hn : VecMeets s (q.ws ++ q.wd.toList.map (·.1)) (q.ms ++ q.md.toList)) (hi : exec i s = vectorIssue st i q s)
    (hmem : q.mem = false := by rfl) (hm : q.md ≠ some 0 := by exact nofun) :
    Enqueues s i st o (if q.gdst.isSome then o.d 0 else .none) (q.wd.map (·.1)) q.md := by
  have hacts := vector_acts hi hm h hn
  rw [hmem, if_neg Bool.false_ne_true] at hacts
  exact ⟨_, hacts, vecQueued_queued s i q o⟩

theorem passTurn_vq (u : State) (g c : Nat) : ((passTurn u g c).core (coreOf g)).vq = (u.core (coreOf g)).vq := by
  rw [passTurn, State.core_mod]

/-- A vector memory instruction has its thread wait for its acceptance. -/
theorem enqueuesMem_of (q : VAsk) (h : Ready s q.gsrc.toList [] o)
    (hn : VecMeets s (q.ws ++ q.wd.toList.map (·.1)) q.ms) (hi : exec i s = vectorIssue st i q s)
    (hmem : q.mem = true := by rfl) (hm : q.md = none := by rfl) (hg : q.gdst = none := by rfl) :
    EnqueuesMem s i o (q.wd.map (·.1)) := by
  have hacts := vector_acts hi (by rw [hm]; exact nofun) (by rw [hg]; exact h) (by rw [hm]; simpa using hn)
  rw [hmem, if_pos rfl] at hacts
  have hqueued := vecQueued_queued s i q o
  rw [hm, hg] at hqueued
  obtain ⟨hvq, hid, hmem, hw, -, -⟩ := hqueued
  have hthread : ∀ u : State, ((passTurn (u.modThread s.cur fun t =>
      { t with status := .parked .vaccept, ready := clockOf s, base := clockOf s }) s.cur (clockOf s)).thread s.cur) =
      { u.thread s.cur with status := .parked .vaccept, ready := clockOf s, base := clockOf s } := fun u => by
    rw [passTurn_thread, State.thread_mod]
  refine ⟨_, hacts, ⟨?_, hid, hmem, fun w h => ?_, nofun, nofun⟩, ?_⟩
  · obtain ⟨ws, ms, old, hold, hvq⟩ := hvq
    refine ⟨ws, ms, old, hold, Eq.trans ?_ hvq⟩
    exact passTurn_vq _ _ _
  · rw [hthread]
    exact hw w h
  · rw [hthread]

end

theorem vectorArithmeticIssues : VectorArithmeticIssues := by
  intro s st f wd wa wb wc k mk ma mb g o r fl
  refine ⟨fun h => ⟨fun hn => ⟨?_, ?_, ?_, ?_, ?_, ?_, ?_, fun lg => ?_, ?_, ?_, ?_, ?_, fun ar => ?_⟩, fun hn => ?_,
    fun hn => ⟨fun op => ?_, fun src p rv => ?_, fun op => ?_, fun op => ?_⟩, fun hk hn c => ?_, fun hk hn op => ?_⟩,
    fun h => ⟨fun hn op => ?_, fun hn n => ?_⟩, fun h => ⟨fun hn => ⟨?_, ?_⟩, fun hn n => ?_⟩⟩
  · exact enqueues_of { ws := [wa, wb], ms := [k], wd := some (wd, f) } h hn rfl
  · exact enqueues_of { ws := [wa, wb], ms := [k], wd := some (wd, f) } h hn rfl
  · exact enqueues_of { ws := [wa, wb], ms := [k], wd := some (wd, f) } h hn rfl
  · exact enqueues_of { ws := [wa, wb], ms := [k], wd := some (wd, f) } h hn rfl
  · exact enqueues_of { ws := [wa, wb], ms := [k], wd := some (wd, f) } h hn rfl
  · exact enqueues_of { ws := [wa, wb], ms := [k], wd := some (wd, f) } h hn rfl
  · exact enqueues_of { ws := [wa, wb], ms := [k], wd := some (wd, f) } h hn rfl
  · exact enqueues_of { ws := [wa, wb], ms := [k], wd := some (wd, f) } h hn rfl
  · exact enqueues_of { ws := [wa, wb], ms := [k], wd := some (wd, f) } h hn rfl
  · exact enqueues_of { ws := [wa, wb], ms := [k], wd := some (wd, f) } h hn rfl
  · exact enqueues_of { ws := [wa, wb], ms := [k], wd := some (wd, f) } h hn rfl
  · exact enqueues_of { ws := [wa, wb], ms := [k], wd := some (wd, f) } h hn rfl
  · exact enqueues_of { ws := [wa, wb], ms := [k], wd := some (wd, f) } h hn rfl
  · exact enqueues_of { ws := [wa, wb, wc], ms := [k], wd := some (wd, f) } h hn rfl
  · exact enqueues_of { ws := [wa], ms := [k], wd := some (wd, f) } h hn rfl
  · exact enqueues_of { ws := [wa], ms := [k], wd := some (wd, f) } h hn rfl
  · exact enqueues_of { ws := [wa], ms := [k], wd := some (wd, f) } h hn rfl
  · exact enqueues_of { ws := [wa], ms := [k], wd := some (wd, f) } h hn rfl
  · exact enqueues_of { ws := [wa, wb], ms := [k], md := some mk } h hn rfl (hm := fun e => hk (Option.some.inj e))
  · exact enqueues_of { ms := [ma, mb], md := some mk } h hn rfl (hm := fun e => hk (Option.some.inj e))
  · exact enqueues_of { ws := [wa], ms := [k], gdst := some g } h hn rfl
  · exact enqueues_of { ws := [wa], gdst := some g } h hn rfl
  · exact enqueues_of { ms := [k], gsrc := some g, wd := some (wd, f) } h hn rfl
  · exact enqueues_of { ms := [k], gsrc := some g, wd := some (wd, f) } h hn rfl
  · exact enqueues_of { gsrc := some g, wd := some (wd, f) } h hn rfl

theorem vectorMemoryIssues : VectorMemoryIssues := by
  intro s st f w x m k o r h
  refine ⟨fun hn => ⟨?_, ?_⟩, fun hn => ?_, fun hn => ?_⟩
  · exact enqueuesMem_of { ms := [k], gsrc := some m.g, wd := some (w, f), mem := true } h hn rfl
  · exact enqueuesMem_of { ws := [w], ms := [k], gsrc := some m.g, mem := true } h hn rfl
  · exact enqueuesMem_of { ws := [x], ms := [k], gsrc := some m.g, wd := some (w, f), mem := true } h hn rfl
  · exact enqueuesMem_of { ws := [w, x], ms := [k], gsrc := some m.g, mem := true } h hn rfl

/-- Settles O23. -/
theorem vectorIssues : Obligations.VectorIssue := ⟨vectorArithmeticIssues, vectorMemoryIssues⟩

end Sys2Proof.Machine
end

section
/-! PROOFS. The values of vector operations on integers and on the bits of lanes (spec/03 R39, spec/11 R220, spec/12 R223, R231 to
R245). -/

namespace Sys2Proof.Machine

open Sys2Proof.Claims

/-! ### Integer formats (R39) -/

theorem lane_lt (n : Nat) (v : BitVec 2048) (i : Nat) : lane n v i < 2 ^ n := Nat.mod_lt _ (Nat.two_pow_pos n)

theorem laneBits_cases (f : BitVec 4) : laneBits f = 8 ∨ laneBits f = 16 ∨ laneBits f = 32 ∨ laneBits f = 64 := by
  unfold laneBits
  repeat' split
  all_goals simp

/-- The integer formats are not floating, and those of codes 4 to 7 are signed. -/
theorem intFormat {f : BitVec 4} (h : 4 ≤ f.toNat) (h' : f.toNat < 12) :
    fmtFloat f = false ∧ fmtSigned f = decide (f.toNat < 8) := by
  revert f
  decide

theorem two_pow_pred (f : BitVec 4) : 2 ^ laneBits f = 2 * 2 ^ (laneBits f - 1) := by
  rcases laneBits_cases f with h | h | h | h <;> norm_num [h]

/-- An integer that a lane is, from its pattern. -/
theorem laneInt_signed {f : BitVec 4} (h : f.toNat < 8) (x : Nat) :
    laneInt f x = if x < 2 ^ (laneBits f - 1) then (x : Int) else (x : Int) - 2 ^ laneBits f := if_pos h

theorem laneInt_unsigned {f : BitVec 4} (h : ¬ f.toNat < 8) (x : Nat) : laneInt f x = x := if_neg h

/-- Two patterns of one integer are one. -/
theorem laneInt_inj {f : BitVec 4} {a b : Nat} (ha : a < 2 ^ laneBits f) (hb : b < 2 ^ laneBits f)
    (h : laneInt f a = laneInt f b) : a = b := by
  by_cases hf : f.toNat < 8
  · rw [laneInt_signed hf, laneInt_signed hf] at h
    have hcast : ((2 ^ laneBits f : Nat) : Int) = 2 ^ laneBits f := by push_cast; rfl
    split at h <;> split at h <;> omega
  · rw [laneInt_unsigned hf, laneInt_unsigned hf] at h
    exact Int.ofNat.inj h

section
variable {f : BitVec 4} (h4 : 4 ≤ f.toNat) (h12 : f.toNat < 12)
include h4 h12

theorem laneLt_eq (a b : Nat) : laneLt f a b = decide (laneInt f a < laneInt f b) := by
  obtain ⟨-, hs⟩ := intFormat h4 h12
  unfold laneLt laneInt
  by_cases hf : f.toNat < 8
  · simp [hs, hf]
  · simp [hs, hf]

theorem laneArith_eq (r : FRnd) (F : Mode → Val → Val → Val → Val) (g : Int → Int → Int → Int) (a b c : Nat) :
    laneArith f r F g a b c = (g a b c % 2 ^ laneBits f).toNat := by
  rw [laneArith, (intFormat h4 h12).1, if_neg Bool.false_ne_true]

theorem laneExtreme_eq (greater flush : Bool) (a b : Nat) :
    laneExtreme f greater flush a b = if decide (laneInt f a < laneInt f b) = greater then b else a := by
  rw [laneExtreme, (intFormat h4 h12).1, if_neg Bool.false_ne_true, laneLt_eq h4 h12]

theorem laneMin_eq {a b : Nat} (flush : Bool) (ha : a < 2 ^ laneBits f) (hb : b < 2 ^ laneBits f) :
    laneExtreme f false flush a b = if decide (laneInt f a ≤ laneInt f b) then a else b := by
  rw [laneExtreme_eq h4 h12]
  rcases Int.lt_trichotomy (laneInt f a) (laneInt f b) with h | h | h
  · simp [h, Int.le_of_lt h]
  · simp [laneInt_inj ha hb h]
  · simp [Int.not_lt.mpr (Int.le_of_lt h), Int.not_le.mpr h]

theorem laneMax_eq {a b : Nat} (flush : Bool) (ha : a < 2 ^ laneBits f) (hb : b < 2 ^ laneBits f) :
    laneExtreme f true flush a b = if decide (laneInt f a ≤ laneInt f b) then b else a := by
  rw [laneExtreme_eq h4 h12]
  rcases Int.lt_trichotomy (laneInt f a) (laneInt f b) with h | h | h
  · simp [h, Int.le_of_lt h]
  · simp [laneInt_inj ha hb h]
  · simp [Int.not_lt.mpr (Int.le_of_lt h), Int.not_le.mpr h]

end

/-- Integers modulo a power of two, as patterns. -/
theorem toNat_emod (n x : Nat) : (((x : Nat) : Int) % 2 ^ n).toNat = x % 2 ^ n := by
  rw [show ((2 : Int) ^ n) = ((2 ^ n : Nat) : Int) by push_cast; rfl, ← Int.natCast_mod, Int.toNat_natCast]

theorem sub_emod {n a b : Nat} (hb : b < 2 ^ n) : (((a : Int) - b) % 2 ^ n).toNat = (a + 2 ^ n - b) % 2 ^ n := by
  rw [← toNat_emod]
  congr 1
  rw [show (((a + 2 ^ n - b : Nat)) : Int) = (a : Int) - b + 2 ^ n by push_cast [Nat.le_of_lt (Nat.lt_add_left a hb)]; ring]
  exact (Int.add_emod_right _ _).symm

/-! ### Lane by lane (R223, R231 to R234) -/

/-- What a lanewise instruction gives where its function answers `x` for the lane. -/
theorem lanewise_gives {t : Thread} {f : BitVec 4} {k : BitVec 2} {wd wa wb wc : BitVec 3} {R : VRes} {i x : Nat}
    (F : Nat → Nat → Nat → Nat) (hR : R = lanewise t f k wd wa wb wc F) (hi : i < 2048 / laneBits f)
    (hx : F (lane (laneBits f) (wVal t wa) i) (lane (laneBits f) (wVal t wb) i) (lane (laneBits f) (wVal t wc) i) = x)
    (hf : ∀ a b c, a < 2 ^ laneBits f → b < 2 ^ laneBits f → c < 2 ^ laneBits f → F a b c < 2 ^ laneBits f) :
    ∃ v, R = .w wd v ∧
      lane (laneBits f) v i = if (maskVal t k).getLsbD i then x else lane (laneBits f) (wVal t wd) i := by
  obtain ⟨v, hv, hl⟩ := lanewise_lane t f k wd wa wb wc F hf
  refine ⟨v, hR.trans hv, ?_⟩
  rw [hl i hi, hx]

/-- What is taken modulo a power of two fits. -/
theorem emod_toNat_lt (n : Nat) (x : Int) : (x % 2 ^ n).toNat < 2 ^ n := by
  have hp : (0 : Int) < 2 ^ n := by positivity
  have h1 := Int.emod_lt_of_pos x hp
  have h0 := Int.emod_nonneg x (ne_of_gt hp)
  have hcast : ((2 ^ n : Nat) : Int) = 2 ^ n := by push_cast; rfl
  omega

/-- The comparison of two lanes as integers (R234). -/
def intCmp (f : BitVec 4) (c : VCond) (a b : Nat) : Bool :=
  match c with
  | .eq => a == b
  | .ne => a != b
  | .lt => !decide (laneInt f b ≤ laneInt f a)
  | .le => decide (laneInt f a ≤ laneInt f b)
  | .gt => !decide (laneInt f a ≤ laneInt f b)
  | .ge => decide (laneInt f b ≤ laneInt f a)

theorem laneCmp_eq {f : BitVec 4} (h4 : 4 ≤ f.toNat) (h12 : f.toNat < 12) (c : VCond) (fl : Bool) {a b : Nat}
    (ha : a < 2 ^ laneBits f) (hb : b < 2 ^ laneBits f) : laneCmp f c fl a b = intCmp f c a b := by
  have hlt : (Ordering.lt != Ordering.eq) = true := rfl
  have hgt : (Ordering.gt != Ordering.eq) = true := rfl
  unfold laneCmp intCmp
  rw [(intFormat h4 h12).1, laneLt_eq h4 h12]
  rcases Int.lt_trichotomy (laneInt f a) (laneInt f b) with h | h | h
  · have hne : a ≠ b := fun e => by rw [e] at h; exact Int.lt_irrefl _ h
    have hne' : (a != b) = true := by simpa using hne
    cases c <;> simp [h, hne, hlt, hne', Int.le_of_lt h]
  · have he := laneInt_inj ha hb h
    cases c <;> simp [he]
  · have hne : a ≠ b := fun e => by rw [e] at h; exact Int.lt_irrefl _ h
    have hne' : (a != b) = true := by simpa using hne
    cases c <;> simp [hne, hgt, hne', Int.not_lt.mpr (Int.le_of_lt h), Int.le_of_lt h, h]

theorem laneUn_neg {f : BitVec 4} (h4 : 4 ≤ f.toNat) (h12 : f.toNat < 12) (r : FRnd) (a : Nat) :
    laneUn f .neg r a = (2 ^ laneBits f - a) % 2 ^ laneBits f := by
  simp only [laneUn, (intFormat h4 h12).1, Bool.false_eq_true, if_false]

/-- A pattern is negative where its integer is (R39). -/
theorem laneInt_neg {f : BitVec 4} {a : Nat} (ha : a < 2 ^ laneBits f) :
    laneInt f a < 0 ↔ f.toNat < 8 ∧ 2 ^ (laneBits f - 1) ≤ a := by
  have hcast : ((2 ^ laneBits f : Nat) : Int) = 2 ^ laneBits f := by push_cast; rfl
  by_cases hf : f.toNat < 8
  · rw [laneInt_signed hf]
    split <;> omega
  · rw [laneInt_unsigned hf]
    omega

theorem laneUn_abs {f : BitVec 4} (h4 : 4 ≤ f.toNat) (h12 : f.toNat < 12) (r : FRnd) {a : Nat} (ha : a < 2 ^ laneBits f) :
    laneUn f .abs r a = if laneInt f a < 0 then (2 ^ laneBits f - a) % 2 ^ laneBits f else a := by
  obtain ⟨hf, hs⟩ := intFormat h4 h12
  simp only [laneUn, hf, hs, Bool.false_eq_true, if_false, decide_eq_true_eq, laneInt_neg ha]

/-- The mask register that `vcmp` gives. -/
theorem vcmp_bits (t : Thread) (f : BitVec 4) (c : VCond) (fl : Bool) (k : BitVec 2) (wa wb : BitVec 3) :
    let n := laneBits f
    let v := packMask (((lanesOf n (wVal t wa)).zip (lanesOf n (wVal t wb))).zipIdx.map fun p =>
      (maskVal t k).getLsbD p.2 && laneCmp f c fl p.1.1 p.1.2)
    (∀ j, 2048 / n ≤ j → v.getLsbD j = false) ∧ ∀ i, i < 2048 / n → v.getLsbD i =
      ((maskVal t k).getLsbD i && laneCmp f c fl (lane n (wVal t wa) i) (lane n (wVal t wb) i)) := by
  intro n v
  have hn : 2048 / n ≤ 256 := by rcases laneBits_cases f with h | h | h | h <;> simp [n, h]
  refine ⟨fun j hj => ?_, fun i hi => ?_⟩
  · by_cases h : j < 256
    · rw [packMask_getLsbD _ _ h, List.getD_eq_getElem?_getD, List.getElem?_eq_none (by simpa [lanesOf] using hj)]
      rfl
    · exact BitVec.getLsbD_of_ge _ _ (by omega)
  · rw [packMask_getLsbD _ _ (Nat.lt_of_lt_of_le hi hn)]
    simp [List.getD_eq_getElem?_getD, lanesOf, hi, List.zip, lane, n]

theorem integerOps : IntegerOps := by
  intro t op st f wd wa wb wc k mk r fl i h4 h12 hi n a b le gives
  have ha : a < 2 ^ n := lane_lt _ _ _
  have hb : b < 2 ^ n := lane_lt _ _ _
  have harith : ∀ F (g : Int → Int → Int → Int) x y z, laneArith f r F g x y z < 2 ^ n := fun F g x y z => by
    rw [laneArith_eq h4 h12]
    exact emod_toNat_lt _ _
  have hpick : ∀ gr x y, x < 2 ^ n → y < 2 ^ n → laneExtreme f gr fl x y < 2 ^ n := fun gr x y hx hy => by
    rw [laneExtreme_eq h4 h12]
    split <;> assumption
  refine ⟨?_, ?_, ?_, ?_, ?_, ?_, ?_, ?_, fun c => ?_⟩
  · refine lanewise_gives (fun x y _ => laneArith f r (fun m x y _ => Val.add m x y) (fun x y _ => x + y) x y 0) rfl hi ?_
      fun x y _ _ _ _ => harith _ _ x y 0
    exact (laneArith_eq h4 h12 _ _ _ _ _ _).trans (toNat_emod n (a + b))
  · refine lanewise_gives (fun x y _ => laneArith f r (fun m x y _ => Val.add m x y.neg) (fun x y _ => x - y) x y 0) rfl hi ?_
      fun x y _ _ _ _ => harith _ _ x y 0
    exact (laneArith_eq h4 h12 _ _ _ _ _ _).trans (sub_emod hb)
  · refine lanewise_gives (fun x y _ => laneArith f r (fun _ x y _ => Val.mul x y) (fun x y _ => x * y) x y 0) rfl hi ?_
      fun x y _ _ _ _ => harith _ _ x y 0
    exact (laneArith_eq h4 h12 _ _ _ _ _ _).trans (toNat_emod n (a * b))
  · refine lanewise_gives (fun x y z => laneArith f r (fun m x y z => Val.add m (Val.mul x y) z) (fun x y z => x * y + z) x y z)
      rfl hi ?_ fun x y z _ _ _ => harith _ _ x y z
    exact (laneArith_eq h4 h12 _ _ _ _ _ _).trans (toNat_emod n (a * b + lane n (wVal t wc) i))
  · exact lanewise_gives (fun x y _ => laneExtreme f false fl x y) rfl hi (laneMin_eq h4 h12 fl ha hb)
      fun x y _ hx hy _ => hpick false x y hx hy
  · exact lanewise_gives (fun x y _ => laneExtreme f true fl x y) rfl hi (laneMax_eq h4 h12 fl ha hb)
      fun x y _ hx hy _ => hpick true x y hx hy
  · refine lanewise_gives (fun x _ _ => laneUn f .neg r x) rfl hi (laneUn_neg h4 h12 r a) fun x _ _ _ _ _ => ?_
    rw [laneUn_neg h4 h12]
    exact Nat.mod_lt _ (Nat.two_pow_pos _)
  · refine lanewise_gives (fun x _ _ => laneUn f .abs r x) rfl hi (laneUn_abs h4 h12 r ha) fun x _ _ hx _ _ => ?_
    rw [laneUn_abs h4 h12 r hx]
    split
    · exact Nat.mod_lt _ (Nat.two_pow_pos _)
    · exact hx
  · obtain ⟨hout, hin⟩ := vcmp_bits t f c fl k wa wb
    refine ⟨_, rfl, hout, ?_⟩
    rw [hin i hi, laneCmp_eq h4 h12 c fl ha hb]
    cases c <;> rfl

/-! ### The bits of lanes (R223, R235, R237, R238, R241, R242, R244, R245) -/

theorem laneShift_left (f : BitVec 4) (ar : Bool) (a b : Nat) :
    laneShift f true ar a b = a * 2 ^ (b % laneBits f) % 2 ^ laneBits f := rfl

theorem laneShift_right (f : BitVec 4) (a b : Nat) : laneShift f false false a b = a / 2 ^ (b % laneBits f) := by
  simp [laneShift]

/-- The complement's quotient. -/
theorem compl_div {P Q a : Nat} (hP : 0 < P) (ha : a < P * Q) : (P * Q - 1 - a) / P = Q - 1 - a / P := by
  have hq : a / P < Q := Nat.div_lt_of_lt_mul ha
  have ha' := Nat.div_add_mod a P
  have hr := Nat.mod_lt a hP
  have hsplit : P * Q = P * (Q - 1 - a / P) + P * (a / P) + P := by
    conv_lhs => rw [show Q = (Q - 1 - a / P) + a / P + 1 by omega]
    ring
  rw [show P * Q - 1 - a = (P - 1 - a % P) + P * (Q - 1 - a / P) by omega, Nat.add_mul_div_left _ _ hP,
    Nat.div_eq_of_lt (by omega), Nat.zero_add]

/-- The arithmetic shift of a lane, as that of its bits (R242). -/
theorem laneShift_arith (f : BitVec 4) {a : Nat} (b : Nat) (ha : a < 2 ^ laneBits f) :
    laneShift f false true a b = ((BitVec.ofNat (laneBits f) a).sshiftRight (b % laneBits f)).toNat := by
  have hpos : 0 < laneBits f := by rcases laneBits_cases f with h | h | h | h <;> omega
  have hk : b % laneBits f < laneBits f := Nat.mod_lt _ hpos
  have hv : (BitVec.ofNat (laneBits f) a).toNat = a := by rw [BitVec.toNat_ofNat, Nat.mod_eq_of_lt ha]
  have hmsb : (BitVec.ofNat (laneBits f) a).msb = decide (2 ^ (laneBits f - 1) ≤ a) := by rw [BitVec.msb_eq_decide, hv]
  by_cases h : 2 ^ (laneBits f - 1) ≤ a
  · have hpq : 2 ^ (b % laneBits f) * 2 ^ (laneBits f - b % laneBits f) = 2 ^ laneBits f := by
      rw [← Nat.pow_add]
      congr 1
      omega
    have hdiv := compl_div (Nat.two_pow_pos (b % laneBits f)) (hpq ▸ ha)
    have hlt : a / 2 ^ (b % laneBits f) < 2 ^ (laneBits f - b % laneBits f) := Nat.div_lt_of_lt_mul (hpq ▸ ha)
    have hle : 2 ^ (laneBits f - b % laneBits f) ≤ 2 ^ laneBits f := Nat.pow_le_pow_right (by omega) (by omega)
    have harith : ∀ x Q N : Nat, x < Q → Q ≤ N → x + (N - Q) = N - 1 - (Q - 1 - x) := by omega
    rw [BitVec.toNat_sshiftRight_of_msb_true (by simpa [hmsb] using h), hv, Nat.shiftRight_eq_div_pow]
    rw [hpq] at hdiv
    simp only [laneShift, h, and_self, if_true, Bool.false_eq_true, if_false, hdiv]
    exact harith _ _ _ hlt hle
  · rw [BitVec.toNat_sshiftRight_of_msb_false (by simpa [hmsb] using h), hv, Nat.shiftRight_eq_div_pow]
    simp only [laneShift, h, and_false, if_false, Bool.false_eq_true]

/-- A register with one lane set (R243). -/
theorem packSet_lane (n : Nat) (v : BitVec 2048) (j x i : Nat) (hi : i < 2048 / n) (hx : x < 2 ^ n) :
    lane n (packLanes n ((lanesOf n v).set j x)) i = if i = j then x else lane n v i := by
  have hlen : ((lanesOf n v).set j x).length = 2048 / n := by simp
  rw [lane, packLanes_lane n _ (fun y hy => ?_) (by rw [hlen]; exact lanes_fill n) i (by rw [hlen]; exact hi)]
  · by_cases h : i = j
    · subst h
      simp [List.getD_eq_getElem?_getD, hi]
    · rw [if_neg h, List.getD_eq_getElem?_getD, List.getElem?_set_ne (Ne.symm h), ← List.getD_eq_getElem?_getD]
      exact lanesOf_getD n v i 0 hi
  · rcases List.mem_or_eq_of_mem_set hy with hy | rfl
    · exact lanesOf_lt hy
    · exact hx

theorem laneBits_lt {f : BitVec 4} {a b : Nat} (hb : b < 2 ^ laneBits f) (h : a ≤ b) : a < 2 ^ laneBits f := Nat.lt_of_le_of_lt h hb

theorem laneBits_ops : LaneBits := by
  intro t op st f wd wa wb k mk ma mb g r i hi n a b gives
  have ha : a < 2 ^ n := lane_lt _ _ _
  refine ⟨?_, ?_, ?_, ?_, ?_, ?_, ?_, ?_, ?_, ?_, fun j => ?_, fun j hj => ?_, rfl, rfl, rfl, rfl⟩
  · exact lanewise_gives (fun x y _ => x &&& y) rfl hi rfl fun x y _ hx _ _ => laneBits_lt hx Nat.and_le_left
  · exact lanewise_gives (fun x y _ => x ||| y) rfl hi rfl fun x y _ hx hy _ => Nat.or_lt_two_pow hx hy
  · exact lanewise_gives (fun x y _ => x ^^^ y) rfl hi rfl fun x y _ hx hy _ => Nat.xor_lt_two_pow hx hy
  · exact lanewise_gives (fun x _ _ => laneUn f .not r x) rfl hi rfl fun x _ _ hx _ _ => by
      show 2 ^ n - 1 - x < 2 ^ n
      omega
  · exact lanewise_gives (fun x y _ => laneShift f true false x y) rfl hi rfl fun x y _ _ _ _ =>
      Nat.mod_lt _ (Nat.two_pow_pos _)
  · exact lanewise_gives (fun x y _ => laneShift f false false x y) rfl hi (laneShift_right f a b) fun x y _ hx _ _ => by
      rw [laneShift_right]
      exact laneBits_lt hx (Nat.div_le_self _ _)
  · exact lanewise_gives (fun x y _ => laneShift f false true x y) rfl hi (laneShift_arith f b ha) fun x y _ hx _ _ => by
      rw [laneShift_arith f y hx]
      exact BitVec.isLt _
  · have hp : 0 < 2048 / n := Nat.zero_lt_of_lt hi
    exact lanewise_gives (fun x _ _ => (lanesOf n (wVal t wa)).getD (x % (2048 / n)) 0) rfl hi
      (lanesOf_getD n _ _ 0 (Nat.mod_lt _ hp)) fun x _ _ _ _ _ => by
        rw [lanesOf_getD n _ _ 0 (Nat.mod_lt _ hp)]
        exact lane_lt _ _ _
  · exact lanewise_gives (wa := 0) (wb := 0) (wc := 0) (fun _ _ _ => op.gval.toNat % 2 ^ laneBits f) rfl hi rfl
      fun _ _ _ _ _ _ => Nat.mod_lt _ (Nat.two_pow_pos _)
  · refine ⟨_, rfl, ?_⟩
    refine (packBlend_lane n _ (wVal t wb) (lanesOf n (wVal t wa)) (by simp) (fun x hx => lanesOf_lt hx) i hi).trans ?_
    rw [lanesOf_getD n _ i 0 hi]
    rfl
  · exact ⟨_, rfl, packSet_lane n _ _ _ i hi (Nat.mod_lt _ (Nat.two_pow_pos _))⟩
  · exact congrArg (fun x => VRes.scalar (laneScalar f x)) (lanesOf_getD n _ _ 0 hj)

/-! ### Trees over the active lanes (R220, R236) -/

/-- What holds of no leaf, of one leaf, and of a node where it holds of its elements, holds of a tree: `P l v` of the leaves `l`
and the root `v`. -/
theorem treeAt_leaves {P : List Nat → Option Nat → Prop} {node : Nat → Nat → Nat} {x : Nat → Option Nat}
    (hnil : P [] none) (hone : ∀ j v, x j = some v → P [v] (some v))
    (hnode : ∀ l l' a b, P l a → P l' b → P (l ++ l') (treePair node a b)) (d : Nat) :
    ∀ m, P ((List.range' (2 ^ d * m) (2 ^ d)).filterMap x) (treeAt node x d m) := by
  induction d with
  | zero =>
    intro m
    rw [Nat.pow_zero, Nat.one_mul]
    show P ([m].filterMap x) (x m)
    cases h : x m with
    | none => simpa [h] using hnil
    | some v => simpa [h] using hone m v h
  | succ d ih =>
    intro m
    have h1 : 2 ^ (d + 1) * m = 2 ^ d * (2 * m) := by ring
    have h2 : 2 ^ (d + 1) = 2 ^ d + 2 ^ d := by ring
    have h3 : 2 ^ d * (2 * m) + 2 ^ d = 2 ^ d * (2 * m + 1) := by ring
    rw [treeAt_succ, h1, h2, ← List.range'_append_1, List.filterMap_append, h3]
    exact hnode _ _ _ _ (ih (2 * m)) (ih (2 * m + 1))

/-- Lanes 0 to `u - 1` that the mask makes active, as leaves. -/
def leavesTo (mask : BitVec 256) (x : Nat → Nat) (u j : Nat) : Option Nat :=
  if j < u ∧ mask.getLsbD j = true then some (x j) else none

theorem leavesTo_range (mask : BitVec 256) (x : Nat → Nat) {u : Nat} (hu : u ≤ 256) :
    (List.range' 0 256).filterMap (leavesTo mask x u) = ((List.range u).filter fun j => mask.getLsbD j).map x := by
  have hsplit : List.range' 0 256 = List.range' 0 u ++ List.range' (0 + u) (256 - u) := by
    rw [List.range'_append_1]
    congr 1
    omega
  have htail : (List.range' (0 + u) (256 - u)).filterMap (leavesTo mask x u) = [] := by
    rw [List.filterMap_eq_nil_iff]
    intro j hj
    have := List.mem_range'_1.mp hj
    rw [leavesTo, if_neg (by omega)]
  have hhead : ∀ l : List Nat, (∀ j ∈ l, j < u) →
      l.filterMap (leavesTo mask x u) = (l.filter fun j => mask.getLsbD j).map x := by
    intro l
    induction l with
    | nil => exact fun _ => rfl
    | cons j l ih =>
      intro h
      have hj : j < u := h j (by simp)
      rw [List.filterMap_cons, ih fun i hi => h i (by simp [hi]), leavesTo]
      cases hm : mask.getLsbD j <;> simp [hm, hj]
  rw [hsplit, List.filterMap_append, htail, List.append_nil, ← List.range_eq_range']
  exact hhead _ fun j hj => List.mem_range.mp hj

/-- The root of a tree over lanes 0 to `u - 1` is that of a list of leaves. -/
theorem treeRoot_leaves {P : List Nat → Option Nat → Prop} {node : Nat → Nat → Nat} {mask : BitVec 256} {x : Nat → Nat} {u : Nat}
    {l : List (Option Nat)} (hu : u ≤ 256) (hl : ∀ j, l.getD j none = leavesTo mask x u j) (hnil : P [] none)
    (hone : ∀ j, P [x j] (some (x j))) (hnode : ∀ l l' a b, P l a → P l' b → P (l ++ l') (treePair node a b)) :
    P (((List.range u).filter fun j => mask.getLsbD j).map x) (treeRoot node 8 l) := by
  rw [treeRoot_eq, ← leavesTo_range mask x hu, show (fun j => l.getD j none) = leavesTo mask x u from funext hl]
  refine treeAt_leaves hnil (fun j v h => ?_) hnode 8 0
  unfold leavesTo at h
  split at h
  · rw [← Option.some.inj h]
    exact hone j
  · cases h

theorem leaves_getD (n : Nat) (mask : BitVec 256) (v : BitVec 2048) (j : Nat) :
    (leaves mask (lanesOf n v)).getD j none = leavesTo mask (lane n v) (2048 / n) j := by
  unfold leavesTo leaves
  by_cases h : j < 2048 / n
  · simp [List.getD_eq_getElem?_getD, lanesOf, h, lane]
  · simp [List.getD_eq_getElem?_getD, lanesOf, h]

theorem leavesScan_getD (n : Nat) (mask : BitVec 256) (v : BitVec 2048) {i : Nat} (hi : i < 2048 / n) (j : Nat) :
    ((leaves mask (lanesOf n v)).zipIdx.map fun p => if p.2 ≤ i then p.1 else none).getD j none =
      leavesTo mask (lane n v) (i + 1) j := by
  have h := leaves_getD n mask v j
  have hlen : (leaves mask (lanesOf n v)).length = 2048 / n := by simp [leaves]
  unfold leavesTo at h ⊢
  by_cases hj : j < 2048 / n
  · rw [List.getD_eq_getElem?_getD, List.getElem?_eq_getElem (by rw [hlen]; exact hj)] at h
    simp only [Option.getD_some] at h
    rw [List.getD_eq_getElem?_getD, List.getElem?_map, List.getElem?_zipIdx, List.getElem?_eq_getElem (by rw [hlen]; exact hj)]
    simp only [Option.map_some, Option.getD_some, Nat.zero_add, h, hj, true_and]
    by_cases hji : j ≤ i
    · simp [hji, Nat.lt_succ_of_le hji]
    · simp [hji, show ¬ j < i + 1 by omega]
  · rw [List.getD_eq_getElem?_getD, List.getElem?_eq_none (by simpa [hlen] using hj), if_neg (by omega)]
    rfl

/-- The reduction to the least or the greatest. -/
def extremeOp (greatest : Bool) : VRedOp := if greatest then .max else .min

/-- `v` is the least, or the greatest, of the integers of a list. -/
def ExtremeOf (f : BitVec 4) (greatest : Bool) (l : List Nat) (v : Nat) : Prop :=
  v ∈ l ∧ ∀ y ∈ l, if greatest then laneInt f y ≤ laneInt f v else laneInt f v ≤ laneInt f y

theorem ExtremeOf.append {f : BitVec 4} {gr : Bool} {l l' : List Nat} {a b : Nat} (ha : ExtremeOf f gr l a)
    (hb : ExtremeOf f gr l' b) :
    ExtremeOf f gr (l ++ l') (if decide (laneInt f a < laneInt f b) = gr then b else a) := by
  obtain ⟨ha, hal⟩ := ha
  obtain ⟨hb, hbl⟩ := hb
  cases gr with
  | true =>
    simp only [if_true, decide_eq_true_eq] at hal hbl ⊢
    split
    · next h =>
      refine ⟨List.mem_append_right _ hb, fun y hy => ?_⟩
      rcases List.mem_append.mp hy with hy | hy
      · exact (hal y hy).trans (le_of_lt h)
      · exact hbl y hy
    · next h =>
      refine ⟨List.mem_append_left _ ha, fun y hy => ?_⟩
      rcases List.mem_append.mp hy with hy | hy
      · exact hal y hy
      · exact (hbl y hy).trans (not_lt.mp h)
  | false =>
    simp only [Bool.false_eq_true, if_false, decide_eq_false_iff_not] at hal hbl ⊢
    split
    · next h =>
      refine ⟨List.mem_append_right _ hb, fun y hy => ?_⟩
      rcases List.mem_append.mp hy with hy | hy
      · exact (not_lt.mp h).trans (hal y hy)
      · exact hbl y hy
    · next h =>
      refine ⟨List.mem_append_left _ ha, fun y hy => ?_⟩
      rcases List.mem_append.mp hy with hy | hy
      · exact hal y hy
      · exact (le_of_lt (not_not.mp h)).trans (hbl y hy)

section
variable {f : BitVec 4} (h4 : 4 ≤ f.toNat) (h12 : f.toNat < 12)
include h4 h12

theorem redTree_eq (op : VRedOp) (r : FRnd) (l : List (Option Nat)) :
    redTree f op r l = (treeRoot (redNode f op r) 8 l).getD (redIdentity f op) := by
  have hid : redLeaf f op r = id := funext fun a => by
    rw [redLeaf, (intFormat h4 h12).1]
    rfl
  rw [redTree, hid, Option.map_id, List.map_id]

theorem redIdentity_add : redIdentity f .add = 0 := by
  simp only [redIdentity, (intFormat h4 h12).1, Bool.false_eq_true, if_false]

theorem redNode_add (r : FRnd) (a b : Nat) : redNode f .add r a b = (a + b) % 2 ^ laneBits f :=
  (laneArith_eq h4 h12 r (fun m x y _ => Val.add m x y) (fun x y _ => x + y) a b 0).trans (toNat_emod _ (a + b))

theorem redNode_extreme (gr : Bool) (r : FRnd) (a b : Nat) :
    redNode f (extremeOp gr) r a b = if decide (laneInt f a < laneInt f b) = gr then b else a := by
  cases gr
  · exact laneExtreme_eq h4 h12 false false a b
  · exact laneExtreme_eq h4 h12 true false a b

/-- The identity of a least or a greatest (R220). -/
theorem redIdentity_extreme (gr : Bool) :
    redIdentity f (extremeOp gr) < 2 ^ laneBits f ∧ laneInt f (redIdentity f (extremeOp gr)) =
      if f.toNat < 8 then (if gr then -2 ^ (laneBits f - 1) else 2 ^ (laneBits f - 1) - 1)
      else if gr then 0 else 2 ^ laneBits f - 1 := by
  obtain ⟨hf, hs⟩ := intFormat h4 h12
  have hcast : ((2 ^ (laneBits f - 1) : Nat) : Int) = 2 ^ (laneBits f - 1) := by push_cast; rfl
  have hcast' : ((2 ^ laneBits f : Nat) : Int) = 2 ^ laneBits f := by push_cast; rfl
  have hp := two_pow_pred f
  have hpos := Nat.two_pow_pos (laneBits f - 1)
  cases gr <;> by_cases h : f.toNat < 8
  all_goals
    simp only [extremeOp, redIdentity, hf, hs, h, Bool.false_eq_true, if_false, if_true, decide_true, decide_false, laneInt_signed,
      laneInt_unsigned, not_false_eq_true]
  · constructor
    · omega
    · rw [if_pos (by omega)]
      omega
  · constructor <;> omega
  · constructor
    · omega
    · rw [if_neg (by omega)]
      omega
  · constructor
    · omega
    · rfl

section
variable {mask : BitVec 256} {x : Nat → Nat} {u : Nat} {l : List (Option Nat)} (hu : u ≤ 256)
  (hl : ∀ j, l.getD j none = leavesTo mask x u j)
include hu hl

/-- The sum of the active lanes, modulo the lane's width. -/
theorem redTree_sum (hx : ∀ j, x j < 2 ^ laneBits f) (r : FRnd) :
    redTree f .add r l = (((List.range u).filter fun j => mask.getLsbD j).map x).sum % 2 ^ laneBits f := by
  rw [redTree_eq h4 h12, redIdentity_add h4 h12]
  refine treeRoot_leaves (P := fun l o => o.getD 0 = l.sum % 2 ^ laneBits f) hu hl (Nat.zero_mod _).symm (fun j => ?_)
    (fun l l' a b ha hb => ?_)
  · simp [Nat.mod_eq_of_lt (hx j)]
  · rw [List.sum_append, Nat.add_mod, ← ha, ← hb]
    have ha' : a.getD 0 < 2 ^ laneBits f := by rw [ha]; exact Nat.mod_lt _ (Nat.two_pow_pos _)
    have hb' : b.getD 0 < 2 ^ laneBits f := by rw [hb]; exact Nat.mod_lt _ (Nat.two_pow_pos _)
    clear ha hb
    cases a with
    | none =>
      cases b with
      | none => rfl
      | some b => simpa [treePair] using (Nat.mod_eq_of_lt hb').symm
    | some a =>
      cases b with
      | none => simpa [treePair] using (Nat.mod_eq_of_lt ha').symm
      | some b => exact redNode_add h4 h12 r a b

/-- The least or the greatest of the active lanes; with none the identity. -/
theorem redTree_extreme (gr : Bool) (r : FRnd) :
    let active := (List.range u).filter fun j => mask.getLsbD j
    (active = [] → redTree f (extremeOp gr) r l = redIdentity f (extremeOp gr)) ∧
      (active ≠ [] → ExtremeOf f gr (active.map x) (redTree f (extremeOp gr) r l)) := by
  intro active
  have h := treeRoot_leaves (node := redNode f (extremeOp gr) r)
    (P := fun l o => (l = [] → o = none) ∧ (l ≠ [] → ∃ v, o = some v ∧ ExtremeOf f gr l v)) hu hl
    ⟨fun _ => rfl, fun h => absurd rfl h⟩
    (fun j => ⟨nofun, fun _ => ⟨x j, rfl, by simp, fun y hy => by rw [List.mem_singleton.mp hy]; split <;> exact le_refl _⟩⟩)
    (fun l l' a b ha hb => ⟨fun h => ?_, fun h => ?_⟩)
  · rw [redTree_eq h4 h12]
    refine ⟨fun he => ?_, fun hne => ?_⟩
    · rw [h.1 (by simp [active] at he; simpa using he)]
      rfl
    · obtain ⟨v, hv, hex⟩ := h.2 (by simpa [active] using hne)
      rw [hv]
      exact hex
  · obtain ⟨h1, h2⟩ := List.append_eq_nil_iff.mp h
    rw [ha.1 h1, hb.1 h2]
    rfl
  · by_cases h1 : l = []
    · by_cases h2 : l' = []
      · exact absurd (by rw [h1, h2]; rfl) h
      · obtain ⟨v, hv, hex⟩ := hb.2 h2
        exact ⟨v, by rw [ha.1 h1, hv]; rfl, by simpa [h1] using hex⟩
    · obtain ⟨v, hv, hex⟩ := ha.2 h1
      by_cases h2 : l' = []
      · exact ⟨v, by rw [hb.1 h2, hv]; rfl, by simpa [h2] using hex⟩
      · obtain ⟨v', hv', hex'⟩ := hb.2 h2
        refine ⟨redNode f (extremeOp gr) r v v', by rw [hv, hv']; rfl, ?_⟩
        rw [redNode_extreme h4 h12]
        exact hex.append hex'

end

end

/-- What is said of the least, or the greatest, of the lanes of an integer format below `upto` that a mask makes active. -/
def LeastOf (f : BitVec 4) (mask : BitVec 256) (x : Nat → Nat) (greatest : Bool) (upto v : Nat) : Prop :=
  let active := (List.range upto).filter fun j => mask.getLsbD j
  v < 2 ^ laneBits f ∧
    (active = [] → laneInt f v = if f.toNat < 8 then (if greatest then -2 ^ (laneBits f - 1) else 2 ^ (laneBits f - 1) - 1)
      else if greatest then 0 else 2 ^ laneBits f - 1) ∧
    (active ≠ [] → (∃ j ∈ active, v = x j) ∧ ∀ j ∈ active,
      if greatest then laneInt f (x j) ≤ laneInt f v else laneInt f v ≤ laneInt f (x j))

theorem redTree_least {f : BitVec 4} (h4 : 4 ≤ f.toNat) (h12 : f.toNat < 12) {mask : BitVec 256} {x : Nat → Nat} {u : Nat}
    {l : List (Option Nat)} (hu : u ≤ 256) (hl : ∀ j, l.getD j none = leavesTo mask x u j) (hx : ∀ j, x j < 2 ^ laneBits f)
    (gr : Bool) (r : FRnd) : LeastOf f mask x gr u (redTree f (extremeOp gr) r l) := by
  obtain ⟨hnone, hsome⟩ := redTree_extreme h4 h12 hu hl gr r
  obtain ⟨hid, hval⟩ := redIdentity_extreme h4 h12 gr
  refine ⟨?_, fun he => ?_, fun hne => ?_⟩
  · by_cases he : ((List.range u).filter fun j => mask.getLsbD j) = []
    · rw [hnone he]
      exact hid
    · obtain ⟨j, -, hj⟩ := List.mem_map.mp (hsome he).1
      rw [← hj]
      exact hx j
  · rw [hnone he]
    exact hval
  · obtain ⟨hm, hall⟩ := hsome hne
    obtain ⟨j, hj, hv⟩ := List.mem_map.mp hm
    exact ⟨⟨j, hj, hv.symm⟩, fun j hj => hall (x j) (List.mem_map_of_mem hj)⟩

/-- The leaves of lane `i` of a scan. -/
def scanLeaves (t : Thread) (f : BitVec 4) (k : BitVec 2) (wa : BitVec 3) (i : Nat) : List (Option Nat) :=
  (leaves (maskVal t k) (lanesOf (laneBits f) (wVal t wa))).zipIdx.map fun p => if p.2 ≤ i then p.1 else none

/-- What a scan gives on lane `i`, where its trees fit their lanes. -/
theorem vscan_lane (t : Thread) (f : BitVec 4) (op : VRedOp) (r : FRnd) (k : BitVec 2) (wd wa : BitVec 3) {i : Nat}
    (hi : i < 2048 / laneBits f)
    (hlt : ∀ j, j < 2048 / laneBits f → redTree f op r (scanLeaves t f k wa j) < 2 ^ laneBits f) :
    lane (laneBits f) (packLanes (laneBits f) (blend (maskVal t k) (lanesOf (laneBits f) (wVal t wd))
        ((List.range (2048 / laneBits f)).map fun j => redTree f op r (scanLeaves t f k wa j)))) i =
      if (maskVal t k).getLsbD i then redTree f op r (scanLeaves t f k wa i) else lane (laneBits f) (wVal t wd) i := by
  refine (packBlend_lane (laneBits f) _ _ _ (by simp) (fun x hx => ?_) i hi).trans ?_
  · obtain ⟨j, hj, rfl⟩ := List.mem_map.mp hx
    exact hlt j (List.mem_range.mp hj)
  · rw [List.getD_eq_getElem?_getD, List.getElem?_map, List.getElem?_range hi]
    rfl

theorem integerTrees : IntegerTrees := by
  intro t op st f g wd wa k r i h4 h12 hi n x active sum least scans
  have hlanes : 2048 / n ≤ 256 := by rcases laneBits_cases f with h | h | h | h <;> simp [n, h]
  have hx : ∀ j, x j < 2 ^ n := lane_lt n (wVal t wa)
  have hall := leaves_getD n (maskVal t k) (wVal t wa)
  have hscan : ∀ j, j < 2048 / n → ∀ m, (scanLeaves t f k wa j).getD m none = leavesTo (maskVal t k) x (j + 1) m :=
    fun j hj => leavesScan_getD n (maskVal t k) (wVal t wa) hj
  have hadd : ∀ j, j < 2048 / n → redTree f .add r (scanLeaves t f k wa j) = sum (j + 1) := fun j hj =>
    redTree_sum h4 h12 (by omega) (hscan j hj) hx r
  have hleast : ∀ gr j, j < 2048 / n → LeastOf f (maskVal t k) x gr (j + 1) (redTree f (extremeOp gr) r (scanLeaves t f k wa j)) :=
    fun gr j hj => redTree_least h4 h12 (by omega) (hscan j hj) hx gr r
  have hscans : ∀ o (h : Nat → Prop), (∀ j, j < 2048 / n → redTree f o r (scanLeaves t f k wa j) < 2 ^ n) →
      h (redTree f o r (scanLeaves t f k wa i)) → scans o h := by
    intro o h hlt hh
    have hl := vscan_lane t f o r k wd wa hi hlt
    exact ⟨_, rfl, fun hm => (hl.trans (if_pos hm)) ▸ hh, fun hm => hl.trans (if_neg (ne_true_of_eq_false hm))⟩
  refine ⟨?_, ⟨_, rfl, ?_⟩, ⟨_, rfl, ?_⟩, ?_, ?_, ?_⟩
  · exact congrArg (fun v => VRes.scalar (laneScalar f v)) (redTree_sum h4 h12 hlanes hall hx r)
  · exact redTree_least h4 h12 hlanes hall hx false r
  · exact redTree_least h4 h12 hlanes hall hx true r
  · exact hscans .add (fun v => v = sum (i + 1)) (fun j hj => by rw [hadd j hj]; exact Nat.mod_lt _ (Nat.two_pow_pos n)) (hadd i hi)
  · exact hscans .min (least false (i + 1)) (fun j hj => (hleast false j hj).1) (hleast false i hi)
  · exact hscans .max (least true (i + 1)) (fun j hj => (hleast true j hj).1) (hleast true i hi)

/-- Settles O24. -/
theorem integerLanes : Obligations.IntegerLanes := ⟨integerOps, laneBits_ops, integerTrees⟩

end Sys2Proof.Machine
end

section
/-! PROOFS. The issue of matrix commands and the lease instructions (spec/13 R248, R250, R253 to R264). -/

namespace Sys2Proof.Machine

open Sys2Proof.Claims

/-! ### Operands that are not there -/

theorem srcFields_length {s : State} {g : Nat} {l : List RegNum} {ss : List Src} (h : srcFields s g l = .ok ss) :
    ss.length = l.length := by
  induction l generalizing ss with
  | nil =>
    cases h
    rfl
  | cons n l ih =>
    unfold srcFields at h
    cases hn : srcField s g n with
    | error e => simp [hn, bind, Except.bind] at h
    | ok x =>
      cases hl : srcFields s g l with
      | error e => simp [hn, hl, bind, Except.bind] at h
      | ok xs =>
        simp only [hn, hl, bind, Except.bind, pure, Except.pure, Except.ok.injEq] at h
        rw [← h, List.length_cons, List.length_cons, ih hl]

theorem srcValues_length (s : State) (g : Nat) (ss seen : List Src) : (srcValues s g seen ss).length = ss.length := by
  induction ss generalizing seen with
  | nil => rfl
  | cons x ss ih => simp only [srcValues, List.length_cons, ih]

/-- The value of a source that an instruction does not name is 0. -/
theorem operands_absent {s : State} {g : Nat} {srcs dsts : List RegNum} {o : Opnds} (h : operands s g srcs dsts = .ok o) {k : Nat}
    (hk : srcs.length ≤ k) : o.v k = 0 := by
  obtain ⟨hs, -, -, hv⟩ := operands_ok h
  rw [Opnds.v, hv, List.getD_eq_getElem?_getD, List.getElem?_eq_none]
  · rfl
  · rw [srcValues_length, srcFields_length hs]
    exact hk

/-- An instruction without fields has its operands. -/
theorem operands_none (s : State) (g : Nat) : operands s g [] [] = .ok ⟨[], [], []⟩ := rfl

/-! ### Commands (R250, R253) -/

/-- The command of an instruction that issues under a lease. -/
def issuedCommand (s : State) (g : Nat) (i : Instr) (l : Lease) (m : Option MemArg) (o : Opnds) : MCmd :=
  { n := s.nextId, who := whoIn s g, core := coreOf g, lease := l.id, ins := i
    oval := if m.isSome then o.v 0 else 0, gval := if m.isSome then o.v 1 else o.v 0 }

/-- The state in which a command is numbered and has read its registers. -/
def commandRead (s : State) (g : Nat) (o : Opnds) : State := consumeKept { s with nextId := s.nextId + 1 } g o.srcs

/-- The state in which a command has issued and its thread waits. -/
def commandIssued (s : State) (g c : Nat) (i : Instr) (l : Lease) (m : Option MemArg) (o : Opnds) : State :=
  (modMx (commandRead s g o) (tileOf g) fun x =>
    { x with lease := some { l with left := l.left - 1 }, issued := x.issued ++ [issuedCommand s g i l m o] }).modThread g fun t =>
    { t with status := .parked .maccept, ready := c, base := c }

section
variable {s : State} {i : Instr} {l : Lease} {m : Option MemArg} {g2 : List RegNum} {o : Opnds}

theorem command_acts (hi : exec i s = matrixIssue i m g2 s) (hl : Leased s l)
    (h : Ready s ((m.map (·.off)).toList ++ g2) [] o) (hn : Meets s ((m.map fun x => kwNeeds x.kw).getD [])) :
    Acts s i (commandIssued (landed s) s.cur (clockOf s) i l m o) := by
  obtain ⟨hlease, hcore, hleft⟩ := hl
  have hfilter : ((landed s).tile (tileOf s.cur)).mx.lease.filter (·.core == coreOf s.cur) = some l := by
    rw [show ((landed s).tile (tileOf s.cur)).mx.lease = some l from hlease]
    simp [Option.filter, hcore]
  refine acts_ok (hi.trans (show matrixIssue i m g2 s = runInstr s s.cur false _ from rfl)) ?_
  refine (passes h).trans ?_
  rw [landed_cur, hfilter]
  refine (if_neg hleft).trans ?_
  exact (passes (require_ok hn)).trans rfl

theorem modMx_mx (s : State) (T : Nat) (f : Matrix → Matrix) : ((modMx s T f).tile T).mx = f (s.tile T).mx := by
  rw [modMx, State.tile_mod]

theorem commandRead_keeps (s : State) (o : Opnds) :
    let v := commandRead (landed s) s.cur o
    v.mem = s.mem ∧ v.nextId = s.nextId + 1 ∧ ∀ T, v.tile T = s.tile T := by
  obtain ⟨_, hreads⟩ := consumeKept_reads { landed s with nextId := s.nextId + 1 } s.cur o.srcs
  obtain ⟨_, _, _, _, _, hu⟩ := hreads.module
  intro v
  rw [show v = _ from hu]
  exact ⟨rfl, rfl, fun _ => rfl⟩

/-- What a change of a tile's array and then of a thread leaves. -/
theorem modMx_modThread (v : State) (T g : Nat) (f : Matrix → Matrix) (h : Thread → Thread) :
    let u := (modMx v T f).modThread g h
    u.thread g = h ((modMx v T f).thread g) ∧ u.mem = v.mem ∧ u.nextId = v.nextId ∧ (u.tile T).mx = f (v.tile T).mx := by
  refine ⟨?_, rfl, rfl, modMx_mx v T f⟩
  exact State.thread_mod (modMx v T f) g h

theorem commandIssued_commands (s : State) (i : Instr) (l : Lease) (m : Option MemArg) (o : Opnds) :
    let u := commandIssued (landed s) s.cur (clockOf s) i l m o
    (u.thread s.cur).status = .parked .maccept ∧ u.mem = s.mem ∧ u.nextId = s.nextId + 1 ∧
      (u.tile (tileOf s.cur)).mx.lease = some { l with left := l.left - 1 } ∧
      (u.tile (tileOf s.cur)).mx.issued = (s.tile (tileOf s.cur)).mx.issued ++
        [{ n := s.nextId, who := whoIn s s.cur, core := coreOf s.cur, lease := l.id, ins := i
           oval := if m.isSome then o.v 0 else 0, gval := if m.isSome then o.v 1 else o.v 0 }] := by
  obtain ⟨hmem, hid, htile⟩ := commandRead_keeps s o
  obtain ⟨hthread, hmem', hid', hmx⟩ := modMx_modThread (commandRead (landed s) s.cur o)
    (tileOf s.cur) s.cur (fun x => { x with lease := some { l with left := l.left - 1 }, issued := x.issued ++ [issuedCommand (landed s) s.cur i l m o] })
    (fun t => { t with status := .parked .maccept, ready := clockOf s, base := clockOf s })
  rw [htile] at hmx
  refine ⟨congrArg Thread.status hthread, hmem'.trans hmem, hid'.trans hid, congrArg Matrix.lease hmx,
    (congrArg Matrix.issued hmx).trans ?_⟩
  rw [issuedCommand, whoIn_landed]
  rfl

/-- A command under a lease with commands left issues. -/
theorem commands_of (hi : exec i s = matrixIssue i m g2 s) (hl : Leased s l) (h : Ready s ((m.map (·.off)).toList ++ g2) [] o)
    (hn : Meets s ((m.map fun x => kwNeeds x.kw).getD [])) :
    Commands s i l (if m.isSome then o.v 0 else 0) (if m.isSome then o.v 1 else o.v 0) :=
  ⟨_, command_acts hi hl h hn, commandIssued_commands s i l m o⟩

/-- A command with a memory operand and no other. -/
theorem commands_mem {x : MemArg} (hi : exec i s = matrixIssue i (some x) [] s) (hl : Leased s l) (h : Ready s [x.off] [] o)
    (hn : Meets s (kwNeeds x.kw)) : Commands s i l (o.v 0) 0 := by
  have hc := commands_of (m := some x) (g2 := []) hi hl h hn
  rwa [show (if (some x).isSome then o.v 1 else o.v 0) = 0 from operands_absent h (by simp)] at hc

end

theorem matrixCommandsIssue : MatrixCommandsIssue := by
  intro s st l a o x b m n hl
  refine ⟨fun h hn => ⟨?_, ?_, ?_⟩, fun h hn => ⟨?_, ?_, ?_⟩, fun h hn => ?_, fun h => ?_, ?_⟩
  · exact commands_mem (x := memArg m) rfl hl h hn
  · exact commands_mem (x := memArg m) rfl hl h hn
  · exact commands_mem (x := memArg m) rfl hl h hn
  · exact commands_mem (x := memArg n) rfl hl h hn
  · exact commands_mem (x := memArg n) rfl hl h hn
  · exact commands_mem (x := memArg n) rfl hl h hn
  · exact commands_of (m := some (memArg n)) (g2 := [a]) rfl hl h hn
  · exact commands_of (m := none) (g2 := [a]) rfl hl h rfl
  · exact commands_of (m := none) (g2 := []) (o := ⟨[], [], []⟩) rfl hl (operands_none _ _) rfl

theorem matrixWithoutLease : MatrixWithoutLease := by
  intro s st
  refine ⟨fun hl => ?_, fun l hl hc hleft => ?_⟩
  · have hfilter : ((landed s).tile (tileOf s.cur)).mx.lease.filter (·.core == coreOf s.cur) = none := by
      cases hlease : (s.tile (tileOf s.cur)).mx.lease with
      | none =>
        rw [show ((landed s).tile (tileOf s.cur)).mx.lease = none from hlease]
        rfl
      | some l =>
        rw [show ((landed s).tile (tileOf s.cur)).mx.lease = some l from hlease]
        simp [Option.filter, hl l hlease]
    refine stops_err (show matrixIssue (.mzero st) none [] s = runInstr s s.cur false _ from rfl) (e := .localTrap 6 1 0) ?_
    refine (passes (operands_none _ _)).trans ?_
    rw [landed_cur, hfilter]
    rfl
  · have hfilter : ((landed s).tile (tileOf s.cur)).mx.lease.filter (·.core == coreOf s.cur) = some l := by
      rw [show ((landed s).tile (tileOf s.cur)).mx.lease = some l from hl]
      simp [Option.filter, hc]
    refine stops_err (show matrixIssue (.mzero st) none [] s = runInstr s s.cur false _ from rfl) (e := .localTrap 6 2 0) ?_
    refine (passes (operands_none _ _)).trans ?_
    rw [landed_cur, hfilter]
    exact if_pos hleft

/-- Settles O26. -/
theorem matrixIssues : Obligations.MatrixIssue := ⟨matrixCommandsIssue, matrixWithoutLease⟩

/-! ### Leases (R256, R257, R263, R264) -/

/-- Settles O27. -/
theorem leaseInstructions : Obligations.LeaseInstructions := by
  intro s st n d o T m
  refine ⟨fun hl hn => ?_, ?_, fun h => ?_, fun h => ?_, fun h => ?_⟩
  · have hi : Acts s (.mlease st n) ((modMx (landed s) T fun m => { m with requests := m.requests ++
        [⟨coreOf s.cur, whoIn (landed s) s.cur, n.toNat⟩] }).modThread s.cur fun t =>
        { t with status := .parked .lease, ready := clockOf s, base := clockOf s }) := by
      refine acts_ok (show execMlease st n s = runInstr s s.cur false _ from rfl) ?_
      refine (if_neg (ne_true_of_eq_false hl)).trans ?_
      exact (passes (require_ok hn)).trans rfl
    obtain ⟨hthread, -, -, hmx⟩ := modMx_modThread (landed s) T s.cur
      (fun m => { m with requests := m.requests ++ [⟨coreOf s.cur, whoIn (landed s) s.cur, n.toNat⟩] })
      (fun t => { t with status := .parked .lease, ready := clockOf s, base := clockOf s })
    refine ⟨_, hi, (congrArg Thread.status hthread :), (congrArg Matrix.requests hmx).trans ?_⟩
    rw [whoIn_landed]
    rfl
  · exact acts_always (fun u c => retire (endLease u (tileOf u.cur) (coreOf u.cur)) u.cur c st false none) rfl
  · exact gives_of (f := fun s _ => .ok (mstatWord (s.tile (tileOf s.cur)).mx s.cur)) rfl h rfl
  · exact acts_ok (show execMwait st s = runInstr s s.cur false _ from rfl) (if_pos h)
  · exact ⟨_, acts_ok (show execMwait st s = runInstr s s.cur false _ from rfl) (if_neg (ne_true_of_eq_false h)),
      congrArg Thread.status ((passTurn_thread _ _ _ _).trans (State.thread_mod (landed s) s.cur _))⟩

end Sys2Proof.Machine
end

section
/-! PROOFS. The matrix array (spec/13 R246 to R262): grants of leases, acceptance of commands, their execution. -/

namespace Sys2Proof.Machine

open Claims

/-! ### Places of leases in the order of commands (R246) -/

/-- Admitting grants moves issued places into the queue and sets the scale in acceptance order. -/
theorem admitGrants_eq (m : Matrix) (l : List MCmd) :
    ∃ i q a, admitGrants m l = { m with issued := i, queue := q, msA := a } := by
  induction l generalizing m with
  | nil => exact ⟨[], m.queue, m.msA, rfl⟩
  | cons c l ih =>
    rw [admitGrants]
    split
    · obtain ⟨i, q, a, h⟩ := ih { m with queue := m.queue ++ [c], msA := scaleOne }
      exact ⟨i, q, a, h⟩
    · exact ⟨c :: l, m.queue, m.msA, rfl⟩

/-- A command at the head of the issued ones keeps them all there. -/
theorem admitGrants_command (m : Matrix) (l : List MCmd) (h : l.head?.any (·.grant) = false) :
    admitGrants m l = { m with issued := l } := by
  cases l with
  | nil => rfl
  | cons c l => exact if_neg (ne_true_of_eq_false h)

/-- Settling grants moves the head of the queue and sets the scale. -/
theorem settleGrants_eq (m : Matrix) (l : List MCmd) : ∃ q a, settleGrants m l = { m with queue := q, ms := a } := by
  induction l generalizing m with
  | nil => exact ⟨[], m.ms, rfl⟩
  | cons c l ih =>
    rw [settleGrants]
    split
    · obtain ⟨q, a, h⟩ := ih { m with ms := scaleOne }
      exact ⟨q, a, h⟩
    · exact ⟨c :: l, m.ms, rfl⟩

theorem settleGrants_command (m : Matrix) (l : List MCmd) (h : l.head?.any (·.grant) = false) :
    settleGrants m l = { m with queue := l } := by
  cases l with
  | nil => rfl
  | cons c l => exact if_neg (ne_true_of_eq_false h)

/-- What settling keeps: everything but the lists of commands and the scale. -/
theorem settle_eq (m : Matrix) :
    ∃ i q a x, settle m = { m with issued := i, queue := q, msA := a, ms := x } := by
  obtain ⟨i, q, a, h⟩ := admitGrants_eq m m.issued
  obtain ⟨q', x, h'⟩ := settleGrants_eq (admitGrants m m.issued) (admitGrants m m.issued).queue
  exact ⟨i, q', a, x, by rw [settle, h', h]⟩

/-- With a command at the head of both lists settling changes neither. -/
theorem settle_commands (m : Matrix) (hi : m.issued.head?.any (·.grant) = false) (hq : m.queue.head?.any (·.grant) = false) :
    settle m = m := by
  rw [settle, admitGrants_command m _ hi]
  exact settleGrants_command _ _ hq

@[simp] theorem settle_requests (m : Matrix) : (settle m).requests = m.requests := by
  obtain ⟨i, q, a, x, h⟩ := settle_eq m
  rw [h]

@[simp] theorem settle_last (m : Matrix) : (settle m).last = m.last := by
  obtain ⟨i, q, a, x, h⟩ := settle_eq m
  rw [h]

@[simp] theorem settle_lease (m : Matrix) : (settle m).lease = m.lease := by
  obtain ⟨i, q, a, x, h⟩ := settle_eq m
  rw [h]

@[simp] theorem settle_c (m : Matrix) : (settle m).c = m.c := by
  obtain ⟨i, q, a, x, h⟩ := settle_eq m
  rw [h]

@[simp] theorem settle_b (m : Matrix) : (settle m).b = m.b := by
  obtain ⟨i, q, a, x, h⟩ := settle_eq m
  rw [h]

/-- With no command issued the place of a lease joins the queue and sets the scale in acceptance order. -/
theorem settle_grant (m : Matrix) (c : MCmd) (hc : c.grant = true) (hi : m.issued = [c]) :
    (settle m).msA = scaleOne ∧ (m.queue = [] → (settle m).ms = scaleOne) := by
  have ha : admitGrants m m.issued = { m with queue := m.queue ++ [c], msA := scaleOne, issued := [] } := by
    rw [hi]
    exact if_pos hc
  rw [settle, ha]
  dsimp only
  refine ⟨?_, fun hq => ?_⟩
  · obtain ⟨q, x, h⟩ := settleGrants_eq { m with queue := m.queue ++ [c], msA := scaleOne, issued := [] } (m.queue ++ [c])
    rw [h]
  · rw [hq]
    simp [settleGrants, hc]

/-- With a command at the head of the issued ones settling keeps them. -/
theorem settle_issued (m : Matrix) (h : m.issued.head?.any (·.grant) = false) : (settle m).issued = m.issued := by
  rw [settle, admitGrants_command m _ h]
  dsimp only
  obtain ⟨q, x, h'⟩ := settleGrants_eq { m with issued := m.issued } m.queue
  rw [h']

/-! ### Grants of leases (R246, R249, R307) -/

/-- The place of a lease in the order of commands. -/
def leaseMark (s : State) (r : LeaseReq) : MCmd :=
  { n := s.nextId, who := r.who, core := r.core, lease := s.nextId, ins := .mrel 0, grant := true }

/-- The array when a request holds the lease and its place is issued. -/
def leasedMatrix (s : State) (r : LeaseReq) (m : Matrix) : Matrix :=
  { m with
    lease := if r.who.live s then some { id := s.nextId, core := r.core, holder := r.who.g, left := r.n } else none
    last := r.core % 4, requests := m.requests.erase r, issued := m.issued ++ [leaseMark s r] }

/-- The state in which a request holds the lease, before its thread goes on. -/
def leaseGranted (s : State) (T : Nat) (r : LeaseReq) : State :=
  modMx { s with nextId := s.nextId + 1 } T fun m => settle (leasedMatrix s r m)

theorem leaseGranted_mx (s : State) (T : Nat) (r : LeaseReq) :
    ((leaseGranted s T r).tile T).mx = settle (leasedMatrix s r (s.tile T).mx) := modMx_mx _ T _

theorem grantLease_eq (s : State) (T : Nat) (r : LeaseReq) :
    grantLease s T r = if r.waits s then resumeRetire (leaseGranted s T r) r.who.g else leaseGranted s T r := rfl

/-- A grant that is asked of Sluice when its tick has room is made and charged (R307). -/
theorem rampAsk_room (s : State) (w : RampWait) (hw : (s.die (dieOf w.tile)).waiting = []) (hdue : pinnedDue s = false)
    (hfits : ((s.die (dieOf w.tile)).inTick (sluiceNow s)).fits (s.param 0) (rampCost s w) = true) :
    rampAsk s w =
      (s.modDie (dieOf w.tile) fun x => (x.inTick (sluiceNow s)).charge (s.param 0) (rampCost s w), true) := by
  rw [rampAsk]
  refine if_pos ⟨?_, ?_, hfits⟩
  · rw [hw]
    rfl
  · rw [hdue]
    rfl

/-- A request is granted at once when its launch is pinned, and else when its tick has room. -/
theorem leaseGrant_grants {s : State} {T : Nat} {r : LeaseReq} (hT : T < Config.tiles) (hopen : tileClosed s T = false)
    (hl : (s.tile T).mx.lease = none)
    (hn : leaseNext (s.tile T).mx (fun x => launchPinned s x.who.launch || !leaseGated s T) = some r)
    (hg : launchPinned s r.who.launch = true ∨ (s.die (dieOf T)).waiting = [] ∧ pinnedDue s = false ∧
      ((s.die (dieOf T)).inTick (sluiceNow s)).fits (s.param 0) (s.param 3) = true) :
    ∃ x, exec (.leaseGrant T) s = .next (grantLease { s with dies := x } T r) := by
  have hexec : exec (.leaseGrant T) s = if launchPinned s r.who.launch then .next (grantLease s T r) else
      .next (if (rampAsk s { place := none, tile := T, since := sluiceNow s }).2 then
        grantLease (rampAsk s { place := none, tile := T, since := sluiceNow s }).1 T r
      else (rampAsk s { place := none, tile := T, since := sluiceNow s }).1) := by
    show execLeaseGrant T s = _
    rw [execLeaseGrant, if_pos hT]
    dsimp only
    rw [hl, hn]
    exact if_neg (ne_true_of_eq_false hopen)
  rw [hexec]
  by_cases hp : launchPinned s r.who.launch = true
  · rw [if_pos hp]
    exact ⟨s.dies, rfl⟩
  · obtain hp' | ⟨hw, hdue, hfits⟩ := hg
    · exact absurd hp' hp
    · rw [if_neg hp, rampAsk_room _ { place := none, tile := T, since := sluiceNow s } hw hdue hfits]
      exact ⟨_, rfl⟩

theorem leaseGrants : LeaseGrants := by
  intro s T r hT hopen m d mark hl hn hg
  obtain ⟨x, hexec⟩ := leaseGrant_grants hT hopen hl hn hg
  refine ⟨leaseGranted { s with dies := x } T r, hexec.trans (congrArg _ (grantLease_eq { s with dies := x } T r)), rfl, rfl, ?_⟩
  intro y
  rw [show y = _ from leaseGranted_mx { s with dies := x } T r]
  refine ⟨settle_requests _, settle_last _, settle_c _, settle_b _, settle_lease _, fun hi => ?_, fun c l hi hc => ?_⟩
  · exact settle_grant _ mark rfl (congrArg (· ++ [mark]) hi)
  · refine settle_issued _ ?_
    show Option.any _ (m.issued ++ [mark]).head? = false
    rw [hi]
    exact hc

/-! ### Acceptance (R250 to R255) -/

/-- Every answer of a computation that may stop has a property. -/
def Yields {α : Type} (p : α → Prop) (x : Except Stop α) : Prop := ∀ a, x = .ok a → p a

namespace Yields

theorem pure {α : Type} {p : α → Prop} {a : α} (h : p a) : Yields p (Pure.pure a) := by
  rintro b ⟨⟩
  exact h

theorem throw {α : Type} {p : α → Prop} (e : Stop) : Yields p (.error e) := by
  rintro b ⟨⟩

theorem bind {α β : Type} {p : β → Prop} {x : Except Stop α} {f : α → Except Stop β} (h : ∀ a, x = .ok a → Yields p (f a)) :
    Yields p (x >>= f) := by
  cases x with
  | error e => exact throw e
  | ok a => exact h a rfl

theorem ite {α : Type} {p : α → Prop} {c : Prop} [Decidable c] {x y : Except Stop α} (hx : Yields p x) (hy : Yields p y) :
    Yields p (if c then x else y) := by
  split
  · exact hx
  · exact hy

end Yields

/-- The accepted command is the one that was issued, and the queue of the array is as it was. -/
theorem matrixAccept_keeps (s : State) (c : MCmd) :
    Yields (fun x => x.cmd.n = c.n ∧ x.cmd.who = c.who ∧ x.cmd.grant = c.grant ∧ x.mx.queue = (s.tile (tileOf c.who.g)).mx.queue) (matrixAccept s c) := by
  unfold matrixAccept
  dsimp only
  split
  · exact .pure ⟨rfl, rfl, rfl, rfl⟩
  · exact .pure ⟨rfl, rfl, rfl, rfl⟩
  · split
    · exact .bind fun _ _ => .bind fun _ _ => .pure ⟨rfl, rfl, rfl, rfl⟩
    · exact .bind fun _ _ => .bind fun _ _ => .ite (.bind fun _ _ => .ite (.bind fun _ _ => .pure ⟨rfl, rfl, rfl, rfl⟩) (.pure ⟨rfl, rfl, rfl, rfl⟩))
        (.ite (.bind fun _ _ => .pure ⟨rfl, rfl, rfl, rfl⟩) (.pure ⟨rfl, rfl, rfl, rfl⟩))
    · exact .bind fun _ _ => .bind fun _ _ => .ite (.bind fun _ _ => .ite (.bind fun _ _ => .pure ⟨rfl, rfl, rfl, rfl⟩) (.pure ⟨rfl, rfl, rfl, rfl⟩))
        (.ite (.bind fun _ _ => .pure ⟨rfl, rfl, rfl, rfl⟩) (.pure ⟨rfl, rfl, rfl, rfl⟩))
    · exact .bind fun _ _ => .bind fun _ _ => .pure ⟨rfl, rfl, rfl, rfl⟩
  · exact .pure ⟨rfl, rfl, rfl, rfl⟩

/-- The units of an A operand are whole. -/
theorem stepUnits (f : BitVec 5) (q : MStep) :
    64 * ((16 * q.depth * (storedElem f (stepElem q.x)).bits / 8 + 63) / 64) = 16 * q.depth * (storedElem f (stepElem q.x)).bits / 8 := by
  obtain ⟨d, hd⟩ : 16 ∣ q.depth := by
    have h : ∀ (x : BitVec 3) (b c : Bool), 16 ∣ (MStep.mk x b c).depth := by decide
    exact h q.x q.ds8 q.scaled
  obtain ⟨b, hb⟩ : 2 ∣ (storedElem f (stepElem q.x)).bits := by
    have h : ∀ (f : BitVec 5) (x : BitVec 3), 2 ∣ (storedElem f (stepElem x)).bits := by decide
    exact h f q.x
  rw [hd, hb, show 16 * (16 * d) * (2 * b) = 8 * (64 * (d * b)) by ring]
  omega

/-- A step that passes its checks has the accumulator's type, or there is none. -/
theorem stepCheck_acc (m : Matrix) (q : MStep) (k : MScale) : Yields (fun _ => m.accA = 0 ∨ m.accA = q.acc) (stepCheck m q k) := by
  refine .ite (.throw _) (.ite (.throw _) ?_)
  by_cases h : m.accA ≠ 0 ∧ m.accA ≠ q.acc
  · rw [if_pos h]
    exact .throw _
  · exact fun _ _ => by tauto

/-- The instructions that are steps. -/
theorem stepOf_some {i : Instr} {q : MStep} (h : stepOf i = some q) :
    (∃ st m, i = .mmaM st q.x q.ds8 m) ∨ (∃ st m, i = .mmaN st q.x q.ds8 m) ∨ ∃ st a m, i = .mmas st q.x q.ds8 a m := by
  unfold stepOf at h
  split at h
  · cases h
    exact .inl ⟨_, _, rfl⟩
  · cases h
    exact .inr (.inl ⟨_, _, rfl⟩)
  · cases h
    exact .inr (.inr ⟨_, _, _, rfl⟩)
  · cases h

/-- What a step sets and reads at its acceptance. -/
theorem matrixAccept_step (s : State) (c : MCmd) {q : MStep} (hq : stepOf c.ins = some q) :
    Yields (fun x => x.mx = { (s.tile (tileOf c.who.g)).mx with accA := q.acc } ∧ x.cmd.acc = q.acc ∧
      ((s.tile (tileOf c.who.g)).mx.accA = 0 ∨ (s.tile (tileOf c.who.g)).mx.accA = q.acc) ∧
      64 * x.reads.2 = 16 * q.depth * (storedElem x.cmd.fmt (stepElem q.x)).bits / 8) (matrixAccept s c) := by
  unfold matrixAccept
  dsimp only
  split
  next h => simp [h, stepOf] at hq
  next h => simp [h, stepOf] at hq
  next =>
    split
    next hq' =>
      obtain rfl : _ = q := Option.some.inj (hq'.symm.trans hq)
      exact .bind fun _ _ => .bind fun _ hc => .pure ⟨rfl, rfl, stepCheck_acc _ _ _ _ hc, stepUnits _ _⟩
    next hn _ => exact absurd (hn.symm.trans hq) (by simp)
    next hn _ => exact absurd (hn.symm.trans hq) (by simp)
    next hn _ _ => exact absurd (hn.symm.trans hq) (by simp)
  next hn _ _ =>
    obtain ⟨st, m, h⟩ | ⟨st, m, h⟩ | ⟨st, a, m, h⟩ := stepOf_some hq
    all_goals
      rw [h] at hn
      cases hn

/-- What a load of B sets and reads at its acceptance. -/
theorem matrixAccept_load (s : State) (c : MCmd) {m : MemArg} (hi : (∃ st o, c.ins = .mldbM st o ∧ m = memArg o) ∨ ∃ st o, c.ins = .mldbN st o ∧ m = memArg o) :
    let w := ((s.thread c.who.g).segs[m.seg.toNat].base + (c.oval + m.disp)).toNat % 2 ^ 21
    Yields (fun x => x.mx = { (s.tile (tileOf c.who.g)).mx with btagA := bankFmt s (tileOf c.who.g) (w / 65536) } ∧
      x.reads = (w, 64) ∧ x.cmd.off = w) (matrixAccept s c) := by
  obtain ⟨st, o, hi, rfl⟩ | ⟨st, o, hi, rfl⟩ := hi
  all_goals
    unfold matrixAccept
    dsimp only
    rw [hi]
    exact .bind fun _ _ => .bind fun _ _ => .pure ⟨rfl, rfl, rfl⟩

theorem matrixAcceptEffects : MatrixAcceptEffects := by
  intro s c x h m loads
  refine ⟨fun st hi => ?_, fun st a hi => ?_, fun st o hi => ?_, fun st o hi => ?_, fun q hq => matrixAccept_step s c hq x h⟩
  · unfold matrixAccept at h
    dsimp only at h
    rw [hi] at h
    obtain rfl := Except.ok.inj h
    exact ⟨rfl, rfl⟩
  · unfold matrixAccept at h
    dsimp only at h
    rw [hi] at h
    obtain rfl := Except.ok.inj h
    exact ⟨rfl, rfl⟩
  · exact matrixAccept_load s c (.inl ⟨st, o, hi, rfl⟩) x h
  · exact matrixAccept_load s c (.inr ⟨st, o, hi, rfl⟩) x h

/-- The reads of a command go to their bank, unit by unit. -/
theorem matrixReads_sends (s : State) (c : MCmd) (w n : Nat) :
    ∃ l, matrixReads s c w n = { s with traffic := s.traffic ++ l, nextId := s.nextId + n } ∧ (∀ r ∈ l, r.by_ = .matrix c.n) ∧
      l.map (·.key) = (List.range n).map fun k => tileKey (tileOf c.who.g) (w + 64 * k) := by
  induction n with
  | zero => exact ⟨[], by rw [matrixReads, List.append_nil]; rfl, by simp, rfl⟩
  | succ n ih =>
    obtain ⟨l, h, hby, hkey⟩ := ih
    rw [matrixReads, h, send]
    refine ⟨_, by rw [List.append_assoc]; rfl, ?_, ?_⟩
    · intro r hr
      obtain hr | hr := List.mem_append.mp hr
      · exact hby r hr
      · rw [List.mem_singleton.mp hr]
    · rw [List.map_append, hkey, List.range_succ, List.map_append]
      rfl

/-- A data error changes no thread's state and number. -/
theorem dataErrors_kept (s : State) (w : Who) (k j : Nat) : ∃ d, (dataErrors s w k).thread j = { s.thread j with data := d } := by
  by_cases h : j = w.g
  · rw [h]
    exact dataErrors_thread s w k
  · exact ⟨_, dataErrors_other s w k h⟩

/-- A thread that waits for the acceptance of its command does so in every state with its slot as it is. -/
theorem MCmd.waits_congr {s u : State} {c : MCmd} (hs : (u.thread c.who.g).status = (s.thread c.who.g).status)
    (hn : (u.thread c.who.g).serial = (s.thread c.who.g).serial) : c.waits u = c.waits s := by
  simp only [MCmd.waits, Who.live, Machine.live, hs, hn]

/-- The state in which a command stands in the queue of its array. -/
def commandQueued (s : State) (T : Nat) (l : List MCmd) (x : MAccept) : State :=
  modMx { s with nextId := s.nextId + 1 } T fun _ =>
    settle { x.mx with issued := l, queue := x.mx.queue ++ [{ x.cmd with seq := s.nextId }] }

theorem commandQueued_mx (s : State) (T : Nat) (l : List MCmd) (x : MAccept) : ((commandQueued s T l x).tile T).mx =
    settle { x.mx with issued := l, queue := x.mx.queue ++ [{ x.cmd with seq := s.nextId }] } := modMx_mx _ T _

/-- The state in which a command is accepted, before its thread goes on. -/
def commandAccepted (s : State) (T : Nat) (c : MCmd) (l : List MCmd) (x : MAccept) : State :=
  freeFields (matrixReads (dataErrors (commandQueued s T l x) c.who x.bad) { x.cmd with seq := s.nextId } x.reads.1 x.reads.2)
    c.who.g (commandSources c)

/-- What the acceptance of a command leaves. -/
theorem commandAccepted_leaves (s : State) (T : Nat) (c : MCmd) (l : List MCmd) (x : MAccept) (hn : x.cmd.n = c.n)
    (hw : x.cmd.who = c.who) :
    let v := commandAccepted s T c l x
    c.waits v = c.waits s ∧ v.mem = s.mem ∧ v.nextId = s.nextId + 1 + x.reads.2 ∧
      (v.tile T).mx = settle { x.mx with issued := l, queue := x.mx.queue ++ [{ x.cmd with seq := s.nextId }] } ∧
      (commandReqs v c).map (·.key) = (commandReqs s c).map (·.key) ++
        (List.range x.reads.2).map fun n => tileKey (tileOf c.who.g) (x.reads.1 + 64 * n) := by
  intro v
  obtain ⟨y, hy⟩ := freeFields_cases c.who.g (commandSources c) (matrixReads (dataErrors (commandQueued s T l x) c.who x.bad)
    { x.cmd with seq := s.nextId } x.reads.1 x.reads.2)
  obtain ⟨q, hq, hby, hkey⟩ := matrixReads_sends (dataErrors (commandQueued s T l x) c.who x.bad) { x.cmd with seq := s.nextId }
    x.reads.1 x.reads.2
  obtain ⟨d, hd⟩ := dataErrors_kept (commandQueued s T l x) c.who x.bad c.who.g
  obtain ⟨t, o, e, he⟩ := dataErrors_cases (commandQueued s T l x) c.who x.bad
  have hthread : v.thread c.who.g = (dataErrors (commandQueued s T l x) c.who x.bad).thread c.who.g := by
    rw [show v = _ from hy, hq]
    rfl
  have hv : v = { commandQueued s T l x with
      threads := t, owners := o, launches := e, traffic := s.traffic ++ q, nextId := s.nextId + 1 + x.reads.2, cores := y } := by
    rw [show v = _ from hy, hq, he]
    rfl
  refine ⟨MCmd.waits_congr ?_ ?_, ?_, ?_, ?_, ?_⟩
  · rw [hthread, hd]
    rfl
  · rw [hthread, hd]
    rfl
  · rw [hv]
    rfl
  · rw [hv]
  · rw [hv]
    exact commandQueued_mx s T l x
  · rw [hv, commandReqs, commandReqs, List.filter_append, List.map_append]
    have hall : q.filter (fun r => r.by_ == .matrix c.n) = q := by
      refine List.filter_eq_self.mpr fun r hr => ?_
      rw [hby r hr, ← hn]
      exact beq_self_eq_true _
    rw [hall, hkey]
    simp only [hw]

section
variable {s : State} {T : Nat} {c : MCmd} {l : List MCmd}

/-- The array turns to the first issued command when it is open, has room, and the scales can be read. -/
theorem acceptance_turns (hopen : tileClosed s T = false) (hm : (s.tile T).mx.queued < 16) (hw : scalesWait s T c = false) :
    ¬ (tileClosed s T = true ∨ 16 ≤ (s.tile T).mx.queued ∨ scalesWait s T c = true) := by
  rw [hopen, hw]
  simp [hm]

theorem acceptance_ok {x : MAccept} (hT : T < Config.tiles) (hi : (s.tile T).mx.issued = c :: l)
    (hturn : ¬ (tileClosed s T = true ∨ 16 ≤ (s.tile T).mx.queued ∨ scalesWait s T c = true))
    (h : matrixAccept (serveBanks s (c.scaleBank s).toList) c = .ok x) :
    let v := commandAccepted (serveBanks s (c.scaleBank s).toList) T c l x
    exec (.matrixCommandAcceptance T) s = .next (if c.waits v then resumeRetire v c.who.g else v) := by
  show execMatrixCommandAcceptance T s = _
  rw [execMatrixCommandAcceptance, if_pos hT]
  dsimp only
  rw [hi]
  dsimp only
  rw [if_neg hturn, h]
  rfl

theorem acceptance_stops {e : Stop} (hT : T < Config.tiles) (hi : (s.tile T).mx.issued = c :: l)
    (hturn : ¬ (tileClosed s T = true ∨ 16 ≤ (s.tile T).mx.queued ∨ scalesWait s T c = true))
    (h : matrixAccept (serveBanks s (c.scaleBank s).toList) c = .error e) :
    let v := modMx (serveBanks s (c.scaleBank s).toList) T fun m => settle { returnOne m c with issued := l }
    exec (.matrixCommandAcceptance T) s = .next (if c.waits s then
        applyStop (putBackAll (v.modThread c.who.g fun t => { t with status := .ready }) c.who.g (commandSources c)) c.who.g
          (s.core (coreOf c.who.g)).clock false e
      else freeFields v c.who.g (commandSources c)) := by
  show execMatrixCommandAcceptance T s = _
  rw [execMatrixCommandAcceptance, if_pos hT]
  dsimp only
  rw [hi]
  dsimp only
  rw [if_neg hturn, h]
  exact (apply_ite Host.Outcome.next (c.waits s = true) _ _).symm

end

theorem matrixAccepts : MatrixAccepts := by
  intro s T c l hT hopen m g s₁ hi hc hg hm hw
  have hturn := acceptance_turns hopen hm hw
  refine ⟨fun x h => ?_, fun e h => acceptance_stops hT hi hturn h⟩
  obtain ⟨hn, hwho, hgrant, hqueue⟩ := matrixAccept_keeps s₁ c x h
  obtain ⟨hwaits, hmem, hid, hmx, hreqs⟩ := commandAccepted_leaves s₁ T c l x hn hwho
  have hexec := acceptance_ok hT hi hturn h
  have hq : x.mx.queue = m.queue := hqueue.trans (congrArg (fun k => (s.tile k).mx.queue) hg)
  rw [hq] at hmx
  intro k
  refine ⟨_, hexec.trans ?_, hmem, hid, hmx, fun hl hqh => ?_, hreqs.trans ?_⟩
  · rw [hwaits]
    rfl
  · rw [hmx, settle_commands]
    · exact ⟨rfl, rfl⟩
    · exact hl
    · cases hqueue : m.queue with
      | nil => exact hgrant.trans hc
      | cons d r =>
        rw [hqueue] at hqh
        exact hqh
  · rw [hg]
    rfl

/-! ### Execution (R251, R258 to R262) -/

/-- The state without the reads of a command, in which it has its effect. -/
def withoutReads (s : State) (c : MCmd) : State := { s with traffic := s.traffic.filter fun r => r.by_ != .matrix c.n }

/-- The requests of other makers stay when those of a command leave. -/
theorem filter_withoutReads (s : State) (c : MCmd) :
    (withoutReads s c).traffic.filter (fun r => r.by_ != .matrix c.n) = s.traffic.filter fun r => r.by_ != .matrix c.n := by
  rw [withoutReads, List.filter_filter]
  simp only [Bool.and_self]

/-- The writes of a drain stand somewhere among the requests. -/
theorem mem_insertBefore (T : Nat) {ws l : List Req} {r : Req} (h : r ∈ ws) : r ∈ insertBefore T ws l := by
  induction l with
  | nil => exact h
  | cons a l ih =>
    rw [insertBefore]
    split
    · exact List.mem_append_left _ h
    · exact List.mem_cons_of_mem _ ih

theorem filter_insertBefore (T : Nat) {ws l : List Req} {p : Req → Bool} (h : ∀ r ∈ ws, p r = false) :
    (insertBefore T ws l).filter p = l.filter p := by
  have hws : ws.filter p = [] := List.filter_eq_nil_iff.mpr fun r hr => ne_true_of_eq_false (h r hr)
  induction l with
  | nil => exact hws
  | cons a l ih =>
    rw [insertBefore]
    split
    · rw [List.filter_append, hws, List.nil_append]
    · rw [List.filter_cons, List.filter_cons, ih]

theorem drainReqs_by (s : State) (c : MCmd) (n w : Nat) (bs : List Byte) : ∀ r ∈ drainReqs s c n w bs, r.by_ = .matrix c.n := by
  induction n generalizing w bs with
  | zero => exact fun r hr => absurd hr List.not_mem_nil
  | succ n ih =>
    intro r hr
    obtain rfl | hr := List.mem_cons.mp hr
    · rfl
    · exact ih _ _ r hr

/-- A drain sends a store for each of its units, with the unit's bytes. -/
theorem drainReqs_unit (s : State) (c : MCmd) (n w : Nat) (bs : List Byte) {k : Nat} (hk : k < n) :
    ∃ r ∈ drainReqs s c n w bs, r.by_ = .matrix c.n ∧ r.tile = c.core / 4 ∧ r.size = 64 ∧
      r.key = tileKey (c.core / 4) (w + 64 * k) ∧
      r.acc = storeAcc 64 (BitVec.ofNat 512 (natOfBytes ((bs.drop (64 * k)).take 64))) := by
  induction n generalizing w bs k with
  | zero => exact absurd hk (Nat.not_lt_zero k)
  | succ n ih =>
    cases k with
    | zero => exact ⟨_, List.mem_cons_self, rfl, rfl, rfl, rfl, rfl⟩
    | succ k =>
      obtain ⟨r, hr, hby, htile, hsize, hkey, hacc⟩ := ih (w + 64) (bs.drop 64) (Nat.lt_of_succ_lt_succ hk)
      refine ⟨r, List.mem_cons_of_mem _ hr, hby, htile, hsize, ?_, ?_⟩
      · rw [hkey]
        congr 1
        ring
      · rw [hacc, List.drop_drop, show 64 * (k + 1) = 64 + 64 * k by ring]

section
variable {s : State} {T : Nat} {c : MCmd} {l : List MCmd}

/-- The first command of the queue has its effect and leaves. -/
theorem execution_executes (hT : T < Config.tiles) (hopen : tileClosed s T = false) (hq : (s.tile T).mx.queue = c :: l)
    (hr : (commandReqs s c).any (·.stage != .performed) = false) :
    exec (.matrixCommandExecution T) s =
      .next (modMx (matrixEffect (withoutReads s c) T c (commandReqs s c)) T fun m => settle { m with queue := l }) := by
  show execMatrixCommandExecution T s = _
  rw [execMatrixCommandExecution, if_pos hT]
  dsimp only
  rw [hq]
  dsimp only
  rw [if_neg (by rw [hopen, hr]; simp)]
  rfl

/-- A command whose effect is on the array alone leaves everything else. -/
theorem executed_sets {f : Matrix → Matrix} {reads : List Req} (hexec : exec (.matrixCommandExecution T) s =
      .next (modMx (matrixEffect (withoutReads s c) T c reads) T fun m => settle { m with queue := l }))
    (he : matrixEffect (withoutReads s c) T c reads = modMx (withoutReads s c) T f) :
    let u := modMx (modMx (withoutReads s c) T f) T fun m => settle { m with queue := l }
    exec (.matrixCommandExecution T) s = .next u ∧ u.mem = s.mem ∧ u.threads = s.threads ∧
      (u.tile T).mx = settle { f (s.tile T).mx with queue := l } ∧
      u.traffic.filter (fun r => r.by_ != .matrix c.n) = s.traffic.filter fun r => r.by_ != .matrix c.n := by
  refine ⟨by rw [hexec, he], rfl, rfl, ?_, filter_withoutReads s c⟩
  rw [modMx_mx, modMx_mx]
  rfl

end

/-- An element of C after a step. -/
theorem stepExec_cell (m : Matrix) (c : MCmd) (q : MStep) (a : List Byte) {i n : Nat} (hi : i < 16) (hn : n < 16) :
    (stepExec m c q a).cell (16 * i + n) = stepCell q.acc ((List.range q.depth).map (stepA c q a i))
      ((List.range q.depth).map fun k => stepB m c q k n) (m.cell (16 * i + n)) := by
  rw [stepExec, Matrix.cell]
  dsimp only
  have h : 16 * i + n < 256 := by omega
  have hrow : (16 * i + n) / 16 = i := by omega
  have hcol : (16 * i + n) % 16 = n := by omega
  rw [List.getD_eq_getElem?_getD, List.getElem?_map, List.getElem?_range h, Option.map_some, Option.getD_some, hrow, hcol]
  simp only [List.getD_eq_getElem?_getD, List.getElem?_map, List.getElem?_range hi, List.getElem?_range hn, Option.map_some, Option.getD_some]
  rfl

/-- The effect of a step. -/
theorem matrixEffect_step (s : State) (T : Nat) {c : MCmd} (reads : List Req) {q : MStep} (hq : stepOf c.ins = some q) :
    matrixEffect s T c reads = modMx s T fun m => stepExec m c q (unitsRead reads T c.off reads.length) := by
  obtain ⟨st, m, h⟩ | ⟨st, m, h⟩ | ⟨st, a, m, h⟩ := stepOf_some hq
  all_goals
    rw [h] at hq
    rw [matrixEffect, h]
    dsimp only
    rw [hq]

/-- A drain. -/
def Drains (c : MCmd) (bias : Bool) : Prop := (∃ st o, c.ins = .mdrainM st bias o) ∨ ∃ st o, c.ins = .mdrainN st bias o

/-- The bytes that a drain writes: those that it drains to. -/
def drainedBytes (T : Nat) (m : Matrix) (c : MCmd) (bias : Bool) (reads : List Req) : List Byte :=
  drainBytes m c (if bias then some (unitsRead reads T (c.off + 256 * (storedElem c.fmt (accElem c.acc)).bits / 8) 2) else none)

/-- The bytes of a drain are its 256 elements, each with its bias. -/
theorem drainedBytes_eq (T : Nat) (m : Matrix) (c : MCmd) (bias : Bool) (reads : List Req) :
    let f := storedElem c.fmt (accElem c.acc)
    let e := f.bits
    let n := 256 * e / 8
    let b := fun (k : Nat) => if bias then
        some (f.decode false (natOfBytes (unitsRead reads T (c.off + n) 2) / 2 ^ (e * (k % 16)) % 2 ^ e))
      else none
    drainedBytes T m c bias reads =
      bytesOfNat n ((List.range 256).foldr (fun k acc => drainCell m c f (b k) k + 2 ^ e * acc) 0) := by
  rw [drainedBytes, drainBytes]
  cases bias <;> rfl

/-- The effect of a drain. -/
theorem matrixEffect_drain (s : State) (T : Nat) {c : MCmd} {bias : Bool} (reads : List Req) (h : Drains c bias) :
    let n := 256 * (storedElem c.fmt (accElem c.acc)).bits / 8 / 64
    matrixEffect s T c reads = { s with
      traffic := insertBefore T (drainReqs s c n c.off (drainedBytes T (s.tile T).mx c bias reads)) s.traffic
      nextId := s.nextId + n } := by
  obtain ⟨st, o, h⟩ | ⟨st, o, h⟩ := h
  all_goals
    rw [matrixEffect, h]
    rfl

/-- A drain leaves the array and sends its units. -/
theorem executed_drains {s : State} {T : Nat} {c : MCmd} {l : List MCmd} {bias : Bool} {reads : List Req}
    (hexec : exec (.matrixCommandExecution T) s =
      .next (modMx (matrixEffect (withoutReads s c) T c reads) T fun m => settle { m with queue := l }))
    (hcore : c.core / 4 = T) (h : Drains c bias) :
    ∃ u, (exec (.matrixCommandExecution T) s = .next u ∧ u.mem = s.mem ∧ u.threads = s.threads ∧
      (u.tile T).mx = settle { (s.tile T).mx with queue := l } ∧
      u.traffic.filter (fun r => r.by_ != .matrix c.n) = s.traffic.filter fun r => r.by_ != .matrix c.n) ∧
      ∀ k, k < 256 * (storedElem c.fmt (accElem c.acc)).bits / 8 / 64 → ∃ r ∈ u.traffic, r.by_ = .matrix c.n ∧ r.tile = T ∧
        r.size = 64 ∧ r.key = tileKey T (c.off + 64 * k) ∧
        r.acc = storeAcc 64 (BitVec.ofNat 512 (natOfBytes (((drainedBytes T (s.tile T).mx c bias reads).drop (64 * k)).take 64))) := by
  rw [matrixEffect_drain _ T reads h] at hexec
  refine ⟨_, ⟨hexec, rfl, rfl, modMx_mx _ T _, ?_⟩, fun k hk => ?_⟩
  · refine (filter_insertBefore T fun r hr => ?_).trans (filter_withoutReads s c)
    rw [drainReqs_by _ _ _ _ _ r hr]
    exact bne_self_eq_false _
  · obtain ⟨r, hr, hby, htile, hsize, hkey, hacc⟩ := drainReqs_unit (withoutReads s c) c _ c.off
      (drainedBytes T (s.tile T).mx c bias reads) hk
    rw [hcore] at htile hkey
    exact ⟨r, mem_insertBefore T hr, hby, htile, hsize, hkey, hacc⟩

theorem matrixExecutes : MatrixExecutes := by
  intro s T c l hT hopen hcore m reads hq hr leaves drains loads
  have hexec := execution_executes hT hopen hq hr
  have hsets := fun {f} => executed_sets (f := f) hexec
  refine ⟨fun st hi => ?_, fun st a hi => ?_, fun st o hi => ?_, fun st o hi => ?_, fun q hq' => ?_, fun st b o hi => ?_, fun st b o hi => ?_⟩
  · exact ⟨_, hsets (by rw [matrixEffect, hi])⟩
  · exact ⟨_, hsets (by rw [matrixEffect, hi])⟩
  · exact ⟨_, hsets (by rw [matrixEffect, hi])⟩
  · exact ⟨_, hsets (by rw [matrixEffect, hi])⟩
  · refine ⟨_, (stepExec m c q (unitsRead reads T c.off reads.length)).c, hsets (matrixEffect_step _ T reads hq'), fun i n hi hn => ?_⟩
    rw [modMx_mx, modMx_mx, Matrix.cell, settle_c]
    exact stepExec_cell m c q _ hi hn
  · obtain ⟨u, hu, hunits⟩ := executed_drains hexec hcore (.inl ⟨st, o, hi⟩)
    rw [drainedBytes_eq] at hunits
    exact ⟨u, hu, hunits⟩
  · obtain ⟨u, hu, hunits⟩ := executed_drains hexec hcore (.inr ⟨st, o, hi⟩)
    rw [drainedBytes_eq] at hunits
    exact ⟨u, hu, hunits⟩

/-- Settles O28. -/
theorem matrixArray : Obligations.MatrixArray := ⟨leaseGrants, matrixAccepts, matrixAcceptEffects, matrixExecutes⟩

end Sys2Proof.Machine
end

section
/-! PROOFS. The values of vector operations on floating lanes, conversions and random lanes (spec/11 R203 to R210, R219 to R221,
spec/12 R231 to R234, R236, R239, R240, R243). -/

namespace Sys2Proof.Machine

open Sys2Proof.Claims

/-! ### Floating formats (R203, R207) -/

/-- A floating format of lanes has the lane's width, and what it encodes fits. -/
theorem floatFormat {f : BitVec 4} (h : fmtFloat f = true) : (laneFloat f).bits = laneBits f ∧ (laneFloat f).Fits := by
  have hc : ∀ c : BitVec 4, fmtFloat c = true → (laneFloat c).bits = laneBits c ∧
      laneFloat c ∈ [fp64, fp32, fp16, bf16, e4m3, e5m2, e2m1] := by decide
  obtain ⟨hbits, hmem⟩ := hc f h
  exact ⟨hbits, fits_formats _ hmem⟩

theorem fmtFloat_of_lt {f : BitVec 4} (h : f.toNat < 4) : fmtFloat f = true := by
  rw [fmtFloat, decide_eq_true h]
  rfl

theorem laneFloat_encode_lt {f : BitVec 4} (h : fmtFloat f = true) (m : Mode) (fl ns : Bool) (v : Val) :
    (laneFloat f).encode m fl ns v < 2 ^ laneBits f := by
  obtain ⟨hb, hf⟩ := floatFormat h
  rw [← hb]
  exact (laneFloat f).encode_lt hf m fl ns v

theorem flop_lt {f : BitVec 4} (h : fmtFloat f = true) (r : FRnd) (F : Mode → Val → Val → Val → Val) (a b c : Nat) :
    flop f r F a b c < 2 ^ laneBits f := laneFloat_encode_lt h _ _ _ _

theorem laneArith_float {f : BitVec 4} (h : fmtFloat f = true) (r : FRnd) (F : Mode → Val → Val → Val → Val)
    (g : Int → Int → Int → Int) (a b c : Nat) : laneArith f r F g a b c = flop f r F a b c := if_pos h

theorem laneExtreme_float {f : BitVec 4} (h : fmtFloat f = true) (gr fl : Bool) (a b : Nat) :
    laneExtreme f gr fl a b = flop f ⟨fl, 0⟩ (fun _ x y _ => Val.pick gr x y) a b 0 := if_pos h

theorem laneUn_float {f : BitVec 4} (h : fmtFloat f = true) (r : FRnd) (a : Nat) :
    laneUn f .abs r a = flop f r (fun _ x _ _ => x.abs) a 0 0 ∧ laneUn f .neg r a = flop f r (fun _ x _ _ => x.neg) a 0 0 :=
  ⟨if_pos h, if_pos h⟩

/-- Rounding mode 0 is to nearest, ties to even. -/
theorem mode_zero : Mode.ofCode 0 = .rne := rfl

/-- What a lanewise instruction gives where its function is a floating result rounded once. -/
theorem lanewise_flop {t : Thread} {f : BitVec 4} {k : BitVec 2} {wd wa wb wc : BitVec 3} {R : VRes} {i : Nat} {r : FRnd}
    {F : Nat → Nat → Nat → Nat} {G : Mode → Val → Val → Val → Val} (h : fmtFloat f = true)
    (hR : R = lanewise t f k wd wa wb wc F) (hi : i < 2048 / laneBits f) (hF : ∀ a b c, F a b c = flop f r G a b c) :
    ∃ v, R = .w wd v ∧ lane (laneBits f) v i = if (maskVal t k).getLsbD i then
      flop f r G (lane (laneBits f) (wVal t wa) i) (lane (laneBits f) (wVal t wb) i) (lane (laneBits f) (wVal t wc) i)
      else lane (laneBits f) (wVal t wd) i :=
  lanewise_gives F hR hi (hF _ _ _) fun a b c _ _ _ => by
    rw [hF]
    exact flop_lt h _ _ _ _ _

/-- The comparison of two floating lanes by their order (R207, R234). -/
def floatCmp (c : VCond) (o : Option Ordering) : Bool :=
  match o, c with
  | some x, .eq => x == .eq
  | some x, .ne => x != .eq
  | some x, .lt => x == .lt
  | some x, .le => x != .gt
  | some x, .gt => x == .gt
  | some x, .ge => x != .lt
  | none, .ne => true
  | none, _ => false

theorem laneCmp_float {f : BitVec 4} (h : fmtFloat f = true) (c : VCond) (fl : Bool) (a b : Nat) :
    laneCmp f c fl a b = floatCmp c (Val.cmp false ((laneFloat f).decode fl a) ((laneFloat f).decode fl b)) := by
  unfold laneCmp floatCmp
  simp only [h, if_true]
  cases Val.cmp false ((laneFloat f).decode fl a) ((laneFloat f).decode fl b) <;> cases c <;> rfl

theorem floatOps : FloatOps := by
  intro t op st f wd wa wb wc k mk r fl i h4 hi n m dec rounded near nearest gives
  have h := fmtFloat_of_lt h4
  have vfn := fun o => lanewise_gives (t := t) (k := k) (wd := wd) (wa := wa) (wb := 0) (wc := 0) (fun a _ _ => laneFn f o fl a) rfl hi rfl
    fun a _ _ _ _ _ => flop_lt h _ _ a 0 0
  refine ⟨?_, ?_, ?_, ?_, ?_, ?_, ?_, ?_, ?_, ?_, ?_, ?_, ?_, fun c => ?_⟩
  · exact lanewise_flop (wc := 0) (F := fun a b _ => laneArith f r (fun m x y _ => Val.add m x y) (fun x y _ => x + y) a b 0)
      (G := fun m x y _ => Val.add m x y) h rfl hi fun a b _ => laneArith_float h r _ _ a b 0
  · exact lanewise_flop (wc := 0) (F := fun a b _ => laneArith f r (fun m x y _ => Val.add m x y.neg) (fun x y _ => x - y) a b 0)
      (G := fun m x y _ => Val.add m x y.neg) h rfl hi fun a b _ => laneArith_float h r _ _ a b 0
  · exact lanewise_flop (wc := 0) (F := fun a b _ => laneArith f r (fun _ x y _ => Val.mul x y) (fun x y _ => x * y) a b 0)
      (G := fun _ x y _ => Val.mul x y) h rfl hi fun a b _ => laneArith_float h r _ _ a b 0
  · exact lanewise_flop (F := laneArith f r (fun m x y z => Val.add m (Val.mul x y) z) fun x y z => x * y + z)
      (G := fun m x y z => Val.add m (Val.mul x y) z) h rfl hi (laneArith_float h r _ _)
  · exact lanewise_flop (wb := 0) (wc := 0) (F := fun a _ _ => laneUn f .sqrt r a) (G := fun _ x _ _ => x.sqrt) h rfl hi fun _ _ _ => rfl
  · exact lanewise_flop (wb := 0) (wc := 0) (F := fun a _ _ => laneUn f .abs r a) (G := fun _ x _ _ => x.abs) h rfl hi
      fun a _ _ => (laneUn_float h r a).1
  · exact lanewise_flop (wb := 0) (wc := 0) (F := fun a _ _ => laneUn f .neg r a) (G := fun _ x _ _ => x.neg) h rfl hi
      fun a _ _ => (laneUn_float h r a).2
  · exact lanewise_flop (wc := 0) (F := fun a b _ => laneExtreme f false fl a b) (G := fun _ x y _ => Val.pick false x y) h rfl hi
      fun a b _ => laneExtreme_float h false fl a b
  · exact lanewise_flop (wc := 0) (F := fun a b _ => laneExtreme f true fl a b) (G := fun _ x y _ => Val.pick true x y) h rfl hi
      fun a b _ => laneExtreme_float h true fl a b
  · exact vfn .rcp
  · exact vfn .rsqrt
  · exact vfn .exp2
  · exact vfn .log2
  · obtain ⟨-, hin⟩ := vcmp_bits t f c fl k wa wb
    refine ⟨_, rfl, (hin i hi).trans (congrArg _ ((laneCmp_float h c fl _ _).trans ?_))⟩
    unfold floatCmp
    cases Val.cmp false (near wa) (near wb) <;> cases c <;> rfl

/-! ### Conversions (R208 to R210, R233) -/

/-- Bits of a lane fill the register. -/
theorem lanes_le (f : BitVec 4) : 2048 / laneBits f ≤ 256 := by
  rcases laneBits_cases f with h | h | h | h <;> simp [h]

/-- The new value of a lane of a conversion. -/
def vcvtNew (dst src : BitVec 4) (p : Nat) (r : VRnd) (x : List Nat) (q : Nat × Nat) : Nat :=
  let conv (v : Nat) : Nat := (laneElem dst).encode (Mode.ofCode r.rnd) r.flush r.nsat ((laneElem src).decode r.flush v)
  if lanes dst ≤ lanes src then conv (x.getD (p * lanes dst + q.2) 0)
  else if p * lanes src ≤ q.2 ∧ q.2 < (p + 1) * lanes src then conv (x.getD (q.2 - p * lanes src) 0)
  else q.1

/-- A lane of a conversion: new where the mask is active, and old elsewhere. -/
theorem vcvtLanes_lane (t : Thread) (dst src : BitVec 4) (p : Nat) (wd wa : BitVec 3) (k : BitVec 2) (r : VRnd) {i : Nat}
    (hi : i < lanes dst) :
    ∃ v, vcvtLanes t dst src p wd wa k r = .w wd v ∧ lane (laneBits dst) v i = if (maskVal t k).getLsbD i then
      vcvtNew dst src p r (lanesOf (laneBits src) (wVal t wa)) (lane (laneBits dst) (wVal t wd) i, i)
      else lane (laneBits dst) (wVal t wd) i := by
  refine ⟨_, rfl, ?_⟩
  refine (packBlend_lane (laneBits dst) _ _ ((lanesOf (laneBits dst) (wVal t wd)).zipIdx.map
    (vcvtNew dst src p r (lanesOf (laneBits src) (wVal t wa)))) (by simp) (fun x hx => ?_) i hi).trans ?_
  · obtain ⟨q, hq, rfl⟩ := List.mem_map.mp hx
    have hold : q.1 < 2 ^ laneBits dst := lanesOf_lt (List.fst_mem_of_mem_zipIdx hq)
    unfold vcvtNew
    dsimp only
    split_ifs
    · exact laneElem_encode_lt _ _ _ _ _
    · exact laneElem_encode_lt _ _ _ _ _
    · exact hold
  · have hi' : i < 2048 / laneBits dst := hi
    have hnew : ((lanesOf (laneBits dst) (wVal t wd)).zipIdx.map
        (vcvtNew dst src p r (lanesOf (laneBits src) (wVal t wa)))).getD i 0 =
        vcvtNew dst src p r (lanesOf (laneBits src) (wVal t wa)) (lane (laneBits dst) (wVal t wd) i, i) := by
      simp [List.getD_eq_getElem?_getD, lanesOf, hi', lane]
    rw [hnew]
    rfl

theorem conversions : Conversions := by
  intro t op st dst src p wd wa k r i hi old conv
  obtain ⟨v, hv, hlane⟩ := vcvtLanes_lane t dst src p.toNat wd wa k r hi
  refine ⟨v, hv, ?_⟩
  rw [hlane]
  by_cases hm : (maskVal t k).getLsbD i = true
  · rw [if_pos hm, if_neg (by simp [hm]), vcvtNew]
    dsimp only
    by_cases hle : lanes dst ≤ lanes src
    · rw [if_pos hle, if_pos hle]
      split
      · next h => rw [lanesOf_getD _ _ _ 0 h]; rfl
      · rfl
    · rw [if_neg hle, if_neg hle]
      split
      · next h =>
        obtain ⟨h, h'⟩ := h
        have hlt : i - p.toNat * lanes src < lanes src := by
          rw [Nat.add_mul, Nat.one_mul] at h'
          omega
        rw [lanesOf_getD _ _ _ 0 hlt]
        rfl
      · rfl
  · rw [if_neg hm, if_pos (Bool.eq_false_of_not_eq_true hm)]

/-! ### Random lanes (R221, R243) -/

/-- A slice of a word of a packed register. -/
theorem slice_word {X n o q : Nat} (ho : o + n ≤ 64) : X / 2 ^ (64 * q + o) % 2 ^ n = X / 2 ^ (64 * q) % 2 ^ 64 / 2 ^ o % 2 ^ n := by
  refine Nat.eq_of_testBit_eq fun j => ?_
  simp only [Nat.testBit_mod_two_pow, Nat.testBit_div_two_pow]
  by_cases hj : j < n
  · rw [show j + (64 * q + o) = j + o + 64 * q by omega]
    simp [hj, show j + o < 64 by omega]
  · simp [hj]

/-- The words of a draw fill its register. -/
theorem randBits_word (seed id a : Word) {q : Nat} (hq : q < 32) :
    (randBits seed id a).toNat / 2 ^ (64 * q) % 2 ^ 64 = (randWord seed id a q).toNat := by
  have hlen : ((List.range 32).map fun j => (randWord seed id a j).toNat).length = 32 := by simp
  have hlt : ∀ x ∈ (List.range 32).map fun j => (randWord seed id a j).toNat, x < 2 ^ 64 := by
    intro x hx
    obtain ⟨j, -, rfl⟩ := List.mem_map.mp hx
    exact BitVec.isLt _
  have h := packLanes_lane 64 _ hlt (by rw [hlen]) q (by rw [hlen]; exact hq)
  rw [List.getD_eq_getElem?_getD, List.getElem?_map, List.getElem?_range hq, Option.map_some, Option.getD_some] at h
  rw [randBits]
  exact h

/-- A lane of a draw is a slice of its word (R221). -/
theorem randBits_lane (seed id a : Word) (f : BitVec 4) {i : Nat} (hi : i < 2048 / laneBits f) :
    lane (laneBits f) (randBits seed id a) i =
      (randWord seed id a (laneBits f * i / 64)).toNat / 2 ^ (laneBits f * i % 64) % 2 ^ laneBits f := by
  have hword : laneBits f * i / 64 < 32 ∧ laneBits f * i % 64 + laneBits f ≤ 64 := by
    rcases laneBits_cases f with h | h | h | h <;> rw [h] at hi ⊢ <;> omega
  obtain ⟨hq, ho⟩ := hword
  have hsplit := slice_word (X := (randBits seed id a).toNat) (q := laneBits f * i / 64) ho
  rw [Nat.div_add_mod, randBits_word seed id a hq] at hsplit
  exact hsplit

theorem randLane_lt {f : BitVec 4} {x : Nat} (h : x < 2 ^ laneBits f) : randLane f x < 2 ^ laneBits f := by
  rw [randLane]
  split
  · next hf => exact laneFloat_encode_lt hf _ _ _ _
  · exact h

theorem randomLanes : RandomLanes := by
  intro t op st f wd g k i hi n word x p
  refine ⟨_, rfl, ?_⟩
  refine (packBlend_lane n _ _ ((lanesOf n (randBits op.seed t.ids[(0 : Nat)] op.gval)).map (randLane f)) (by simp) (fun y hy => ?_)
    i hi).trans ?_
  · obtain ⟨z, hz, rfl⟩ := List.mem_map.mp hy
    exact randLane_lt (lanesOf_lt hz)
  · have hnew : ((lanesOf n (randBits op.seed t.ids[(0 : Nat)] op.gval)).map (randLane f)).getD i 0 = randLane f x := by
      rw [List.getD_eq_getElem?_getD, List.getElem?_map, lanesOf, List.getElem?_map, List.getElem?_range hi]
      exact congrArg (randLane f) (randBits_lane op.seed t.ids[(0 : Nat)] op.gval f hi)
    rw [hnew]
    by_cases hm : (maskVal t k).getLsbD i = true
    · rw [if_pos hm, if_neg (by simp [hm]), randLane]
      split
      · next hf =>
        dsimp only
        rw [(floatFormat hf).1]
      · rfl
    · rw [if_neg hm, if_pos (Bool.eq_false_of_not_eq_true hm)]
      rfl

end Sys2Proof.Machine
end

section
/-! PROOFS. Trees over floating lanes (spec/11 R220, spec/12 R236, R239). -/

namespace Sys2Proof.Machine

open Sys2Proof.Claims

/-! ### Trees over lists of leaves -/

/-- Elements of two trees over the same leaves, each from its own place, are equal. -/
theorem treeAt_congr (node : Nat → Nat → Nat) {x y : Nat → Option Nat} (l : Nat) :
    ∀ {m p : Nat}, (∀ j, j < 2 ^ l → x (2 ^ l * m + j) = y (2 ^ l * p + j)) → treeAt node x l m = treeAt node y l p := by
  induction l with
  | zero =>
    intro m p h
    simpa [treeAt] using h 0 (by simp)
  | succ l ih =>
    intro m p h
    have hpow : 2 ^ (l + 1) = 2 ^ l + 2 ^ l := by ring
    have hleft : ∀ m j : Nat, 2 ^ (l + 1) * m + j = 2 ^ l * (2 * m) + j := fun m j => by ring
    have hright : ∀ m j : Nat, 2 ^ (l + 1) * m + (2 ^ l + j) = 2 ^ l * (2 * m + 1) + j := fun m j => by ring
    rw [treeAt_succ, treeAt_succ, ih (m := 2 * m) (p := 2 * p) fun j hj => ?_, ih (m := 2 * m + 1) (p := 2 * p + 1) fun j hj => ?_]
    · rw [← hright, ← hright]
      exact h _ (by omega)
    · rw [← hleft, ← hleft]
      exact h _ (by omega)

/-- What holds of leaves and nodes holds of a tree's elements. -/
theorem treeAt_all {P : Nat → Prop} {node : Nat → Nat → Nat} {x : Nat → Option Nat} (hx : ∀ j v, x j = some v → P v)
    (hnode : ∀ a b, P (node a b)) (l : Nat) : ∀ m v, treeAt node x l m = some v → P v := by
  induction l with
  | zero => exact hx
  | succ l ih =>
    intro m v h
    rw [treeAt_succ] at h
    cases ha : treeAt node x l (2 * m) with
    | none =>
      cases hb : treeAt node x l (2 * m + 1) with
      | none => rw [ha, hb] at h; cases h
      | some b =>
        rw [ha, hb] at h
        obtain rfl := Option.some.inj h
        exact ih _ _ hb
    | some a =>
      cases hb : treeAt node x l (2 * m + 1) with
      | none =>
        rw [ha, hb] at h
        obtain rfl := Option.some.inj h
        exact ih _ _ ha
      | some b =>
        rw [ha, hb] at h
        obtain rfl := Option.some.inj h
        exact hnode a b

/-- A reduction is the root of the tree over its leaves, each decoded and encoded again. -/
theorem redTree_treeAt (f : BitVec 4) (op : VRedOp) (r : FRnd) (l : List (Option Nat)) :
    redTree f op r l = (treeAt (redNode f op r) (fun j => (l.getD j none).map (redLeaf f op r)) 8 0).getD (redIdentity f op) := by
  have h : (fun j => (l.map (Option.map (redLeaf f op r))).getD j none) = fun j => (l.getD j none).map (redLeaf f op r) := by
    funext j
    rw [List.getD_eq_getElem?_getD, List.getD_eq_getElem?_getD, List.getElem?_map]
    cases l[j]? <;> rfl
  rw [redTree, treeRoot_eq, h]

/-- A reduction of at most 2^k leaves is the root of a tree of `k` levels. -/
theorem redTree_levels {f : BitVec 4} {op : VRedOp} {r : FRnd} {l : List (Option Nat)} {k : Nat} (hk : k ≤ 8)
    (hl : ∀ j, 2 ^ k ≤ j → l.getD j none = none) :
    redTree f op r l = (treeAt (redNode f op r) (fun j => (l.getD j none).map (redLeaf f op r)) k 0).getD (redIdentity f op) := by
  obtain ⟨d, hd⟩ := Nat.exists_eq_add_of_le hk
  rw [redTree_treeAt, hd, treeAt_add _ _ k (fun j hj => by rw [hl j hj]; rfl)]

/-- The lanes of a register are a power of two. -/
theorem lanes_pow (f : BitVec 4) : 2 ^ Nat.log2 (2048 / laneBits f) = 2048 / laneBits f ∧ Nat.log2 (2048 / laneBits f) ≤ 8 := by
  rcases laneBits_cases f with h | h | h | h <;> rw [h] <;> decide

/-- A reduction over the lanes to `u` is that of R220. -/
theorem redTree_active {f : BitVec 4} (op : VRedOp) (r : FRnd) {l : List (Option Nat)} {mask : BitVec 256} {x : Nat → Nat} {u : Nat}
    (hu : u < 2048 / laneBits f) (hl : ∀ j, l.getD j none = leavesTo mask x (u + 1) j) :
    redTree f op r l = (treeAt (redNode f op r) (activeTo mask u fun j => redLeaf f op r (x j)) (Nat.log2 (2048 / laneBits f)) 0).getD
      (redIdentity f op) := by
  obtain ⟨hpow, hle⟩ := lanes_pow f
  have hleaf : (fun j => (l.getD j none).map (redLeaf f op r)) = activeTo mask u fun j => redLeaf f op r (x j) := by
    funext j
    rw [hl, leavesTo, activeTo]
    by_cases h : j ≤ u ∧ mask.getLsbD j = true
    · rw [if_pos h, if_pos ⟨Nat.lt_succ_of_le h.1, h.2⟩]
      rfl
    · rw [if_neg h, if_neg fun h' => h ⟨Nat.le_of_lt_succ h'.1, h'.2⟩]
      rfl
  rw [redTree_levels hle fun j hj => ?_, hleaf]
  rw [hl, leavesTo, if_neg]
  rw [hpow] at hj
  omega

section
variable {f : BitVec 4} (h : fmtFloat f = true)
include h

theorem redNode_lt (op : VRedOp) (r : FRnd) (a b : Nat) : redNode f op r a b < 2 ^ laneBits f := by
  cases op with
  | add => exact (laneArith_float h r (fun m x y _ => Val.add m x y) (fun x y _ => x + y) a b 0).trans_lt (flop_lt h _ _ _ _ _)
  | min => exact (laneExtreme_float h false false a b).trans_lt (flop_lt h _ _ _ _ _)
  | max => exact (laneExtreme_float h true false a b).trans_lt (flop_lt h _ _ _ _ _)

theorem redLeaf_float (op : VRedOp) (r : FRnd) (a : Nat) :
    redLeaf f op r a = flop f ⟨op == .add && r.flush, 0⟩ (fun _ x _ _ => x) a 0 0 := if_pos h

theorem redIdentity_lt (op : VRedOp) : redIdentity f op < 2 ^ laneBits f := by
  obtain ⟨hb, hf⟩ := floatFormat h
  cases op with
  | add =>
    rw [redIdentity]
    simp only [h, if_true]
    rw [← hb]
    simpa using (laneFloat f).sign_add_lt hf true (Nat.two_pow_pos _)
  | min =>
    rw [redIdentity]
    simp only [h, if_true]
    rw [← hb]
    exact (laneFloat f).infBits_lt hf false
  | max =>
    rw [redIdentity]
    simp only [h, if_true]
    rw [← hb]
    exact (laneFloat f).infBits_lt hf true

/-- A reduction fits its lane. -/
theorem redTree_lt (op : VRedOp) (r : FRnd) (l : List (Option Nat)) : redTree f op r l < 2 ^ laneBits f := by
  rw [redTree_treeAt]
  cases hv : treeAt (redNode f op r) (fun j => (l.getD j none).map (redLeaf f op r)) 8 0 with
  | none => exact redIdentity_lt h op
  | some v =>
    refine treeAt_all (P := fun v => v < 2 ^ laneBits f) (fun j w hw => ?_) (redNode_lt h op r) 8 0 v hv
    obtain ⟨a, -, rfl⟩ := Option.map_eq_some_iff.mp hw
    rw [redLeaf_float h]
    exact flop_lt h _ _ _ _ _

end

/-! ### Sums of products (R239) -/

theorem groupsOf_length {α : Type} (k n : Nat) (l : List α) : (groupsOf k n l).length = n := by
  induction n generalizing l with
  | zero => rfl
  | succ n ih => rw [groupsOf, List.length_cons, ih]

theorem groupsOf_getElem {α : Type} (k n : Nat) (l : List α) {i : Nat} (hi : i < n) :
    (groupsOf k n l)[i]? = some ((l.drop (k * i)).take k) := by
  induction n generalizing l i with
  | zero => exact absurd hi (Nat.not_lt_zero i)
  | succ n ih =>
    cases i with
    | zero => rfl
    | succ i =>
      rw [groupsOf, List.getElem?_cons_succ, ih _ (Nat.lt_of_succ_lt_succ hi), List.drop_drop, Nat.mul_add, Nat.mul_one, Nat.add_comm]

/-- A lane beyond those that are packed is 0. -/
theorem packLanes_beyond {n : Nat} {l : List Nat} (h : ∀ x ∈ l, x < 2 ^ n) (hn : n * l.length ≤ 2048) {i : Nat} (hi : l.length ≤ i) :
    lane n (packLanes n l) i = 0 := by
  have hl := packNat_lt n l h
  rw [lane, packLanes, BitVec.toNat_ofNat, Nat.mod_eq_of_lt (Nat.lt_of_lt_of_le hl (Nat.pow_le_pow_right (by decide) hn)),
    Nat.div_eq_of_lt (Nat.lt_of_lt_of_le hl (Nat.pow_le_pow_right (by decide) (Nat.mul_le_mul_left n hi))), Nat.zero_mod]

/-- A group of leaves, from its list. -/
theorem group_getD {l : List (Option Nat)} {k i j : Nat} :
    ((l.drop (k * i)).take k).getD j none = if j < k then l.getD (k * i + j) none else none := by
  rw [List.getD_eq_getElem?_getD, List.getElem?_take]
  split
  · rw [List.getElem?_drop, List.getD_eq_getElem?_getD]
  · rfl

/-- The leaves of a list under a mask. -/
theorem leaves_list (mask : BitVec 256) (l : List Nat) (j : Nat) :
    (leaves mask l).getD j none = if j < l.length ∧ mask.getLsbD j = true then some (l.getD j 0) else none := by
  unfold leaves
  by_cases h : j < l.length
  · simp [List.getD_eq_getElem?_getD, h]
  · simp [List.getD_eq_getElem?_getD, h]

/-- What `vdot` gives on a lane: the sum of its group of products, and 0 beyond the groups. -/
theorem vdotLanes_lane (t : Thread) {f : BitVec 4} (h : fmtFloat f = true) {lg : Nat} (hlg : lg ≤ Nat.log2 (2048 / laneBits f))
    (wd wa wb : BitVec 3) (k : BitVec 2) (r : FRnd) {i : Nat} (hi : i < 2048 / laneBits f) :
    let n := laneBits f
    let product := fun j => flop f r (fun _ x y _ => Val.mul x y) (lane n (wVal t wa) j) (lane n (wVal t wb) j) 0
    ∃ v, vdotLanes t f lg wd wa wb k r = .w wd v ∧ lane n v i = if i < 2048 / n / 2 ^ lg then
      (treeAt (redNode f .add r) (activeTo (maskVal t k) (2048 / n - 1) fun j => redLeaf f .add r (product j)) lg i).getD
        (redIdentity f .add)
      else 0 := by
  intro n product
  obtain ⟨hpow, hle⟩ := lanes_pow f
  refine ⟨_, rfl, ?_⟩
  generalize hprods : (((lanesOf (laneBits f) (wVal t wa)).zip (lanesOf (laneBits f) (wVal t wb))).map fun p =>
    laneArith f r (fun _ x y _ => Val.mul x y) (fun x y _ => x * y) p.1 p.2 0) = prods
  have hlen : prods.length = 2048 / n := by rw [← hprods]; simp [n]
  have hprod : ∀ j, j < 2048 / n → prods.getD j 0 = product j := by
    intro j hj
    rw [← hprods, show product j = _ from (laneArith_float h r (fun _ x y _ => Val.mul x y) (fun x y _ => x * y) _ _ 0).symm]
    simp [List.getD_eq_getElem?_getD, lanesOf, List.zip, hj, n, lane]
  have hsums : ∀ x ∈ (groupsOf (2 ^ lg) (2048 / n / 2 ^ lg) (leaves (maskVal t k) prods)).map (redTree f .add r), x < 2 ^ n := by
    intro x hx
    obtain ⟨l, -, rfl⟩ := List.mem_map.mp hx
    exact redTree_lt h .add r l
  have hcount : ((groupsOf (2 ^ lg) (2048 / n / 2 ^ lg) (leaves (maskVal t k) prods)).map (redTree f .add r)).length = 2048 / n / 2 ^ lg := by
    rw [List.length_map, groupsOf_length]
  have hfit : n * (2048 / n / 2 ^ lg) ≤ 2048 := (Nat.mul_le_mul_left n (Nat.div_le_self _ _)).trans (lanes_fill n)
  split
  · next hg =>
    refine (packLanes_lane n _ hsums (by rw [hcount]; exact hfit) i (by rw [hcount]; exact hg)).trans ?_
    rw [List.getD_eq_getElem?_getD, List.getElem?_map, groupsOf_getElem _ _ _ hg, Option.map_some, Option.getD_some,
      redTree_levels (hlg.trans hle) fun j hj => ?_]
    · refine congrArg (Option.getD · _) (treeAt_congr _ lg fun j hj => ?_)
      rw [Nat.mul_zero, Nat.zero_add, group_getD, if_pos hj, leaves_list, hlen, activeTo]
      by_cases hm : 2 ^ lg * i + j < 2048 / n ∧ (maskVal t k).getLsbD (2 ^ lg * i + j) = true
      · rw [if_pos hm, if_pos ⟨Nat.le_sub_one_of_lt hm.1, hm.2⟩, hprod _ hm.1]
        rfl
      · rw [if_neg hm, if_neg fun h' => hm ⟨Nat.lt_of_le_sub_one (Nat.zero_lt_of_lt hi) h'.1, h'.2⟩]
        rfl
    · rw [group_getD, if_neg (by omega)]
  · next hg => exact packLanes_beyond hsums (by rw [hcount]; exact hfit) (by rw [hcount]; omega)

/-! ### The claim -/

theorem floatTrees : FloatTrees := by
  intro t op st f o g wd wa wb k r i lg h4 hi n top m x sum pick node identity fl leaf root product
  have h := fmtFloat_of_lt h4
  have hsum : redNode f .add r = sum := by
    funext a b
    exact laneArith_float h r (fun m x y _ => Val.add m x y) (fun x y _ => x + y) a b 0
  have hnode : redNode f o r = node := by
    cases o with
    | add => exact hsum
    | min =>
      funext a b
      exact laneExtreme_float h false false a b
    | max =>
      funext a b
      exact laneExtreme_float h true false a b
  have hidentity : redIdentity f o = identity := by
    cases o <;> simp only [redIdentity, h, if_true, identity, x]
  have hleaf : (fun j => redLeaf f o r (lane n (wVal t wa) j)) = leaf := by
    funext j
    exact redLeaf_float h o r _
  have hroot : ∀ (l : List (Option Nat)) u, u < 2048 / n →
      (∀ j, l.getD j none = leavesTo (maskVal t k) (lane n (wVal t wa)) (u + 1) j) → redTree f o r l = root u := by
    intro l u hu hl
    rw [redTree_active o r hu hl, hnode, hidentity, hleaf]
  refine ⟨?_, ⟨_, rfl, ?_⟩, fun _ hlg => ?_⟩
  · have hsigned : fmtSigned f = false := by
      rw [fmtSigned, decide_eq_false (by omega)]
      rfl
    refine congrArg VRes.scalar ((congrArg (laneScalar f) (hroot _ (2048 / n - 1) (Nat.sub_one_lt_of_lt hi) fun j => ?_)).trans ?_)
    · rw [Nat.sub_add_cancel (Nat.zero_lt_of_lt hi)]
      exact leaves_getD n _ _ j
    · rw [laneScalar, hsigned]
      rfl
  · refine (vscan_lane t f o r k wd wa hi fun j _ => redTree_lt h o r _).trans ?_
    rw [hroot (scanLeaves t f k wa i) i hi fun j => leavesScan_getD n (maskVal t k) (wVal t wa) hi j]
  · obtain ⟨v, hv, hlane⟩ := vdotLanes_lane t h hlg wd wa wb k r hi
    refine ⟨v, hv, hlane.trans ?_⟩
    rw [hsum]
    have hleaves : (fun j => redLeaf f .add r (flop f r (fun _ x y _ => Val.mul x y) (lane n (wVal t wa) j) (lane n (wVal t wb) j) 0)) =
        product := by
      funext j
      exact redLeaf_float h .add r _
    rw [show redIdentity f .add = x.signBit true from if_pos h, hleaves]

end Sys2Proof.Machine
end

section
/-! PROOFS. What vector loads and stores move (spec/12 R228 to R230). -/

namespace Sys2Proof.Machine

open Sys2Proof.Claims

/-! ### Bits -/

/-- Numbers without a common bit add bit by bit. -/
theorem add_eq_or {a b : Nat} (h : a &&& b = 0) : a + b = a ||| b := by
  have hw : a + b < 2 ^ (a + b + 1) := (Nat.lt_two_pow_self).trans (Nat.pow_lt_pow_right (by decide) (Nat.lt_succ_self _))
  have ha : a < 2 ^ (a + b + 1) := Nat.lt_of_le_of_lt (Nat.le_add_right a b) hw
  have hb : b < 2 ^ (a + b + 1) := Nat.lt_of_le_of_lt (Nat.le_add_left b a) hw
  have hand : BitVec.ofNat (a + b + 1) a &&& BitVec.ofNat (a + b + 1) b = 0#(a + b + 1) := by
    apply BitVec.eq_of_toNat_eq
    rw [BitVec.toNat_and, BitVec.toNat_ofNat, BitVec.toNat_ofNat, Nat.mod_eq_of_lt ha, Nat.mod_eq_of_lt hb, h]
    rfl
  have := congrArg BitVec.toNat (BitVec.add_eq_or_of_and_eq_zero _ _ hand)
  rwa [BitVec.toNat_add, BitVec.toNat_or, BitVec.toNat_ofNat, BitVec.toNat_ofNat, Nat.mod_eq_of_lt ha, Nat.mod_eq_of_lt hb,
    Nat.mod_eq_of_lt hw] at this

theorem testBit_add {a b : Nat} (h : ∀ j, a.testBit j = true → b.testBit j = false) (j : Nat) :
    (a + b).testBit j = (a.testBit j || b.testBit j) := by
  rw [add_eq_or (Nat.eq_of_testBit_eq fun i => ?_), Nat.testBit_or]
  rw [Nat.testBit_and, Nat.zero_testBit]
  cases ha : a.testBit i with
  | false => rfl
  | true => rw [h i ha]; rfl

/-- The bits of a number under a mask leave with their subtraction. -/
theorem testBit_sub_and (a m j : Nat) : (a - (a &&& m)).testBit j = (a.testBit j && !m.testBit j) := by
  have hdis : ∀ i, (a &&& m).testBit i = true → (a ^^^ (a &&& m)).testBit i = false := by
    intro i hi
    rw [Nat.testBit_xor, hi]
    rw [Nat.testBit_and, Bool.and_eq_true] at hi
    rw [hi.1]
    rfl
  have hsum : (a &&& m) + (a ^^^ (a &&& m)) = a := by
    refine Nat.eq_of_testBit_eq fun i => ?_
    rw [testBit_add hdis, Nat.testBit_xor, Nat.testBit_and]
    cases a.testBit i <;> cases m.testBit i <;> rfl
  rw [show a - (a &&& m) = a ^^^ (a &&& m) by omega, Nat.testBit_xor, Nat.testBit_and]
  cases a.testBit j <;> cases m.testBit j <;> rfl

/-- The mask of `n` bits from bit `s`. -/
theorem testBit_mask (n s j : Nat) : ((2 ^ n - 1) * 2 ^ s).testBit j = decide (s ≤ j ∧ j < s + n) := by
  rw [Nat.mul_comm, Nat.testBit_two_pow_mul, Nat.testBit_two_pow_sub_one]
  by_cases h : s ≤ j
  · simp [h, show j - s < n ↔ j < s + n by omega]
  · simp [h]

/-- A number with `n` bits from bit `s` replaced. -/
theorem testBit_replaced (x v n s j : Nat) :
    (x - (x &&& (2 ^ n - 1) * 2 ^ s) + v % 2 ^ n * 2 ^ s).testBit j = if s ≤ j ∧ j < s + n then v.testBit (j - s) else x.testBit j := by
  have hv : ∀ i, (v % 2 ^ n * 2 ^ s).testBit i = (decide (s ≤ i ∧ i < s + n) && v.testBit (i - s)) := by
    intro i
    rw [Nat.mul_comm, Nat.testBit_two_pow_mul, Nat.testBit_mod_two_pow]
    by_cases h : s ≤ i
    · simp [h, show i - s < n ↔ i < s + n by omega]
    · simp [h]
  rw [testBit_add, testBit_sub_and, testBit_mask, hv]
  · split
    · next h => rw [decide_eq_true h]; simp
    · next h => rw [decide_eq_false h]; simp
  · intro i hi
    rw [testBit_sub_and, testBit_mask, Bool.and_eq_true, Bool.not_eq_true'] at hi
    rw [hv, hi.2]
    rfl

/-! ### Loads (R229) -/

theorem laneElem_bits (f : BitVec 4) : (laneElem f).bits = laneBits f := by
  revert f
  decide

/-- The value of an element that a load has read, in the lane's format. -/
def loadedValue (q : VMemOp) (bank : BitVec 5) (x : Nat) : Nat :=
  match moveConv q.fmt bank with
  | none => x
  | some (le, be) => le.encode (Mode.ofCode q.rnd.rnd) q.rnd.flush q.rnd.nsat (be.decode q.rnd.flush x)

/-- The bits of an element of a bank, for lanes of a format. -/
def moveBits (f : BitVec 4) (bank : BitVec 5) : Nat := if bank = 0 then laneBits f else (bankElem bank).bits

theorem moveConv_none {f : BitVec 4} {bank : BitVec 5} (h : moveConv f bank = none) : moveBits f bank = laneBits f := by
  unfold moveConv at h
  unfold moveBits
  split
  · rfl
  · next hb =>
    split at h
    · next hc =>
      obtain hc | hc := hc
      · exact absurd hc hb
      · rw [hc, laneElem_bits]
    · cases h

theorem moveConv_some {f : BitVec 4} {bank : BitVec 5} {p : Elem × Elem} (h : moveConv f bank = some p) :
    p = (laneElem f, bankElem bank) ∧ moveBits f bank = (bankElem bank).bits := by
  unfold moveConv at h
  split at h
  · cases h
  · next hc => exact ⟨(Option.some.inj h).symm, if_neg fun hb => hc (.inl hb)⟩

/-- What a load delivers fits the lane. -/
theorem loadedValue_lt (q : VMemOp) (bank : BitVec 5) (x : Nat) :
    loadedValue q bank (x % 2 ^ moveBits q.fmt bank) < 2 ^ laneBits q.fmt := by
  unfold loadedValue
  cases h : moveConv q.fmt bank with
  | none =>
    rw [moveConv_none h]
    exact Nat.mod_lt _ (Nat.two_pow_pos _)
  | some p =>
    obtain ⟨rfl, -⟩ := moveConv_some h
    exact laneElem_encode_lt _ _ _ _ _

/-- What lies from a bit of the blocks read. -/
def blockValue (s : State) (o : VOp) (bit : Nat) : Nat :=
  (match (vecBlocks s o).find? (·.key == bit / 512 * 64) with
    | some r => r.data.toNat
    | none => 0) / 2 ^ (bit % 512)

/-- Lanes set one after another, each at most once. -/
theorem foldl_set_getD (F : Nat → Nat) (l : List (Nat × Nat)) (hl : (l.map (·.1)).Nodup) (i : Nat) :
    ∀ old : List Nat, (∀ bit, (i, bit) ∈ l → i < old.length → (l.foldl (fun l p => l.set p.1 (F p.2)) old).getD i 0 = F bit) ∧
      ((∀ p ∈ l, p.1 ≠ i) → (l.foldl (fun l p => l.set p.1 (F p.2)) old).getD i 0 = old.getD i 0) ∧
      (l.foldl (fun l p => l.set p.1 (F p.2)) old).length = old.length := by
  induction l with
  | nil => exact fun old => ⟨fun _ h => absurd h List.not_mem_nil, fun _ => rfl, rfl⟩
  | cons p l ih =>
    obtain ⟨hp, hnd⟩ := List.nodup_cons.mp hl
    intro old
    obtain ⟨hin, hout, hlen⟩ := ih hnd (old.set p.1 (F p.2))
    rw [List.length_set] at hin hlen
    refine ⟨fun bit h hi => ?_, fun h => ?_, hlen⟩
    · obtain h | h := List.mem_cons.mp h
      · have hno : ∀ q ∈ l, q.1 ≠ i := fun q hq hqi => hp (List.mem_map.mpr ⟨q, hq, by rw [hqi, ← h]⟩)
        rw [List.foldl_cons, hout hno, ← h]
        simp [List.getD_eq_getElem?_getD, hi]
      · exact hin bit h hi
    · rw [List.foldl_cons, hout fun q hq => h q (List.mem_cons_of_mem _ hq), List.getD_eq_getElem?_getD,
        List.getElem?_set_ne (h p List.mem_cons_self), List.getD_eq_getElem?_getD]

theorem loadLanes_eq (s : State) (o : VOp) (q : VMemOp) :
    loadLanes s o q = packLanes (laneBits q.fmt) (o.reads.foldl
      (fun l p => l.set p.1 (loadedValue q o.bank (blockValue s o p.2 % 2 ^ moveBits q.fmt o.bank)))
      (lanesOf (laneBits q.fmt) (wVal (s.thread o.g) q.wr))) := rfl

theorem loadLanes_lane (s : State) (o : VOp) (q : VMemOp) (hl : (o.reads.map (·.1)).Nodup) {i : Nat} (hi : i < 2048 / laneBits q.fmt) :
    (∀ bit, (i, bit) ∈ o.reads → lane (laneBits q.fmt) (loadLanes s o q) i =
      loadedValue q o.bank (blockValue s o bit % 2 ^ moveBits q.fmt o.bank)) ∧
    ((∀ p ∈ o.reads, p.1 ≠ i) → lane (laneBits q.fmt) (loadLanes s o q) i = lane (laneBits q.fmt) (wVal (s.thread o.g) q.wr) i) := by
  obtain ⟨hin, hout, hlen⟩ := foldl_set_getD (fun bit => loadedValue q o.bank (blockValue s o bit % 2 ^ moveBits q.fmt o.bank)) o.reads hl i
    (lanesOf (laneBits q.fmt) (wVal (s.thread o.g) q.wr))
  have hlt : ∀ (l : List (Nat × Nat)) (old : List Nat), (∀ x ∈ old, x < 2 ^ laneBits q.fmt) →
      ∀ x ∈ l.foldl (fun l p => l.set p.1 (loadedValue q o.bank (blockValue s o p.2 % 2 ^ moveBits q.fmt o.bank))) old,
        x < 2 ^ laneBits q.fmt := by
    intro l
    induction l with
    | nil => exact fun old h => h
    | cons p l ih =>
      refine fun old h => ih _ fun x hx => ?_
      obtain hx | rfl := List.mem_or_eq_of_mem_set hx
      · exact h x hx
      · exact loadedValue_lt q o.bank _
  rw [lanesOf_length] at hlen
  have hlane := packLanes_lane (laneBits q.fmt) _ (hlt o.reads _ fun x hx => lanesOf_lt hx) (by rw [hlen]; exact lanes_fill _) i
    (by rw [hlen]; exact hi)
  rw [← loadLanes_eq] at hlane
  refine ⟨fun bit hb => hlane.trans (hin bit hb (by rw [lanesOf_length]; exact hi)), fun h => hlane.trans ((hout h).trans ?_)⟩
  exact lanesOf_getD _ _ i 0 hi

/-! ### Stores (R230) -/

/-- One element that a store puts into a block. -/
def putElem (a : VAcc) (vals : List Nat) (block : Nat) (d : Nat × Nat) (p : Nat × Nat) : Nat × Nat :=
  if (a.key * 8 + p.2 * a.ebits) / 512 = block then
    (d.1 - (d.1 &&& (2 ^ a.ebits - 1) * 2 ^ ((a.key * 8 + p.2 * a.ebits) % 512)) +
      vals.getD p.1 0 % 2 ^ a.ebits * 2 ^ ((a.key * 8 + p.2 * a.ebits) % 512),
      d.2 ||| (2 ^ a.ebits - 1) * 2 ^ ((a.key * 8 + p.2 * a.ebits) % 512))
  else d

theorem blockBits_eq (a : VAcc) (vals : List Nat) (block : Nat) :
    blockBits a vals block = a.elems.foldl (putElem a vals block) (0, 0) := rfl

/-- An element of a store covers bit `j` of a block. -/
def CoversBit (a : VAcc) (block j : Nat) (p : Nat × Nat) : Prop :=
  (a.key * 8 + p.2 * a.ebits) / 512 = block ∧ (a.key * 8 + p.2 * a.ebits) % 512 ≤ j ∧ j < (a.key * 8 + p.2 * a.ebits) % 512 + a.ebits

theorem putElem_covers {a : VAcc} {vals : List Nat} {block j : Nat} {p : Nat × Nat} (d : Nat × Nat) (h : CoversBit a block j p) :
    (putElem a vals block d p).1.testBit j = (vals.getD p.1 0).testBit (j - (a.key * 8 + p.2 * a.ebits) % 512) ∧
      (putElem a vals block d p).2.testBit j = true := by
  obtain ⟨hb, hin⟩ := h
  rw [putElem, if_pos hb]
  dsimp only
  rw [testBit_replaced, if_pos hin, Nat.testBit_or, testBit_mask, decide_eq_true hin, Bool.or_true]
  exact ⟨rfl, rfl⟩

theorem putElem_other {a : VAcc} {vals : List Nat} {block j : Nat} {p : Nat × Nat} (d : Nat × Nat) (h : ¬ CoversBit a block j p) :
    (putElem a vals block d p).1.testBit j = d.1.testBit j ∧ (putElem a vals block d p).2.testBit j = d.2.testBit j := by
  rw [putElem]
  split
  · next hb =>
    have hin := fun hin => h ⟨hb, hin⟩
    rw [testBit_replaced, if_neg hin, Nat.testBit_or, testBit_mask, decide_eq_false hin, Bool.or_false]
    exact ⟨rfl, rfl⟩
  · exact ⟨rfl, rfl⟩

/-- A bit that no element covers stays. -/
theorem foldl_putElem_other {a : VAcc} {vals : List Nat} {block j : Nat} (l : List (Nat × Nat)) (h : ∀ p ∈ l, ¬ CoversBit a block j p) :
    ∀ d, (l.foldl (putElem a vals block) d).1.testBit j = d.1.testBit j ∧ (l.foldl (putElem a vals block) d).2.testBit j = d.2.testBit j := by
  induction l with
  | nil => exact fun d => ⟨rfl, rfl⟩
  | cons p l ih =>
    intro d
    obtain ⟨h1, h2⟩ := ih (fun q hq => h q (List.mem_cons_of_mem _ hq)) (putElem a vals block d p)
    obtain ⟨h3, h4⟩ := putElem_other (vals := vals) d (h p List.mem_cons_self)
    exact ⟨h1.trans h3, h2.trans h4⟩

/-- The bits of a block are those of the last element that covers them. -/
theorem blockBits_last {a : VAcc} {vals : List Nat} {block j : Nat} {l r : List (Nat × Nat)} {p : Nat × Nat}
    (he : a.elems = l ++ p :: r) (hp : CoversBit a block j p) (hr : ∀ x ∈ r, ¬ CoversBit a block j x) :
    (blockBits a vals block).1.testBit j = (vals.getD p.1 0).testBit (j - (a.key * 8 + p.2 * a.ebits) % 512) ∧
      (blockBits a vals block).2.testBit j = true := by
  rw [blockBits_eq, he, List.foldl_append, List.foldl_cons]
  obtain ⟨h1, h2⟩ := foldl_putElem_other (vals := vals) r hr (putElem a vals block (l.foldl (putElem a vals block) (0, 0)) p)
  obtain ⟨h3, h4⟩ := putElem_covers (vals := vals) (l.foldl (putElem a vals block) (0, 0)) hp
  exact ⟨h1.trans h3, h2.trans h4⟩

/-- A list with an element of a kind has a last one. -/
theorem exists_last {α : Type} {P : α → Prop} {l : List α} (h : ∃ x ∈ l, P x) : ∃ l₁ x l₂, l = l₁ ++ x :: l₂ ∧ P x ∧ ∀ y ∈ l₂, ¬ P y := by
  induction l with
  | nil =>
    obtain ⟨x, hx, -⟩ := h
    exact absurd hx List.not_mem_nil
  | cons a l ih =>
    by_cases hl : ∃ x ∈ l, P x
    · obtain ⟨l₁, x, l₂, rfl, hx, hy⟩ := ih hl
      exact ⟨a :: l₁, x, l₂, rfl, hx, hy⟩
    · obtain ⟨x, hx, hp⟩ := h
      obtain rfl | hx := List.mem_cons.mp hx
      · exact ⟨[], x, l, rfl, hp, fun y hy hpy => hl ⟨y, hy, hpy⟩⟩
      · exact absurd ⟨x, hx, hp⟩ hl

/-- A store covers the bits of its elements. -/
theorem blockBits_mask (a : VAcc) (vals : List Nat) (block j : Nat) :
    (blockBits a vals block).2.testBit j = true ↔ ∃ p ∈ a.elems, CoversBit a block j p := by
  by_cases h : ∃ p ∈ a.elems, CoversBit a block j p
  · obtain ⟨l, p, r, he, hp, hr⟩ := exists_last h
    exact ⟨fun _ => h, fun _ => (blockBits_last he hp hr).2⟩
  · refine ⟨fun hj => ?_, fun h' => absurd h' h⟩
    obtain ⟨-, h2⟩ := foldl_putElem_other (vals := vals) a.elems (fun p hp hc => h ⟨p, hp, hc⟩) (0, 0)
    rw [blockBits_eq, h2, Nat.zero_testBit] at hj
    cases hj

/-- The values that a store sends, in the bank's format. -/
def storedValues (t : Thread) (q : VMemOp) (bank : BitVec 5) : List Nat :=
  (lanesOf (laneBits q.fmt) (wVal t q.wr)).map fun x =>
    match moveConv q.fmt bank with
    | none => x
    | some (l, b) => b.encode (Mode.ofCode q.rnd.rnd) q.rnd.flush q.rnd.nsat (l.decode q.rnd.flush x)

/-- The state in which an instruction has sent a request for each of a list of blocks. -/
theorem vecReqs_traffic (o : VOp) (acc : Nat → Access) (l : List Nat) :
    ∀ s : State, (∀ r ∈ s.traffic, r ∈ (l.foldl (fun s b => vecReq s o b (acc b)) s).traffic) ∧
      ∀ b ∈ l, ∃ r ∈ (l.foldl (fun s b => vecReq s o b (acc b)) s).traffic, r.by_ = .vector o.n ∧ r.key = b * 64 ∧ r.acc = acc b := by
  induction l with
  | nil => exact fun s => ⟨fun r hr => hr, fun b hb => absurd hb List.not_mem_nil⟩
  | cons b l ih =>
    intro s
    obtain ⟨hstay, hsent⟩ := ih (vecReq s o b (acc b))
    have hnew : ∃ r, (vecReq s o b (acc b)).traffic = s.traffic ++ [r] ∧ r.by_ = .vector o.n ∧ r.key = b * 64 ∧ r.acc = acc b :=
      ⟨_, rfl, rfl, rfl, rfl⟩
    obtain ⟨r, ht, hr⟩ := hnew
    refine ⟨fun x hx => hstay x (by rw [ht]; exact List.mem_append_left _ hx), fun c hc => ?_⟩
    obtain rfl | hc := List.mem_cons.mp hc
    · exact ⟨r, hstay r (by rw [ht]; exact List.mem_append_right _ (List.mem_singleton_self r)), hr⟩
    · exact hsent c hc

theorem vmemAccept_store (s : State) (o : VOp) {q : VMemOp} (a : VAcc) (h : q.store = true) :
    vmemAccept s o q a = (blocksOf a).foldl (fun u b => vecReq u o b
      (.store (BitVec.ofNat 512 (blockBits a (storedValues (s.thread o.g) q a.bank) b).1)
        (BitVec.ofNat 512 (blockBits a (storedValues (s.thread o.g) q a.bank) b).2))) s := if_pos h

theorem vectorMoves : VectorMoves := by
  intro s o q n mode
  refine ⟨fun _ hl i hi => ⟨fun bit r hb hr => ?_, ?_⟩, fun a h => ⟨storedValues (s.thread o.g) q a.bank, fun i hi => ?_, fun b hb => ?_, fun b j _ => ?_⟩⟩
  · rw [(loadLanes_lane s o q hl hi).1 bit hb, blockValue, hr, loadedValue]
    cases hc : moveConv q.fmt o.bank with
    | none =>
      rw [moveConv_none hc]
    | some p =>
      obtain ⟨rfl, hbits⟩ := moveConv_some hc
      rw [hbits]
  · exact (loadLanes_lane s o q hl hi).2
  · rw [storedValues, List.getD_eq_getElem?_getD, List.getElem?_map, lanesOf, List.getElem?_map, List.getElem?_range hi]
    rfl
  · rw [vmemAccept_store s o a h]
    obtain ⟨-, hsent⟩ := vecReqs_traffic o (fun b => .store (BitVec.ofNat 512 (blockBits a (storedValues (s.thread o.g) q a.bank) b).1)
        (BitVec.ofNat 512 (blockBits a (storedValues (s.thread o.g) q a.bank) b).2)) (blocksOf a) s
    exact hsent b hb
  · exact ⟨blockBits_mask a _ b j, fun l p r he hp hr => (blockBits_last he hp hr).1⟩

end Sys2Proof.Machine
end

section
/-! PROOFS. The turns of the vector unit (spec/12 R224 to R227). -/

namespace Sys2Proof.Machine

open Sys2Proof.Claims

/-! ### Acceptance (R224, R227) -/

/-- The clock of a tile is that of its cores. -/
theorem tileClock_congr {s u : State} (h : ∀ k, (u.core k).clock = (s.core k).clock) (T : Nat) : tileClock u T = tileClock s T := by
  simp only [tileClock, h]

/-- The state in which the unit takes the first instruction of a core's queue. -/
def vectorTurn (s : State) (T k : Nat) (l : List VOp) : State :=
  (s.modCore (4 * T + k) fun x => { x with vq := l }).modTile T fun x => { x with vlast := k }

theorem vectorTurn_keeps (s : State) (T k : Nat) (l : List VOp) :
    (∀ j, (vectorTurn s T k l).thread j = s.thread j) ∧ (∀ j, ((vectorTurn s T k l).core j).clock = (s.core j).clock) ∧
      ((vectorTurn s T k l).core (4 * T + k)).vq = l ∧ ((vectorTurn s T k l).tile T).vrun = (s.tile T).vrun := by
  have hcore : ∀ j, (vectorTurn s T k l).core j = (s.modCore (4 * T + k) fun x => { x with vq := l }).core j := fun _ => rfl
  refine ⟨fun j => rfl, fun j => ?_, ?_, ?_⟩
  · rw [hcore]
    by_cases h : j = 4 * T + k
    · rw [h, State.core_mod]
    · rw [State.core_mod_other _ _ _ _ h]
  · rw [hcore, State.core_mod]
  · rw [vectorTurn, State.tile_mod]
    rfl

/-- The state in which the uncorrectable registers of an instruction are counted. -/
def vectorRead (s : State) (o : VOp) : State := dataErrors s (whoIn s o.g) (badSources (s.thread o.g) o)

theorem vectorRead_keeps (s : State) (o : VOp) :
    (∀ k, (vectorRead s o).core k = s.core k) ∧ (∀ k, (vectorRead s o).tile k = s.tile k) ∧
      ((vectorRead s o).thread o.g).status = (s.thread o.g).status := by
  obtain ⟨_, _, _, h⟩ := dataErrors_cases s (whoIn s o.g) (badSources (s.thread o.g) o)
  obtain ⟨_, hd⟩ := dataErrors_kept s (whoIn s o.g) (badSources (s.thread o.g) o) o.g
  refine ⟨fun k => ?_, fun k => ?_, ?_⟩
  · rw [vectorRead, h]
    rfl
  · rw [vectorRead, h]
    rfl
  · rw [vectorRead, hd]

/-- Requests that are sent change no thread. -/
theorem vecReqs_keeps (o : VOp) (acc : Nat → Access) (l : List Nat) :
    ∀ s : State, ∃ t n, l.foldl (fun s b => vecReq s o b (acc b)) s = { s with traffic := t, nextId := n } := by
  induction l with
  | nil => exact fun s => ⟨s.traffic, s.nextId, rfl⟩
  | cons b l ih =>
    intro s
    obtain ⟨t, n, h⟩ := ih (vecReq s o b (acc b))
    exact ⟨t, n, h⟩

theorem vmemAccept_thread (s : State) (o : VOp) (q : VMemOp) (a : VAcc) (g : Nat) : (vmemAccept s o q a).thread g = s.thread g := by
  by_cases h : q.store = true
  · obtain ⟨t, n, hs⟩ := vecReqs_keeps o (fun b => .store (BitVec.ofNat 512 (blockBits a (storedValues (s.thread o.g) q a.bank) b).1)
      (BitVec.ofNat 512 (blockBits a (storedValues (s.thread o.g) q a.bank) b).2)) (blocksOf a) s
    rw [vmemAccept_store s o a h, hs]
    rfl
  · obtain ⟨t, n, hs⟩ := vecReqs_keeps o (fun _ => .load) (blocksOf a) s
    rw [vmemAccept, if_neg h, hs]
    rfl

section
variable {s : State} {T k : Nat} {o : VOp} {l : List VOp} (hT : T < Config.tiles) (hopen : tileClosed s T = false)
  (hk : vectorCore s T = some k) (hq : (s.core (4 * T + k)).vq = o :: l)
include hT hopen hk hq

/-- An instruction without memory is accepted with its result. -/
theorem acceptance_plain (hm : vmemOf o.ins = none) :
    let w := vectorRead (vectorTurn s T k l) o
    exec (.vectorAcceptance T) s = .next (w.modTile T fun x => { x with vrun := x.vrun ++
      [{ vecFinish o (vectorResult (w.thread o.g) o) with due := tileClock w T + vecLatency o.ins 0 }] }) := by
  show execVectorAcceptance T s = _
  rw [execVectorAcceptance, if_pos hT, if_neg (ne_true_of_eq_false hopen), hk]
  dsimp only
  rw [hq]
  dsimp only
  rw [hm]
  rfl

/-- A memory instruction that passes its checks is accepted. -/
theorem acceptance_mem {q : VMemOp} {a : VAcc} (hm : vmemOf o.ins = some q) (hc : vmemCheck (vectorTurn s T k l) o q = .ok a) :
    let u := freeFields (vmemAccept (vectorRead (vectorTurn s T k l) o) o q a) o.g [(q.mem.g, o.gval)]
    exec (.vectorAcceptance T) s = .next (if (u.thread o.g).status = .parked .vaccept then resumeRetire u o.g else u) := by
  show execVectorAcceptance T s = _
  rw [execVectorAcceptance, if_pos hT, if_neg (ne_true_of_eq_false hopen), hk]
  dsimp only
  rw [hq]
  dsimp only
  rw [hm]
  dsimp only
  unfold vectorTurn at hc
  rw [hc]
  rfl

/-- A memory instruction that fails a check stops. -/
theorem acceptance_fails {q : VMemOp} {e : Stop} (hm : vmemOf o.ins = some q) (hc : vmemCheck (vectorTurn s T k l) o q = .error e) :
    exec (.vectorAcceptance T) s = .next (applyStop
      (putBackAll ((vectorTurn s T k l).modThread o.g fun t => { vmemUndo t q with status := .ready }) o.g [(q.mem.g, o.gval)])
      o.g (s.core (4 * T + k)).clock false e) := by
  show execVectorAcceptance T s = _
  rw [execVectorAcceptance, if_pos hT, if_neg (ne_true_of_eq_false hopen), hk]
  dsimp only
  rw [hq]
  dsimp only
  rw [hm]
  dsimp only
  unfold vectorTurn at hc
  rw [hc]
  rfl

end

/-! ### Results (R225) -/

/-- The reads of a finished instruction leave the traffic. -/
def resultReads (s : State) (o : VOp) : State := (vecBlocks s o).foldl (fun s r => dropReq s r.id) s

/-- A finished instruction fills its vector register. -/
def resultW (s : State) (o : VOp) : State :=
  match o.wres with
  | some (d, v) => s.modThread o.g fun t => t.fillW d v
  | none => s

/-- A finished instruction fills its mask register. -/
def resultM (s : State) (o : VOp) : State :=
  match o.mres with
  | some (k, v) => s.modThread o.g fun t => t.fillM k v
  | none => s

/-- A finished instruction fills its scalar destination. -/
def resultS (s : State) (o : VOp) : State :=
  match o.sres with
  | some v => fillDst s o.g o.dst v o.n
  | none => s

/-- The results of a finished instruction, its reads left. -/
def results (s : State) (o : VOp) : State := resultS (resultM (resultW (resultReads s o) o) o) o

theorem vecFill_load (s : State) {o : VOp} {q : VMemOp} (h : vmemOf o.ins = some q) :
    vecFill s o = results (s.modThread o.g fun t => t.fillW q.wr (loadLanes s o q)) o := by
  unfold vecFill
  rw [h]
  rfl

theorem vecFill_plain (s : State) {o : VOp} (h : vmemOf o.ins = none) : vecFill s o = results s o := by
  unfold vecFill
  rw [h]
  rfl

theorem resultReads_eq (s : State) (o : VOp) : ∃ t b, resultReads s o = { s with traffic := t, atBank := b } := by
  have h : ∀ (l : List Req) (u : State), ∃ t b, l.foldl (fun s r => dropReq s r.id) u = { u with traffic := t, atBank := b } := by
    intro l
    induction l with
    | nil => exact fun u => ⟨u.traffic, u.atBank, rfl⟩
    | cons r l ih =>
      intro u
      obtain ⟨t, b, h⟩ := ih (dropReq u r.id)
      exact ⟨t, b, h⟩
  exact h _ s

theorem resultS_keeps (s : State) (o : VOp) :
    (∀ k, (resultS s o).tile k = s.tile k) ∧ ((resultS s o).thread o.g).w = (s.thread o.g).w ∧
      ((resultS s o).thread o.g).m = (s.thread o.g).m := by
  unfold resultS
  split
  · next v _ =>
    obtain ⟨_, _, h⟩ := fillDst_cases s o.g o.dst v o.n
    obtain ⟨_, _, ht⟩ := fillDst_thread s o.g o.dst v o.n o.g
    refine ⟨fun k => ?_, ?_, ?_⟩
    · rw [h]
      rfl
    · rw [ht]
    · rw [ht]
  · exact ⟨fun _ => rfl, rfl, rfl⟩

theorem resultM_keeps (s : State) (o : VOp) :
    (∀ k, (resultM s o).tile k = s.tile k) ∧ ((resultM s o).thread o.g).w = (s.thread o.g).w := by
  unfold resultM
  split
  · refine ⟨fun _ => rfl, ?_⟩
    rw [State.thread_mod]
    rfl
  · exact ⟨fun _ => rfl, rfl⟩

theorem resultM_fills (s : State) {o : VOp} {k : BitVec 2} {v : BitVec 256} (h : o.mres = some (k, v)) :
    ((resultM s o).thread o.g).m[k.toNat] = { val := v, full := true } := by
  unfold resultM
  rw [h]
  dsimp only
  rw [State.thread_mod]
  exact Vector.getElem_set_self _

theorem resultW_keeps (s : State) (o : VOp) : ∀ k, (resultW s o).tile k = s.tile k := by
  unfold resultW
  split
  · exact fun _ => rfl
  · exact fun _ => rfl

theorem resultW_fills (s : State) {o : VOp} {d : BitVec 3} {v : BitVec 2048} (h : o.wres = some (d, v)) :
    ((resultW s o).thread o.g).w[d.toNat] = { val := v, full := true } := by
  unfold resultW
  rw [h]
  dsimp only
  rw [State.thread_mod]
  exact Vector.getElem_set_self _

theorem results_tile (s : State) (o : VOp) (k : Nat) : (results s o).tile k = s.tile k := by
  obtain ⟨_, _, h⟩ := resultReads_eq s o
  rw [results, (resultS_keeps _ o).1, (resultM_keeps _ o).1, resultW_keeps, h]
  rfl

/-- What a finished instruction fills. -/
theorem results_fill (s : State) (o : VOp) :
    (∀ d v, o.wres = some (d, v) → ((results s o).thread o.g).w[d.toNat] = { val := v, full := true }) ∧
      (∀ k v, o.mres = some (k, v) → ((results s o).thread o.g).m[k.toNat] = { val := v, full := true }) ∧
      (∀ v r, o.sres = some v → o.dst = .reg r → ((results s o).thread o.g).reg r = { val := v, full := true }) := by
  obtain ⟨-, hsw, hsm⟩ := resultS_keeps (resultM (resultW (resultReads s o) o) o) o
  obtain ⟨-, hmw⟩ := resultM_keeps (resultW (resultReads s o) o) o
  refine ⟨fun d v h => ?_, fun k v h => ?_, fun v r h hd => ?_⟩
  · simp only [results, hsw, hmw]
    exact resultW_fills _ h
  · simp only [results, hsm]
    exact resultM_fills _ h
  · rw [results, resultS, h, hd]
    exact fillDst_reg _ o.g r v o.n

/-- The vector registers of an instruction that gives none stay. -/
theorem results_w (s : State) {o : VOp} (h : o.wres = none) : ((results s o).thread o.g).w = (s.thread o.g).w := by
  obtain ⟨_, _, hr⟩ := resultReads_eq s o
  obtain ⟨-, hsw, -⟩ := resultS_keeps (resultM (resultW (resultReads s o) o) o) o
  obtain ⟨-, hmw⟩ := resultM_keeps (resultW (resultReads s o) o) o
  rw [results, hsw, hmw, resultW, h, hr]
  rfl

/-- The unit writes the result that comes next. -/
theorem resultWrite_writes {s : State} {T : Nat} {o : VOp} (hT : T < Config.tiles) (h : vecNext s T = some o) :
    exec (.vectorResultWrite T) s = .next (vecFill (s.modTile T fun x => { x with vrun := x.vrun.filter (·.n != o.n) }) o) := by
  show execVectorResultWrite T s = _
  rw [execVectorResultWrite, if_pos hT, h]

theorem vectorTurns : VectorTurns := by
  intro s T o hT
  refine ⟨fun k l hopen hk hq => ⟨fun hm => ?_, fun q a hm hc hs => ?_, fun q e hm hc => acceptance_fails hT hopen hk hq hm hc⟩,
    fun q hn hm hw => ?_, fun hn hm => ?_⟩
  · obtain ⟨-, hclock, hvq, hvrun⟩ := vectorTurn_keeps s T k l
    obtain ⟨hcore, htile, -⟩ := vectorRead_keeps (vectorTurn s T k l) o
    refine ⟨_, acceptance_plain hT hopen hk hq hm, ?_, ?_⟩
    · exact (congrArg Core.vq (hcore (4 * T + k))).trans hvq
    · rw [State.tile_mod, htile, hvrun, tileClock_congr (s := s) fun j => by rw [hcore, hclock]]
      rfl
  · have hstatus : ((freeFields (vmemAccept (vectorRead (vectorTurn s T k l) o) o q a) o.g [(q.mem.g, o.gval)]).thread o.g).status =
        .parked .vaccept := by
      obtain ⟨_, hf⟩ := freeFields_cases o.g [(q.mem.g, o.gval)] (vmemAccept (vectorRead (vectorTurn s T k l) o) o q a)
      obtain ⟨-, -, hr⟩ := vectorRead_keeps (vectorTurn s T k l) o
      rw [hf, ← hs]
      refine (congrArg Thread.status (vmemAccept_thread _ o q a o.g)).trans hr
    exact (acceptance_mem hT hopen hk hq hm hc).trans (congrArg _ (if_pos hstatus))
  · refine ⟨_, (resultWrite_writes hT hn).trans (congrArg _ (vecFill_load _ hm)), ?_, ?_⟩
    · rw [results_tile]
      exact (congrArg Tile.vrun (State.tile_mod s T fun x => { x with vrun := x.vrun.filter (·.n != o.n) }) :)
    · have hfill := (results_w ((s.modTile T fun x => { x with vrun := x.vrun.filter (·.n != o.n) }).modThread o.g fun t =>
        t.fillW q.wr (loadLanes s o q)) hw).trans (congrArg Thread.w (State.thread_mod _ _ _))
      exact (congrArg (fun w : Vector _ 8 => w[q.wr.toNat]) hfill).trans (Vector.getElem_set_self _)
  · refine ⟨_, (resultWrite_writes hT hn).trans (congrArg _ (vecFill_plain _ hm)), ?_, ?_⟩
    · rw [results_tile]
      exact congrArg Tile.vrun (State.tile_mod s T _)
    · obtain ⟨hfw, hfm, hfs⟩ := results_fill (s.modTile T fun x => { x with vrun := x.vrun.filter (·.n != o.n) }) o
      refine ⟨hfw, hfm, fun v r h hd => ?_⟩
      rw [hfs v r h hd]
      exact ⟨rfl, rfl⟩

/-- Settles O25. -/
theorem vectorUnit : Obligations.VectorUnit := ⟨vectorTurns, floatOps, conversions, floatTrees, vectorMoves, randomLanes⟩

end Sys2Proof.Machine
end

section
/-! PROOFS. What the accesses of a port engine change (spec/07 R127, spec/14 R267, spec/17 R352, spec/19 R390): memory, and what is
counted of them. -/

namespace Sys2Proof.Machine

open Sys2Proof.Claims

/-- From `s` to `u` memory has changed, keeping its form, and counts of errors and misuse: of threads no more than the count of
data errors, and of an empty slot nothing; of launches the code of a data error where none was set. -/
structure Written (s u : State) : Prop where
  module : ∃ m q t x d l, u = { s with mem := m, poison := q, threads := t, owners := x, dies := d, launches := l }
  thread : ∀ k, ∃ d, u.thread k = { s.thread k with data := d }
  idle : ∀ k, (s.thread k).status = .empty → u.thread k = s.thread k
  owner : ∀ o, ∃ d m, u.owner o = { s.owner o with data := d, misuse := m }
  die : ∀ d, ∃ n, u.die d = { s.die d with dropCount := n }
  launch : ∀ k, u.launch k = s.launch k ∨ (s.launch k).error = 0 ∧ u.launch k = { s.launch k with error := 0x12 }
  placed : ∀ k, (mget u.launches k).isSome = (mget s.launches k).isSome
  wf : memWf s.mem = true → memWf u.mem = true

namespace Written

theorem refl (s : State) : Written s s :=
  ⟨⟨_, _, _, _, _, _, rfl⟩, fun _ => ⟨_, rfl⟩, fun _ _ => rfl, fun _ => ⟨_, _, rfl⟩, fun _ => ⟨_, rfl⟩, fun _ => .inl rfl, fun _ => rfl, id⟩

theorem trans {s u v : State} (h : Written s u) (h' : Written u v) : Written s v := by
  refine ⟨?_, fun k => ?_, fun k hk => ?_, fun o => ?_, fun d => ?_, fun k => ?_, fun k => (h'.placed k).trans (h.placed k), h'.wf ∘ h.wf⟩
  · obtain ⟨_, _, _, _, _, _, rfl⟩ := h.module
    obtain ⟨m, q, t, x, d, l, rfl⟩ := h'.module
    exact ⟨m, q, t, x, d, l, rfl⟩
  · obtain ⟨_, hd⟩ := h.thread k
    obtain ⟨d, hd'⟩ := h'.thread k
    exact ⟨d, by rw [hd', hd]⟩
  · have hu := h.idle k hk
    rw [h'.idle k (by rw [hu]; exact hk), hu]
  · obtain ⟨_, _, ho⟩ := h.owner o
    obtain ⟨d, m, ho'⟩ := h'.owner o
    exact ⟨d, m, by rw [ho', ho]⟩
  · obtain ⟨_, hd⟩ := h.die d
    obtain ⟨n, hd'⟩ := h'.die d
    exact ⟨n, by rw [hd', hd]⟩
  · rcases h.launch k with hl | ⟨he, hl⟩
    · rw [← hl]
      exact h'.launch k
    · rcases h'.launch k with hl' | ⟨he', -⟩
      · exact .inr ⟨he, hl'.trans hl⟩
      · rw [hl] at he'
        cases he'

/-- Cores and tiles stay. -/
theorem core {s u : State} (h : Written s u) (k : Nat) : u.core k = s.core k := by
  obtain ⟨_, _, _, _, _, _, rfl⟩ := h.module
  rfl

theorem tile {s u : State} (h : Written s u) (k : Nat) : u.tile k = s.tile k := by
  obtain ⟨_, _, _, _, _, _, rfl⟩ := h.module
  rfl

/-- A fold of such changes. -/
theorem foldl {α : Type} {f : State → α → State} (hf : ∀ u a, Written u (f u a)) (l : List α) : ∀ s, Written s (l.foldl f s) := by
  induction l with
  | nil => exact refl
  | cons a l ih => exact fun s => (hf s a).trans (ih _)

theorem foldr {α : Type} {f : α → State → State} (hf : ∀ u a, Written u (f a u)) (l : List α) (s : State) :
    Written s (l.foldr f s) := by
  induction l with
  | nil => exact refl s
  | cons a l ih => exact ih.trans (hf _ a)

/-- A change of memory alone. -/
theorem ofMem {s : State} (m : Mem) (q : List Nat) (hw : memWf s.mem = true → memWf m = true) :
    Written s { s with mem := m, poison := q } :=
  ⟨⟨m, q, _, _, _, _, rfl⟩, fun _ => ⟨_, rfl⟩, fun _ _ => rfl, fun _ => ⟨_, _, rfl⟩, fun _ => ⟨_, rfl⟩, fun _ => .inl rfl, fun _ => rfl, hw⟩

/-- A count of an owner. -/
theorem modOwner (s : State) (o : Nat) {f : Owner → Owner} (hf : ∀ x, ∃ d m, f x = { x with data := d, misuse := m }) :
    Written s (s.modOwner o f) := by
  refine ⟨⟨_, _, _, _, _, _, rfl⟩, fun _ => ⟨_, rfl⟩, fun _ _ => rfl, fun k => ?_, fun _ => ⟨_, rfl⟩, fun _ => .inl rfl, fun _ => rfl, id⟩
  by_cases hk : k = o
  · rw [hk, State.owner_mod]
    exact hf _
  · rw [State.owner_mod_other s o k f hk]
    exact ⟨_, _, rfl⟩

theorem misuseOwner (s : State) (o : Nat) : Written s (misuseOwner s o) := modOwner s o fun _ => ⟨_, _, rfl⟩

/-- What is dropped at a die is counted. -/
theorem dropCount (s : State) (d : Nat) : Written s (s.modDie d fun x => { x with dropCount := x.dropCount + 1 }) := by
  refine ⟨⟨_, _, _, _, _, _, rfl⟩, fun _ => ⟨_, rfl⟩, fun _ _ => rfl, fun _ => ⟨_, _, rfl⟩, fun k => ?_, fun _ => .inl rfl, fun _ => rfl, id⟩
  by_cases hk : k = d
  · rw [hk, State.die_mod]
    exact ⟨_, rfl⟩
  · rw [State.die_mod_other s d k _ hk]
    exact ⟨_, rfl⟩

theorem launchError (s : State) (lk : Nat) : Written s (launchError s lk 0x12) := by
  unfold Machine.launchError
  split
  · next l hl =>
    split
    · next he =>
      have hlaunch : s.launch lk = l := by rw [State.launch, hl]; rfl
      refine ⟨⟨_, _, _, _, _, _, rfl⟩, fun _ => ⟨_, rfl⟩, fun _ _ => rfl, fun _ => ⟨_, _, rfl⟩, fun _ => ⟨_, rfl⟩, fun k => ?_, fun k => ?_, id⟩
      · by_cases hk : k = lk
        · rw [hk, State.launch_set, hlaunch]
          exact .inr ⟨he, rfl⟩
        · exact .inl (State.launch_set_other s lk k _ hk)
      · by_cases hk : k = lk
        · rw [hk, hl, State.setLaunch, mget_mput_same]
          rfl
        · rw [State.setLaunch, mget_mput_other _ _ hk]
    · exact refl s
  · exact refl s

theorem ownerError (s : State) (o lk : Nat) : Written s (ownerError s o lk) :=
  (modOwner s o (f := fun x => { x with data := bump x.data }) fun _ => ⟨_, _, rfl⟩).trans (launchError _ lk)

theorem dataError (s : State) (w : Who) : Written s (dataError s w) := by
  have hcount : ∀ u : State, Written u (if w.live u then u.modThread w.g fun t => { t with data := bump t.data } else u) := by
    intro u
    split
    · next hl =>
      refine ⟨⟨_, _, _, _, _, _, rfl⟩, fun k => ?_, fun k hk => ?_, fun _ => ⟨_, _, rfl⟩, fun _ => ⟨_, rfl⟩, fun _ => .inl rfl, fun _ => rfl, id⟩
      · by_cases h : k = w.g
        · rw [h, State.thread_mod]
          exact ⟨_, rfl⟩
        · exact ⟨_, State.thread_mod_other u w.g k _ h⟩
      · refine State.thread_mod_other u w.g k _ fun h => ?_
        rw [Who.live, Machine.live, ← h, hk] at hl
        cases hl
    · exact refl u
  exact ((modOwner s w.owner (f := fun x => { x with data := bump x.data }) fun _ => ⟨_, _, rfl⟩).trans (launchError _ _)).trans (hcount _)

theorem dataErrors (s : State) (w : Who) (k : Nat) : Written s (dataErrors s w k) := by
  induction k generalizing s with
  | zero => exact refl s
  | succ k ih => exact (dataError s w).trans (ih _)

theorem countBad (s : State) (w : Who) (b : Bool) : Written s (countBad s w b) := by
  cases b
  · exact refl s
  · exact dataErrors s w 1

theorem countWalk (s : State) (w : Who) (a : Word) : Written s (countWalk s w a) := countBad s w _

theorem gateCount (s : State) (o key : Nat) : Written s (gateCount s o key) := by
  unfold Machine.gateCount
  split
  · exact refl s
  · exact (dropCount s _).trans (misuseOwner _ o)
  · exact misuseOwner s o

theorem unitWrite (s : State) (key n data mask : Nat) : Written s (unitWrite s key n data mask) := by
  have hw := fun hm => unitWrite_wf (s := s) hm key n data mask
  obtain ⟨m, q, h⟩ := unitWrite_cases s key n data mask
  rw [h] at hw ⊢
  exact ofMem m q hw

theorem engineWrite1 (s : State) (w : Who) (a : Word) (bs : List Byte) : Written s (engineWrite1 s w a bs) := by
  unfold Machine.engineWrite1
  dsimp only
  split
  · exact countWalk s w a
  · split
    · exact ((countWalk s w a).trans (countBad _ w _)).trans (unitWrite _ _ _ _ _)
    · exact (countWalk s w a).trans (gateCount _ _ _)

theorem engineWriteIn (w : Who) (n : Nat) : ∀ (s : State) (a : Word) (bs : List Byte), Written s (engineWriteIn s w a n bs) := by
  induction n with
  | zero => exact fun s _ _ => refl s
  | succ n ih =>
    intro s a bs
    unfold Machine.engineWriteIn
    split
    · exact refl s
    · exact (engineWrite1 s w a _).trans (ih _ _ _)

/-- A port engine's write. -/
theorem engineWrite (s : State) (w : Who) (a : Word) (bs : List Byte) : Written s (engineWrite s w a bs) := engineWriteIn w _ s a bs

theorem engineCount1 (s : State) (w : Who) (a : Word) : Written s (engineCount1 s w a) := by
  unfold Machine.engineCount1
  dsimp only
  split
  · exact countWalk s w a
  · split
    · exact (countWalk s w a).trans (countBad _ w _)
    · exact (countWalk s w a).trans (gateCount _ _ _)

theorem engineCountIn (w : Who) (n : Nat) : ∀ (s : State) (a : Word) (len : Nat), Written s (engineCountIn s w a n len) := by
  induction n with
  | zero => exact fun s _ _ => refl s
  | succ n ih =>
    intro s a len
    unfold Machine.engineCountIn
    split
    · exact refl s
    · exact (engineCount1 s w a).trans (ih _ _ _)

/-- What a port engine's read counts. -/
theorem engineCount (s : State) (w : Who) (a : Word) (n : Nat) : Written s (engineCount s w a n) := engineCountIn w _ s a n

theorem dequeMirror (s : State) (core : Nat) : Written s (dequeMirror s core) := by
  refine foldr (fun u p => ?_) _ s
  split
  · exact engineWrite _ _ _ _
  · exact refl u

theorem dispMirror (s : State) (T : Nat) : Written s (dispMirror s T) := by
  refine foldl (fun u p => ?_) _ s
  split
  · exact engineWrite _ _ _ _
  · exact refl u

theorem spillCount (s : State) (core i : Nat) : Written s (spillCount s core i) := by
  unfold Machine.spillCount
  split
  · exact engineCount _ _ _ _
  · exact refl s

theorem cellWrite (s : State) (g c off n v : Nat) : Written s (cellWrite s g c off n v) := engineWrite _ _ _ _

theorem takenCount (s : State) (core i : Nat) : Written s (takenCount s core i) := by
  unfold Machine.takenCount
  dsimp only
  split
  · exact spillCount _ _ _
  · exact refl s

theorem unitWriteList (o lk n : Nat) : ∀ (s : State) (p : Nat) (bs : List Byte), Written s (unitWriteList s o lk p n bs) := by
  induction n with
  | zero => exact fun s _ _ => refl s
  | succ n ih =>
    intro s p bs
    unfold Machine.unitWriteList
    split
    · exact refl s
    · refine trans ?_ ((unitWrite _ _ _ _ _).trans (ih _ _ _))
      split
      · exact ownerError s o lk
      · exact refl s

/-- A write into an owner's structure. -/
theorem ownerWrite (s : State) (tag o lk : Nat) (a : Word) (bs : List Byte) : Written s (ownerWrite s tag o lk a bs) := by
  have hwalk : ∀ b : Bool, Written s (if b then Machine.ownerError s o lk else s) := by
    rintro (_ | _)
    · exact refl s
    · exact ownerError s o lk
  unfold Machine.ownerWrite
  refine (hwalk (walkBadFrom s a 4 (s.owner o).root.toNat)).trans ?_
  dsimp only
  generalize (if walkBadFrom s a 4 (s.owner o).root.toNat then Machine.ownerError s o lk else s) = u
  split
  · split
    · exact unitWriteList _ _ _ _ _ _
    · exact gateCount _ _ _
  · exact refl _

theorem tqMirror (s : State) (o : Nat) : Written s (tqMirror s o) := ownerWrite s o o 0 _ _

end Written

/-! ### Deques (R267) -/

/-- A core's new deque stands, whatever its mirror writes. -/
theorem putDeque_core (s : State) (core : Nat) (x : Core) : (putDeque s core x).core core = x := by
  rw [putDeque, (Written.dequeMirror _ core).core, State.core_set]

/-- The answers of a port are taken: a late one is counted, and the thread's port is empty. -/
theorem portsDone_cases (s : State) (g : Nat) (l : List (Word × Nat)) : ∃ d t, portsDone s g l = { s with dies := d, threads := t } := by
  have hlate : ∀ (T due : Nat), ∃ d, lateAnswer s T due = { s with dies := d } := by
    intro T due
    unfold lateAnswer
    split
    · exact ⟨_, rfl⟩
    · exact ⟨s.dies, rfl⟩
  unfold portsDone
  split
  · exact ⟨s.dies, s.threads, rfl⟩
  · next p _ =>
    obtain ⟨d, h⟩ := hlate (tileOf g) (((threadPort s g p.1).map (·.due)).getD 0)
    rw [portDone, latePort, h]
    exact ⟨d, _, rfl⟩

/-- Of its thread no more than the port has changed. -/
theorem portsDone_thread (s : State) (g : Nat) (l : List (Word × Nat)) :
    ∃ p, (portsDone s g l).thread g = { s.thread g with port := p } := by
  unfold portsDone
  split
  · exact ⟨_, rfl⟩
  · next p _ =>
    refine ⟨none, ?_⟩
    rw [portDone, State.thread_mod, latePort, lateAnswer]
    split <;> rfl

/-- Two states in which an owner's tables and the memory controller say the same: of `u` memory, its checks and the
owners are those of `s`. -/
structure SameMemory (s u : State) : Prop where
  mem : u.mem = s.mem
  poison : u.poison = s.poison
  owners : u.owners = s.owners
  frames : u.frames = s.frames
  locks : u.locks = s.locks

namespace SameMemory

variable {s u : State} (h : SameMemory s u)
include h

theorem unitRead (p n : Nat) : unitRead u p n = unitRead s p n := by
  simp only [Machine.unitRead, h.mem, h.poison]

theorem groupOk (table first : Nat) (e : BitVec 64) (k : Nat) : groupOk u table first e k = groupOk s table first e k := by
  induction k with
  | zero => rfl
  | succ k ih => simp only [Machine.groupOk, h.unitRead, ih]

theorem walkEntry (a : Word) (l table : Nat) (e : BitVec 64) : walkEntry u a l table e = walkEntry s a l table e := by
  simp only [Machine.walkEntry, h.groupOk]

theorem walkFrom (a : Word) (l : Nat) : ∀ table, walkFrom u a l table = walkFrom s a l table := by
  induction l with
  | zero =>
    intro table
    unfold Machine.walkFrom
    simp only [entryAt, h.unitRead, h.walkEntry]
  | succ l ih =>
    intro table
    unfold Machine.walkFrom
    simp only [entryAt, h.unitRead, h.walkEntry, ih]

theorem enginePhys (o : Nat) (a : Word) (k : AKind) : enginePhys u o a k = enginePhys s o a k := by
  simp only [Machine.enginePhys, translateNow, pageWalk, State.owner, h.owners, h.walkFrom]

theorem gate (o key : Nat) : gate u o key = gate s o key := by
  have hb : ∀ b, berthOwner u b = berthOwner s b := fun b => by rw [berthOwner, berthOwner, h.owners]
  rw [Machine.gate, Machine.gate, h.frames, h.locks]
  simp only [hb]

/-- A port engine reads the same. -/
theorem engineRead (o : Nat) (a : Word) (n : Nat) : engineRead u o a n = engineRead s o a n := by
  have hin : ∀ (n : Nat) (a : Word) (len : Nat), engineReadIn u o a n len = engineReadIn s o a n len := by
    intro n
    induction n with
    | zero => exact fun _ _ => rfl
    | succ n ih =>
      intro a len
      simp only [engineReadIn, ih, engineRead1, h.enginePhys, h.gate, h.mem, h.poison]
  exact hin _ a n

end SameMemory

theorem portsDone_sameMemory (s : State) (g : Nat) (l : List (Word × Nat)) : SameMemory s (portsDone s g l) := by
  obtain ⟨d, t, h⟩ := portsDone_cases s g l
  rw [h]
  exact ⟨rfl, rfl, rfl, rfl, rfl⟩

theorem cellRead_portsDone (s : State) (g : Nat) (l : List (Word × Nat)) (x : Launch) (c off n : Nat) :
    cellRead (portsDone s g l) x c off n = cellRead s x c off n :=
  congrArg natOfBytes ((portsDone_sameMemory s g l).engineRead _ _ _)

/-! ### Waiting for the port (R333) -/

/-- A thread that asks the port waits at its pc. -/
theorem parkThread_port (s : State) (g : Nat) (a : Word) (n : Nat) :
    ((parkThread s g (.port a n)).thread g).status = .parked (.port a n) ∧
      ((parkThread s g (.port a n)).thread g).pc = (s.thread g).pc := by
  show ((portAsk (s.modThread g fun t => { t with status := .parked (.port a n) }) g a n).thread g).status = _ ∧
    ((portAsk (s.modThread g fun t => { t with status := .parked (.port a n) }) g a n).thread g).pc = _
  unfold portAsk
  split
  · rw [State.thread_mod]
    exact ⟨rfl, rfl⟩
  · rw [State.thread_mod, State.thread_mod]
    exact ⟨rfl, rfl⟩

/-- An instruction that waits for the answers of the port. -/
theorem asks_of {s : State} {i : Instr} {f : State → Nat → Except Stop State} {a : Word} {n : Nat}
    (hi : exec i s = runInstr s s.cur false f) (h : f (landed s) (clockOf s) = .error (.park (.port a n))) :
    Asks s i (some (a, n)) := by
  obtain ⟨hstatus, hpc⟩ := parkThread_port (landed s) s.cur a n
  refine ⟨_, a, n, rfl, stops_err hi h, hstatus, hpc.trans ?_, parkThread_mem _ _ _⟩
  obtain ⟨_, _, ht⟩ := (landed_moved s).own.rest
  rw [ht]

/-- The answers are not there. -/
theorem portsWait_asks {s : State} {g : Nat} {l : List (Word × Nat)} (h : portsReady s g l = false) :
    ∃ p, portPlan s g l = some p ∧ portsWait s g l = .error (.park (.port p.1 p.2)) := by
  unfold portsReady at h
  unfold portsWait
  cases hp : portPlan s g l with
  | none => rw [hp] at h; cases h
  | some p =>
    rw [hp] at h
    exact ⟨p, rfl, if_neg (ne_true_of_eq_false h)⟩

theorem portsWait_ready {s : State} {g : Nat} {l : List (Word × Nat)} (h : portsReady s g l = true) : portsWait s g l = .ok () := by
  unfold portsReady at h
  unfold portsWait
  cases hp : portPlan s g l with
  | none => rfl
  | some p =>
    rw [hp] at h
    exact if_pos h

end Sys2Proof.Machine
end

section
/-! PROOFS. The task instructions (spec/14 R265, R274 to R279, R281, R282). -/

namespace Sys2Proof.Machine

open Sys2Proof.Claims

/-! ### Forks and posts (R274, R279) -/

/-- The entry of a fork. -/
def forkEntry (s : State) (g : Nat) (o : Opnds) : DEntry :=
  { marker := false, slot := slotOf g, jcell := (s.thread g).jcell, launch := (s.thread g).launch
    task := { pc := succOf (s.thread g) false, frame := o.v 2, a0 := o.v 0, a1 := o.v 1 } }

/-- The state in which a fork has pushed its entry. -/
def forked (s : State) (g : Nat) (o : Opnds) (x : Core) : State :=
  (consume (putDeque s (coreOf g) x) g o.srcs).modThread g fun t => { t with jcell := none }

theorem forked_entries (s : State) (g : Nat) (o : Opnds) (x : Core) : ((forked s g o x).core (coreOf g)).entries = x.entries := by
  have hcore : (forked s g o x).core (coreOf g) = (consume (putDeque s (coreOf g) x) g o.srcs).core (coreOf g) := rfl
  obtain ⟨_, _, _, _, _, _, _, h⟩ := consume_queues (putDeque s (coreOf g) x) g o.srcs (coreOf g)
  rw [hcore, h, putDeque_core]
  rfl

/-- A push puts its entry at the bottom. -/
theorem pushEntry_entries {x y : Core} {e : Nat} {d : DEntry} (h : x.pushEntry e d = some y) : y.entries = d :: x.entries := by
  unfold Core.pushEntry at h
  split at h
  · obtain rfl := Option.some.inj h
    rfl
  · dsimp only at h
    split at h
    · cases h
    · obtain rfl := Option.some.inj h
      simp only [Core.entries, List.cons_append, ← List.append_assoc, List.take_append_drop]

section
variable {s : State} {st : Stall} {a b : RegNum} {tg : Target} {o : Opnds} (h : Ready s [a, b, 30] [] o)
include h

theorem spawn_forks {x : Core} (hx : (s.core (coreOf s.cur)).pushEntry ((landed s).launch (issuer s).launch).e
    (forkEntry (landed s) s.cur o) = some x) :
    Completes s (.spawn st a b tg) st (forked (landed s) s.cur o x) (some (targetPc (issuer s).pc tg)) := by
  refine acts_ok (show execSpawn st a b tg s = runInstr s s.cur false _ from rfl) ?_
  refine (passes h).trans ?_
  rw [landed_cur]
  dsimp only
  generalize hp : Core.pushEntry _ _ _ = p
  obtain rfl : p = some x := hp.symm.trans hx
  rfl

theorem spawn_full (hx : (s.core (coreOf s.cur)).pushEntry ((landed s).launch (issuer s).launch).e
    (forkEntry (landed s) s.cur o) = none) :
    Acts s (.spawn st a b tg) (takeLocal (landed s) s.cur (clockOf s) 5 0 0 false false) := by
  refine stops_err (show execSpawn st a b tg s = runInstr s s.cur false _ from rfl) (e := .localTrap 5 0 0) ?_
  refine (passes h).trans ?_
  rw [landed_cur]
  dsimp only
  generalize hp : Core.pushEntry _ _ _ = p
  obtain rfl : p = none := hp.symm.trans hx
  rfl

theorem tpost_posts (hn : Meets s [.dispenser]) :
    let r : DRec := { launch := (issuer s).launch, core := coreOf s.cur
                      task := { pc := targetPc (issuer s).pc tg, frame := o.v 2, a0 := o.v 0, a1 := o.v 1 } }
    Completes s (.tpost st a b tg) st (dispPost (consume (landed s) s.cur o.srcs) (tileOf s.cur) r) none := by
  refine acts_ok (show execTpost st a b tg s = runInstr s s.cur false _ from rfl) ?_
  refine (passes h).trans ?_
  exact (passes (require_ok hn)).trans rfl

end

/-- A record that is posted stands last. -/
theorem dispPost_disp (s : State) (T : Nat) (r : DRec) : ((dispPost s T r).tile T).disp = (s.tile T).disp ++ [r] := by
  rw [dispPost, (Written.dispMirror _ T).tile, State.tile_mod]

theorem consume_tile (s : State) (g : Nat) (ss : List Src) (k : Nat) : (consume s g ss).tile k = s.tile k := by
  obtain ⟨_, _, _, _, _, h⟩ := consume_module s g ss
  rw [h]
  rfl

/-! ### Returns (R275) -/

section
variable {s : State} {st : Stall} (hn : Meets s [.vdone, .counts true true true, .noFill])
include hn

theorem tret_idle (hb : bottomOf ((refillDeque (landed s) (coreOf s.cur)).core (coreOf s.cur)) (slotOf s.cur) = none) :
    Acts s (.tret st) (becomeWorker ((landed s).modThread s.cur fun t => { t with jcell := none }) s.cur (clockOf s) st true) := by
  refine acts_ok (show execTret st s = runInstr s s.cur false _ from rfl) ?_
  refine (passes (require_ok hn)).trans ?_
  rw [landed_cur]
  dsimp only
  rw [hb]
  rfl

variable {i : Nat} {z : DEntry}
  (hb : bottomOf ((refillDeque (landed s) (coreOf s.cur)).core (coreOf s.cur)) (slotOf s.cur) = some (i, z))
include hb

theorem tret_takes (hp : portsReady (landed s) s.cur
    (tretReads (landed s) s.cur i (takenEntry (refillDeque (landed s) (coreOf s.cur)) (coreOf s.cur) i z)) = true) :
    let r := refillDeque (landed s) (coreOf s.cur)
    let y := takenEntry r (coreOf s.cur) i z
    Acts s (.tret st) (tretTake (portsDone r s.cur (tretReads (landed s) s.cur i y)) s.cur (clockOf s) st i y) := by
  refine acts_ok (show execTret st s = runInstr s s.cur false _ from rfl) ?_
  refine (passes (require_ok hn)).trans ?_
  rw [landed_cur]
  dsimp only
  rw [hb]
  exact (passes (portsWait_ready hp)).trans rfl

theorem tret_asks (hp : portsReady (landed s) s.cur
    (tretReads (landed s) s.cur i (takenEntry (refillDeque (landed s) (coreOf s.cur)) (coreOf s.cur) i z)) = false) :
    Asks s (.tret st) (portPlan (landed s) s.cur
      (tretReads (landed s) s.cur i (takenEntry (refillDeque (landed s) (coreOf s.cur)) (coreOf s.cur) i z))) := by
  obtain ⟨p, hplan, hwait⟩ := portsWait_asks hp
  rw [hplan]
  refine asks_of (show execTret st s = runInstr s s.cur false _ from rfl) ?_
  refine (passes (require_ok hn)).trans ?_
  rw [landed_cur]
  dsimp only
  rw [hb]
  dsimp only
  rw [hwait]
  rfl

end

/-! ### Joins and waits (R276, R278) -/

/-- A thread that becomes a worker parks as one. -/
theorem becomeWorker_parks (s : State) (g c : Nat) (st : Stall) (steal : Bool) :
    ((becomeWorker s g c st steal).thread g).status = .parked (.worker steal) ∧
      ((becomeWorker s g c st steal).thread g).jcell = (s.thread g).jcell := by
  rw [becomeWorker, State.thread_mod]
  exact ⟨rfl, rfl⟩

/-- The state in which a thread that joins has suspended its frame in its cell. -/
def suspended (s : State) (l : Launch) (g k : Nat) (t : Thread) : State :=
  let v := engineWrite s (whoIn s g) (cellAddr l k)
    (bytesOfNat 8 (cellRead s l k 0 8) ++ frameBytes t (succOf t false) ++ bytesOfNat 56 0)
  dataErrors (v.modThread g fun t => { t.landAll with jcell := none }) (whoIn v g) ((t.regs.toList.drop 1).countP (·.bad))

theorem suspended_jcell (s : State) (l : Launch) (g k : Nat) (t : Thread) : ((suspended s l g k t).thread g).jcell = none := by
  unfold suspended
  dsimp only
  generalize engineWrite _ _ _ _ = v
  obtain ⟨_, hd⟩ := dataErrors_kept (v.modThread g fun t => { t.landAll with jcell := none }) (whoIn v g)
    ((t.regs.toList.drop 1).countP (·.bad)) g
  rw [hd, State.thread_mod]

section
variable {s : State} {st : Stall} (hn : Meets s [.counts true true true, .noFill])
include hn

theorem tjoin_idle (hj : (issuer s).jcell = none) : Completes s (.tjoin st) st (landed s) none := by
  refine acts_ok (show execTjoin st s = runInstr s s.cur false _ from rfl) ?_
  refine (passes (require_ok hn)).trans ?_
  rw [landed_cur]
  dsimp only
  generalize hy : Thread.jcell _ = y
  obtain rfl : y = none := hy.symm.trans hj
  rfl

variable {k : Nat} (hj : (issuer s).jcell = some k)
include hj

theorem tjoin_asks (hp : portsReady (landed s) s.cur (cellReads (landed s) s.cur k) = false) :
    Asks s (.tjoin st) (portPlan (landed s) s.cur (cellReads (landed s) s.cur k)) := by
  obtain ⟨p, hplan, hwait⟩ := portsWait_asks hp
  rw [hplan]
  refine asks_of (show execTjoin st s = runInstr s s.cur false _ from rfl) ?_
  refine (passes (require_ok hn)).trans ?_
  rw [landed_cur]
  dsimp only
  generalize hy : Thread.jcell _ = y
  obtain rfl : y = some k := hy.symm.trans hj
  dsimp only
  rw [hwait]
  rfl

variable (hp : portsReady (landed s) s.cur (cellReads (landed s) s.cur k) = true)
include hp

theorem tjoin_done (h0 : cellRead (landed s) ((landed s).launch (issuer s).launch) k 0 8 = 0) :
    Completes s (.tjoin st) st ((cellWrite (portsDone (landed s) s.cur (cellReads (landed s) s.cur k)) s.cur k 8 1 0).modThread
      s.cur fun t => { t with jcell := none }) none := by
  refine acts_ok (show execTjoin st s = runInstr s s.cur false _ from rfl) ?_
  refine (passes (require_ok hn)).trans ?_
  rw [landed_cur]
  dsimp only
  generalize hy : Thread.jcell _ = y
  obtain rfl : y = some k := hy.symm.trans hj
  refine (passes (portsWait_ready hp)).trans ?_
  exact if_pos ((cellRead_portsDone _ _ _ _ _ _ _).trans h0)

theorem tjoin_waits (h0 : cellRead (landed s) ((landed s).launch (issuer s).launch) k 0 8 ≠ 0) :
    Acts s (.tjoin st) (becomeWorker (suspended (portsDone (landed s) s.cur (cellReads (landed s) s.cur k))
      ((landed s).launch (issuer s).launch) s.cur k (issuer s).landAll) s.cur (clockOf s) st true) := by
  refine acts_ok (show execTjoin st s = runInstr s s.cur false _ from rfl) ?_
  refine (passes (require_ok hn)).trans ?_
  rw [landed_cur]
  dsimp only
  generalize hy : Thread.jcell _ = y
  obtain rfl : y = some k := hy.symm.trans hj
  refine (passes (portsWait_ready hp)).trans ?_
  exact if_neg fun h => h0 ((cellRead_portsDone _ _ _ _ _ _ _).symm.trans h)

end

/-- Landing changes none of the counts of `tcount`. -/
theorem tcountWord_landed (s : State) : tcountWord (landed s) s.cur = tcountWord s s.cur := by
  obtain ⟨_, _, h⟩ := (landed_moved s).own.rest
  have hcore : (landed s).core (coreOf s.cur) = s.core (coreOf s.cur) := rfl
  have htile : (landed s).tile (tileOf s.cur) = s.tile (tileOf s.cur) := rfl
  rw [tcountWord, tcountWord, h, hcore, htile]

/-! ### Dependence counters (R281) -/

/-- `depset` and `depdec` of a cell that their operand reaches. -/
theorem depOp_parks {s : State} {i : Instr} {st : Stall} {src : List RegNum} {m : MemArg} {f : Word → Access} {o : Opnds} {a : Word}
    {key : Nat} (hi : exec i s = depOp st src m f s) (h : ReachesCell s m src o a key) :
    Parks s i (request s st { kind := .atomic, size := 64, rights := 4 } a key (f (o.v 1)) []) := by
  obtain ⟨ho, hn, hseg, hbuf, hkey⟩ := h
  refine parks_of (q := { kind := .atomic, size := 64, rights := 4 }) (o := o) (ops := [])
    (acts_ok (hi.trans (show depOp st src m f s = runInstr s s.cur false _ from rfl)) ?_) rfl
  refine (passes ho).trans ?_
  refine (passes (require_ok hn)).trans ?_
  refine (passes hseg).trans ?_
  refine (passes hbuf).trans ?_
  exact (passes hkey).trans rfl

/-- `tret` takes a record, counts a marker's cell down, or finds a marker without a cell (R275). -/
theorem tretTake_cases (s : State) (g c : Nat) (st : Stall) (i : Nat) (e : DEntry) :
    let v := becomeWorker ((popEntry (takenCount s (coreOf g) i) (coreOf g) i).modThread g fun t => { t with jcell := none }) g c st true
    (e.marker = false → tretTake s g c st i e = takeTask v g e.task e.jcell) ∧
      (∀ k, e.marker = true → e.jcell = some k → tretTake s g c st i e = joinDown v g k) ∧
      (e.marker = true → e.jcell = none → tretTake s g c st i e = v) := by
  intro v
  refine ⟨fun hm => if_neg (ne_true_of_eq_false hm), fun k hm hk => ?_, fun hm hk => ?_⟩
  · refine (if_pos hm).trans ?_
    rw [hk]
  · refine (if_pos hm).trans ?_
    rw [hk]

/-- Settles O29. -/
theorem taskInstructions : Obligations.TaskInstructions := by
  intro s st a b d tg o T c t l free e
  refine ⟨fun h => ⟨fun x hx => ?_, fun hx => spawn_full h hx, fun hn => ?_⟩, fun hn => ⟨fun hb => tret_idle hn hb, fun i z hb => ?_⟩,
    fun hn => ⟨fun hj => tjoin_idle hn hj, fun k hj => ?_, ?_, ?_⟩, fun h => ?_, fun ad key => ?_⟩
  · refine ⟨_, spawn_forks h hx, ?_, ?_⟩
    · rw [forked_entries]
      exact pushEntry_entries hx
    · rw [forked, State.thread_mod]
  · refine ⟨_, tpost_posts h hn, ?_⟩
    rw [dispPost_disp, consume_tile]
    rfl
  · intro y reads u v
    refine ⟨fun hp => ?_, tret_asks hn hb⟩
    obtain ⟨hrecord, hcell, hnone⟩ := tretTake_cases (portsDone (refillDeque (landed s) (coreOf s.cur)) s.cur reads) s.cur (clockOf s) st i y
    have hacts : Acts s (.tret st) (tretTake (portsDone (refillDeque (landed s) (coreOf s.cur)) s.cur reads) s.cur (clockOf s) st i y) :=
      tret_takes hn hb hp
    refine ⟨fun hm => ?_, fun k hm hk => ?_, fun hm hk => ?_⟩
    · rw [hrecord hm] at hacts
      exact hacts
    · rw [hcell k hm hk] at hacts
      exact hacts
    · rw [hnone hm hk] at hacts
      exact hacts
  · refine ⟨tjoin_asks hn hj, fun hp h0 => tjoin_done hn hj hp h0, fun hp h0 => ?_⟩
    obtain ⟨hstatus, hcell⟩ := becomeWorker_parks (suspended (portsDone (landed s) s.cur (cellReads (landed s) s.cur k))
      ((landed s).launch (issuer s).launch) s.cur k (issuer s).landAll) s.cur (clockOf s) st true
    exact ⟨_, tjoin_waits hn hj hp h0, hstatus, hcell.trans (suspended_jcell _ _ _ _ _)⟩
  · exact ⟨_, acts_waits (u := fun s c => becomeWorker s s.cur c st false) hn rfl, (becomeWorker_parks _ _ _ st false).1, rfl⟩
  · exact ⟨_, acts_waits (u := fun s c => becomeWorker s s.cur c st true) hn rfl, (becomeWorker_parks _ _ _ st true).1, rfl⟩
  · rw [← tcountWord_landed]
    exact gives_of (f := fun s _ => .ok (tcountWord s s.cur)) rfl h rfl
  · exact ⟨fun m => ⟨fun h => depOp_parks (f := .depset) rfl h, fun h => depOp_parks (f := fun _ => .depdec) rfl h⟩,
      fun m => ⟨fun h => depOp_parks (f := .depset) rfl h, fun h => depOp_parks (f := fun _ => .depdec) rfl h⟩⟩

end Sys2Proof.Machine
end

section
/-! PROOFS. What the entry of a line leaves of its thread and of the deques (spec/05 R85, spec/14 R267, spec/17 R345). -/

namespace Sys2Proof.Machine

open Sys2Proof.Claims

/-! ### The thread -/

/-- `t'` is `t` in place, or in place after a capture (R46). -/
def Entered (t t' : Thread) : Prop := InPlace t t' ∨ InPlace t.capture t'

theorem Entered.after {t t' t'' : Thread} (h : InPlace t t') (h' : Entered t' t'') : Entered t t'' := by
  obtain ⟨_, _, _, _, _, rfl⟩ := h
  rcases h' with h' | h'
  · exact .inl (InPlace.trans ⟨_, _, _, _, _, rfl⟩ h')
  · exact .inr (InPlace.trans ⟨_, _, _, _, _, rfl⟩ h')

/-- The pc stays. -/
theorem Entered.pc {t t' : Thread} (h : Entered t t') : t'.pc = t.pc := by
  rcases h with ⟨_, _, _, _, _, rfl⟩ | ⟨_, _, _, _, _, rfl⟩ <;> rfl

/-- A register for which no result is on its way keeps its value. -/
theorem Entered.val {t t' : Thread} {r : Fin 32} (h : Entered t t') (hp : ∀ p ∈ t.pend, p.reg ≠ r) :
    (t'.reg r).val = (t.reg r).val := by
  rcases h with ⟨_, _, _, _, _, rfl⟩ | ⟨_, _, _, _, _, rfl⟩
  · rfl
  · have hl : ∀ (l : List Pend) v, (∀ p ∈ l, p.reg ≠ r) → landedVal r l v = v := by
      intro l
      induction l with
      | nil => exact fun _ _ => rfl
      | cons p l ih =>
        intro v h
        rw [landedVal_cons, if_neg (h p List.mem_cons_self)]
        exact ih v fun q hq => h q (List.mem_cons_of_mem _ hq)
    exact (landAll_val t r).trans (hl _ _ hp)

theorem captureOwner_entered (s : State) (g cause sub : Nat) (info resume : Word) :
    Entered (s.thread g) ((captureOwner s g cause sub info resume).thread g) := by
  obtain ⟨status, trapped, h⟩ := captureOwner_thread s g cause sub info resume
  exact .inr ⟨_, status, trapped, _, _, h⟩

theorem ownerTrap_entered (s : State) (g cause sub : Nat) (info resume : Word) :
    Entered (s.thread g) ((ownerTrap s g cause sub info resume).thread g) := by
  unfold ownerTrap
  split
  · exact captureOwner_entered s g cause sub info resume
  · exact .inl (parkThread_stays s g _).1

/-- The entry of a line (R85). -/
theorem enter_entered (s : State) (g : Nat) : Entered (s.thread g) ((enter s g).thread g) := by
  have hline : InPlace (s.thread g) ((s.setThread g { s.thread g with line := none }).thread g) := by
    rw [State.thread_set]
    exact ⟨_, _, _, _, _, rfl⟩
  have htrap : ∀ cause info, Entered (s.thread g)
      ((ownerTrap (s.setThread g { s.thread g with line := none }) g cause 0 info (s.thread g).pc).thread g) :=
    fun cause info => .after hline (ownerTrap_entered _ g cause 0 info _)
  have hpark : ∀ w, Entered (s.thread g) ((parkThread (s.setThread g { s.thread g with line := none }) g w).thread g) :=
    fun w => .after hline (.inl (parkThread_stays _ g w).1)
  unfold enter
  dsimp only
  split
  · exact htrap _ _
  · split
    · unfold enterLine
      dsimp only
      split
      · rw [State.thread_set]
        exact .inl ⟨_, _, _, _, _, rfl⟩
      · exact htrap _ _
    · split
      · exact hpark _
      · exact hpark _
      · exact htrap _ _

/-! ### The deques -/

/-- The deques of all cores are the same. -/
def DequesStand (s u : State) : Prop := ∀ k, (u.core k).entries = (s.core k).entries

theorem DequesStand.trans {s u v : State} (h : DequesStand s u) (h' : DequesStand u v) : DequesStand s v :=
  fun k => (h' k).trans (h k)

theorem DequesStand.ofCores {s u : State} (h : u.cores = s.cores) : DequesStand s u := fun k => by
  rw [State.core, State.core, h]

/-- A core changes, but not its deque. -/
theorem DequesStand.setCore (s : State) (c : Nat) {x : Core} (h : x.entries = (s.core c).entries) : DequesStand s (s.setCore c x) := by
  intro k
  by_cases hk : k = c
  · rw [hk, State.core_set, h]
  · rw [State.core_set_other s c k x hk]

theorem landPushes_deques (s : State) (g : Nat) : DequesStand s (landPushes s g) := fun k => by
  rcases core_map (f := Core.mapPushes fun p => if p.g = g then p.land (max (s.core (coreOf g)).clock (s.thread g).ready) else p)
      (s := s) (u := landPushes s g) rfl k with h | ⟨h, h'⟩
  · rw [h]
    rfl
  · rw [h, h']

theorem vacate_deques (s : State) (g : Nat) (out : Bool) : DequesStand s (vacate s g out) := by
  have hmod : DequesStand s (s.modCore (coreOf g) fun x => { x with overflow := x.overflow.erase (slotOf g) }) := .setCore s _ rfl
  refine hmod.trans ?_
  unfold vacate
  dsimp only
  split
  · exact .ofCores rfl
  · split
    · exact .setCore _ _ rfl
    · split
      · exact .setCore _ _ rfl
      · exact .setCore _ _ rfl

theorem captureOwner_deques (s : State) (g cause sub : Nat) (info resume : Word) :
    DequesStand s (captureOwner s g cause sub info resume) := by
  have hpost : ∀ (u : State) o r, DequesStand u (postTrap u o r) := fun u o r => by
    obtain ⟨_, _, _, _, _, h⟩ := postTrap_cases u o r
    rw [h]
    exact .ofCores rfl
  have hland := (landPushes_deques s g).trans
    (hpost (landPushes s g) (s.thread g).owner (trapRecord (landPushes s g) g cause sub info resume))
  cases hf : trapFatal cause with
  | false =>
    rw [captureOwner_replayable s g sub info resume hf]
    exact (hland.trans (.ofCores rfl)).trans (vacate_deques _ g true)
  | true =>
    rw [captureOwner_fatal s g sub info resume hf]
    dsimp only
    split
    · exact (hland.trans (.ofCores rfl)).trans (vacate_deques _ g true)
    · obtain ⟨_, h⟩ := launchError_cases (postTrap (landPushes s g) (s.thread g).owner
        (trapRecord (landPushes s g) g cause sub info resume)) (s.thread g).launch 0x11
      rw [h]
      exact (hland.trans (.ofCores rfl)).trans (vacate_deques _ g true)

theorem parkThread_deques (s : State) (g : Nat) (w : Wait) : DequesStand s (parkThread s g w) := by
  obtain ⟨_, _, _, h⟩ := parkThread_cases s g w
  rw [h]
  exact .ofCores rfl

theorem ownerTrap_deques (s : State) (g cause sub : Nat) (info resume : Word) : DequesStand s (ownerTrap s g cause sub info resume) := by
  unfold ownerTrap
  split
  · exact captureOwner_deques s g cause sub info resume
  · exact parkThread_deques s g _

/-- A thread that goes on changes no deque. -/
theorem GoesOn.deques {s u : State} {g : Nat} (h : GoesOn s u g) : DequesStand s u := by
  obtain ⟨t, -, ⟨rfl, -⟩ | (rfl | rfl) | ⟨_, _, -, rfl⟩⟩ := h
  · exact .ofCores rfl
  · exact DequesStand.trans (u := s.setThread g t) (.ofCores rfl) (parkThread_deques _ g _)
  · exact DequesStand.trans (u := s.setThread g t) (.ofCores rfl) (parkThread_deques _ g _)
  · exact DequesStand.trans (u := s.setThread g t) (.ofCores rfl) (ownerTrap_deques _ g _ _ _ _)

/-! ### A record is taken (R265) -/

theorem enterTaken_deques (s : State) (g : Nat) : DequesStand s (enterTaken s g) := by
  have hcore : ∀ u : State, DequesStand u (u.modCore (coreOf g) fun x => { x with lines := [] }) := fun u => .setCore u _ rfl
  refine DequesStand.trans (hcore s) (DequesStand.trans ?_ (enter_cases _ g).deques)
  exact .ofCores rfl

theorem takeTask_deques (s : State) (g : Nat) (x : Task) (j : Option Nat) : DequesStand s (takeTask s g x j) :=
  DequesStand.trans (u := s.modThread g fun t =>
    { ((t.fill 30 x.frame).fill 1 x.a0).fill 2 x.a1 with jcell := j, pc := x.pc }) (.ofCores rfl) (enterTaken_deques _ g)

/-- A thread that leaves its wait enters no earlier than the next clock, without a line of its own. -/
def waitLeft (t : Thread) (c : Nat) : Thread :=
  { t.notBefore (c + 1) with status := .ready, pass := [], port := none, line := none }

theorem enterTaken_entered (s : State) (g : Nat) :
    Entered (waitLeft (s.thread g) (s.core (coreOf g)).clock) ((enterTaken s g).thread g) := by
  have hleft : ∀ (u : State) (f h : Thread → Thread) (x : State → State), (∀ v, (x v).thread g = v.thread g) →
      ((x (u.modThread g f)).modThread g h).thread g = h (f (u.thread g)) := fun u f h x hx => by
    rw [State.thread_mod, hx, State.thread_mod]
  have h := hleft s (fun t => { t.notBefore ((s.core (coreOf g)).clock + 1) with status := .ready, pass := [], port := none })
    (fun t => { t with line := none }) (fun u =>
      let v := u.modCore (coreOf g) fun x => { x with lines := [] }
      { v with traffic := v.traffic.map (Req.outdate g) }) fun _ => rfl
  rw [waitLeft, ← h]
  exact enter_entered _ g

/-- The thread with the registers of a record. -/
def recordThread (t : Thread) (x : Task) (j : Option Nat) : Thread :=
  { ((t.fill 30 x.frame).fill 1 x.a0).fill 2 x.a1 with jcell := j, pc := x.pc }

theorem takeTask_entered (s : State) (g : Nat) (x : Task) (j : Option Nat) :
    Entered (waitLeft (recordThread (s.thread g) x j) (s.core (coreOf g)).clock) ((takeTask s g x j).thread g) := by
  have h := enterTaken_entered (s.modThread g fun t => recordThread t x j) g
  rw [State.thread_mod] at h
  exact h

/-- The thread that takes a record is at its pc with its frame and arguments (R265). -/
theorem takeTask_thread (s : State) (g : Nat) (x : Task) (j : Option Nat) :
    let t := (takeTask s g x j).thread g
    t.pc = x.pc ∧ (t.reg 30).val = x.frame ∧ (t.reg 1).val = x.a0 ∧ (t.reg 2).val = x.a1 := by
  have h := takeTask_entered s g x j
  have hpend : ∀ r ∈ [(30 : Fin 32), 1, 2], ∀ p ∈ (waitLeft (recordThread (s.thread g) x j) (s.core (coreOf g)).clock).pend,
      p.reg ≠ r := by
    intro r hr p hp
    simp only [waitLeft, Thread.notBefore, recordThread, Thread.fill, List.mem_filter, bne_iff_ne] at hp
    obtain ⟨⟨⟨-, h30⟩, h1⟩, h2⟩ := hp
    simp only [List.mem_cons, List.not_mem_nil, or_false] at hr
    rcases hr with rfl | rfl | rfl <;> assumption
  refine ⟨h.pc, ?_, ?_, ?_⟩
  · rw [h.val (hpend 30 (by simp))]
    simp [waitLeft, Thread.notBefore, recordThread, Thread.fill, Thread.reg]
  · rw [h.val (hpend 1 (by simp))]
    simp [waitLeft, Thread.notBefore, recordThread, Thread.fill, Thread.reg]
  · rw [h.val (hpend 2 (by simp))]
    simp [waitLeft, Thread.notBefore, recordThread, Thread.fill, Thread.reg]

end Sys2Proof.Machine
end

section
/-! PROOFS. Steals and placements of the dispenser (spec/14 R271, R272, R279). -/

namespace Sys2Proof.Machine

open Sys2Proof.Claims

/-! ### Places of a deque -/

/-- The entry that replaces another stands in its place. -/
theorem setEntry_entries (x : Core) {i : Nat} (e : DEntry) (h : i < x.entries.length) : (x.setEntry i e).entries[i]? = some e := by
  rw [Core.entries, List.length_append] at h
  unfold Core.setEntry
  split
  · next hi =>
    rw [Core.entries, List.getElem?_append_left (by rwa [List.length_set]), List.getElem?_set_self hi]
  · next hi =>
    have hplace : i - x.deque.length < x.spilled.length := by omega
    rw [Core.entries, List.getElem?_append_right (Nat.le_of_not_lt hi)]
    exact List.getElem?_set_self hplace

/-- The topmost record of a launch has a place in the deque. -/
theorem topmostOf_place {x : Core} {lk i : Nat} {e : DEntry} (h : topmostOf x lk = some (i, e)) : i < x.entries.length := by
  unfold topmostOf at h
  obtain ⟨p, hp, hpe⟩ := Option.map_eq_some_iff.mp h
  obtain ⟨rfl, rfl⟩ := Prod.mk.inj hpe
  have hmem : (p.1, p.2) ∈ x.entries.zipIdx := List.mem_reverse.mp (List.mem_of_find?_eq_some hp)
  exact (List.mem_zipIdx' hmem).1

/-! ### Steals (R271, R272) -/

/-- The state of a thief whose port has answered and whose next victim it has tried. -/
def triedNext (s : State) (g victim : Nat) : State :=
  (portsDone s g (stealReads s g victim)).modThread g fun t =>
    { t with pass := (if (s.thread g).pass = [] then stealPass s g else (s.thread g).pass).drop 1
             tried := t.tried.set (victimClass (coreOf g) victim) (some (logicalCore s victim)) }

section
variable {s : State} {g victim : Nat} (hg : g < Config.threads) (hv : victim < Config.cores) (hmay : mayTry s g victim = true)
  (hp : (if (s.thread g).pass = [] then stealPass s g else (s.thread g).pass).head? = some victim)
include hg hv hmay hp

theorem stealRequest_asks (h : portsReady s g (stealReads s g victim) = false) :
    exec (.stealRequest g victim) s = .next (portsAsk s g (stealReads s g victim)) := by
  show execStealRequest g victim s = _
  unfold execStealRequest
  simp only [List.isEmpty_iff, hg, hv, hmay, hp, h, and_self, if_true, Bool.not_true, Bool.not_false, Bool.false_eq_true, if_false,
    ne_eq, not_true_eq_false]

theorem stealRequest_tries (h : portsReady s g (stealReads s g victim) = true) :
    exec (.stealRequest g victim) s =
      .next ((stealTake (triedNext s g victim) g victim).getD (triedNext s g victim)) := by
  have hlogical : logicalCore (portsDone s g (stealReads s g victim)) victim = logicalCore s victim := by
    obtain ⟨_, _, h⟩ := portsDone_cases s g (stealReads s g victim)
    rw [h]
    rfl
  show execStealRequest g victim s = _
  unfold execStealRequest
  simp only [List.isEmpty_iff, hg, hv, hmay, hp, h, and_self, if_true, Bool.not_true, Bool.false_eq_true, if_false,
    ne_eq, not_true_eq_false, hlogical]
  rfl

end

theorem triedNext_core (s : State) (g victim k : Nat) : (triedNext s g victim).core k = s.core k := by
  obtain ⟨_, _, h⟩ := portsDone_cases s g (stealReads s g victim)
  rw [triedNext, h]
  rfl

theorem triedNext_launch (s : State) (g victim : Nat) : ((triedNext s g victim).thread g).launch = (s.thread g).launch := by
  obtain ⟨_, h⟩ := portsDone_thread s g (stealReads s g victim)
  rw [triedNext, State.thread_mod, h]

/-- Without a record nothing is taken. -/
theorem stealTake_none {v : State} {g victim : Nat} (h : topmostOf (v.core victim) (v.thread g).launch = none) :
    stealTake v g victim = none := by
  rw [stealTake, stealFind, h]
  rfl

/-- A take leaves a marker at the place of its record (R272). -/
theorem stealTake_marker {v u : State} {g victim i : Nat} {e : DEntry} (h : topmostOf (v.core victim) (v.thread g).launch = some (i, e))
    (hu : stealTake v g victim = some u) : ∃ c, (u.core victim).entries[i]? =
      some { takenEntry v victim i e with marker := true, jcell := some c, task := ⟨0, 0, 0, 0⟩ } := by
  rw [stealTake, stealFind, h] at hu
  obtain ⟨⟨i', e', c⟩, hf, rfl⟩ := Option.map_eq_some_iff.mp hu
  obtain ⟨c', -, hc⟩ := Option.map_eq_some_iff.mp hf
  obtain ⟨hi, hc⟩ := Prod.mk.inj hc
  obtain ⟨he, rfl⟩ := Prod.mk.inj hc
  subst hi he
  refine ⟨c', ?_⟩
  dsimp only
  rw [takeTask_deques, putDeque_core]
  refine setEntry_entries _ _ ?_
  have hw : Written v (if (takenEntry v victim i e).jcell.isSome then
      cellWrite (takenCount v victim i) g c' 0 8 (cellRead (takenCount v victim i) (v.launch (v.thread g).launch) c' 0 8 + 1)
      else cellWrite (cellWrite (takenCount v victim i) g c' 0 8 1) g c' 8 1 1) := by
    split
    · exact (Written.takenCount _ _ _).trans (.cellWrite _ _ _ _ _ _)
    · exact ((Written.takenCount _ _ _).trans (.cellWrite _ _ _ _ _ _)).trans (.cellWrite _ _ _ _ _ _)
  have hcore := hw.core victim
  exact lt_of_lt_of_eq (topmostOf_place h) (congrArg (fun x => x.entries.length) hcore).symm

/-! ### Placements (R279) -/

/-- A dispenser's queue and its places are read from memory alone. -/
theorem readBack_tile {s u : State} (h : SameMemory s u) (ht : u.tiles = s.tiles) (hl : u.launches = s.launches) (T k : Nat) :
    (readBack u T k).tile T = (readBack s T k).tile T := by
  have htile : u.tile T = s.tile T := by rw [State.tile, State.tile, ht]
  have hlaunch : ∀ l, u.launch l = s.launch l := fun l => by rw [State.launch, State.launch, hl]
  have haddr : dispAddr u T k = dispAddr s T k := by
    have hlog : logicalTile u T = logicalTile s T := by
      simp only [logicalTile, berthOwner, State.owner, h.owners]
    simp only [dispAddr, htile, hlaunch, hlog]
  have hlost : ∀ o a n, engineLost u o a n = engineLost s o a n := fun o a n => by
    simp only [engineLost, h.enginePhys, h.poison]
  unfold readBack
  rw [haddr, htile]
  split
  · simp only [hlaunch, hlost]
    split
    · rw [State.tile_mod, State.tile_mod, (Written.engineCount _ _ _ _).tile, (Written.engineCount _ _ _ _).tile, htile]
    · rw [(Written.engineCount _ _ _ _).tile, (Written.engineCount _ _ _ _).tile, htile]
  · exact htile

/-- What is read back leaves the other records as they were, and of its own all but the task. -/
theorem readBack_record {s : State} {T i : Nat} {r : DRec} (k : Nat) (h : (s.tile T).disp[i]? = some r) :
    ∃ z, ((readBack s T k).tile T).disp[i]? = some { r with task := z } := by
  unfold readBack
  split
  · next r' a hr ha =>
    dsimp only
    split
    · rw [State.tile_mod, (Written.engineCount _ _ _ _).tile]
      by_cases hk : k = i
      · subst hk
        obtain rfl := Option.some.inj (hr.symm.trans h)
        exact ⟨_, List.getElem?_set_self (List.getElem?_eq_some_iff.mp hr).1⟩
      · exact ⟨r.task, (List.getElem?_set_ne hk).trans h⟩
    · rw [(Written.engineCount _ _ _ _).tile]
      exact ⟨r.task, h⟩
  · exact ⟨r.task, h⟩

/-- A queue without spilled records is not read back. -/
theorem readBack_unspilled {s : State} {T : Nat} (i : Nat) (h : (s.tile T).disp.length ≤ 64) : readBack s T (backIdx i) = s := by
  have hnone : (s.tile T).disp[backIdx i]? = none := List.getElem?_eq_none (h.trans (Nat.le_max_right i 64))
  unfold readBack
  rw [hnone]

theorem enterTaken_control (s : State) (g : Nat) : ControlOnly s (enterTaken s g) := by
  unfold enterTaken syncLines
  exact ControlOnly.trans ⟨_, _, _, _, _, _, _, _, _, rfl⟩ (enter_control _ g)

theorem takeTask_tile (s : State) (g : Nat) (x : Task) (j : Option Nat) (T : Nat) : (takeTask s g x j).tile T = s.tile T :=
  (enterTaken_control _ g).tile T

/-- A record that is no resume is taken once it has left the dispenser (R279). -/
theorem giveRecord_takes {s : State} {T i g : Nat} {r : DRec} {z : Task} (k : Fin 5)
    (h : ((readBack s T (backIdx i)).tile T).disp[i]? = some { r with task := z }) (hr : r.resume = none) :
    ∃ v, giveRecord s T i r k g = takeTask v g z none ∧
      (v.tile T).disp = ((readBack s T (backIdx i)).tile T).disp.eraseIdx i := by
  have hlate : SameMemory s (latePort s T (s.tile T).back) ∧ (latePort s T (s.tile T).back).tiles = s.tiles ∧
      (latePort s T (s.tile T).back).launches = s.launches := by
    unfold latePort lateAnswer
    split
    · exact ⟨⟨rfl, rfl, rfl, rfl, rfl⟩, rfl, rfl⟩
    · exact ⟨⟨rfl, rfl, rfl, rfl, rfl⟩, rfl, rfl⟩
  obtain ⟨hmem, htiles, hlaunches⟩ := hlate
  have hw := readBack_tile hmem htiles hlaunches T (backIdx i)
  unfold giveRecord
  dsimp only
  rw [hw, h, Option.getD_some]
  dsimp only
  rw [hr]
  refine ⟨_, rfl, ?_⟩
  refine (congrArg Tile.disp ((Written.dispMirror _ T).tile T)).trans ?_
  rw [State.tile_mod, hw]

/-- Such a record starts its worker (R265). -/
theorem giveRecord_starts {s : State} {T i g : Nat} {r : DRec} (k : Fin 5) (h : (s.tile T).disp[i]? = some r) (hr : r.resume = none) :
    let w := (readBack s T (backIdx i)).tile T
    let u := giveRecord s T i r k g
    ∃ y, w.disp[i]? = some y ∧ (u.tile T).disp = w.disp.eraseIdx i ∧
      (u.thread g).pc = y.task.pc ∧ ((u.thread g).reg 30).val = y.task.frame ∧
      ((u.thread g).reg 1).val = y.task.a0 ∧ ((u.thread g).reg 2).val = y.task.a1 ∧
      ((s.tile T).disp.length ≤ 64 → w.disp = (s.tile T).disp ∧ y = r) := by
  intro w u
  obtain ⟨z, hz⟩ := readBack_record (backIdx i) h
  obtain ⟨v, hu, hv⟩ := giveRecord_takes (g := g) k hz hr
  have hu' : u = takeTask v g z none := hu
  obtain ⟨hpc, h30, h1, h2⟩ := takeTask_thread v g z none
  rw [← hu'] at hpc h30 h1 h2
  refine ⟨{ r with task := z }, hz, ?_, hpc, h30, h1, h2, fun hlen => ?_⟩
  · rw [hu', takeTask_tile, hv]
  · have hsame := readBack_unspilled i hlen
    rw [hsame] at hz
    exact ⟨congrArg (fun u => (u.tile T).disp) hsame, Option.some.inj (hz.symm.trans h)⟩

/-- The dispenser of an open tile gives a record that is no resume to its candidate, or asks the port for the spilled record that
comes back (R333). -/
theorem dispenserPlacement_places {s : State} {T i g : Nat} {r : DRec} {k : Fin 5} (hT : T < Config.tiles)
    (hback : (s.tile T).back.any (fun p => !p.answered s) = false) (hplaced : nextPlaced s T = some (i, r, k, g))
    (hT' : tileClosed s T = false) (hg : tileClosed s (tileOf g) = false) (hr : r.resume = none) :
    exec (.dispenserPlacement T) s =
      if (backPort s T i).any (fun p => (s.tile T).back.all (·.addr != p.addr)) = true then
        .next (s.setTile T { s.tile T with back := backPort s T i })
      else .next (giveRecord s T i r k g) := by
  have hnone : (s.tile T).back.filter (fun p => !p.answered s) = none := by
    cases hb : (s.tile T).back with
    | none => rfl
    | some p =>
      rw [hb] at hback
      exact if_neg (ne_true_of_eq_false hback)
  have hready : portsReady s g ((none : Option Nat).toList.flatMap (cellReads s g)) = true := rfl
  show execDispenserPlacement T s = _
  unfold execDispenserPlacement
  simp only [hT, if_true, hnone, hplaced, hT', hg, hr, hready, Bool.false_eq_true, or_self, if_false, Bool.not_true]
  split <;> rfl

/-- Settles O30. -/
theorem taskEvents : Obligations.TaskEvents := by
  intro s g victim T hg hv hT hclosed t pass reads v
  refine ⟨fun hstatus haway hstop hclosed' hoff hp => ?_, fun i r k hplaced hclosedT hr => ?_⟩
  · have hmay : mayTry s g victim = true := by
      simp only [mayTry, hclosed, hclosed', hoff, Bool.not_false, Bool.and_true]
      rw [show (s.thread g).status = _ from hstatus, show (s.thread g).away = _ from haway, show (s.thread g).stopping = _ from hstop]
      rfl
    have hcore := triedNext_core s g victim victim
    have hlaunch := triedNext_launch s g victim
    refine ⟨stealRequest_asks hg hv hmay hp, fun hnone => ?_, fun i e u hready htop hu => ?_⟩
    · have hready : portsReady s g (stealReads s g victim) = true := by
        rw [stealReads, show topmostOf (s.core victim) (s.thread g).launch = none from hnone]
        rfl
      rw [stealRequest_tries hg hv hmay hp hready, stealTake_none (by rw [hcore, hlaunch]; exact hnone)]
      rfl
    · refine ⟨?_, stealTake_marker (v := v) (g := g) ?_ hu⟩
      · rw [stealRequest_tries hg hv hmay hp hready, show stealTake (triedNext s g victim) g victim = some u from hu]
        rfl
      · rw [show v.core victim = s.core victim from hcore, show (v.thread g).launch = t.launch from hlaunch]
        exact htop
  · intro x w hback
    have hrec : (s.tile T).disp[i]? = some r := by
      unfold nextPlaced at hplaced
      obtain ⟨p, hp, hpe⟩ := List.exists_of_findSome?_eq_some hplaced
      obtain ⟨c, -, hc⟩ := Option.map_eq_some_iff.mp hpe
      obtain ⟨hi, hc⟩ := Prod.mk.inj hc
      obtain ⟨hr, -⟩ := Prod.mk.inj hc
      rw [← hi, ← hr]
      exact List.mem_zipIdx_iff_getElem?.mp hp
    have hexec := dispenserPlacement_places hT hback hplaced hclosedT hclosed hr
    refine ⟨fun hasks => hexec.trans (if_pos hasks), fun hasks => ?_⟩
    obtain ⟨y, hy⟩ := giveRecord_starts k hrec hr
    exact ⟨_, y, hexec.trans (if_neg (ne_true_of_eq_false hasks)), hy⟩

end Sys2Proof.Machine
end

section
/-! PROOFS. The instructions of the floe class (spec/15 R286, R297 to R303). -/

namespace Sys2Proof.Machine

open Sys2Proof.Claims

/-! ### Slots -/

/-- The floe port reads memory alone. -/
theorem portRead_congr {s u : State} (hm : u.mem = s.mem) (hp : u.poison = s.poison) (key n : Nat) :
    portRead u key n = portRead s key n := by
  induction n generalizing key with
  | zero => rfl
  | succ n ih => simp only [portRead, ih, hm, hp]

theorem slotBytes_congr {s u : State} (hm : u.mem = s.mem) (hp : u.poison = s.poison) (ht : u.traffic = s.traffic) (T j k n : Nat) :
    slotBytes u T j k n = slotBytes s T j k n := by
  rw [slotBytes, slotBytes, portRead_congr hm hp, ht]

theorem portRead_landed (s : State) (key n : Nat) : portRead (landed s) key n = portRead s key n :=
  portRead_congr (s := s) (u := landed s) rfl rfl key n

theorem slotNat_landed (s : State) (T j k n : Nat) : slotNat (landed s) T j k n = slotNat s T j k n :=
  congrArg natOfBytes (slotBytes_congr (s := s) (u := landed s) rfl rfl rfl T j k n)

theorem slotEntries_landed (s : State) (T j : Nat) : slotEntries (landed s) T j = slotEntries s T j := by
  simp only [slotEntries, slotBytes_congr (s := s) (u := landed s) rfl rfl rfl]

theorem slotNat_consume (s : State) (g : Nat) (ss : List Src) (T j k n : Nat) :
    slotNat (consume s g ss) T j k n = slotNat s T j k n := by
  obtain ⟨_, _, _, _, _, h⟩ := consume_module s g ss
  exact congrArg natOfBytes (slotBytes_congr (by rw [h]) (by rw [h]) (by rw [h]) T j k n)

theorem consume_cur (s : State) (g : Nat) (ss : List Src) : (consume s g ss).cur = s.cur := by
  obtain ⟨_, _, _, _, _, h⟩ := consume_module s g ss
  rw [h]

theorem whoIn_consume (s : State) (g : Nat) (ss : List Src) : whoIn (consume s g ss) g = whoIn s g := by
  obtain ⟨_, h⟩ := consume_reads s g ss
  exact h.who

theorem whoIn_servePort (s : State) (g : Nat) (banks : List Nat) (h : Nat) : whoIn (servePort s g banks) h = whoIn s h := rfl

/-! ### Handles (R286) -/

theorem floeOn_ok {s : State} {g : Nat} (n : RegNum) (h : floesOn s (berthOf (tileOf g)) = true) : floeOn s g n = .ok () := if_pos h

theorem handleSlot_ok {s : State} {v : Word} {j : Nat} (n : RegNum) (h : Handle s v j) : handleSlot (landed s) s.cur n v = .ok j := by
  obtain ⟨-, rfl, hj, hstate⟩ := h
  exact if_pos ⟨hj, hstate⟩

/-- An instruction on the floe of a handle completes with its effect. -/
theorem handle_completes {s : State} {i : Instr} {st : Stall} {a : RegNum} {behind : Bool} {f : State → Nat → State} {o : Opnds} {j : Nat}
    (hi : exec i s = handleOp st a behind f s) (h : Ready s [a] [] o) (hh : Handle s (o.v 0) j)
    (hb : behind = true → Meets s [.slot j]) : Completes s i st (f (consume (landed s) s.cur o.srcs) j) none := by
  refine acts_ok (hi.trans (show handleOp st a behind f s = runInstr s s.cur false _ from rfl)) ?_
  refine (passes h).trans ?_
  refine (passes (floeOn_ok a hh.1)).trans ?_
  refine (passes (handleSlot_ok a hh)).trans ?_
  cases behind with
  | false => rfl
  | true => exact (passes (require_ok (hb rfl))).trans rfl

section
variable {s : State} {st : Stall} {a : RegNum} {o : Opnds} {j : Nat} (h : Ready s [a] [] o) (hh : Handle s (o.v 0) j)
include h hh

theorem flsend_sends : Completes s (.flsend st a) st (sendSlot (consume (landed s) s.cur o.srcs) s.cur j) none := by
  have hc := handle_completes (i := .flsend st a) (f := fun s j => sendSlot s s.cur j) rfl h hh nofun
  rwa [consume_cur, landed_cur] at hc

theorem fldrop_frees (hm : Meets s [.slot j]) :
    Completes s (.fldrop st a) st (setSlot (consume (landed s) s.cur o.srcs) (tileOf s.cur) j .free) none := by
  have hc := handle_completes (i := .fldrop st a) (f := fun s j => setSlot s (tileOf s.cur) j .free) (behind := true) rfl h hh fun _ => hm
  rwa [consume_cur, landed_cur] at hc

theorem flpark_parks (hm : Meets s [.slot j]) :
    Completes s (.flpark st a) st (parkSlot (consume (landed s) s.cur o.srcs) (tileOf s.cur) j 6) none := by
  have hc := handle_completes (i := .flpark st a) (f := fun s j => parkSlot s (tileOf s.cur) j 6) (behind := true) rfl h hh fun _ => hm
  rwa [consume_cur, landed_cur] at hc

/-- `flnext` (R299). -/
theorem flnext_goes :
    let T := tileOf s.cur
    let index := slotNat s T j 2 1
    let next := slotWrite (consume (landed s) s.cur o.srcs) (whoIn s s.cur) T j 2 (bytesOfNat 1 (index + 1))
    Completes s (.flnext st a) st
      (if index + 1 = slotNat s T j 1 1 then setSlot next T j .free else sendSlot next s.cur j) none := by
  intro T index next
  have hc := handle_completes (i := .flnext st a) (f := fun s j =>
    let T := tileOf s.cur
    let i := slotNat s T j 2 1 + 1
    let s' := slotWrite s (whoIn s s.cur) T j 2 (bytesOfNat 1 i)
    if i = slotNat s T j 1 1 then setSlot s' T j .free else sendSlot s' s.cur j) (behind := false) rfl h hh nofun
  dsimp only at hc
  rwa [consume_cur, landed_cur, slotNat_consume, slotNat_landed, slotNat_consume, slotNat_landed, whoIn_consume, whoIn_landed] at hc

end

/-! ### Rewrites (R301) -/

/-- A slot's header and entries as a rewrite that answers `r` leaves them. -/
def rewritten (v : State) (g j : Nat) (r : Nat × Nat × List (List Byte)) : State :=
  writeItinerary v (whoIn v g) (tileOf g) j r.1 r.2.1 r.2.2

section
variable {s : State} {i : Instr} {st : Stall} {a b : RegNum} {o : Opnds} {j : Nat}
  {f : Nat → Nat → List (List Byte) → List Byte → Option (Nat × Nat × List (List Byte))} {r : Nat × Nat × List (List Byte)}

/-- A rewrite without an image. -/
theorem rewrite_completes (hi : exec i s = rewriteOp st a none f s) (h : Ready s [a] [] o) (hh : Handle s (o.v 0) j)
    (hf : f (slotNat s (tileOf s.cur) j 1 1) (slotNat s (tileOf s.cur) j 2 1) (slotEntries s (tileOf s.cur) j) [] = some r) :
    Completes s i st (rewritten (consume (landed s) s.cur o.srcs) s.cur j r) none := by
  refine acts_ok (hi.trans (show rewriteOp st a none f s = runInstr s s.cur false _ from rfl)) ?_
  refine (passes h).trans ?_
  refine (passes (floeOn_ok a hh.1)).trans ?_
  refine (passes (handleSlot_ok a hh)).trans ?_
  refine (passes (x := Except.ok (0, [], landed s)) rfl).trans ?_
  refine (if_neg nofun).trans ?_
  refine (if_neg fun hn => hn rfl).trans ?_
  rw [landed_cur, slotNat_landed, slotNat_landed, slotEntries_landed]
  dsimp only
  rw [hf]
  rfl

variable {ad : Word} {e : List Byte} {z : State}

section
variable (hi : exec i s = rewriteOp st a (some b) f s) (h : Ready s [a, b] [] o) (hh : Handle s (o.v 0) j)
  (hz : imageLoad (landed s) s.cur (o.v 1) 16 16 (some j) = .ok (ad, e, z))
include hi h hh hz

/-- One that reads its entry's image asks the port first (R333). -/
theorem rewrite_asks (hp : portReady (landed s) s.cur ad 1 = false) : Asks s i (some (ad, 1)) := by
  refine asks_of (hi.trans (show rewriteOp st a (some b) f s = runInstr s s.cur false _ from rfl)) ?_
  refine (passes h).trans ?_
  refine (passes (floeOn_ok a hh.1)).trans ?_
  refine (passes (handleSlot_ok a hh)).trans ?_
  refine (passes hz).trans ?_
  refine (if_pos ⟨rfl, ?_⟩).trans rfl
  show (!portReady (landed s) s.cur ad 1) = true
  rw [hp]
  rfl

theorem rewriteImage_completes (hp : portReady (landed s) s.cur ad 1 = true) (he : imgNat e 3 5 = 0)
    (hf : f (slotNat s (tileOf s.cur) j 1 1) (slotNat s (tileOf s.cur) j 2 1) (slotEntries s (tileOf s.cur) j) e = some r) :
    Completes s i st (rewritten (consume (portDone z s.cur ad) s.cur o.srcs) s.cur j r) none := by
  refine acts_ok (hi.trans (show rewriteOp st a (some b) f s = runInstr s s.cur false _ from rfl)) ?_
  refine (passes h).trans ?_
  refine (passes (floeOn_ok a hh.1)).trans ?_
  refine (passes (handleSlot_ok a hh)).trans ?_
  refine (passes hz).trans ?_
  refine (if_neg fun hn => ?_).trans ?_
  · have hn' : (!portReady (landed s) s.cur ad 1) = true := hn.2
    rw [hp] at hn'
    cases hn'
  refine (if_neg fun hn => hn he).trans ?_
  rw [landed_cur, slotNat_landed, slotNat_landed, slotEntries_landed]
  dsimp only
  rw [hf]
  rfl

end
end

/-- The image is read in a state in which its banks serve the port, and what is counted of the read. -/
theorem imageLoad_written (s : State) (g : Nat) (off : Word) (n align : Nat) (slot : Option Nat) :
    Yields (fun x => ∃ banks, Written (servePort s g banks) x.2.2) (imageLoad s g off n align slot) := by
  have hread : ∀ (r : ChanRead) (a : Word), Yields (fun x => ∃ banks, Written (servePort s g banks) x.2.2)
      (Pure.pure (a, r.bytes, countBad (countDrop (servePort s g r.banks) (s.thread g).owner r.dropped) (whoIn s g) r.bad)) := by
    refine fun r a => .pure ⟨r.banks, Written.trans ?_ (.countBad _ _ _)⟩
    unfold countDrop
    split
    · exact .gateCount _ _ _
    · exact .refl _
  unfold imageLoad
  refine .bind fun a _ => .bind fun _ _ => ?_
  dsimp only
  split
  on_goal 1 => refine .bind fun _ _ => ?_
  all_goals
    refine .bind fun _ _ => .bind fun _ _ => .bind fun _ _ => ?_
    split
    · exact .throw _
    · exact .throw _
    · exact .bind fun _ _ => hread _ a

section
variable {s z : State} {g : Nat} {off : Word} {n align : Nat} {slot : Option Nat} {ad : Word} {e : List Byte}
  (hz : imageLoad s g off n align slot = .ok (ad, e, z))
include hz

/-- Where the image has been read and the port's answer taken: the issuer is the same, and so are the tiles. -/
theorem imageLoad_who : whoIn (portDone z g ad) g = whoIn s g := by
  obtain ⟨banks, hw⟩ := imageLoad_written s g off n align slot _ hz
  obtain ⟨_, hd⟩ := hw.thread g
  have hdone : (portDone z g ad).thread g = { z.thread g with port := none } := by
    rw [portDone, State.thread_mod, latePort, lateAnswer]
    split <;> rfl
  simp only [whoIn, hdone, hd]
  rfl

theorem imageLoad_tile (T : Nat) : (portDone z g ad).tile T = s.tile T := by
  obtain ⟨banks, hw⟩ := imageLoad_written s g off n align slot _ hz
  have hdone : (portDone z g ad).tile T = z.tile T := by
    unfold portDone latePort lateAnswer
    split <;> rfl
  rw [hdone]
  exact hw.tile T

/-- The state of a rewrite from an image. -/
theorem rewritten_image (ss : List Src) (j : Nat) (r : Nat × Nat × List (List Byte)) :
    rewritten (consume (portDone z g ad) g ss) g j r =
      writeItinerary (consume (portDone z g ad) g ss) (whoIn s g) (tileOf g) j r.1 r.2.1 r.2.2 := by
  rw [rewritten, whoIn_consume, imageLoad_who hz]

end

/-- The rewrites of `fldel`, `flrw` and `flins` (R301). -/
def deletedStop (k : Nat) (count index : Nat) (es : List (List Byte)) (_ : List Byte) : Option (Nat × Nat × List (List Byte)) :=
  if k < count ∧ k ≠ index then some (count - 1, if k < index then index - 1 else index, es.eraseIdx k ++ [List.replicate 16 0])
  else none

def replacedStop (k : Nat) (count index : Nat) (es : List (List Byte)) (e : List Byte) : Option (Nat × Nat × List (List Byte)) :=
  if k < count then some (count, index, es.set k e) else none

def insertedStop (k : Nat) (count index : Nat) (es : List (List Byte)) (e : List Byte) : Option (Nat × Nat × List (List Byte)) :=
  if k ≤ count ∧ count < 8 then some (count + 1, if k ≤ index then index + 1 else index, (es.take k ++ e :: es.drop k).take 8)
  else none

section
variable {s : State} {st : Stall} {a b : RegNum} {o : Opnds} {j : Nat} (k : BitVec 3)

theorem fldel_deletes (h : Ready s [a] [] o) (hh : Handle s (o.v 0) j) (hk : k.toNat < slotNat s (tileOf s.cur) j 1 1)
    (hi : k.toNat ≠ slotNat s (tileOf s.cur) j 2 1) :
    Completes s (.fldel st a k) st (writeItinerary (consume (landed s) s.cur o.srcs) (whoIn s s.cur) (tileOf s.cur) j
      (slotNat s (tileOf s.cur) j 1 1 - 1)
      (if k.toNat < slotNat s (tileOf s.cur) j 2 1 then slotNat s (tileOf s.cur) j 2 1 - 1 else slotNat s (tileOf s.cur) j 2 1)
      ((slotEntries s (tileOf s.cur) j).eraseIdx k.toNat ++ [List.replicate 16 0])) none := by
  have hc := rewrite_completes (i := .fldel st a k) (f := deletedStop k.toNat) rfl h hh (if_pos ⟨hk, hi⟩)
  rwa [rewritten, whoIn_consume, whoIn_landed] at hc

variable {ad : Word} {e : List Byte} {z : State} (h : Ready s [a, b] [] o) (hh : Handle s (o.v 0) j)
  (hz : imageLoad (landed s) s.cur (o.v 1) 16 16 (some j) = .ok (ad, e, z)) (hp : portReady (landed s) s.cur ad 1 = true)
  (he : imgNat e 3 5 = 0)
include h hh hz hp he

theorem flrw_rewrites (hk : k.toNat < slotNat s (tileOf s.cur) j 1 1) :
    Completes s (.flrw st a b k) st (writeItinerary (consume (portDone z s.cur ad) s.cur o.srcs) (whoIn s s.cur) (tileOf s.cur) j
      (slotNat s (tileOf s.cur) j 1 1) (slotNat s (tileOf s.cur) j 2 1)
      ((slotEntries s (tileOf s.cur) j).set k.toNat e)) none := by
  have hc := rewriteImage_completes (i := .flrw st a b k) (f := replacedStop k.toNat) rfl h hh hz hp he (if_pos hk)
  rwa [rewritten_image hz, whoIn_landed] at hc

theorem flins_inserts (hk : k.toNat ≤ slotNat s (tileOf s.cur) j 1 1) (h8 : slotNat s (tileOf s.cur) j 1 1 < 8) :
    Completes s (.flins st a b k) st (writeItinerary (consume (portDone z s.cur ad) s.cur o.srcs) (whoIn s s.cur) (tileOf s.cur) j
      (slotNat s (tileOf s.cur) j 1 1 + 1)
      (if k.toNat ≤ slotNat s (tileOf s.cur) j 2 1 then slotNat s (tileOf s.cur) j 2 1 + 1 else slotNat s (tileOf s.cur) j 2 1)
      (((slotEntries s (tileOf s.cur) j).take k.toNat ++ e :: (slotEntries s (tileOf s.cur) j).drop k.toNat).take 8)) none := by
  have hc := rewriteImage_completes (i := .flins st a b k) (f := insertedStop k.toNat) rfl h hh hz hp he (if_pos ⟨hk, h8⟩)
  rwa [rewritten_image hz, whoIn_landed] at hc

end

/-! ### Payload and header (R298) -/

theorem payloadOk_landed (s : State) (T j off size : Nat) : payloadOk (landed s) T j off size = payloadOk s T j off size := by
  rw [payloadOk, payloadOk, slotNat_landed]

theorem flput_puts {s : State} {st : Stall} {z : Width} {a b : RegNum} {off : BitVec 12} {o : Opnds} {j : Nat}
    (h : Ready s [a, b] [] o) (hh : Handle s (o.v 1) j) (hp : payloadOk s (tileOf s.cur) j off.toNat (widthBytes z) = true) :
    Completes s (.flput st z a b off) st (slotWrite (consume (landed s) s.cur o.srcs) (whoIn s s.cur) (tileOf s.cur) j
      (192 + off.toNat) (bytesOfNat (widthBytes z) (o.v 0).toNat)) none := by
  refine acts_ok (show execFlput st z a b off s = runInstr s s.cur false _ from rfl) ?_
  refine (passes h).trans ?_
  refine (passes (floeOn_ok b hh.1)).trans ?_
  refine (passes (handleSlot_ok b hh)).trans ?_
  rw [landed_cur, payloadOk_landed, hp]
  refine (if_neg nofun).trans ?_
  dsimp only
  rw [whoIn_consume, whoIn_landed]
  rfl

theorem natOfBytes_lt (l : List Byte) : natOfBytes l < 2 ^ (8 * l.length) := by
  induction l with
  | nil => exact Nat.one_pos
  | cons b l ih =>
    have hb : b.toNat < 256 := b.isLt
    rw [natOfBytes, List.length_cons, Nat.mul_add, Nat.pow_add]
    omega

theorem portRead_length (s : State) (key n : Nat) : (portRead s key n).1.length = n := by
  induction n generalizing key with
  | zero => rfl
  | succ n ih =>
    rw [portRead]
    split <;> rw [List.length_cons, ih]

/-- A number of `m` bits as the floe port delivers it, sign-extended by hand. -/
theorem signed_eq {m x : Nat} (hm : m ≤ 64) (hx : x < 2 ^ m) :
    (if 2 ^ (m - 1) ≤ x then BitVec.ofNat 64 (2 ^ 64 + x - 2 ^ m) else BitVec.ofNat 64 x) = (BitVec.ofNat m x).signExtend 64 := by
  have h64 : (2 : Nat) ^ m ≤ 2 ^ 64 := Nat.pow_le_pow_right (by omega) hm
  apply BitVec.eq_of_toNat_eq
  rw [BitVec.toNat_signExtend, BitVec.msb_eq_decide, BitVec.toNat_setWidth, BitVec.toNat_ofNat, Nat.mod_eq_of_lt hx,
    Nat.mod_eq_of_lt (lt_of_lt_of_le hx h64)]
  by_cases hs : 2 ^ (m - 1) ≤ x
  · rw [if_pos hs, if_pos (decide_eq_true hs), BitVec.toNat_ofNat, Nat.mod_eq_of_lt (by omega)]
    omega
  · rw [if_neg hs, if_neg (by simpa using hs), BitVec.toNat_ofNat, Nat.mod_eq_of_lt (by omega), Nat.add_zero]

/-- What the floe port delivers of `n` bytes of a slot. -/
def portValue (n : Nat) (signed : Bool) (bytes : List Byte) : Word :=
  let v := BitVec.ofNat (8 * n) (natOfBytes bytes)
  if signed then v.signExtend 64 else v.setWidth 64

/-- A read of the slot of a handle gives its bytes, extended. -/
theorem slotGet_gives {s : State} {i : Instr} {st : Stall} {d a : RegNum} {f : State → Nat → Except Stop (Nat × Nat × Bool)} {o : Opnds}
    {j k n : Nat} {signed : Bool} (hi : exec i s = slotGet st d a f s) (h : Ready s [a] [d] o) (hh : Handle s (o.v 0) j)
    (hm : Meets s [.slot j]) (hf : f (landed s) j = .ok (k, n, signed)) (hn : n ≤ 8) :
    let x := portRead s (slotKey (tileOf s.cur) j k) n
    Completes s i st (fillNow (consume (countBad (servePort (landed s) s.cur [slotBank (tileOf s.cur) j]) (whoIn s s.cur) x.2) s.cur o.srcs)
      s.cur (clockOf s) (o.d 0) (portValue n signed x.1)) none := by
  intro x
  have hread : portRead (landed s) (slotKey (tileOf s.cur) j k) n = x := portRead_landed s _ n
  have hlt : natOfBytes x.1 < 2 ^ (8 * n) := by
    have hlen := natOfBytes_lt x.1
    rwa [portRead_length] at hlen
  refine acts_ok (hi.trans (show slotGet st d a f s = runInstr s s.cur false _ from rfl)) ?_
  refine (passes h).trans ?_
  refine (passes (floeOn_ok a hh.1)).trans ?_
  refine (passes (handleSlot_ok a hh)).trans ?_
  refine (passes hf).trans ?_
  refine (passes (require_ok hm)).trans ?_
  rw [landed_cur]
  dsimp only
  rw [hread]
  have hvalue : (if signed = true ∧ 2 ^ (8 * n - 1) ≤ natOfBytes x.1 then BitVec.ofNat 64 (2 ^ 64 + natOfBytes x.1 - 2 ^ (8 * n))
      else BitVec.ofNat 64 (natOfBytes x.1)) = portValue n signed x.1 := by
    unfold portValue
    cases signed with
    | false =>
      refine (if_neg fun h => nomatch h.1).trans ?_
      apply BitVec.eq_of_toNat_eq
      have h64 : (2 : Nat) ^ (8 * n) ≤ 2 ^ 64 := Nat.pow_le_pow_right (by omega) (by omega)
      simp only [Bool.false_eq_true, if_false, BitVec.toNat_setWidth, BitVec.toNat_ofNat, Nat.mod_eq_of_lt hlt]
    | true =>
      have hs := signed_eq (by omega) hlt
      simpa using hs
  rw [hvalue, whoIn_servePort, whoIn_landed]
  rfl

theorem headerField_size {f k n : Nat} (h : headerField f = some (k, n)) : n ≤ 8 := by
  have hn : ∀ {a b : Nat}, b ≤ 8 → some (a, b) = some (k, n) → n ≤ 8 := fun hb h => by
    obtain ⟨rfl, rfl⟩ := Prod.mk.inj (Option.some.inj h)
    exact hb
  unfold headerField at h
  split at h
  case h_10 =>
    split at h
    · exact hn (by omega) h
    · split at h
      · exact hn (by omega) h
      · cases h
  all_goals exact hn (by omega) h

theorem widthBytes_le (z : Width) : widthBytes z ≤ 8 := by cases z <;> decide

section
variable {s : State} {st : Stall} {d a : RegNum} {o : Opnds} {j : Nat} (h : Ready s [a] [d] o) (hh : Handle s (o.v 0) j)
  (hm : Meets s [.slot j])
include h hh hm

/-- The read of `n` bytes from byte `k` of the slot. -/
def SlotRead (s : State) (i : Instr) (st : Stall) (o : Opnds) (j k n : Nat) (signed : Bool) : Prop :=
  let x := portRead s (slotKey (tileOf s.cur) j k) n
  Completes s i st (fillNow (consume (countBad (servePort (landed s) s.cur [slotBank (tileOf s.cur) j]) (whoIn s s.cur) x.2) s.cur o.srcs)
    s.cur (clockOf s) (o.d 0) (portValue n signed x.1)) none

theorem flget_gives {z : Width} {off : BitVec 12} (hp : payloadOk s (tileOf s.cur) j off.toNat (widthBytes z) = true) :
    SlotRead s (.flget st z d a off) st o j (192 + off.toNat) (widthBytes z) true := by
  refine slotGet_gives (f := fun s j => if payloadOk s (tileOf s.cur) j off.toNat (widthBytes z) then
    .ok (192 + off.toNat, widthBytes z, true) else .error (illegalOperand a)) rfl h hh hm ?_ (widthBytes_le z)
  rw [landed_cur, payloadOk_landed]
  exact if_pos hp

theorem flgetArg_gives : SlotRead s (.flgetArg st d a) st o j (72 + 16 * slotNat s (tileOf s.cur) j 2 1) 8 false := by
  refine slotGet_gives (f := fun s j => .ok (72 + 16 * slotNat s (tileOf s.cur) j 2 1, 8, false)) rfl h hh hm ?_ (by decide)
  rw [landed_cur, slotNat_landed]

theorem flgetHdr_gives {f : BitVec 6} {k n : Nat} (hf : headerField f.toNat = some (k, n)) :
    SlotRead s (.flgetHdr st d a f) st o j k n false := by
  refine slotGet_gives (f := fun _ _ => match headerField f.toNat with
    | some q => .ok (q.1, q.2, false)
    | none => .error (illegalOperand a)) rfl h hh hm ?_ (headerField_size hf)
  rw [hf]

end

theorem floeOperations : FloeOperations := by
  intro s st a b d o j T w u count index
  refine ⟨fun h hh => ⟨flsend_sends h hh, fun hm => ⟨fldrop_frees h hh hm, flpark_parks h hh hm⟩, fun hi => ?_, fun hi => ?_,
      fun k hk hki => fldel_deletes k h hh hk hki⟩,
    fun h hh z off hp => flput_puts h hh hp,
    fun h hh hm => ⟨fun z off hp => flget_gives h hh hm hp, flgetArg_gives h hh hm, fun f k n hf => flgetHdr_gives h hh hm hf⟩,
    fun h hh k ad e z hz => ⟨fun hp => ⟨rewrite_asks (f := replacedStop k.toNat) rfl h hh hz hp,
        rewrite_asks (f := insertedStop k.toNat) rfl h hh hz hp⟩,
      fun hp he => ⟨flrw_rewrites k h hh hz hp he, flins_inserts k h hh hz hp he⟩⟩⟩
  · have hc := flnext_goes (st := st) h hh
    dsimp only at hc
    rwa [if_pos hi] at hc
  · have hc := flnext_goes (st := st) h hh
    dsimp only at hc
    rwa [if_neg hi] at hc

/-! ### Making, awaiting and resuming floes (R297, R300, R303) -/

theorem slotState_setSlot (s : State) (T : Nat) {j : Nat} (x : FSlot) (hj : j < 16) : slotState (setSlot s T j x) T j = x := by
  rw [slotState, setSlot, State.tile_mod]
  simp [hj]

theorem fillNow_tile (s : State) (g c : Nat) (d : Dst) (v : Word) (T : Nat) : (fillNow s g c d v).tile T = s.tile T := by
  have hpush : ∀ p, (queuePush s (coreOf g) d p).tile T = s.tile T := fun p => by
    obtain ⟨_, h⟩ := queuePush_cases s (coreOf g) d p
    rw [h]
    rfl
  cases d with
  | none => rfl
  | reg r => rfl
  | chain c => exact hpush _
  | actor => exact hpush _

theorem fillNow_reg (s : State) (g c : Nat) (r : Fin 32) (v : Word) :
    (((fillNow s g c (.reg r) v).thread g).reg r).val = v ∧ (((fillNow s g c (.reg r) v).thread g).reg r).full = true := by
  rw [fillNow, State.thread_mod]
  simp [Thread.fill, Thread.reg]

theorem slotWrite_cases (s : State) (w : Who) (T j k : Nat) (bs : List Byte) :
    ∃ x n, slotWrite s w T j k bs = { s with traffic := x, nextId := n } := by
  have hsend : ∀ (n : Nat) (s : State) (key : Nat) (bs : List Byte), ∃ x m, portSend s w T key n bs = { s with traffic := x, nextId := m } := by
    intro n
    induction n with
    | zero => exact fun s _ _ => ⟨s.traffic, s.nextId, rfl⟩
    | succ n ih =>
      intro s key bs
      unfold portSend
      split
      · exact ⟨s.traffic, s.nextId, rfl⟩
      · obtain ⟨x, m, h⟩ := ih (send s
          { id := s.nextId, by_ := .floe, path := .floe, g := w.g, serial := w.serial, owner := w.owner, launch := w.launch
            tile := T, key := key, size := min (64 - key % 64) bs.length
            acc := storeAcc (min (64 - key % 64) bs.length) (BitVec.ofNat 512 (natOfBytes (bs.take (min (64 - key % 64) bs.length))))
            kcls := 1 }) (key + min (64 - key % 64) bs.length) (bs.drop (min (64 - key % 64) bs.length))
        exact ⟨x, m, h⟩
  exact hsend _ s _ bs

/-- A made floe stands in slot `j` (R297). -/
def floeMade (u : State) (g j : Nat) (src : List Byte) : State :=
  let T := tileOf g
  let img := newImage src (u.thread g).owner (u.thread g).ids[(1 : Nat)].toNat (u.tile T).seq.toNat
  (setSlot (slotWrite u (whoIn u g) T j 0 img) T j (.held g)).modTile T fun x => { x with seq := x.seq + 1 }

theorem floeMade_tile (u : State) (g : Nat) {j : Nat} (src : List Byte) (hj : j < 16) :
    slotState (floeMade u g j src) (tileOf g) j = .held g ∧
      ((floeMade u g j src).tile (tileOf g)).seq = (u.tile (tileOf g)).seq + 1 := by
  unfold floeMade
  dsimp only
  obtain ⟨_, _, h⟩ := slotWrite_cases u (whoIn u g) (tileOf g) j 0
    (newImage src (u.thread g).owner (u.thread g).ids[(1 : Nat)].toNat (u.tile (tileOf g)).seq.toNat)
  rw [h]
  refine ⟨?_, ?_⟩
  · rw [slotState, State.tile_mod]
    exact slotState_setSlot _ _ _ hj
  · rw [State.tile_mod, setSlot, State.tile_mod]
    rfl

section
variable {s : State} {st : Stall} {d a : RegNum} {o : Opnds} {head x : Word × List Byte × State}
  (hon : floesOn (landed s) (berthOf (tileOf s.cur)) = true) (h : Ready s [a] [d] o)
  (hhead : imageLoad (landed s) s.cur (o.v 0) 192 64 none = .ok head)
  (hx : imageLoad (landed s) s.cur (o.v 0) (192 + imgLength head.2.1) 64 none = .ok x) (hm : Meets s [.outSlot])
include hon h hhead hx hm

theorem flnew_asks (hp : portReady (landed s) s.cur x.1 2 = false) : Asks s (.flnew st d a) (some (x.1, 2)) := by
  refine asks_of (show execFlnew st d a s = runInstr s s.cur false _ from rfl) ?_
  refine (passes h).trans ?_
  refine (passes (floeOn_ok a hon)).trans ?_
  refine (passes hhead).trans ?_
  refine (passes hx).trans ?_
  refine (passes (require_ok hm)).trans ?_
  rw [landed_cur, hp]
  rfl

variable (hp : portReady (landed s) s.cur x.1 2 = true)
include hp

theorem flnew_refuses (hb : takenMalformed x.2.1 = true) :
    Completes s (.flnew st d a) st (fillNow (misuseBoth (consume (portDone x.2.2 s.cur x.1) s.cur o.srcs) (whoIn s s.cur)) s.cur
      (clockOf s) (o.d 0) (BitVec.allOnes 64)) none := by
  refine acts_ok (show execFlnew st d a s = runInstr s s.cur false _ from rfl) ?_
  refine (passes h).trans ?_
  refine (passes (floeOn_ok a hon)).trans ?_
  refine (passes hhead).trans ?_
  refine (passes hx).trans ?_
  refine (passes (require_ok hm)).trans ?_
  rw [landed_cur, hp]
  refine (if_neg nofun).trans ?_
  dsimp only
  rw [whoIn_consume, imageLoad_who (ad := x.1) (e := x.2.1) (z := x.2.2) hx, whoIn_landed]
  exact if_pos hb

theorem flnew_makes {j : Nat} (hj : [12, 13, 14, 15].find? (fun k => slotState s (tileOf s.cur) k == .free) = some j)
    (hb : takenMalformed x.2.1 = false) :
    Completes s (.flnew st d a) st (fillNow (floeMade (consume (portDone x.2.2 s.cur x.1) s.cur o.srcs) s.cur j x.2.1) s.cur
      (clockOf s) (o.d 0) (BitVec.ofNat 64 j)) none := by
  have htile : (consume (portDone x.2.2 s.cur x.1) s.cur o.srcs).tile (tileOf s.cur) = s.tile (tileOf s.cur) :=
    (consume_tile _ _ _ _).trans (imageLoad_tile (ad := x.1) (e := x.2.1) (z := x.2.2) hx _)
  have hfind : [12, 13, 14, 15].find? (fun k => slotState (consume (portDone x.2.2 s.cur x.1) s.cur o.srcs) (tileOf s.cur) k == .free) =
      some j := by
    rw [← hj]
    simp only [slotState, htile]
  refine acts_ok (show execFlnew st d a s = runInstr s s.cur false _ from rfl) ?_
  refine (passes h).trans ?_
  refine (passes (floeOn_ok a hon)).trans ?_
  refine (passes hhead).trans ?_
  refine (passes hx).trans ?_
  refine (passes (require_ok hm)).trans ?_
  rw [landed_cur, hp]
  refine (if_neg nofun).trans ?_
  refine (if_neg (ne_true_of_eq_false hb)).trans ?_
  rw [hfind]
  rfl

end

/-- What a wait for a floe reserves of its destination. -/
def recvPlace (s : State) (g : Nat) (d : Dst) (tag : Nat) : State :=
  match d with
  | .chain _ | .actor => awaitDst s g d tag
  | _ => s

theorem recvPlace_tile (s : State) (g : Nat) (d : Dst) (tag T : Nat) : (recvPlace s g d tag).tile T = s.tile T := by
  have h : (awaitDst s g d tag).tile T = s.tile T := by
    obtain ⟨_, _, _, hm⟩ := (awaitDst_moved s g d tag).module
    rw [hm]
    rfl
  unfold recvPlace
  split
  · exact h
  · exact h
  · rfl

/-- A thread that waits for a floe, behind those that wait already. -/
def recvWaits (s : State) (g c : Nat) (d : Dst) : State :=
  ((recvPlace { s with nextId := s.nextId + 1 } g d s.nextId).modTile (tileOf g) fun x => { x with waiters := x.waiters ++ [g] }).modThread g
    fun t => { t with status := .parked (.flrecv d s.nextId), ready := c, base := c }

theorem flrecv_waits {s : State} {st : Stall} {d : RegNum} {o : Opnds} (hon : floesOn (landed s) (berthOf (tileOf s.cur)) = true)
    (h : Ready s [] [d] o) : Acts s (.flrecv st d) (recvWaits (landed s) s.cur (clockOf s) (o.d 0)) := by
  refine acts_ok (show execFlrecv st d s = runInstr s s.cur false _ from rfl) ?_
  refine (passes h).trans ?_
  refine (passes (floeOn_ok d hon)).trans ?_
  rfl

theorem recvWaits_waits (s : State) (g c : Nat) (d : Dst) :
    ((recvWaits s g c d).tile (tileOf g)).waiters = (s.tile (tileOf g)).waiters ++ [g] ∧
      ((recvWaits s g c d).thread g).status = .parked (.flrecv d s.nextId) := by
  refine ⟨?_, ?_⟩
  · have h := recvPlace_tile { s with nextId := s.nextId + 1 } g d s.nextId (tileOf g)
    have hmod := State.tile_mod (recvPlace { s with nextId := s.nextId + 1 } g d s.nextId) (tileOf g)
      fun x => { x with waiters := x.waiters ++ [g] }
    rw [h] at hmod
    exact congrArg Tile.waiters hmod
  · rw [recvWaits, State.thread_mod]

theorem flresume_asks {s : State} {st : Stall} {a : RegNum} {o : Opnds} (hon : floesOn (landed s) (berthOf (tileOf s.cur)) = true)
    (h : Ready s [a] [] o) (hv : (o.v 0).toNat < 2 ^ 32)
    (hp : portReady (landed s) s.cur (resumeAddr (landed s) s.cur) (resumeReads (landed s) s.cur (o.v 0).toNat) = false) :
    Asks s (.flresume st a) (some (resumeAddr (landed s) s.cur, resumeReads (landed s) s.cur (o.v 0).toNat)) := by
  refine asks_of (show execFlresume st a s = runInstr s s.cur false _ from rfl) ?_
  refine (passes h).trans ?_
  refine (passes (floeOn_ok a hon)).trans ?_
  refine (if_neg (Nat.not_le.mpr hv)).trans ?_
  dsimp only
  rw [landed_cur, hp]
  rfl

theorem flresume_resumes {s : State} {st : Stall} {a : RegNum} {o : Opnds} (hon : floesOn (landed s) (berthOf (tileOf s.cur)) = true)
    (h : Ready s [a] [] o) (hv : (o.v 0).toNat < 2 ^ 32)
    (hp : portReady (landed s) s.cur (resumeAddr (landed s) s.cur) (resumeReads (landed s) s.cur (o.v 0).toNat) = true) :
    Completes s (.flresume st a) st (resumeEntry (consume (landed s) s.cur o.srcs) s.cur (o.v 0).toNat) none := by
  refine acts_ok (show execFlresume st a s = runInstr s s.cur false _ from rfl) ?_
  refine (passes h).trans ?_
  refine (passes (floeOn_ok a hon)).trans ?_
  refine (if_neg (Nat.not_le.mpr hv)).trans ?_
  dsimp only
  rw [landed_cur, hp]
  rfl

theorem floeStarts : FloeStarts := by
  intro s st a d o hon T
  refine ⟨fun h head x j hhead hx hm hj => ⟨flnew_asks hon h hhead hx hm, fun hp hb => ?_, fun hp hb => ?_⟩,
    fun h => ⟨_, flrecv_waits hon h, recvWaits_waits _ _ _ _⟩, fun h hv => ⟨flresume_asks hon h hv, flresume_resumes hon h hv⟩⟩
  · have hj16 : j < 16 := by
      have hmem := List.mem_of_find?_eq_some hj
      simp only [List.mem_cons, List.not_mem_nil, or_false] at hmem
      omega
    obtain ⟨hheld, hseq⟩ := floeMade_tile (consume (portDone x.2.2 s.cur x.1) s.cur o.srcs) s.cur x.2.1 hj16
    refine ⟨_, flnew_makes hon h hhead hx hm hp hj hb, ?_, ?_, fun r hr => ?_⟩
    · rw [slotState, fillNow_tile]
      exact hheld
    · rw [fillNow_tile, hseq, consume_tile, imageLoad_tile (ad := x.1) (e := x.2.1) (z := x.2.2) hx]
      rfl
    · rw [hr]
      exact fillNow_reg _ _ _ _ _
  · refine ⟨_, flnew_refuses hon h hhead hx hm hp hb, ?_, fun r hr => ?_⟩
    · have hfree : slotState s T j = .free := by simpa using List.find?_some hj
      rw [slotState, fillNow_tile, (misuseBoth_control _ _).tile, consume_tile, imageLoad_tile (ad := x.1) (e := x.2.1) (z := x.2.2) hx]
      exact hfree
    · rw [hr]
      exact fillNow_reg _ _ _ _ _

/-- Settles O31. -/
theorem floeInstructions : Obligations.FloeInstructions := ⟨floeOperations, floeStarts⟩

end Sys2Proof.Machine
end

section
/-! PROOFS. Floes on their way (spec/15 R287 to R292). -/

namespace Sys2Proof.Machine

open Sys2Proof.Claims

/-! ### What reads and counts leave -/

/-- What is counted of a read through the answers of a port. -/
theorem Written.underView (s : State) (p : Option Port) {f : State → State} (hf : ∀ v, Written v (f v)) :
    Written s (underView s p f) := by
  have hview : ∃ m q, portView s p = { s with mem := m, poison := q } := by
    unfold portView
    split
    · exact ⟨_, _, rfl⟩
    · exact ⟨s.mem, s.poison, rfl⟩
  obtain ⟨m, q, hview⟩ := hview
  have h := hf (portView s p)
  rw [hview] at h
  have hu : Machine.underView s p f = { f (portView s p) with mem := s.mem, poison := s.poison } := rfl
  rw [hview] at hu
  obtain ⟨hmod, hthread, hidle, howner, hdie, hlaunch, hplaced, -⟩ := h
  refine ⟨?_, ?_, ?_, ?_, ?_, ?_, ?_, ?_⟩
  · obtain ⟨_, _, t, x, d, l, hm⟩ := hmod
    exact ⟨s.mem, s.poison, t, x, d, l, by rw [hu, hm]⟩
  all_goals rw [hu]
  exacts [hthread, hidle, howner, hdie, hlaunch, hplaced, id]

theorem Written.parkFloe (s : State) (o : Nat) (img : List Byte) (code : Nat) (a : Word) : Written s (parkFloe s o img code a) := by
  unfold Machine.parkFloe
  dsimp only
  split
  · exact .misuseOwner s o
  · split
    · exact ((Written.engineCount _ _ _ _).trans (.engineWrite _ _ _ _)).trans (.misuseOwner _ o)
    · exact ((Written.engineCount _ _ _ _).trans (.engineWrite _ _ _ _)).trans (.engineWrite _ _ _ _)

theorem latePort_tile (s : State) (T : Nat) (p : Option Port) (k : Nat) : (latePort s T p).tile k = s.tile k := by
  unfold latePort lateAnswer
  split <;> rfl

/-- Data errors leave the owners' berths. -/
theorem dataErrors_berths (s : State) (w : Who) (k o : Nat) : ((dataErrors s w k).owner o).berths = (s.owner o).berths := by
  induction k with
  | zero => rfl
  | succ k ih =>
    rw [dataErrors_succ, dataError_eq]
    refine Eq.trans ?_ ih
    have hmod : ∀ u : State, ((u.modOwner w.owner fun x => { x with data := bump x.data }).owner o).berths = (u.owner o).berths := by
      intro u
      by_cases ho : o = w.owner
      · rw [ho, State.owner_mod]
      · rw [State.owner_mod_other u w.owner o _ ho]
    exact hmod _

/-! ### Departures (R287, R288) -/

/-- A slot without writes on their way is as it stands. -/
theorem settleSlot_settled {s : State} {T j : Nat} (h : slotSettled s T j = true) : settleSlot s T j = s := by
  have hnone : s.traffic.filter (fun r => r.by_ == .floe && r.tile == T && landingSlot r.key == j) = [] := by
    rw [List.filter_eq_nil_iff]
    intro r hr hx
    have hany : s.traffic.any (fun r => r.by_ == .floe && r.tile == T && landingSlot r.key == j) = true :=
      List.any_eq_true.mpr ⟨r, hr, hx⟩
    rw [slotSettled, hany] at h
    cases h
  rw [settleSlot, hnone]
  rfl

/-- Banks that serve the port change neither memory nor owners. -/
theorem serveBanks_portRead (s : State) (banks : List Nat) (key n : Nat) : portRead (serveBanks s banks) key n = portRead s key n :=
  portRead_congr (s := s) (u := serveBanks s banks) rfl rfl key n

theorem serveBanks_berthOwner (s : State) (banks : List Nat) (b : Nat) : berthOwner (serveBanks s banks) b = berthOwner s b := rfl

/-- The image of such a slot is what its bytes in memory are. -/
theorem takeImage_settled {s : State} {T j : Nat} (h : slotSettled s T j = true) :
    (takeImage s T j).1 = (portRead s (slotKey T j 0) 4288).1 ∧
      ∃ banks k, (takeImage s T j).2 = dataErrors (serveBanks s banks) (ownerWho (berthOwner s (berthOf T)) 0) k := by
  rw [takeImage, settleSlot_settled h]
  dsimp only
  rw [serveBanks_berthOwner, serveBanks_portRead]
  exact ⟨rfl, _, _, rfl⟩

/-- A slot's floe leaves for a station of its owner or for memory. -/
theorem floeDeparture_departs {s : State} {T j n : Nat} (hT : T < Config.tiles) (hj : j < 16) (hopen : tileClosed s T = false)
    (hstate : slotState s T j = .outbound n) (hsettled : slotSettled s T j = true) (hbank : bankTaken s (slotBank T j) = false)
    (hbefore : slotBefore s T (slotStation s T j) n = false) :
    exec (.floeDeparture T j) s = .next (departFloe (setSlot (takeImage s T j).2 T j .free) T (berthOwner s (berthOf T))
      (takeImage s T j).1 n) := by
  show execFloeDeparture T j s = _
  unfold execFloeDeparture
  rw [if_pos ⟨hT, hj⟩, hstate]
  dsimp only
  rw [if_neg]
  simp [hopen, hsettled, hbank, hbefore]

theorem departFloe_floes {s : State} {T o : Nat} {img : List Byte} {n : Nat}
    (h : imgStation img (imgIndex img) = 0xFFFF ∨ imgStation img (imgIndex img) < ownerTiles s o) :
    departFloe s T o img n = { s with floes := s.floes ++
      [{ id := n, owner := o, src := T, dest := imgStation img (imgIndex img), img := img
         tile := (ownerTile s o (imgStation img (imgIndex img))).getD 0 }] } := by
  unfold departFloe
  dsimp only
  rw [if_neg]
  rintro ⟨hne, hle⟩
  rcases h with h | h
  · exact hne h
  · omega

/-- The departure of a sound floe: its slot is free and it is on its way. -/
theorem floeDeparture_goes {s : State} {T j n : Nat} (hT : T < Config.tiles) (hj : j < 16) (hopen : tileClosed s T = false)
    (hstate : slotState s T j = .outbound n) (hsettled : slotSettled s T j = true) (hbank : bankTaken s (slotBank T j) = false)
    (hbefore : slotBefore s T (slotStation s T j) n = false) :
    ∀ img, (portRead s (slotKey T j 0) 4288).1 = img →
    let w := berthOwner s (berthOf T)
    let dst := imgStation img (imgIndex img)
    (dst = 0xFFFF ∨ dst < ownerTiles s w) → ∃ u, exec (.floeDeparture T j) s = .next u ∧ slotState u T j = .free ∧
      u.floes = s.floes ++ [{ id := n, owner := w, src := T, dest := dst, img := img, tile := (ownerTile s w dst).getD 0 }] := by
  intro img hread w dst hdst
  have hexec := floeDeparture_departs hT hj hopen hstate hsettled hbank hbefore
  obtain ⟨himg, banks, k, hstate'⟩ := takeImage_settled hsettled
  rw [himg, hread, hstate'] at hexec
  generalize hv : dataErrors (serveBanks s banks) (ownerWho (berthOwner s (berthOf T)) 0) k = v at hexec
  have hberths : ∀ o, ((setSlot v T j .free).owner o).berths = (s.owner o).berths := fun o => by
    rw [← hv]
    exact dataErrors_berths (serveBanks s banks) _ k o
  have hfloes : (setSlot v T j .free).floes = s.floes := by
    obtain ⟨_, _, _, h⟩ := dataErrors_cases (serveBanks s banks) (ownerWho (berthOwner s (berthOf T)) 0) k
    rw [← hv, h]
    rfl
  have htiles : ownerTiles (setSlot v T j .free) w = ownerTiles s w := by rw [ownerTiles, ownerTiles, hberths]
  have htile : ownerTile (setSlot v T j .free) w dst = ownerTile s w dst := by rw [ownerTile, ownerTile, hberths]
  rw [departFloe_floes (htiles.symm ▸ hdst)] at hexec
  refine ⟨_, hexec, slotState_setSlot v T _ hj, ?_⟩
  dsimp only
  rw [hfloes, htile]

/-! ### Arrivals (R288, R292, R390) -/

theorem floeArrival_arrives {s : State} {f : Floe} (hf : s.floes.find? (·.id == f.id) = some f) (hd : f.dest ≠ 0xFFFF)
    (hb : sentBefore s f = false) (hopen : tileClosed s f.tile = false) :
    exec (.floeArrival f.id) s = .next (arriveFloe (dropFloe s f.id) f f.tile) := by
  show execFloeArrival f.id s = _
  unfold execFloeArrival
  rw [hf]
  dsimp only
  rw [if_neg]
  · rfl
  · simp [hd, hb, hopen]

theorem landFloe_lands (s : State) (T : Nat) {j : Nat} (img : List Byte) (hj : j < 16) :
    slotState (landFloe s T j img) T j = .landed ∧ ((landFloe s T j img).tile T).landing = (s.tile T).landing ++ [j] ∧
      (landFloe s T j img).floes = s.floes ∧ ((landFloe s T j img).tile T).refilled = (s.tile T).refilled ∧
      ((landFloe s T j img).tile T).refill = (s.tile T).refill := by
  unfold landFloe
  dsimp only
  obtain ⟨_, _, h⟩ := slotWrite_cases s (ownerWho (berthOwner s (berthOf T)) 0) T j 0 (clearEntries img)
  rw [h]
  refine ⟨?_, ?_, rfl, ?_, ?_⟩
  · rw [slotState, State.tile_mod]
    exact slotState_setSlot _ _ _ hj
  all_goals
    rw [State.tile_mod, setSlot, State.tile_mod]
    rfl

/-! ### Refills (R289) -/

theorem refillSlot_refills (s : State) (T o : Nat) {j : Nat} (a : Word) (hj : j < 16) :
    ((refillSlot s T o j a).tile T).refilled = (s.tile T).refilled + 1 ∧ ((refillSlot s T o j a).tile T).refill = none := by
  have hnext : ∀ v : State, v.tile T = s.tile T → ∀ x : State, x = (v.modTile T fun y => { y with refilled := y.refilled + 1, refill := none }) →
      (x.tile T).refilled = (s.tile T).refilled + 1 ∧ (x.tile T).refill = none := by
    rintro v hv x rfl
    rw [State.tile_mod, hv]
    exact ⟨rfl, rfl⟩
  have hview : ∀ p f, (∀ v, Written v (f v)) → (latePort (underView s p f) T p).tile T = s.tile T := fun p f hf =>
    (latePort_tile _ T p T).trans ((Written.underView s p hf).tile T)
  unfold refillSlot
  dsimp only
  generalize hx : State.modTile _ T _ = x
  obtain ⟨hrefilled, hrefill⟩ := hnext _ (hview _ _ fun v => .engineCount v _ _ _) x hx.symm
  split
  · rw [(Written.parkFloe x _ _ _ _).tile]
    exact ⟨hrefilled, hrefill⟩
  · split
    · exact ⟨hrefilled, hrefill⟩
    · obtain ⟨-, -, -, h, h'⟩ := landFloe_lands x T (engineRead (portView s (s.tile T).refill) o a 4288) hj
      exact ⟨h.trans hrefilled, h'.trans hrefill⟩

/-- A port whose answer is not there yet, and one that waits for none. -/
theorem filter_unanswered {s : State} {o : Option Port} {p : Port} (h : o = some p) (ha : p.answered s = false) :
    o.filter (fun p => !p.answered s) = some p := by
  rw [h, Option.filter_some_pos (by rw [ha]; rfl)]

theorem filter_answered {s : State} {o : Option Port} (h : o.any (fun p => !p.answered s) = false) :
    o.filter (fun p => !p.answered s) = none := by
  cases o with
  | none => rfl
  | some p => exact if_neg (ne_true_of_eq_false h)

section
variable {s : State} {T j : Nat} (hT : T < Config.tiles) (hopen : tileClosed s T = false)
include hT hopen

theorem floeRefill_goes {p : Port} (hp : (s.tile T).refill = some p) (hanswered : p.answered s = false) :
    exec (.floeRefill T) s = .next (s.setTile T { s.tile T with refill := some (p.go s T) }) := by
  show execFloeRefill T s = _
  unfold execFloeRefill
  rw [if_pos hT]
  dsimp only
  rw [filter_unanswered hp hanswered]
  dsimp only
  rw [if_neg fun h => ne_true_of_eq_false hopen h.2]

variable (hin : inSlot s T = some j)
  (hring : (s.tile T).appended ≠ (s.tile T).refilled) (hon : floesOn s (berthOf T) = true)
include hin hring hon

/-- The port of an open tile with an entry in its ring and a free slot, whose answer is there, asks or refills. -/
theorem floeRefill_acts (hp : (s.tile T).refill.any (fun p => !p.answered s) = false) :
    let o := berthOwner s (berthOf T)
    let a := ringEntry s o T (s.tile T).refilled
    exec (.floeRefill T) s = .next (if (s.tile T).refill.isNone ∧ (askPort s T o a 1).isSome then askRefill s T o a
      else refillSlot s T o j a) := by
  have hring' : refillOpen s T = true := by simp [refillOpen, hopen, hon, hring]
  show execFloeRefill T s = _
  unfold execFloeRefill
  rw [if_pos hT]
  dsimp only
  rw [filter_answered hp, hin]
  dsimp only
  rw [hring', if_neg nofun]

end

/-! ### Claims (R291) -/

/-- The thread enters at the pc to which control is transferred. -/
theorem transferTo_pc (s : State) (g : Nat) (pc : Word) : ((transferTo s g pc).thread g).pc = pc := by
  unfold transferTo
  dsimp only
  split
  · rw [State.thread_set]
  · rw [(enter_entered _ g).pc, State.thread_set]

theorem retireWait_pc (s : State) (g c : Nat) (st : Stall) (pair : Bool) (pc : Word) :
    ((retireWait s g c st pair (some pc)).thread g).pc = pc := by
  rw [retireWait, State.thread_mod]
  exact transferTo_pc _ _ _

theorem retireWait_tile (s : State) (g c : Nat) (st : Stall) (pair : Bool) (xfer : Option Word) (T : Nat) :
    (retireWait s g c st pair xfer).tile T = s.tile T := (retire_control s g c _ pair xfer).tile T

theorem claimFloe_claims (s : State) (g : Nat) {j : Nat} (d : Dst) (tag : Nat) (pc : Word) (hj : j < 16) :
    let u := claimFloe s g j d tag pc
    let T := tileOf g
    slotState u T j = .held g ∧ (u.tile T).landing = (s.tile T).landing.drop 1 ∧
      (u.tile T).waiters = (s.tile T).waiters.drop 1 ∧ (u.thread g).pc = pc := by
  intro u T
  have htile : u.tile T = ((setSlot s T j (.held g)).modTile T fun x =>
      { x with landing := x.landing.drop 1, waiters := x.waiters.drop 1 }).tile T := by
    refine (retireWait_tile _ _ _ _ _ _ T).trans ?_
    obtain ⟨_, _, h⟩ := fillDst_cases ((setSlot s T j (.held g)).modTile T fun x =>
      { x with landing := x.landing.drop 1, waiters := x.waiters.drop 1 }) g d (BitVec.ofNat 64 j) tag
    rw [deliver, h]
    rfl
  refine ⟨?_, ?_, ?_, retireWait_pc _ _ _ _ _ _⟩
  · rw [slotState, htile, State.tile_mod]
    exact slotState_setSlot s T _ hj
  · rw [htile, State.tile_mod, setSlot, State.tile_mod]
  · rw [htile, State.tile_mod, setSlot, State.tile_mod]

theorem portDone_tile (s : State) (g : Nat) (a : Word) (T : Nat) : (portDone s g a).tile T = s.tile T := latePort_tile s _ _ T

theorem stationRead_tile (s : State) (g routine T : Nat) : (stationRead s g routine).tile T = s.tile T := by
  unfold stationRead
  dsimp only
  split
  · rfl
  · rw [takeAnswer, portDone_tile]
    exact (Written.underView s _ fun v => Written.engineCount v _ _ _).tile T

/-- The claim of a floe whose routine has the entry `pc`, or none. -/
def claimAt (s : State) (T g j : Nat) (d : Dst) (tag : Nat) (pc : Option Word) : State :=
  match pc with
  | none => parkSlot s T j 2
  | some pc => claimFloe s g j d tag pc

section
variable {s : State} {T j g : Nat} {l l' : List Nat} {d : Dst} {tag : Nat} (hT : T < Config.tiles) (hopen : tileClosed s T = false)
  (hl : (s.tile T).landing = j :: l) (hw : (s.tile T).waiters = g :: l') (hstatus : (s.thread g).status = .parked (.flrecv d tag))
  (hsettled : slotSettled s T j = true)
include hT hopen hl hw hstatus hsettled

/-- What the port of a tile does for the claim of a thread. -/
theorem floeClaim_claims :
    let n := slotNat s T j (66 + 16 * slotNat s T j 2 1) 1
    let a := stationEntry (s.launch (s.thread g).launch) n
    (stationAsks s g n = true → exec (.floeClaim T) s = .next (portAsk s g a 1)) ∧
      ∀ pc, stationAsks s g n = false → stationPc (portView s (threadPort s g a)) (s.thread g).launch n = some pc →
        exec (.floeClaim T) s = .next (claimFloe (stationRead s g n) g j d tag pc) := by
  intro n a
  have hexec : exec (.floeClaim T) s =
      if stationAsks s g n = true then .next (portAsk s g a 1)
      else .next (claimAt (stationRead s g n) T g j d tag (stationPc (portView s (threadPort s g a)) (s.thread g).launch n)) := by
    show execFloeClaim T s = _
    unfold execFloeClaim
    rw [if_pos hT, hl, hw]
    dsimp only
    rw [if_neg (by simp [hopen, hsettled]), hstatus]
    rfl
  refine ⟨fun h => hexec.trans (if_pos h), fun pc h hpc => (hexec.trans (if_neg (ne_true_of_eq_false h))).trans ?_⟩
  rw [hpc, claimAt]

end

/-! ### Memory stops (R290) -/

section
variable {s : State} {f : Floe} (hf : s.floes.find? (·.id == f.id) = some f) (hd : f.dest = 0xFFFF) (hopen : tileClosed s f.src = false)
include hf hd hopen

theorem memoryStop_goes {p : Port} (hp : f.port = some p) (ha : p.answered s = false) :
    exec (.memoryStop f.id) s = .next (setFloe s { f with port := some (p.go s f.src) }) := by
  show execMemoryStop f.id s = _
  unfold execMemoryStop
  rw [hf]
  dsimp only
  rw [if_neg (not_not.mpr hd), filter_unanswered hp ha]
  dsimp only
  rw [if_neg fun h => ne_true_of_eq_false hopen h.2]

/-- A stop whose port waits for nothing fails, ends, asks or moves its next unit. -/
theorem memoryStop_acts (hp : f.port.any (fun p => !p.answered s) = false) :
    exec (.memoryStop f.id) s = .next (
      if 1 < imgRoutine f.img (imgIndex f.img) then stopFail s f 5 0
      else if imgLength f.img ≤ f.next then (if s.work < f.due then s else stopEnd s f)
      else if f.port.isNone ∧ (askPort s f.src f.owner f.addr 0).isSome then
        setFloe s { f with port := askPort s f.src f.owner f.addr 0 }
      else stopMove s f (imgRoutine f.img (imgIndex f.img))) := by
  show execMemoryStop f.id s = _
  unfold execMemoryStop
  rw [hf]
  dsimp only
  rw [if_neg (not_not.mpr hd), filter_answered hp]
  dsimp only
  rw [if_neg (ne_true_of_eq_false hopen)]

end

section
variable {s : State} {f : Floe} {r : Nat}

theorem stopMove_unit {p : Nat} (hr : region f.addr = .paged)
    (hx : translateNow (portView s f.port) f.owner f.addr (if r = 1 then .load else .store) = .ok p) :
    stopMove s f r = stopUnit s f r p (min (imgLength f.img - f.next) (64 - f.addr.toNat % 64)) := by
  rw [stopMove, stopKey, if_pos hr, hx]

variable (hdue : f.due ≤ s.work)
include hdue

theorem stopMove_miss (hr : region f.addr = .paged)
    (hx : translateNow (portView s f.port) f.owner f.addr (if r = 1 then .load else .store) = .miss) :
    stopMove s f r = stopFail s f 3 f.addr := by
  rw [stopMove, stopKey, if_pos hr, hx]
  exact if_neg (Nat.not_lt.mpr hdue)

theorem stopMove_fatal (h : region f.addr ≠ .paged ∨
      translateNow (portView s f.port) f.owner f.addr (if r = 1 then .load else .store) = .fatal) :
    stopMove s f r = stopFail s f 4 f.addr := by
  have hkey : stopKey (portView s f.port) f r = .fatal := by
    rw [stopKey]
    split
    · next hr => exact h.resolve_left fun hn => hn hr
    · rfl
  rw [stopMove, hkey]
  exact if_neg (Nat.not_lt.mpr hdue)

end

/-- A sound floe of the berth's owner lands in the lowest free slot (R288). -/
theorem arriveFloe_lands {s : State} {f : Floe} {T j : Nat} (ho : f.owner = berthOwner s (berthOf T))
    (hi : imgNat f.img 3 1 = berthOwner s (berthOf T)) (hm : imgMalformed f.img = false) (hon : floesOn s (berthOf T) = true)
    (hin : inSlot s T = some j) (hring : (s.tile T).appended = (s.tile T).refilled) :
    arriveFloe s f T = landFloe s T j f.img := by
  unfold arriveFloe
  dsimp only
  rw [if_neg (by simp [ho, hi]), if_neg (ne_true_of_eq_false hm), if_neg (by simp [hon]), hin]
  exact if_pos hring

/-- One of another owner is dropped and counted (R390). -/
theorem arriveFloe_drops {s : State} {f : Floe} {T : Nat}
    (h : f.owner ≠ berthOwner s (berthOf T) ∨ imgNat f.img 3 1 ≠ berthOwner s (berthOf T)) :
    arriveFloe s f T = misuseOwner (s.modDie (dieOf T) fun d => { d with dropCount := d.dropCount + 1 }) f.owner := if_pos h

/-- Settles O32. -/
theorem floeEvents : Obligations.FloeEvents := by
  intro s T j hT hj hopen w
  refine ⟨fun n hstate hsettled hbank hbefore => floeDeparture_goes hT hj hopen hstate hsettled hbank hbefore _ rfl,
    fun f hf hd hb hfT => ⟨fun ho hi hm hon hin hring => ?_, fun hother => ?_⟩,
    fun hin hring hon => ⟨fun p hp ha => floeRefill_goes hT hopen hp ha, fun hp hask => ?_, fun hp => ?_⟩,
    fun g l l' d tag hl hw hg hstatus hsettled => ?_, fun f hf hd hfT => ?_⟩
  · subst hfT
    have hexec := floeArrival_arrives hf hd hb hopen
    rw [arriveFloe_lands (s := dropFloe s f.id) (j := j) ho hi hm hon hin hring] at hexec
    obtain ⟨hstate, hlanding, hfloes, -, -⟩ := landFloe_lands (dropFloe s f.id) f.tile f.img hj
    exact ⟨_, hexec, hstate, hlanding, hfloes⟩
  · subst hfT
    have hexec := floeArrival_arrives hf hd hb hopen
    rw [arriveFloe_drops (s := dropFloe s f.id) hother] at hexec
    refine ⟨_, hexec, rfl, rfl, ?_, ?_⟩
    · exact congrArg Die.dropCount (State.die_mod (dropFloe s f.id) (dieOf f.tile) fun d => { d with dropCount := d.dropCount + 1 })
    · rw [misuseOwner, State.owner_mod]
      rfl
  · rw [floeRefill_acts hT hopen hin hring hon (by rw [hp]; rfl)]
    exact congrArg _ (if_pos ⟨by rw [hp]; rfl, hask⟩)
  · have hnone : (s.tile T).refill.any (fun p => !p.answered s) = false := by
      rcases hp with ⟨hp, -⟩ | ⟨p, hp, ha⟩
      · rw [hp]
        rfl
      · rw [hp, Option.any_some, ha]
        rfl
    have hexec := floeRefill_acts hT hopen hin hring hon hnone
    dsimp only at hexec
    rw [if_neg] at hexec
    · exact ⟨_, hexec, refillSlot_refills _ _ _ _ hj⟩
    · rintro ⟨hisNone, hask⟩
      rcases hp with ⟨-, hp⟩ | ⟨p, hp, -⟩
      · rw [hp] at hask
        cases hask
      · rw [hp] at hisNone
        cases hisNone
  · subst hg
    obtain ⟨hasks, hclaims⟩ := floeClaim_claims hT hopen hl hw hstatus hsettled
    refine ⟨hasks, fun pc h hpc => ?_⟩
    obtain ⟨hheld, hlanding, hwaiters, hpc'⟩ := claimFloe_claims
      (stationRead s g (slotNat s (tileOf g) j (66 + 16 * slotNat s (tileOf g) j 2 1) 1)) g d tag pc hj
    rw [stationRead_tile, hl] at hlanding
    rw [stationRead_tile, hw] at hwaiters
    exact ⟨_, hclaims pc h hpc, hheld, hlanding, hwaiters, hpc'⟩
  · subst hfT
    intro i r a x asks
    refine ⟨fun p hp ha => memoryStop_goes hf hd hopen hp ha, fun hp => ?_⟩
    have hexec := memoryStop_acts hf hd hopen hp
    refine ⟨fun hr => ?_, fun hr hend hdue => ?_, fun hr hnext => ⟨fun hask => ?_, fun hask hreg p hx => ?_, fun hask hdue => ⟨fun hreg hx => ?_, fun h => ?_⟩⟩⟩
    · rwa [if_pos hr] at hexec
    · rwa [if_neg (Nat.not_lt.mpr hr), if_pos hend, if_neg (Nat.not_lt.mpr hdue)] at hexec
    all_goals rw [if_neg (Nat.not_lt.mpr hr), if_neg (Nat.not_le.mpr hnext)] at hexec
    · rwa [if_pos hask] at hexec
    all_goals rw [if_neg hask] at hexec
    · rwa [stopMove_unit hreg hx] at hexec
    · rwa [stopMove_miss hdue hreg hx] at hexec
    · rwa [stopMove_fatal hdue h] at hexec

end Sys2Proof.Machine
end

section
/-! PROOFS. Placements on a slot beyond the module's threads (spec/18 R377, R378). -/

namespace Sys2Proof.Machine

open Sys2Proof.Claims

/-- A placement on the first thread of its owner. -/
def farPlace : Place := { k := 0, fixed := some 0 }

/-- The one berth of owner 1 is numbered 40, past the last of the module, so that the owner's first thread is slot
`Config.threads`, the slot number that stands for a maker that is no thread. A pinned launch has a placement there; the tables for
its signal are uncorrectable. -/
def farState : State :=
  { State.reset with
    owners := [(1, { berths := [40] })]
    poison := [0]
    launches := [(5, { owner := 1, pinned := true, admitted := true, signal := 0x8000000000, places := [farPlace] })] }

/-- The premises of the claim on placements hold of thread `g`, and the step counts a data error on the thread that it places. -/
def countsPlaced (s : State) (lk g : Nat) (p : Place) : Bool :=
  nextPlace s lk == some (p, g) && !tileClosed s (tileOf g) && !slotWanted s lk g && launchPinned s lk &&
    match exec (.launchRecordPlacement lk) s with
    | .next u => (u.thread g).data != 0
    | _ => false

theorem farState_counts : countsPlaced farState 5 Config.threads farPlace = true := by decide +kernel

theorem countsPlaced_iff {s : State} {lk g : Nat} {p : Place} (h : countsPlaced s lk g p = true) :
    nextPlace s lk = some (p, g) ∧ tileClosed s (tileOf g) = false ∧ slotWanted s lk g = false ∧ launchPinned s lk = true ∧
      ∃ u, exec (.launchRecordPlacement lk) s = .next u ∧ (u.thread g).data ≠ 0 := by
  simp only [countsPlaced, Bool.and_eq_true, Bool.not_eq_true', beq_iff_eq] at h
  obtain ⟨⟨⟨⟨hnext, hopen⟩, hwanted⟩, hpinned⟩, hdata⟩ := h
  refine ⟨hnext, hopen, hwanted, hpinned, ?_⟩
  split at hdata
  · next u hu => exact ⟨u, hu, by simpa using hdata⟩
  · cases hdata

/-- Refutes O37: the claim on placements holds a new thread to have no data errors, for every slot. Where an owner's berth lies
past the module's last, the slot can be number `Config.threads`, which is how the model names a maker that is no thread
(`ownerWho`): the data error of the walk for the launch's signal is then counted on the thread just placed. -/
theorem not_threadLife : ¬ Obligations.ThreadLife := by
  rintro ⟨hplaced, -⟩
  obtain ⟨hnext, hopen, hwanted, hpinned, u, hu, hdata⟩ := countsPlaced_iff farState_counts
  obtain ⟨v, hv, ⟨-, -, -, -, -, -, -, -, -, hzero, -⟩, -⟩ := hplaced farState 5 Config.threads farPlace hnext hopen hwanted (.inl hpinned)
  obtain rfl : v = u := by
    rw [hv] at hu
    exact Host.Outcome.next.inj hu
  exact hdata hzero

end Sys2Proof.Machine
end

section
/-! PROOFS. Physical slots (spec/16 R323, spec/17 R353). -/

namespace Sys2Proof.Machine

open Sys2Proof.Claims

/-! ### Leaving a slot -/

/-- No entry of a list of swaps for a slot leaves. -/
theorem swap_kept {l : List (Nat × Nat)} {p : Nat} (h : l.any (fun e => e.1 == p) = false) : l.filter (fun e => e.1 != p) = l := by
  rw [List.filter_eq_self]
  intro e he
  have hany := List.any_eq_false.mp h e he
  simpa using hany

/-- A thread leaves its physical slot to the next overflow thread, which in strict rotation does not come at once (R323, R353). -/
theorem vacate_slot {s : State} {g p : Nat} (hpause : s.pause = none)
    (hp : physOfSlot (s.core (coreOf g)) (slotOf g) = some p) :
    ∃ n, ((vacate s g true).core (coreOf g)).phys = (s.core (coreOf g)).phys.set p n ∧ (coreDet s (coreOf g) = true → n = none) ∧
      ((vacate s g true).core (coreOf g)).swap = (p, (s.core (coreOf g)).clock + 64) :: (s.core (coreOf g)).swap := by
  unfold physOfSlot at hp
  dsimp only at hp
  split at hp
  · next h =>
    obtain ⟨hlen, hswap⟩ := h
    obtain rfl := Option.some.inj hp
    have hkept := swap_kept (by simpa using hswap)
    unfold vacate
    dsimp only
    rw [State.core_mod, if_neg (Nat.not_le.mpr hlen), if_neg (by rw [State.modCore]; simp [hpause])]
    split
    · next n hn =>
      refine ⟨some n, ?_, fun hdet => ?_, ?_⟩
      · rw [swapIn, State.core_mod, State.core_mod]
      · have hdet' : coreDet (s.modCore (coreOf g) fun x => { x with overflow := x.overflow.erase (slotOf g) }) (coreOf g) = true := hdet
        rw [hdet'] at hn
        cases hn
      · rw [swapIn, State.core_mod, State.core_mod]
        exact congrArg _ hkept
    · refine ⟨none, ?_, fun _ => rfl, ?_⟩
      · rw [State.core_set]
      · rw [State.core_set]
        exact congrArg _ hkept
  · cases hp

/-- What some entry of a map has, some entry has after a write that keeps it. -/
theorem any_mput {α : Type} {P : Nat × α → Bool} {m : FMap α} {k : Nat} {v : α}
    (hk : ∀ x, mget m k = some x → P (k, x) = true → P (k, v) = true) (h : m.any P = true) : (mput m k v).any P = true := by
  induction m with
  | nil => cases h
  | cons p m ih =>
    obtain ⟨a, b⟩ := p
    rw [List.any_cons, Bool.or_eq_true] at h
    unfold mput
    split
    · next ha =>
      subst ha
      rw [List.any_cons, Bool.or_eq_true]
      exact h.imp_left (hk b (by simp [mget]))
    · next ha =>
      split
      · rw [List.any_cons, List.any_cons, Bool.or_eq_true, Bool.or_eq_true]
        exact .inr h
      · rw [List.any_cons, Bool.or_eq_true]
        exact h.imp_right (ih fun x hx => hk x (by rw [mget]; simpa [ha] using hx))

/-- Whether a core is strict is seen of the status and the determinism of its threads. -/
theorem coreDet_setThread {s : State} {g : Nat} {t : Thread} (hs : t.status = (s.thread g).status) (hd : t.det = (s.thread g).det)
    {c : Nat} (hdet : coreDet s c = true) : coreDet (s.setThread g t) c = true := by
  refine any_mput (fun x hx hp => ?_) hdet
  have hthread : s.thread g = x := by rw [State.thread, hx]; rfl
  rw [hthread] at hs hd
  simpa only [hs, hd] using hp

/-! ### Pre-emption (R353) -/

/-- A capture changes what is on its way to a core's queues alone (R46). -/
theorem landPushes_core (s : State) (g k : Nat) :
    ∃ flight inflight, (landPushes s g).core k = { s.core k with flight := flight, inflight := inflight } := by
  rcases core_map (f := Core.mapPushes fun p => if p.g = g then p.land (max (s.core (coreOf g)).clock (s.thread g).ready) else p)
      (s := s) (u := landPushes s g) rfl k with h | ⟨h, h'⟩
  · exact ⟨_, _, h⟩
  · exact ⟨_, _, h.trans h'.symm⟩

/-- A thread that Firn swaps out, its results written (R46). -/
def sweptOut (t : Thread) : Thread := { t.capture with away := true, line := none }

theorem preemption_swaps {s : State} {g p : Nat} (hg : g < Config.threads) (hopen : tileClosed s (tileOf g) = false)
    (hstatus : (s.thread g).status = .ready) (haway : (s.thread g).away = false) (htrap : (s.thread g).trapped = none)
    (hv : vectorDone s g = true) (hp : physOfSlot (s.core (coreOf g)) (slotOf g) = some p) :
    exec (.preemption g) s = .next (vacate ((landPushes s g).setThread g (sweptOut (s.thread g))) g true) := by
  show execPreemption g s = _
  unfold execPreemption
  rw [if_pos hg]
  dsimp only
  rw [if_neg (by simp [hopen, haway, htrap, hstatus, midInstr, hv, hp]), hstatus]
  dsimp only
  have hline : (if false = true ∨ (s.thread g).status = .ready then none else (s.thread g).line) = none := if_pos (.inr hstatus)
  exact congrArg (fun l => Host.Outcome.next (vacate ((landPushes s g).setThread g
    { (s.thread g).capture with away := true, cut := (s.thread g).capture.cut && !false, line := l }) g true)) hline
    |>.trans (by rw [Bool.not_false, Bool.and_true]; rfl)

/-- Settles O38. -/
theorem physicalSlots : Obligations.PhysicalSlots := by
  intro s
  refine ⟨fun g p hg hopen hstatus haway htrap hv hp => ?_, fun c p n hc hp8 hopen hp hn hswap hover => ?_, fun c p e hc hp hf he => ?_⟩
  · have hpause : s.pause = none := by
      rw [tileClosed, Bool.or_eq_false_iff] at hopen
      simpa using hopen.1
    obtain ⟨flight, inflight, hcore⟩ := landPushes_core s g (coreOf g)
    have hv' : ((landPushes s g).setThread g (sweptOut (s.thread g))).core (coreOf g) =
        { s.core (coreOf g) with flight := flight, inflight := inflight } := hcore
    obtain ⟨n, hphys, hdet, hswap⟩ := vacate_slot (s := (landPushes s g).setThread g (sweptOut (s.thread g))) (g := g) (p := p) hpause
      (by rw [hv']; exact hp)
    rw [hv'] at hphys hswap
    refine ⟨_, n, preemption_swaps hg hopen hstatus haway htrap hv hp, ?_⟩
    rw [vacate_thread, State.thread_set]
    exact ⟨rfl, rfl, rfl, rfl, rfl, rfl, hphys, fun h => hdet (coreDet_setThread (s := landPushes s g) (g := g) (t := sweptOut (s.thread g)) rfl rfl h), hswap⟩
  · show ∃ u, execOverflowQuantumExpiry c p s = .next u ∧ _
    rw [execOverflowQuantumExpiry, if_pos ⟨hc, hp8⟩, quantumStep]
    rw [if_neg (by simp [hopen, hp, hswap, hover]), hn]
    dsimp only
    refine ⟨_, rfl, ?_, ?_, ?_⟩
    · exact congrArg Core.phys (State.core_mod s c _)
    · exact congrArg Core.overflow (State.core_mod s c _)
    · rw [swapIn, State.core_mod]
      exact congrArg _ (swap_kept hswap)
  · show ∃ u, execOverflowSwapDone c p s = .next u ∧ _
    rw [execOverflowSwapDone, if_pos ⟨hc, hp⟩, swapStep]
    rw [hf]
    dsimp only
    rw [if_neg (Nat.not_lt.mpr he)]
    refine ⟨_, rfl, ?_, fun k hk => ?_⟩
    · split
      · exact congrArg Core.swap (State.core_set _ _ _)
      · exact congrArg Core.swap (State.core_set _ _ _)
    · rw [hk]
      dsimp only
      rw [State.thread_mod]
      exact ⟨rfl, rfl⟩

end Sys2Proof.Machine
end

section
/-! PROOFS. The service of trap records and the calls of an owner's agent (spec/17 R347, R355, R359). -/

namespace Sys2Proof.Machine

open Sys2Proof.Claims

/-! ### Trap records (R347) -/

theorem trapRecordAppend_appends {s : State} {o : Nat} {r : TrapRec} {l : List TrapRec} (h1 : 1 ≤ o) (ho : o ≤ Config.owners)
    (hheld : (s.owner o).tqHeld = r :: l) (hroom : (s.owner o).tqTail - (s.owner o).tqHead < 248) :
    exec (.trapRecordAppend o) s = .next (tqAppend (s.setOwner o { s.owner o with tqHeld := l }) o r) := by
  show execTrapRecordAppend o s = _
  rw [execTrapRecordAppend, if_pos ⟨h1, ho⟩]
  dsimp only
  rw [hheld]
  exact congrArg _ (if_pos hroom)

/-- The appended record stands last (R347). -/
theorem tqAppend_owner (s : State) (o : Nat) (r : TrapRec) :
    ∃ d m, (tqAppend s o r).owner o =
      { s.owner o with tqTail := (s.owner o).tqTail + 1, tqRecs := (s.owner o).tqRecs ++ [r], data := d, misuse := m } := by
  unfold tqAppend
  dsimp only
  obtain ⟨_, _, hw⟩ := (Written.ownerWrite s o o (s.thread r.g).launch
    ((s.owner o).tq + 64 + BitVec.ofNat 64 ((s.owner o).tqTail % 256 * 64)) r.bytes).owner o
  generalize ownerWrite s o o (s.thread r.g).launch _ r.bytes = v at hw ⊢
  obtain ⟨d, m, hm⟩ := (Written.tqMirror (v.modOwner o fun x => { x with tqTail := x.tqTail + 1, tqRecs := x.tqRecs ++ [r] }) o).owner o
  refine ⟨d, m, hm.trans ?_⟩
  rw [State.owner_mod, hw]

theorem endWork_owner (s : State) (d : Nat) (w : Work) (o : Nat) : (endWork s d w).owner o = s.owner o := rfl
theorem endWork_thread (s : State) (d : Nat) (w : Work) (g : Nat) : (endWork s d w).thread g = s.thread g := rfl

/-- S takes a record up: its die alone changes. -/
theorem takeTrap_cases (s : State) (o : Nat) : ∃ d, takeTrap s o = { s with dies := d } := by
  unfold takeTrap
  split
  · dsimp only
    split
    · exact ⟨_, rfl⟩
    · exact ⟨s.dies, rfl⟩
  · exact ⟨s.dies, rfl⟩

/-- A thread that is trapped ends. -/
theorem endTrapped_thread {s : State} {g : Nat} (h : (s.thread g).trapped.isSome = true) :
    (endTrapped s g).thread g = { s.thread g with trapped := none, status := .halting } := by
  rw [endTrapped, if_neg (by simp [Option.isSome_iff_ne_none.mp h]), State.thread_set]

theorem endTrapped_owner (s : State) (g o : Nat) : (endTrapped s g).owner o = s.owner o := by
  unfold endTrapped
  dsimp only
  split
  · rfl
  · obtain ⟨_, h⟩ := launchError_cases s (s.thread g).launch 0x11
    rw [h]
    rfl

/-- The record at the head has been acted on by the owner's policy (R359). -/
def recordServed (s : State) (o : Nat) (r : TrapRec) : State :=
  let held : Bool := !r.fatal && (s.thread r.g).trapped == some r.resume
  if held && (s.owner o).agentPolicy then s.modOwner o fun x => { x with passed := x.passed ++ [r] }
  else endWork (if held then endTrapped s r.g else s) (dieOf (tileOf r.g)) (.trap r.g)

/-- S serves the record at the head. -/
theorem trapRecordService_serves {s : State} {o : Nat} {r : TrapRec} {l : List TrapRec} (h1 : 1 ≤ o) (ho : o ≤ Config.owners)
    (hrecs : (s.owner o).tqRecs = r :: l) (hrun : (s.die (dieOf (tileOf r.g))).running = true) :
    exec (.trapRecordService o) s = .next (tqMirror ((recordServed (takeTrap s o) o r).modOwner o fun x =>
      { x with tqHead := x.tqHead + 1, tqRecs := l }) o) := by
  obtain ⟨_, ht⟩ := takeTrap_cases s o
  have howner : (takeTrap s o).owner o = s.owner o := by rw [ht]; rfl
  show execTrapRecordService o s = _
  rw [execTrapRecordService, if_pos ⟨h1, ho⟩]
  dsimp only
  rw [hrecs]
  dsimp only
  rw [hrun, if_neg nofun, recordServed, howner]

theorem recordServed_owner (s : State) (o : Nat) (r : TrapRec) :
    ∃ p, (recordServed s o r).owner o = { s.owner o with passed := p } ∧
      ((s.owner o).agentPolicy = true → r.fatal = false → (s.thread r.g).trapped = some r.resume → p = (s.owner o).passed ++ [r]) := by
  unfold recordServed
  dsimp only
  split
  · exact ⟨_, State.owner_mod _ _ _, fun _ _ _ => rfl⟩
  · next h =>
    refine ⟨(s.owner o).passed, ?_, fun hp hf ht => absurd ?_ h⟩
    · rw [endWork_owner]
      split
      · exact endTrapped_owner s r.g o
      · rfl
    · simp [hp, hf, ht]

theorem recordServed_thread (s : State) (o : Nat) (r : TrapRec) :
    ((s.owner o).agentPolicy = true → (recordServed s o r).thread r.g = s.thread r.g) ∧
      ((s.owner o).agentPolicy = false → r.fatal = false → (s.thread r.g).trapped = some r.resume →
        (recordServed s o r).thread r.g = { s.thread r.g with trapped := none, status := .halting }) := by
  unfold recordServed
  dsimp only
  refine ⟨fun hp => ?_, fun hp hf ht => ?_⟩
  · rw [hp, Bool.and_true]
    split
    · rfl
    · rw [endWork_thread]
  · rw [hp, Bool.and_false, if_neg nofun, endWork_thread]
    simp only [hf, ht, Bool.not_false, Bool.true_and, beq_self_eq_true, if_true]
    exact endTrapped_thread (by rw [ht]; rfl)

/-! ### Calls of the agent (R355, R359) -/

theorem takePhys_cases (s : State) (g : Nat) (b : Bool) : ∃ c, takePhys s g b = { s with cores := c } := by
  unfold takePhys
  dsimp only
  split
  · exact ⟨s.cores, rfl⟩
  · split
    · exact ⟨_, rfl⟩
    · split <;> exact ⟨_, rfl⟩

/-- A trapped thread that its agent has called back, at `pc` after clock `c`. -/
def calledBack (t : Thread) (c : Nat) (pc : Word) : Thread :=
  { t.notBefore (c + 1) with trapped := none, away := false, pc := pc, line := none, status := .ready }

theorem takePhys_thread (s : State) (g : Nat) (b : Bool) (k : Nat) : (takePhys s g b).thread k = s.thread k := by
  obtain ⟨_, h⟩ := takePhys_cases s g b
  rw [h]
  rfl

theorem takePhys_owner (s : State) (g : Nat) (b : Bool) (o : Nat) : (takePhys s g b).owner o = s.owner o := by
  obtain ⟨_, h⟩ := takePhys_cases s g b
  rw [h]
  rfl

section
variable {s : State} {g : Nat} (hg : g < Config.threads) (hcall : callStands s g = true)
include hg hcall

theorem trappedThreadResume_resumes {r : Word} (ht : (s.thread g).trapped = some r) (hopen : tileClosed s (tileOf g) = false) (pc : Option Word) :
    exec (.trappedThreadResume g pc) s = .next (takePhys ((callDone s g).setThread g
      (calledBack (s.thread g) (s.core (coreOf g)).clock (pc.getD r))) g true) := by
  show execTrappedThreadResume g pc s = _
  rw [execTrappedThreadResume, if_pos hg]
  dsimp only
  rw [ht]
  dsimp only
  rw [if_neg (by simp [hcall, hopen])]
  rfl

theorem trappedThreadEnd_ends : exec (.trappedThreadEnd g) s = .next (endTrapped (callDone s g) g) := by
  show execTrappedThreadEnd g s = _
  rw [execTrappedThreadEnd, if_pos hg, if_pos hcall]

end

theorem callDone_owner (s : State) (g : Nat) : ((callDone s g).owner (s.thread g).owner).call = some true := by
  rw [callDone, endWork_owner, State.owner_mod]

/-- Settles O39. -/
theorem trapService : Obligations.TrapService := by
  intro s o g h1 ho hg x
  refine ⟨fun r l hheld hroom => ?_, fun r l hrecs hrun => ?_, ?_, ?_⟩
  · obtain ⟨_, _, h⟩ := tqAppend_owner (s.setOwner o { s.owner o with tqHeld := l }) o r
    refine ⟨_, trapRecordAppend_appends h1 ho hheld hroom, ?_⟩
    rw [h, State.owner_set]
    exact ⟨rfl, rfl, rfl⟩
  · obtain ⟨_, ht⟩ := takeTrap_cases s o
    have howner : (takeTrap s o).owner o = s.owner o := by rw [ht]; rfl
    have hthread : (takeTrap s o).thread r.g = s.thread r.g := by rw [ht]; rfl
    obtain ⟨p, hserved, hpassed⟩ := recordServed_owner (takeTrap s o) o r
    obtain ⟨hkept, hended⟩ := recordServed_thread (takeTrap s o) o r
    rw [howner] at hserved hpassed hkept hended
    rw [hthread] at hpassed hkept hended
    obtain ⟨d, m, hm⟩ := (Written.tqMirror ((recordServed (takeTrap s o) o r).modOwner o fun x =>
      { x with tqHead := x.tqHead + 1, tqRecs := l }) o).owner o
    obtain ⟨_, _, _, _, _, hu⟩ := tqMirror_cases ((recordServed (takeTrap s o) o r).modOwner o fun x =>
      { x with tqHead := x.tqHead + 1, tqRecs := l }) o
    have huthread : (tqMirror ((recordServed (takeTrap s o) o r).modOwner o fun x => { x with tqHead := x.tqHead + 1, tqRecs := l }) o).thread
        r.g = (recordServed (takeTrap s o) o r).thread r.g := by
      rw [hu]
      rfl
    rw [State.owner_mod, hserved] at hm
    refine ⟨_, trapRecordService_serves h1 ho hrecs hrun, ?_, ?_, fun hp hf htr => ?_, fun hp => ⟨?_, fun hf htr => ?_⟩⟩
    · rw [hm]
    · rw [hm]
    · rw [huthread, hended hp hf htr]
      exact ⟨rfl, rfl⟩
    · rw [huthread, hkept hp]
    · rw [hm, hpassed hp hf htr]
  · intro t w hrun hpolicy r htr hpassed
    have hcall : callStands s g = true := by
      have htr' : (s.thread g).trapped = some r := htr
      have hpolicy' : (s.owner (s.thread g).owner).agentPolicy = true := hpolicy
      have hpassed' : (s.owner (s.thread g).owner).passed.any (fun q => q.g == g) = true := hpassed
      simp only [callStands, hrun, hpolicy', htr', hpassed', Option.isSome_some, Bool.and_self]
    refine ⟨fun hopen pc => ?_, ?_⟩
    · refine ⟨_, trappedThreadResume_resumes hg hcall htr hopen pc, ?_⟩
      rw [takePhys_thread, takePhys_owner, State.thread_set]
      exact ⟨rfl, rfl, rfl, rfl, rfl, callDone_owner s g⟩
    · have hdone : (callDone s g).thread g = s.thread g := rfl
      have htrapped : ((callDone s g).thread g).trapped.isSome = true := by
        rw [hdone, show (s.thread g).trapped = some r from htr]
        rfl
      have hend := endTrapped_thread htrapped
      refine ⟨_, trappedThreadEnd_ends hg hcall, ?_, ?_, ?_, fun hl => ?_⟩
      · rw [hend]
      · rw [hend]
      · rw [endTrapped_owner]
        exact callDone_owner s g
      · rw [endTrapped, if_neg (by simp [Option.isSome_iff_ne_none.mp htrapped])]
        exact launchError_error (s := callDone s g) (code := 0x11) hl
  · intro w hrun hpolicy htr i hi
    have hcall : callStands s g = false := by simp [callStands, htr]
    have hrefused : callRefused s g = s.modOwner w fun x => { x with call := some false } := if_pos ⟨hrun, hpolicy, by rw [htr]; rfl⟩
    have hresult : ((s.modOwner w fun x => { x with call := some false }).owner w).call = some false := by rw [State.owner_mod]
    simp only [List.mem_cons, List.not_mem_nil, or_false] at hi
    rcases hi with rfl | rfl
    · refine ⟨_, ?_, hresult, rfl⟩
      show execTrappedThreadEnd g s = _
      rw [execTrappedThreadEnd, if_pos hg, if_neg (ne_true_of_eq_false hcall), hrefused]
    · refine ⟨_, ?_, hresult, rfl⟩
      show execTrappedThreadResume g none s = _
      rw [execTrappedThreadResume, if_pos hg]
      dsimp only
      rw [htr]
      exact congrArg _ hrefused

end Sys2Proof.Machine
end

section
/-! PROOFS. The responses of a die's SPDM responder (spec/19 R388). -/

namespace Sys2Proof.Machine

open Sys2Proof.Claims

/-- Request `i` to die `d` is answered with a code and a body, and the session is then `next`. -/
def Replies (s : State) (d : Nat) (i : Instr) (code : Byte) (body : List Byte) (next : Spdm) : Prop :=
  ∃ u, exec i s = .next u ∧ (u.die d).answers = (0x13 :: code :: body) :: (s.die d).answers ∧ (u.die d).spdm = next

/-- An answer stands before the others, and the session stays. -/
theorem answer_die (s : State) (d code : Nat) (body : List Byte) :
    ((answer s d code body).die d).answers = (0x13 :: BitVec.ofNat 8 code :: body) :: (s.die d).answers ∧
      ((answer s d code body).die d).spdm = (s.die d).spdm := by
  rw [answer, State.die_mod]
  exact ⟨rfl, rfl⟩

theorem setSpdm_die (s : State) (d : Nat) (x : Spdm) : (setSpdm s d x).die d = { s.die d with spdm := x } := State.die_mod _ _ _

section
variable {s : State} {d : Nat} {i : Instr}

/-- An answer that leaves the session. -/
theorem replies_answer {code : Nat} {body : List Byte} (hi : exec i s = .next (answer s d code body)) :
    Replies s d i (BitVec.ofNat 8 code) body (s.die d).spdm := ⟨_, hi, answer_die s d code body⟩

/-- One that moves it. -/
theorem replies_moves {code : Nat} {body : List Byte} {x : Spdm} (hi : exec i s = .next (setSpdm (answer s d code body) d x)) :
    Replies s d i (BitVec.ofNat 8 code) body x := by
  refine ⟨_, hi, ?_, ?_⟩
  · rw [setSpdm_die]
    exact (answer_die s d code body).1
  · rw [setSpdm_die]

variable (hd : d < Config.dies) {f : State → State} (hi : exec i s = connectedOp d s f)
include hd hi

/-- Without a connection a request that needs one is refused. -/
theorem connectedOp_refuses (hx : (s.die d).spdm = .none) : Replies s d i 0x7F [4] .none := by
  have h := replies_answer (hi.trans ((if_pos hd).trans (congrArg _ (if_pos hx))) : exec i s = .next (answer s d spdmError (bytesOfNat 1 errUnexpected)))
  rwa [hx] at h

theorem connectedOp_acts (hx : (s.die d).spdm ≠ .none) : exec i s = .next (f s) :=
  hi.trans ((if_pos hd).trans (congrArg _ (if_neg hx)))

end

/-! ### The requests that need a connection -/

section
variable (s : State) (d : Nat)

theorem getCapabilities_op : exec (.getCapabilities d) s = connectedOp d s fun s => answer s d spdmCapabilities [] := rfl

theorem getDigests_op : exec (.getDigests d) s = connectedOp d s fun s => answer s d spdmDigests (shake256 (Config.certificate d) 64) := rfl

theorem getCertificate_op : exec (.getCertificate d) s = connectedOp d s fun s => answer s d spdmCertificate (Config.certificate d) := rfl

theorem negotiateAlgorithms_op :
    exec (.negotiateAlgorithms d true true) s = connectedOp d s fun s => answer s d spdmAlgorithms algorithmsBody := rfl

theorem challenge_op (n : BitVec 256) : exec (.challenge d n) s = connectedOp d s fun s =>
    answer s d spdmChallengeAuth (Config.falconSign d ((s.die d).transcript ++ bytesOfNat 32 n.toNat)) := rfl

/-- The responder's answer with measurement block `k`. -/
def measured (d k : Nat) (s : State) : State :=
  match measurement s d k with
  | some b => answer s d spdmMeasurements b
  | none => answerError s d errInvalid

theorem getMeasurements_op {k : Nat} (h : k ≠ 0) (h' : k ≠ 255) :
    exec (.getMeasurements d k) s = connectedOp d s (measured d k) := by
  show execGetMeasurements d k s = _
  rw [execGetMeasurements]
  simp only [h, h', if_false]
  rfl

theorem keyExchange_op (n : BitVec 256) : exec (.keyExchange d n) s = connectedOp d s fun s =>
    setSpdm { answer s d spdmKeyExchangeRsp (bytesOfNat 64 (Config.randomKey s.draws).toNat ++
      Config.falconSign d ((s.die d).transcript ++ bytesOfNat 32 n.toNat)) with draws := s.draws + 1 } d .exchanged := rfl

theorem finish_op : exec (.finish d) s = connectedOp d s fun s =>
    if (s.die d).spdm = .exchanged then setSpdm (answer s d spdmFinishRsp []) d .session else answerError s d errUnexpected := rfl

theorem endSession_op : exec (.endSession d) s = connectedOp d s fun s =>
    if (s.die d).spdm = .session then setSpdm (answer s d spdmEndSessionAck []) d .connected else answerError s d errUnexpected := rfl

end

/-- Settles O50. -/
theorem attestation : Obligations.Attestation := by
  intro s d hd x replies
  refine ⟨?_, ?_, fun hx i hi => ?_, fun hx => ⟨?_, ?_, ?_, ?_, fun n => ?_, ?_, ?_, fun n => ?_, fun he => ?_, fun he => ?_⟩⟩
  · have h : exec (.getVersion d) s = .next (answer (s.modDie d fun x => { x with spdm := .connected, transcript := [] }) d spdmVersion [0x13]) :=
      if_pos hd
    obtain ⟨hanswers, hspdm⟩ := answer_die (s.modDie d fun x => { x with spdm := .connected, transcript := [] }) d spdmVersion [0x13]
    rw [State.die_mod] at hanswers hspdm
    exact ⟨_, h, hanswers, hspdm⟩
  · exact replies_answer (show execSpdmUnsupportedRequest d s = _ from if_pos hd)
  · simp only [List.mem_cons, List.not_mem_nil, or_false] at hi
    rcases hi with rfl | rfl | rfl | rfl | rfl | rfl | rfl | rfl | rfl
    · exact connectedOp_refuses hd (getCapabilities_op s d) hx
    · exact connectedOp_refuses hd (getDigests_op s d) hx
    · exact connectedOp_refuses hd (getCertificate_op s d) hx
    · exact connectedOp_refuses hd (finish_op s d) hx
    · exact connectedOp_refuses hd (endSession_op s d) hx
    · exact connectedOp_refuses hd (negotiateAlgorithms_op s d) hx
    · exact connectedOp_refuses hd (getMeasurements_op s d (by decide) (by decide)) hx
    · exact connectedOp_refuses hd (challenge_op s d 0) hx
    · exact connectedOp_refuses hd (keyExchange_op s d 0) hx
  · exact replies_answer (connectedOp_acts hd (getCapabilities_op s d) hx)
  · exact replies_answer (connectedOp_acts hd (negotiateAlgorithms_op s d) hx)
  · exact replies_answer (connectedOp_acts hd (getDigests_op s d) hx)
  · exact replies_answer (connectedOp_acts hd (getCertificate_op s d) hx)
  · exact replies_answer (connectedOp_acts hd (challenge_op s d n) hx)
  · exact replies_answer (connectedOp_acts hd (getMeasurements_op s d (by decide) (by decide)) hx)
  · exact replies_answer (connectedOp_acts hd (getMeasurements_op s d (by decide) (by decide)) hx)
  · obtain ⟨hanswers, -⟩ := answer_die s d spdmKeyExchangeRsp (bytesOfNat 64 (Config.randomKey s.draws).toNat ++
      Config.falconSign d ((s.die d).transcript ++ bytesOfNat 32 n.toNat))
    refine ⟨_, connectedOp_acts hd (keyExchange_op s d n) hx, ?_, ?_⟩
    · rw [setSpdm_die]
      exact hanswers
    · rw [setSpdm_die]
  · exact replies_moves ((connectedOp_acts hd (finish_op s d) hx).trans (congrArg _ (if_pos he)))
  · exact replies_moves ((connectedOp_acts hd (endSession_op s d) hx).trans (congrArg _ (if_pos he)))

end Sys2Proof.Machine
end

section
/-! PROOFS. Gating: idle tiles are gated, asked for, and woken one at a time (spec/16 R315 to R317). -/

namespace Sys2Proof.Machine

open Sys2Proof.Claims

section

variable (s : State) (T : Nat)

/-- A tile that joins its die's FIFO stands in it, once or still. -/
theorem joinInrush_any : ((joinInrush s T).die (dieOf T)).inrush.any (·.1 == T) = true := by
  unfold joinInrush
  rw [State.die_mod]
  by_cases h : (s.die (dieOf T)).inrush.any (·.1 == T) = true
  · rw [if_pos h]
    exact h
  · rw [if_neg h]
    simp

theorem joinInrush_tile (U : Nat) : (joinInrush s T).tile U = s.tile U := rfl

theorem holdOver_gated {t : Nat} (h : (s.tile T).gated = some t) : holdOver s T = decide (t + 5000 ≤ s.timebase) := by
  rw [holdOver, h]
  rfl

/-- The tile of a wake request after it. -/
theorem wakeRequest_tile (b : Bool) :
    let r := s.modTile T fun x => { x with wake := true }
    ((if b then joinInrush r T else r).tile T) = { s.tile T with wake := true } := by
  intro r
  have hr : r.tile T = { s.tile T with wake := true } := State.tile_mod s T _
  cases b
  · exact hr
  · exact hr

/-- The state in which the arbiter of a die has granted the wake of tile `y`, the first of its FIFO. -/
def wokenFirst (d y due : Nat) (l : List (Nat × Nat)) : State :=
  (s.setDie d { s.die d with inrush := l, inrushBusy := true, inrushFree := due + 125 }).modTile y fun x =>
    { x with gated := none, wake := false, busyAt := s.timebase }

/-- R317: what the arbiter of a die does with the first of its FIFO. -/
theorem inrushGrant_first {d y j : Nat} {l : List (Nat × Nat)} (hd : d < Config.dies) (hl : (s.die d).inrush = (y, j) :: l) :
    exec (.inrushGrant d) s =
      if (s.die d).inrushBusy ∨ s.pause.isSome ∨ 2 * s.timebase < (s.die d).grantAt s.lastResume j then .next s
      else .next (wokenFirst s d y ((s.die d).grantAt s.lastResume j) l) := by
  show execInrushGrant d s = _
  unfold execInrushGrant
  simp only [hd, if_true, hl]
  rfl

end

/-- Settles O41. -/
theorem gating : Obligations.Gating := by
  intro s T d hT hd x
  refine ⟨fun hg hdet hp hidle hbusy => ?_, fun t hg hneed => ?_, fun t hg hold hwake => ?_, fun y j l hl hbusy hp => ⟨fun hdue => ?_, fun hdue => ?_⟩,
    fun hbusy hfree => ?_⟩
  · refine ⟨s.setTile T { x with gated := some s.timebase, wake := false, held := [] }, (if_pos hT).trans (if_neg ?_), ?_, rfl⟩
    · rintro (h | h | h | h | h)
      · rw [hg] at h; cases h
      · rw [hdet] at h; cases h
      · rw [hp] at h; cases h
      · rw [hidle] at h; cases h
      · exact absurd hbusy (Nat.not_le.mpr h)
    · rw [State.tile_set]
  · have hover : holdOver (s.modTile T fun x => { x with wake := true }) T = decide (t + 5000 ≤ s.timebase) :=
      holdOver_gated _ T (by rw [State.tile_mod]; exact hg)
    refine ⟨_, (if_pos hT).trans (if_neg ?_), ?_, ?_, fun hold => ?_, fun hold => ?_⟩
    · rintro (h | h)
      · rw [hg] at h; cases h
      · rw [hneed] at h; cases h
    · rw [wakeRequest_tile]
    · rw [wakeRequest_tile]; exact hg
    · rw [if_pos (by rw [hover]; exact decide_eq_true hold)]
      exact joinInrush_any _ T
    · rw [if_neg (by rw [hover]; simpa using hold)]
      rfl
  · refine ⟨_, (if_pos hT).trans (congrArg _ (if_pos ⟨?_, hwake⟩)), joinInrush_any s T⟩
    rw [holdOver_gated s T hg]
    exact decide_eq_true hold
  · refine ⟨wokenFirst s d y _ l, (inrushGrant_first s hd hl).trans (if_neg ?_), ?_⟩
    · rintro (h | h | h)
      · rw [hbusy] at h; cases h
      · rw [hp] at h; cases h
      · exact absurd hdue (Nat.not_le.mpr h)
    · have hdie : (wokenFirst s d y ((s.die d).grantAt s.lastResume j) l).die d =
          { s.die d with inrush := l, inrushBusy := true, inrushFree := (s.die d).grantAt s.lastResume j + 125 } := State.die_set s d _
      have htile : ((wokenFirst s d y ((s.die d).grantAt s.lastResume j) l).tile y).gated = none := by
        rw [wokenFirst, State.tile_mod]
      rw [hdie]
      exact ⟨rfl, rfl, rfl, htile⟩
  · exact (inrushGrant_first s hd hl).trans (if_pos (.inr (.inr hdue)))
  · refine ⟨_, (if_pos hd).trans (congrArg _ (if_pos ⟨hbusy, hfree⟩)), ?_⟩
    rw [State.die_set]

end Sys2Proof.Machine
end

section
/-! PROOFS. The inlets of the command engine: tails, phases and hardware slots (spec/18 R365 to R370). -/

namespace Sys2Proof.Machine

open Sys2Proof.Claims

/-- An engine's accesses change no inlet. -/
theorem Written.inlet {s u : State} (h : Written s u) (k : Nat) : u.inlet k = s.inlet k := by
  obtain ⟨_, _, _, _, _, _, rfl⟩ := h.module
  rfl

section

variable (s : State)

theorem inlet_of_mget {id : Nat} {x : Inlet} (h : mget s.inlets id = some x) : s.inlet id = x := by
  rw [State.inlet, h]
  rfl

/-- An inlet that is written holds what is written; its control block in memory follows (R366). -/
theorem putInlet_written (id : Nat) (x : Inlet) : Written (s.setInlet id x) (putInlet s id x) :=
  Written.ownerWrite _ _ _ _ _ _

@[simp] theorem putInlet_inlet (id : Nat) (x : Inlet) : (putInlet s id x).inlet id = x :=
  ((putInlet_written s id x).inlet id).trans (State.inlet_set s id x)

theorem tailAccepted_iff (x : Inlet) (v : BitVec 32) :
    tailAccepted x v = true ↔ (v - x.head).toNat ≤ 2 ^ x.n ∧ (v - x.tail).toNat ≤ 2 ^ x.n := by
  rw [tailAccepted, Bool.and_eq_true, decide_eq_true_eq, decide_eq_true_eq]

/-- A tail that is presented is taken when it fits, else counted as dropped (R367). -/
theorem presentTail_taken {id : Nat} {v : BitVec 32} {ok : Bool} (h : ok = true ∧ tailAccepted (s.inlet id) v = true) :
    (presentTail s id v ok).inlet id = { s.inlet id with tail := v } :=
  (putInlet_inlet s id _).trans (if_pos (Bool.and_eq_true _ _ ▸ h))

theorem presentTail_dropped {id : Nat} {v : BitVec 32} {ok : Bool} (h : ¬ (ok = true ∧ tailAccepted (s.inlet id) v = true)) :
    (presentTail s id v ok).inlet id = { s.inlet id with dropped := bump32 (s.inlet id).dropped } :=
  (putInlet_inlet s id _).trans (if_neg (Bool.and_eq_true _ _ ▸ h))

/-- The number of the inlet that a notify message names. -/
theorem notify_id (n : Nat) : pkField (bytesOfNat 32 n) 0 2 = n % 2 ^ 16 := by
  have h : pkField (bytesOfNat 32 n) 0 2 = natOfBytes (bytesOfNat 2 n) := rfl
  rw [h, natOfBytes_bytesOfNat, show 256 ^ 2 = 2 ^ 16 from rfl]

/-- The inlet after a notify message that passes its checks, and after one that does not (R368). -/
def notified (id : Nat) (x : Inlet) (b : List Byte) : State :=
  if zeroAt b 2 2 ∧ notifyTag x.key b = (b.drop 16).take 16 ∧ x.seq.toNat < (pkWord b 8).toNat ∧
      tailAccepted x (BitVec.ofNat 32 (pkField b 4 4)) then
    putInlet s id { x with seq := pkWord b 8, tail := BitVec.ofNat 32 (pkField b 4 4) }
  else putInlet s id { x with dropped := bump32 x.dropped }

theorem notifyWrite_eq {d id : Nat} {msg : BitVec 256} {x : Inlet} (hd : d < Config.dies) (hid : msg.toNat % 2 ^ 16 = id)
    (hx : mget s.inlets id = some x) :
    exec (.notifyWrite d msg) s = .next (notified s id x (bytesOfNat 32 msg.toNat)) := by
  show execNotifyWrite d msg s = _
  unfold execNotifyWrite notified
  simp only [hd, if_true, notify_id, hid, hx]
  split
  · rfl
  · rfl

/-- The inlet `id` of `x` in its hardware slot (R369). -/
def slotGiven (id : Nat) (x : Inlet) : State :=
  (s.setInlet id { x with slot := true }).modDie x.die fun y => { y with slotLast := y.slotLast.setIfInBounds x.prio id }

theorem slotGiven_inlet (id : Nat) (x : Inlet) (k : Nat) :
    (slotGiven s id x).inlet k = (s.setInlet id { x with slot := true }).inlet k := rfl

theorem slotGiven_last (id : Nat) (x : Inlet) :
    ((slotGiven s id x).die x.die).slotLast = (s.die x.die).slotLast.setIfInBounds x.prio id := by
  rw [slotGiven, State.die_mod]
  rfl

/-- R369: the inlet whose turn it is gets a free hardware slot, or that of an inlet at rest. -/
theorem inletSlotAssign_eq {id : Nat} {x : Inlet} (hx : mget s.inlets id = some x)
    (hturn : inletNext s x.die (s.die x.die).slotLast (inletWants s x.die) = some id) :
    ((slotted s x.die).length < 64 → exec (.inletSlotAssign id) s = .next (slotGiven s id x)) ∧
    (∀ q, 64 ≤ (slotted s x.die).length → (slotted s x.die).find? (fun p => inletAtRest p.2) = some q →
      exec (.inletSlotAssign id) s = .next (slotGiven (s.setInlet q.1 { q.2 with slot := false }) id x)) := by
  have hi := inlet_of_mget s hx
  have hgo : ¬ ((mget s.inlets id).isNone ∨
      inletNext s (s.inlet id).die (s.die (s.inlet id).die).slotLast (inletWants s (s.inlet id).die) ≠ some id) := by
    rw [hi, hx, hturn]
    simp
  subst hi
  refine ⟨fun hfree => (if_neg hgo).trans (if_pos hfree), fun q hfull hrest => (if_neg hgo).trans ((if_neg (Nat.not_lt.mpr hfull)).trans ?_)⟩
  dsimp only
  generalize hp : (slotted s (s.inlet id).die).find? (fun p => inletAtRest p.2) = p
  obtain rfl : p = some q := hp.symm.trans hrest
  rfl

end

/-- Settles O44. -/
theorem inlets : Obligations.Inlets := by
  intro s id x hx fits
  have hi := inlet_of_mget s hx
  refine ⟨fun data => ?_, fun d msg hd hid => ?_, fun hread hphase hretry => ?_, fun hturn => ?_⟩
  · refine ⟨_, if_pos (by rw [hx]; rfl), fun h => ?_, fun h => ?_⟩
    · rw [presentTail_taken s ⟨decide_eq_true h.1, (tailAccepted_iff _ _).mpr (by rw [hi]; exact h.2)⟩, hi]
      exact ⟨rfl, rfl⟩
    · rw [presentTail_dropped s fun h' => h ⟨of_decide_eq_true h'.1, by
        rw [hi] at h'
        exact (tailAccepted_iff _ _).mp h'.2⟩, hi]
      exact ⟨rfl, rfl⟩
  · refine ⟨_, notifyWrite_eq s hd hid hx, fun hgood => ?_, fun hbad => ?_⟩
    · obtain ⟨hzero, htag, hseq, hfits⟩ := hgood
      rw [notified, if_pos ⟨hzero, htag, hseq, (tailAccepted_iff _ _).mpr hfits⟩, putInlet_inlet]
      exact ⟨rfl, rfl, rfl⟩
    · rw [notified, if_neg fun ⟨hzero, htag, hseq, hfits⟩ => hbad ⟨hzero, htag, hseq, (tailAccepted_iff _ _).mp hfits⟩, putInlet_inlet]
      exact ⟨rfl, rfl, rfl⟩
  · subst hi
    have hdue : readDueNow s (s.inlet id) = true := by
      unfold readDueNow
      split
      · rfl
      · next t ht => exact decide_eq_true (hretry t ht)
    refine ⟨_, congrArg Host.Outcome.next (if_pos ⟨by rw [hx]; rfl, hread, by rw [hphase]; rfl, hdue⟩), ?_⟩
    rw [putInlet_inlet]
    exact ⟨rfl, rfl, rfl⟩
  · obtain ⟨hfree, hfull⟩ := inletSlotAssign_eq s hx hturn
    refine ⟨fun h => ⟨_, hfree h, ?_, slotGiven_last s id x⟩, fun q h hrest hq => ⟨_, hfull q h hrest, ?_, ?_, slotGiven_last _ id x⟩⟩
    · rw [slotGiven_inlet, State.inlet_set]
    · rw [slotGiven_inlet, State.inlet_set]
    · rw [slotGiven_inlet, State.inlet_set_other _ _ _ _ hq, State.inlet_set]

end Sys2Proof.Machine
end

section
/-! PROOFS. Packets without launches: their starts, the WAIT that completes, and the completion update (spec/18 R371 to R373, R381
to R383). -/

namespace Sys2Proof.Machine

open Sys2Proof.Claims

/-! ### Starts -/

section

variable (s : State) (id : Nat)

/-- What the engine and S note of a packet that starts changes no inlet. -/
theorem started_inlet (d e n k : Nat) (x : Service) (f : Die → Die) :
    (({ takeWork s d x with starts := n }).modDie e f).inlet k = s.inlet k := rfl

/-- The inlet whose packet is taken. -/
theorem takeHead_inlet : (takeHead s id).inlet id = { s.inlet id with head := (s.inlet id).head + 1, retry := none } := by
  unfold takeHead
  exact (started_inlet _ _ _ _ id _ _).trans (putInlet_inlet _ id _)

theorem takeHead_owner : ((takeHead s id).inlet id).owner = (s.inlet id).owner := by
  rw [takeHead_inlet]

section

variable {s id} {type : Nat} (f : State → List Byte → State) (hnow : startsNow s id = true) (htype : headType s id = type)
  (hnot : type ≠ 1) (hkind : type ≤ 5)

include hnow htype hnot

/-- A packet of its type starts, or ends by its header. -/
theorem startPacket_now : startPacket id type s f =
    if !headerOk (headPacket s (s.inlet id)) ∨ 5 < headType s id then endAtStart s id 0x41 else f s (headPacket s (s.inlet id)) := by
  refine if_neg ?_
  rw [hnow, if_neg hnot, htype]
  simp

include hkind in
theorem startPacket_begins (hok : headerOk (headPacket s (s.inlet id)) = true) :
    startPacket id type s f = f s (headPacket s (s.inlet id)) := by
  refine (startPacket_now f hnow htype hnot).trans (if_neg ?_)
  rw [hok, htype]
  simpa using hkind

theorem startPacket_malformed (hbad : headerOk (headPacket s (s.inlet id)) = false) :
    startPacket id type s f = endAtStart s id 0x41 :=
  (startPacket_now f hnow htype hnot).trans (if_pos (.inl (by rw [hbad]; rfl)))

end

/-- A packet that ends malformed is counted (R372). -/
theorem endAtStart_malformed : endAtStart s id 0x41 =
    completePkt (misuseOwner (takeHead s id) (s.inlet id).owner) id (s.inlet id).head.toNat
      (pkWord (headPacket s (s.inlet id)) 8) none 0x41 false false := rfl

theorem endAtStart_good : endAtStart s id 0 =
    completePkt (takeHead s id) id (s.inlet id).head.toNat (pkWord (headPacket s (s.inlet id)) 8) none 0 false false := rfl

variable {s id}

/-- A signal's address names no null. -/
theorem signal_ne_zero {a : Word} (h : region a = .signal) : a ≠ 0 := by
  rintro rfl
  exact absurd h (by decide)

/-- A SIGNAL that passes its checks updates its target, if the target's page is there. -/
theorem startSignal_update {b : List Byte} (halign : (pkWord b 16).toNat % 32 = 0) (hregion : region (pkWord b 16) = .signal)
    (hset : pkField b 32 1 ≤ 1) (hzero : zeroAt b 33 15 = true) {k : Nat}
    (hkey : sigDest (takeHead s id) ((takeHead s id).inlet id).owner (pkWord b 16) = .key k) :
    startSignal id s b = completePkt
      (engineUpdate (takeHead s id) (s.inlet id).owner 0 k fun v st e err =>
        (if pkField b 32 1 = 1 then (pkWord b 24).toNat else v + (pkWord b 24).toNat, st, e, err))
      id (s.inlet id).head.toNat (pkWord b 8) none 0 false false := by
  have hgo : ¬ (pkWord b 16 = 0 ∨ (pkWord b 16).toNat % 32 ≠ 0 ∨ region (pkWord b 16) ≠ .signal ∨ 1 < pkField b 32 1 ∨
      !zeroAt b 33 15) := by
    rw [hzero]
    rintro (h | h | h | h | h)
    · exact signal_ne_zero hregion h
    · exact h halign
    · exact h hregion
    · exact absurd hset (Nat.not_le.mpr h)
    · cases h
  refine (if_neg hgo).trans ?_
  rw [takeHead_owner] at hkey
  unfold doSignal
  simp only [hkey, takeHead_owner, beq_iff_eq]

/-- A COPY that may name its ranges begins. -/
theorem startCopy_begins {b : List Byte} (hzero : zeroAt b 40 8 = true) (hsrc : copyReach (pkWord b 16) (pkField b 32 8) = true)
    (hdst : copyReach (pkWord b 24) (pkField b 32 8) = true) :
    startCopy id s b = putPkt { takeHead s id with nextId := (takeHead s id).nextId + 1 } id
      (.copy (s.inlet id).head.toNat (pkWord b 16) (pkWord b 24) (pkField b 32 8) 0 (pkWord b 8) 0 false
        { n := (takeHead s id).nextId }) := by
  refine if_neg ?_
  rw [hzero, hsrc, hdst]
  simp

/-- What a WAIT that starts waits for (R381). -/
def waitStarted (s : State) (b : List Byte) : PWait :=
  { key := none, addr := pkWord b 16, c := waitCond (pkField b 32 1), v := pkWord b 24, limit := pkField b 40 8, since := s.work }

/-- A WAIT that passes its checks places its watch. -/
theorem startWait_places {b : List Byte} (halign : (pkWord b 16).toNat % 32 = 0) (hregion : region (pkWord b 16) = .signal)
    (hcond : pkField b 32 1 ≤ 3) (hzero : zeroAt b 33 7 = true) :
    startWait id s b = placeWait (takeHead s id) id (s.inlet id).head.toNat (waitStarted s b) (pkWord b 8) := by
  refine if_neg ?_
  rw [hzero]
  rintro (h | h | h | h)
  · exact h halign
  · exact h hregion
  · exact absurd hcond (Nat.not_le.mpr h)
  · cases h

/-- A watch is placed at once where one is free, else the WAIT stands behind those that wait for one; a read that the memory
controller refuses ends it. -/
theorem placeWait_found {i : Nat} {w : PWait} {sig : Word} {k : Nat} (h : translateNow s (s.inlet id).owner w.addr .load = .ok k) :
    placeWait s id i w sig = if gate s (s.inlet id).owner k ≠ .pass ∨ watchFree s (homeDie k) then beginWatch s id i w sig k
      else putPkt { s with nextId := s.nextId + 1 } id (.wait i { w with ticket := some (k, s.nextId) } sig) := by
  unfold placeWait
  simp only [h]

theorem exec_wait_start (h : waitOf (s.inlet id) = none) : exec (.wait id) s = .next (startPacket id 3 s (startWait id)) := by
  show execWait id s = _
  unfold execWait
  simp only [h]

theorem exec_wait_hit {j : Nat} {w : PWait} {sig : Word} (h : waitOf (s.inlet id) = some (j, w, sig)) (hhit : w.hit = true) :
    exec (.wait id) s = .next (completePkt s id j sig none 0 false true) := by
  show execWait id s = _
  unfold execWait
  simp only [h, hhit, if_true]

theorem exec_waitLimit {j : Nat} {w : PWait} {sig : Word} (h : waitOf (s.inlet id) = some (j, w, sig)) (hhit : w.hit = false)
    (hlimit : w.limit ≠ 0) (hover : w.since + w.limit ≤ s.work) :
    exec (.waitLimitExpiry id) s = .next (completePkt s id j sig none 0x44 false true) := by
  show execWaitLimitExpiry id s = _
  unfold execWaitLimitExpiry
  simp [h, hhit, hlimit, hover]

theorem exec_copy_start (hnow : startsNow s id = true) (htype : headType s id = 5) :
    exec (.copy id) s = .next (startPacket id 5 s (startCopy id)) := if_pos ⟨hnow, htype⟩

end

/-- Settles O45. -/
theorem packetsStart : Obligations.PacketsStart := by
  intro s id x b u i begins
  refine ⟨fun ⟨hnow, htype, hok⟩ => ?_, fun ⟨hnow, htype, hok⟩ halign hregion hset hzero k hkey => ?_,
    fun ⟨hnow, htype, hok⟩ hnone halign hregion hcond hzero k hkey => ?_, fun j w sig hw => ⟨fun hhit => exec_wait_hit hw hhit,
      fun hhit hlimit hover => exec_waitLimit hw hhit hlimit hover⟩,
    fun ⟨hnow, htype, hok⟩ hzero hsrc hdst => ?_, fun hnow _ hbad hnone => ⟨fun htype => ?_, fun htype => ?_, fun htype => ?_, fun htype => ?_⟩⟩
  · exact congrArg _ ((startPacket_begins _ hnow htype (by decide) (by decide) hok).trans (endAtStart_good s id))
  · exact congrArg _ ((startPacket_begins _ hnow htype (by decide) (by decide) hok).trans
      (startSignal_update halign hregion hset hzero hkey))
  · have hstart : exec (.wait id) s = .next (placeWait u id i (waitStarted s b) (pkWord b 8)) :=
      (exec_wait_start hnone).trans (congrArg _ ((startPacket_begins _ hnow htype (by decide) (by decide) hok).trans
        (startWait_places halign hregion hcond hzero)))
    have hplace := placeWait_found (i := i) (w := waitStarted s b) (sig := pkWord b 8) hkey
    refine ⟨fun hpass hfree => ?_, fun hpass hbusy => ?_, fun hrefused => ?_⟩
    · rw [hstart, hplace, if_pos (.inr hfree), beginWatch, if_neg (not_not.mpr hpass)]
      rfl
    · rw [hstart, hplace, if_neg (by rw [hbusy]; rintro (h | h); exacts [h hpass, by cases h])]
      rfl
    · rw [hstart, hplace, if_pos (.inl hrefused), beginWatch, if_pos hrefused]
  · exact (exec_copy_start hnow htype).trans (congrArg _ ((startPacket_begins _ hnow htype (by decide) (by decide) hok).trans
      (startCopy_begins hzero hsrc hdst)))
  · exact congrArg _ ((startPacket_malformed _ hnow htype (by decide) hbad).trans (endAtStart_malformed s id))
  · exact (exec_wait_start hnone).trans (congrArg _ ((startPacket_malformed _ hnow htype (by decide) hbad).trans
      (endAtStart_malformed s id)))
  · exact congrArg _ ((startPacket_malformed _ hnow htype (by decide) hbad).trans (endAtStart_malformed s id))
  · exact (exec_copy_start hnow htype).trans (congrArg _ ((startPacket_malformed _ hnow htype (by decide) hbad).trans
      (endAtStart_malformed s id)))

end Sys2Proof.Machine
end

section
/-! PROOFS. The completion update of a packet (spec/18 R372, R373). -/

namespace Sys2Proof.Machine

open Sys2Proof.Claims

section

variable (s : State)

/-- What a signal update shows to those that watch changes of an inlet its WAITs alone. -/
theorem signalScan_inlet (id : Nat) :
    (signalScan s).inlet id = { s.inlet id with live := (s.inlet id).live.map (signalScanPkt s) } := by
  unfold State.inlet signalScan
  dsimp only
  rw [mget_map fun x : Inlet => { x with live := x.live.map (signalScanPkt s) }]
  cases mget s.inlets id with
  | none => rfl
  | some x => rfl

theorem signalScanPkt_index (p : Pkt) : (signalScanPkt s p).index = p.index := by
  cases p with
  | wait i w sig =>
    unfold signalScanPkt
    dsimp only
    split
    · rfl
    · rfl
  | _ => rfl

variable {s} {k : Nat}

/-- A number in whole data is read as it is, and written with nothing else. -/
theorem unitRead_whole (h : unitOf k ∉ s.poison) (n : Nat) : unitRead s k n = memNat s.mem k n := by
  refine if_neg ?_
  rwa [List.contains_iff_mem]

theorem unitWrite_whole (h : unitOf k ∉ s.poison) (n v mask : Nat) :
    unitWrite s k n v mask = { s with mem := memWriteMask s.mem k n v mask } := by
  unfold unitWrite
  dsimp only
  rw [if_neg (by rwa [List.contains_iff_mem])]

/-- An update of a signal whose data is whole. -/
theorem engineUpdate_whole {o lk : Nat} (hgate : gate s o k = .pass) (h : unitOf k ∉ s.poison)
    (f : Nat → Nat → Nat → Nat → Nat × Nat × Nat × Nat) :
    engineUpdate s o lk k f =
      signalScan { s with mem := memWriteNat s.mem k 32 (signalNew (memNat s.mem k 32) f) } := by
  have hc : s.poison.contains (unitOf k) = false := by
    rw [← Bool.not_eq_true, List.contains_iff_mem]
    exact h
  rw [engineUpdate, if_pos hgate, signalUpdate_eq, hc, countBad, if_neg Bool.false_ne_true, unitRead_whole h,
    unitWrite_whole h, memWriteMask_full]

/-- What such an update leaves in memory. -/
theorem engineUpdate_holds {o lk : Nat} (hgate : gate s o k = .pass) (h : unitOf k ∉ s.poison) (hwf : memWf s.mem = true)
    (f : Nat → Nat → Nat → Nat → Nat × Nat × Nat × Nat) :
    let r := f (memNat s.mem k 8) (memNat s.mem (k + 8) 8) (memNat s.mem (k + 16) 8) (memNat s.mem (k + 24) 4)
    let u := engineUpdate s o lk k f
    SignalHolds u.mem k (r.1 % 2 ^ 64) (r.2.1 % 2 ^ 64) (r.2.2.1 % 2 ^ 64) (r.2.2.2 % 2 ^ 32)
      ((memNat s.mem (k + 28) 4 + 1) % 2 ^ 32) ∧ ∀ a, a < k ∨ k + 32 ≤ a → memByte u.mem a = memByte s.mem a := by
  intro r u
  have hnew : u.mem = memWriteNat s.mem k 32 (signalNew (memNat s.mem k 32) f) :=
    congrArg State.mem (engineUpdate_whole hgate h f)
  have hall := memNat_writeNat hwf k 32 (signalNew (memNat s.mem k 32) f)
  rw [← hnew] at hall
  refine ⟨signalNew_holds hall, fun a ha => ?_⟩
  rw [hnew, memByte_writeNat hwf, if_neg (by omega)]

theorem signalScan_indices (s : State) (m : Mem) (id : Nat) {p : Pkt}
    (hp : p ∈ ((signalScan { s with mem := m }).inlet id).live) : ∃ q ∈ (s.inlet id).live, q.index = p.index := by
  rw [signalScan_inlet] at hp
  obtain ⟨q, hq, rfl⟩ := List.mem_map.mp hp
  exact ⟨q, hq, (signalScanPkt_index _ q).symm⟩

/-- Such an update changes the WAITs among an inlet's packets alone. -/
theorem engineUpdate_indices {o lk : Nat} (hgate : gate s o k = .pass) (h : unitOf k ∉ s.poison)
    (f : Nat → Nat → Nat → Nat → Nat × Nat × Nat × Nat) (id : Nat) {p : Pkt} (hp : p ∈ ((engineUpdate s o lk k f).inlet id).live) :
    ∃ q ∈ (s.inlet id).live, q.index = p.index := by
  rw [engineUpdate_whole hgate h] at hp
  exact signalScan_indices _ _ id hp

theorem dropPkt_inlet (id i : Nat) :
    (dropPkt s id i).inlet id = { s.inlet id with live := (s.inlet id).live.filter fun p => p.index != i } :=
  State.inlet_mod s id fun x : Inlet => { x with live := x.live.filter fun p => p.index != i }

theorem dropPkt_kept (id i : Nat) : (dropPkt s id i).mem = s.mem ∧ (dropPkt s id i).poison = s.poison ∧
    (dropPkt s id i).timebase = s.timebase ∧ ∀ o, gate (dropPkt s id i) o k = gate s o k :=
  ⟨rfl, rfl, rfl, fun _ => rfl⟩

/-- What the completion update makes of a signal's fields (R373). -/
def completed (start now err : Nat) (v _ _ e : Nat) : Nat × Nat × Nat × Nat :=
  (v + 2 ^ 64 - 1, start, now, if e = 0 then err else e)

theorem completeUpdate_eq (o err : Nat) (start : Option Nat) :
    completeUpdate s o k start err = engineUpdate s o 0 k (completed (start.getD s.timebase) s.timebase err) := rfl

/-- A packet that completes and whose signal is at a key leaves the started ones, and its completion update is made. -/
theorem completePkt_update {id i err : Nat} {sig : Word} {start : Option Nat} {wait : Bool}
    (h : sigDest s (s.inlet id).owner sig = .key k) :
    completePkt s id i sig start err false wait =
      engineUpdate (dropPkt s id i) (s.inlet id).owner 0 k (completed (start.getD s.timebase) s.timebase err) := by
  unfold completePkt settlePkt
  simp only [h, Bool.false_eq_true, if_false]
  rfl

end

/-- Settles O47. -/
theorem completionSignals : Obligations.CompletionSignals := by
  intro s id i k err start sig wait hdest hgate _ hwf hwhole
  rw [completePkt_update hdest]
  obtain ⟨hmem, hpoison, -, hsame⟩ := dropPkt_kept (s := s) (k := k) id i
  have hpass := (hsame _).trans hgate
  rw [← hpoison] at hwhole
  rw [← hmem] at hwf
  obtain ⟨⟨hvalue, hstart, hstop, herror, hcount⟩, hother⟩ := engineUpdate_holds (lk := 0) hpass hwhole hwf
    (completed (start.getD s.timebase) s.timebase err)
  rw [hmem] at hvalue herror hcount hother
  refine ⟨hvalue, hstart, hstop, herror.trans ?_, hcount, hother, fun p hp => ?_⟩
  · unfold completed
    dsimp only
    split
    · rfl
    · exact Nat.mod_eq_of_lt (memNat_lt _ _ 4)
  · obtain ⟨q, hq, hi⟩ := engineUpdate_indices hpass hwhole _ id hp
    rw [dropPkt_inlet] at hq
    rw [← hi]
    simpa using (List.mem_filter.mp hq).2

end Sys2Proof.Machine
end

section
/-! PROOFS. Wakes and conversions (spec/18 R358): what goes on after the one, and what ends after the other. -/

namespace Sys2Proof.Machine

open Sys2Proof.Claims

/-! ### What packets and faults note at a die -/

/-- What a relation of die records has to allow for what packets and faults note at a die. -/
structure DieNotes (P : Die → Die → Prop) : Prop where
  refl : ∀ x, P x x
  trans : ∀ {x y z}, P x y → P y z → P x z
  dropCount : ∀ x n, P x { x with dropCount := n }
  faults : ∀ x f h n, P x { x with faults := f, held := h, faultTail := n }
  served : ∀ x l, (∀ y ∈ l, y ∈ x.servicing) → P x { x with servicing := l }

/-- Every die of `u` is in a relation to that of `s`. -/
def DiesFollow (P : Die → Die → Prop) (s u : State) : Prop := ∀ d, P (s.die d) (u.die d)

namespace DiesFollow

section

variable {P : Die → Die → Prop} (hP : DieNotes P)
include hP

theorem refl (s : State) : DiesFollow P s s := fun _ => hP.refl _

theorem trans {s u v : State} (h : DiesFollow P s u) (h' : DiesFollow P u v) : DiesFollow P s v := fun d => hP.trans (h d) (h' d)

theorem of_dies {s u : State} (h : u.dies = s.dies) : DiesFollow P s u := fun d => by
  rw [State.die, State.die, h]
  exact hP.refl _

theorem setDie (s : State) (k : Nat) {x : Die} (h : P (s.die k) x) : DiesFollow P s (s.setDie k x) := by
  intro d
  by_cases hd : d = k
  · rw [hd, State.die_set]
    exact h
  · rw [State.die_set_other s k d x hd]
    exact hP.refl _

theorem written {s u : State} (h : Written s u) : DiesFollow P s u := fun d => by
  obtain ⟨n, hd⟩ := h.die d
  rw [hd]
  exact hP.dropCount _ n

theorem postFault (s : State) (d : Nat) (r : FRec) : DiesFollow P s (postFault s d r) := by
  have hmem : ∀ (u : State) m, DiesFollow P u (u.setMem m) := fun u m => of_dies hP rfl
  unfold Machine.postFault
  dsimp only
  split
  · unfold queueFault
    dsimp only
    refine trans hP ?_ (hmem _ _)
    exact setDie hP s d (hP.faults _ _ _ _)
  · exact setDie hP s d (hP.faults _ _ _ _)

theorem putPkt (s : State) (id : Nat) (p : Pkt) : DiesFollow P s (putPkt s id p) := of_dies hP rfl

theorem dropPkt (s : State) (id i : Nat) : DiesFollow P s (dropPkt s id i) := by
  have hmod : ∀ f, DiesFollow P s (s.modInlet id f) := fun f => of_dies hP rfl
  unfold Machine.dropPkt endWork
  refine trans hP (hmod _) (setDie hP _ _ (hP.served _ _ fun y hy => ?_))
  exact List.mem_of_mem_filter hy

theorem misuseOwner (s : State) (o : Nat) : DiesFollow P s (misuseOwner s o) := of_dies hP rfl

theorem engineUpdate (s : State) (o lk key : Nat) (f : Nat → Nat → Nat → Nat → Nat × Nat × Nat × Nat) :
    DiesFollow P s (engineUpdate s o lk key f) := by
  have hscan : ∀ u, DiesFollow P u (signalScan u) := fun u => of_dies hP rfl
  unfold Machine.engineUpdate
  split
  · rw [signalUpdate_eq]
    exact trans hP (written hP ((Written.countBad s _ _).trans (Written.unitWrite _ _ _ _ _))) (hscan _)
  · exact written hP (Written.gateCount s o key)

theorem holdPkt (s : State) (id i : Nat) (a : Word) (k : AKind) : DiesFollow P s (holdPkt s id i a k) := by
  have hmod : ∀ u f, DiesFollow P u (State.modInlet u id f) := fun u f => of_dies hP rfl
  unfold Machine.holdPkt engineFault
  exact trans hP (written hP (Written.countWalk s _ a)) (trans hP (hmod _ _) (postFault hP _ _ _))

theorem settlePkt (s : State) (id i : Nat) (sig : Word) (start : Option Nat) (err : Nat) (first wait : Bool) :
    DiesFollow P s (settlePkt s id i sig start err first wait) := by
  unfold Machine.settlePkt
  dsimp only
  split
  · exact dropPkt hP s id i
  · exact trans hP (dropPkt hP s id i) (misuseOwner hP _ _)
  · refine trans hP (dropPkt hP s id i) (trans hP ?_ (engineUpdate hP _ _ _ _ _))
    split
    · exact engineUpdate hP _ _ _ _ _
    · exact refl hP _
  · exact trans hP (putPkt hP s id _) (holdPkt hP _ id i sig _)

theorem completePkt (s : State) (id i : Nat) (sig : Word) (start : Option Nat) (err : Nat) (first wait : Bool) :
    DiesFollow P s (completePkt s id i sig start err first wait) := by
  unfold Machine.completePkt
  split
  · exact putPkt hP s id _
  · exact settlePkt hP s id i sig start err false wait

theorem doSignal (s : State) (id i : Nat) (target : Word) (set : Bool) (v sig : Word) :
    DiesFollow P s (doSignal s id i target set v sig) := by
  unfold Machine.doSignal
  dsimp only
  split
  · exact trans hP (engineUpdate hP _ _ _ _ _) (completePkt hP _ _ _ _ _ _ _ _)
  · exact trans hP (putPkt hP s id _) (holdPkt hP _ id i target _)
  · exact completePkt hP _ _ _ _ _ _ _ _

theorem beginWatch (s : State) (id i : Nat) (w : PWait) (sig : Word) (key : Nat) : DiesFollow P s (beginWatch s id i w sig key) := by
  unfold Machine.beginWatch
  dsimp only
  split
  · exact trans hP (written hP (Written.gateCount s _ key)) (completePkt hP _ _ _ _ _ _ _ _)
  · exact trans hP (written hP (Written.countBad s _ _)) (putPkt hP _ id _)

theorem placeWait (s : State) (id i : Nat) (w : PWait) (sig : Word) : DiesFollow P s (placeWait s id i w sig) := by
  have hnext : DiesFollow P s { s with nextId := s.nextId + 1 } := of_dies hP rfl
  unfold Machine.placeWait
  dsimp only
  split
  · split
    · exact beginWatch hP s id i w sig _
    · exact trans hP hnext (putPkt hP _ id _)
  · exact completePkt hP _ _ _ _ _ _ _ _
  · exact trans hP (putPkt hP s id _) (holdPkt hP _ id i _ _)

theorem retryFirst (s : State) (id i lk : Nat) : DiesFollow P s (retryFirst s id i lk) := by
  unfold Machine.retryFirst firstUpdate
  dsimp only
  split
  · exact trans hP (putPkt hP s id _) (engineUpdate hP _ _ _ _ _)
  · exact holdPkt hP s id i _ _
  · exact trans hP (putPkt hP s id _) (misuseOwner hP _ _)
  · exact putPkt hP s id _

theorem retryPkt (s : State) (id : Nat) (p : Pkt) : DiesFollow P s (retryPkt s id p) := by
  cases p with
  | launch i lk first =>
    cases first
    · exact refl hP s
    · exact retryFirst hP s id i lk
  | held i sig st err first wait => exact settlePkt hP s id i sig st err first wait
  | signal i t set v sig => exact doSignal hP s id i t set v sig
  | wait i w sig => exact placeWait hP s id i w sig
  | copy i src dst len next sig err stuck link => exact putPkt hP s id _

theorem convertPkt (s : State) (id : Nat) (p : Pkt) : DiesFollow P s (convertPkt s id p) := by
  cases p with
  | launch i lk first =>
    cases first
    · exact refl hP s
    · exact trans hP (putPkt hP s id _) (misuseOwner hP _ _)
  | held i sig st err first wait =>
    cases first
    · exact trans hP (dropPkt hP s id i) (misuseOwner hP _ _)
    · exact trans hP (misuseOwner hP s _) (settlePkt hP _ _ _ _ _ _ _ _)
  | signal i t set v sig => exact completePkt hP _ _ _ _ _ _ _ _
  | wait i w sig => exact completePkt hP _ _ _ _ _ _ _ _
  | copy i src dst len next sig err stuck link => exact completePkt hP _ _ _ _ _ _ _ _

theorem popHeld (s : State) (id : Nat) (copy : Bool) {f : State → Nat → Pkt → State} (hf : ∀ u p, DiesFollow P u (f u id p)) :
    DiesFollow P s (popHeld s id copy f) := by
  have hset : ∀ x, DiesFollow P s (s.setInlet id x) := fun x => of_dies hP rfl
  unfold Machine.popHeld
  dsimp only
  split
  · exact refl hP s
  · split
    · exact trans hP (hset _) (hf _ _)
    · exact hset _

/-! Traps log what their owner's queue does not take. -/

variable (hL : ∀ x l, P x { x with log := l })
include hL

theorem postTrap (s : State) (o : Nat) (r : TrapRec) : DiesFollow P s (postTrap s o r) := by
  have hset : ∀ (u : State) (x : Owner), DiesFollow P u (u.setOwner o x) := fun u x => of_dies hP rfl
  have hmirror : ∀ (u : State) (x : Owner), DiesFollow P u (tqMirror (u.setOwner o x) o) := fun u x =>
    trans hP (hset u x) (written hP (Written.tqMirror _ o))
  have happend : DiesFollow P s (tqAppend s o r) := by
    unfold tqAppend
    dsimp only
    unfold State.modOwner
    exact trans hP (written hP (Written.ownerWrite s _ _ _ _ _)) (hmirror _ _)
  have herror : ∀ (u : State) lk, DiesFollow P u (launchError u lk 0x30) := by
    intro u lk
    obtain ⟨_, h⟩ := launchError_cases u lk 0x30
    rw [h]
    exact of_dies hP rfl
  unfold Machine.postTrap
  dsimp only
  split
  · split
    · exact happend
    · refine trans hP ?_ (hmirror _ _)
      refine trans hP ?_ (herror _ _)
      exact setDie hP s _ (hL _ _)
  · split
    · exact happend
    · exact hmirror s _

theorem captureOwner (s : State) (g cause sub : Nat) (info resume : Word) : DiesFollow P s (captureOwner s g cause sub info resume) := by
  have hvacate : ∀ u : State, DiesFollow P u (vacate u g true) := by
    intro u d
    obtain ⟨-, -, h, -⟩ := vacate_parties u g true d
    rw [h]
    exact hP.refl _
  have hland : DiesFollow P s (landPushes s g) := of_dies hP rfl
  have hset : ∀ (u : State) t, DiesFollow P u (u.setThread g t) := fun u t => of_dies hP rfl
  have hpost : DiesFollow P s (Machine.postTrap (landPushes s g) (s.thread g).owner (trapRecord (landPushes s g) g cause sub info resume)) :=
    trans hP hland (postTrap hP hL _ _ _)
  cases h : trapFatal cause
  · rw [captureOwner_replayable s g sub info resume h]
    exact trans hP hpost (trans hP (hset _ _) (hvacate _))
  · rw [captureOwner_fatal s g sub info resume h]
    refine trans hP hpost (trans hP ?_ (trans hP (hset _ _) (hvacate _)))
    split
    · exact refl hP _
    · obtain ⟨_, h⟩ := launchError_cases (Machine.postTrap (landPushes s g) (s.thread g).owner
        (trapRecord (landPushes s g) g cause sub info resume)) (s.thread g).launch 0x11
      rw [h]
      exact of_dies hP rfl

omit hL in
theorem parkThread (s : State) (g : Nat) (w : Wait) : DiesFollow P s (parkThread s g w) := by
  obtain ⟨_, _, _, h⟩ := parkThread_cases s g w
  rw [h]
  exact of_dies hP rfl

theorem ownerTrap (s : State) (g cause sub : Nat) (info resume : Word) : DiesFollow P s (ownerTrap s g cause sub info resume) := by
  unfold Machine.ownerTrap
  split
  · exact captureOwner hP hL s g cause sub info resume
  · exact parkThread hP s g _

theorem goesOn {s u : State} {g : Nat} (h : GoesOn s u g) : DiesFollow P s u := by
  obtain ⟨t, _, h⟩ := h
  have hset : DiesFollow P s (s.setThread g t) := of_dies hP rfl
  rcases h with ⟨rfl, _⟩ | (rfl | rfl) | ⟨_, _, _, rfl⟩
  · exact hset
  · exact trans hP hset (parkThread hP _ g _)
  · exact trans hP hset (parkThread hP _ g _)
  · exact trans hP hset (ownerTrap hP hL _ g _ 0 _ _)

end

end DiesFollow

/-! ### The wake and convert registers stand -/

/-- The wake and convert registers of a die are as before. -/
def SameWakes (x y : Die) : Prop := y.wake = x.wake ∧ y.convert = x.convert

theorem sameWakes_notes : DieNotes SameWakes where
  refl _ := ⟨rfl, rfl⟩
  trans h h' := ⟨h'.1.trans h.1, h'.2.trans h.2⟩
  dropCount _ _ := ⟨rfl, rfl⟩
  faults _ _ _ _ := ⟨rfl, rfl⟩
  served _ _ _ := ⟨rfl, rfl⟩

/-- The wake and convert registers of the dies are as before. -/
abbrev WakesStand (s u : State) : Prop := DiesFollow SameWakes s u

namespace WakesStand

theorem refl (s : State) : WakesStand s s := DiesFollow.refl sameWakes_notes s

theorem of_dies {s u : State} (h : u.dies = s.dies) : WakesStand s u := DiesFollow.of_dies sameWakes_notes h

end WakesStand

/-! ### What a wake or a conversion names -/

section

variable (s : State) (d : Nat) (w : WakeId) (f : Die → Die)

/-- A served record and a written register change no thread, no tile and no inlet, nor what the register names. -/
theorem servedFault_names : let v := servedFault d w (s.modDie d f)
    droppedThread v d w = droppedThread s d w ∧ stuckCopy v d w = stuckCopy s d w ∧ wokenInlet v d w = wokenInlet s d w :=
  ⟨rfl, rfl, rfl⟩

theorem servedFault_parties (k : Nat) : let v := servedFault d w (s.modDie d f)
    v.thread k = s.thread k ∧ v.tile k = s.tile k ∧ v.inlet k = s.inlet k ∧ v.mem = s.mem := ⟨rfl, rfl, rfl, rfl⟩

theorem servedFault_registers : ((servedFault d w (s.modDie d f)).die d).wake = (f (s.die d)).wake ∧
    ((servedFault d w (s.modDie d f)).die d).convert = (f (s.die d)).convert := by
  unfold servedFault
  rw [State.die_mod, State.die_mod]
  exact ⟨rfl, rfl⟩

/-- S has taken the wake as written, and the record of the fault as served. -/
def wakeWritten : State := servedFault d w (s.modDie d fun x => { x with wake := some w })

def convertWritten : State := servedFault d w (s.modDie d fun x => { x with convert := some w })

variable {s d w}

/-- A thread that becomes ready goes on where it stood. -/
theorem becomeReady_thread (u : State) (g : Nat) : ((becomeReady u g).thread g).status = .ready ∧
    ((becomeReady u g).thread g).pc = (u.thread g).pc ∧ ((becomeReady u g).thread g).regs = (u.thread g).regs := by
  unfold becomeReady
  rw [State.thread_mod]
  exact ⟨rfl, rfl, rfl⟩

/-- A run of a channel is changed, by its number. -/
theorem modRun_runs (u : State) {T ch n : Nat} (g : Copy → Copy) (hch : ch < 4) {y : Copy}
    (hy : y ∈ (((modRun u T ch n g).tile T).chan ch).runs) (hn : y.n = n) : ∃ x, y = g x := by
  unfold modRun at hy
  rw [State.tile_mod, chan_modChan _ _ hch] at hy
  obtain ⟨x, -, rfl⟩ := List.mem_map.mp hy
  split at hn
  · next h =>
    rw [if_pos h]
    exact ⟨x, rfl⟩
  · next h => exact absurd hn h

section

variable (hd : d < Config.dies)
include hd

theorem wake_stopped (h : (s.die d).running = false) : exec (.wakeRegisterWrite d w) s = .next s := by
  refine (if_pos hd).trans (if_pos ?_)
  rw [h]
  rfl

theorem convert_stopped (h : (s.die d).running = false) : exec (.convertRegisterWrite d w) s = .next s := by
  refine (if_pos hd).trans (if_pos ?_)
  rw [h]
  rfl

variable (h : (s.die d).running = true)
include h

theorem wake_stands : ∃ u, exec (.wakeRegisterWrite d w) s = .next u ∧ WakesStand (wakeWritten s d w) u := by
  show ∃ u, execWakeRegisterWrite d w s = .next u ∧ _
  unfold execWakeRegisterWrite
  simp only [hd, h, if_true, Bool.not_true, Bool.false_eq_true, if_false]
  split
  · split
    · exact ⟨_, rfl, WakesStand.of_dies rfl⟩
    · exact ⟨_, rfl, WakesStand.refl _⟩
  · split
    · exact ⟨_, rfl, WakesStand.of_dies rfl⟩
    · exact ⟨_, rfl, WakesStand.refl _⟩
  · split
    · exact ⟨_, rfl, DiesFollow.popHeld sameWakes_notes _ _ _ fun u p => DiesFollow.retryPkt sameWakes_notes u _ p⟩
    · exact ⟨_, rfl, WakesStand.refl _⟩
  · split
    · exact ⟨_, rfl, DiesFollow.popHeld sameWakes_notes _ _ _ fun u p => DiesFollow.retryPkt sameWakes_notes u _ p⟩
    · exact ⟨_, rfl, WakesStand.refl _⟩
  · exact ⟨_, rfl, WakesStand.refl _⟩

theorem convert_stands : ∃ u, exec (.convertRegisterWrite d w) s = .next u ∧ WakesStand (convertWritten s d w) u := by
  show ∃ u, execConvertRegisterWrite d w s = .next u ∧ _
  unfold execConvertRegisterWrite
  simp only [hd, h, if_true, Bool.not_true, Bool.false_eq_true, if_false]
  split
  · split
    · split
      · exact ⟨_, rfl, DiesFollow.ownerTrap sameWakes_notes (fun _ _ => ⟨rfl, rfl⟩) _ _ _ _ _ _⟩
      · exact ⟨_, rfl, WakesStand.refl _⟩
    · exact ⟨_, rfl, WakesStand.refl _⟩
  · split
    · exact ⟨_, rfl, WakesStand.of_dies rfl⟩
    · exact ⟨_, rfl, WakesStand.refl _⟩
  · split
    · exact ⟨_, rfl, DiesFollow.popHeld sameWakes_notes _ _ _ fun u p => DiesFollow.convertPkt sameWakes_notes u _ p⟩
    · exact ⟨_, rfl, WakesStand.refl _⟩
  · split
    · exact ⟨_, rfl, DiesFollow.popHeld sameWakes_notes _ _ _ fun u p => DiesFollow.convertPkt sameWakes_notes u _ p⟩
    · exact ⟨_, rfl, WakesStand.refl _⟩
  · exact ⟨_, rfl, WakesStand.refl _⟩

/-- A wake lets a dropped thread issue again. -/
theorem wake_thread {g : Nat} (hr : w.requester.toNat = 0) (hg : droppedThread s d w = some g) :
    exec (.wakeRegisterWrite d w) s = .next (becomeReady (wakeWritten s d w) g) := by
  obtain ⟨hname, -, -⟩ := servedFault_names s d w fun x => { x with wake := some w }
  show execWakeRegisterWrite d w s = _
  unfold execWakeRegisterWrite
  simp only [hd, h, if_true, Bool.not_true, Bool.false_eq_true, if_false, hr, hname, hg]
  rfl

/-- A wake lets a channel's copy go on. -/
theorem wake_copy {T ch : Nat} {x : Copy} (hr : w.requester.toNat = 1) (hx : stuckCopy s d w = some (T, ch, x)) :
    exec (.wakeRegisterWrite d w) s = .next (modRun (wakeWritten s d w) T ch x.n fun x => { x with fault := none }) := by
  obtain ⟨-, hname, -⟩ := servedFault_names s d w fun x => { x with wake := some w }
  show execWakeRegisterWrite d w s = _
  unfold execWakeRegisterWrite
  simp only [hd, h, if_true, Bool.not_true, Bool.false_eq_true, if_false, hr, hname, hx]
  rfl

/-- A wake lets the COPY of an inlet go on. -/
theorem wake_inlet {id : Nat} (hr : w.requester.toNat = 3) (hid : wokenInlet s d w = some id) :
    exec (.wakeRegisterWrite d w) s = .next (popHeld (wakeWritten s d w) id true retryPkt) := by
  obtain ⟨-, -, hname⟩ := servedFault_names s d w fun x => { x with wake := some w }
  show execWakeRegisterWrite d w s = _
  unfold execWakeRegisterWrite
  simp only [hd, h, if_true, Bool.not_true, Bool.false_eq_true, if_false, hr, hname, hid]
  rfl

/-- A conversion ends the dropped thread with a fatal translation trap. -/
theorem convert_thread {g : Nat} (hr : w.requester.toNat = 0) (hg : droppedThread s d w = some g) :
    ∃ a, exec (.convertRegisterWrite d w) s = .next (ownerTrap (convertWritten s d w) g 6 0 a (s.thread g).pc) := by
  obtain ⟨hname, -, -⟩ := servedFault_names s d w fun x => { x with convert := some w }
  have hdrop : ∃ a b, (s.thread g).status = .dropped a b := by
    unfold droppedThread at hg
    split at hg
    · split at hg
      · next a b hs =>
        split at hg
        · cases hg
          exact ⟨a, b, hs⟩
        · cases hg
      · cases hg
    · cases hg
  obtain ⟨a, b, hs⟩ := hdrop
  refine ⟨a, ?_⟩
  have hs' : ((servedFault d w (s.modDie d fun x => { x with convert := some w })).thread g).status = .dropped a b := hs
  show execConvertRegisterWrite d w s = _
  unfold execConvertRegisterWrite
  simp only [hd, h, if_true, Bool.not_true, Bool.false_eq_true, if_false, hr, hname, hg, hs']
  rfl

/-- A conversion ends a channel's copy. -/
theorem convert_copy {T ch : Nat} {x : Copy} (hr : w.requester.toNat = 1) (hx : stuckCopy s d w = some (T, ch, x)) :
    exec (.convertRegisterWrite d w) s =
      .next (modRun (convertWritten s d w) T ch x.n fun x => { x with fault := none, status := 1, stopped := true }) := by
  obtain ⟨-, hname, -⟩ := servedFault_names s d w fun x => { x with convert := some w }
  show execConvertRegisterWrite d w s = _
  unfold execConvertRegisterWrite
  simp only [hd, h, if_true, Bool.not_true, Bool.false_eq_true, if_false, hr, hname, hx]
  rfl

/-- A conversion ends a held packet of an inlet. -/
theorem convert_inlet {id : Nat} (hr : w.requester.toNat = 2) (hid : wokenInlet s d w = some id) :
    exec (.convertRegisterWrite d w) s = .next (popHeld (convertWritten s d w) id false convertPkt) := by
  obtain ⟨-, -, hname⟩ := servedFault_names s d w fun x => { x with convert := some w }
  show execConvertRegisterWrite d w s = _
  unfold execConvertRegisterWrite
  simp only [hd, h, if_true, Bool.not_true, Bool.false_eq_true, if_false, hr, hname, hid]
  rfl

/-- A conversion ends the held COPY of an inlet. -/
theorem convert_inletCopy {id : Nat} (hr : w.requester.toNat = 3) (hid : wokenInlet s d w = some id) :
    exec (.convertRegisterWrite d w) s = .next (popHeld (convertWritten s d w) id true convertPkt) := by
  obtain ⟨-, -, hname⟩ := servedFault_names s d w fun x => { x with convert := some w }
  show execConvertRegisterWrite d w s = _
  unfold execConvertRegisterWrite
  simp only [hd, h, if_true, Bool.not_true, Bool.false_eq_true, if_false, hr, hname, hid]
  rfl

end

/-! ### The held packets of an inlet -/

variable {f : State → Nat → Pkt → State} {id i : Nat} {l : List Nat} {p : Pkt}

/-- The packet that a wake or a conversion takes is the one that has been held longest. -/
theorem popHeld_copy (u : State) (hheld : (u.inlet id).heldCopy = i :: l)
    (hp : (u.inlet id).live.find? (fun q => q.index == i) = some p) :
    popHeld u id true f = f (u.setInlet id { u.inlet id with heldCopy := l }) id p := by
  unfold popHeld
  simp only [if_true, hheld, hp]

theorem popHeld_packet (u : State) (hheld : (u.inlet id).held = i :: l)
    (hp : (u.inlet id).live.find? (fun q => q.index == i) = some p) :
    popHeld u id false f = f (u.setInlet id { u.inlet id with held := l }) id p := by
  unfold popHeld
  simp only [Bool.false_eq_true, if_false, hheld, hp]

/-- A packet that replaces the one with its index is among the started ones. -/
theorem putPkt_mem (u : State) (p : Pkt) : p ∈ ((putPkt u id p).inlet id).live := by
  unfold putPkt
  rw [State.inlet_mod]
  dsimp only
  split
  · next h =>
    obtain ⟨q, hq, hi⟩ := List.any_eq_true.mp h
    exact List.mem_map.mpr ⟨q, hq, if_pos (by simpa using hi)⟩
  · exact List.mem_append_right _ (List.mem_singleton_self p)

theorem putPkt_held (u : State) (p : Pkt) : ((putPkt u id p).inlet id).heldCopy = (u.inlet id).heldCopy := by
  unfold putPkt
  rw [State.inlet_mod]

end

/-- A fatal owner trap of a thread whose vector instructions have completed ends it at its pc (R345). -/
theorem ownerTrap_fatal_ends {s : State} {g sub cause : Nat} {info resume : Word} (hfatal : trapFatal cause = true) (h : vectorDone s g = true) :
    ((ownerTrap s g cause sub info resume).thread g).status = .halting ∧
      ((ownerTrap s g cause sub info resume).thread g).pc = (s.thread g).pc := by
  unfold ownerTrap
  rw [if_pos h, captureOwner_fatal s g sub info resume hfatal]
  obtain ⟨ht, -⟩ := vacate_parties ((if cause = 10 then
    postTrap (landPushes s g) (s.thread g).owner (trapRecord (landPushes s g) g cause sub info resume) else
    launchError (postTrap (landPushes s g) (s.thread g).owner (trapRecord (landPushes s g) g cause sub info resume))
      (s.thread g).launch 0x11).setThread g (trapped (s.thread g) .halting none)) g true g
  dsimp only
  rw [ht, State.thread_set]
  exact ⟨rfl, rfl⟩

/-- Settles O43. -/
theorem wakesAndConversions : Obligations.WakesAndConversions := by
  intro s d w hd
  refine ⟨fun h => ⟨wake_stopped hd h, convert_stopped hd h⟩, fun h => ?_, fun h => ?_⟩
  · obtain ⟨u, hu, hstands⟩ := wake_stands (w := w) hd h
    obtain ⟨hwake, -⟩ := servedFault_registers s d w fun x => { x with wake := some w }
    refine ⟨u, hu, (hstands d).1.trans hwake, fun g hr hg => ?_, fun T ch x hr hx hch y hy hn => ?_, fun id i l src dst n k sig e b link hr hid hheld hp => ?_⟩
    · obtain rfl : u = _ := Host.Outcome.next.inj (hu.symm.trans (wake_thread hd h (by rw [hr]; rfl) hg))
      obtain ⟨hstatus, hpc, hregs⟩ := becomeReady_thread (wakeWritten s d w) g
      exact ⟨hstatus, hpc, hregs, rfl⟩
    · obtain rfl : u = _ := Host.Outcome.next.inj (hu.symm.trans (wake_copy hd h (by rw [hr]; rfl) hx))
      obtain ⟨z, rfl⟩ := modRun_runs _ _ hch hy hn
      rfl
    · obtain rfl : u = _ := Host.Outcome.next.inj (hu.symm.trans ((wake_inlet hd h (by rw [hr]; rfl) hid).trans
        (congrArg _ (popHeld_copy _ hheld hp))))
      refine ⟨(putPkt_held _ _).trans ?_, putPkt_mem _ _⟩
      rw [State.inlet_set]
  · obtain ⟨u, hu, hstands⟩ := convert_stands (w := w) hd h
    obtain ⟨-, hconvert⟩ := servedFault_registers s d w fun x => { x with convert := some w }
    refine ⟨u, hu, (hstands d).2.trans hconvert, fun g hr hg hvec => ?_, fun T ch x hr hx hch y hy hn => ?_, fun id i l p hid hp => ⟨fun hr hheld => ?_, fun hr hheld src dst n k sig e b link hcopy => ?_⟩⟩
    · obtain ⟨a, ha⟩ := convert_thread hd h (by rw [hr]; rfl) hg
      obtain rfl : u = _ := Host.Outcome.next.inj (hu.symm.trans ha)
      exact ownerTrap_fatal_ends rfl (s := convertWritten s d w) hvec
    · obtain rfl : u = _ := Host.Outcome.next.inj (hu.symm.trans (convert_copy hd h (by rw [hr]; rfl) hx))
      obtain ⟨z, rfl⟩ := modRun_runs _ _ hch hy hn
      exact ⟨rfl, rfl, rfl⟩
    · obtain rfl : u = _ := Host.Outcome.next.inj (hu.symm.trans ((convert_inlet hd h (by rw [hr]; rfl) hid).trans
        (congrArg _ (popHeld_packet _ hheld hp))))
      refine ⟨fun a set n sig hsig => ?_, fun y sig hwait => ?_⟩
      · subst hsig
        rfl
      · subst hwait
        rfl
    · obtain rfl : u = _ := Host.Outcome.next.inj (hu.symm.trans ((convert_inletCopy hd h (by rw [hr]; rfl) hid).trans
        (congrArg _ (popHeld_copy _ hheld hp))))
      subst hcopy
      rfl

end Sys2Proof.Machine
end

section
/-! PROOFS. The interface of an owner (spec/19 R389), and requests that are lost on a link (R393). -/

namespace Sys2Proof.Machine

open Sys2Proof.Claims

/-! ### Wiped memory -/

theorem memByte_absent {m : Mem} {a : Nat} (h : ∀ c ∈ m, c.1 ≠ a) : memByte m a = 0 := by
  induction m with
  | nil => rfl
  | cons c m ih =>
    obtain ⟨b, v⟩ := c
    rw [memByte, if_neg (h _ List.mem_cons_self), ih fun c hc => h c (List.mem_cons_of_mem _ hc)]

/-- Bytes that a wipe leaves out read 0. -/
theorem memByte_filtered (m : Mem) {p : Nat → Bool} {a : Nat} (h : p a = false) : memByte (m.filter fun c => p c.1) a = 0 := by
  refine memByte_absent fun c hc he => ?_
  have hp := (List.mem_filter.mp hc).2
  rw [he, h] at hp
  cases hp

theorem initCore_kept (s : State) (c : Nat) : (initCore s c).mem = s.mem ∧ (initCore s c).owners = s.owners := by
  unfold initCore
  dsimp only
  split
  · exact ⟨rfl, rfl⟩
  · exact ⟨rfl, rfl⟩

/-- A fold of steps that keep a field. -/
theorem foldl_keeps {α β : Type} {f : State → α → State} (g : State → β) (hf : ∀ s a, g (f s a) = g s) (l : List α) :
    ∀ s, g (l.foldl f s) = g s := by
  induction l with
  | nil => exact fun _ => rfl
  | cons a l ih => exact fun s => (ih _).trans (hf s a)

/-- A berth is wiped, and then its cores get the slots of their sites. -/
theorem wipeBerth_cases (s : State) (b : Nat) : ∃ v, wipeBerth s b = (List.range 192).foldl (fun s k => initCore s (b * 192 + k)) v ∧
    v.mem = (s.mem.filter fun c => !inBerth b c.1) ∧ v.owners = s.owners := by
  unfold wipeBerth
  generalize List.range 192 = l
  exact ⟨_, rfl, rfl, rfl⟩

theorem wipeBerth_mem (s : State) (b : Nat) : (wipeBerth s b).mem = s.mem.filter fun c => !inBerth b c.1 := by
  obtain ⟨v, h, hmem, -⟩ := wipeBerth_cases s b
  rw [h, foldl_keeps State.mem fun s k => (initCore_kept s (b * 192 + k)).1, hmem]

theorem wipeBerth_owners (s : State) (b : Nat) : (wipeBerth s b).owners = s.owners := by
  obtain ⟨v, h, -, howners⟩ := wipeBerth_cases s b
  rw [h, foldl_keeps State.owners fun s k => (initCore_kept s (b * 192 + k)).2, howners]

theorem wipeBerths_owners (s : State) (l : List Nat) : (l.foldl wipeBerth s).owners = s.owners :=
  foldl_keeps State.owners wipeBerth_owners l s

/-- Bytes that are absent stay so when berths are wiped. -/
theorem wipeBerths_absent (l : List Nat) : ∀ {s : State} {a : Nat}, (∀ c ∈ s.mem, c.1 ≠ a) → ∀ c ∈ (l.foldl wipeBerth s).mem, c.1 ≠ a := by
  induction l with
  | nil => exact id
  | cons b l ih =>
    intro s a h
    rw [List.foldl_cons]
    refine ih (s := wipeBerth s b) fun c hc => h c ?_
    rw [wipeBerth_mem] at hc
    exact List.mem_of_mem_filter hc

/-- Every byte of a wiped berth reads 0. -/
theorem wipeBerths_zero {l : List Nat} {b a : Nat} (hb : b ∈ l) (ha : inBerth b a = true) :
    ∀ s : State, memByte (l.foldl wipeBerth s).mem a = 0 := by
  induction l with
  | nil => cases hb
  | cons b' l ih =>
    intro s
    rw [List.foldl_cons]
    rcases List.mem_cons.mp hb with rfl | hb
    · refine memByte_absent (wipeBerths_absent l (s := wipeBerth s b) fun c hc he => ?_)
      rw [wipeBerth_mem] at hc
      have hout := (List.mem_filter.mp hc).2
      rw [he, ha] at hout
      cases hout
    · exact ih hb _

/-- Every byte of an owner's wiped frames reads 0, whatever berths are wiped after. -/
theorem wipeFrames_zero {s : State} {o a : Nat} (ha : inFrames s o a = true) (l : List Nat) :
    memByte (l.foldl wipeBerth (wipeFrames s o)).mem a = 0 := by
  refine memByte_absent (wipeBerths_absent l (s := wipeFrames s o) fun c hc he => ?_)
  have hout := (List.mem_filter.mp hc).2
  rw [he, ha] at hout
  cases hout

/-! ### The interface -/

section

variable (s : State) (o : Nat)

theorem setTdisp_owner (x : Tdisp) : (setTdisp s o x).owner o = { s.owner o with tdisp := x } := State.owner_mod s o _

theorem tdispReply_owner (ok : Bool) : (tdispReply s o ok).owner o = { s.owner o with reply := some ok } := State.owner_mod s o _

variable {o} (ho : 1 ≤ o ∧ o ≤ Config.owners)
include ho

theorem exec_lock : exec (.lockInterfaceRequest o) s =
    .next (if (s.owner o).tdisp = .unlocked then tdispReply (setTdisp s o .locked) o true else tdispReply s o false) := if_pos ho

theorem exec_start : exec (.startInterfaceRequest o) s =
    .next (if (s.owner o).tdisp = .locked ∧ !(s.owner o).closing then tdispReply (setTdisp s o .run) o true
      else tdispReply s o false) := if_pos ho

theorem exec_error : exec (.tdispInterfaceError o) s =
    .next (if (s.owner o).tdisp = .run then setTdisp (stopOwner s o) o .error else s) := if_pos ho

omit ho

/-- The interface of an owner whose STOP has been taken. -/
def stopTaken (s : State) (o : Nat) : State := (tdispReply s o true).modOwner o fun y => { y with closing := true }

theorem exec_stop (ho : 1 ≤ o ∧ o ≤ Config.owners) : exec (.stopInterfaceRequest o) s =
    .next (if (s.owner o).tdisp = .unlocked then tdispReply s o false else settleOwner (stopTaken (stopOwner s o) o) o) := if_pos ho

variable (o)

/-- An owner without a live launch has none to stop. -/
theorem stopOwner_quiet (h : ownerQuiet s o = true) : stopOwner s o = s := by
  rw [stopOwner, List.isEmpty_iff.mp h]
  rfl

theorem stopTaken_owner : (stopTaken s o).owner o = { s.owner o with reply := some true, closing := true } := by
  rw [stopTaken, State.owner_mod, tdispReply_owner]

/-- A STOP that has been taken ends at once when no launch is live. -/
theorem settleOwner_stopTaken (h : ownerQuiet s o = true) : settleOwner (stopTaken s o) o =
    ((s.owner o).berths.foldl wipeBerth (wipeFrames (stopTaken s o) o)).modOwner o fun y =>
      { y with tdisp := .unlocked, closing := false } := by
  have ho := stopTaken_owner s o
  unfold settleOwner
  rw [if_pos ⟨by rw [ho], h⟩, ho]

/-- What such a STOP leaves of the owner. -/
theorem stopped_owner : ((((s.owner o).berths.foldl wipeBerth (wipeFrames (stopTaken s o) o)).modOwner o fun y =>
      { y with tdisp := .unlocked, closing := false }).owner o).tdisp = .unlocked ∧
    ((((s.owner o).berths.foldl wipeBerth (wipeFrames (stopTaken s o) o)).modOwner o fun y =>
      { y with tdisp := .unlocked, closing := false }).owner o).reply = some true := by
  have hsame : ((s.owner o).berths.foldl wipeBerth (wipeFrames (stopTaken s o) o)).owner o = (stopTaken s o).owner o := by
    unfold State.owner
    rw [wipeBerths_owners]
    rfl
  rw [State.owner_mod, hsame, stopTaken_owner]
  exact ⟨rfl, rfl⟩

end

/-! ### Losses on links -/

section

variable {s u : State} (h : SameMemory s u)
include h

theorem SameMemory.engineKey (o : Nat) (a : Word) (k : AKind) : engineKey u o a k = engineKey s o a k := by
  have ho : u.owner = s.owner := funext fun o => by rw [State.owner, State.owner, h.owners]
  have hx : translateNow u o a k = translateNow s o a k := by simp only [translateNow, pageWalk, ho, h.walkFrom]
  have hok : windowOk u o a = windowOk s o a := by rw [windowOk, windowOk, ownerTiles, ownerTiles, ho]
  have hw : windowTile u o a = windowTile s o a := by rw [windowTile, windowTile, ownerTile, ownerTile, ho]
  rw [Machine.engineKey, Machine.engineKey, hx, hok, hw]

theorem SameMemory.crossesLink (o : Nat) (p : Pkt) : p.crossesLink u o = p.crossesLink s o := by
  cases p with
  | copy i src dst len next sig err stuck link => simp only [Pkt.crossesLink, linkAt, h.engineKey]
  | _ => rfl

theorem SameMemory.overLink (f : Floe) : f.overLink u = f.overLink s := by
  simp only [Floe.overLink, stopKey, translateNow, pageWalk, State.owner, h.owners, h.walkFrom]

end

theorem loseCopyRead_memory (s : State) (n : Nat) : SameMemory s (loseCopyRead s n) := ⟨rfl, rfl, rfl, rfl, rfl⟩

theorem losePacket_memory (s : State) (n : Nat) : SameMemory s (losePacket (loseCopyRead s n) n) := ⟨rfl, rfl, rfl, rfl, rfl⟩

/-- A map over the entries of a finite map that may look at their keys. -/
theorem mget_mapKey {α : Type} (f : Nat → α → α) (m : FMap α) (k : Nat) :
    mget (m.map fun p => (p.1, f p.1 p.2)) k = (mget m k).map (f k) := by
  induction m with
  | nil => rfl
  | cons p m ih =>
    obtain ⟨a, b⟩ := p
    simp only [List.map_cons, mget]
    split
    · next h =>
      subst h
      rfl
    · exact ih

section

variable (s : State)

/-- What the runs of a channel become when the next read of the copy numbered `n` is lost. -/
def readLost (n T : Nat) (x : Copy) : Copy := if x.n = n ∧ x.readsLink s T then { x with lost := true } else x

def tileLost (n T : Nat) (y : Tile) : Tile :=
  { y with chans := y.chans.map fun k => { k with runs := k.runs.map (readLost s n T) } }

theorem loseCopyRead_tile {n T : Nat} {x : Tile} (h : mget s.tiles T = some x) : (loseCopyRead s n).tile T = tileLost s n T x := by
  have hget : mget (loseCopyRead s n).tiles T = (mget s.tiles T).map (tileLost s n T) := mget_mapKey (tileLost s n) s.tiles T
  rw [State.tile, hget, h]
  rfl

/-- A tile that State does not list runs no copy. -/
theorem tile_listed {T ch : Nat} {y : Copy} (hch : ch < 4) (hy : y ∈ ((s.tile T).chan ch).runs) :
    mget s.tiles T = some (s.tile T) := by
  unfold State.tile at hy ⊢
  cases h : mget s.tiles T with
  | some x => rfl
  | none =>
    rw [h] at hy
    simp [Tile.chan, hch] at hy

theorem loseCopyRead_lost {T ch : Nat} {y : Copy} (hch : ch < 4) (hy : y ∈ ((s.tile T).chan ch).runs)
    (hl : y.readsLink s T = true) : { y with lost := true } ∈ (((loseCopyRead s y.n).tile T).chan ch).runs := by
  have hchan : (((loseCopyRead s y.n).tile T).chan ch).runs = ((s.tile T).chan ch).runs.map (readLost s y.n T) := by
    rw [loseCopyRead_tile s (tile_listed s hch hy)]
    simp [Tile.chan, hch, tileLost]
  rw [hchan]
  exact List.mem_map.mpr ⟨y, hy, if_pos ⟨rfl, hl⟩⟩

/-- What the packets of an inlet of an owner become when the next access of the COPY numbered `n` is lost. -/
def packetLost (n o : Nat) (q : Pkt) : Pkt :=
  match q with
  | .copy i src dst len next sig err stuck link =>
    if link.n = n ∧ q.crossesLink s o then .copy i src dst len next sig err stuck { link with lost := true } else q
  | _ => q

theorem losePacket_eq (n : Nat) : losePacket s n =
    { s with inlets := s.inlets.map fun p => (p.1, { p.2 with live := p.2.live.map (packetLost s n p.2.owner) }) } := rfl

theorem losePacket_lost {id i : Nat} {z : Inlet} {src dst : Word} {len next : Nat} {sig : Word} {err : Nat} {stuck : Bool}
    {link : CopyLink} (hz : mget s.inlets id = some z) (hp : .copy i src dst len next sig err stuck link ∈ z.live)
    (hl : Pkt.crossesLink s z.owner (.copy i src dst len next sig err stuck link) = true) :
    .copy i src dst len next sig err stuck { link with lost := true } ∈ ((losePacket s link.n).inlet id).live := by
  have hin : (losePacket s link.n).inlet id = { z with live := z.live.map (packetLost s link.n z.owner) } := by
    unfold State.inlet
    rw [losePacket_eq]
    dsimp only
    rw [mget_map fun x : Inlet => { x with live := x.live.map (packetLost s link.n x.owner) }, hz]
    rfl
  rw [hin]
  refine List.mem_map.mpr ⟨_, hp, ?_⟩
  exact if_pos ⟨rfl, hl⟩

theorem loseFloeUnit_lost {f : Floe} (hf : f ∈ s.floes) (hl : f.overLink s = true) :
    { f with lost := true } ∈ (loseFloeUnit s f.id).floes :=
  List.mem_map.mpr ⟨f, hf, if_pos ⟨rfl, hl⟩⟩

/-- A number that is no request's is a copy's, a COPY's or a floe's. -/
theorem linkRequestLost_access {n : Nat} (h : findReq s n = none) :
    exec (.linkRequestLost n) s = .next (loseFloeUnit (losePacket (loseCopyRead s n) n) n) := by
  show execLinkRequestLost n s = _
  unfold execLinkRequestLost
  rw [h]

/-- A request that is lost is performed with zero data. -/
theorem linkRequestLost_request {r : Req} (h : findReq s r.id = some r) (hl : overLink r.key = true) (hs : r.stage = .sent)
    (hb : blockedIn r s.traffic = false) :
    exec (.linkRequestLost r.id) s = .next (leaveBank (afterPerform (dataError s r.who) r 0) r.id) := by
  show execLinkRequestLost r.id s = _
  unfold execLinkRequestLost
  rw [h]
  exact if_pos ⟨hl, hs, by rw [hb]; rfl⟩

theorem afterPerform_answers {r : Req} (h : r.by_ = .ordinary ∨ r.by_ = .relaxed ∨ r.by_ = .fetch) (data : BitVec 512) :
    afterPerform s r data = setReq s { r with stage := .performed, data := data } := by
  unfold afterPerform
  rcases h with h | h | h
  · rw [h]
  · rw [h]
  · rw [h]

theorem dataError_owner (w : Who) : ((dataError s w).owner w.owner).data = bump (s.owner w.owner).data := by
  unfold dataError
  obtain ⟨l, hl⟩ := launchError_cases (s.modOwner w.owner fun x => { x with data := bump x.data }) w.launch 0x12
  have howner : (s.modOwner w.owner fun x => { x with data := bump x.data }).owner w.owner = _ := State.owner_mod s w.owner _
  dsimp only
  rw [hl]
  split
  · exact congrArg Owner.data howner
  · exact congrArg Owner.data howner

end

/-- Settles O51. -/
theorem interfacesAndLinks : Obligations.InterfacesAndLinks := by
  intro s o ho ho' x moves answers
  refine ⟨fun h => ?_, fun h => ?_, fun h hopen => ?_, fun h => ?_, fun h => ?_, fun h => ?_, fun h hquiet => ?_,
    fun r hr hl hs hb hby => ?_, fun T ch y hch hn hy hl => ?_, fun f hn hf hl => ?_,
    fun id i z src dst len next sig err stuck link hz hn hp hl => ?_⟩
  · refine ⟨_, (exec_lock s ⟨ho, ho'⟩).trans (congrArg _ (if_pos h)), ?_⟩
    rw [tdispReply_owner, setTdisp_owner]
    exact ⟨rfl, rfl⟩
  · refine ⟨_, (exec_lock s ⟨ho, ho'⟩).trans (congrArg _ (if_neg h)), ?_⟩
    rw [tdispReply_owner]
    exact ⟨rfl, rfl⟩
  · refine ⟨_, (exec_start s ⟨ho, ho'⟩).trans (congrArg _ (if_pos ⟨h, by rw [hopen]; rfl⟩)), ?_⟩
    rw [tdispReply_owner, setTdisp_owner]
    exact ⟨rfl, rfl⟩
  · refine ⟨_, (exec_start s ⟨ho, ho'⟩).trans (congrArg _ (if_neg ?_)), ?_⟩
    · rintro ⟨hx, hc⟩
      rcases h with h | h
      · exact h hx
      · rw [h] at hc
        cases hc
    · rw [tdispReply_owner]
      exact ⟨rfl, rfl⟩
  · refine ⟨_, (exec_stop s ⟨ho, ho'⟩).trans (congrArg _ (if_pos h)), ?_⟩
    rw [tdispReply_owner]
    exact ⟨rfl, rfl⟩
  · refine ⟨_, (exec_error s ⟨ho, ho'⟩).trans (congrArg _ (if_pos h)), ?_⟩
    rw [setTdisp_owner]
  · have hstop : exec (.stopInterfaceRequest o) s = .next (settleOwner (stopTaken s o) o) := by
      refine (exec_stop s ⟨ho, ho'⟩).trans ((congrArg _ (if_neg h)).trans ?_)
      rw [stopOwner_quiet s o hquiet]
    obtain ⟨htdisp, hreply⟩ := stopped_owner s o
    refine ⟨_, hstop.trans (congrArg _ (settleOwner_stopTaken s o hquiet)), htdisp, hreply, fun a ha => ?_, fun c hc a ha => ?_⟩
    · exact wipeFrames_zero (s := stopTaken s o) ha _
    · exact wipeBerths_zero hc ha _
  · refine ⟨_, (linkRequestLost_request s hr hl hs hb).trans (congrArg (fun v => Host.Outcome.next (leaveBank v r.id)) (afterPerform_answers _ hby 0)),
      ?_, ?_, dataError_owner s r.who⟩
    · show (dataError s r.who).mem = s.mem
      rw [dataError_eq]
    · have hfound : findReq (dataError s r.who) r.id = some r := by
        rw [dataError_eq]
        exact hr
      exact findReq_setReq (r' := { r with stage := .performed, data := 0 }) hfound rfl
  · exact ⟨_, linkRequestLost_access s hn, loseCopyRead_lost s hch hy hl, rfl⟩
  · exact ⟨_, linkRequestLost_access s hn, loseFloeUnit_lost (losePacket (loseCopyRead s f.id) f.id) hf
      (((losePacket_memory s f.id).overLink f).trans hl), rfl⟩
  · exact ⟨_, linkRequestLost_access s hn, rfl, losePacket_lost (loseCopyRead s link.n) hz hp
      (((loseCopyRead_memory s link.n).crossesLink _ _).trans hl)⟩

end Sys2Proof.Machine
end

section
/-! PROOFS. What the stop and the end of launches leave at the dies (spec/16 R312, spec/18 R378). -/

namespace Sys2Proof.Machine

/-! ### Threads that are stopped -/

theorem putBack_dies (s : State) (g : Nat) (n : RegNum) (v : Word) : (putBack s g n v).dies = s.dies := by
  unfold putBack
  split
  · rfl
  · dsimp only
    split
    · rfl
    · rfl
  · rfl

theorem putBackAll_dies (s : State) (g : Nat) (l : List (RegNum × Word)) : (putBackAll s g l).dies = s.dies := by
  induction l with
  | nil => rfl
  | cons p l ih => exact (putBack_dies _ g p.1 p.2).trans ih

theorem abandonPush_dies (s : State) (g : Nat) (d : Dst) (tag : Nat) : (abandonPush s g d tag).dies = s.dies := by
  unfold abandonPush
  dsimp only
  split
  · split
    · split
      · rfl
      · rfl
    · rfl
  · rfl
  · rfl

theorem withdraw_dies (s : State) (g : Nat) : (withdraw s g).dies = s.dies := by
  unfold withdraw
  dsimp only
  split
  · rfl
  · exact abandonPush_dies _ g _ _
  · split
    · split
      · exact (abandonPush_dies _ g _ _).trans (putBackAll_dies _ g _)
      · exact putBackAll_dies _ g _
    · rfl
  · rfl

theorem stopThread_dies (s : State) (g : Nat) : (stopThread s g).dies = s.dies := by
  unfold stopThread
  dsimp only
  split
  · rfl
  · split
    · rfl
    · exact withdraw_dies s g

theorem stopThreads_dies (l : List Nat) (s : State) : (l.foldl stopThread s).dies = s.dies :=
  foldl_keeps State.dies stopThread_dies l s

/-! ### Launches that end -/

namespace DiesFollow

section

variable {P : Die → Die → Prop} (hP : DieNotes P)
include hP

/-- A fold of such changes. -/
theorem foldl {α : Type} {f : State → α → State} (hf : ∀ u a, DiesFollow P u (f u a)) (l : List α) :
    ∀ s, DiesFollow P s (l.foldl f s) := by
  induction l with
  | nil => exact refl hP
  | cons a l ih => exact fun s => trans hP (hf s a) (ih _)

/-- Waiting grants leave the lists of the dies. -/
theorem mapWaiting (hW : ∀ x l, P x { x with waiting := l }) (s : State) (f : List RampWait → List RampWait) :
    DiesFollow P s { s with dies := s.dies.map fun d => (d.1, { d.2 with waiting := f d.2.waiting }) } := by
  intro d
  rcases die_map (s := s) (u := { s with dies := s.dies.map fun d => (d.1, { d.2 with waiting := f d.2.waiting }) })
    (f := fun x => { x with waiting := f x.waiting }) rfl d with h | ⟨h, h'⟩
  · rw [h]
    exact hW _ _
  · rw [h, h']
    exact hP.refl _

theorem misuseTimes (s : State) (o n : Nat) : DiesFollow P s (misuseTimes s o n) := by
  induction n with
  | zero => exact refl hP s
  | succ n ih => exact trans hP ih (misuseOwner hP _ o)

theorem unbindActors (s : State) (lk : Nat) : DiesFollow P s (unbindActors s lk) := by
  have hcores : ∀ m, DiesFollow P s { s with cores := m } := fun m => of_dies hP rfl
  unfold Machine.unbindActors
  exact trans hP (hcores _) (misuseTimes hP _ _ _)

theorem unboundIf (s : State) (lk : Nat) (b : Bool) : DiesFollow P s (if b then Machine.unbindActors s lk else s) := by
  cases b
  · exact refl hP s
  · exact unbindActors hP s lk

theorem freeCells (s : State) (lk n : Nat) : DiesFollow P s (freeCells s lk n).1 := by
  induction n with
  | zero => exact refl hP s
  | succ n ih =>
    unfold Machine.freeCells
    dsimp only
    split
    · exact trans hP ih (written hP (Written.engineCount _ _ _ _))
    · exact trans hP ih (written hP (Written.engineWrite _ _ _ _))

theorem refillDeque (s : State) (c : Nat) : DiesFollow P s (refillDeque s c) := by
  have hset : ∀ u x, DiesFollow P u (State.setCore u c x) := fun u x => of_dies hP rfl
  unfold Machine.refillDeque
  exact trans hP (written hP (Written.foldl (fun u i => Written.spillCount u c i) _ s)) (hset _ _)

theorem refillDeques (s : State) : DiesFollow P s (refillDeques s) := by
  unfold Machine.refillDeques
  split
  · exact refl hP s
  · refine foldl hP (fun u p => ?_) _ s
    split
    · exact refillDeque hP u p.1
    · exact refl hP u

theorem discardTasks (s : State) (lk : Nat) : DiesFollow P s (discardTasks s lk) := by
  have hlists : ∀ c t, DiesFollow P s { s with cores := c, tiles := t } := fun c t => of_dies hP rfl
  unfold Machine.discardTasks
  exact trans hP (hlists _ _) (trans hP (refillDeques hP _) (trans hP (freeCells hP _ _ _) (misuseTimes hP _ _ _)))

theorem launchEndCheck (s : State) (lk : Nat) : DiesFollow P s (launchEndCheck s lk) := by
  have hset : ∀ l, DiesFollow P s (s.setLaunch lk l) := fun l => of_dies hP rfl
  unfold Machine.launchEndCheck
  dsimp only
  split
  · exact refl hP s
  · exact trans hP (trans hP (trans hP (hset _) (discardTasks hP _ lk)) (unboundIf hP _ lk _)) (completePkt hP _ _ _ _ _ _ _ _)

theorem launchRefused (s : State) (lk err : Nat) : DiesFollow P s (launchRefused s lk err) := by
  have hset : ∀ l, DiesFollow P s (s.setLaunch lk l) := fun l => of_dies hP rfl
  unfold Machine.launchRefused
  dsimp only
  exact trans hP (trans hP (hset _) (unboundIf hP _ lk _)) (completePkt hP _ _ _ _ _ _ _ _)

theorem launchError (s : State) (lk code : Nat) : DiesFollow P s (launchError s lk code) := by
  obtain ⟨_, h⟩ := launchError_cases s lk code
  rw [h]
  exact of_dies hP rfl

theorem stopLaunch (hW : ∀ x l, P x { x with waiting := l }) (s : State) (lk code : Nat) : DiesFollow P s (stopLaunch s lk code) := by
  have hmod : ∀ u f, DiesFollow P u (State.modLaunch u lk f) := fun u f => of_dies hP rfl
  have hthreads : ∀ (l : List Nat) u, DiesFollow P u (l.foldl stopThread u) := fun l u => of_dies hP (stopThreads_dies l u)
  unfold Machine.stopLaunch
  dsimp only
  split
  · exact refl hP s
  · split
    · exact launchRefused hP s lk code
    · refine trans hP ?_ (launchEndCheck hP _ lk)
      refine trans hP ?_ (hthreads _ _)
      refine trans hP ?_ (mapWaiting hP hW _ _)
      exact trans hP (launchError hP s lk code) (hmod _ _)

end

end DiesFollow

end Sys2Proof.Machine
end

section
/-! PROOFS. Recovery of a supervisor, promotion, and the registers that Firn writes (spec/18 R361 to R364, R390, R391). -/

namespace Sys2Proof.Machine

open Sys2Proof.Claims

/-! ### A supervisor that is recovered -/

/-- A die has the log, the running state and the reports of before, and its supervisor takes up nothing but packets. -/
def SameService (x y : Die) : Prop :=
  y.log = x.log ∧ y.running = x.running ∧ y.reports = x.reports ∧
    ∀ z ∈ y.servicing, z ∈ x.servicing ∨ ∃ a b, z.work = .packet a b

theorem sameService_notes : DieNotes SameService where
  refl _ := ⟨rfl, rfl, rfl, fun _ h => .inl h⟩
  trans := by
    rintro x y z ⟨hl, hr, hp, hs⟩ ⟨hl', hr', hp', hs'⟩
    refine ⟨hl'.trans hl, hr'.trans hr, hp'.trans hp, fun w hw => ?_⟩
    rcases hs' w hw with h | h
    · exact hs w h
    · exact .inr h
  dropCount _ _ := ⟨rfl, rfl, rfl, fun _ h => .inl h⟩
  faults _ _ _ _ := ⟨rfl, rfl, rfl, fun _ h => .inl h⟩
  served _ _ h := ⟨rfl, rfl, rfl, fun z hz => .inl (h z hz)⟩

theorem sameService_waiting (x : Die) (l : List RampWait) : SameService x { x with waiting := l } :=
  ⟨rfl, rfl, rfl, fun _ h => .inl h⟩

abbrev ServiceStands (s u : State) : Prop := DiesFollow SameService s u

section

variable (s : State)

theorem takeHead_service (id : Nat) : ServiceStands s (takeHead s id) := by
  have hN := sameService_notes
  have hset : ∀ (u : State) x, ServiceStands u (u.setInlet id x) := fun u x => .of_dies hN rfl
  have hinlet : ∀ u x, ServiceStands u (putInlet u id x) := fun u x => .trans hN (hset u x) (.written hN (putInlet_written u id x))
  have hwork : ∀ (u : State) d (x : Service), (∃ a b, x.work = .packet a b) → ServiceStands u (takeWork u d x) := by
    rintro u d x ⟨a, b, hx⟩
    refine .setDie hN u d ⟨rfl, rfl, rfl, fun z hz => ?_⟩
    rcases List.mem_cons.mp hz with rfl | hz
    · exact .inr ⟨a, b, hx⟩
    · exact .inl hz
  have hstarts : ∀ (u : State) n, ServiceStands u { u with starts := n } := fun u n => .of_dies hN rfl
  have hlast : ∀ (u : State) d (f : Vector Nat 4 → Vector Nat 4),
      ServiceStands u (u.modDie d fun x => { x with startLast := f x.startLast }) := fun u d f =>
    .setDie hN u d ⟨rfl, rfl, rfl, fun _ h => .inl h⟩
  unfold takeHead
  refine .trans hN ?_ (hlast _ _ fun v => v.setIfInBounds (s.inlet id).prio id)
  refine .trans hN ?_ (hstarts _ _)
  refine .trans hN ?_ (hwork _ _ _ ⟨_, _, rfl⟩)
  exact .trans hN (.written hN (Written.engineCount s _ _ 64)) (hinlet _ _)

theorem restartPkt_service (id : Nat) (p : Pkt) : ServiceStands s (restartPkt s id p) := by
  have hN := sameService_notes
  cases p with
  | signal i t set v sig => exact .completePkt hN _ _ _ _ _ _ _ _
  | wait i w sig => exact .putPkt hN s id _
  | copy i src dst len next sig err stuck link => exact .completePkt hN _ _ _ _ _ _ _ _
  | launch i lk first => exact .refl hN s
  | held i sig st err first wait => exact .refl hN s

theorem restartHead_service (id : Nat) : ServiceStands s (restartHead s id) := by
  have hN := sameService_notes
  unfold restartHead
  dsimp only
  split
  · exact .refl hN s
  · unfold endAtStart
    exact .trans hN (takeHead_service s id) (.completePkt hN _ _ _ _ _ _ _ _)

theorem restartInlets_service (d : Nat) : ServiceStands s (restartInlets s d) := by
  have hN := sameService_notes
  unfold restartInlets
  refine .foldl hN (fun u p => ?_) _ s
  exact .trans hN (.foldl hN (fun v q => restartPkt_service v p.1 q) _ u) (restartHead_service _ p.1)

variable {s}

/-- What a recovery leaves of the die: the log as it is, S running as its image verifies, and no record among what it
services. -/
theorem recoverDie_die (d : Nat) {b : Bool} (hb : decide (shake256 (s.die d).image 64 = (s.die d).measure) = b) :
    ((recoverDie s d).die d).log = (s.die d).log ∧ ((recoverDie s d).die d).running = b ∧
      (b = true → ((recoverDie s d).die d).reports = Vector.replicate 8 s.timebase) ∧
      ∀ z ∈ ((recoverDie s d).die d).servicing, ∃ a b, z.work = .packet a b := by
  have hN := sameService_notes
  have hpackets : ∀ z ∈ (s.die d).servicing.filter (fun y => match y.work with
      | .packet _ _ => true
      | _ => false), ∃ a b, z.work = .packet a b := by
    intro z hz
    have hkind := (List.mem_filter.mp hz).2
    split at hkind
    · next a b h => exact ⟨a, b, h⟩
    · cases hkind
  unfold recoverDie
  dsimp only
  cases b
  · rw [if_neg (of_decide_eq_false hb)]
    obtain ⟨hlog, hrun, -, hserve⟩ := DiesFollow.foldl hN (fun u lk => DiesFollow.stopLaunch hN sameService_waiting u lk 0x32) _ _ d
    rw [State.die_set] at hlog hrun hserve
    refine ⟨hlog, hrun, nofun, fun z hz => ?_⟩
    rcases hserve z hz with h | h
    · exact hpackets z h
    · exact h
  · rw [if_pos (of_decide_eq_true hb)]
    obtain ⟨hlog, hrun, hreports, hserve⟩ := restartInlets_service _ d d
    rw [State.die_set] at hlog hrun hreports hserve
    refine ⟨hlog, hrun, fun _ => hreports, fun z hz => ?_⟩
    rcases hserve z hz with h | h
    · exact hpackets z h
    · exact h

end

/-! ### Promotion -/

/-- The die after the primary in the order, in rotation, is another one when the order names each die once. -/
theorem nextPrimary_ne {s : State} {e : Nat} (h : nextPrimary s = some e) (hn : s.order.Nodup) : e ≠ s.primary := by
  rintro rfl
  have hmem := List.mem_of_find?_eq_some h
  by_cases hin : s.primary ∈ s.order
  · have hlt := List.idxOf_lt_length_of_mem hin
    have hat : s.order[s.order.idxOf s.primary] = s.primary := List.getElem_idxOf hlt
    rcases List.mem_append.mp hmem with hd | ht
    · obtain ⟨k, hk, he⟩ := List.mem_drop_iff_getElem.mp hd
      have := (List.Nodup.getElem_inj_iff hn).mp (he.trans hat.symm)
      omega
    · obtain ⟨k, hk, he⟩ := List.mem_take_iff_getElem.mp ht
      have := (List.Nodup.getElem_inj_iff hn).mp (he.trans hat.symm)
      omega
  · rcases List.mem_append.mp hmem with hd | ht
    · exact hin (List.mem_of_mem_drop hd)
    · exact hin (List.mem_of_mem_take ht)

theorem exec_promotion {s : State} {e : Nat} (h : nextPrimary s = some e) (hb : s.booted = true) (hdue : promotionDue s = true) :
    exec .primaryPromotion s = .next { s with primary := e, heartbeat := s.timebase, promotedAt := s.timebase } := by
  show execPrimaryPromotion s = _
  unfold execPrimaryPromotion
  rw [h]
  exact congrArg _ (if_pos ⟨hb, hdue⟩)

/-- What S logs of the record or packet that it had taken last (R361). -/
def loggedFault (s : State) (d : Nat) (x : Service) : State :=
  s.modDie d fun y => { y with log := y.log ++ [((s.die d).harts.toList.filter (·.mode == .s)).flatMap hartFrame ++ x.bytes] }

/-- The threads of an owner's launches are stopped, the die is recovered, and the launches end. -/
def escalated (s : State) (d o : Nat) : State :=
  (ownerLaunches s o).foldl (fun s lk => stopLaunch s lk 0x31)
    (recoverDie ((ownerLaunches s o).foldl (fun s lk => (launchThreads s lk).foldl stopThread s) s) d)

theorem exec_escalation {s : State} {d : Nat} {x : Service} {l : List Service} (hd : d < Config.dies)
    (hrun : (s.die d).running = true) (hx : (s.die d).servicing = x :: l) :
    exec (.supervisorFaultEscalation d) s = .next (escalated (loggedFault s d x) d x.owner) := by
  show execSupervisorFaultEscalation d s = _
  unfold execSupervisorFaultEscalation
  simp only [hd, if_true, hrun, hx]
  rfl

theorem escalated_die (s : State) (d o : Nat) {b : Bool} (hb : decide (shake256 (s.die d).image 64 = (s.die d).measure) = b) :
    ((escalated s d o).die d).log = (s.die d).log ∧ ((escalated s d o).die d).running = b ∧
      ∀ z ∈ ((escalated s d o).die d).servicing, ∃ a b, z.work = .packet a b := by
  have hN := sameService_notes
  have hstopped : ((ownerLaunches s o).foldl (fun s lk => (launchThreads s lk).foldl stopThread s) s).die d = s.die d := by
    rw [State.die, State.die, foldl_keeps State.dies fun u lk => stopThreads_dies (launchThreads u lk) u]
  rw [← hstopped] at hb
  obtain ⟨hlog, hrun, -, hserve⟩ := recoverDie_die d hb
  obtain ⟨hlog', hrun', -, hserve'⟩ := DiesFollow.foldl hN (fun u lk => DiesFollow.stopLaunch hN sameService_waiting u lk 0x31) (ownerLaunches s o)
    (recoverDie ((ownerLaunches s o).foldl (fun s lk => (launchThreads s lk).foldl stopThread s) s) d) d
  refine ⟨hlog'.trans (hlog.trans (congrArg Die.log hstopped)), hrun'.trans hrun, fun z hz => ?_⟩
  rcases hserve' z hz with h | h
  · exact hserve z h
  · exact h

theorem recovery : Recovery := by
  intro s d hart hd hh verified
  refine ⟨fun x l hrun hx => ?_, fun hrun hlate => ?_, fun hb hdue e he => ?_, fun hrun => ?_⟩
  · have hlogged : (loggedFault s d x).die d = { s.die d with
        log := (s.die d).log ++ [((s.die d).harts.toList.filter (·.mode == .s)).flatMap hartFrame ++ x.bytes] } :=
      State.die_mod s d _
    obtain ⟨hlog, hr, hserve⟩ := escalated_die (loggedFault s d x) d x.owner (b := verified) (by rw [hlogged])
    rw [hlogged] at hlog
    exact ⟨_, exec_escalation hd hrun hx, hlog, hr, hserve⟩
  · obtain ⟨-, hr, hreports, -⟩ := recoverDie_die (s := s) d (b := verified) rfl
    exact ⟨_, (if_pos ⟨hd, hh⟩).trans (congrArg _ (if_pos ⟨hrun, hlate⟩)), hr, hreports⟩
  · exact ⟨_, exec_promotion he hb hdue, rfl, nextPrimary_ne he, List.find?_some (p := fun d => (s.die d).running) he, rfl, rfl⟩
  · exact ⟨_, congrArg Host.Outcome.next (if_pos hrun), rfl⟩

/-! ### Registers -/

/-- A byte that is written changes no other byte, whatever the form of memory. -/
theorem memByte_put_other (m : Mem) {a x : Nat} (b : Byte) (h : a ≠ x) : memByte (memPut m a b) x = memByte m x := by
  have herase : ∀ m : Mem, memByte (memErase m a) x = memByte m x := by
    intro m
    induction m with
    | nil => rfl
    | cons c m ih =>
      obtain ⟨a', b'⟩ := c
      unfold memErase
      split
      · next he =>
        subst he
        rw [memByte, if_neg h]
      · rw [memByte, memByte, ih]
  unfold memPut
  split
  · exact herase m
  · rw [memByte_insert, if_neg h]

theorem memByte_writeList_other (l : List Byte) {x : Nat} : ∀ (m : Mem) {a : Nat}, (x < a ∨ a + l.length ≤ x) →
    memByte (memWriteList m a l) x = memByte m x := by
  induction l with
  | nil => exact fun _ _ _ => rfl
  | cons b l ih =>
    intro m a h
    rw [List.length_cons] at h
    rw [memWriteList, ih _ (by omega), memByte_put_other m b (by omega)]

/-- The bytes of a frame are written anew, and nothing else of memory. -/
theorem recodeFrame_cases (s : State) (f : Nat) : ∃ l n, l.length = 4096 ∧
    recodeFrame s f = { s with mem := memWriteList s.mem (f * 4096) l, draws := n } := by
  unfold recodeFrame
  have hl : ((List.range 4096).map (Config.recoded s.draws)).length = 4096 := by rw [List.length_map, List.length_range]
  generalize (List.range 4096).map (Config.recoded s.draws) = l at hl
  exact ⟨l, _, hl, rfl⟩

/-- The state in which a frame's bytes are as their reader finds them. -/
def frameRead (s : State) (f o : Nat) : State :=
  if o ≠ 0 ∧ (mget s.coded f).getD 0 ≠ o ∧ ((mget s.coded f).getD 0 ≠ 0 ∨ frameWritten s f) then recodeFrame s f else s

theorem frameRead_kept (s : State) (f o : Nat) : (frameRead s f o).frames = s.frames ∧ (frameRead s f o).coded = s.coded ∧
    (∀ a, a / 4096 ≠ f → memByte (frameRead s f o).mem a = memByte s.mem a) := by
  unfold frameRead
  split
  · obtain ⟨l, n, hl, h⟩ := recodeFrame_cases s f
    rw [h]
    exact ⟨rfl, rfl, fun a ha => memByte_writeList_other l s.mem (by omega)⟩
  · exact ⟨rfl, rfl, fun _ _ => rfl⟩

theorem frameRead_same {s : State} {f o : Nat}
    (h : o = 0 ∨ (mget s.coded f).getD 0 = o ∨ (mget s.coded f).getD 0 = 0 ∧ frameWritten s f = false) :
    frameRead s f o = s := by
  refine if_neg ?_
  rintro ⟨ho, hkey, hw⟩
  rcases h with h | h | ⟨hz, hn⟩
  · exact ho h
  · exact hkey h
  · rcases hw with hw | hw
    · exact hw hz
    · rw [hn] at hw
      cases hw

theorem giveFrame_eq {s : State} {f o : Nat} (h : o = 0 ∨ kernelRegion (f * 4096) = false) : giveFrame s f o =
    { frameRead s f o with
      frames := mput (frameRead s f o).frames f o
      coded := if o = 0 then (frameRead s f o).coded else mput (frameRead s f o).coded f o } := by
  refine if_neg ?_
  rintro ⟨ho, hk⟩
  rcases h with h | h
  · exact ho h
  · rw [h] at hk
    cases hk

theorem giveFrame_reserved {s : State} {f o : Nat} (ho : o ≠ 0) (h : kernelRegion (f * 4096) = true) : giveFrame s f o = s :=
  if_pos ⟨ho, h⟩

theorem sluice_written {s : State} {i : Fin 8} {v : Nat}
    (h : (s.die s.primary).running = true ∧ v ≤ s.limits[i] ∧ inRange i.val v = true) :
    exec (.registerWrite (.sluice i v)) s = .next { s with sluice := s.sluice.set i v } := congrArg Host.Outcome.next (if_pos h)

theorem registerWrites : RegisterWrites := by
  intro s writes
  refine ⟨fun i v => ⟨fun hrun hv hr => ?_, fun hv => ?_⟩, fun d hart hd hh hrun => ?_,
    fun id o n prio d ring block key hok => ?_, fun o phys => ?_, fun o block => ?_, fun o b => ?_, fun o b => ?_,
    fun f o => ⟨fun ⟨ho, hk⟩ => ?_, fun h => ?_⟩, fun f => ?_⟩
  · exact ⟨_, sluice_written ⟨hrun, hv, hr⟩, Vector.getElem_set_self ..⟩
  · exact congrArg Host.Outcome.next (if_neg fun h => absurd h.2.1 (Nat.not_le.mpr hv))
  · refine ⟨_, congrArg Host.Outcome.next (if_pos ⟨hd, hrun⟩), ?_⟩
    dsimp only
    rw [State.die_mod]
    exact Vector.getElem_setIfInBounds_self ..
  · refine ⟨_, congrArg Host.Outcome.next (if_pos hok), ?_⟩
    obtain ⟨_, _, _, _, _, _, h⟩ := (putInlet_written s id
      { owner := o, n := n, prio := prio, die := d, ring := ring, block := block, key := key }).module
    rw [h]
    exact mget_mput_same _ _ _
  · refine ⟨_, rfl, ?_⟩
    show ((s.modOwner o fun x => { x with root := phys }).owner o).root = phys
    rw [State.owner_mod]
  · refine ⟨_, rfl, ?_⟩
    obtain ⟨_, _, h⟩ := (Written.tqMirror (s.modOwner o fun x =>
      { x with tq := block, tqTail := 0, tqHead := 0, tqHeld := [], tqRecs := [], tqEsc := 0 }) o).owner o
    show ((tqMirror _ o).owner o).tq = block ∧ ((tqMirror _ o).owner o).tqRecs = []
    rw [h, State.owner_mod]
    exact ⟨rfl, rfl⟩
  · refine ⟨_, rfl, ?_⟩
    show ((s.modOwner o fun x => { x with agentPolicy := b }).owner o).agentPolicy = b
    rw [State.owner_mod]
  · refine ⟨_, rfl, ?_⟩
    show ((s.modOwner o fun x => { x with det := b }).owner o).det = b
    rw [State.owner_mod]
  · exact congrArg Host.Outcome.next (giveFrame_reserved ho hk)
  · obtain ⟨hframes, hcoded, hother⟩ := frameRead_kept s f o
    refine ⟨_, congrArg Host.Outcome.next (giveFrame_eq h), ?_, fun f' hf' => ?_, ⟨fun hsame => ?_, ?_⟩, hother⟩
    · exact mget_mput_same _ _ _
    · rw [hframes]
      exact mget_mput_other _ _ hf'
    · show (frameRead s f o).mem = s.mem
      rw [frameRead_same hsame]
    · dsimp only
      rw [hcoded]
      split
      · rfl
      · exact mget_mput_same _ _ _
  · refine ⟨_, rfl, ?_⟩
    show (f ∈ (if s.locks.contains f then s.locks else f :: s.locks)) ∧
      ∀ f', f' ≠ f → (f' ∈ (if s.locks.contains f then s.locks else f :: s.locks) ↔ f' ∈ s.locks)
    split
    · next h => exact ⟨List.contains_iff_mem.mp h, fun _ _ => Iff.rfl⟩
    · refine ⟨List.mem_cons_self, fun f' hf' => ?_⟩
      rw [List.mem_cons]
      exact ⟨fun h => h.resolve_left hf', .inr⟩

/-- Settles O48. -/
theorem recoveryAndRegisters : Obligations.RecoveryAndRegisters := ⟨recovery, registerWrites⟩

end Sys2Proof.Machine
end

section
/-! PROOFS. Reset, boot, and the assignment of berths (spec/19 R385 to R387, R391). -/

namespace Sys2Proof.Machine

open Sys2Proof.Claims

/-! ### Folds over dies and cores -/

/-- A fold that changes dies of a list, each once, has changed those and no other. -/
theorem foldl_modDie (f : Die → Die) {l : List Nat} (hn : l.Nodup) (k : Nat) : ∀ s : State,
    ((l.foldl (fun s d => s.modDie d f) s).die k) = if k ∈ l then f (s.die k) else s.die k := by
  induction l with
  | nil => exact fun s => by simp
  | cons d l ih =>
    intro s
    obtain ⟨hd, hn⟩ := List.nodup_cons.mp hn
    rw [List.foldl_cons, ih hn]
    by_cases hk : k = d
    · subst hk
      rw [if_neg hd, if_pos List.mem_cons_self, State.die_mod]
    · rw [State.die_mod_other s d k f hk]
      simp only [List.mem_cons, hk, false_or]

/-- Such a fold changes the dies alone. -/
theorem foldl_modDie_cases (f : Die → Die) (l : List Nat) (s : State) :
    ∃ x, l.foldl (fun s d => s.modDie d f) s = { s with dies := x } := by
  induction l generalizing s with
  | nil => exact ⟨_, rfl⟩
  | cons d l ih =>
    obtain ⟨x, h⟩ := ih (s.modDie d f)
    exact ⟨x, h⟩

theorem initCores_cases (g : Nat → Nat) (l : List Nat) (s : State) :
    ∃ c, l.foldl (fun s k => initCore s (g k)) s = { s with cores := c } := by
  induction l generalizing s with
  | nil => exact ⟨_, rfl⟩
  | cons k l ih =>
    obtain ⟨c, h⟩ := ih (initCore s (g k))
    refine ⟨c, h.trans ?_⟩
    unfold initCore
    dsimp only
    split
    · rfl
    · rfl

/-! ### Reset and boot -/

section

variable (s : State)

/-- The fields that a good boot takes from the configuration table (R386). -/
structure TableTaken (w u : State) : Prop where
  log2E : u.log2E = pkField (w.die 0).flash 24 1
  log2W : u.log2W = pkField (w.die 0).flash 25 1
  rollback : u.rollback = pkField (w.die 0).flash 8 8
  revision : u.revision = pkField (w.die 0).flash 8 8
  primary : u.primary = pkField (w.die 0).flash 16 1
  sluice : ∀ i : Fin 8, u.sluice[i] = pkField (w.die 0).flash (28 + 4 * i.val) 4

/-- A state in which a wiped module stands: nothing in memory, no thread, no traffic, no frame, no pause, the tick 0. -/
structure Wiped (u : State) : Prop where
  mem : u.mem = []
  threads : u.threads = []
  traffic : u.traffic = []
  frames : u.frames = []
  pause : u.pause = none
  timebase : u.timebase = 0

theorem wipeModule_wiped : Wiped (wipeModule s) := ⟨rfl, rfl, rfl, rfl, rfl, rfl⟩

/-- What a good boot writes, but for the slots of the cores. -/
theorem bootGood_cases (w : State) : ∃ c v, bootGood w = { v with cores := c } ∧
    v.dies = ((List.range Config.dies).foldl (fun s d => s.modDie d fun x =>
      { x with running := true, delegated := BitVec.allOnes 5, measure := shake256 x.image 64 }) w).dies ∧
    (Wiped w → Wiped v) ∧ v.booted = true ∧ v.bootStatus = 0 ∧ TableTaken w v := by
  obtain ⟨x, hx⟩ := foldl_modDie_cases (fun x =>
    { x with running := true, delegated := BitVec.allOnes 5, measure := shake256 x.image 64 }) (List.range Config.dies) w
  unfold bootGood
  dsimp only
  obtain ⟨c, hc⟩ := initCores_cases id (coresToFill _) _
  refine ⟨c, _, hc, rfl, ?_, rfl, rfl, ⟨rfl, rfl, rfl, rfl, rfl, fun i => Vector.getElem_ofFn ..⟩⟩
  rw [hx]
  rintro ⟨h1, h2, h3, h4, h5, h6⟩
  exact ⟨h1, h2, h3, h4, h5, h6⟩

/-- After a good boot every die's S runs, measured. -/
theorem bootGood_dies (w : State) {d : Nat} (hd : d < Config.dies) :
    ((bootGood w).die d).running = true ∧ ((bootGood w).die d).measure = shake256 (w.die d).image 64 := by
  obtain ⟨c, v, h, hdies, -⟩ := bootGood_cases w
  have hdie : (bootGood w).die d = ((List.range Config.dies).foldl (fun s d => s.modDie d fun x =>
      { x with running := true, delegated := BitVec.allOnes 5, measure := shake256 x.image 64 }) w).die d := by
    rw [h, State.die, State.die, ← hdies]
  rw [hdie, foldl_modDie _ List.nodup_range, if_pos (List.mem_range.mpr hd)]
  exact ⟨rfl, rfl⟩

theorem resetAndBoot : ResetAndBoot := by
  intro s w t
  have hw := wipeModule_wiped s
  refine ⟨?_, fun x => ⟨_, rfl, hw.mem, hw.threads, rfl, rfl⟩⟩
  by_cases hcode : bootCode w = 0
  · have hrun : exec .moduleReset s = .next (bootGood w) := congrArg Host.Outcome.next (if_pos hcode)
    obtain ⟨c, v, h, -, hwiped, hbooted, hstatus, htable⟩ := bootGood_cases w
    obtain ⟨hmem, hthreads, htraffic, hframes, hpause, htime⟩ := hwiped hw
    have hdies : ∀ d, d < Config.dies → _ := fun d hd => bootGood_dies w hd
    rw [h] at hrun hdies
    refine ⟨_, hrun, hmem, hthreads, htraffic, hframes, hpause, htime, hstatus.trans hcode.symm, ⟨fun _ => hcode, fun _ => hbooted⟩, fun _ => ?_⟩
    exact ⟨htable.log2E, htable.log2W, htable.rollback, htable.revision, htable.primary, htable.sluice, hdies⟩
  · have hrun : exec .moduleReset s = .next { w with bootStatus := bootCode w } := congrArg Host.Outcome.next (if_neg hcode)
    refine ⟨_, hrun, hw.mem, hw.threads, hw.traffic, hw.frames, hw.pause, hw.timebase, rfl, ⟨nofun, fun h => absurd h hcode⟩, fun h => absurd h hcode⟩

/-! ### Berths -/

variable {s}

/-- What a wipe of a berth leaves: bytes, threads and the rest outside it; owners and keys as they are. -/
theorem wipeBerth_eq (s : State) (b : Nat) : ∃ p t c a f u m n r x, wipeBerth s b = { s with
    mem := s.mem.filter fun c => !inBerth b c.1, threads := s.threads.filter fun p => berthOf (tileOf p.1) != b
    poison := p, tiles := t, cores := c, barriers := a, traffic := f, atBank := u, served := m, usedAt := n
    rputs := r, floes := x } := by
  unfold wipeBerth
  dsimp only
  generalize List.range 192 = l
  obtain ⟨c, hc⟩ := initCores_cases (fun k => b * 192 + k) l _
  exact ⟨_, _, c, _, _, _, _, _, _, _, hc⟩

theorem memByte_kept (m : Mem) {p : Nat → Bool} {a : Nat} (h : p a = true) : memByte (m.filter fun c => p c.1) a = memByte m a := by
  induction m with
  | nil => rfl
  | cons c m ih =>
    obtain ⟨k, v⟩ := c
    by_cases hk : p k = true
    · rw [List.filter_cons_of_pos (by exact hk), memByte, memByte, ih]
    · rw [List.filter_cons_of_neg (by exact hk), memByte, ih, if_neg]
      rintro rfl
      exact hk h

theorem mget_mem {α : Type} {m : FMap α} {k : Nat} {x : α} (h : mget m k = some x) : (k, x) ∈ m := by
  induction m with
  | nil => cases h
  | cons p m ih =>
    obtain ⟨a, b⟩ := p
    rw [mget] at h
    split at h
    · next hk =>
      cases h
      rw [hk]
      exact List.mem_cons_self
    · exact List.mem_cons_of_mem _ (ih h)

theorem mget_filter_key {α : Type} (m : FMap α) (p : Nat → Bool) (k : Nat) :
    mget (m.filter fun c => p c.1) k = if p k then mget m k else none := by
  induction m with
  | nil => simp [mget]
  | cons c m ih =>
    obtain ⟨a, b⟩ := c
    by_cases ha : p a = true
    · rw [List.filter_cons_of_pos (by exact ha), mget, mget, ih]
      split
      · next hk =>
        subst hk
        rw [if_pos ha]
      · rfl
    · rw [List.filter_cons_of_neg (by exact ha), ih, mget]
      split
      · next hp =>
        rw [if_neg]
        rintro rfl
        exact ha hp
      · rfl

theorem mget_filter_ne {α : Type} {m : FMap α} {p : Nat × α → Bool} {k : Nat} {x : α} (h : mget (m.filter p) k = some x) :
    p (k, x) = true := (List.mem_filter.mp (mget_mem h)).2

/-- Wiping berths changes no owner, no key, no frame's owner and no inlet. -/
theorem wipeBerths_kept (l : List Nat) (s : State) : (l.foldl wipeBerth s).assigned = s.assigned ∧
    (l.foldl wipeBerth s).draws = s.draws ∧ (l.foldl wipeBerth s).owners = s.owners := by
  have hkeep : ∀ (u : State) b, (wipeBerth u b).assigned = u.assigned ∧ (wipeBerth u b).draws = u.draws := by
    intro u b
    obtain ⟨p, t, c, a, f, q, m, n, r, x, h⟩ := wipeBerth_eq u b
    rw [h]
    exact ⟨rfl, rfl⟩
  exact ⟨foldl_keeps State.assigned (fun u b => (hkeep u b).1) l s, foldl_keeps State.draws (fun u b => (hkeep u b).2) l s,
    wipeBerths_owners s l⟩

/-- Nothing names an owner any more but its record: no frame is its, it has no key, and no inlet. -/
structure Forgotten (u : State) (o : Nat) : Prop where
  frames : ∀ f, mget u.frames f ≠ some o
  keys : mget u.keys o = none
  inlets : ∀ i x, mget u.inlets i = some x → x.owner ≠ o

theorem unassignOwner_forgotten (s : State) (o : Nat) : Forgotten (unassignOwner s o) o := by
  refine ⟨fun f h => ?_, ?_, fun i x h => ?_⟩
  · simpa using mget_filter_ne h
  · exact (mget_filter_key _ (fun k => k != o) o).trans (if_neg (by simp))
  · simpa using mget_filter_ne h

theorem unassignOwner_mem (s : State) (o : Nat) :
    (unassignOwner s o).mem = ((s.owner o).berths.foldl wipeBerth (wipeFrames s o)).mem := rfl

theorem unassignOwner_owner (s : State) (o k : Nat) :
    ((unassignOwner s o).owner k).berths = if k = o then [] else (s.owner k).berths := by
  obtain ⟨-, -, howners⟩ := wipeBerths_kept (s.owner o).berths (wipeFrames s o)
  have hk : mget (unassignOwner s o).owners k = mget (mput s.owners o
      { det := (s.owner o).det, agentPolicy := (s.owner o).agentPolicy, data := (s.owner o).data, misuse := (s.owner o).misuse }) k := by
    show mget (mput _ _ _) k = _
    rw [howners]
    rfl
  rw [State.owner, hk]
  split
  · next h =>
    rw [h, mget_mput_same]
    rfl
  · next h =>
    rw [mget_mput_other _ _ h]
    rfl

theorem unassignOwner_kept (s : State) (o : Nat) : (unassignOwner s o).assigned = s.assigned ∧ (unassignOwner s o).draws = s.draws := by
  obtain ⟨hassigned, hdraws, -⟩ := wipeBerths_kept (s.owner o).berths (wipeFrames s o)
  exact ⟨hassigned, hdraws⟩

/-! ### A berth that leaves its owner -/

/-- The owner `old` loses with berth `b` its last one. -/
def lastBerth (s : State) (old b : Nat) : Bool := old != 0 && (s.owner old).berths == [b]

/-- What is left when berth `b` has left its owner `old`, none for 0. -/
structure BerthLeft (s v : State) (old b : Nat) : Prop where
  berths : ∀ o, o ≠ 0 → (v.owner o).berths = if old = o then (s.owner o).berths.filter (· != b) else (s.owner o).berths
  assigned : v.assigned = s.assigned
  draws : v.draws = s.draws
  mem : ∀ a, inBerth b a = false →
    memByte v.mem a = if lastBerth s old b = true ∧ inFrames s old a = true then 0 else memByte s.mem a
  threads : ∀ g, berthOf (tileOf g) ≠ b → v.thread g = s.thread g
  forgotten : lastBerth s old b = true → Forgotten v old

theorem thread_kept {u : State} {b g : Nat} (hu : u.threads = s.threads.filter fun p => berthOf (tileOf p.1) != b) :
    (berthOf (tileOf g) ≠ b → u.thread g = s.thread g) ∧ (berthOf (tileOf g) = b → u.thread g = {}) := by
  have hg : mget u.threads g = if berthOf (tileOf g) != b then mget s.threads g else none := by
    rw [hu]
    exact mget_filter_key s.threads (fun k => berthOf (tileOf k) != b) g
  refine ⟨fun h => ?_, fun h => ?_⟩
  · rw [State.thread, State.thread, hg, if_pos (by simpa using h)]
  · rw [State.thread, hg, if_neg (by simpa using h)]
    rfl

theorem berthLeft_none (s : State) (b : Nat) : BerthLeft s s 0 b where
  berths _ h := (if_neg (Ne.symm h)).symm
  assigned := rfl
  draws := rfl
  mem _ _ := (if_neg fun h => Bool.false_ne_true h.1).symm
  threads _ _ := rfl
  forgotten h := nomatch h

theorem berthLeft_last {old b : Nat} (h : (s.owner old).berths = [b]) (h0 : old ≠ 0) : BerthLeft s (unassignOwner s old) old b := by
  have hlast : lastBerth s old b = true := by simp [lastBerth, h, h0]
  obtain ⟨hassigned, hdraws⟩ := unassignOwner_kept s old
  have hmem : (unassignOwner s old).mem = (s.mem.filter fun c => !inFrames s old c.1).filter fun c => !inBerth b c.1 := by
    rw [unassignOwner_mem, h, List.foldl_cons, List.foldl_nil, wipeBerth_mem]
    rfl
  have hthreads : (unassignOwner s old).threads = s.threads.filter fun p => berthOf (tileOf p.1) != b := by
    show ((s.owner old).berths.foldl wipeBerth (wipeFrames s old)).threads = _
    obtain ⟨p, t, c, a, f, q, m, n, r, x, hw⟩ := wipeBerth_eq (wipeFrames s old) b
    rw [h, List.foldl_cons, List.foldl_nil, hw]
    rfl
  refine ⟨fun o ho => ?_, hassigned, hdraws, fun a ha => ?_, fun g => (thread_kept hthreads).1, fun _ => unassignOwner_forgotten s old⟩
  · rw [unassignOwner_owner]
    by_cases hk : o = old
    · subst hk
      rw [if_pos rfl, if_pos rfl, h]
      simp
    · rw [if_neg hk, if_neg (Ne.symm hk)]
  · rw [hmem, memByte_kept _ (p := fun k => !inBerth b k) (by simp [ha])]
    by_cases hf : inFrames s old a = true
    · rw [if_pos ⟨hlast, hf⟩, memByte_filtered _ (p := fun k => !inFrames s old k) (by simp [hf])]
    · rw [if_neg fun h => hf h.2, memByte_kept _ (p := fun k => !inFrames s old k) (by simp [hf])]

theorem berthLeft_other {old b : Nat} (h : (s.owner old).berths ≠ [b]) :
    BerthLeft s (s.modOwner old fun x => { x with berths := x.berths.filter (· != b) }) old b := by
  have hlast : ¬ lastBerth s old b = true := by simp [lastBerth, h]
  refine ⟨fun o _ => ?_, rfl, rfl, fun a _ => (if_neg fun h => hlast h.1).symm, fun _ _ => rfl, fun h => absurd h hlast⟩
  split
  · next hk =>
    subst hk
    rw [State.owner_mod]
  · next hk => rw [State.owner_mod_other s old o _ (Ne.symm hk)]

theorem leaveBerth_left (s : State) {old : Nat} (b : Nat) (h0 : old ≠ 0) : BerthLeft s (leaveBerth s old b) old b := by
  unfold leaveBerth
  split
  · next h => exact berthLeft_last (by simpa using h) h0
  · next h => exact berthLeft_other (by simpa using h)

/-- The berth has left whatever owner had it. -/
def berthFree (s : State) (b : Nat) : State := if berthOwner s b = 0 then s else leaveBerth s (berthOwner s b) b

theorem berthFree_left (s : State) (b : Nat) : BerthLeft s (berthFree s b) (berthOwner s b) b := by
  unfold berthFree
  split
  · next h =>
    rw [h]
    exact berthLeft_none s b
  · next h => exact leaveBerth_left s b h

/-! ### A berth that is given to an owner -/

/-- The owner of a first berth draws its key, and its counts begin anew (R391). -/
def keyDrawn (v : State) (o : Nat) : State :=
  if (v.owner o).berths.isEmpty then (drawKey v o).modOwner o fun x => { x with data := 0, misuse := 0 } else v

/-- The berth is its new owner's, and wiped. -/
def berthGiven (v : State) (o b : Nat) : State :=
  wipeBerth ((keyDrawn v o).modOwner o fun x => { x with berths := x.berths ++ [b] }) b

theorem keyDrawn_owner (v : State) (o k : Nat) : ((keyDrawn v o).owner k).berths = (v.owner k).berths := by
  unfold keyDrawn
  split
  · by_cases hk : k = o
    · subst hk
      rw [State.owner_mod]
      rfl
    · rw [State.owner_mod_other _ o k _ hk]
      rfl
  · rfl

theorem keyDrawn_kept (v : State) (o : Nat) : (keyDrawn v o).mem = v.mem ∧ (keyDrawn v o).threads = v.threads ∧
    (keyDrawn v o).frames = v.frames ∧ (keyDrawn v o).inlets = v.inlets := by
  unfold keyDrawn
  split
  · exact ⟨rfl, rfl, rfl, rfl⟩
  · exact ⟨rfl, rfl, rfl, rfl⟩

theorem keyDrawn_keys (v : State) (o : Nat) : (keyDrawn v o).assigned = (v.assigned || (v.owner o).berths.isEmpty) ∧
    ((v.owner o).berths = [] → mget (keyDrawn v o).keys o = some (Config.randomKey v.draws)) ∧
    ∀ k, k ≠ o → mget (keyDrawn v o).keys k = mget v.keys k := by
  unfold keyDrawn
  split
  · next h =>
    rw [h, Bool.or_true]
    exact ⟨rfl, fun _ => mget_mput_same _ _ _, fun k hk => mget_mput_other _ _ hk⟩
  · next h =>
    rw [Bool.eq_false_of_not_eq_true h, Bool.or_false]
    exact ⟨rfl, fun he => absurd (by rw [he]; rfl) h, fun _ _ => rfl⟩

theorem berthGiven_eq (v : State) (o b : Nat) : ∃ p t c a f u m n r x, berthGiven v o b =
    { (keyDrawn v o).modOwner o fun x => { x with berths := x.berths ++ [b] } with
      mem := v.mem.filter fun c => !inBerth b c.1, threads := v.threads.filter fun p => berthOf (tileOf p.1) != b
      poison := p, tiles := t, cores := c, barriers := a, traffic := f, atBank := u, served := m, usedAt := n
      rputs := r, floes := x } := by
  obtain ⟨hmem, hthreads, -, -⟩ := keyDrawn_kept v o
  obtain ⟨p, t, c, a, f, u, m, n, r, x, h⟩ := wipeBerth_eq ((keyDrawn v o).modOwner o fun x => { x with berths := x.berths ++ [b] }) b
  refine ⟨p, t, c, a, f, u, m, n, r, x, h.trans ?_⟩
  rw [← hmem, ← hthreads]
  rfl

theorem exec_assignment {o b : Nat} (ho : 1 ≤ o ∧ o ≤ Config.owners ∧ b < Config.berths) (htdisp : (s.owner o).tdisp = .unlocked)
    (hbooted : s.booted = true)
    (hold : berthOwner s b = 0 ∨ ownerQuiet s (berthOwner s b) = true ∧ (s.owner (berthOwner s b)).tdisp = .unlocked) :
    exec (.berthAssignment o b) s = .next (berthGiven (berthFree s b) o b) := by
  refine (if_pos ho).trans (if_neg ?_)
  rw [hbooted, htdisp]
  rintro (h | ⟨h0, h⟩ | h)
  · cases h
  · rcases hold with hold | ⟨hq, ht⟩
    · exact h0 hold
    · rcases h with h | h
      · rw [hq] at h
        cases h
      · exact h ht
  · exact h rfl

end

theorem assignment : Assignment := by
  intro s o b ho ho' hb htdisp old last rest
  have ho0 : o ≠ 0 := by omega
  refine ⟨fun hbooted hold => ?_, fun hquiet => ?_⟩
  · obtain ⟨hberths, hassigned, hdraws, hmem, hthreads, hforgotten⟩ := berthFree_left s b
    have hrest : ((berthFree s b).owner o).berths = rest := hberths o ho0
    have hrun := exec_assignment ⟨ho, ho', hb⟩ htdisp hbooted hold
    generalize berthFree s b = v at hberths hassigned hdraws hmem hthreads hforgotten hrest hrun
    obtain ⟨hkassigned, hkey, hkeys⟩ := keyDrawn_keys v o
    obtain ⟨-, -, hframes, hinlets⟩ := keyDrawn_kept v o
    obtain ⟨p, t, c, a, f, u, m, n, r, x, hgiven⟩ := berthGiven_eq v o b
    rw [hgiven] at hrun
    rw [hrest, hassigned] at hkassigned
    rw [hrest, hdraws] at hkey
    have hthread : ∀ g, _ ∧ _ := fun g => thread_kept (s := v) (b := b) (g := g)
      (u := { (keyDrawn v o).modOwner o fun x => { x with berths := x.berths ++ [b] } with
        mem := v.mem.filter fun c => !inBerth b c.1, threads := v.threads.filter fun p => berthOf (tileOf p.1) != b
        poison := p, tiles := t, cores := c, barriers := a, traffic := f, atBank := u, served := m, usedAt := n
        rputs := r, floes := x }) rfl
    refine ⟨_, hrun, ?_, hkassigned, fun h0 hne => ?_, hkey, fun a ha => ?_, fun a ha => ?_, fun hl => ?_,
      fun g hg => (hthread g).2 hg, fun g hg => ((hthread g).1 hg).trans (hthreads g hg)⟩
    · show (((keyDrawn v o).modOwner o fun x => { x with berths := x.berths ++ [b] }).owner o).berths = _
      rw [State.owner_mod]
      show ((keyDrawn v o).owner o).berths ++ [b] = _
      rw [keyDrawn_owner, hrest]
    · show b ∉ (((keyDrawn v o).modOwner o fun x => { x with berths := x.berths ++ [b] }).owner old).berths
      rw [State.owner_mod_other _ o old _ hne, keyDrawn_owner, hberths old h0, if_pos rfl]
      simp
    · exact memByte_filtered _ (p := fun k => !inBerth b k) (by simp [ha])
    · exact (memByte_kept _ (p := fun k => !inBerth b k) (by simp [ha])).trans (hmem a ha)
    · obtain ⟨hf, hk, hi⟩ := hforgotten hl
      refine ⟨fun f => ?_, fun hne => ?_, fun i x => ?_⟩
      · show mget (keyDrawn v o).frames f ≠ some old
        rw [hframes]
        exact hf f
      · exact (hkeys old hne).trans hk
      · show mget (keyDrawn v o).inlets i = some x → _
        rw [hinlets]
        exact hi i x
  · have hrun : exec (.ownerUnassignment o) s = .next (unassignOwner s o) := by
      refine (if_pos ⟨ho, ho'⟩).trans (congrArg _ (if_neg ?_))
      rw [hquiet, htdisp]
      simp
    obtain ⟨hf, hk, hi⟩ := unassignOwner_forgotten s o
    refine ⟨_, hrun, ?_, hk, hf, fun a ha => ?_, fun c hc a ha => ?_, hi⟩
    · rw [unassignOwner_owner, if_pos rfl]
    · rw [unassignOwner_mem]
      exact wipeFrames_zero ha _
    · rw [unassignOwner_mem]
      exact wipeBerths_zero hc ha _

/-- Settles O49. -/
theorem resetAndAssignment : Obligations.ResetAndAssignment := ⟨resetAndBoot, assignment⟩

end Sys2Proof.Machine
end

section
/-! PROOFS. What the packets of an inlet change (spec/18 R372, R373, R381, R382): inlets, what waits for signals, memory, the queues of
fault records and counts. -/

namespace Sys2Proof.Machine

/-- From `s` to `u` the packets of inlets have gone on: what is written and counted is as an engine does it, and no core, no tile
and no thread goes on. -/
structure Noted (s u : State) : Prop where
  module : ∃ m q t x d l i f n, u = { s with
    mem := m, poison := q, threads := t, owners := x, dies := d, launches := l, inlets := i, traffic := f, nextId := n }
  thread : ∀ k, ∃ d, u.thread k = { s.thread k with data := d }
  owner : ∀ o, ∃ d m, u.owner o = { s.owner o with data := d, misuse := m }
  launch : ∀ k, u.launch k = s.launch k ∨ (s.launch k).error = 0 ∧ u.launch k = { s.launch k with error := 0x12 }
  wf : memWf s.mem = true → memWf u.mem = true

namespace Noted

theorem refl (s : State) : Noted s s :=
  ⟨⟨_, _, _, _, _, _, _, _, _, rfl⟩, fun _ => ⟨_, rfl⟩, fun _ => ⟨_, _, rfl⟩, fun _ => .inl rfl, id⟩

theorem trans {s u v : State} (h : Noted s u) (h' : Noted u v) : Noted s v := by
  refine ⟨?_, fun k => ?_, fun o => ?_, fun k => ?_, h'.wf ∘ h.wf⟩
  · obtain ⟨_, _, _, _, _, _, _, _, _, rfl⟩ := h.module
    obtain ⟨m, q, t, x, d, l, i, f, n, rfl⟩ := h'.module
    exact ⟨m, q, t, x, d, l, i, f, n, rfl⟩
  · obtain ⟨_, hd⟩ := h.thread k
    obtain ⟨d, hd'⟩ := h'.thread k
    exact ⟨d, by rw [hd', hd]⟩
  · obtain ⟨_, _, ho⟩ := h.owner o
    obtain ⟨d, m, ho'⟩ := h'.owner o
    exact ⟨d, m, by rw [ho', ho]⟩
  · rcases h.launch k with hl | ⟨he, hl⟩
    · rw [← hl]
      exact h'.launch k
    · rcases h'.launch k with hl' | ⟨he', -⟩
      · exact .inr ⟨he, hl'.trans hl⟩
      · rw [hl] at he'
        cases he'

theorem written {s u : State} (h : Written s u) : Noted s u := by
  refine ⟨?_, h.thread, h.owner, h.launch, h.wf⟩
  obtain ⟨m, q, t, x, d, l, rfl⟩ := h.module
  exact ⟨m, q, t, x, d, l, _, _, _, rfl⟩

theorem tiles {s u : State} (h : Noted s u) : u.tiles = s.tiles := by
  obtain ⟨_, _, _, _, _, _, _, _, _, rfl⟩ := h.module
  rfl

theorem cores {s u : State} (h : Noted s u) : u.cores = s.cores := by
  obtain ⟨_, _, _, _, _, _, _, _, _, rfl⟩ := h.module
  rfl

/-- A change of inlets and of what waits for a signal. -/
theorem inlets (s : State) (i : FMap Inlet) (f : List Req) (n : Nat) : Noted s { s with inlets := i, traffic := f, nextId := n } :=
  ⟨⟨_, _, _, _, _, _, i, f, n, rfl⟩, fun _ => ⟨_, rfl⟩, fun _ => ⟨_, _, rfl⟩, fun _ => .inl rfl, id⟩

/-- A change of dies, and of memory in its form. -/
theorem dies (s : State) (d : FMap Die) (m : Mem) (h : memWf s.mem = true → memWf m = true) : Noted s { s with dies := d, mem := m } :=
  ⟨⟨m, _, _, _, d, _, _, _, _, rfl⟩, fun _ => ⟨_, rfl⟩, fun _ => ⟨_, _, rfl⟩, fun _ => .inl rfl, h⟩

theorem foldl {α : Type} {f : State → α → State} (hf : ∀ u a, Noted u (f u a)) (l : List α) : ∀ s, Noted s (l.foldl f s) := by
  induction l with
  | nil => exact refl
  | cons a l ih => exact fun s => (hf s a).trans (ih _)

theorem postFault (s : State) (d : Nat) (r : FRec) : Noted s (postFault s d r) := by
  unfold Machine.postFault
  dsimp only
  split
  · exact dies s _ _ fun h => memWf_writeList h _ _
  · exact dies s _ _ id

theorem modInlet (s : State) (id : Nat) (f : Inlet → Inlet) : Noted s (s.modInlet id f) := inlets s _ _ _

theorem putPkt (s : State) (id : Nat) (p : Pkt) : Noted s (putPkt s id p) := modInlet s id _

theorem dropPkt (s : State) (id i : Nat) : Noted s (dropPkt s id i) := by
  have hdies : ∀ (u : State) k x, Noted u (u.setDie k x) := fun u k x => dies u _ _ (fun h => h)
  exact (modInlet s id _).trans (hdies _ _ _)

theorem engineUpdate (s : State) (o lk key : Nat) (f : Nat → Nat → Nat → Nat → Nat × Nat × Nat × Nat) :
    Noted s (engineUpdate s o lk key f) := by
  have hscan : ∀ u, Noted u (signalScan u) := fun u => inlets u _ _ _
  unfold Machine.engineUpdate
  split
  · rw [signalUpdate_eq]
    exact (written ((Written.countBad s _ _).trans (Written.unitWrite _ _ _ _ _))).trans (hscan _)
  · exact written (Written.gateCount s o key)

theorem holdPkt (s : State) (id i : Nat) (a : Word) (k : AKind) : Noted s (holdPkt s id i a k) := by
  unfold Machine.holdPkt engineFault
  exact (written (Written.countWalk s _ a)).trans ((modInlet _ id _).trans (postFault _ _ _))

theorem settlePkt (s : State) (id i : Nat) (sig : Word) (start : Option Nat) (err : Nat) (first wait : Bool) :
    Noted s (settlePkt s id i sig start err first wait) := by
  unfold Machine.settlePkt
  dsimp only
  split
  · exact dropPkt s id i
  · exact (dropPkt s id i).trans (written (Written.misuseOwner _ _))
  · refine (dropPkt s id i).trans (trans ?_ (engineUpdate _ _ _ _ _))
    split
    · exact engineUpdate _ _ _ _ _
    · exact refl _
  · exact (putPkt s id _).trans (holdPkt _ id i sig _)

theorem completePkt (s : State) (id i : Nat) (sig : Word) (start : Option Nat) (err : Nat) (first wait : Bool) :
    Noted s (completePkt s id i sig start err first wait) := by
  unfold Machine.completePkt
  split
  · exact putPkt s id _
  · exact settlePkt s id i sig start err false wait

theorem doSignal (s : State) (id i : Nat) (target : Word) (set : Bool) (v sig : Word) : Noted s (doSignal s id i target set v sig) := by
  unfold Machine.doSignal
  dsimp only
  split
  · exact (engineUpdate _ _ _ _ _).trans (completePkt _ _ _ _ _ _ _ _)
  · exact (putPkt s id _).trans (holdPkt _ id i target _)
  · exact completePkt _ _ _ _ _ _ _ _

theorem beginWatch (s : State) (id i : Nat) (w : PWait) (sig : Word) (key : Nat) : Noted s (beginWatch s id i w sig key) := by
  unfold Machine.beginWatch
  dsimp only
  split
  · exact (written (Written.gateCount s _ key)).trans (completePkt _ _ _ _ _ _ _ _)
  · exact (written (Written.countBad s _ _)).trans (putPkt _ id _)

theorem placeWait (s : State) (id i : Nat) (w : PWait) (sig : Word) : Noted s (placeWait s id i w sig) := by
  have hnext : Noted s { s with nextId := s.nextId + 1 } := inlets s _ _ _
  unfold Machine.placeWait
  dsimp only
  split
  · split
    · exact beginWatch s id i w sig _
    · exact hnext.trans (putPkt _ id _)
  · exact completePkt _ _ _ _ _ _ _ _
  · exact (putPkt s id _).trans (holdPkt _ id i _ _)

theorem retryFirst (s : State) (id i lk : Nat) : Noted s (retryFirst s id i lk) := by
  unfold Machine.retryFirst firstUpdate
  dsimp only
  split
  · exact (putPkt s id _).trans (engineUpdate _ _ _ _ _)
  · exact holdPkt s id i _ _
  · exact (putPkt s id _).trans (written (Written.misuseOwner _ _))
  · exact putPkt s id _

theorem retryPkt (s : State) (id : Nat) (p : Pkt) : Noted s (retryPkt s id p) := by
  cases p with
  | launch i lk first =>
    cases first
    · exact refl s
    · exact retryFirst s id i lk
  | held i sig st err first wait => exact settlePkt s id i sig st err first wait
  | signal i t set v sig => exact doSignal s id i t set v sig
  | wait i w sig => exact placeWait s id i w sig
  | copy i src dst len next sig err stuck link => exact putPkt s id _

theorem convertPkt (s : State) (id : Nat) (p : Pkt) : Noted s (convertPkt s id p) := by
  cases p with
  | launch i lk first =>
    cases first
    · exact refl s
    · exact (putPkt s id _).trans (written (Written.misuseOwner _ _))
  | held i sig st err first wait =>
    cases first
    · exact (dropPkt s id i).trans (written (Written.misuseOwner _ _))
    · exact (written (Written.misuseOwner s _)).trans (settlePkt _ _ _ _ _ _ _ _)
  | signal i t set v sig => exact completePkt _ _ _ _ _ _ _ _
  | wait i w sig => exact completePkt _ _ _ _ _ _ _ _
  | copy i src dst len next sig err stuck link => exact completePkt _ _ _ _ _ _ _ _

theorem popHeld (s : State) (id : Nat) (copy : Bool) {f : State → Nat → Pkt → State} (hf : ∀ u p, Noted u (f u id p)) :
    Noted s (popHeld s id copy f) := by
  have hset : ∀ x, Noted s (s.setInlet id x) := fun x => inlets s _ _ _
  unfold Machine.popHeld
  dsimp only
  split
  · exact refl s
  · split
    · exact (hset _).trans (hf _ _)
    · exact hset _

/-- An error that is set stays; an error that is not set may become that of a data error. -/
theorem launch_error {s u : State} (h : Noted s u) {k : Nat} (he : (s.launch k).error ≠ 0) : u.launch k = s.launch k := by
  rcases h.launch k with hl | ⟨h0, -⟩
  · exact hl
  · exact absurd h0 he

end Noted

end Sys2Proof.Machine
end

section
/-! PROOFS. The tick of Sluice (spec/16 R306, R309 to R312). -/

namespace Sys2Proof.Machine

open Sys2Proof.Claims

theorem tile_map {s u : State} {f : Tile → Tile} (h : u.tiles = s.tiles.map fun p => (p.1, f p.2)) (T : Nat) :
    u.tile T = f (s.tile T) ∨ (u.tile T = {} ∧ s.tile T = {}) := by
  simp only [State.tile, h, mget_map]
  cases mget s.tiles T with
  | none => exact .inr ⟨rfl, rfl⟩
  | some x => exact .inl rfl

/-! ### Sensor readings stand -/

/-- A tile shows the readings and marks of before. -/
def SameSensors (x y : Tile) : Prop := y.temp = x.temp ∧ y.power = x.power ∧ y.hot = x.hot ∧ y.overBudget = x.overBudget

/-- The readings and marks of the tiles are as before. -/
def SensorsStand (s u : State) : Prop := ∀ T, SameSensors (s.tile T) (u.tile T)

namespace SensorsStand

theorem refl (s : State) : SensorsStand s s := fun _ => ⟨rfl, rfl, rfl, rfl⟩

theorem trans {s u v : State} (h : SensorsStand s u) (h' : SensorsStand u v) : SensorsStand s v := fun T => by
  obtain ⟨ht, hp, hh, ho⟩ := h T
  obtain ⟨ht', hp', hh', ho'⟩ := h' T
  exact ⟨ht'.trans ht, hp'.trans hp, hh'.trans hh, ho'.trans ho⟩

theorem of_tiles {s u : State} (h : u.tiles = s.tiles) : SensorsStand s u := fun T => by
  rw [State.tile, State.tile, h]
  exact ⟨rfl, rfl, rfl, rfl⟩

theorem setTile (s : State) (k : Nat) {x : Tile} (h : SameSensors (s.tile k) x) : SensorsStand s (s.setTile k x) := by
  intro T
  by_cases hT : T = k
  · rw [hT, State.tile_set]
    exact h
  · rw [State.tile_set_other s k T x hT]
    exact ⟨rfl, rfl, rfl, rfl⟩

theorem modTile (s : State) (k : Nat) {f : Tile → Tile} (h : ∀ x, SameSensors x (f x)) : SensorsStand s (s.modTile k f) :=
  setTile s k (h _)

theorem foldl {α : Type} {f : State → α → State} (hf : ∀ u a, SensorsStand u (f u a)) (l : List α) :
    ∀ s, SensorsStand s (l.foldl f s) := by
  induction l with
  | nil => exact refl
  | cons a l ih => exact fun s => (hf s a).trans (ih _)

/-! Ballast and points. -/

theorem runSteps (s : State) (T n : Nat) : SensorsStand s (runSteps s T n) := by
  unfold Machine.runSteps
  dsimp only
  split
  · exact refl s
  · refine trans ?_ (modTile _ _ fun _ => ⟨rfl, rfl, rfl, rfl⟩)
    exact setTile s T ⟨rfl, rfl, rfl, rfl⟩

theorem endSteps (s : State) (d : Nat) : SensorsStand s (endSteps s d) := by
  refine foldl (fun u T => ?_) _ s
  split
  · exact (runSteps u T _).trans (modTile _ _ fun _ => ⟨rfl, rfl, rfl, rfl⟩)
  · exact refl u

theorem spreadSteps (l : List Nat) : ∀ (s : State) (n : Nat), SensorsStand s (spreadSteps s n l).1 := by
  induction l with
  | nil => exact fun s _ => refl s
  | cons T l ih =>
    intro s n
    refine trans ?_ (ih _ _)
    split
    · exact refl s
    · exact modTile s T fun _ => ⟨rfl, rfl, rfl, rfl⟩

theorem setPoints (l : List Nat) : ∀ (s : State) (limit : Nat), SensorsStand s (setPoints s limit l) := by
  induction l with
  | nil => exact fun s _ => refl s
  | cons T l ih =>
    intro s limit
    unfold Machine.setPoints
    dsimp only
    split
    · refine trans ?_ (ih _ _)
      exact modTile s T fun _ => ⟨rfl, rfl, rfl, rfl⟩
    · exact ih s limit

theorem lowerTiles (l : List Nat) : ∀ (s : State) (est : Nat), SensorsStand s (lowerTiles s est l).1 := by
  induction l with
  | nil => exact fun s _ => refl s
  | cons T l ih =>
    intro s est
    unfold Machine.lowerTiles
    dsimp only
    split
    · exact refl s
    · split
      · exact ih s est
      · split
        · exact ih s _
        · refine trans ?_ (ih _ _)
          exact modTile s T fun _ => ⟨rfl, rfl, rfl, rfl⟩

theorem raiseTiles (l : List Nat) : ∀ (s : State) (est : Nat), SensorsStand s (raiseTiles s est l) := by
  induction l with
  | nil => exact fun s _ => refl s
  | cons T l ih =>
    intro s est
    unfold Machine.raiseTiles
    dsimp only
    split
    · exact ih s est
    · split
      · refine trans ?_ (ih _ _)
        exact modTile s T fun _ => ⟨rfl, rfl, rfl, rfl⟩
      · exact ih s est

/-! Launches that stop. -/

theorem withdraw (s : State) (g : Nat) : SensorsStand s (withdraw s g) := by
  have hback : ∀ (u : State) l, (putBackAll u g l).tiles = u.tiles := by
    intro u l
    induction l with
    | nil => rfl
    | cons p l ih =>
      refine Eq.trans ?_ ih
      show (putBack (putBackAll u g l) g p.1 p.2).tiles = _
      unfold putBack
      split
      · rfl
      · dsimp only
        split
        · rfl
        · rfl
      · rfl
  have hpush : ∀ (u : State) d tag, (abandonPush u g d tag).tiles = u.tiles := by
    intro u d tag
    unfold abandonPush
    dsimp only
    split
    · split
      · split
        · rfl
        · rfl
      · rfl
    · rfl
    · rfl
  unfold Machine.withdraw
  dsimp only
  split
  · exact of_tiles rfl
  · refine trans ?_ (of_tiles (hpush _ _ _))
    exact modTile s _ fun _ => ⟨rfl, rfl, rfl, rfl⟩
  · split
    · split
      · exact of_tiles ((hpush _ _ _).trans (hback _ _))
      · exact of_tiles (hback _ _)
    · exact of_tiles rfl
  · exact refl s

theorem stopThread (s : State) (g : Nat) : SensorsStand s (stopThread s g) := by
  unfold Machine.stopThread
  dsimp only
  split
  · exact refl s
  · split
    · exact of_tiles rfl
    · refine (withdraw s g).trans ?_
      exact of_tiles rfl

theorem written {s u : State} (h : Written s u) : SensorsStand s u := fun T => by
  rw [h.tile]
  exact ⟨rfl, rfl, rfl, rfl⟩

theorem noted {s u : State} (h : Noted s u) : SensorsStand s u := of_tiles h.tiles

theorem misuseTimes (s : State) (o n : Nat) : SensorsStand s (misuseTimes s o n) := by
  induction n with
  | zero => exact refl s
  | succ n ih => exact ih.trans (written (Written.misuseOwner _ o))

theorem unbindActors (s : State) (lk : Nat) : SensorsStand s (unbindActors s lk) := by
  have hcores : ∀ m, SensorsStand s { s with cores := m } := fun m => of_tiles rfl
  unfold Machine.unbindActors
  exact (hcores _).trans (misuseTimes _ _ _)

theorem unboundIf (s : State) (lk : Nat) (b : Bool) : SensorsStand s (if b then Machine.unbindActors s lk else s) := by
  cases b
  · exact refl s
  · exact unbindActors s lk

theorem freeCells (s : State) (lk n : Nat) : SensorsStand s (freeCells s lk n).1 := by
  induction n with
  | zero => exact refl s
  | succ n ih =>
    unfold Machine.freeCells
    dsimp only
    split
    · exact ih.trans (written (Written.engineCount _ _ _ _))
    · exact ih.trans (written (Written.engineWrite _ _ _ _))

theorem refillDeque (s : State) (c : Nat) : SensorsStand s (refillDeque s c) := by
  have hset : ∀ u x, SensorsStand u (State.setCore u c x) := fun u x => of_tiles rfl
  unfold Machine.refillDeque
  exact (written (Written.foldl (fun u i => Written.spillCount u c i) _ s)).trans (hset _ _)

theorem refillDeques (s : State) : SensorsStand s (refillDeques s) := by
  unfold Machine.refillDeques
  split
  · exact refl s
  · refine foldl (fun u p => ?_) _ s
    split
    · exact refillDeque u p.1
    · exact refl u

/-- A change of what waits in the dispensers. -/
theorem mapDisp (s : State) (c : FMap Core) (f : List DRec → List DRec) :
    SensorsStand s { s with cores := c, tiles := s.tiles.map fun p => (p.1, { p.2 with disp := f p.2.disp }) } := by
  intro T
  rcases tile_map (s := s) (u := { s with cores := c, tiles := s.tiles.map fun p => (p.1, { p.2 with disp := f p.2.disp }) })
    (f := fun x => { x with disp := f x.disp }) rfl T with h | ⟨h, h'⟩
  · rw [h]
    exact ⟨rfl, rfl, rfl, rfl⟩
  · rw [h, h']
    exact ⟨rfl, rfl, rfl, rfl⟩

theorem discardTasks (s : State) (lk : Nat) : SensorsStand s (discardTasks s lk) := by
  unfold Machine.discardTasks
  refine trans ?_ ((refillDeques _).trans ((freeCells _ _ _).trans (misuseTimes _ _ _)))
  exact mapDisp s _ _

theorem launchEndCheck (s : State) (lk : Nat) : SensorsStand s (launchEndCheck s lk) := by
  have hset : ∀ l, SensorsStand s (s.setLaunch lk l) := fun l => of_tiles rfl
  unfold Machine.launchEndCheck
  dsimp only
  split
  · exact refl s
  · exact (((hset _).trans (discardTasks _ lk)).trans (unboundIf _ lk _)).trans (noted (Noted.completePkt _ _ _ _ _ _ _ _))

theorem launchRefused (s : State) (lk err : Nat) : SensorsStand s (launchRefused s lk err) := by
  have hset : ∀ l, SensorsStand s (s.setLaunch lk l) := fun l => of_tiles rfl
  unfold Machine.launchRefused
  dsimp only
  exact ((hset _).trans (unboundIf _ lk _)).trans (noted (Noted.completePkt _ _ _ _ _ _ _ _))

theorem stopLaunch (s : State) (lk code : Nat) : SensorsStand s (stopLaunch s lk code) := by
  have herror : SensorsStand s (Machine.launchError s lk code) := by
    obtain ⟨_, h⟩ := launchError_cases s lk code
    rw [h]
    exact of_tiles rfl
  unfold Machine.stopLaunch
  dsimp only
  split
  · exact refl s
  · split
    · exact launchRefused s lk code
    · refine trans ?_ (launchEndCheck _ lk)
      refine trans ?_ (foldl stopThread _ _)
      exact herror.trans (of_tiles rfl)

theorem envelopeTick (s : State) : SensorsStand s (envelopeTick s) := by
  unfold Machine.envelopeTick
  dsimp only
  split
  · split
    · split
      · exact (lowerTiles _ s _).trans (stopLaunch _ _ _)
      · exact lowerTiles _ s _
    · exact lowerTiles _ s _
  · exact raiseTiles _ s _

end SensorsStand

/-! ### The level of a die -/

/-- A die has the level, the power measured and the tick of before. -/
def SameLevel (x y : Die) : Prop := y.level = x.level ∧ y.measured = x.measured ∧ y.ticked = x.ticked

theorem sameLevel_notes : DieNotes SameLevel where
  refl _ := ⟨rfl, rfl, rfl⟩
  trans h h' := ⟨h'.1.trans h.1, h'.2.1.trans h.2.1, h'.2.2.trans h.2.2⟩
  dropCount _ _ := ⟨rfl, rfl, rfl⟩
  faults _ _ _ _ := ⟨rfl, rfl, rfl⟩
  served _ _ _ := ⟨rfl, rfl, rfl⟩

section

variable (s : State)

theorem runSteps_dies (T n : Nat) : (runSteps s T n).dies = s.dies := by
  unfold runSteps
  dsimp only
  split
  · rfl
  · rfl

theorem endSteps_dies (d : Nat) : (endSteps s d).dies = s.dies := by
  refine foldl_keeps State.dies (fun u T => ?_) _ s
  split
  · exact runSteps_dies u T _
  · rfl

theorem spreadSteps_dies (l : List Nat) : ∀ (s : State) (n : Nat), (spreadSteps s n l).1.dies = s.dies := by
  induction l with
  | nil => exact fun _ _ => rfl
  | cons T l ih =>
    intro s n
    refine (ih _ _).trans ?_
    split
    · rfl
    · rfl

theorem setPoints_dies (l : List Nat) : ∀ (s : State) (limit : Nat), (setPoints s limit l).dies = s.dies := by
  induction l with
  | nil => exact fun _ _ => rfl
  | cons T l ih =>
    intro s limit
    unfold setPoints
    dsimp only
    split
    · exact ih _ _
    · exact ih s limit

theorem lowerTiles_dies (l : List Nat) : ∀ (s : State) (est : Nat), (lowerTiles s est l).1.dies = s.dies := by
  induction l with
  | nil => exact fun _ _ => rfl
  | cons T l ih =>
    intro s est
    unfold lowerTiles
    dsimp only
    split
    · rfl
    · split
      · exact ih s est
      · split
        · exact ih s _
        · exact ih _ _

theorem raiseTiles_dies (l : List Nat) : ∀ (s : State) (est : Nat), (raiseTiles s est l).dies = s.dies := by
  induction l with
  | nil => exact fun _ _ => rfl
  | cons T l ih =>
    intro s est
    unfold raiseTiles
    dsimp only
    split
    · exact ih s est
    · split
      · exact ih _ _
      · exact ih s est

theorem envelopeTick_dies : DiesFollow SameLevel s (envelopeTick s) := by
  have hN := sameLevel_notes
  have hlower := fun (est : Nat) l => DiesFollow.of_dies hN (lowerTiles_dies l s est)
  unfold envelopeTick
  dsimp only
  split
  · split
    · split
      · exact .trans hN (hlower _ _) (.stopLaunch hN (fun _ _ => ⟨rfl, rfl, rfl⟩) _ _ _)
      · exact hlower _ _
    · exact hlower _ _
  · exact .of_dies hN (raiseTiles_dies _ s _)

/-- Ballast changes no reading. -/
theorem ballastTick_sensors (d mW : Nat) : SensorsStand s (ballastTick s d mW) := by
  unfold ballastTick
  dsimp only
  have hdie : ∀ (u : State) f, SensorsStand u (u.modDie d f) := fun u f => .of_tiles rfl
  exact ((SensorsStand.endSteps s d).trans (SensorsStand.spreadSteps _ _ _)).trans (hdie _ _)

theorem ballastTick_die (d mW : Nat) : ∃ n, (ballastTick s d mW).die d =
    { s.die d with level := (s.die d).levelAt (sluiceNow s) (s.param 1) mW, measured := mW, rampMiss := n } := by
  unfold ballastTick
  dsimp only
  rw [State.die_mod, State.die, spreadSteps_dies, endSteps_dies, ← State.die]
  exact ⟨_, rfl⟩

/-! ### The tick -/

/-- The first half of a tick: the readings, ballast and level. -/
def ticked (d mW : Nat) (l : List (Nat × Nat × Nat)) : State :=
  let u := (l.filter fun r => dieOf r.1 == d).foldl readSensor s
  (ballastTick u d mW).modDie d fun x => { x.inTick (sluiceNow u) with ticked := sluiceNow u }

/-- The second half: launches that heat stops, the envelope, the points of the tiles. -/
def tickEnded (d : Nat) : State :=
  let u := (thermalStops s d).foldl (fun s lk => stopLaunch s lk 0x23) s
  let v := if d = u.primary then envelopeTick u else u
  setPoints v (v.param 1) (listedTiles v d)

theorem tickEnded_sensors (d : Nat) : SensorsStand s (tickEnded s d) := by
  have henvelope : ∀ u : State, SensorsStand u (if d = u.primary then envelopeTick u else u) := by
    intro u
    split
    · exact .envelopeTick u
    · exact .refl u
  exact .trans (.trans (.foldl (fun u lk => SensorsStand.stopLaunch u lk 0x23) _ s) (henvelope _)) (.setPoints _ _ _)

theorem tickEnded_level (d : Nat) : DiesFollow SameLevel s (tickEnded s d) := by
  have hN := sameLevel_notes
  have henvelope : ∀ u : State, DiesFollow SameLevel u (if d = u.primary then envelopeTick u else u) := by
    intro u
    split
    · exact envelopeTick_dies u
    · exact .refl hN u
  exact .trans hN (.trans hN (.foldl hN (fun u lk => .stopLaunch hN (fun _ _ => ⟨rfl, rfl, rfl⟩) u lk 0x23) _ s) (henvelope _))
    (.of_dies hN (setPoints_dies _ _ _))

theorem readSensor_tile (r : Nat × Nat × Nat) : (readSensor s r).tile r.1 = { s.tile r.1 with
    temp := r.2.1, power := r.2.2
    hot := if s.param 7 ≤ r.2.1 then true else if r.2.1 + 5000 < s.param 7 then false else (s.tile r.1).hot
    overBudget := if s.param 6 < r.2.2 then true else if 10 * r.2.2 < 9 * s.param 6 then false
      else (s.tile r.1).overBudget } := State.tile_mod s r.1 _

theorem exec_sluiceTick {d mW : Nat} (l : List (Nat × Nat × Nat)) (hd : d < Config.dies) (hbound : s.timebase % 250 = 0)
    (hnew : (s.die d).ticked < sluiceNow s) : exec (.sluiceTick d mW l) s = .next (tickEnded (ticked s d mW l) d) := by
  refine (if_pos hd).trans (if_neg ?_)
  rintro (h | h)
  · exact h hbound
  · exact absurd hnew (Nat.not_lt.mpr h)

end

theorem inTick_level (x : Die) (n : Nat) : (x.inTick n).level = x.level ∧ (x.inTick n).measured = x.measured := by
  unfold Die.inTick
  split
  · exact ⟨rfl, rfl⟩
  · exact ⟨rfl, rfl⟩

/-- What the first half of a tick leaves of its die. -/
theorem ticked_die (s : State) (d mW : Nat) : ((ticked s d mW []).die d).level = (s.die d).levelAt (sluiceNow s) (s.param 1) mW ∧
    ((ticked s d mW []).die d).measured = mW ∧ ((ticked s d mW []).die d).ticked = sluiceNow s := by
  have hdie : (ticked s d mW []).die d = { ((ballastTick s d mW).die d).inTick (sluiceNow s) with ticked := sluiceNow s } :=
    State.die_mod _ d _
  obtain ⟨n, hballast⟩ := ballastTick_die s d mW
  obtain ⟨hlevel, hmeasured⟩ := inTick_level ((ballastTick s d mW).die d) (sluiceNow s)
  rw [hballast] at hlevel hmeasured
  rw [hdie, hballast]
  exact ⟨hlevel, hmeasured, rfl⟩

theorem ticked_sensors (s : State) (d mW : Nat) : SensorsStand s (ticked s d mW []) := by
  have hdie : ∀ (u : State) f, SensorsStand u (u.modDie d f) := fun u f => .of_tiles rfl
  exact (ballastTick_sensors s d mW).trans (hdie _ _)

/-- The level falls by no more than its share (R309), for the tick after the last. -/
theorem levelAt_next {x : Die} {now fall mW : Nat} (hn : x.ticked + 1 = now) (h : 8 * x.measured ≤ x.level) :
    x.levelAt now fall mW = max (8 * mW) (x.level - fall) := by
  rw [Die.levelAt, show now - x.ticked - 1 = 0 by omega, Nat.zero_mul, Nat.sub_zero, Nat.max_eq_right h]

theorem sluiceTicks : SluiceTicks := by
  intro s d mW T temp power hd
  refine ⟨fun h => (if_pos hd).trans (if_pos h), fun hbound hnew hT => ?_⟩
  have hread : ticked s d mW [(T, temp, power)] = ticked (readSensor s (T, temp, power)) d mW [] := by
    rw [ticked, List.filter_cons_of_pos (by simpa using hT)]
    rfl
  have htile := readSensor_tile s (T, temp, power)
  have hdie : (readSensor s (T, temp, power)).die d = s.die d := rfl
  have hnow : sluiceNow (readSensor s (T, temp, power)) = sluiceNow s := rfl
  have hfall : (readSensor s (T, temp, power)).param 1 = s.param 1 := rfl
  refine ⟨_, exec_sluiceTick s _ hd hbound hnew, ?_⟩
  rw [hread]
  generalize readSensor s (T, temp, power) = v at htile hdie hnow hfall
  obtain ⟨hlevel, hmeasured, hticked⟩ := tickEnded_level (ticked v d mW []) d d
  obtain ⟨htemp, hpower, hhot, hbudget⟩ := (ticked_sensors v d mW).trans (tickEnded_sensors (ticked v d mW []) d) T
  obtain ⟨hlevel', hmeasured', hticked'⟩ := ticked_die v d mW
  rw [htile] at htemp hpower hhot hbudget
  rw [hdie, hnow, hfall] at hlevel'
  rw [hnow] at hticked'
  exact ⟨hmeasured.trans hmeasured', hticked.trans hticked', fun hn h => (hlevel.trans hlevel').trans (levelAt_next hn h),
    htemp, hpower, hhot, hbudget⟩

end Sys2Proof.Machine
end

section
/-! PROOFS. Grants of Sluice's ramp, pinned admission and ballast (spec/16 R307, R308, R310). -/

namespace Sys2Proof.Machine

open Sys2Proof.Claims

/-! ### What grants leave of dies and launches -/

/-- A die has the waiting grants and the sums of before. -/
def SameGrants (x y : Die) : Prop := y.waiting = x.waiting ∧ y.granted = x.granted

theorem sameGrants_notes : DieNotes SameGrants where
  refl _ := ⟨rfl, rfl⟩
  trans h h' := ⟨h'.1.trans h.1, h'.2.trans h.2⟩
  dropCount _ _ := ⟨rfl, rfl⟩
  faults _ _ _ _ := ⟨rfl, rfl⟩
  served _ _ _ := ⟨rfl, rfl⟩

theorem sameGrants_log (x : Die) (l : List (List Byte)) : SameGrants x { x with log := l } := ⟨rfl, rfl⟩

/-- A thread that goes on changes the error of launches alone, and no die's grants. -/
def AdmitsStand (s u : State) : Prop := ∀ k, (u.launch k).admitted = (s.launch k).admitted

namespace AdmitsStand

theorem refl (s : State) : AdmitsStand s s := fun _ => rfl

theorem trans {s u v : State} (h : AdmitsStand s u) (h' : AdmitsStand u v) : AdmitsStand s v := fun k => (h' k).trans (h k)

theorem of_launches {s u : State} (h : u.launches = s.launches) : AdmitsStand s u := fun k => by rw [State.launch, State.launch, h]

theorem setLaunch (s : State) (k : Nat) {x : Launch} (h : x.admitted = (s.launch k).admitted) : AdmitsStand s (s.setLaunch k x) := by
  intro j
  by_cases hj : j = k
  · rw [hj, State.launch_set]
    exact h
  · rw [State.launch_set_other s k j x hj]

theorem errors {s u : State} (h : ∀ k, u.launch k = s.launch k ∨ (s.launch k).error = 0 ∧ u.launch k = { s.launch k with error := 0x12 }) :
    AdmitsStand s u := by
  intro k
  rcases h k with hk | ⟨-, hk⟩
  · rw [hk]
  · rw [hk]

theorem launchError (s : State) (lk code : Nat) : AdmitsStand s (launchError s lk code) := by
  unfold Machine.launchError
  split
  · next l hl =>
    split
    · refine setLaunch s lk ?_
      rw [State.launch, hl]
      rfl
    · exact refl s
  · exact refl s

theorem postTrap (s : State) (o : Nat) (r : TrapRec) : AdmitsStand s (postTrap s o r) := by
  have hset : ∀ (u : State) (x : Owner), AdmitsStand u (u.setOwner o x) := fun u x => of_launches rfl
  have hmirror : ∀ (u : State) (x : Owner), AdmitsStand u (tqMirror (u.setOwner o x) o) := fun u x =>
    (hset u x).trans (errors (Written.tqMirror _ o).launch)
  have happend : AdmitsStand s (tqAppend s o r) := by
    unfold tqAppend
    dsimp only
    unfold State.modOwner
    exact (errors (Written.ownerWrite s _ _ _ _ _).launch).trans (hmirror _ _)
  have hlog : ∀ f, AdmitsStand s (s.modDie (dieOf (tileOf r.g)) f) := fun f => of_launches rfl
  unfold Machine.postTrap
  dsimp only
  split
  · split
    · exact happend
    · exact trans (trans (hlog _) (launchError _ _ _)) (hmirror _ _)
  · split
    · exact happend
    · exact hmirror s _

theorem goesOn {s u : State} {g : Nat} (h : GoesOn s u g) : AdmitsStand s u := by
  have hset : ∀ (u : State) t, AdmitsStand u (u.setThread g t) := fun u t => of_launches rfl
  have hpark : ∀ (u : State) w, AdmitsStand u (parkThread u g w) := by
    intro u w
    obtain ⟨_, _, _, hp⟩ := parkThread_cases u g w
    rw [hp]
    exact of_launches rfl
  have hvacate : ∀ u : State, AdmitsStand u (vacate u g true) := by
    intro u k
    obtain ⟨-, -, -, hl⟩ := vacate_parties u g true k
    rw [hl]
  have hland : ∀ u : State, AdmitsStand u (landPushes u g) := fun u => of_launches rfl
  have herror : ∀ (u : State) (cause lk : Nat), AdmitsStand u (if cause = 10 then u else Machine.launchError u lk 0x11) := by
    intro u cause lk
    split
    · exact refl u
    · exact launchError u lk _
  have htrap : ∀ (u : State) cause sub info resume, AdmitsStand u (ownerTrap u g cause sub info resume) := by
    intro u cause sub info resume
    unfold ownerTrap
    split
    · cases hf : trapFatal cause
      · rw [captureOwner_replayable u g sub info resume hf]
        exact trans (trans ((hland u).trans (postTrap _ _ _)) (hset _ _)) (hvacate _)
      · rw [captureOwner_fatal u g sub info resume hf]
        exact trans (trans (trans ((hland u).trans (postTrap _ _ _)) (herror _ _ _)) (hset _ _)) (hvacate _)
    · exact hpark u _
  obtain ⟨t, _, ⟨rfl, _⟩ | (rfl | rfl) | ⟨_, _, _, rfl⟩⟩ := h
  · exact hset s t
  · exact (hset s t).trans (hpark _ _)
  · exact (hset s t).trans (hpark _ _)
  · exact (hset s t).trans (htrap _ _ 0 _ _)

end AdmitsStand

/-! ### A placement that is made -/

section

variable (s : State) (lk : Nat) (p : Place) (g : Nat)

/-- The launch's first placement updates its signal, or holds the update. -/
theorem launchFirst_noted : ∃ x, x.admitted = (s.launch lk).admitted ∧ Noted (s.setLaunch lk x) (launchFirst s lk) ∨ launchFirst s lk = s := by
  by_cases hs : (s.launch lk).started = true
  · exact ⟨{}, .inr (if_pos hs)⟩
  · refine ⟨{ s.launch lk with started := true, start := s.timebase }, .inl ⟨rfl, ?_⟩⟩
    unfold launchFirst
    dsimp only
    rw [if_neg hs]
    split
    · exact .engineUpdate _ _ _ _ _
    · exact (Noted.putPkt _ _ _).trans (.holdPkt _ _ _ _ _)
    · exact .refl _

/-- The new thread in its slot, before it enters. -/
def slotTaken : State :=
  let s := if (s.launch lk).det then detPlaced s g else s
  let s := { s.setThread g (newThread s lk p g) with serials := s.serials + 1 }
  takePhys (s.modLaunch lk fun l => { l with places := l.places.filter fun q => q.k != p.k, live := l.live + 1 }) g false

theorem placeThread_eq : placeThread s lk p g = launchFirst (syncLines (slotTaken s lk p g) g) lk := rfl

/-- What stands of a state when a thread has its slot: dies, launches but for the placement, and tiles but for their points. -/
theorem slotTaken_cases : ∃ t c x l n, slotTaken s lk p g = { s with threads := t, cores := c, tiles := x, launches := l, serials := n } ∧
    (∀ k, (slotTaken s lk p g).launch k = s.launch k ∨ k = lk ∧ (slotTaken s lk p g).launch k = { s.launch lk with
      places := (s.launch lk).places.filter (fun q => q.k != p.k), live := (s.launch lk).live + 1 }) ∧
    (∀ k, ∃ q, (slotTaken s lk p g).tile k = { s.tile k with point := q }) ∧
    ((slotTaken s lk p g).thread g).pc = p.pc ∧ ((slotTaken s lk p g).thread g).launch = lk := by
  have hdet : ∃ c x, (if (s.launch lk).det then detPlaced s g else s) = { s with cores := c, tiles := x } ∧
      ∀ k, ∃ q, (if (s.launch lk).det then detPlaced s g else s).tile k = { s.tile k with point := q } := by
    split
    · have htile : ∀ (u : State) k, u.tiles = s.tiles → ∃ q, (u.modTile (tileOf g) fun x => { x with point := 0 }).tile k =
          { s.tile k with point := q } := by
        intro u k hu
        have hk : u.tile k = s.tile k := by rw [State.tile, State.tile, hu]
        by_cases h : k = tileOf g
        · rw [h] at hk ⊢
          rw [State.tile_mod, hk]
          exact ⟨_, rfl⟩
        · rw [State.tile_mod_other u _ _ _ h, hk]
          exact ⟨_, rfl⟩
      unfold detPlaced
      dsimp only
      split
      · exact ⟨_, _, rfl, fun k => htile s k rfl⟩
      · exact ⟨_, _, rfl, fun k => htile _ k rfl⟩
    · exact ⟨_, _, rfl, fun k => ⟨_, rfl⟩⟩
  obtain ⟨c, x, hu, htiles⟩ := hdet
  unfold slotTaken
  dsimp only
  rw [hu] at htiles ⊢
  obtain ⟨c', hc⟩ := takePhys_cases (({ ({ s with cores := c, tiles := x } : State).setThread g
    (newThread { s with cores := c, tiles := x } lk p g) with serials := s.serials + 1 }).modLaunch lk fun l =>
      { l with places := l.places.filter fun q => q.k != p.k, live := l.live + 1 }) g false
  rw [hc]
  refine ⟨_, _, _, _, _, rfl, fun k => ?_, htiles, ?_, ?_⟩
  · by_cases hk : k = lk
    · subst hk
      exact .inr ⟨rfl, State.launch_set s k _⟩
    · exact .inl (State.launch_set_other s lk k _ hk)
  · exact congrArg Thread.pc (State.thread_set s g _)
  · exact congrArg Thread.launch (State.thread_set s g _)

theorem syncLines_eq : ∃ v, syncLines s g = enter v g ∧ v.dies = s.dies ∧ v.launches = s.launches ∧ v.tiles = s.tiles ∧
    v.thread g = { s.thread g with line := none } := ⟨_, rfl, rfl, rfl, rfl, State.thread_set s g _⟩

/-- What a placement leaves as it was, and what it makes of its thread. -/
structure Placed (s u : State) (lk g : Nat) (pc : Word) : Prop where
  dies : DiesFollow SameGrants s u
  launches : AdmitsStand s u
  stagger : ∀ k, (u.tile k).stagger = (s.tile k).stagger
  pc : (u.thread g).pc = pc
  launch : (u.thread g).launch = lk

theorem placed_slotTaken : Placed s (slotTaken s lk p g) lk g p.pc := by
  obtain ⟨t, c, x, l, n, h, hlaunch, htile, hpc, hlk⟩ := slotTaken_cases s lk p g
  refine ⟨.of_dies sameGrants_notes (by rw [h]), fun k => ?_, fun k => ?_, hpc, hlk⟩
  · rcases hlaunch k with hk | ⟨rfl, hk⟩
    · rw [hk]
    · rw [hk]
  · obtain ⟨q, hq⟩ := htile k
    rw [hq]

theorem Entered.launch {t t' : Thread} (h : Entered t t') : t'.launch = t.launch := by
  rcases h with ⟨_, _, _, _, _, rfl⟩ | ⟨_, _, _, _, _, rfl⟩
  · rfl
  · rfl

variable {s lk g}

theorem Placed.syncLines {u : State} {pc : Word} (h : Placed s u lk g pc) : Placed s (syncLines u g) lk g pc := by
  obtain ⟨v, hs, hdies, hlaunches, htiles, hthread⟩ := syncLines_eq u g
  have hgoes := enter_cases v g
  have hentered := enter_entered v g
  have htile : ∀ k, (enter v g).tile k = u.tile k := fun k => by
    rw [(enter_control v g).tile, State.tile, State.tile, htiles]
  have hN := sameGrants_notes
  rw [hs]
  refine ⟨.trans hN h.dies (.trans hN (.of_dies hN hdies) (.goesOn hN sameGrants_log hgoes)),
    h.launches.trans ((AdmitsStand.of_launches hlaunches).trans (.goesOn hgoes)), fun k => ?_, ?_, ?_⟩
  · rw [htile]
    exact h.stagger k
  · rw [hentered.pc, hthread]
    exact h.pc
  · rw [hentered.launch, hthread]
    exact h.launch

theorem DiesFollow.launchFirst {P : Die → Die → Prop} (hP : DieNotes P) (s : State) (lk : Nat) : DiesFollow P s (launchFirst s lk) := by
  have hset : ∀ x, DiesFollow P s (s.setLaunch lk x) := fun x => .of_dies hP rfl
  unfold Machine.launchFirst
  dsimp only
  split
  · exact .refl hP s
  · refine .trans hP (hset { s.launch lk with started := true, start := s.timebase }) ?_
    split
    · exact .engineUpdate hP _ _ _ _ _
    · exact .trans hP (.putPkt hP _ _ _) (.holdPkt hP _ _ _ _ _)
    · exact .refl hP _

theorem Placed.launchFirst {u : State} {pc : Word} (h : Placed s u lk g pc) : Placed s (launchFirst u lk) lk g pc := by
  obtain ⟨x, ⟨hx, hn⟩ | hn⟩ := launchFirst_noted u lk
  · have htile : ∀ k, (Machine.launchFirst u lk).tile k = u.tile k := fun k => by rw [State.tile, hn.tiles]; rfl
    obtain ⟨d, hd⟩ := hn.thread g
    have hd' : (Machine.launchFirst u lk).thread g = { u.thread g with data := d } := hd
    refine ⟨.trans sameGrants_notes h.dies (.launchFirst sameGrants_notes u lk),
      h.launches.trans (.trans (.setLaunch u lk hx) (.errors hn.launch)), fun k => ?_, ?_, ?_⟩
    · rw [htile]
      exact h.stagger k
    · rw [hd']
      exact h.pc
    · rw [hd']
      exact h.launch
  · rw [hn]
    exact h

/-- A placement that is made. -/
theorem placeThread_placed (s : State) (lk : Nat) (p : Place) (g : Nat) : Placed s (placeThread s lk p g) lk g p.pc := by
  rw [placeThread_eq]
  exact (placed_slotTaken s lk p g).syncLines.launchFirst

end

/-! ### The grant that is made first -/

section

variable (s : State) (d : Nat)

/-- A waiting grant stays on its die. -/
def staysOn (w : RampWait) : Bool :=
  match rampNow s d w with
  | .move _ | .gone => false
  | _ => true

theorem rampNow_dies (x : FMap Die) (w : RampWait) : rampNow { s with dies := x } d w = rampNow s d w := rfl

theorem rampNow_move {w : RampWait} {T : Nat} (h : rampNow s d w = .move T) : dieOf T ≠ d := by
  unfold rampNow at h
  dsimp only at h
  split at h
  · split at h
    · cases h
    · split at h
      · split at h
        · next hd =>
          cases h
          exact hd
        · split at h
          · cases h
          · cases h
      · cases h
  · split at h
    · cases h
    · split at h
      · cases h
      · split at h
        · cases h
        · cases h

/-- A grant moves to another die, or its die is left as it is. -/
def waitMoved (u : State) (w : RampWait) : State :=
  match rampNow s d w with
  | .move T => u.modDie (dieOf T) fun x => { x with waiting := insertWait { w with tile := T } x.waiting }
  | _ => u

theorem settleWaits_eq : settleWaits s d = (s.die d).waiting.foldl (waitMoved s d)
    (s.modDie d fun x => { x with waiting := (s.die d).waiting.filter (staysOn s d) }) := rfl

theorem waitMoved_die (u : State) (w : RampWait) : (waitMoved s d u w).die d = u.die d ∧ ∃ x, waitMoved s d u w = { u with dies := x } := by
  unfold waitMoved
  split
  · next T h => exact ⟨State.die_mod_other u _ d _ (rampNow_move s d h).symm, _, rfl⟩
  · exact ⟨rfl, _, rfl⟩

/-- What has become void or moves leaves the die. -/
theorem settleWaits_die : (settleWaits s d).die d = { s.die d with waiting := (s.die d).waiting.filter (staysOn s d) } ∧
    ∃ x, settleWaits s d = { s with dies := x } := by
  have hfold : ∀ (l : List RampWait) (u : State), (l.foldl (waitMoved s d) u).die d = u.die d ∧
      ∃ x, l.foldl (waitMoved s d) u = { u with dies := x } := by
    intro l
    induction l with
    | nil => exact fun u => ⟨rfl, _, rfl⟩
    | cons w l ih =>
      intro u
      obtain ⟨hdie, x, hx⟩ := waitMoved_die s d u w
      obtain ⟨hdie', y, hy⟩ := ih (waitMoved s d u w)
      refine ⟨hdie'.trans hdie, y, ?_⟩
      rw [List.foldl_cons, hy, hx]
  rw [settleWaits_eq]
  obtain ⟨hdie, x, hx⟩ := hfold (s.die d).waiting (s.modDie d fun x => { x with waiting := (s.die d).waiting.filter (staysOn s d) })
  exact ⟨hdie.trans (State.die_mod s d _), x, hx⟩

theorem inTick_waiting (x : Die) (l : List RampWait) (n : Nat) :
    Die.inTick { x with waiting := l } n = { x.inTick n with waiting := l } := by
  unfold Die.inTick
  dsimp only
  split
  · rfl
  · rfl

/-- A grant has left its die's waiting ones and is charged to the tick. -/
def rampCharged (v : State) (d : Nat) (w : RampWait) : State :=
  (rampDrop v d w).modDie d fun x => (x.inTick (sluiceNow v)).charge (v.param 0) (rampCost v w)

theorem rampTake_eq (v : State) (d : Nat) (w : RampWait) (T : Nat) : rampTake v d w T =
    if w.since < sluiceNow v then (rampCharged v d w).modTile T fun x => { x with stagger := x.stagger + 1 }
    else rampCharged v d w := rfl

/-- A grant that is taken leaves the waiting ones and is charged to its tick. -/
theorem rampTake_die {v : State} {d T : Nat} {w : RampWait} {l : List RampWait} (hw : (v.die d).waiting = w :: l) :
    ((rampTake v d w T).die d).waiting = l ∧
      ((rampTake v d w T).die d).granted = ((v.die d).inTick (sluiceNow v)).granted + rampCost v w := by
  have hdie : (rampTake v d w T).die d =
      (Die.inTick { v.die d with waiting := (v.die d).waiting.erase w } (sluiceNow v)).charge (v.param 0) (rampCost v w) := by
    have hcharged : (rampCharged v d w).die d = _ := State.die_mod _ d _
    rw [rampDrop, State.die_mod] at hcharged
    rw [rampTake_eq]
    split
    · exact hcharged
    · exact hcharged
  rw [hdie, inTick_waiting, hw, List.erase_cons_head]
  exact ⟨rfl, rfl⟩

theorem rampTake_tile (v : State) (d T k : Nat) (w : RampWait) :
    (rampTake v d w T).tile k = { v.tile k with
      stagger := (v.tile k).stagger + (if k = T ∧ w.since < sluiceNow v then 1 else 0) } := by
  have hcharged : (rampCharged v d w).tile k = v.tile k := rfl
  have hzero : (v.tile k).stagger + 0 = (v.tile k).stagger := by simp
  rw [rampTake_eq]
  by_cases hs : w.since < sluiceNow v
  · rw [if_pos hs]
    by_cases hk : k = T
    · subst hk
      rw [State.tile_mod, if_pos ⟨rfl, hs⟩, hcharged]
    · rw [State.tile_mod_other _ T k _ hk, if_neg fun h => hk h.1, hzero]
      exact hcharged
  · rw [if_neg hs, if_neg fun h => hs h.2, hzero]
    exact hcharged

theorem rampTake_cases (v : State) (d : Nat) (w : RampWait) (T : Nat) :
    ∃ y t, rampTake v d w T = { v with dies := y, tiles := t } := by
  rw [rampTake_eq]
  split
  · exact ⟨_, _, rfl⟩
  · exact ⟨_, _, rfl⟩

/-- What the engine of the ramp does with the first waiting grant that can be made, in the state `v`. -/
def grantMade (s v : State) (d : Nat) (w : RampWait) : State :=
  match rampNow s d w with
  | .place lk p g => placeThread (rampTake v d w (tileOf g)) lk p g
  | .lease r => grantLease (rampTake v d w w.tile) w.tile r
  | _ => v

variable {s d}

/-- The state in which the first waiting grant of a die is to be made. -/
theorem rampSlotGrant_first {w : RampWait} {l : List RampWait} (hd : d < Config.dies) (hw : (s.die d).waiting = w :: l)
    (hpause : s.pause = none) (hdue : pinnedDue s = false)
    (hfits : ((s.die d).inTick (sluiceNow s)).fits (s.param 0) (rampCost s w) = true) (hstays : staysOn s d w = true)
    (hnow : rampNow s d w ≠ .stay) :
    ∃ x, (State.die { s with dies := x } d) = { s.die d with waiting := w :: l.filter (staysOn s d) } ∧
      exec (.rampSlotGrant d) s = .next (grantMade s { s with dies := x } d w) := by
  obtain ⟨hdie, x, hx⟩ := settleWaits_die s d
  rw [hw, List.filter_cons_of_pos hstays] at hdie
  rw [hx] at hdie
  refine ⟨x, hdie, ?_⟩
  show execRampSlotGrant d s = _
  unfold execRampSlotGrant
  rw [if_pos hd]
  dsimp only
  rw [hx]
  have hfound : (State.die { s with dies := x } d).waiting.find? (fun w => rampNow { s with dies := x } d w != .stay) = some w := by
    rw [hdie]
    refine List.find?_cons_of_pos ?_
    show (rampNow s d w != .stay) = true
    simpa using hnow
  have hgo : ¬ (({ s with dies := x } : State).pause.isSome ∨ pinnedDue { s with dies := x } ∨
      !((State.die { s with dies := x } d).inTick (sluiceNow s)).fits (s.param 0) (rampCost s w)) := by
    rw [hdie, inTick_waiting]
    rintro (h | h | h)
    · rw [show ({ s with dies := x } : State).pause = s.pause from rfl, hpause] at h
      cases h
    · rw [show pinnedDue { s with dies := x } = pinnedDue s from rfl, hdue] at h
      cases h
    · rw [show Die.fits { (s.die d).inTick (sluiceNow s) with waiting := w :: l.filter (staysOn s d) } (s.param 0) (rampCost s w) =
        ((s.die d).inTick (sluiceNow s)).fits (s.param 0) (rampCost s w) from rfl, hfits] at h
      cases h
  rw [hfound]
  refine (if_neg hgo).trans ?_
  unfold grantMade
  rw [rampNow_dies]
  cases rampNow s d w with
  | place lk p g => rfl
  | lease r => rfl
  | move T => rfl
  | stay => rfl
  | gone => rfl

/-- A placement whose grant is made takes its slot. -/
theorem rampNow_place {w : RampWait} {lk k g : Nat} {p : Place} (hw : w.place = some (lk, k))
    (hp : (s.launch lk).places.find? (fun p => p.k == k) = some p) (hslot : placeSlot s (s.launch lk) p = some g)
    (hd : dieOf (tileOf g) = d) (hopen : tileClosed s (tileOf g) = false) (hfree : slotWanted s lk g = false) :
    rampNow s d w = .place lk p g := by
  unfold rampNow
  simp [hw, hp, hslot, hd, hopen, hfree]

/-- A lease whose grant is made is given to the request that is next. -/
theorem rampNow_lease {w : RampWait} {r : LeaseReq} (hw : w.place = none) (hlease : (s.tile w.tile).mx.lease = none)
    (hopen : tileClosed s w.tile = false) (hr : leaseNext (s.tile w.tile).mx (fun _ => true) = some r)
    (hpin : launchPinned s r.who.launch = false) : rampNow s d w = .lease r := by
  have hmem : r ∈ (s.tile w.tile).mx.requests := by
    obtain ⟨k, -, hk⟩ := List.exists_of_findSome?_eq_some hr
    exact List.mem_of_find?_eq_some hk
  have hall : ((s.tile w.tile).mx.requests.all fun r => launchPinned s r.who.launch) = false := by
    rw [List.all_eq_false]
    exact ⟨r, hmem, by simp [hpin]⟩
  unfold rampNow
  simp [hw, hlease, hopen, hr, hpin, hall]

/-- What a grant of a lease leaves of the dies, and of the array. -/
theorem grantLease_stands (v : State) (T : Nat) (r : LeaseReq) : DiesFollow SameGrants v (grantLease v T r) ∧
    ((grantLease v T r).tile T).mx = settle (leasedMatrix v r (v.tile T).mx) := by
  have hN := sameGrants_notes
  have hgranted : DiesFollow SameGrants v (leaseGranted v T r) := .of_dies hN rfl
  have hresume : ∀ u : State, DiesFollow SameGrants u (resumeRetire u r.who.g) := by
    intro u
    have hmod : ∀ (x : State) f, DiesFollow SameGrants x (x.modThread r.who.g f) := fun x f => .of_dies hN rfl
    exact .trans hN (.goesOn hN sameGrants_log (retire_cases _ _ _ _ _ _)) (hmod _ _)
  rw [grantLease_eq]
  split
  · refine ⟨.trans hN hgranted (hresume _), ?_⟩
    rw [resumeRetire, retireWait_tile]
    exact leaseGranted_mx v T r
  · exact ⟨hgranted, leaseGranted_mx v T r⟩

/-! ### Pinned launches (R308) -/

/-- The launch is admitted, its placements have their slots, and every die is charged. -/
def pinnedCharged (s : State) (lk : Nat) : State :=
  let tiles := plannedTiles s (s.launch lk)
  let n := sluiceNow s
  let u := ((List.range Config.dies).filter fun d => pinnedCost s tiles d != 0).foldl (fun s' d =>
    s'.modDie d fun x => (x.inTick n).charge (s.param 0) (pinnedCost s tiles d)) s
  let u := u.modLaunch lk fun l => { l with admitted := true, places := chosenPlaces s (s.launch lk) }
  if (s.launch lk).det then tiles.eraseDups.foldl (fun s T => s.modTile T fun x => { x with point := 0 }) u else u

/-- Its placements whose slots are empty are made. -/
def pinnedPlaced (s : State) (lk : Nat) : State :=
  ((chosenPlaces s (s.launch lk)).mergeSort fun a b => b.stage ≤ a.stage).foldl (placeNow lk) (pinnedCharged s lk)

theorem placeNow_stands (v : State) (lk : Nat) (p : Place) : DiesFollow SameGrants v (placeNow lk v p) ∧ AdmitsStand v (placeNow lk v p) := by
  unfold placeNow
  split
  · dsimp only
    split
    · exact ⟨.refl sameGrants_notes v, .refl v⟩
    · next g _ _ =>
      obtain ⟨hdies, hlaunches, -⟩ := placeThread_placed v lk p g
      exact ⟨hdies, hlaunches⟩
  · exact ⟨.refl sameGrants_notes v, .refl v⟩

theorem placesNow_stand (lk : Nat) (l : List Place) : ∀ v, DiesFollow SameGrants v (l.foldl (placeNow lk) v) ∧
    AdmitsStand v (l.foldl (placeNow lk) v) := by
  induction l with
  | nil => exact fun v => ⟨.refl sameGrants_notes v, .refl v⟩
  | cons p l ih =>
    intro v
    obtain ⟨hd, ha⟩ := placeNow_stands v lk p
    obtain ⟨hd', ha'⟩ := ih (placeNow lk v p)
    exact ⟨.trans sameGrants_notes hd hd', ha.trans ha'⟩

/-- A fold that changes dies of a list, each once and each in its way. -/
theorem foldl_modDieAt (f : Nat → Die → Die) {l : List Nat} (hn : l.Nodup) (k : Nat) : ∀ s : State,
    ((l.foldl (fun s d => s.modDie d (f d)) s).die k) = if k ∈ l then f k (s.die k) else s.die k := by
  induction l with
  | nil => exact fun s => by simp
  | cons d l ih =>
    intro s
    obtain ⟨hd, hn⟩ := List.nodup_cons.mp hn
    rw [List.foldl_cons, ih hn]
    by_cases hk : k = d
    · subst hk
      rw [if_neg hd, if_pos List.mem_cons_self, State.die_mod]
    · rw [State.die_mod_other s d k (f d) hk]
      simp only [List.mem_cons, hk, false_or]

/-- Every die of a pinned launch is charged, and the launch admitted. -/
theorem pinnedCharged_stands (s : State) (lk : Nat) : ((pinnedCharged s lk).launch lk).admitted = true ∧
    ∀ e, e < Config.dies → pinnedCost s (plannedTiles s (s.launch lk)) e ≠ 0 → ((pinnedCharged s lk).die e).granted =
      ((s.die e).inTick (sluiceNow s)).granted + pinnedCost s (plannedTiles s (s.launch lk)) e := by
  have hpoints : ∀ (l : List Nat) (v : State), (l.foldl (fun s T => s.modTile T fun x => { x with point := 0 }) v).dies = v.dies ∧
      (l.foldl (fun s T => s.modTile T fun x => { x with point := 0 }) v).launches = v.launches := fun l v =>
    ⟨foldl_keeps (f := fun s T => s.modTile T fun x => { x with point := 0 }) State.dies (fun _ _ => rfl) l v,
      foldl_keeps (f := fun s T => s.modTile T fun x => { x with point := 0 }) State.launches (fun _ _ => rfl) l v⟩
  have hcharged : ∀ e, e < Config.dies → pinnedCost s (plannedTiles s (s.launch lk)) e ≠ 0 →
      ((((List.range Config.dies).filter fun d => pinnedCost s (plannedTiles s (s.launch lk)) d != 0).foldl (fun s' d =>
        s'.modDie d fun x => (x.inTick (sluiceNow s)).charge (s.param 0) (pinnedCost s (plannedTiles s (s.launch lk)) d)) s).die e).granted =
      ((s.die e).inTick (sluiceNow s)).granted + pinnedCost s (plannedTiles s (s.launch lk)) e := by
    intro e he hcost
    rw [foldl_modDieAt (fun d x => (x.inTick (sluiceNow s)).charge (s.param 0) (pinnedCost s (plannedTiles s (s.launch lk)) d))
      (List.nodup_range.filter _), if_pos (List.mem_filter.mpr ⟨List.mem_range.mpr he, by simpa using hcost⟩)]
    rfl
  unfold pinnedCharged
  dsimp only
  generalize ((List.range Config.dies).filter fun d => pinnedCost s (plannedTiles s (s.launch lk)) d != 0).foldl (fun s' d =>
    s'.modDie d fun x => (x.inTick (sluiceNow s)).charge (s.param 0) (pinnedCost s (plannedTiles s (s.launch lk)) d)) s = v at hcharged
  have hadmitted : ((v.modLaunch lk fun l => { l with admitted := true, places := chosenPlaces s (s.launch lk) }).launch lk).admitted = true :=
    congrArg Launch.admitted (State.launch_mod v lk _)
  split
  · obtain ⟨hdies, hlaunches⟩ := hpoints (plannedTiles s (s.launch lk)).eraseDups
      (v.modLaunch lk fun l => { l with admitted := true, places := chosenPlaces s (s.launch lk) })
    refine ⟨?_, fun e he hcost => ?_⟩
    · rw [State.launch, hlaunches]
      exact hadmitted
    · rw [State.die, hdies]
      exact hcharged e he hcost
  · exact ⟨hadmitted, hcharged⟩

/-- A launch that starts nothing is done with its error (R308). -/
theorem launchRefused_launch (s : State) (lk : Nat) {err : Nat} (he : err ≠ 0) : ((launchRefused s lk err).launch lk).done = true ∧
    ((launchRefused s lk err).launch lk).error = err ∧ ((launchRefused s lk err).launch lk).places = [] := by
  have hunbound : ∀ (u : State) (b : Bool), ((if b then unbindActors u lk else u).launch lk) = u.launch lk := by
    have hmisuse : ∀ (v : State) o n, (misuseTimes v o n).launches = v.launches := by
      intro v o n
      induction n with
      | zero => rfl
      | succ n ih => exact ih
    rintro u (_ | _)
    · rfl
    · exact congrArg (fun m => (mget m lk).getD {}) (hmisuse _ _ _)
  have hset : (s.setLaunch lk { s.launch lk with done := true, places := [], start := s.timebase, error := err }).launch lk = _ :=
    State.launch_set s lk _
  unfold launchRefused
  dsimp only
  have hb := hunbound (s.setLaunch lk { s.launch lk with done := true, places := [], start := s.timebase, error := err }) (s.launch lk).actors
  rw [hset] at hb
  have herr : ((if (s.launch lk).actors then unbindActors (s.setLaunch lk
      { s.launch lk with done := true, places := [], start := s.timebase, error := err }) lk else
        s.setLaunch lk { s.launch lk with done := true, places := [], start := s.timebase, error := err }).launch lk).error ≠ 0 := by
    rw [hb]
    exact he
  rw [(Noted.completePkt _ _ _ _ _ _ _ _).launch_error herr, hb]
  exact ⟨rfl, rfl, rfl⟩

section

variable {s : State} {lk : Nat} (hplaced : (mget s.launches lk).isSome = true) (hnot : (s.launch lk).admitted = false)
  (hdone : (s.launch lk).done = false) (hpin : launchPinned s lk = true) (htick : s.timebase = admissionTick (s.launch lk))
  (hlater : admittedLater s lk = false)
include hplaced hnot hdone hpin htick hlater

/-- The admission of a pinned launch at its boundary. -/
theorem exec_pinned : exec (.pinnedLaunchAdmission lk) s =
    if (List.range Config.dies).any fun d => !inShare (s.param 0) (pinnedCost s (plannedTiles s (s.launch lk)) d) then
      .next (launchRefused s lk 0x21)
    else .next (pinnedPlaced s lk) := by
  show execPinnedLaunchAdmission lk s = _
  unfold execPinnedLaunchAdmission pinnedPlaced pinnedCharged
  dsimp only
  refine if_neg ?_
  rw [hnot, hdone, hpin, hlater]
  rintro (h | h | h | h | h | h)
  · cases hm : mget s.launches lk with
    | none =>
      rw [hm] at hplaced
      cases hplaced
    | some x =>
      rw [hm] at h
      cases h
  · cases h
  · cases h
  · cases h
  · exact h htick
  · cases h

theorem pinned_admitted (hfits : ∀ e, e < 8 → 8 * pinnedCost s (plannedTiles s (s.launch lk)) e ≤ s.param 0) :
    exec (.pinnedLaunchAdmission lk) s = .next (pinnedPlaced s lk) := by
  refine (exec_pinned hplaced hnot hdone hpin htick hlater).trans (if_neg ?_)
  rw [List.any_eq_true]
  rintro ⟨e, he, hx⟩
  have hin : inShare (s.param 0) (pinnedCost s (plannedTiles s (s.launch lk)) e) = true := decide_eq_true (hfits e (List.mem_range.mp he))
  rw [hin] at hx
  cases hx

theorem pinned_refused (hover : ∃ e, e < 8 ∧ s.param 0 < 8 * pinnedCost s (plannedTiles s (s.launch lk)) e) :
    exec (.pinnedLaunchAdmission lk) s = .next (launchRefused s lk 0x21) := by
  obtain ⟨e, he, hx⟩ := hover
  refine (exec_pinned hplaced hnot hdone hpin htick hlater).trans (if_pos ?_)
  have hout : inShare (s.param 0) (pinnedCost s (plannedTiles s (s.launch lk)) e) = false :=
    decide_eq_false (Nat.not_le.mpr hx)
  exact List.any_eq_true.mpr ⟨e, List.mem_range.mpr he, by rw [hout]; rfl⟩

end

/-! ### Ballast (R310) -/

/-- An idle array with steps to run runs one, counted at its site. -/
theorem runSteps_one {s : State} {T : Nat} (hsteps : (s.tile T).steps ≠ 0) (hidle : arrayIdle (s.tile T) = true) :
    ((runSteps s T 1).tile (if s.pause.isSome then arriving s T else T)).ballast =
      (s.tile (if s.pause.isSome then arriving s T else T)).ballast + 4 ∧
    ((runSteps s T 1).tile T).steps = (s.tile T).steps - 1 := by
  have hone : min 1 (s.tile T).steps = 1 := by omega
  have hrun : runSteps s T 1 = (s.setTile T { s.tile T with steps := (s.tile T).steps - 1 }).modTile
      (if s.pause.isSome then arriving s T else T) fun y => { y with ballast := y.ballast + 4 } := by
    unfold runSteps
    dsimp only
    rw [hone, hidle, if_neg (by simp)]
    rfl
  rw [hrun]
  generalize (if s.pause.isSome then arriving s T else T) = site
  refine ⟨?_, ?_⟩
  · rw [State.tile_mod]
    by_cases h : site = T
    · rw [h, State.tile_set]
    · rw [State.tile_set_other s T site _ h]
  · by_cases h : T = site
    · subst h
      rw [State.tile_mod, State.tile_set]
    · rw [State.tile_mod_other _ site T _ h, State.tile_set]

theorem powerGrants : PowerGrants := by
  intro s d T lk k g w l p hd hT x stays
  refine ⟨fun hw hpause hdue hfits => ⟨fun hplace hp hslot hg hopen hfree => ?_, fun r hplace hlease hopen hr hpin hlive => ?_⟩,
    fun hplaced hnot hdone hpin htick hlater => ⟨fun hfits => ?_, fun hover => ?_⟩, fun hsteps hidle => ?_⟩
  · have hnow := rampNow_place (d := d) hplace hp hslot hg hopen hfree
    obtain ⟨y, hdie, hrun⟩ := rampSlotGrant_first hd hw hpause hdue hfits (by unfold staysOn; rw [hnow]) (by rw [hnow]; nofun)
    have hmade : grantMade s { s with dies := y } d w = placeThread (rampTake { s with dies := y } d w (tileOf g)) lk p g := by
      unfold grantMade
      rw [hnow]
    rw [hmade] at hrun
    obtain ⟨hdies, -, hstagger, hpc, hlaunch⟩ := placeThread_placed (rampTake { s with dies := y } d w (tileOf g)) lk p g
    obtain ⟨hwaiting, hgranted⟩ := rampTake_die (T := tileOf g) (congrArg Die.waiting hdie)
    obtain ⟨hwaiting', hgranted'⟩ := hdies d
    rw [hdie, inTick_waiting] at hgranted
    have hcost : rampCost s w = s.param 2 := if_pos (by rw [hplace]; rfl)
    refine ⟨_, hrun, hwaiting'.trans hwaiting, (hgranted'.trans hgranted).trans (congrArg (x.granted + ·) hcost), hpc, hlaunch, ?_⟩
    rw [hstagger, rampTake_tile]
    simp only [true_and]
    rfl
  · have hnow := rampNow_lease (d := d) hplace hlease hopen hr hpin
    obtain ⟨y, hdie, hrun⟩ := rampSlotGrant_first hd hw hpause hdue hfits (by unfold staysOn; rw [hnow]) (by rw [hnow]; nofun)
    have hmade : grantMade s { s with dies := y } d w = grantLease (rampTake { s with dies := y } d w w.tile) w.tile r := by
      unfold grantMade
      rw [hnow]
    rw [hmade] at hrun
    obtain ⟨hdies, hmx⟩ := grantLease_stands (rampTake { s with dies := y } d w w.tile) w.tile r
    obtain ⟨hwaiting, hgranted⟩ := rampTake_die (T := w.tile) (congrArg Die.waiting hdie)
    obtain ⟨hwaiting', hgranted'⟩ := hdies d
    rw [hdie, inTick_waiting] at hgranted
    have hcost : rampCost s w = s.param 3 := if_neg (by rw [hplace]; exact Bool.false_ne_true)
    refine ⟨_, hrun, hwaiting'.trans hwaiting, (hgranted'.trans hgranted).trans (congrArg (x.granted + ·) hcost), ?_, ?_⟩
    · rw [hmx, settle_requests, rampTake_tile]
      rfl
    · obtain ⟨y', t, ht⟩ := rampTake_cases { s with dies := y } d w w.tile
      rw [hmx, settle_lease, leasedMatrix, ht]
      exact if_pos hlive
  · obtain ⟨hadmitted, hcharged⟩ := pinnedCharged_stands s lk
    obtain ⟨hdies, hlaunches⟩ := placesNow_stand lk ((chosenPlaces s (s.launch lk)).mergeSort fun a b => b.stage ≤ a.stage) (pinnedCharged s lk)
    exact ⟨_, pinned_admitted hplaced hnot hdone hpin htick hlater hfits, (hlaunches lk).trans hadmitted,
      fun e he hcost => (hdies e).2.trans (hcharged e he hcost)⟩
  · exact ⟨_, pinned_refused hplaced hnot hdone hpin htick hlater hover, launchRefused_launch s lk (by decide)⟩
  · obtain ⟨hballast, hleft⟩ := runSteps_one hsteps hidle
    exact ⟨_, if_pos hT, hballast, hleft⟩

/-- Settles O40. -/
theorem powerEvents : Obligations.PowerEvents := ⟨sluiceTicks, powerGrants⟩

end

end Sys2Proof.Machine
end

section
/-! PROOFS. Freeze, drain, shift and resume of a drift (spec/16 R319 to R334). -/

namespace Sys2Proof.Machine

open Sys2Proof.Claims

/-! ### Steps that change cores and stall turns alone -/

/-- Of the module the cores and the threads alone may differ, of a thread its stall turns. -/
def TurnsOnly (s u : State) : Prop :=
  (∃ x y, u = { s with cores := x, threads := y }) ∧ ∀ g, ∃ n, u.thread g = { s.thread g with turns := n }

namespace TurnsOnly

theorem refl (s : State) : TurnsOnly s s := ⟨⟨_, _, rfl⟩, fun _ => ⟨_, rfl⟩⟩

theorem trans {s u v : State} (h : TurnsOnly s u) (h' : TurnsOnly u v) : TurnsOnly s v := by
  obtain ⟨⟨x, y, rfl⟩, ht⟩ := h
  obtain ⟨⟨x', y', rfl⟩, ht'⟩ := h'
  refine ⟨⟨x', y', rfl⟩, fun g => ?_⟩
  obtain ⟨n, hn⟩ := ht g
  obtain ⟨n', hn'⟩ := ht' g
  exact ⟨n', by rw [hn', hn]⟩

theorem setCore (s : State) (c : Nat) (x : Core) : TurnsOnly s (s.setCore c x) := ⟨⟨_, _, rfl⟩, fun _ => ⟨_, rfl⟩⟩

theorem modTurns (s : State) (g n : Nat) : TurnsOnly s (s.modThread g fun t => { t with turns := n }) := by
  refine ⟨⟨_, _, rfl⟩, fun k => ?_⟩
  by_cases hk : k = g
  · exact ⟨n, by rw [hk, State.thread_mod]⟩
  · exact ⟨_, by rw [State.thread_mod_other s g k _ hk]⟩

theorem foldl {α : Type} {f : State → α → State} (hf : ∀ s a, TurnsOnly s (f s a)) (l : List α) : ∀ s, TurnsOnly s (l.foldl f s) := by
  induction l with
  | nil => exact refl
  | cons a l ih => exact fun s => (hf s a).trans (ih _)

end TurnsOnly

/-! ### A swap under way ends -/

/-- One swap of a core ends, and the stall turns of the thread that came in. -/
def endSwap (c : Nat) (x : Core) (s : State) (e : Nat × Nat) : State :=
  match x.phys.getD e.1 none with
  | some k => s.modThread (8 * c + k) fun t => { t with turns := 0 }
  | none => s

theorem endSwap_turns (c : Nat) (x : Core) (s : State) (e : Nat × Nat) : TurnsOnly s (endSwap c x s e) := by
  unfold endSwap
  split
  · exact .modTurns s _ 0
  · exact .refl s

theorem endSwap_cores (c : Nat) (x : Core) (s : State) (e : Nat × Nat) : (endSwap c x s e).cores = s.cores := by
  unfold endSwap
  split
  · rfl
  · rfl

/-- All swaps of one core end. -/
def endCoreSwaps (s : State) (p : Nat × Core) : State :=
  p.2.swap.foldl (endSwap p.1 p.2) (s.modCore p.1 fun x => { x with swap := [] })

theorem endSwaps_eq (s : State) : endSwaps s = s.cores.foldl endCoreSwaps s := rfl

theorem endSwaps_turns (s : State) : TurnsOnly s (endSwaps s) := by
  rw [endSwaps_eq]
  refine TurnsOnly.foldl (fun u p => ?_) _ s
  have h : TurnsOnly u (u.modCore p.1 fun x => { x with swap := [] }) := .setCore u _ _
  exact h.trans (TurnsOnly.foldl (endSwap_turns p.1 p.2) _ _)

theorem endCoreSwaps_core (s : State) (p : Nat × Core) (c : Nat) :
    (endCoreSwaps s p).core c = (s.modCore p.1 fun x => { x with swap := [] }).core c := by
  have h : (endCoreSwaps s p).cores = (s.modCore p.1 fun x => { x with swap := [] }).cores :=
    foldl_keeps State.cores (endSwap_cores p.1 p.2) _ _
  rw [State.core, h]
  rfl

theorem foldl_endCoreSwaps_core (c : Nat) (l : List (Nat × Core)) :
    ∀ s : State, c ∈ l.map (·.1) ∨ (s.core c).swap = [] → (l.foldl endCoreSwaps s).core c = { s.core c with swap := [] } := by
  induction l with
  | nil =>
    intro s h
    have h : (s.core c).swap = [] := by simpa using h
    exact congrArg (fun l => ({ s.core c with swap := l } : Core)) h
  | cons p l ih =>
    intro s h
    by_cases hc : c = p.1
    · have hcore : (endCoreSwaps s p).core c = { s.core c with swap := [] } := by
        rw [endCoreSwaps_core, ← hc, State.core_mod]
      rw [List.foldl_cons, ih _ (.inr (by rw [hcore])), hcore]
    · have hcore : (endCoreSwaps s p).core c = s.core c := by
        rw [endCoreSwaps_core, State.core_mod_other s _ c _ hc]
      rw [List.foldl_cons, ih _ (by simpa [hcore, hc] using h), hcore]

/-- A core that is not listed is at rest. -/
theorem core_listed (s : State) (c : Nat) : c ∈ s.cores.map (·.1) ∨ s.core c = {} := by
  cases h : mget s.cores c with
  | none => exact .inr (by rw [State.core, h]; rfl)
  | some x => exact .inl (List.mem_map_of_mem (mget_mem h))

theorem endSwaps_core (s : State) (c : Nat) : (endSwaps s).core c = { s.core c with swap := [] } := by
  rw [endSwaps_eq]
  refine foldl_endCoreSwaps_core c _ s ?_
  rcases core_listed s c with h | h
  · exact .inl h
  · exact .inr (by rw [h])

/-! ### The freeze -/

theorem mapPushes_core (s : State) (f : Push → Push) (c : Nat) : (mapPushes s f).core c = (s.core c).mapPushes f := by
  rcases core_map (u := mapPushes s f) (f := Core.mapPushes f) rfl c with h | ⟨h, h'⟩
  · exact h
  · rw [h, h']
    simp [Core.mapPushes]

/-- What a core has on its way is changed by the function that changes it. -/
theorem mem_mapPushes {f : Push → Push} {x : Core} {p : Push}
    (h : p ∈ (x.mapPushes f).inflight ∨ ∃ k : Fin 4, p ∈ (x.mapPushes f).flight[k]) : ∃ q, p = f q := by
  rcases h with h | ⟨k, h⟩
  · obtain ⟨q, -, rfl⟩ := List.mem_map.mp h
    exact ⟨q, rfl⟩
  · have hk : (x.mapPushes f).flight[k] = x.flight[k].map f := by simp [Core.mapPushes]
    rw [hk] at h
    obtain ⟨q, -, rfl⟩ := List.mem_map.mp h
    exact ⟨q, rfl⟩

/-- A thread as the freeze leaves it. -/
def freezeThread (t : Thread) : Thread := if t.status = .empty then t else t.capture

/-- The state of the freeze before its dies drain. -/
def frozen (s : State) : State :=
  let u := mapPushes (endSwaps s) fun p => p.land (s.core (coreOf p.g)).clock
  { u with pause := some { freeze := s.timebase }, threads := u.threads.map fun p => (p.1, freezeThread p.2) }

theorem driftFreeze_frozen {s : State} (hp : s.pause = none) (hb : s.booted = true)
    (ht : s.timebase = (s.epochs + 1) * 2 ^ s.log2E) :
    ∃ x, exec .driftFreeze s = .next { frozen s with dies := x } ∧
      ∀ e, e < Config.dies → ({ frozen s with dies := x }.die e).drift = .draining := by
  obtain ⟨x, hx⟩ := foldl_modDie_cases (fun x => { x with drift := .draining }) (List.range Config.dies) (frozen s)
  refine ⟨x, ?_, fun e he => ?_⟩
  · have htime : (mapPushes (endSwaps s) fun p => p.land (s.core (coreOf p.g)).clock).timebase = s.timebase := by
      obtain ⟨⟨y, z, h⟩, -⟩ := endSwaps_turns s
      rw [h]
      rfl
    rw [← hx]
    show execDriftFreeze s = _
    unfold execDriftFreeze frozen
    rw [if_neg (by simp [hp, hb, freezeTick, ht])]
    dsimp only
    rw [htime]
    rfl
  · rw [← hx, foldl_modDie _ List.nodup_range, if_pos (List.mem_range.mpr he)]

theorem frozen_thread {s : State} {g : Nat} (h : (s.thread g).status ≠ .empty) :
    ∃ n, (frozen s).thread g = ({ s.thread g with turns := n } : Thread).capture := by
  obtain ⟨n, hn⟩ := (endSwaps_turns s).2 g
  refine ⟨n, ?_⟩
  have hm : (frozen s).thread g = freezeThread ((endSwaps s).thread g) := by
    rw [State.thread, State.thread]
    unfold frozen
    simp only [mget_map]
    show ((mget (endSwaps s).threads g).map freezeThread).getD {} = _
    cases mget (endSwaps s).threads g with
    | none => rfl
    | some t => rfl
  rw [hm, hn, freezeThread, if_neg h]

theorem driftFreeze_captures {s : State} (hp : s.pause = none) (hb : s.booted = true)
    (ht : s.timebase = (s.epochs + 1) * 2 ^ s.log2E) :
    ∃ u, exec .driftFreeze s = .next u ∧ u.pause = some { freeze := s.timebase } ∧ u.mem = s.mem ∧
      (∀ e, e < Config.dies → (u.die e).drift = .draining) ∧ (∀ c, (u.core c).swap = []) ∧
      (∀ c p, (p ∈ (u.core c).inflight ∨ ∃ k : Fin 4, p ∈ (u.core c).flight[k]) →
        p.due ≤ (s.core (coreOf p.g)).clock) ∧
      ∀ g, (s.thread g).status ≠ .empty → (u.thread g).regs = (s.thread g).landAll.regs ∧ (u.thread g).pend = [] ∧
        (u.thread g).ready ≤ (s.thread g).base ∧ (u.thread g).pc = (s.thread g).pc := by
  obtain ⟨x, hu, hdies⟩ := driftFreeze_frozen hp hb ht
  have hcore : ∀ c, ({ frozen s with dies := x }.core c) =
      (({ s.core c with swap := [] } : Core).mapPushes fun p => p.land (s.core (coreOf p.g)).clock) := fun c => by
    rw [← endSwaps_core, ← mapPushes_core]
    rfl
  refine ⟨_, hu, rfl, ?_, hdies, fun c => by rw [hcore]; rfl, fun c p h => ?_, fun g hg => ?_⟩
  · obtain ⟨⟨y, z, h⟩, -⟩ := endSwaps_turns s
    show (endSwaps s).mem = s.mem
    rw [h]
  · rw [hcore] at h
    obtain ⟨q, rfl⟩ := mem_mapPushes h
    exact Nat.min_le_right _ _
  · obtain ⟨n, hn⟩ := frozen_thread hg
    have hth : ({ frozen s with dies := x }.thread g) = ({ s.thread g with turns := n } : Thread).capture := hn
    rw [hth]
    exact ⟨rfl, rfl, Nat.min_le_right _ _, rfl⟩

/-! ### The resume -/

theorem foldl_max_le (f : Nat → Nat) (b : Nat) (l : List Nat) :
    ∀ a, l.foldl (fun m d => max m (f d)) a ≤ b ↔ a ≤ b ∧ ∀ d ∈ l, f d ≤ b := by
  induction l with
  | nil => simp
  | cons d l ih => exact fun a => by simp [ih, and_assoc]

theorem afterReports_le (s : State) (n : Nat) : afterReports s ≤ n ↔ ∀ e, e < Config.dies → (s.die e).reportAt < n := by
  simp [afterReports, foldl_max_le]

theorem canResume_iff (s : State) :
    canResume s = true ↔ (∀ e, e < Config.dies → (s.die e).drift = .reported) ∧ (s.die s.primary).running = true := by
  simp [canResume, allReported]

/-- The slots of a core are filled anew: its TLB stays, and of threads the stall turns change. -/
theorem refillCore_turns (s : State) (c : Nat) :
    TurnsOnly s (refillCore s c) ∧ ∀ k, ((refillCore s c).core k).tlb = (s.core k).tlb := by
  obtain ⟨x, l, hx, h⟩ : ∃ (x : Core) (l : List Nat), x.tlb = (s.core c).tlb ∧ refillCore s c =
      l.foldl (fun s k => s.modThread (8 * c + k) fun t => { t with turns := 0 }) (s.setCore c x) := by
    refine ⟨_, _, ?_, rfl⟩
    split
    · rfl
    · rfl
  rw [h]
  refine ⟨(TurnsOnly.setCore s c x).trans (.foldl (fun u _ => .modTurns u _ 0) _ _), fun k => ?_⟩
  have hcores := foldl_keeps (f := fun s k => s.modThread (8 * c + k) fun t => { t with turns := 0 })
    State.cores (fun _ _ => rfl) l (s.setCore c x)
  rw [State.core, hcores]
  show ((s.setCore c x).core k).tlb = _
  by_cases hk : k = c
  · rw [hk, State.core_set, hx]
  · rw [State.core_set_other s c k x hk]

theorem addPause_thread {s u : State} {n : Nat} (h : u.threads = s.threads.map fun p => (p.1, addPause n p.2)) (g : Nat) :
    u.thread g = addPause n (s.thread g) := by
  rw [State.thread, State.thread, h, mget_map]
  cases mget s.threads g with
  | none => rfl
  | some t => rfl

/-- A die runs on, in the phase of the next epoch. -/
def dieResumes (k : Nat) (x : Die) : Die := { x with drift := .running, phase := ⟨k % 5, by omega⟩ }

/-- The module as it resumes, before the slots of its cores are filled, the dies as given. -/
def resuming (s : State) (f : Nat) (dies : FMap Die) : State :=
  { s with
    dies := dies, pause := none, epochs := s.epochs + 1, lastResume := s.timebase
    threads := s.threads.map fun p => (p.1, addPause (s.timebase - f) p.2)
    cores := s.cores.map fun p => (p.1, { p.2 with tlb := [] }) }

theorem resumeAll_eq (s : State) (f : Nat) :
    ∃ x, (∀ e, e < Config.dies → ({ s with dies := x }.die e) = dieResumes (s.epochs + 1) (s.die e)) ∧
      resumeAll s f = (coresToFill (resuming s f x)).foldl refillCore (resuming s f x) := by
  obtain ⟨x, hx⟩ := foldl_modDie_cases (dieResumes (s.epochs + 1)) (List.range Config.dies) s
  refine ⟨x, fun e he => ?_, ?_⟩
  · rw [← hx, foldl_modDie _ List.nodup_range, if_pos (List.mem_range.mpr he)]
  · unfold resumeAll
    dsimp only
    unfold dieResumes at hx
    rw [hx]
    rfl

theorem resuming_core (s : State) (f : Nat) (x : FMap Die) (c : Nat) : ((resuming s f x).core c).tlb = [] := by
  rcases core_map (s := s) (u := resuming s f x) (f := fun x => { x with tlb := [] }) rfl c with h | ⟨h, -⟩
  · rw [h]
  · rw [h]

theorem resumeAll_resumes (s : State) (f : Nat) :
    (resumeAll s f).pause = none ∧ (resumeAll s f).epochs = s.epochs + 1 ∧ (resumeAll s f).lastResume = s.timebase ∧
      (resumeAll s f).mem = s.mem ∧
      (∀ e, e < Config.dies → ((resumeAll s f).die e).drift = .running ∧
        ((resumeAll s f).die e).phase.val = (s.epochs + 1) % 5) ∧
      (∀ c, ((resumeAll s f).core c).tlb = []) ∧
      ∀ g, (s.thread g).status ≠ .empty →
        ((resumeAll s f).thread g).paused = (s.thread g).paused + (s.timebase - f) ∧
        ((resumeAll s f).thread g).regs = (s.thread g).regs ∧ ((resumeAll s f).thread g).pc = (s.thread g).pc := by
  obtain ⟨x, hdies, hall⟩ := resumeAll_eq s f
  have hfill := TurnsOnly.foldl (fun u c => (refillCore_turns u c).1) (coresToFill (resuming s f x)) (resuming s f x)
  have htlb : ∀ c, ((resumeAll s f).core c).tlb = [] := fun c => by
    rw [hall, foldl_keeps (fun u : State => (u.core c).tlb) (fun u k => (refillCore_turns u k).2 c), resuming_core]
  rw [← hall] at hfill
  obtain ⟨⟨y, z, hu⟩, hth⟩ := hfill
  refine ⟨by rw [hu]; rfl, by rw [hu]; rfl, by rw [hu]; rfl, by rw [hu]; rfl, fun e he => ?_, htlb, fun g hg => ?_⟩
  · have hdie : (resumeAll s f).die e = dieResumes (s.epochs + 1) (s.die e) := by
      rw [hu]
      exact hdies e he
    rw [hdie]
    exact ⟨rfl, rfl⟩
  · obtain ⟨n, hn⟩ := hth g
    rw [hn, addPause_thread (u := resuming s f x) rfl g, addPause, if_neg hg]
    exact ⟨rfl, rfl, rfl⟩

/-- At a tick where the resume can be broadcast the module resumes, before it nothing happens. -/
theorem driftResume_eq {s : State} {p : Pause} (hp : s.pause = some p) :
    exec .driftResume s = .next (if canResume s ∧ resumeTick s p.freeze ≤ s.timebase then resumeAll s p.freeze else s) := by
  show execDriftResume s = _
  unfold execDriftResume
  simp only [hp]

theorem deterministicResumeExpiry_eq {s : State} {p : Pause} (hp : s.pause = some p) :
    exec .deterministicResumeExpiry s =
      .next (if canResume s ∧ detLive s ∧ afterReports s ≤ s.timebase ∧ p.freeze + 2500 = s.timebase then
        resumeAll s p.freeze else s) := by
  show execDeterministicResumeExpiry s = _
  unfold execDeterministicResumeExpiry
  simp only [hp]

theorem resumeTick_le (s : State) (f : Nat) :
    resumeTick s f ≤ s.timebase ↔ afterReports s ≤ s.timebase ∧ (detLive s = false ∨ f + 2500 ≤ s.timebase) := by
  unfold resumeTick
  cases detLive s with
  | false => simp
  | true => simp

/-! ### Calibration mode -/

theorem calibrationModeSet_eq {s : State} {v : Vector Nat 5} (hv : (v.all fun x => 1 ≤ x && x ≤ 63) = true) :
    exec (.calibrationModeSet v) s = .next (if !s.assigned then { s with calib := some v } else s) := by
  show execCalibrationModeSet v s = _
  unfold execCalibrationModeSet
  rw [if_pos hv]

end Sys2Proof.Machine

namespace Sys2Proof.Claims

open Machine

/-- Settles O42: the freeze captures every thread and ends its swaps, a drained die shifts and reports, and the module
resumes at the first tick that its reports and its deterministic threads allow. -/
theorem drift : Obligations.Drift := by
  unfold Obligations.Drift
  intro s d hd
  dsimp only
  refine ⟨driftFreeze_captures, fun hp hdr hdone => ?_, fun hp hdr => ?_, fun p hp hrep hrun => ?_, fun v hv => ⟨fun ha => ?_, fun ha => ?_⟩⟩
  · have h : exec (.driftDrainEnd d) s = .next (s.modDie d fun x => { x with drift := .shifting }) := by
      show execDriftDrainEnd d s = _
      unfold execDriftDrainEnd
      rw [if_pos hd, if_pos ⟨hp, hdr, hdone⟩]
    exact ⟨_, h, by rw [State.die_mod]⟩
  · have h : exec (.driftShiftEnd d) s = .next (s.modDie d fun x => { x with drift := .reported, reportAt := s.timebase }) := by
      show execDriftShiftEnd d s = _
      unfold execDriftShiftEnd
      rw [if_pos hd, if_pos ⟨hp, hdr⟩]
    exact ⟨_, h, by rw [State.die_mod], by rw [State.die_mod]⟩
  · have hcan : canResume s = true := (canResume_iff s).mpr ⟨hrep, hrun⟩
    rw [driftResume_eq hp, deterministicResumeExpiry_eq hp]
    refine ⟨fun hpast hdet => ?_, fun hpast hdet hat => ?_, fun hno => ?_⟩
    · rw [if_pos ⟨hcan, (resumeTick_le s _).mpr ⟨(afterReports_le s _).mpr hpast, hdet⟩⟩]
      exact ⟨_, rfl, resumeAll_resumes s p.freeze⟩
    · rw [if_pos ⟨hcan, hdet, (afterReports_le s _).mpr hpast, hat⟩]
      exact ⟨_, rfl, resumeAll_resumes s p.freeze⟩
    · rw [if_neg]
      rintro ⟨-, htick⟩
      obtain ⟨hpast, hdet⟩ := (resumeTick_le s _).mp htick
      rcases hno with hno | ⟨hlive, hsoon⟩
      · exact hno ((afterReports_le s _).mp hpast)
      · rcases hdet with hdet | hdet
        · exact absurd (hlive.symm.trans hdet) (by decide)
        · omega
  · rw [calibrationModeSet_eq hv, ha]
    exact ⟨_, rfl, rfl⟩
  · rw [calibrationModeSet_eq hv, ha]
    rfl

end Sys2Proof.Claims
end

section
/-! PROOFS. LAUNCH and ACTORS packets that pass their checks (spec/18 R374 to R380). -/

namespace Sys2Proof.Machine

open Sys2Proof.Claims

/-! ### A module without uncorrectable units counts no data error -/

/-- Where no unit is uncorrectable, none becomes so and no launch gets an error. -/
def StaysClean (s u : State) : Prop := s.poison = [] → u.poison = [] ∧ u.launches = s.launches

namespace StaysClean

theorem refl (s : State) : StaysClean s s := fun h => ⟨h, rfl⟩

theorem trans {s u v : State} (h : StaysClean s u) (h' : StaysClean u v) : StaysClean s v := fun hp =>
  ⟨(h' (h hp).1).1, (h' (h hp).1).2.trans (h hp).2⟩

theorem of_eq {s u : State} (hp : u.poison = s.poison) (hl : u.launches = s.launches) : StaysClean s u := fun h => ⟨hp.trans h, hl⟩

theorem foldl {α : Type} {f : State → α → State} (hf : ∀ u a, StaysClean u (f u a)) (l : List α) : ∀ s, StaysClean s (l.foldl f s) := by
  induction l with
  | nil => exact refl
  | cons a l ih => exact fun s => (hf s a).trans (ih _)

theorem countBad {s : State} {b : Bool} (w : Who) (h : s.poison = [] → b = false) : StaysClean s (countBad s w b) := fun hp => by
  rw [h hp]
  exact refl s hp

theorem walkBad (s : State) (a : Word) (hp : s.poison = []) (l : Nat) : ∀ table, walkBadFrom s a l table = false := by
  induction l with
  | zero =>
    intro table
    unfold walkBadFrom
    simp only [hp, List.contains_nil, Bool.or_false, Bool.and_false, Bool.false_or]
    split
    · rfl
    · rfl
  | succ l ih =>
    intro table
    unfold walkBadFrom
    simp only [hp, List.contains_nil, Bool.or_false, Bool.and_false, Bool.false_or]
    split
    · rfl
    · exact ih _

theorem countWalk (s : State) (w : Who) (a : Word) : StaysClean s (countWalk s w a) := countBad w fun h => walkBad s a h 4 _

theorem gateCount (s : State) (o key : Nat) : StaysClean s (gateCount s o key) := by
  unfold Machine.gateCount
  split
  · exact refl s
  · exact of_eq rfl rfl
  · exact of_eq rfl rfl

theorem unitPoison (s : State) (w : Who) (k : Nat) : StaysClean s (Machine.countBad s w (s.poison.contains (unitOf k))) :=
  countBad w fun h => by rw [h]; rfl

theorem engineCount1 (s : State) (w : Who) (a : Word) : StaysClean s (engineCount1 s w a) := by
  unfold Machine.engineCount1
  dsimp only
  split
  · exact countWalk s w a
  · split
    · exact (countWalk s w a).trans (unitPoison _ w _)
    · exact (countWalk s w a).trans (gateCount _ _ _)

theorem engineCountIn (w : Who) (n : Nat) : ∀ (s : State) (a : Word) (len : Nat), StaysClean s (engineCountIn s w a n len) := by
  induction n with
  | zero => exact fun s _ _ => refl s
  | succ n ih =>
    intro s a len
    unfold Machine.engineCountIn
    split
    · exact refl s
    · exact (engineCount1 s w a).trans (ih _ _ _)

theorem engineCount (s : State) (w : Who) (a : Word) (n : Nat) : StaysClean s (engineCount s w a n) := engineCountIn w _ s a n

theorem unitWrite (s : State) (key n data mask : Nat) : StaysClean s (unitWrite s key n data mask) := fun h => by
  unfold Machine.unitWrite
  simp [h]

theorem unitWriteList (o lk n : Nat) : ∀ (s : State) (p : Nat) (bs : List Byte), StaysClean s (unitWriteList s o lk p n bs) := by
  induction n with
  | zero => exact fun s _ _ => refl s
  | succ n ih =>
    intro s p bs h
    unfold Machine.unitWriteList
    split
    · exact refl s h
    · dsimp only
      rw [if_neg (by simp [h])]
      exact (unitWrite s _ _ _ _).trans (ih _ _ _) h

theorem ownerWrite (s : State) (tag o lk : Nat) (a : Word) (bs : List Byte) : StaysClean s (ownerWrite s tag o lk a bs) := fun h => by
  unfold Machine.ownerWrite
  rw [walkBad s a h 4]
  simp only [Bool.false_eq_true, if_false]
  split
  · split
    · exact unitWriteList _ _ _ _ _ _ h
    · exact gateCount _ _ _ h
  · exact refl s h

theorem putInlet (s : State) (id : Nat) (x : Inlet) : StaysClean s (putInlet s id x) := by
  have hset : StaysClean s (s.setInlet id x) := of_eq rfl rfl
  exact hset.trans (ownerWrite _ _ _ _ _ _)

theorem takeHead (s : State) (id : Nat) : StaysClean s (takeHead s id) := by
  have hlast : ∀ (u : State) d (x : Service) n e f, StaysClean u (({ takeWork u d x with starts := n }).modDie e f) :=
    fun u d x n e f => of_eq rfl rfl
  unfold Machine.takeHead
  exact ((engineCount s _ _ _).trans (putInlet _ _ _)).trans (hlast _ _ _ _ _ _)

theorem establishFloes (s : State) (o : Nat) (r : Named) : StaysClean s (establishFloes s o r) := by
  have hset : ∀ (u : State) f, StaysClean u (u.modOwner o f) := fun u f => of_eq rfl rfl
  unfold Machine.establishFloes
  split
  · exact refl s
  · exact ((hset s _).trans (ownerWrite _ _ _ _ _ _)).trans (foldl (fun u p => putInlet u _ _) _ _)

theorem countReads (s : State) (w : Who) (l : List (Word × Nat)) : StaysClean s (countReads s w l) :=
  foldl (f := fun u (x : Word × Nat) => Machine.engineCount u w x.1 x.2) (fun u x => engineCount u w x.1 x.2) l s

end StaysClean

/-! ### What the start of a packet leaves -/

/-- The berths of owners and the launch ids they have used stay. -/
def BerthsStand (s u : State) : Prop := ∀ o, (u.owner o).berths = (s.owner o).berths

namespace BerthsStand

theorem trans {s u v : State} (h : BerthsStand s u) (h' : BerthsStand u v) : BerthsStand s v := fun o => (h' o).trans (h o)

theorem written {s u : State} (h : Written s u) : BerthsStand s u := fun o => by
  obtain ⟨d, m, ho⟩ := h.owner o
  rw [ho]

theorem of_owners {s u : State} (h : u.owners = s.owners) : BerthsStand s u := fun o => by rw [State.owner, State.owner, h]

theorem modOwner (s : State) (o : Nat) {f : Owner → Owner} (h : ∀ x, (f x).berths = x.berths) : BerthsStand s (s.modOwner o f) := by
  intro k
  by_cases hk : k = o
  · rw [hk, State.owner_mod, h]
  · rw [State.owner_mod_other s o k f hk]

theorem putInlet (s : State) (id : Nat) (x : Inlet) : BerthsStand s (putInlet s id x) := by
  have hset : BerthsStand s (s.setInlet id x) := of_owners rfl
  exact hset.trans (written (putInlet_written s id x))

theorem takeHead (s : State) (id : Nat) : BerthsStand s (takeHead s id) := by
  have hlast : ∀ (u : State) d (x : Service) n e f, BerthsStand u (({ takeWork u d x with starts := n }).modDie e f) :=
    fun u d x n e f => of_owners rfl
  unfold Machine.takeHead
  exact ((written (Written.engineCount s _ _ _)).trans (putInlet _ _ _)).trans (hlast _ _ _ _ _ _)

theorem foldl {α : Type} {f : State → α → State} (hf : ∀ u a, BerthsStand u (f u a)) (l : List α) : ∀ s, BerthsStand s (l.foldl f s) := by
  induction l with
  | nil => exact fun _ _ => rfl
  | cons a l ih => exact fun s => (hf s a).trans (ih _)

theorem establishFloes (s : State) (o : Nat) (r : Named) : BerthsStand s (establishFloes s o r) := by
  have hset : BerthsStand s (s.modOwner o fun x => { x with park := r.park, rings := r.rings, ringN := r.ringN }) :=
    modOwner s o fun _ => rfl
  unfold Machine.establishFloes
  split
  · exact fun _ => rfl
  · exact (hset.trans (written (Written.ownerWrite _ _ _ _ _ _))).trans (foldl (fun u p => putInlet u _ _) _ _)

end BerthsStand

/-! ### The launch enters the table -/

/-- What a packet's launch is in the table before its reads are counted (R378). -/
def launchOf (s : State) (id : Nat) (b : List Byte) (p : Plan) (actors : Bool) (order : Nat) (argv : Vector Word 6)
    (stations : Word) (start : Nat) : Launch :=
  let x := s.inlet id
  let r := p.named
  let o := x.owner
  let det := decide (4 ≤ pkField b 2 1) || (s.owner o).det
  let pinned := pkField b 2 1 / 2 % 2 == 1
  { owner := o, id := nextLaunchId (s.owner o), inlet := id, index := x.head.toNat, order := order, actors := actors
    pinned := pinned, det := det, signal := pkWord b 8, start := start
    args := pkWord b 24, argLen := pkField b 32 4, argv := argv
    seed := r.seed, region := r.region, e := r.e, j := r.j, p := r.p, floe := r.floe, stations := stations
    base := if actors then 0 else pkField b 48 4
    places := p.places, admitted := !pinned && !det }

/-- The packet's launch is tabled: it stands under its key, with an error 0x12 at most, and its packet has started. -/
structure Tabled (s u : State) (id : Nat) (b : List Byte) (p : Plan) (actors : Bool) : Prop where
  last : (u.owner (s.inlet id).owner).lastLaunch = nextLaunchId (s.owner (s.inlet id).owner)
  launch : ∃ n v e t c, (c = 0 ∨ c = 0x12) ∧ (s.poison = [] → c = 0) ∧
    u.launch (launchKey (s.inlet id).owner (nextLaunchId (s.owner (s.inlet id).owner))) =
      { launchOf s id b p actors n v e t with error := c }
  live : .launch (s.inlet id).head.toNat (launchKey (s.inlet id).owner (nextLaunchId (s.owner (s.inlet id).owner))) false ∈
    (u.inlet id).live
  berths : BerthsStand s u

theorem Tabled.withCores {s u : State} {id : Nat} {b : List Byte} {p : Plan} {actors : Bool} (h : Tabled s u id b p actors)
    (c : FMap Core) : Tabled s { u with cores := c } id b p actors := ⟨h.last, h.launch, h.live, h.berths⟩

theorem tableLaunch_tabled (s : State) (id : Nat) (b : List Byte) (p : Plan) (actors : Bool) :
    Tabled s (tableLaunch s id b p actors).1 id b p actors := by
  obtain ⟨l, hl, u, hu⟩ : ∃ l : Launch, l = launchOf s id b p actors s.starts
      (argWords s (s.inlet id).owner (pkWord b 24) (pkField b 32 4)) p.named.stations s.timebase ∧
      ∃ u, u = ((establishFloes (takeHead s id) (s.inlet id).owner p.named).modOwner (s.inlet id).owner fun y =>
        { y with lastLaunch := nextLaunchId (s.owner (s.inlet id).owner) }).setLaunch
          (launchKey (s.inlet id).owner (nextLaunchId (s.owner (s.inlet id).owner))) l := ⟨_, rfl, _, rfl⟩
  have heq : (tableLaunch s id b p actors).1 = putPkt (countReads u (ownerWho (s.inlet id).owner
      (launchKey (s.inlet id).owner (nextLaunchId (s.owner (s.inlet id).owner)))) p.reads) id
      (.launch (s.inlet id).head.toNat (launchKey (s.inlet id).owner (nextLaunchId (s.owner (s.inlet id).owner))) false) := by
    rw [hu, hl]
    rfl
  have hclean : s.poison = [] → u.poison = [] := fun h => by
    rw [hu]
    exact (((StaysClean.takeHead s id).trans (.establishFloes _ (s.inlet id).owner p.named)) h).1
  have hlaunch : u.launch (launchKey (s.inlet id).owner (nextLaunchId (s.owner (s.inlet id).owner))) = l := by
    rw [hu, State.launch_set]
  have howner : (u.owner (s.inlet id).owner).lastLaunch = nextLaunchId (s.owner (s.inlet id).owner) := by
    rw [hu]
    show (((establishFloes (takeHead s id) (s.inlet id).owner p.named).modOwner (s.inlet id).owner fun y =>
        { y with lastLaunch := nextLaunchId (s.owner (s.inlet id).owner) }).owner (s.inlet id).owner).lastLaunch = _
    rw [State.owner_mod]
  have hberths : BerthsStand s u := by
    rw [hu]
    have hlast : ∀ v : State, BerthsStand v ((v.modOwner (s.inlet id).owner fun y =>
        { y with lastLaunch := nextLaunchId (s.owner (s.inlet id).owner) }).setLaunch
          (launchKey (s.inlet id).owner (nextLaunchId (s.owner (s.inlet id).owner))) l) := fun v => by
      have h : BerthsStand v (v.modOwner (s.inlet id).owner fun y =>
          { y with lastLaunch := nextLaunchId (s.owner (s.inlet id).owner) }) := .modOwner v _ fun _ => rfl
      exact h
    exact ((BerthsStand.takeHead s id).trans (.establishFloes _ _ _)).trans (hlast _)
  generalize hlk : launchKey (s.inlet id).owner (nextLaunchId (s.owner (s.inlet id).owner)) = lk at *
  have hreads : Written u (countReads u (ownerWho (s.inlet id).owner lk) p.reads) :=
    Written.foldl (f := fun v (x : Word × Nat) => engineCount v (ownerWho (s.inlet id).owner lk) x.1 x.2)
      (fun v x => Written.engineCount v _ x.1 x.2) _ u
  have hreadsClean := StaysClean.countReads u (ownerWho (s.inlet id).owner lk) p.reads
  generalize countReads u (ownerWho (s.inlet id).owner lk) p.reads = v at *
  have hput := Noted.putPkt v id (.launch (s.inlet id).head.toNat lk false)
  rw [heq]
  refine ⟨?_, ?_, hlk ▸ putPkt_mem v _, (hberths.trans (.written hreads)).trans (.of_owners rfl)⟩
  · obtain ⟨_, _, ho⟩ := hreads.owner (s.inlet id).owner
    show (v.owner _).lastLaunch = _
    rw [ho, howner]
  · rw [hlk]
    show ∃ n w e t c, _ ∧ _ ∧ v.launch lk = _
    rcases hreads.launch lk with h | ⟨-, h⟩
    · exact ⟨_, _, _, _, 0, .inl rfl, fun _ => rfl, by rw [h, hlaunch, hl]; rfl⟩
    · refine ⟨_, _, _, _, 0x12, .inr rfl, fun hp => ?_, by rw [h, hlaunch, hl]⟩
      have hsame : v.launch lk = u.launch lk := by rw [State.launch, State.launch, (hreadsClean (hclean hp)).2]
      rw [hsame, hlaunch, hl] at h
      exact absurd (congrArg Launch.error h) (show (0 : Nat) ≠ 0x12 by decide)

/-! ### The plan of a packet that passes its checks -/

/-- What a LAUNCH that passes its checks places (R374, R378). -/
theorem launchPlan_places {s : State} {o : Nat} {b : List Byte} {r : Named} {ids : List (Option Nat)}
    (hok : launchFieldsOk s o b = true) (hr : readNamed s o (pkWord b 16) (pkWord b 56) = some r)
    (hids : launchIdList s o b r (pkField b 38 2 * pkField b 40 2 * pkField b 42 2) = some ids)
    (hentry : pkField b 36 2 < r.entries) :
    ∃ reads, launchPlan s o b = { reads := reads, named := r, places := ids.zipIdx.map fun p =>
      { k := p.2, fixed := p.1, i7 := BitVec.ofNat 64 (pkField b 38 2), i8 := BitVec.ofNat 64 (pkField b 40 2)
        i9 := BitVec.ofNat 64 (pkField b 42 2)
        pc := BitVec.ofNat 64 (natOfBytes (engineRead s o (r.entryTable + BitVec.ofNat 64 (8 * pkField b 36 2)) 8)) } } := by
  unfold launchPlan
  simp only [hok, hr, hids, if_neg (Nat.not_le.mpr hentry), Bool.not_true, Bool.false_eq_true, if_false]
  exact ⟨_, rfl⟩

/-- What an ACTORS packet that passes its checks places and binds (R379, R380). -/
theorem actorsPlan_places {s : State} {o : Nat} {b : List Byte} {r : Named}
    (hsig : pkField b 16 8 % 64 = 0) (hopt : pkField b 56 8 % 64 = 0) (hzero : zeroAt b 37 11 = true)
    (hlow : 1 ≤ pkField b 36 1) (hhigh : pkField b 36 1 ≤ 64) (hr : readNamed s o (pkWord b 16) (pkWord b 56) = some r)
    (hactors : r.actors ≠ 0) (hagent : agentOk s o (pkWord b 48) (8 * pkField b 36 1) = true)
    (hbind : bindingsOk s o (pkField b 36 1) (bindings s o (pkWord b 48) (pkField b 36 1)) = true) :
    ∃ reads, actorsPlan s o b = { reads := reads, named := r, bound := bindings s o (pkWord b 48) (pkField b 36 1)
                                  places := (bindings s o (pkWord b 48) (pkField b 36 1)).flatMap (stagePlaces s o (pkField b 36 1) r) } := by
  have hfields : ¬ (pkField b 16 8 % 64 ≠ 0 ∨ pkField b 56 8 % 64 ≠ 0 ∨ pkField b 36 1 = 0 ∨ 64 < pkField b 36 1 ∨ !zeroAt b 37 11) := by
    rw [hzero]
    simp only [Bool.not_true, Bool.false_eq_true, or_false]
    omega
  have htable : ¬ (r.actors = 0 ∨ !agentOk s o (pkWord b 48) (8 * pkField b 36 1)) := by
    rw [hagent]
    simpa using hactors
  unfold actorsPlan
  simp only [if_neg hfields, hr, if_neg htable, hbind, Bool.not_true, Bool.false_eq_true, if_false]
  exact ⟨_, rfl⟩

/-- A packet whose plan has no error enters its launch in the table. -/
theorem startPlan_tables {s : State} {id : Nat} {b : List Byte} {p : Plan} {actors : Bool} {f : State × Nat → State} (h : p.err = 0) :
    startPlan s id b p actors f = f (tableLaunch s id b p actors) := by
  unfold startPlan
  rw [h, if_neg (by decide), if_neg (not_not.mpr rfl)]

/-- A packet of its type with a sound header starts. -/
theorem startPacket_sound {s : State} {id type : Nat} (f : State → List Byte → State) (hnow : startsNow s id = true)
    (htype : headType s id = type) (hkind : type ≤ 5) (hok : headerOk (headPacket s (s.inlet id)) = true) :
    startPacket id type s f = f s (headPacket s (s.inlet id)) := by
  unfold startPacket
  dsimp only
  have hgo : ¬ ((!true) = true ∨ if type = 1 then ¬(type = 1 ∨ 5 < type) else type ≠ type) := by
    split
    · simp_all
    · simp
  rw [hnow, hok, htype, if_neg hgo]
  refine if_neg ?_
  simpa using hkind

/-! ### The channels of the stages -/

/-- A list that loses nothing when its repetitions are dropped has none. -/
theorem nodup_of_eraseDups {n : Nat} : ∀ {l : List Nat}, l.length ≤ n →
    l.eraseDups.length ≤ l.length ∧ (l.eraseDups.length = l.length → l.Nodup) := by
  induction n with
  | zero =>
    intro l h
    rw [List.length_eq_zero_iff.mp (Nat.le_zero.mp h)]
    exact ⟨Nat.le_refl _, fun _ => List.nodup_nil⟩
  | succ n ih =>
    intro l h
    cases l with
    | nil => exact ⟨Nat.le_refl _, fun _ => List.nodup_nil⟩
    | cons a l =>
      have hlen := List.length_filter_le (fun b => !b == a) l
      obtain ⟨hle, -⟩ := ih (l := l.filter fun b => !b == a) (by rw [List.length_cons] at h; omega)
      rw [List.eraseDups_cons, List.length_cons, List.length_cons]
      refine ⟨by omega, fun heq => ?_⟩
      have hall := List.length_filter_eq_length_iff.mp (show (l.filter fun b => !b == a).length = l.length by omega)
      have hself : (l.filter fun b => !b == a) = l := List.filter_eq_self.mpr hall
      obtain ⟨-, hnodup⟩ := ih (l := l) (by rw [List.length_cons] at h; omega)
      refine List.nodup_cons.mpr ⟨fun ha => ?_, hnodup (by rw [hself] at heq; omega)⟩
      simpa using hall a ha

/-- A core has the channels of a stage of `n` (R380 step 2). -/
def StageBound (n : Nat) (x : Binding) (c : Core) : Prop :=
  c.credits = x.allow ∧ (c.inb.isSome ↔ x.stage ≠ 0) ∧ (c.outb.isSome ↔ x.stage + 1 ≠ n)

theorem bindStage_bound (n lk : Nat) (l : List Binding) (s : State) (o : Nat) (x : Binding) :
    StageBound n x ((bindStage n lk l s o x).core (bindingCore s o x)) := by
  unfold bindStage
  rw [State.core_mod]
  refine ⟨rfl, ?_, ?_⟩
  · by_cases h : x.stage = 0
    · simp [h]
    · simp [h]
  · by_cases h : x.stage + 1 = n
    · simp [h]
    · simp [h]

/-- Distinct cores are bound each to its stage. -/
theorem foldl_bindStage_bound (n lk : Nat) (l : List Binding) (o : Nat) (k : List Binding) : ∀ s : State,
    (k.map (bindingCore s o)).Nodup →
      (∀ c, c ∉ k.map (bindingCore s o) → (k.foldl (fun s x => bindStage n lk l s o x) s).core c = s.core c) ∧
      ∀ y ∈ k, StageBound n y ((k.foldl (fun s x => bindStage n lk l s o x) s).core (bindingCore s o y)) := by
  induction k with
  | nil => exact fun s _ => ⟨fun _ _ => rfl, fun y h => nomatch h⟩
  | cons x k ih =>
    intro s hn
    obtain ⟨hx, hk⟩ := List.nodup_cons.mp hn
    have hcores : bindingCore (bindStage n lk l s o x) o = bindingCore s o := rfl
    obtain ⟨hother, hall⟩ := ih (bindStage n lk l s o x) hk
    rw [hcores] at hother hall
    refine ⟨fun c hc => ?_, fun y hy => ?_⟩
    · obtain ⟨hcx, hck⟩ := not_or.mp (mt List.mem_cons.mpr hc)
      exact (hother c hck).trans (State.core_mod_other s _ c _ hcx)
    · rcases List.mem_cons.mp hy with rfl | hy
      · rw [List.foldl_cons, hother _ hx]
        exact bindStage_bound n lk l s o y
      · exact hall y hy

theorem foldl_bindStage_cores (n lk : Nat) (l : List Binding) (o : Nat) (k : List Binding) : ∀ s : State,
    ∃ x, k.foldl (fun s x => bindStage n lk l s o x) s = { s with cores := x } := by
  induction k with
  | nil => exact fun s => ⟨_, rfl⟩
  | cons y k ih =>
    intro s
    obtain ⟨x, h⟩ := ih (bindStage n lk l s o y)
    exact ⟨x, h⟩

theorem bindingCore_stands {s u : State} (h : BerthsStand s u) (o : Nat) : bindingCore u o = bindingCore s o := by
  funext x
  rw [bindingCore, bindingCore, ownerTile, ownerTile, h o]

theorem bindings_nodup {s : State} {o n : Nat} {a : Word} (h : bindingsOk s o n (bindings s o a n) = true) :
    ((bindings s o a n).map (bindingCore s o)).Nodup := by
  have hlen : ((bindings s o a n).map (bindingCore s o)).length = n := by simp [bindings]
  refine (nodup_of_eraseDups (Nat.le_refl _)).2 ?_
  rw [hlen]
  unfold bindingsOk at h
  rw [Bool.and_eq_true] at h
  exact eq_of_beq h.2

/-! ### The starts -/

theorem exec_launch_starts {s : State} {id : Nat} {r : Named} {ids : List (Option Nat)} (hnow : startsNow s id = true)
    (htype : headType s id = 1) (hok : headerOk (headPacket s (s.inlet id)) = true)
    (hfields : launchFieldsOk s (s.inlet id).owner (headPacket s (s.inlet id)) = true)
    (hr : readNamed s (s.inlet id).owner (pkWord (headPacket s (s.inlet id)) 16) (pkWord (headPacket s (s.inlet id)) 56) = some r)
    (hids : launchIdList s (s.inlet id).owner (headPacket s (s.inlet id)) r (pkField (headPacket s (s.inlet id)) 38 2 *
      pkField (headPacket s (s.inlet id)) 40 2 * pkField (headPacket s (s.inlet id)) 42 2) = some ids)
    (hentry : pkField (headPacket s (s.inlet id)) 36 2 < r.entries) :
    exec (.launch id) s = .next (tableLaunch s id (headPacket s (s.inlet id))
      (launchPlan s (s.inlet id).owner (headPacket s (s.inlet id))) false).1 := by
  refine congrArg Host.Outcome.next ((startPacket_sound _ hnow htype (by decide) hok).trans ?_)
  obtain ⟨reads, hplan⟩ := launchPlan_places hfields hr hids hentry
  exact startPlan_tables (by rw [hplan])

theorem exec_actors_starts {s : State} {id : Nat} (hnow : startsNow s id = true)
    (htype : headType s id = 2) (hok : headerOk (headPacket s (s.inlet id)) = true)
    (herr : (actorsPlan s (s.inlet id).owner (headPacket s (s.inlet id))).err = 0) :
    exec (.actors id) s = .next ((actorsPlan s (s.inlet id).owner (headPacket s (s.inlet id))).bound.foldl
      (fun u x => bindStage (pkField (headPacket s (s.inlet id)) 36 1)
        (launchKey (s.inlet id).owner (nextLaunchId (s.owner (s.inlet id).owner)))
        (actorsPlan s (s.inlet id).owner (headPacket s (s.inlet id))).bound u (s.inlet id).owner x)
      (tableLaunch s id (headPacket s (s.inlet id)) (actorsPlan s (s.inlet id).owner (headPacket s (s.inlet id))) true).1) := by
  refine congrArg Host.Outcome.next ((startPacket_sound _ hnow htype (by decide) hok).trans ?_)
  unfold startActors
  exact startPlan_tables herr

/-- Settles O46: a packet that passes its checks has a plan without an error, whose launch is tabled with the packet's fields and
the named object's, and the stages of an ACTORS packet are bound on distinct cores. -/
theorem launchesStart : Obligations.LaunchesStart := by
  intro s id r x o b lk pinned det enters hnow hok hr
  have henters : ∀ {u : State} {p : Plan} {actors : Bool}, Tabled s u id b p actors → p.named = r →
      enters u (u.launch lk) ∧ (u.launch lk).actors = actors ∧ (u.launch lk).places = p.places := by
    intro u p actors ht hp
    obtain ⟨n, v, e, t, c, hc, hclean, hl⟩ := ht.launch
    have hl : u.launch lk = { launchOf s id b p actors n v e t with error := c } := hl
    rw [hl]
    refine ⟨⟨ht.last, rfl, rfl, rfl, rfl, ?_, ?_, ?_, rfl, rfl, rfl, congrArg Named.seed hp, congrArg Named.region hp,
      congrArg Named.e hp, congrArg Named.j hp, congrArg Named.p hp, congrArg Named.floe hp, rfl, rfl, hc, hclean, ht.live⟩, rfl, rfl⟩
    · exact beq_iff_eq
    · simp only [launchOf, Bool.or_eq_true, decide_eq_true_eq]
      exact Iff.rfl
    · simp only [launchOf, Bool.and_eq_true, Bool.not_eq_true', Bool.or_eq_false_iff, beq_eq_false_iff_ne, decide_eq_false_iff_not]
      simp only [pinned, det, o, x, not_or, Bool.not_eq_true]
  refine ⟨fun htype hfields ids hids hentry => ?_, fun htype hsig hopt hzero hlow hhigh hactors hagent hbind => ?_⟩
  · obtain ⟨reads, hplan⟩ := launchPlan_places hfields hr hids hentry
    obtain ⟨hin, hkind, hplaces⟩ := henters (tableLaunch_tabled s id b (launchPlan s o b) false) (by rw [hplan])
    refine ⟨_, exec_launch_starts hnow htype hok hfields hr hids hentry, hin, hkind, ?_, fun p hp => ?_⟩
    · rw [hplaces, hplan]
      simp only [List.map_map]
      exact List.zipIdx_map_fst 0 ids
    · rw [hplaces, hplan] at hp
      obtain ⟨q, -, rfl⟩ := List.mem_map.mp hp
      exact ⟨rfl, rfl, rfl, rfl⟩
  · obtain ⟨reads, hplan⟩ := actorsPlan_places hsig hopt hzero hlow hhigh hr hactors hagent hbind
    have hexec := exec_actors_starts hnow htype hok (by rw [hplan])
    have ht := tableLaunch_tabled s id b (actorsPlan s o b) true
    rw [show (actorsPlan s o b).bound = bindings s o (pkWord b 48) (pkField b 36 1) by rw [hplan]] at hexec
    obtain ⟨-, hbound⟩ := foldl_bindStage_bound (pkField b 36 1) lk (bindings s o (pkWord b 48) (pkField b 36 1)) o
      (bindings s o (pkWord b 48) (pkField b 36 1)) (tableLaunch s id b (actorsPlan s o b) true).1
      (by rw [bindingCore_stands ht.berths]; exact bindings_nodup hbind)
    rw [bindingCore_stands ht.berths] at hbound
    obtain ⟨c, hc⟩ := foldl_bindStage_cores (pkField b 36 1) lk (bindings s o (pkWord b 48) (pkField b 36 1)) o
      (bindings s o (pkWord b 48) (pkField b 36 1)) (tableLaunch s id b (actorsPlan s o b) true).1
    refine ⟨_, hexec, ?_⟩
    have hkeep := ht.withCores c
    rw [← hc] at hkeep
    obtain ⟨hin, hkind, hplaces⟩ := henters hkeep (by rw [hplan])
    refine ⟨hin, hkind, ?_, hbound⟩
    exact hplaces.trans (by rw [hplan])

end Sys2Proof.Machine
end

section
/-! PROOFS. The instructions whose one effect is a result change their destination alone, where their step takes no trap
(spec/03 R44, spec/05 R84, R85, spec/17 R343, R345). -/

namespace Sys2Proof.Machine

open Sys2Proof.Claims

/-! ### What a step that traps not may change -/

/-- `t'` is `t` but for where it stands, and for general registers and pending results, whose values once these have landed are
the same outside the destination `d`. -/
structure OwnKept (d : Dst) (t t' : Thread) : Prop where
  rest : ∃ regs pend status pc line ready base turns l0 l1, t' = { t with
    regs := regs, pend := pend, status := status, pc := pc, line := line, ready := ready, base := base, turns := turns
    lev0 := l0, lev1 := l1 }
  vals : ∀ r, d ≠ .reg r → ((t'.landAll).reg r).val = ((t.landAll).reg r).val

/-- From `u` to `v` thread `g` has gone on in an instruction with destination `d`: of the module cores, operations on remote
registers and requests may differ, of threads `g`. -/
structure Kept (d : Dst) (u v : State) (g : Nat) : Prop where
  module : ∃ t c p f n, v = { u with threads := t, cores := c, rputs := p, traffic := f, nextId := n }
  others : ∀ j, j ≠ g → v.thread j = u.thread j
  own : OwnKept d (u.thread g) (v.thread g)

theorem OwnKept.refl (d : Dst) (t : Thread) : OwnKept d t t := ⟨⟨_, _, _, _, _, _, _, _, _, _, rfl⟩, fun _ _ => rfl⟩

theorem OwnKept.trans {d : Dst} {t t' t'' : Thread} (h : OwnKept d t t') (h' : OwnKept d t' t'') : OwnKept d t t'' := by
  refine ⟨?_, fun r hr => (h'.vals r hr).trans (h.vals r hr)⟩
  obtain ⟨_, _, _, _, _, _, _, _, _, _, rfl⟩ := h.rest
  obtain ⟨regs, pend, status, pc, line, ready, base, turns, l0, l1, rfl⟩ := h'.rest
  exact ⟨regs, pend, status, pc, line, ready, base, turns, l0, l1, rfl⟩

/-- A change of where the thread stands. -/
theorem OwnKept.place (d : Dst) (t : Thread) (status : Status) (pc : Word) (line : Option (BitVec 512)) (ready base turns : Nat)
    (l0 l1 : Level) : OwnKept d t { t with
      status := status, pc := pc, line := line, ready := ready, base := base, turns := turns, lev0 := l0, lev1 := l1 } :=
  ⟨⟨_, _, _, _, _, _, _, _, _, _, rfl⟩, fun _ _ => rfl⟩

theorem RegsMoved.kept {t t' : Thread} (h : RegsMoved t t') (d : Dst) : OwnKept d t t' := by
  refine ⟨?_, fun r _ => h.vals r⟩
  obtain ⟨regs, pend, rfl⟩ := h.rest
  exact ⟨regs, pend, _, _, _, _, _, _, _, _, rfl⟩

/-- A result on its way changes the value of its register alone. -/
theorem OwnKept.later (t : Thread) (x : Fin 32) (v : Word) (due : Nat) : OwnKept (.reg x) t (t.later x v due) := by
  refine ⟨⟨_, _, _, _, _, _, _, _, _, _, rfl⟩, fun r hr => ?_⟩
  have hx : x ≠ r := fun h => hr (by rw [h])
  rw [landAll_val, landAll_val]
  show landedVal r (t.pend ++ [_]) ((t.regs.set x _)[r]).val = _
  rw [landedVal_append, landedVal_cons, regs_set_val, if_neg hx, if_neg hx]
  rfl

namespace Kept

theorem refl (d : Dst) (s : State) (g : Nat) : Kept d s s g := ⟨⟨_, _, _, _, _, rfl⟩, fun _ _ => rfl, .refl d _⟩

theorem trans {d : Dst} {s u v : State} {g : Nat} (h : Kept d s u g) (h' : Kept d u v g) : Kept d s v g := by
  refine ⟨?_, fun j hj => (h'.others j hj).trans (h.others j hj), h.own.trans h'.own⟩
  obtain ⟨_, _, _, _, _, rfl⟩ := h.module
  obtain ⟨t, c, p, f, n, rfl⟩ := h'.module
  exact ⟨t, c, p, f, n, rfl⟩

theorem moved {s u : State} {g : Nat} (h : Moved s u g) (d : Dst) : Kept d s u g := by
  refine ⟨?_, h.others, h.own.kept d⟩
  obtain ⟨t, c, p, rfl⟩ := h.module
  exact ⟨t, c, p, _, _, rfl⟩

theorem setThread {d : Dst} {s : State} {g : Nat} {t : Thread} (h : OwnKept d (s.thread g) t) : Kept d s (s.setThread g t) g := by
  refine ⟨⟨_, _, _, _, _, rfl⟩, fun j hj => State.thread_set_other s g j t hj, ?_⟩
  rwa [State.thread_set]

theorem modThread {d : Dst} (s : State) (g : Nat) {f : Thread → Thread} (h : OwnKept d (s.thread g) (f (s.thread g))) :
    Kept d s (s.modThread g f) g := setThread h

theorem ofCores (d : Dst) (s : State) (g : Nat) (x : FMap Core) : Kept d s { s with cores := x } g := moved (.ofCores g ⟨x, rfl⟩) d

theorem requests (d : Dst) (s : State) (g : Nat) (f : List Req) (n : Nat) : Kept d s { s with traffic := f, nextId := n } g :=
  ⟨⟨_, _, _, _, _, rfl⟩, fun _ _ => rfl, .refl d _⟩

/-- A result is on its way to its destination. -/
theorem writeLater (s : State) (g : Nat) (d : Dst) (v : Word) (due : Nat) : Kept d s (writeLater s g d v due) g := by
  unfold Machine.writeLater
  split
  · exact refl _ s g
  · next r => exact modThread s g (.later _ r v due)
  · obtain ⟨x, h⟩ := queuePush_cases s (coreOf g) d { val := some v, due := due, g := g, serial := (s.thread g).serial, tag := 0 }
    rw [h]
    exact ofCores _ s g x

end Kept

/-- The traffic is as before but for one request that prepares the next instruction of thread `g`. -/
def Asks (s u : State) (g : Nat) : Prop := u.traffic = s.traffic ∨ ∃ r, u.traffic = s.traffic ++ [r] ∧ prefetch r = true ∧ r.g = g

/-- The thread has taken an owner trap. -/
def Trapped (u : State) (g : Nat) : Prop := (u.thread g).status = .halting ∨ (u.thread g).trapped ≠ none

/-- An instruction of thread `g` with destination `d` ends in a trap, or goes on. -/
def Ends (d : Dst) (s u : State) (g : Nat) : Prop := Trapped u g ∨ Kept d s u g ∧ Asks s u g

namespace Ends

theorem kept {d : Dst} {s u : State} {g : Nat} (h : Kept d s u g) (ht : u.traffic = s.traffic) : Ends d s u g := .inr ⟨h, .inl ht⟩

theorem after {d : Dst} {s u v : State} {g : Nat} (h : Kept d s u g) (ht : u.traffic = s.traffic) (h' : Ends d u v g) : Ends d s v g := by
  rcases h' with h' | ⟨h', ha⟩
  · exact .inl h'
  · refine .inr ⟨h.trans h', ?_⟩
    unfold Asks at ha ⊢
    rwa [ht] at ha

end Ends

/-! ### Traps and waits -/

/-- An owner trap that is taken holds or ends its thread (R345). -/
theorem captureOwner_trapped (s : State) (g cause sub : Nat) (info resume : Word) : Trapped (captureOwner s g cause sub info resume) g := by
  unfold Trapped
  cases hf : trapFatal cause with
  | false =>
    rw [captureOwner_replayable s g sub info resume hf, (vacate_parties _ g true g).1, State.thread_set]
    exact .inr (Option.some_ne_none _)
  | true =>
    rw [captureOwner_fatal s g sub info resume hf]
    dsimp only
    rw [(vacate_parties _ g true g).1, State.thread_set]
    exact .inl rfl

/-- A thread that parks, and not on its port, sends a request at most. -/
theorem parkThread_ends (d : Dst) (s : State) (g : Nat) {w : Wait} (hw : ∀ a n, w ≠ .port a n) : Ends d s (parkThread s g w) g := by
  have hpark : Kept d s (s.modThread g fun t => { t with status := .parked w }) g := .modThread s g (.place d _ _ _ _ _ _ _ _ _)
  refine .after hpark rfl ?_
  have hsend : ∀ (u : State) (r : Req), r.g = g → prefetch r = true → Ends d u (send u r) g := fun u r hg hr =>
    .inr ⟨.requests d u g _ _, .inr ⟨_, rfl, hr, hg⟩⟩
  unfold parkThread
  dsimp only
  split
  · unfold sendFetch
    dsimp only
    split
    · exact hsend _ _ rfl rfl
    · exact .kept (.refl d _ g) rfl
  · split
    · exact hsend _ _ rfl rfl
    · exact .kept (.refl d _ g) rfl
  · next a n => exact absurd rfl (hw a n)
  · exact .kept (.refl d _ g) rfl

theorem ownerTrap_ends (d : Dst) (s : State) (g cause sub : Nat) (info resume : Word) :
    Ends d s (ownerTrap s g cause sub info resume) g := by
  unfold ownerTrap
  split
  · exact .inl (captureOwner_trapped s g cause sub info resume)
  · exact parkThread_ends d s g nofun

/-! ### The next line -/

theorem Kept.leaveLine (d : Dst) (s : State) (g : Nat) : Kept d s (s.setThread g { s.thread g with line := none }) g :=
  .setThread (.place d _ _ _ _ _ _ _ _ _)

theorem enterLine_ends (d : Dst) (s : State) (g : Nat) (ln : BitVec 512) : Ends d s (enterLine s g ln) g := by
  have hset : Kept d s (s.setThread g { s.thread g with line := some ln, status := .ready }) g :=
    .setThread (.place d _ _ _ _ _ _ _ _ _)
  unfold enterLine
  dsimp only
  split
  · exact .kept hset rfl
  · exact .after (.leaveLine d s g) rfl (ownerTrap_ends d _ g 2 0 0 _)

theorem enter_ends (d : Dst) (s : State) (g : Nat) : Ends d s (enter s g) g := by
  have hleave : ∀ {v : State}, Ends d (s.setThread g { s.thread g with line := none }) v g → Ends d s v g := fun h =>
    .after (.leaveLine d s g) rfl h
  unfold enter
  dsimp only
  split
  · exact hleave (ownerTrap_ends d _ g _ _ _ _)
  · split
    · exact enterLine_ends d s g _
    · split
      · exact hleave (parkThread_ends d _ g nofun)
      · exact hleave (parkThread_ends d _ g nofun)
      · exact hleave (ownerTrap_ends d _ g _ _ _ _)

theorem transferTo_ends (d : Dst) (s : State) (g : Nat) (pc : Word) : Ends d s (transferTo s g pc) g := by
  have hset : Kept d s (s.setThread g { s.thread g with pc := pc, line := none }) g := .setThread (.place d _ _ _ _ _ _ _ _ _)
  unfold transferTo
  dsimp only
  split
  · exact .kept hset rfl
  · exact .after hset rfl (enter_ends d _ g)

theorem goTo_ends (d : Dst) (s : State) (g : Nat) (pc : Word) : Ends d s (goTo s g pc) g := by
  have hset : Kept d s (s.setThread g { s.thread g with pc := pc }) g := .setThread (.place d _ _ _ _ _ _ _ _ _)
  unfold goTo
  dsimp only
  split
  · split
    · exact .kept hset rfl
    · exact transferTo_ends d s g pc
  · exact transferTo_ends d s g pc

/-- The loop levels go on (R84). -/
theorem evalLoops_kept (d : Dst) (t : Thread) (p next : Word) : OwnKept d t (evalLoops t p next).1 := by
  unfold evalLoops
  split
  · exact .refl d t
  · split
    · dsimp only
      split
      · exact .place d _ _ _ _ _ _ _ _ _
      · exact .place d _ _ _ _ _ _ _ _ _
    · dsimp only
      split
      · exact .place d _ _ _ _ _ _ _ _ _
      · exact .place d _ _ _ _ _ _ _ _ _

theorem retire_ends (d : Dst) (s : State) (g c : Nat) (st : Stall) : Ends d s (retire s g c st false none) g := by
  unfold retire
  dsimp only
  refine .after (.setThread ((OwnKept.place d (s.thread g) .ready _ _ _ _ _ _ _).trans (evalLoops_kept d _ _ _))) rfl (goTo_ends d _ g _)

/-! ### Stops -/

/-- A stop that is no wait for the thread's port. -/
def Stop.plain : Stop → Prop
  | .park (.port _ _) => False
  | _ => True

/-- A local trap that is taken is an owner trap, or the thread is in its handler (R343). -/
theorem takeLocal_ends (d : Dst) (s : State) (g c cause sub : Nat) (info : Word) (atSucc pair : Bool) :
    Ends d s (takeLocal s g c cause sub info atSucc pair) g ∨
      (s.thread g).inh = false ∧ (Trapped (takeLocal s g c cause sub info atSucc pair) g ∨
        ((takeLocal s g c cause sub info atSucc pair).thread g).inh = true) := by
  unfold takeLocal
  split
  · unfold captureLocal
    dsimp only
    split
    · exact .inl (.inl (captureOwner_trapped _ _ _ _ _ _))
    · next hinh =>
      split
      · exact .inl (.inl (captureOwner_trapped _ _ _ _ _ _))
      · refine .inr ⟨eq_false_of_ne_true hinh, ?_⟩
        generalize hv : State.setThread _ g _ = v
        have hin : (v.thread g).inh = true := by
          rw [← hv, State.thread_set]
        rcases transferTo_ends .none v g (s.thread g).handler with h | ⟨h, -⟩
        · exact .inl h
        · obtain ⟨_, _, _, _, _, _, _, _, _, _, hown⟩ := h.own.rest
          refine .inr ((congrArg Thread.inh hown).trans hin)
  · exact .inl (parkThread_ends d s g nofun)

/-- A stop ends in a trap, or leaves what the thread has. -/
theorem applyStop_ends (d : Dst) (s : State) (g c : Nat) {e : Stop} (h : e.plain) :
    Ends d s (applyStop s g c false e) g ∨
      (s.thread g).inh = false ∧ (Trapped (applyStop s g c false e) g ∨ ((applyStop s g c false e).thread g).inh = true) := by
  cases e with
  | owner cause sub info => exact .inl (ownerTrap_ends d s g _ _ _ _)
  | localTrap cause sub info => exact takeLocal_ends d s g c _ _ _ _ _
  | park w =>
    refine .inl (parkThread_ends d s g fun a n hw => ?_)
    rw [hw] at h
    exact h
  | forfeit =>
    have hset : Kept d s (forfeit s g c) g := .modThread s g (.place d _ _ _ _ _ _ _ _ _)
    exact .inl (.kept hset rfl)

/-! ### Stops at operands -/

theorem srcField_stop {s : State} {g : Nat} {n : RegNum} {e : Stop} (h : srcField s g n = .error e) : e.plain := by
  have hbad : e = illegalOperand n → e.plain := by
    rintro rfl
    trivial
  refine hbad ?_
  unfold srcField at h
  grind

theorem dstField_stop {s : State} {g : Nat} {n : RegNum} {e : Stop} (h : dstField s g n = .error e) : e.plain := by
  have hbad : e = illegalOperand n → e.plain := by
    rintro rfl
    trivial
  refine hbad ?_
  unfold dstField at h
  grind

theorem srcFields_stop {s : State} {g : Nat} {l : List RegNum} {e : Stop} (h : srcFields s g l = .error e) : e.plain := by
  induction l with
  | nil => cases h
  | cons n l ih =>
    rw [srcFields] at h
    cases hn : srcField s g n with
    | error e' =>
      obtain rfl : e' = e := by simpa [hn, bind, Except.bind] using h
      exact srcField_stop hn
    | ok x =>
      cases hl : srcFields s g l with
      | error e' =>
        obtain rfl : e' = e := by simpa [hn, hl, bind, Except.bind] using h
        exact ih hl
      | ok r => simp [hn, hl, bind, Except.bind, pure, Except.pure] at h

theorem dstFields_stop {s : State} {g : Nat} {l : List RegNum} {e : Stop} (h : dstFields s g l = .error e) : e.plain := by
  induction l with
  | nil => cases h
  | cons n l ih =>
    rw [dstFields] at h
    cases hn : dstField s g n with
    | error e' =>
      obtain rfl : e' = e := by simpa [hn, bind, Except.bind] using h
      exact dstField_stop hn
    | ok x =>
      cases hl : dstFields s g l with
      | error e' =>
        obtain rfl : e' = e := by simpa [hn, hl, bind, Except.bind] using h
        exact ih hl
      | ok r => simp [hn, hl, bind, Except.bind, pure, Except.pure] at h

theorem require_stop {s : State} {g : Nat} {l : List Need} {e : Stop} (h : require s g l = .error e) : e.plain := by
  unfold require at h
  split at h
  · cases h
  · cases h
    trivial

theorem scoreboard_stop {t : Thread} {l : List (RegNum × Src)} {e : Stop} (h : scoreboard t l = .error e) : e.plain := by
  induction l with
  | nil => cases h
  | cons p l ih =>
    obtain ⟨n, x⟩ := p
    cases x with
    | reg r =>
      rw [scoreboard] at h
      split at h
      · cases h
        trivial
      · exact ih h
    | zero => exact ih h
    | queue q => exact ih h
    | ident k => exact ih h

theorem operands_stop {s : State} {g : Nat} {srcs dsts : List RegNum} {e : Stop} (h : operands s g srcs dsts = .error e) : e.plain := by
  unfold operands at h
  cases hs : srcFields s g srcs with
  | error e' =>
    obtain rfl : e' = e := by simpa [hs, bind, Except.bind] using h
    exact srcFields_stop hs
  | ok ss =>
    cases hd : dstFields s g dsts with
    | error e' =>
      obtain rfl : e' = e := by simpa [hs, hd, bind, Except.bind] using h
      exact dstFields_stop hd
    | ok ds =>
      cases hr : require s g (fieldNeeds ss ds) with
      | error e' =>
        obtain rfl : e' = e := by simpa [hs, hd, hr, bind, Except.bind] using h
        exact require_stop hr
      | ok _ =>
        cases hb : scoreboard (s.thread g) (srcs.zip ss) with
        | error e' =>
          obtain rfl : e' = e := by simpa [hs, hd, hr, hb, bind, Except.bind] using h
          exact scoreboard_stop hb
        | ok _ => simp [hs, hd, hr, hb, bind, Except.bind, pure, Except.pure] at h

theorem operandsRmw_stop {s : State} {g : Nat} {srcs : List RegNum} {d : RegNum} {e : Stop}
    (h : operandsRmw s g srcs d = .error e) : e.plain := by
  unfold operandsRmw at h
  cases hs : srcFields s g srcs with
  | error e' =>
    obtain rfl : e' = e := by simpa [hs, bind, Except.bind] using h
    exact srcFields_stop hs
  | ok ss =>
    by_cases hd : 32 ≤ d.toNat
    · obtain rfl : illegalOperand d = e := by simpa [hs, hd, bind, Except.bind, throw, throwThe, MonadExceptOf.throw] using h
      trivial
    · exact operands_stop (by simpa [hs, hd, bind, Except.bind] using h)

theorem queueCount_stop {s : State} {g : Nat} {a : RegNum} {e : Stop} (h : queueCount s g a = .error e) : e.plain := by
  unfold queueCount at h
  dsimp only at h
  split at h
  · split at h
    · cases hx : srcField s g a with
      | error e' =>
        obtain rfl : e' = e := by simpa [hx, bind, Except.bind] using h
        exact srcField_stop hx
      | ok x => simp [hx, bind, Except.bind, pure, Except.pure] at h
    · cases hx : dstField s g a with
      | error e' =>
        obtain rfl : e' = e := by simpa [hx, bind, Except.bind] using h
        exact dstField_stop hx
      | ok x => simp [hx, bind, Except.bind, pure, Except.pure] at h
  · cases h
    trivial

/-! ### An instruction with one result -/

/-- What an instruction with destination `d` answers: a stop, or its sources read, its result on the way, and its end. -/
def OneResult (v : State) (g c : Nat) (d : RegNum) (x : Except Stop State) : Prop :=
  (∃ e : Stop, x = .error e ∧ e.plain) ∨
    ∃ ss dd val due st, dstField v g d = .ok dd ∧ x = .ok (retire (writeLater (consume v g ss) g dd val due) g c st false none)

theorem dstFields_one {s : State} {g : Nat} {d : RegNum} {l : List Dst} (h : dstFields s g [d] = .ok l) :
    dstField s g d = .ok (l.getD 0 .none) := by
  rw [dstFields] at h
  cases hd : dstField s g d with
  | error e => simp [hd, bind, Except.bind] at h
  | ok x =>
    simp only [hd, dstFields, bind, Except.bind, pure, Except.pure, Except.ok.injEq] at h
    rw [← h]
    rfl

section

variable {v : State} {g c : Nat} {d : RegNum} {st : Stall}

/-- A result that depends on its operands. -/
theorem operands_oneResult {srcs : List RegNum} {f : Opnds → Except Stop State}
    (hf : ∀ o, operands v g srcs [d] = .ok o → OneResult v g c d (f o)) :
    OneResult v g c d (operands v g srcs [d] >>= f) := by
  cases ho : operands v g srcs [d] with
  | error e => exact .inl ⟨e, rfl, operands_stop ho⟩
  | ok o => exact hf o ho

theorem retire_oneResult {srcs : List RegNum} {o : Opnds} (ho : operands v g srcs [d] = .ok o) (val : Word) (due : Nat) :
    OneResult v g c d (.ok (retire (writeLater (consume v g o.srcs) g (o.d 0) val due) g c st false none)) := by
  obtain ⟨-, hd, -⟩ := operands_ok ho
  exact .inr ⟨_, _, _, _, _, dstFields_one hd, rfl⟩

theorem compute_oneResult {lat : Nat} {srcs : List RegNum} {f : List Word → Except Stop Word}
    (hf : ∀ l e, f l = .error e → e.plain) : OneResult v g c d (compute v g c st lat srcs d f) := by
  unfold compute
  refine operands_oneResult fun o ho => ?_
  cases hv : f o.vals with
  | error e => exact .inl ⟨e, rfl, hf _ e hv⟩
  | ok x => exact retire_oneResult ho x _

/-- A result that is a function of its sources. -/
theorem value_oneResult {lat : Nat} {srcs : List RegNum} (f : List Word → Word) :
    OneResult v g c d (compute v g c st lat srcs d fun l => .ok (f l)) := compute_oneResult fun _ _ h => nomatch h

theorem divide_oneResult {lat : Nat} {srcs : List RegNum} {w : Bool} {f : Word → Word → Word} {f32 : BitVec 32 → BitVec 32 → BitVec 32} :
    OneResult v g c d (compute v g c st lat srcs d (divide v g w f f32)) := by
  refine compute_oneResult fun l e h => ?_
  unfold divide at h
  split at h
  · cases h
    trivial
  · cases h

theorem rmw_oneResult {srcs : List RegNum} (due : Nat) (f : Opnds → Word) :
    OneResult v g c d (operandsRmw v g srcs d >>= fun o =>
      .ok (retire (writeLater (consume v g o.srcs) g (o.d 0) (f o) due) g c st false none)) := by
  cases ho : operandsRmw v g srcs d with
  | error e => exact .inl ⟨e, rfl, operandsRmw_stop ho⟩
  | ok o =>
    have ho' : operands v g (srcs ++ [d]) [d] = .ok o := by
      unfold operandsRmw at ho
      cases hs : srcFields v g srcs with
      | error e => simp [hs, bind, Except.bind] at ho
      | ok ss =>
        by_cases hd : 32 ≤ d.toNat
        · simp [hs, hd, bind, Except.bind, throw, throwThe, MonadExceptOf.throw] at ho
        · simpa [hs, hd, bind, Except.bind] using ho
    exact retire_oneResult ho' (f o) due

theorem queue_oneResult {a : RegNum} {lat : Nat} (f : Nat → Word) :
    OneResult v g c d (queueCount v g a >>= fun n => compute v g c st lat [] d fun _ => .ok (f n)) := by
  cases hn : queueCount v g a with
  | error e => exact .inl ⟨e, rfl, queueCount_stop hn⟩
  | ok n => exact value_oneResult (lat := lat) (srcs := []) fun _ => f n

/-- An address without an access, once what it waits for is there. -/
theorem address_oneResult {srcs : List RegNum} {needs : List Need} (due : Nat) (f : Opnds → Word) :
    OneResult v g c d (do
      let o ← operands v g srcs [d]
      require v g needs
      return retire (writeLater (consume v g o.srcs) g (o.d 0) (f o) due) g c st false none) := by
  refine operands_oneResult fun o ho => ?_
  cases hr : require v g needs with
  | error e => exact .inl ⟨e, rfl, require_stop hr⟩
  | ok _ => exact retire_oneResult ho (f o) due

/-- A system register, where there is one (R349). -/
theorem sysReg_oneResult {lat : Nat} (k : Nat) :
    OneResult v g c d (match sysReg (v.thread g) k with
      | none => .error (illegalIndex k)
      | some x => compute v g c st lat [] d fun _ => .ok x) := by
  split
  · exact .inl ⟨_, rfl, trivial⟩
  · exact value_oneResult (lat := lat) (srcs := []) fun _ => _

end

/-! ### Its frame -/

theorem writeLater_traffic (s : State) (g : Nat) (d : Dst) (v : Word) (due : Nat) : (writeLater s g d v due).traffic = s.traffic := by
  unfold writeLater
  split
  · rfl
  · rfl
  · obtain ⟨x, h⟩ := queuePush_cases s (coreOf g) d { val := some v, due := due, g := g, serial := (s.thread g).serial, tag := 0 }
    rw [h]

theorem dataErrors_thread_other (s : State) (w : Who) (k : Nat) {j : Nat} (h : j ≠ w.g) : (dataErrors s w k).thread j = s.thread j := by
  induction k with
  | zero => rfl
  | succ k ih => rw [dataErrors_succ, dataError_thread_other _ _ h, ih]

theorem landed_thread (s : State) : (landed s).thread s.cur = (s.thread s.cur).land (clockOf s) := State.thread_mod _ _ _

theorem landed_dstField (s : State) (d : RegNum) : dstField (landed s) s.cur d = dstField s s.cur d := by
  unfold dstField
  rw [landed_thread]
  rfl

/-- What the statement says of an instruction with destination `d`. -/
def ResultOnly (s u : State) (d : RegNum) : Prop :=
  (∃ k, ((∀ r, ((s.thread s.cur).reg r).bad = false) → k = 0) ∧
    SameModule (dataErrors s (whoIn s s.cur) k) u ∧
      SameRest ((dataErrors s (whoIn s s.cur) k).thread s.cur) (u.thread s.cur)) ∧
  (u.traffic = s.traffic ∨ ∃ r, u.traffic = s.traffic ++ [r] ∧ prefetch r = true ∧ r.g = s.cur) ∧
  (u.thread s.cur).k1 = (s.thread s.cur).k1 ∧ (u.thread s.cur).k2 = (s.thread s.cur).k2 ∧
  (u.thread s.cur).k3 = (s.thread s.cur).k3 ∧
  (∀ r, dstField s s.cur d ≠ .ok (.reg r) → regVal u s.cur r = regVal s s.cur r) ∧
  ∀ g, g ≠ s.cur → u.thread g = s.thread g

/-- A step that keeps all but the destination once data errors are counted. -/
theorem resultOnly_of_kept {s u : State} {d : RegNum} {dd : Dst} {k : Nat}
    (hk : (∀ r, ((s.thread s.cur).reg r).bad = false) → k = 0)
    (hd : ∀ r, dstField s s.cur d ≠ .ok (.reg r) → dd ≠ .reg r)
    (h : Kept dd (dataErrors s (whoIn s s.cur) k) u s.cur) (ha : Asks (dataErrors s (whoIn s s.cur) k) u s.cur) : ResultOnly s u d := by
  obtain ⟨_, _, _, hcase⟩ := dataErrors_cases s (whoIn s s.cur) k
  have htraffic : (dataErrors s (whoIn s s.cur) k).traffic = s.traffic := by rw [hcase]
  obtain ⟨n, hn⟩ := dataErrors_thread s (whoIn s s.cur) k
  have hn : (dataErrors s (whoIn s s.cur) k).thread s.cur = { s.thread s.cur with data := n } := hn
  obtain ⟨hmodule, hothers, hrest, hvals⟩ := h
  obtain ⟨_, _, _, _, _, _, _, _, _, _, hown⟩ := hrest
  refine ⟨⟨k, hk, ?_, ?_⟩, ?_, ?_, ?_, ?_, fun r hr => ?_, fun g hg => ?_⟩
  · obtain ⟨_, _, _, _, _, hu⟩ := hmodule
    rw [hu]
    exact ⟨rfl, rfl, rfl, rfl, rfl, rfl, rfl, rfl, rfl, rfl, rfl, rfl, rfl, rfl, rfl, rfl, rfl, rfl⟩
  · rw [hown]
    exact ⟨rfl, rfl, rfl, rfl, rfl, rfl, rfl, rfl, rfl, rfl, rfl, rfl, rfl, rfl, rfl, rfl, rfl, rfl, rfl, rfl, rfl, rfl, rfl, rfl⟩
  · unfold Asks at ha
    rwa [htraffic] at ha
  · rw [hown, hn]
  · rw [hown, hn]
  · rw [hown, hn]
  · rw [regVal, hvals r (hd r hr), hn]
    rfl
  · rw [hothers g hg, dataErrors_thread_other s _ k hg]

/-- The turn passes: the core alone. -/
theorem stopTurn_cores (e : Stop) (s : State) (g c : Nat) : ∃ x, e.turn s g c = { s with cores := x } := by
  unfold Stop.turn
  split
  · exact ⟨_, rfl⟩
  · exact ⟨_, rfl⟩

theorem Ends.cores {d : Dst} {s u : State} {g : Nat} (h : Ends d s u g) (x : FMap Core) : Ends d s { u with cores := x } g := by
  rcases h with h | ⟨hk, ha⟩
  · exact .inl h
  · exact .inr ⟨hk.trans (.ofCores d u g x), ha⟩

theorem not_trapped {s u : State} (h : Untrapped s u) : ¬ Trapped u s.cur := by
  obtain ⟨hstatus, htrapped, -⟩ := h
  rintro (h | h)
  · exact hstatus h
  · exact h htrapped

theorem landed_ends {s u : State} {dd : Dst} (h : Ends dd (landed s) u s.cur) : Ends dd s u s.cur :=
  .after (.moved (landed_moved s) dd) rfl h

theorem oneResult_frame {s u : State} {d : RegNum} {f : State → Nat → Except Stop State}
    (hf : OneResult (landed s) s.cur (clockOf s) d (f (landed s) (clockOf s)))
    (hu : runInstr s s.cur false f = .next u) (ht : Untrapped s u) : ResultOnly s u d := by
  rcases hf with ⟨e, he, hplain⟩ | ⟨ss, dd, val, due, st, hdst, hok⟩
  · have hrun := runInstr_err (pair := false) he
    obtain rfl := Host.Outcome.next.inj (hu.symm.trans hrun)
    obtain ⟨x, hx⟩ := stopTurn_cores e (applyStop (landed s) s.cur (clockOf s) false e) s.cur (clockOf s)
    rw [hx] at ht ⊢
    rcases applyStop_ends .none (landed s) s.cur (clockOf s) hplain with h | ⟨hinh, h | h⟩
    · rcases landed_ends (h.cores x) with h | ⟨hk, ha⟩
      · exact absurd h (not_trapped ht)
      · exact resultOnly_of_kept (k := 0) (dd := .none) (fun _ => rfl) (fun _ _ => nofun) hk ha
    · exact absurd h (not_trapped ht)
    · rw [landed_thread] at hinh
      obtain ⟨-, -, hsame⟩ := ht
      exact absurd (h.symm.trans (hsame.trans hinh)) (by decide)
  · have hrun := runInstr_ok (pair := false) hok
    obtain rfl := Host.Outcome.next.inj (hu.symm.trans hrun)
    obtain ⟨k, hreads⟩ := (Reads.of_moved (landed_moved s)).consume ss
    have htraffic : (consume (landed s) s.cur ss).traffic = (dataErrors s (whoIn s s.cur) k).traffic := by
      obtain ⟨_, _, _, h⟩ := hreads.moved.module
      rw [h]
    have hend := retire_ends dd (writeLater (consume (landed s) s.cur ss) s.cur dd val due) s.cur (clockOf s) st
    have hall : Ends dd (dataErrors s (whoIn s s.cur) k) _ s.cur :=
      .after ((Kept.moved hreads.moved dd).trans (.writeLater _ s.cur dd val due)) ((writeLater_traffic _ _ _ _ _).trans htraffic) hend
    rcases hall.cores _ with h | ⟨hk, ha⟩
    · exact absurd h (not_trapped ht)
    · refine resultOnly_of_kept hreads.none (fun r hr hdd => hr ?_) hk ha
      rw [← landed_dstField, hdst, hdd]

/-- An instruction whose one effect is a result reads its sources and has its result on the way, or stops. -/
theorem resultOf_oneResult {i : Instr} {d : RegNum} (h : resultOf i = some d) (s : State) :
    ∃ f, exec i s = runInstr s s.cur false f ∧ OneResult (landed s) s.cur (clockOf s) d (f (landed s) (clockOf s)) := by
  cases i with
  | add | sub | addiC | addiD | mul | mulh | mulhu | mad | and | or | xor | andn | shl | shr | sar | rol | min | max | minu | maxu
  | set | sel | bcnt | bext | liC | liD | mov | ext | abs | getrb | ldpc | tbr | sget | bfget | bufget | cwp | chbind | mstat
  | tcount | pcnt | dstate | ecnt =>
    cases h
    dsimp only [exec, execAdd, execSub, execAddiC, execAddiD, execMul, execMulh, execMulhu, execMad, execAnd, execOr, execXor,
      execAndn, execShl, execShr, execSar, execRol, execMin, execMax, execMinu, execMaxu, execSet, execSel, execBcnt,
      execBext, execLiC, execLiD, execMov, execExt, execAbs, execGetrb, execLdpc, execTbr, execSget, execBfget, execBufget,
      execCwp, execChbind, execMstat, execTcount, execPcnt, execDstate, execEcnt]
    exact ⟨_, rfl, value_oneResult _⟩
  | div | divu | rem | remu =>
    cases h
    dsimp only [exec, execDiv, execDivu, execRem, execRemu]
    exact ⟨_, rfl, divide_oneResult⟩
  | bins | liHi =>
    cases h
    dsimp only [exec, execBins, execLiHi]
    exact ⟨_, rfl, rmw_oneResult _ _⟩
  | qpoll | qcnt =>
    cases h
    dsimp only [exec, execQpoll, execQcnt]
    exact ⟨_, rfl, queue_oneResult _⟩
  | leaM | leaN =>
    cases h
    dsimp only [exec, execLeaM, execLeaN, leaOp]
    exact ⟨_, rfl, address_oneResult _ _⟩
  | rdsys st d k =>
    cases h
    dsimp only [exec, execRdsys]
    exact ⟨_, rfl, sysReg_oneResult _⟩
  | _ => cases h

/-- Settles O58. -/
theorem resultFrame : Obligations.ResultFrame := by
  intro s u i d hd hu ht
  obtain ⟨f, hrun, hone⟩ := resultOf_oneResult hd s
  exact oneResult_frame hone (hrun.symm.trans hu) ht

end Sys2Proof.Machine
end

section
/-! PROOFS. The canonical form of memory under the operations of threads and banks (spec/07 R116, R121, R130). -/

namespace Sys2Proof.Machine

open Sys2Proof.Claims

/-! ### Choices and repetitions -/

theorem ite_wf {c : Prop} [Decidable c] {a b : State} (ha : memWf a.mem = true) (hb : memWf b.mem = true) :
    memWf (if c then a else b).mem = true := by
  split
  · exact ha
  · exact hb

theorem foldl_wf {α : Type} {f : State → α → State} (hf : ∀ u a, memWf u.mem = true → memWf (f u a).mem = true) (l : List α) :
    ∀ {s : State}, memWf s.mem = true → memWf (l.foldl f s).mem = true := by
  induction l with
  | nil => exact fun h => h
  | cons a l ih => exact fun h => ih (hf _ a h)

section

variable {s : State} (h : memWf s.mem = true)

include h

/-! ### Changes of one party -/

theorem setThread_wf (k : Nat) (x : Thread) : memWf (s.setThread k x).mem = true := h

theorem modThread_wf (k : Nat) (f : Thread → Thread) : memWf (s.modThread k f).mem = true := h

theorem setCore_wf (k : Nat) (x : Core) : memWf (s.setCore k x).mem = true := h

theorem modCore_wf (k : Nat) (f : Core → Core) : memWf (s.modCore k f).mem = true := h

theorem modTile_wf (k : Nat) (f : Tile → Tile) : memWf (s.modTile k f).mem = true := h

theorem setDie_wf (k : Nat) (x : Die) : memWf (s.setDie k x).mem = true := h

theorem modDie_wf (k : Nat) (f : Die → Die) : memWf (s.modDie k f).mem = true := h

theorem setOwner_wf (k : Nat) (x : Owner) : memWf (s.setOwner k x).mem = true := h

theorem modOwner_wf (k : Nat) (f : Owner → Owner) : memWf (s.modOwner k f).mem = true := h

theorem setLaunch_wf (k : Nat) (x : Launch) : memWf (s.setLaunch k x).mem = true := h

theorem modLaunch_wf (k : Nat) (f : Launch → Launch) : memWf (s.modLaunch k f).mem = true := h

theorem setBarrier_wf (k : Nat) (x : Barrier) : memWf (s.setBarrier k x).mem = true := h

theorem modBarrier_wf (k : Nat) (f : Barrier → Barrier) : memWf (s.modBarrier k f).mem = true := h

theorem setInlet_wf (k : Nat) (x : Inlet) : memWf (s.setInlet k x).mem = true := h

theorem modInlet_wf (k : Nat) (f : Inlet → Inlet) : memWf (s.modInlet k f).mem = true := h

/-! ### Counts -/

theorem misuseOwner_wf (o : Nat) : memWf (misuseOwner s o).mem = true := h

theorem misuseBoth_wf (w : Who) : memWf (misuseBoth s w).mem = true := ite_wf h h

theorem dataErrors_wf (w : Who) (k : Nat) : memWf (dataErrors s w k).mem = true := (Written.dataErrors s w k).wf h

theorem countBad_wf (w : Who) (b : Bool) : memWf (countBad s w b).mem = true := (Written.countBad s w b).wf h

theorem countWalk_wf (w : Who) (a : Word) : memWf (countWalk s w a).mem = true := countBad_wf h w _

theorem gateCount_wf (o key : Nat) : memWf (gateCount s o key).mem = true := (Written.gateCount s o key).wf h

theorem engineWrite_wf (w : Who) (a : Word) (bs : List Byte) : memWf (engineWrite s w a bs).mem = true :=
  (Written.engineWrite s w a bs).wf h

theorem engineCount_wf (w : Who) (a : Word) (n : Nat) : memWf (engineCount s w a n).mem = true := (Written.engineCount s w a n).wf h

/-! ### Ports and requests -/

theorem lateAnswer_wf (T due : Nat) : memWf (lateAnswer s T due).mem = true := ite_wf h h

theorem latePort_wf (T : Nat) (p : Option Port) : memWf (latePort s T p).mem = true := lateAnswer_wf h T _

theorem portAsk_wf (g : Nat) (a : Word) (n : Nat) : memWf (portAsk s g a n).mem = true := ite_wf h h

theorem portDone_wf (g : Nat) (a : Word) : memWf (portDone s g a).mem = true := latePort_wf h _ _

theorem portsAsk_wf (g : Nat) (l : List (Word × Nat)) : memWf (portsAsk s g l).mem = true := by
  unfold portsAsk
  split
  · exact h
  · exact portAsk_wf h g _ _

theorem portsDone_wf (g : Nat) (l : List (Word × Nat)) : memWf (portsDone s g l).mem = true := by
  unfold portsDone
  split
  · exact h
  · exact portDone_wf h g _

/-- What `f` does to memory under a port's answers does not stay. -/
theorem underView_wf (p : Option Port) (f : State → State) : memWf (underView s p f).mem = true := h

theorem parkThread_wf (g : Nat) (w : Wait) : memWf (parkThread s g w).mem = true := by rwa [parkThread_mem]

theorem vacate_wf (g : Nat) (out : Bool) : memWf (vacate s g out).mem = true := by rwa [vacate_mem]

theorem launchError_wf (lk code : Nat) : memWf (launchError s lk code).mem = true := by rwa [launchError_mem]

theorem captureLocal_wf (g c cause sub : Nat) (info : Word) (atSucc pair : Bool) :
    memWf (captureLocal s g c cause sub info atSucc pair).mem = true := by
  have hl : memWf (landPushes s g).mem = true := h
  unfold captureLocal
  dsimp only
  split
  · exact captureOwner_wf hl _ _ _ _ _
  · split
    · exact captureOwner_wf hl _ _ _ _ _
    · exact transferTo_wf (setThread_wf hl g _) _ _

theorem trapTake_wf (g : Nat) (t : Trap) : memWf (t.take s g).mem = true := by
  cases t with
  | owner cause sub info resume => exact captureOwner_wf h g cause sub info resume
  | loc cause sub info atSucc pair => exact captureLocal_wf h g _ cause sub info atSucc pair

/-! ### Operands -/

theorem queuePush_wf (c : Nat) (d : Dst) (p : Push) : memWf (queuePush s c d p).mem = true := by
  obtain ⟨x, hx⟩ := queuePush_cases s c d p
  rw [hx]
  exact h

theorem queueFree_wf (c q : Nat) : memWf (queueFree s c q).mem = true := by
  unfold queueFree
  dsimp only
  split
  · exact h
  · split
    · exact h
    · exact h

theorem consume_wf (g : Nat) (ss : List Src) : memWf (consume s g ss).mem = true := by
  obtain ⟨_, hr⟩ := consume_reads s g ss
  obtain ⟨_, _, _, _, _, hu⟩ := hr.module
  rw [hu]
  exact h

theorem consumeKept_wf (g : Nat) (ss : List Src) : memWf (consumeKept s g ss).mem = true := by
  obtain ⟨_, hr⟩ := consumeKept_reads s g ss
  obtain ⟨_, _, _, _, _, hu⟩ := hr.module
  rw [hu]
  exact h

theorem putBack_wf (g : Nat) (n : RegNum) (v : Word) : memWf (putBack s g n v).mem = true := by
  unfold putBack
  split
  · exact h
  · exact ite_wf h h
  · exact h

theorem putBackAll_wf (g : Nat) (l : List (RegNum × Word)) : memWf (putBackAll s g l).mem = true := by
  induction l with
  | nil => exact h
  | cons p l ih => exact putBack_wf ih g _ _

theorem writeLater_wf (g : Nat) (d : Dst) (v : Word) (due : Nat) : memWf (writeLater s g d v due).mem = true := by
  unfold writeLater
  split
  · exact h
  · exact h
  · exact queuePush_wf h _ _ _

theorem awaitDst_wf (g : Nat) (d : Dst) (tag : Nat) : memWf (awaitDst s g d tag).mem = true := by
  obtain ⟨_, _, _, hu⟩ := (awaitDst_moved s g d tag).module
  rw [hu]
  exact h

theorem fillDst_wf (g : Nat) (d : Dst) (v : Word) (tag : Nat) : memWf (fillDst s g d v tag).mem = true := by rwa [fillDst_mem]

theorem serveBanks_wf (l : List Nat) : memWf (serveBanks s l).mem = true := h

theorem winBank_wf (g c id key : Nat) : memWf (winBank s g c id key).mem = true := ite_wf h h

end

/-- The operands that an access kept are freed. -/
theorem freeFields_wf {s : State} (h : memWf s.mem = true) (g : Nat) (l : List (RegNum × Word)) :
    memWf (freeFields s g l).mem = true := by
  induction l generalizing s with
  | nil => exact h
  | cons p l ih =>
    unfold freeFields
    refine ih ?_
    split
    · exact queueFree_wf h _ _
    · exact h

section

variable {s : State} (h : memWf s.mem = true)

include h

/-! ### Threads that go on -/

theorem syncLines_wf (g : Nat) : memWf (syncLines s g).mem = true := by
  unfold syncLines
  refine enter_wf (modThread_wf ?_ g _) g
  exact h

theorem retireWait_wf (g c : Nat) (st : Stall) (pair : Bool) (x : Option Word) : memWf (retireWait s g c st pair x).mem = true := by
  unfold retireWait
  exact retire_wf h g c _ pair x

theorem resumeRetire_wf (g : Nat) : memWf (resumeRetire s g).mem = true := retireWait_wf h g _ _ _ _

theorem releaseOne_wf (status : Word) (a : Arrival) : memWf (releaseOne status s a).mem = true := by
  unfold releaseOne
  exact resumeRetire_wf (ite_wf (fillDst_wf h _ _ _ _) h) _

theorem breakOne_wf (a : Arrival) : memWf (breakOne s a).mem = true :=
  ite_wf (releaseOne_wf h 1 a) (takeLocal_wf h _ _ _ _ _ _ _)

theorem barrierCheck_wf (berth lk : Nat) : memWf (barrierCheck s berth lk).mem = true := by
  unfold barrierCheck
  dsimp only
  split
  · exact h
  · split
    · exact h
    · exact foldl_wf (f := sendCommits _) (fun _ _ hu => hu) _ (setBarrier_wf h _ _)

theorem arrive_wf (c : Nat) (a : Arrival) : memWf (arrive s c a).mem = true := by
  unfold arrive
  dsimp only
  exact barrierCheck_wf (modBarrier_wf (modThread_wf h _ _) _ _) _ _

theorem discardContribs_wf (key : Nat) : memWf (discardContribs s key).mem = true := by
  unfold discardContribs
  exact foldl_wf (fun _ x hu => misuseBoth_wf hu _) _ h

theorem breakOut_wf (key : Nat) : memWf (breakOut s key).mem = true := by
  unfold breakOut
  exact foldl_wf (fun _ a hu => breakOne_wf hu a) _ h

/-! ### What a bank performs -/

theorem signalUpdate_wf (w : Who) (key : Nat) (f : Nat → Nat → Nat → Nat → Nat × Nat × Nat × Nat) :
    memWf (signalUpdate s w key f).mem = true := by
  unfold signalUpdate
  exact unitWrite_wf (countBad_wf h w _) _ _ _ _

theorem dispMirror_wf (T : Nat) : memWf (dispMirror s T).mem = true := (Written.dispMirror s T).wf h

theorem dispPost_wf (T : Nat) (r : DRec) : memWf (dispPost s T r).mem = true := by
  unfold dispPost
  exact dispMirror_wf (modTile_wf h T _) T

theorem atomicAt_wf (r : Req) (new : Nat → Option Nat) : memWf (atomicAt s r new).1.mem = true := by
  unfold atomicAt
  dsimp only
  split
  · exact unitWrite_wf (countBad_wf h _ _) _ _ _ _
  · exact countBad_wf h _ _

theorem depdecAt_wf (r : Req) : memWf (depdecAt s r).mem = true := by
  unfold depdecAt
  dsimp only
  split
  · exact misuseOwner_wf (unitWrite_wf h _ _ _ _) _
  · split
    · exact dispPost_wf (unitWrite_wf h _ _ _ _) _ _
    · exact unitWrite_wf h _ _ _ _

theorem performMem_wf (r : Req) : memWf (performMem s r).1.mem = true := by
  unfold performMem
  generalize maskOf 64 = whole, maskOf 8 = low, maskOf 4 = high
  dsimp only
  split
  · exact countBad_wf h _ _
  · exact unitWrite_wf (countBad_wf h _ _) _ _ _ _
  · exact atomicAt_wf h r _
  · exact atomicAt_wf h r _
  · exact atomicAt_wf h r _
  · exact atomicAt_wf h r _
  · dsimp only
    exact signalUpdate_wf h _ _ _
  · exact unitWrite_wf (unitWrite_wf (countBad_wf h _ _) _ _ _ _) _ _ _ _
  · dsimp only
    exact depdecAt_wf (countBad_wf h _ _) r
  · exact h

theorem putInlet_wf (id : Nat) (x : Inlet) : memWf (putInlet s id x).mem = true := by
  unfold putInlet
  exact ownerWrite_wf (s := s.setInlet id x) h _ _ _ _ _

theorem presentTail_wf (id : Nat) (v : BitVec 32) (ok : Bool) : memWf (presentTail s id v ok).mem = true := putInlet_wf h id _

theorem performDevice_wf (r : Req) : memWf (performDevice s r).1.mem = true := by
  unfold performDevice
  split
  · exact h
  · split
    · exact h
    · exact h

theorem performMmio_wf (r : Req) : memWf (performMmio s r).1.mem = true := by
  rw [performMmio]
  generalize mmioBase = base
  dsimp only
  split
  · split
    · dsimp only
      split
      · exact presentTail_wf h _ _ _
      · exact h
    · exact h
  · exact h

theorem reachOne_wf (r : Req) : memWf (reachOne s r).mem = true := ite_wf h h

theorem reachBanks_wf (ids : List Nat) : memWf (reachBanks s ids).mem = true := foldl_wf (fun _ r hu => reachOne_wf hu r) _ h

theorem countLate_wf (r : Req) : memWf (countLate s r).mem = true := ite_wf h h

theorem acknowledge_wf (r : Req) : memWf (acknowledge s r).mem = true := ite_wf h (countLate_wf h r)

theorem afterPerform_wf (r : Req) (data : BitVec 512) : memWf (afterPerform s r data).mem = true := by
  unfold afterPerform
  split
  · exact acknowledge_wf h r
  · exact h
  · exact acknowledge_wf h r
  · split
    · exact h
    · exact h
  · split
    · exact h
    · exact h
  · exact h

theorem placeWatch_wf (r : Req) : memWf (placeWatch s r).mem = true :=
  ite_wf (countBad_wf (s := leaveBank s r.id) h r.who _) h

theorem performAt_wf (r : Req) : memWf (performAt s r).1.mem = true := by
  unfold performAt
  split
  · exact performMem_wf h r
  · split
    · exact performMmio_wf h r
    · exact performDevice_wf h r

theorem performReq_wf (r : Req) : memWf (performReq s r).mem = true := by
  unfold performReq
  split
  · split
    · exact placeWatch_wf h r
    · exact afterPerform_wf (performAt_wf h r) r _
  · exact afterPerform_wf (gateCount_wf h _ _) r 0

theorem performTurn_wf (r : Req) : memWf (performTurn s r).mem = true := by
  unfold performTurn
  exact performReq_wf (s := if r.winsBank then s else serveBanks s [bankOf r.key]) (ite_wf h h) r

theorem fillPieces_wf (r : Req) : memWf (fillPieces s r).mem = true := foldl_wf (fun _ _ hu => fillDst_wf hu _ _ _ _) _ h

theorem completeAccess_wf (r : Req) : memWf (completeAccess s r).mem = true := by
  have hfree : memWf (freeFields (fillPieces (dropReq s r.id) r) r.g r.ops).mem = true :=
    freeFields_wf (fillPieces_wf (s := dropReq s r.id) h r) _ _
  exact ite_wf (retireWait_wf hfree _ _ _ _ _) hfree

end

end Sys2Proof.Machine
end

section
/-! PROOFS. The canonical form of memory under walks, copies, packets, floes and the units of a tile (spec/07, spec/10, spec/12,
spec/13, spec/15, spec/18). -/

namespace Sys2Proof.Machine

open Sys2Proof.Claims

section

variable {s : State} (h : memWf s.mem = true)

include h

/-! ### Answers -/

theorem completion_wf {r : Req} {u : State} (hu : completion s r = some u) : memWf u.mem = true := by
  have hlate : memWf (countLate s r).mem = true := countLate_wf h r
  unfold completion at hu
  split at hu
  · cases hu
  · dsimp only at hu
    split at hu
    · cases hu
      exact completeAccess_wf hlate r
    · cases hu
      exact modThread_wf (fillPieces_wf (s := dropReq (countLate s r) r.id) hlate r) _ _
    · cases hu
      exact hlate
    · cases hu
      exact hlate
    · cases hu

theorem resumeFetch_wf (g : Nat) : memWf (resumeFetch s g).mem = true := by
  have hb : memWf (becomeReady s g).mem = true := h
  exact ite_wf (enter_wf hb g) hb

theorem enterFetched_wf (g : Nat) (a : Word) (ln : BitVec 512) : memWf (enterFetched s g a ln).mem = true := by
  have hb : memWf (becomeReady s g).mem = true := h
  exact ite_wf hb (ite_wf (enterLine_wf hb g ln) (enter_wf hb g))

theorem storeLine_wf (r : Req) : memWf (storeLine s r).mem = true := ite_wf h h

theorem postFault_wf (d : Nat) (r : FRec) : memWf (postFault s d r).mem = true := (Noted.postFault s d r).wf h

theorem dropThread_wf (g : Nat) (a : Word) (k : AKind) : memWf (dropThread s g a k).mem = true := by
  have hl : memWf (landPushes s g).mem = true := h
  unfold dropThread
  exact postFault_wf (setThread_wf hl g _) _ _

theorem walkEnd_wf (g : Nat) (a : Word) (k : AKind) (w : Walk) : memWf (walkEnd s g a k w).mem = true := by
  unfold walkEnd
  split
  · next lg e =>
    have hfill : memWf (tlbFill s g (s.thread g).owner a lg e).mem = true := h
    exact ite_wf (resumeFetch_wf hfill g) (ownerTrap_wf hfill _ _ _ _ _)
  · exact ite_wf (dropThread_wf h g a k) (parkThread_wf h g _)
  · exact ownerTrap_wf h _ _ _ _ _

theorem walkOn_wf (g : Nat) (r : Req) : memWf (walkOn s g r).mem = true := by
  unfold walkOn
  dsimp only
  split
  · split
    · exact h
    · split
      · exact walkEnd_wf h g _ _ _
      · exact h
  · exact h

theorem portGo_wf (g : Nat) : memWf (portGo s g).mem = true := ite_wf h h

/-! ### Operations on remote registers -/

theorem endRput_wf (x : Rput) : memWf (endRput s x).mem = true := by
  have hr : memWf ({ s with rputs := s.rputs.filter (·.id != x.id) } : State).mem = true := h
  exact ite_wf (resumeRetire_wf hr _) hr

theorem deliverRead_wf (g : Nat) : memWf (deliverRead s g).mem = true := by
  refine foldl_wf (fun u x hu => ?_) _ h
  split
  · exact ite_wf (endRput_wf (modThread_wf hu g _) x) hu
  · exact hu

theorem rputAbandon_wf (g : Nat) : memWf (rputAbandon s g).mem = true :=
  foldl_wf (fun _ x hu => misuseBoth_wf (endRput_wf hu x) _) _ h

/-! ### Channels -/

theorem modRun_wf (T ch n : Nat) (f : Copy → Copy) : memWf (modRun s T ch n f).mem = true := h

theorem stopRun_wf (T ch n status : Nat) : memWf (stopRun s T ch n status).mem = true := h

theorem copyFault_wf (T ch : Nat) (x : Copy) (a : Word) (fatal : Bool) (k : AKind) : memWf (copyFault s T ch x a fatal k).mem = true := by
  have hc : memWf (if region a = .paged then countWalk s x.who a else s).mem = true := ite_wf (countWalk_wf h _ a) h
  unfold copyFault
  exact ite_wf (stopRun_wf hc T ch _ 1) (postFault_wf (modRun_wf hc T ch _ _) _ _)

theorem countDrop_wf (o : Nat) (k : Option Nat) : memWf (countDrop s o k).mem = true := by
  unfold countDrop
  split
  · exact gateCount_wf h _ _
  · exact h

theorem chanRead_wf (T : Nat) (x : Copy) (r : ChanRead) :
    memWf (countDrop (latePort (serveBanks s r.banks) T x.port) x.owner r.dropped).mem = true :=
  countDrop_wf (latePort_wf (s := serveBanks s r.banks) h T _) _ _

theorem takeIndex_wf (T ch : Nat) (x : Copy) (r : ChanRead) : memWf (takeIndex s T ch x r).mem = true := by
  unfold takeIndex
  exact modRun_wf (chanRead_wf h T x r) T ch _ _

theorem handUnit_wf (T ch : Nat) (x : Copy) (u : Unit') (r : ChanRead) (dst : Word) (key : Nat) :
    memWf (handUnit s T ch x u r dst key).mem = true := by
  have hr := chanRead_wf h T x r
  have hd := (Written.dataError _ x.who).wf hr
  unfold handUnit
  refine modRun_wf (s := send _ _) ?_ T ch x.n fun x => x.advance u.len
  exact ite_wf (modRun_wf hd T ch x.n fun x => { x with status := 5 }) hr

theorem copyRead_wf (T ch : Nat) (x : Copy) : memWf (copyRead s T ch x).mem = true := by
  unfold copyRead
  dsimp only
  split
  · split
    · exact copyFault_wf h T ch x _ _ _
    · exact ite_wf (takeIndex_wf h T ch x _) h
  · split
    · exact stopRun_wf h T ch _ _
    · split
      · exact copyFault_wf h T ch x _ _ _
      · split
        · exact h
        · split
          · exact copyFault_wf h T ch x _ _ _
          · exact copyFault_wf h T ch x _ _ _
          · exact ite_wf (stopRun_wf h T ch _ _) (handUnit_wf h T ch x _ _ _ _)

theorem copyHand_wf (T ch : Nat) : memWf (copyHand s T ch).mem = true := by
  unfold copyHand
  split
  · exact h
  · next x _ =>
    split
    · exact ite_wf (ite_wf h (modRun_wf h T ch _ _)) (ite_wf h (copyRead_wf h T ch x))
    · split
      · exact h
      · split
        · exact modRun_wf h T ch _ _
        · exact copyRead_wf h T ch x

theorem copyMisuse_wf (x : Copy) : memWf (copyMisuse s x).mem = true := ite_wf h (misuseBoth_wf h _)

/-! ### Packets -/

theorem holdPkt_wf (id i : Nat) (a : Word) (k : AKind) : memWf (holdPkt s id i a k).mem = true := (Noted.holdPkt s id i a k).wf h

theorem engineUpdate_wf (o lk key : Nat) (f : Nat → Nat → Nat → Nat → Nat × Nat × Nat × Nat) :
    memWf (engineUpdate s o lk key f).mem = true := (Noted.engineUpdate s o lk key f).wf h

theorem firstUpdate_wf (o lk key start : Nat) : memWf (firstUpdate s o lk key start).mem = true := engineUpdate_wf h o lk key _

theorem completePkt_wf (id i : Nat) (sig : Word) (start : Option Nat) (err : Nat) (first wait : Bool) :
    memWf (completePkt s id i sig start err first wait).mem = true := (Noted.completePkt s id i sig start err first wait).wf h

theorem launchFirst_wf (lk : Nat) : memWf (launchFirst s lk).mem = true := by
  have hset : memWf (s.setLaunch lk { s.launch lk with started := true, start := s.timebase }).mem = true := h
  unfold launchFirst
  dsimp only
  split
  · exact h
  · split
    · exact firstUpdate_wf hset _ _ _ _
    · exact holdPkt_wf (s := putPkt (s.setLaunch lk { s.launch lk with started := true, start := s.timebase }) _ _) hset _ _ _ _
    · exact hset

/-! ### The end of a launch -/

theorem spillCount_wf (core i : Nat) : memWf (spillCount s core i).mem = true := (Written.spillCount s core i).wf h

theorem refillDeque_wf (core : Nat) : memWf (refillDeque s core).mem = true := by
  unfold refillDeque
  exact setCore_wf (foldl_wf (fun _ i hu => spillCount_wf hu core i) _ h) core _

theorem refillDeques_wf : memWf (refillDeques s).mem = true :=
  ite_wf h (foldl_wf (fun _ p hu => ite_wf (refillDeque_wf hu p.1) hu) _ h)

theorem misuseTimes_wf (o n : Nat) : memWf (misuseTimes s o n).mem = true := by
  induction n with
  | zero => exact h
  | succ n ih => exact misuseOwner_wf ih o

theorem freeCells_wf (lk n : Nat) : memWf (freeCells s lk n).1.mem = true := by
  induction n with
  | zero => exact h
  | succ n ih =>
    unfold freeCells
    exact ite_wf (engineCount_wf ih _ _ _) (engineWrite_wf ih _ _ _)

theorem discardTasks_wf (lk : Nat) : memWf (discardTasks s lk).mem = true := by
  have hdrop : ∀ (c : FMap Core) (t : FMap Tile), memWf ({ s with cores := c, tiles := t } : State).mem = true := fun _ _ => h
  unfold discardTasks
  exact misuseTimes_wf (freeCells_wf (refillDeques_wf (hdrop _ _)) lk _) _ _

theorem unbindActors_wf (lk : Nat) : memWf (unbindActors s lk).mem = true := by
  have hdrop : ∀ c : FMap Core, memWf ({ s with cores := c } : State).mem = true := fun _ => h
  unfold unbindActors
  exact misuseTimes_wf (hdrop _) _ _

theorem unbindIf_wf (b : Bool) (lk : Nat) : memWf (if b then unbindActors s lk else s).mem = true := ite_wf (unbindActors_wf h lk) h

theorem launchEndCheck_wf (lk : Nat) : memWf (launchEndCheck s lk).mem = true := by
  unfold launchEndCheck
  dsimp only
  split
  · exact h
  · exact completePkt_wf (unbindIf_wf (discardTasks_wf (setLaunch_wf h lk _) lk) _ lk) _ _ _ _ _ _ _

theorem launchRefused_wf (lk err : Nat) : memWf (launchRefused s lk err).mem = true := by
  unfold launchRefused
  exact completePkt_wf (unbindIf_wf (setLaunch_wf h lk _) _ lk) _ _ _ _ _ _ _

end

/-! ### Floes -/

theorem portSend_wf (w : Who) (T n : Nat) : ∀ {s : State} (_ : memWf s.mem = true) (key : Nat) (bs : List Byte),
    memWf (portSend s w T key n bs).mem = true := by
  induction n with
  | zero => exact fun h _ _ => h
  | succ n ih =>
    intro s h key bs
    unfold portSend
    split
    · exact h
    · exact ih (s := send s _) h _ _

section

variable {s : State} (h : memWf s.mem = true)

include h

theorem slotWrite_wf (w : Who) (T j k : Nat) (bs : List Byte) : memWf (slotWrite s w T j k bs).mem = true :=
  portSend_wf w T _ h _ bs

theorem settleSlot_wf (T j : Nat) : memWf (settleSlot s T j).mem = true :=
  foldl_wf (f := fun s r => leaveBank (performReq s r) r.id) (fun _ r hu => performReq_wf hu r) _ h

theorem takeImage_wf (T j : Nat) : memWf (takeImage s T j).2.mem = true := by
  rw [takeImage]
  dsimp only
  exact dataErrors_wf (serveBanks_wf (settleSlot_wf h T j) _) _ _

theorem parkFloe_wf (o : Nat) (img : List Byte) (code : Nat) (a : Word) : memWf (parkFloe s o img code a).mem = true := by
  rw [parkFloe]
  dsimp only
  have hc := engineCount_wf h (ownerWho o 0) (s.owner o).park 16
  split
  · exact h
  · split
    · exact misuseOwner_wf (engineWrite_wf hc _ _ _) o
    · exact engineWrite_wf (engineWrite_wf hc _ _ _) _ _ _

theorem parkSlot_wf (T j code : Nat) : memWf (parkSlot s T j code).mem = true := by
  unfold parkSlot
  exact parkFloe_wf (modTile_wf (s := setSlot _ _ _ _) (takeImage_wf h T j) T _) _ _ _ _

theorem parkHeld_wf (g : Nat) : memWf (parkHeld s g).mem = true :=
  foldl_wf (fun _ j hu => ite_wf (parkSlot_wf hu _ j 8) hu) _ h

theorem disableFloes_wf (berth : Nat) : memWf (disableFloes s berth).mem = true :=
  foldl_wf (fun _ _ hu => ite_wf hu (foldl_wf (fun _ j hv => ite_wf hv (parkSlot_wf hv _ j 8)) _ hu)) _ h

theorem departFloe_wf (T o : Nat) (img : List Byte) (n : Nat) : memWf (departFloe s T o img n).mem = true := by
  unfold departFloe
  exact ite_wf (parkFloe_wf h o img 1 0) h

theorem sendFloe_wf (T o : Nat) (img : List Byte) : memWf (sendFloe s T o img).mem = true :=
  departFloe_wf (s := { s with nextId := s.nextId + 1 }) h T o img _

theorem landFloe_wf (T j : Nat) (img : List Byte) : memWf (landFloe s T j img).mem = true := by
  unfold landFloe
  exact modTile_wf (s := setSlot _ _ _ _) (slotWrite_wf h _ T j 0 _) T _

theorem spillFloe_wf (o T : Nat) (img : List Byte) : memWf (spillFloe s o T img).mem = true := by
  unfold spillFloe
  dsimp only
  split
  · exact parkFloe_wf h o img 7 0
  · split
    · exact parkFloe_wf h o img 3 _
    · exact modTile_wf (engineWrite_wf h _ _ _) T _

theorem arriveFloe_wf (f : Floe) (T : Nat) : memWf (arriveFloe s f T).mem = true := by
  unfold arriveFloe
  dsimp only
  split
  · exact h
  · split
    · exact h
    · split
      · exact parkFloe_wf h _ _ 8 0
      · split
        · exact ite_wf (landFloe_wf h T _ _) (spillFloe_wf h _ T _)
        · exact spillFloe_wf h _ T _

theorem refillSlot_wf (T o j : Nat) (a : Word) : memWf (refillSlot s T o j a).mem = true := by
  unfold refillSlot
  dsimp only
  have ht := modTile_wf (latePort_wf (underView_wf h (s.tile T).refill fun v => engineCount v (ownerWho o 0) a 4288) T
    (s.tile T).refill) T fun y => { y with refilled := y.refilled + 1, refill := none }
  split
  · exact parkFloe_wf ht _ _ _ _
  · split
    · exact ht
    · exact landFloe_wf ht T j _

theorem stopUnit_wf (f : Floe) (routine p n : Nat) : memWf (stopUnit s f routine p n).mem = true := by
  have hset : ∀ {u : State} (x : Floe), memWf u.mem = true → memWf (setFloe u x).mem = true := fun _ hu => hu
  unfold stopUnit
  dsimp only
  split
  · exact hset _ ((Written.dataError s _).wf h)
  · split
    · exact hset _ (gateCount_wf h _ _)
    · refine hset _ ?_
      split
      · exact countBad_wf h _ _
      · exact unitWrite_wf (countBad_wf h _ _) _ _ _ _

theorem stopEnd_wf (f : Floe) : memWf (stopEnd s f).mem = true := by
  have hd : memWf (dropFloe (lateAnswer s f.src f.due) f.id).mem = true := lateAnswer_wf h _ _
  exact ite_wf hd (sendFloe_wf hd _ _ _)

theorem stopFail_wf (f : Floe) (code : Nat) (a : Word) : memWf (stopFail s f code a).mem = true := by
  unfold stopFail
  exact parkFloe_wf (s := dropFloe _ _) (ite_wf h (countWalk_wf h _ a)) _ _ _ _

theorem stopMove_wf (f : Floe) (routine : Nat) : memWf (stopMove s f routine).mem = true := by
  unfold stopMove
  dsimp only
  split
  · exact ite_wf h (stopFail_wf h f _ _)
  · exact ite_wf h (stopFail_wf h f _ _)
  · exact stopUnit_wf h f routine _ _

theorem takeAnswer_wf (g : Nat) (a b : Word) (n : Nat) : memWf (takeAnswer s g a b n).mem = true := by
  unfold takeAnswer
  exact portDone_wf (underView_wf h _ _) g a

theorem stationRead_wf (g routine : Nat) : memWf (stationRead s g routine).mem = true := ite_wf h (takeAnswer_wf h g _ _ _)

theorem claimFloe_wf (g j : Nat) (d : Dst) (tag : Nat) (pc : Word) : memWf (claimFloe s g j d tag pc).mem = true := by
  unfold claimFloe
  exact retireWait_wf (fillDst_wf (modTile_wf (s := setSlot _ _ _ _) h _ _) _ _ _ _) _ _ _ _ _

theorem fillNow_wf (g c : Nat) (d : Dst) (v : Word) : memWf (fillNow s g c d v).mem = true := by
  unfold fillNow
  split
  · exact h
  · exact h
  · exact queuePush_wf h _ _ _

theorem writeItinerary_wf (w : Who) (T j count index : Nat) (l : List (List Byte)) :
    memWf (writeItinerary s w T j count index l).mem = true := slotWrite_wf (slotWrite_wf h w T j 1 _) w T j 64 _

theorem resumeEntry_wf (g i : Nat) : memWf (resumeEntry s g i).mem = true := by
  have ht := fun a n => engineCount_wf (takeAnswer_wf h g (resumeAddr s g) (resumeAddr s g) 4) (whoIn s g) a n
  unfold resumeEntry
  dsimp only
  split
  · exact misuseBoth_wf (ht _ _) _
  · split
    · exact misuseOwner_wf (underView_wf (engineWrite_wf (ht _ _) _ _ _) _ _) _
    · exact sendFloe_wf (underView_wf (engineWrite_wf (ht _ _) _ _ _) _ _) _ _ _

/-! ### Ramp, vector unit, matrix array -/

theorem rampAsk_wf (w : RampWait) : memWf (rampAsk s w).1.mem = true := by
  unfold rampAsk
  dsimp only
  split
  · exact h
  · split
    · exact h
    · exact h

theorem vecAwait_wf (g : Nat) (q : VAsk) (d : Dst) (tag : Nat) : memWf (vecAwait s g q d tag).mem = true := by
  unfold vecAwait
  exact awaitDst_wf (modThread_wf h g _) g d tag

theorem vmemAccept_wf (o : VOp) (q : VMemOp) (a : VAcc) : memWf (vmemAccept s o q a).mem = true := by
  have hreq : ∀ (u : State) b (acc : Access), memWf u.mem = true → memWf (vecReq u o b acc).mem = true := fun _ _ _ hu => hu
  unfold vmemAccept
  split
  · exact foldl_wf (fun u b hu => hreq u b _ hu) _ h
  · exact modTile_wf (foldl_wf (f := fun s b => vecReq s o b .load) (fun _ _ hu => hu) _ h) _ _

theorem results_wf (o : VOp) : memWf (results s o).mem = true := by
  have hr : memWf (resultReads s o).mem = true := by
    obtain ⟨_, _, hu⟩ := resultReads_eq s o
    rw [hu]
    exact h
  have hw : ∀ {u : State}, memWf u.mem = true → memWf (resultW u o).mem = true := fun hu => by
    unfold resultW
    split
    · exact hu
    · exact hu
  have hm : ∀ {u : State}, memWf u.mem = true → memWf (resultM u o).mem = true := fun hu => by
    unfold resultM
    split
    · exact hu
    · exact hu
  unfold results resultS
  split
  · exact fillDst_wf (hm (hw hr)) _ _ _ _
  · exact hm (hw hr)

theorem vecFill_wf (o : VOp) : memWf (vecFill s o).mem = true := by
  cases hv : vmemOf o.ins with
  | none =>
    rw [vecFill_plain s hv]
    exact results_wf h o
  | some q =>
    rw [vecFill_load s hv]
    exact results_wf (modThread_wf h _ _) o

theorem grantLease_wf (T : Nat) (r : LeaseReq) : memWf (grantLease s T r).mem = true := by
  have hg : memWf (leaseGranted s T r).mem = true := h
  rw [grantLease_eq]
  exact ite_wf (resumeRetire_wf hg _) hg

end

end Sys2Proof.Machine
end

section
/-! PROOFS. The canonical form of memory under the matrix array, tasks, and the placement and the end of threads (spec/13, spec/14,
spec/16, spec/17). -/

namespace Sys2Proof.Machine

open Sys2Proof.Claims

section

variable {s : State} (h : memWf s.mem = true)

include h

/-! ### The matrix array -/

theorem matrixReads_wf (c : MCmd) (w n : Nat) : memWf (matrixReads s c w n).mem = true := by
  induction n with
  | zero => exact h
  | succ n ih => exact ih

theorem matrixEffect_wf (T : Nat) (c : MCmd) (reads : List Req) : memWf (matrixEffect s T c reads).mem = true := by
  unfold matrixEffect
  split
  iterate 6 exact h
  split
  · exact h
  · exact h

/-! ### Deques and the dispenser -/

theorem dequeMirror_wf (core : Nat) : memWf (dequeMirror s core).mem = true := (Written.dequeMirror s core).wf h

theorem putDeque_wf (core : Nat) (x : Core) : memWf (putDeque s core x).mem = true := by
  unfold putDeque
  exact dequeMirror_wf (setCore_wf h core x) core

theorem takenCount_wf (core i : Nat) : memWf (takenCount s core i).mem = true := (Written.takenCount s core i).wf h

theorem popEntry_wf (core i : Nat) : memWf (popEntry s core i).mem = true := by
  unfold popEntry
  exact dequeMirror_wf (refillDeque_wf (setCore_wf h core _) core) core

theorem cellWrite_wf (g c off n v : Nat) : memWf (cellWrite s g c off n v).mem = true := (Written.cellWrite s g c off n v).wf h

theorem enterTaken_wf (g : Nat) : memWf (enterTaken s g).mem = true := by
  unfold enterTaken
  exact syncLines_wf (modThread_wf h g _) g

theorem takeTask_wf (g : Nat) (x : Task) (jcell : Option Nat) : memWf (takeTask s g x jcell).mem = true := by
  unfold takeTask
  exact enterTaken_wf (modThread_wf h g _) g

theorem takeResume_wf (g c : Nat) : memWf (takeResume s g c).mem = true := by
  unfold takeResume
  dsimp only
  exact enterTaken_wf (modThread_wf (cellWrite_wf (engineCount_wf h _ _ _) _ _ _ _ _) _ _) g

theorem becomeWorker_wf (g c : Nat) (st : Stall) (steal : Bool) : memWf (becomeWorker s g c st steal).mem = true := h

theorem joinDown_wf (g c : Nat) : memWf (joinDown s g c).mem = true := by
  unfold joinDown
  exact ite_wf (dispPost_wf (cellWrite_wf h _ _ _ _ _) _ _) (cellWrite_wf h _ _ _ _ _)

theorem tretTake_wf (g c : Nat) (st : Stall) (i : Nat) (e : DEntry) : memWf (tretTake s g c st i e).mem = true := by
  have hp : memWf (popEntry (takenCount s (coreOf g) i) (coreOf g) i).mem = true := popEntry_wf (takenCount_wf h _ _) _ _
  have hb := becomeWorker_wf (modThread_wf hp g fun t => { t with jcell := none }) g c st true
  unfold tretTake
  dsimp only
  split
  · split
    · exact joinDown_wf hb g _
    · exact hb
  · exact takeTask_wf hb g _ _

theorem stealTake_wf {g victim : Nat} {u : State} (hu : stealTake s g victim = some u) : memWf u.mem = true := by
  obtain ⟨⟨i, e, c⟩, -, rfl⟩ := Option.map_eq_some_iff.mp hu
  have ht := takenCount_wf h victim i
  exact takeTask_wf (putDeque_wf (ite_wf (cellWrite_wf ht _ _ _ _ _) (cellWrite_wf (cellWrite_wf ht _ _ _ _ _) _ _ _ _ _)) _ _) _ _ _

theorem readBack_wf (T k : Nat) : memWf (readBack s T k).mem = true := by
  unfold readBack
  split
  · exact ite_wf (modTile_wf (engineCount_wf h _ _ _) _ _) (engineCount_wf h _ _ _)
  · exact h

theorem giveRecord_wf (T i : Nat) (r : DRec) (k : Fin 5) (g : Nat) : memWf (giveRecord s T i r k g).mem = true := by
  have hb : memWf (readBack (latePort s T (s.tile T).back) T (backIdx i)).mem = true := readBack_wf (latePort_wf h _ _) _ _
  unfold giveRecord
  dsimp only
  split
  · exact takeResume_wf (portsDone_wf (modThread_wf (dispMirror_wf (modTile_wf hb _ _) _) _ _) _ _) _ _
  · exact takeTask_wf (modThread_wf (dispMirror_wf (modTile_wf hb _ _) _) _ _) _ _ _

/-! ### Physical slots and placement -/

theorem takePhys_wf (g : Nat) (swap : Bool) : memWf (takePhys s g swap).mem = true := by
  unfold takePhys
  dsimp only
  split
  · exact h
  · split
    · exact h
    · split
      · exact h
      · exact h

theorem quantumStep_wf (c p : Nat) : memWf (quantumStep s c p).mem = true := by
  unfold quantumStep
  dsimp only
  split
  · exact h
  · split
    · exact h
    · exact h

theorem swapStep_wf (c p : Nat) : memWf (swapStep s c p).mem = true := by
  unfold swapStep
  dsimp only
  split
  · exact h
  · split
    · exact h
    · split
      · exact h
      · exact h

theorem settleSlots_wf (c : Nat) : memWf (settleSlots s c).mem = true :=
  ite_wf h (foldl_wf (fun _ p hu => quantumStep_wf (swapStep_wf hu c p) c p) _ h)

theorem detPlaced_wf (g : Nat) : memWf (detPlaced s g).mem = true := by
  have hc : memWf (if coreDet s (coreOf g) then s else s.modCore (coreOf g) Core.startPeriods).mem = true := ite_wf h h
  exact hc

theorem placeThread_wf (lk : Nat) (p : Place) (g : Nat) : memWf (placeThread s lk p g).mem = true := by
  have hd : memWf (if (s.launch lk).det then detPlaced s g else s).mem = true := ite_wf (detPlaced_wf h g) h
  unfold placeThread
  dsimp only
  refine launchFirst_wf (syncLines_wf (takePhys_wf (modLaunch_wf ?_ lk _) g false) g) lk
  exact hd

theorem rampTake_wf (d : Nat) (w : RampWait) (T : Nat) : memWf (rampTake s d w T).mem = true := ite_wf h h

theorem settleWaits_wf (d : Nat) : memWf (settleWaits s d).mem = true := by
  unfold settleWaits
  dsimp only
  refine foldl_wf (fun u w hu => ?_) _ (modDie_wf h d _)
  split
  · exact hu
  · exact hu

/-! ### Threads that end -/

theorem abandonPush_wf (g : Nat) (d : Dst) (tag : Nat) : memWf (abandonPush s g d tag).mem = true := by
  unfold abandonPush
  dsimp only
  split
  · split
    · split
      · exact h
      · exact h
    · exact h
  · exact h
  · exact h

theorem dropCall_wf (g : Nat) : memWf (dropCall s g).mem = true := ite_wf h h

theorem finishThread_wf (g : Nat) : memWf (finishThread s g).mem = true := by
  have hd : memWf (dropCall (endLeaseOf s g) g).mem = true := dropCall_wf (s := endLeaseOf s g) h g
  have hr := rputAbandon_wf (setThread_wf (parkHeld_wf hd g) g {}) g
  have hb := fun b lk f => barrierCheck_wf (modLaunch_wf (vacate_wf hr g false) lk f) b lk
  unfold finishThread
  dsimp only
  exact launchEndCheck_wf (ite_wf (disableFloes_wf (hb _ _ _) _) (hb _ _ _)) _

theorem withdraw_wf (g : Nat) : memWf (withdraw s g).mem = true := by
  unfold withdraw
  dsimp only
  split
  · exact h
  · exact abandonPush_wf (modTile_wf h _ _) _ _ _
  · split
    · split
      · exact abandonPush_wf (putBackAll_wf (s := dropReq s _) h _ _) _ _ _
      · exact putBackAll_wf (s := dropReq s _) h _ _
    · exact h
  · exact h

theorem stopThread_wf (g : Nat) : memWf (stopThread s g).mem = true := by
  have hl : memWf (landPushes (withdraw s g) g).mem = true := withdraw_wf h g
  unfold stopThread
  dsimp only
  split
  · exact h
  · split
    · exact h
    · exact setThread_wf hl g _

theorem stopLaunch_wf (lk code : Nat) : memWf (stopLaunch s lk code).mem = true := by
  have he := launchError_wf h lk code
  unfold stopLaunch
  dsimp only
  split
  · exact h
  · split
    · exact launchRefused_wf h lk code
    · refine launchEndCheck_wf (foldl_wf (fun _ g hu => stopThread_wf hu g) _ ?_) lk
      exact he

theorem restoreThread_wf (g : Nat) : memWf (restoreThread s g).mem = true :=
  ite_wf (takePhys_wf (setThread_wf h g _) g true) h

theorem callRefused_wf (g : Nat) : memWf (callRefused s g).mem = true := ite_wf h h

theorem callDone_wf (g : Nat) : memWf (callDone s g).mem = true := h

theorem endTrapped_wf (g : Nat) : memWf (endTrapped s g).mem = true :=
  ite_wf h (setThread_wf (launchError_wf h _ _) g _)

theorem takeTrap_wf (o : Nat) : memWf (takeTrap s o).mem = true := by
  unfold takeTrap
  split
  · exact ite_wf h h
  · exact h

end

end Sys2Proof.Machine
end

section
/-! PROOFS. The canonical form of memory under power, drift, launches, packets, Firn's registers and the assignment of berths
(spec/16, spec/18, spec/19). -/

namespace Sys2Proof.Machine

open Sys2Proof.Claims

/-! ### Power -/

theorem setPoints_wf (l : List Nat) : ∀ {s : State} (limit : Nat), memWf s.mem = true → memWf (setPoints s limit l).mem = true := by
  induction l with
  | nil => exact fun _ h => h
  | cons T l ih =>
    intro s limit h
    unfold setPoints
    exact ite_wf (ih _ (modTile_wf h T _)) (ih _ h)

theorem spreadSteps_wf (l : List Nat) : ∀ {s : State} (n : Nat), memWf s.mem = true → memWf (spreadSteps s n l).1.mem = true := by
  induction l with
  | nil => exact fun _ h => h
  | cons T l ih =>
    intro s n h
    unfold spreadSteps
    exact ih _ (ite_wf h (modTile_wf h T _))

theorem lowerTiles_wf (l : List Nat) : ∀ {s : State} (n : Nat), memWf s.mem = true → memWf (lowerTiles s n l).1.mem = true := by
  induction l with
  | nil => exact fun _ h => h
  | cons T l ih =>
    intro s n h
    unfold lowerTiles
    dsimp only
    split
    · exact h
    · split
      · exact ih _ h
      · split
        · exact ih _ h
        · exact ih _ (modTile_wf h T _)

theorem raiseTiles_wf (l : List Nat) : ∀ {s : State} (n : Nat), memWf s.mem = true → memWf (raiseTiles s n l).mem = true := by
  induction l with
  | nil => exact fun _ h => h
  | cons T l ih =>
    intro s n h
    unfold raiseTiles
    dsimp only
    split
    · exact ih _ h
    · split
      · exact ih _ (modTile_wf h T _)
      · exact ih _ h

section

variable {s : State} (h : memWf s.mem = true)

include h

theorem readSensor_wf (r : Nat × Nat × Nat) : memWf (readSensor s r).mem = true := h

theorem runSteps_wf (T n : Nat) : memWf (runSteps s T n).mem = true := ite_wf h h

theorem endSteps_wf (d : Nat) : memWf (endSteps s d).mem = true :=
  foldl_wf (fun _ T hu => ite_wf (modTile_wf (runSteps_wf hu T _) T _) hu) _ h

theorem ballastTick_wf (d mW : Nat) : memWf (ballastTick s d mW).mem = true := by
  unfold ballastTick
  dsimp only
  exact modDie_wf (spreadSteps_wf _ _ (endSteps_wf h d)) d _

theorem envelopeTick_wf : memWf (envelopeTick s).mem = true := by
  have hl := lowerTiles_wf (byPower s) (modulePower s) h
  unfold envelopeTick
  dsimp only
  split
  · split
    · split
      · exact stopLaunch_wf hl _ _
      · exact hl
    · exact hl
  · exact raiseTiles_wf _ _ h

theorem watchIdle_wf : memWf (watchIdle s).mem = true := by
  unfold watchIdle
  exact foldl_wf (fun _ T hu => ite_wf hu (modTile_wf hu T _)) _ h

theorem joinInrush_wf (T : Nat) : memWf (joinInrush s T).mem = true := h

theorem placeNow_wf (lk : Nat) (p : Place) : memWf (placeNow lk s p).mem = true := by
  unfold placeNow
  split
  · exact ite_wf h (placeThread_wf h lk p _)
  · exact h

theorem endSwaps_wf : memWf (endSwaps s).mem = true := by
  obtain ⟨⟨_, _, hu⟩, -⟩ := endSwaps_turns s
  rw [hu]
  exact h

theorem resumeAll_wf (freeze : Nat) : memWf (resumeAll s freeze).mem = true := by
  obtain ⟨-, -, -, hm, -⟩ := resumeAll_resumes s freeze
  rwa [hm]

/-! ### Packets -/

theorem takeHead_wf (id : Nat) : memWf (takeHead s id).mem = true := by
  unfold takeHead
  dsimp only
  refine modDie_wf ?_ _ _
  exact putInlet_wf (engineCount_wf h _ _ _) id _

theorem endAtStart_wf (id err : Nat) : memWf (endAtStart s id err).mem = true := by
  unfold endAtStart
  exact completePkt_wf (ite_wf (misuseOwner_wf (takeHead_wf h id) _) (takeHead_wf h id)) _ _ _ _ _ _ _

theorem establishFloes_wf (o : Nat) (r : Named) : memWf (establishFloes s o r).mem = true := by
  unfold establishFloes
  exact ite_wf h (foldl_wf (fun _ p hu => putInlet_wf hu p.1 p.2) _ (ownerWrite_wf (modOwner_wf h o _) _ _ _ _ _))

theorem countReads_wf (w : Who) (l : List (Word × Nat)) : memWf (countReads s w l).mem = true :=
  foldl_wf (fun _ x hu => engineCount_wf hu w x.1 x.2) _ h

theorem putPkt_wf (id : Nat) (p : Pkt) : memWf (putPkt s id p).mem = true := (Noted.putPkt s id p).wf h

theorem tableLaunch_wf (id : Nat) (b : List Byte) (p : Plan) (actors : Bool) : memWf (tableLaunch s id b p actors).1.mem = true := by
  unfold tableLaunch
  dsimp only
  exact putPkt_wf (countReads_wf (setLaunch_wf (modOwner_wf (establishFloes_wf (takeHead_wf h id) _ _) _ _) _ _) _ _) id _

theorem failLaunch_wf (id : Nat) (actors : Bool) (reads : List (Word × Nat)) : memWf (failLaunch s id actors reads).mem = true := by
  unfold failLaunch
  dsimp only
  exact endAtStart_wf (launchError_wf (countReads_wf (setLaunch_wf (modOwner_wf h _ _) _ _) _ _) _ _) id _

theorem startPlan_wf (id : Nat) (b : List Byte) (p : Plan) (actors : Bool) {f : State × Nat → State}
    (hf : ∀ t, memWf t.1.mem = true → memWf (f t).mem = true) : memWf (startPlan s id b p actors f).mem = true :=
  ite_wf (endAtStart_wf h id _) (ite_wf (failLaunch_wf h id actors _) (hf _ (tableLaunch_wf h id b p actors)))

theorem startLaunch_wf (id : Nat) (b : List Byte) : memWf (startLaunch id s b).mem = true := by
  unfold startLaunch
  exact startPlan_wf h id b _ false fun _ ht => ht

theorem bindStage_wf (n lk : Nat) (l : List Binding) (o : Nat) (x : Binding) : memWf (bindStage n lk l s o x).mem = true := h

theorem startActors_wf (id : Nat) (b : List Byte) : memWf (startActors id s b).mem = true := by
  unfold startActors
  exact startPlan_wf h id b _ true fun _ ht => foldl_wf (fun _ x hu => bindStage_wf hu _ _ _ _ x) _ ht

theorem startPacket_wf (id type : Nat) {f : State → List Byte → State} (hf : ∀ b, memWf (f s b).mem = true) :
    memWf (startPacket id type s f).mem = true := by
  unfold startPacket
  exact ite_wf h (ite_wf (endAtStart_wf h id _) (hf _))

theorem beginWatch_wf (id i : Nat) (w : PWait) (sig : Word) (key : Nat) : memWf (beginWatch s id i w sig key).mem = true :=
  (Noted.beginWatch s id i w sig key).wf h

theorem placeWait_wf (id i : Nat) (w : PWait) (sig : Word) : memWf (placeWait s id i w sig).mem = true :=
  (Noted.placeWait s id i w sig).wf h

theorem takeWatch_wf (id i : Nat) (w : PWait) (sig : Word) (key ticket : Nat) :
    memWf (takeWatch s id i w sig key ticket).mem = true := ite_wf (beginWatch_wf h id i w sig key) h

theorem startWait_wf (id : Nat) (b : List Byte) : memWf (startWait id s b).mem = true :=
  ite_wf (endAtStart_wf h id _) (placeWait_wf (takeHead_wf h id) id _ _ _)

theorem doSignal_wf (id i : Nat) (target : Word) (set : Bool) (v sig : Word) :
    memWf (doSignal s id i target set v sig).mem = true := (Noted.doSignal s id i target set v sig).wf h

theorem startSignal_wf (id : Nat) (b : List Byte) : memWf (startSignal id s b).mem = true :=
  ite_wf (endAtStart_wf h id _) (doSignal_wf (takeHead_wf h id) id _ _ _ _ _)

theorem startCopy_wf (id : Nat) (b : List Byte) : memWf (startCopy id s b).mem = true := by
  refine ite_wf (endAtStart_wf h id _) (putPkt_wf ?_ id _)
  exact takeHead_wf h id

theorem engineFault_wf (id requester : Nat) (a : Word) (k : AKind) : memWf (engineFault s id requester a k).mem = true := by
  unfold engineFault
  exact postFault_wf h _ _

theorem stickCopy_wf (id i : Nat) (p : Pkt) (a : Word) (k : AKind) : memWf (stickCopy s id i p a k).mem = true := by
  unfold stickCopy
  exact engineFault_wf (modInlet_wf (putPkt_wf (ite_wf (countWalk_wf h _ a) h) id p) id _) id 3 a k

theorem engineStore_wf (o key n : Nat) (bs : List Byte) : memWf (engineStore s o key n bs).mem = true :=
  ite_wf (unitWrite_wf (countBad_wf h _ _) _ _ _ _) (gateCount_wf h o key)

theorem putUnit_wf (id i : Nat) (src dst : Word) (len next n : Nat) (sig : Word) (err : Nat) (link : CopyLink) (r : ChanRead)
    (key : Nat) : memWf (putUnit s id i src dst len next n sig err link r key).mem = true := by
  have hc := fun o w (b : Bool) => countBad_wf (countDrop_wf (serveBanks_wf h (bankOf key :: r.banks)) o r.dropped) w b
  unfold putUnit
  dsimp only
  exact putPkt_wf (ite_wf (hc _ _ _) (engineStore_wf (hc _ _ _) _ _ _ _)) id _

theorem moveUnit_wf (id i : Nat) (src dst : Word) (len next : Nat) (sig : Word) (err : Nat) (link : CopyLink) :
    memWf (moveUnit s id i src dst len next sig err link).mem = true := by
  unfold moveUnit
  dsimp only
  split
  · exact completePkt_wf h id i sig _ _ _ _
  · split
    · exact h
    · split
      · exact stickCopy_wf h id i _ _ _
      · exact completePkt_wf h id i sig _ _ _ _
      · split
        · exact completePkt_wf h id i sig _ _ _ _
        · exact stickCopy_wf h id i _ _ _
        · split
          · exact completePkt_wf h id i sig _ _ _ _
          · exact ite_wf h (putUnit_wf h id i src dst len next _ sig err link _ _)

theorem retryPkt_wf (id : Nat) (p : Pkt) : memWf (retryPkt s id p).mem = true := (Noted.retryPkt s id p).wf h

theorem convertPkt_wf (id : Nat) (p : Pkt) : memWf (convertPkt s id p).mem = true := (Noted.convertPkt s id p).wf h

theorem popHeld_wf (id : Nat) (copy : Bool) {f : State → Nat → Pkt → State}
    (hf : ∀ u k p, memWf u.mem = true → memWf (f u k p).mem = true) : memWf (popHeld s id copy f).mem = true := by
  unfold popHeld
  dsimp only
  split
  · exact h
  · split
    · exact hf _ _ _ (setInlet_wf h id _)
    · exact h

/-! ### Service and recovery -/

theorem takeFault_wf (d : Nat) : memWf (takeFault s d).mem = true := by
  unfold takeFault
  dsimp only
  split
  · exact ite_wf h h
  · exact h

theorem servedFault_wf (d : Nat) (w : WakeId) : memWf (servedFault d w s).mem = true := h

theorem restartPkt_wf (id : Nat) (p : Pkt) : memWf (restartPkt s id p).mem = true := by
  unfold restartPkt
  split
  · exact completePkt_wf h _ _ _ _ _ _ _
  · exact completePkt_wf h _ _ _ _ _ _ _
  · exact putPkt_wf h id _
  · exact h

theorem restartHead_wf (id : Nat) : memWf (restartHead s id).mem = true := ite_wf h (endAtStart_wf h id _)

theorem restartInlets_wf (d : Nat) : memWf (restartInlets s d).mem = true := by
  unfold restartInlets
  exact foldl_wf (fun _ p hu => restartHead_wf (foldl_wf (fun _ q hv => restartPkt_wf hv p.1 q) _ hu) p.1) _ h

theorem recoverDie_wf (d : Nat) : memWf (recoverDie s d).mem = true := by
  unfold recoverDie
  dsimp only
  exact ite_wf (restartInlets_wf (setDie_wf h d _) d) (foldl_wf (fun _ lk hu => stopLaunch_wf hu lk _) _ (setDie_wf h d _))

theorem recodeFrame_wf (f : Nat) : memWf (recodeFrame s f).mem = true := by
  obtain ⟨l, n, -, hr⟩ := recodeFrame_cases s f
  rw [hr]
  exact memWf_writeList h _ l

theorem giveFrame_wf (f o : Nat) : memWf (giveFrame s f o).mem = true := by
  have hr : ∀ (c : Prop) [Decidable c], memWf (if c then recodeFrame s f else s).mem = true :=
    fun _ _ => ite_wf (recodeFrame_wf h f) h
  unfold giveFrame
  dsimp only
  split
  · exact h
  · exact hr _

theorem writeReg_wf (r : FirnReg) : memWf (writeReg s r).mem = true := by
  cases r with
  | sluice i v => exact ite_wf h h
  | report d k => exact ite_wf h h
  | inlet id o n prio die ring block key => exact ite_wf (putInlet_wf h id _) h
  | root o phys => exact h
  | trapQueue o block => exact tqMirror_wf (modOwner_wf h o _) o
  | trapPolicy o agent => exact h
  | deterministic o on => exact h
  | frameOwner f o => exact giveFrame_wf h f o
  | lock f => exact h

/-! ### Berths and owners -/

theorem wipeBerth_wf (b : Nat) : memWf (wipeBerth s b).mem = true := by
  rw [wipeBerth_mem]
  exact memWfFrom_filter h _

theorem wipeFrames_wf (o : Nat) : memWf (wipeFrames s o).mem = true := memWfFrom_filter h _

theorem drawKey_wf (o : Nat) : memWf (drawKey s o).mem = true := h

theorem unassignOwner_wf (o : Nat) : memWf (unassignOwner s o).mem = true := by
  rw [unassignOwner_mem]
  exact foldl_wf (fun _ b hu => wipeBerth_wf hu b) _ (wipeFrames_wf h o)

theorem leaveBerth_wf (o b : Nat) : memWf (leaveBerth s o b).mem = true := ite_wf (unassignOwner_wf h o) h

omit h in
theorem wipeModule_wf : memWf (wipeModule s).mem = true := rfl

omit h in
theorem bootGood_wf : memWf (bootGood (wipeModule s)).mem = true := by
  obtain ⟨c, v, hv, -, hwiped, -⟩ := bootGood_cases (wipeModule s)
  rw [hv]
  show memWf v.mem = true
  rw [(hwiped (wipeModule_wiped s)).mem]
  rfl

theorem stopOwner_wf (o : Nat) : memWf (stopOwner s o).mem = true := foldl_wf (fun _ lk hu => stopLaunch_wf hu lk _) _ h

theorem settleOwner_wf (o : Nat) : memWf (settleOwner s o).mem = true := by
  refine ite_wf (modOwner_wf ?_ o _) h
  exact foldl_wf (fun _ b hu => wipeBerth_wf hu b) _ (wipeFrames_wf h o)

theorem settleOwners_wf : memWf (settleOwners s).mem = true := foldl_wf (fun _ p hu => settleOwner_wf hu p.1) _ h

/-! ### Moves of the outside -/

theorem turnState_wf (g : Nat) : memWf (turnState s g).mem = true := settleSlots_wf h _

theorem passClocks_wf (c n : Nat) : memWf (passClocks s c n).mem = true := settleSlots_wf h _

theorem moveClock_wf (T n : Nat) : memWf (moveClock s T n).mem = true :=
  ite_wf h (foldl_wf (fun _ _ hu => passClocks_wf hu _ n) _ h)

theorem moveTick_wf (n : Nat) : memWf (moveTick s n).mem = true := by
  unfold moveTick
  refine watchIdle_wf ?_
  exact h

theorem holdEvent_wf (T : Nat) (i : Instr) : memWf (holdEvent s T i).mem = true := ite_wf h h

theorem releaseHeld_wf : memWf (releaseHeld s).mem = true := by
  unfold releaseHeld
  refine foldl_wf (fun u p hu => ?_) _ h
  split
  · exact hu
  · exact hu

theorem firnWrite_wf (phys : Nat) (bytes : List Byte) : memWf (firnWrite s phys bytes).mem = true := by
  unfold firnWrite
  suffices hl : ∀ (l : List Byte) (x : State × Nat), memWf x.1.mem = true →
      memWf (l.foldl (fun (x : State × Nat) b => (unitWrite x.1 x.2 1 b.toNat 255, x.2 + 1)) x).1.mem = true from hl _ _ h
  intro l
  induction l with
  | nil => exact fun _ hx => hx
  | cons b l ih => exact fun x hx => ih _ (unitWrite_wf hx _ _ _ _)

theorem signalScan_wf : memWf (signalScan s).mem = true := h

theorem moveWrite_wf (w : Writer) (addr : Nat) (bytes : List Byte) : memWf (moveWrite s w addr bytes).mem = true := by
  unfold moveWrite
  split
  · exact h
  · exact signalScan_wf (firnWrite_wf h addr bytes)
  · exact signalScan_wf (engineWrite_wf h _ _ bytes)

theorem spoilReg_wf (g reg : Nat) : memWf (spoilReg s g reg).mem = true :=
  ite_wf h (countBad_wf (modThread_wf h g _) _ _)

end

end Sys2Proof.Machine
end

section
/-! PROOFS. The canonical form of memory under the instructions of threads: the meanings that several instructions share, and the
scalar classes (spec/05 to spec/10). -/

namespace Sys2Proof.Machine

open Sys2Proof.Claims

/-! ### Meanings that keep the form -/

/-- Where the meaning of an instruction succeeds, the memory of its state has the canonical form. -/
structure OkWf (x : Except Stop State) : Prop where
  wf : ∀ u, x = .ok u → memWf u.mem = true

/-- Where the outcome is a next state, the memory of that state has the canonical form. -/
structure NextWf (o : Host.Outcome State Fault Refusal) : Prop where
  wf : ∀ u, o = .next u → memWf u.mem = true

namespace OkWf

theorem ok {u : State} (h : memWf u.mem = true) : OkWf (.ok u) := ⟨fun v hv => by
  cases hv
  exact h⟩

theorem pure {u : State} (h : memWf u.mem = true) : OkWf (Pure.pure u) := ok h

theorem error (e : Stop) : OkWf (.error e) := ⟨fun _ hv => by cases hv⟩

theorem throw (e : Stop) : OkWf (MonadExcept.throw e) := error e

theorem bindOf {α : Type} {x : Except Stop α} {f : α → Except Stop State} (hf : ∀ a, x = .ok a → OkWf (f a)) : OkWf (x >>= f) := by
  cases x with
  | error e => exact error e
  | ok a => exact hf a rfl

theorem bind {α : Type} {x : Except Stop α} {f : α → Except Stop State} (hf : ∀ a, OkWf (f a)) : OkWf (x >>= f) :=
  bindOf fun a _ => hf a

theorem ite {c : Prop} [Decidable c] {x y : Except Stop State} (hx : OkWf x) (hy : OkWf y) : OkWf (if c then x else y) := by
  split
  · exact hx
  · exact hy

end OkWf

namespace NextWf

theorem next {u : State} (h : memWf u.mem = true) : NextWf (.next u) := ⟨fun v hv => by
  cases hv
  exact h⟩

theorem fault (f : Fault) : NextWf (.fault f) := ⟨fun _ hv => by cases hv⟩

theorem ite {c : Prop} [Decidable c] {x y : Host.Outcome State Fault Refusal} (hx : NextWf x) (hy : NextWf y) :
    NextWf (if c then x else y) := by
  split
  · exact hx
  · exact hy

/-- An instruction whose meaning keeps the form keeps it, whatever stops it. -/
theorem run {s : State} (h : memWf s.mem = true) {pair : Bool} {f : State → Nat → Except Stop State}
    (hf : ∀ u c, memWf u.mem = true → OkWf (f u c)) : NextWf (runInstr s s.cur pair f) :=
  ⟨fun _ hu => runInstr_wf h hu (hf (landed s) (clockOf s) h).wf⟩

end NextWf

section

variable {s : State} (h : memWf s.mem = true)

include h

/-! ### Results and transfers -/

theorem compute_okWf (g c : Nat) (st : Stall) (lat : Nat) (srcs : List RegNum) (d : RegNum) (f : List Word → Except Stop Word) :
    OkWf (compute s g c st lat srcs d f) :=
  .bind fun _ => .bind fun _ => .pure (retire_wf (writeLater_wf (consume_wf h g _) g _ _ _) g c st false none)

theorem execBc_nextWf (st : Stall) (cc : Cond) (a b : RegNum) (t : Target) : NextWf (execBc st cc a b t s) :=
  .run h fun _ _ hu => .bind fun _ => .pure (retire_wf (consume_wf hu _ _) _ _ _ _ _)

theorem execBcz_nextWf (st : Stall) (cc : ZCond) (a : RegNum) (t : Target) : NextWf (execBcz st cc a t s) :=
  .run h fun _ _ hu => .bind fun _ => .pure (retire_wf (consume_wf hu _ _) _ _ _ _ _)

theorem execCall_nextWf (st : Stall) (t : Target) : NextWf (execCall st t s) :=
  .run h fun _ _ hu => .bind fun _ => .pure (retire_wf (writeLater_wf hu _ _ _ _) _ _ _ _ _)

theorem execCallr_nextWf (st : Stall) (a : RegNum) : NextWf (execCallr st a s) :=
  .run h fun _ _ hu => .bind fun _ => .pure (retire_wf (writeLater_wf (consume_wf hu _ _) _ _ _ _) _ _ _ _ _)

theorem execJr_nextWf (st : Stall) (a : RegNum) : NextWf (execJr st a s) :=
  .run h fun _ _ hu => .bind fun _ => .pure (retire_wf (consume_wf hu _ _) _ _ _ _ _)

theorem execRet_nextWf (st : Stall) : NextWf (execRet st s) :=
  .run h fun _ _ hu => .bind fun _ => .pure (retire_wf (consume_wf hu _ _) _ _ _ _ _)

theorem execLoop_nextWf (st : Stall) (lv : Bool) (a : RegNum) (tg : Target) : NextWf (execLoop st lv a tg s) :=
  .run h fun _ _ hu => .bind fun _ => .ite
    (.bind fun _ => .ite (.throw _) (.pure (retire_wf (modThread_wf (consume_wf hu _ _) _ _) _ _ _ _ _)))
    (.pure (retire_wf (modThread_wf (consume_wf hu _ _) _ _) _ _ _ _ _))

theorem execYield_nextWf (st : Stall) : NextWf (execYield st s) := .run h fun u c hu => by
  have hr := retire_wf hu u.cur c 7 false none
  dsimp only
  split
  · refine .ok (ite_wf hr ?_)
    unfold overflowSwap
    split
    · exact hr
    · exact hr
  · exact .ok hr

theorem execPwait_nextWf (st : Stall) (a : RegNum) : NextWf (execPwait st a s) :=
  .run h fun _ _ hu => .bind fun _ => .bind fun _ => .pure (retire_wf hu _ _ _ _ _)

theorem execIsync_nextWf (st : Stall) : NextWf (execIsync st s) :=
  .run h fun _ _ hu => .bind fun _ => .pure (syncLines_wf (setThread_wf hu _ _) _)

theorem execHalt_nextWf (st : Stall) : NextWf (execHalt st s) := .run h fun _ _ hu => .ok hu

/-- An instruction that writes its destination beside what it holds (R99). -/
theorem rmw_okWf (g c : Nat) (st : Stall) (srcs : List RegNum) (d : RegNum) (v : Opnds → Word) (lat : Nat) :
    OkWf (do
      let o ← operandsRmw s g srcs d
      return retire (writeLater (consume s g o.srcs) g (o.d 0) (v o) (c + lat)) g c st false none) :=
  .bind fun _ => .pure (retire_wf (writeLater_wf (consume_wf h _ _) _ _ _ _) _ _ _ _ _)

/-! ### Accesses -/

theorem memIssue_wf (g c : Nat) (st : Stall) (q : MemAsk) (o : Opnds) (a : Word) (key : Nat) (acc : Access) (pieces : List Piece)
    (ops : List (RegNum × Word)) : memWf (memIssue s g c st q o a key acc pieces ops).mem = true := by
  have hc : memWf (if ops.isEmpty then consume s g o.srcs else consumeKept s g o.srcs).mem = true :=
    ite_wf (consume_wf h g _) (consumeKept_wf h g _)
  have hf := fun (f : State → Piece → State) hf => foldl_wf (f := f) hf pieces hc
  have hsend : ∀ (u : State) (r : Req), memWf u.mem = true → memWf (send u r).mem = true := fun _ _ hu => hu
  unfold memIssue
  dsimp only
  refine ite_wf (retire_wf (modThread_wf (winBank_wf (hsend _ _ (hf _ ?_)) g c _ key) g _) g c st _ none)
    (modThread_wf (winBank_wf (hsend _ _ (hf _ ?_)) g c _ key) g _)
  all_goals
    intro u p hu
    split
    · exact ite_wf (awaitDst_wf hu g _ _) hu
    · exact awaitDst_wf hu g _ _

theorem loadOp_nextWf (st : Stall) (z : Width) (sg : Bool) (d : RegNum) (m : MemArg) (relaxed : Bool) :
    NextWf (loadOp st z sg d m relaxed s) := .run h fun _ _ hu => .bind fun _ => .pure (memIssue_wf hu ..)

theorem storeOp_nextWf (st : Stall) (z : Width) (a : RegNum) (m : MemArg) (relaxed : Bool) : NextWf (storeOp st z a m relaxed s) :=
  .run h fun _ _ hu => .bind fun _ => .pure (memIssue_wf hu ..)

theorem loadPairOp_nextWf (st : Stall) (size : Nat) (d d2 : RegNum) (m : MemArg) (relaxed : Bool) :
    NextWf (loadPairOp st size d d2 m relaxed s) :=
  .run h fun _ _ hu => .bind fun _ => .ite (.throw _) (.bind fun _ => .pure (memIssue_wf hu ..))

theorem storePairOp_nextWf (st : Stall) (size : Nat) (a a2 : RegNum) (m : MemArg) (relaxed : Bool) :
    NextWf (storePairOp st size a a2 m relaxed s) := .run h fun _ _ hu => .bind fun _ => .pure (memIssue_wf hu ..)

theorem leaOp_nextWf (st : Stall) (d : RegNum) (m : MemArg) : NextWf (leaOp st d m s) :=
  .run h fun _ _ hu => .bind fun _ => .bind fun _ => .pure (retire_wf (writeLater_wf (consume_wf hu _ _) _ _ _ _) _ _ _ _ _)

theorem atomicOp_nextWf (st : Stall) (size : Nat) (signed : Bool) (d a : RegNum) (m : MemArg) (f : Word → Access) :
    NextWf (atomicOp st size signed d a m f s) := .run h fun _ _ hu => .bind fun _ => .pure (memIssue_wf hu ..)

theorem sigupOp_nextWf (st : Stall) (set : Bool) (a : RegNum) (m : MemArg) : NextWf (sigupOp st set a m s) :=
  .run h fun _ _ hu => .bind fun _ => .pure (memIssue_wf hu ..)

theorem depOp_nextWf (st : Stall) (src : List RegNum) (m : MemArg) (f : Word → Access) : NextWf (depOp st src m f s) :=
  .run h fun _ _ hu => .bind fun _ => .bind fun _ => .bind fun _ => .bind fun _ => .bind fun _ => .pure (memIssue_wf hu ..)

theorem execRx_nextWf : NextWf (execRx s) := by
  have hbad : NextWf (runInstr s s.cur false fun _ _ => .error illegalInstr) := .run h fun _ _ _ => .error _
  unfold execRx
  dsimp only
  split
  · exact hbad
  · refine .ite hbad ?_
    split
    · exact loadOp_nextWf h ..
    · exact loadOp_nextWf h ..
    · exact loadOp_nextWf h ..
    · exact loadOp_nextWf h ..
    · exact storeOp_nextWf h ..
    · exact storeOp_nextWf h ..
    · exact loadPairOp_nextWf h ..
    · exact storePairOp_nextWf h ..
    · exact hbad

theorem execCas_nextWf (st : Stall) (dbl : Bool) (d a : RegNum) (m : MemOp 38) : NextWf (execCas st dbl d a m s) :=
  .run h fun _ _ hu => .ite (.throw _) (.bind fun _ => .pure (memIssue_wf hu ..))

theorem execSigwait_nextWf (st : Stall) (cc : SigCond) (d a : RegNum) (m : MemOp 40) : NextWf (execSigwait st cc d a m s) :=
  .run h fun _ _ hu => .bind fun _ => .pure (memIssue_wf hu ..)

theorem sendAccepted_wf (g c : Nat) (st : Stall) (a : Word) : memWf (sendAccepted s g c st a).mem = true := h

theorem execDadd_nextWf (st : Stall) (dbl : Bool) (a : RegNum) (m : MemOp 38) : NextWf (execDadd st dbl a m s) :=
  .run h fun _ _ hu => .bind fun _ => .ite (.throw _) (.ite (.throw _) (.pure (sendAccepted_wf (modBarrier_wf (consume_wf hu _ _) _ _) _ _ _ _)))

/-! ### Segments, waits, bank formats -/

theorem execSset_nextWf (st : Stall) (n : BitVec 3) (a b : RegNum) (code : BitVec 6) : NextWf (execSset st n a b code s) :=
  .run h fun _ _ hu => .bind fun _ => .pure (retire_wf (modThread_wf (consume_wf hu _ _) _ _) _ _ _ _ _)

theorem execSadj_nextWf (st : Stall) (lim : Bool) (n : BitVec 3) (a : RegNum) : NextWf (execSadj st lim n a s) :=
  .run h fun _ _ hu => .bind fun _ => .bind fun _ => .pure (retire_wf (modThread_wf (consume_wf hu _ _) _ _) _ _ _ _ _)

/-- An instruction that only waits. -/
theorem waits_nextWf (st : Stall) (l : List Need) : NextWf (runInstr s s.cur false fun s c => do
    require s s.cur l
    return retire s s.cur c st false none) := .run h fun _ _ hu => .bind fun _ => .pure (retire_wf hu _ _ _ _ _)

theorem execBfmt_nextWf (st : Stall) (bank fmt : BitVec 5) : NextWf (execBfmt st bank fmt s) :=
  .run h fun _ _ hu => .ite (.throw _) (.pure (retire_wf (modTile_wf hu _ _) _ _ _ _ _))

/-! ### Barriers -/

theorem execBar_nextWf (st : Stall) : NextWf (execBar st s) :=
  .run h fun _ _ hu => .bind fun _ => .ite (.throw _) (.pure (arrive_wf hu _ _))

theorem execBarReset_nextWf (st : Stall) : NextWf (execBarReset st s) :=
  .run h fun _ _ hu => .ok (retire_wf (ite_wf (modBarrier_wf hu _ _) hu) _ _ _ _ _)

/-- A tag is drawn and the sources are read; a destination queue keeps a place. -/
theorem tagged_wf (g tag : Nat) (d : Dst) (ss : List Src) : memWf (match d with
      | .chain _ | .actor => awaitDst (consume { s with nextId := tag + 1 } g ss) g d tag
      | _ => consume { s with nextId := tag + 1 } g ss).mem = true := by
  have hc : memWf (consume { s with nextId := tag + 1 } g ss).mem = true := consume_wf (s := { s with nextId := tag + 1 }) h g ss
  split
  · exact awaitDst_wf hc g _ tag
  · exact awaitDst_wf hc g _ tag
  · exact hc

theorem execBarto_nextWf (st : Stall) (d a : RegNum) : NextWf (execBarto st d a s) :=
  .run h fun _ _ hu => .bind fun _ => .bind fun _ => .ite
    (.pure (retire_wf (fillDst_wf (tagged_wf hu _ _ _ _) _ _ _ _) _ _ _ _ _)) (.pure (arrive_wf (tagged_wf hu _ _ _ _) _ _))

/-! ### Queues, buffers, copies -/

theorem execQpoll_nextWf (st : Stall) (d a : RegNum) : NextWf (execQpoll st d a s) :=
  .run h fun _ _ hu => .bind fun _ => compute_okWf hu ..

theorem execQcnt_nextWf (st : Stall) (d a : RegNum) : NextWf (execQcnt st d a s) :=
  .run h fun _ _ hu => .bind fun _ => compute_okWf hu ..

theorem execRput_nextWf (st : Stall) (a b : RegNum) (reg : BitVec 14) : NextWf (execRput st a b reg s) := .run h fun u c hu => by
  refine .ite (.throw _) (.bind fun o => ?_)
  have hc := consume_wf hu u.cur o.srcs
  have hmis := retire_wf (misuseBoth_wf hc (whoIn u u.cur)) u.cur c st false none
  dsimp only
  split
  · exact .pure hmis
  · exact .ite (.pure hmis) (.ite (.ite (.throw _) (.pure (retire_wf (modThread_wf hc _ _) _ _ _ _ _))) (.pure hc))

theorem copyStart_okWf (g c : Nat) (st : Stall) (ch : BitVec 2) (buf : Nat) (cf : Option (Fin 32)) (srcs : List Src) (p : CopyPlan) :
    OkWf (copyStart s g c st ch buf cf srcs p) := by
  have hq : ∀ f, memWf ((consume { s with nextId := s.nextId + 1 } g srcs).modTile (tileOf g) f).mem = true :=
    fun f => modTile_wf (consume_wf (s := { s with nextId := s.nextId + 1 }) h g srcs) _ f
  unfold copyStart
  dsimp only
  refine .ite (.throw _) (.bind fun _ => .ite (.throw _) (.ite (.throw _) (.ite (.throw _) (.ite (.throw _) (.bind fun _ =>
    .pure (retire_wf ?_ _ _ _ _ _))))))
  split
  · exact awaitDst_wf (hq _) g _ _
  · exact hq _

theorem execCpy_nextWf (st : Stall) (ch : BitVec 2) (cf : Bool) (buf len : RegNum) (m : MemOp 40) :
    NextWf (execCpy st ch cf buf len m s) :=
  .run h fun _ _ hu => .ite (.throw _) (.bind fun _ => .bind fun _ => .bind fun _ => .bind fun _ => copyStart_okWf hu ..)

theorem execCpy2_nextWf (st : Stall) (ch : BitVec 2) (cf : Bool) (buf a b cc : RegNum) (seg : BitVec 3) :
    NextWf (execCpy2 st ch cf buf a b cc seg s) :=
  .run h fun _ _ hu => .ite (.throw _) (.bind fun _ => .bind fun _ => .bind fun _ => copyStart_okWf hu ..)

theorem indexCopy_nextWf (st : Stall) (ch : BitVec 2) (cf : Bool) (buf a b cc : RegNum) (seg : BitVec 3) (scatter : Bool) :
    NextWf (indexCopy st ch cf buf a b cc seg scatter s) :=
  .run h fun _ _ hu => .ite (.throw _) (.bind fun _ => .bind fun _ => .bind fun _ => .ite
    (.bind fun _ => copyStart_okWf hu ..) (.bind fun _ => copyStart_okWf hu ..))

theorem execBufdecl_nextWf (st : Stall) (buf len : RegNum) (m : MemOp 40) : NextWf (execBufdecl st buf len m s) :=
  .run h fun _ _ hu => .ite (.throw _) (.bind fun _ => .bind fun _ => .bind fun _ => .ite (.throw _) (.ite (.throw _)
    (.pure (retire_wf (modTile_wf (consume_wf hu _ _) _ _) _ _ _ _ _))))

theorem execBufset_nextWf (st : Stall) (e : BufEvent) (buf : BitVec 5) : NextWf (execBufset st e buf s) := .run h fun u c hu => by
  dsimp only
  split
  · exact .throw _
  · exact .pure (retire_wf (modTile_wf hu _ _) _ _ _ _ _)

end

end Sys2Proof.Machine
end

section
/-! PROOFS. The canonical form of memory under the vector, matrix, task, floe and system instructions (spec/12 to spec/15,
spec/17). -/

namespace Sys2Proof.Machine

open Sys2Proof.Claims

section

variable {s : State} (h : memWf s.mem = true)

include h

/-! ### Vector and matrix -/

theorem vectorIssue_nextWf (st : Stall) (i : Instr) (q : VAsk) : NextWf (vectorIssue st i q s) := .run h fun u c hu => by
  have hn : memWf { u with nextId := u.nextId + 1 }.mem = true := hu
  have hv := fun d ss => vecAwait_wf (ite_wf (c := q.mem = true) (consumeKept_wf hn u.cur ss) (consume_wf hn u.cur ss)) u.cur q d u.nextId
  exact .ite (.throw _) (.bind fun _ => .bind fun _ => .pure (ite_wf (modThread_wf (modCore_wf (hv _ _) _ _) _ _)
    (retire_wf (modCore_wf (hv _ _) _ _) _ _ _ _ _)))

theorem matrixIssue_nextWf (i : Instr) (m : Option MemArg) (g2 : List RegNum) : NextWf (matrixIssue i m g2 s) := .run h fun u c hu => by
  have hk := fun ss => consumeKept_wf (s := { u with nextId := u.nextId + 1 }) hu u.cur ss
  refine .bind fun o => ?_
  split
  · exact .throw _
  · exact .ite (.throw _) (.bind fun _ => .pure (hk _))

theorem execMlease_nextWf (st : Stall) (n : BitVec 14) : NextWf (execMlease st n s) :=
  .run h fun _ _ hu => .ite (.throw _) (.bind fun _ => .pure hu)

theorem execMrel_nextWf (st : Stall) : NextWf (execMrel st s) :=
  .run h fun u _ hu => .ok (retire_wf (s := endLease u _ _) hu _ _ _ _ _)

theorem execMwait_nextWf (st : Stall) : NextWf (execMwait st s) :=
  .run h fun _ _ hu => .ite (.ok (retire_wf hu _ _ _ _ _)) (.ok (modThread_wf hu _ _))

/-! ### Tasks -/

theorem execSpawn_nextWf (st : Stall) (a b : RegNum) (tg : Target) : NextWf (execSpawn st a b tg s) := .run h fun u c hu => by
  refine .bind fun o => ?_
  dsimp only
  split
  · exact .throw _
  · exact .pure (retire_wf (modThread_wf (consume_wf (putDeque_wf hu _ _) _ _) _ _) _ _ _ _ _)

theorem execTjoin_nextWf (st : Stall) : NextWf (execTjoin st s) := .run h fun u c hu => by
  refine .bind fun _ => ?_
  dsimp only
  split
  · exact .pure (retire_wf hu _ _ _ _ _)
  · refine .bind fun _ => ?_
    have hp := portsDone_wf hu u.cur (cellReads u u.cur ‹_›)
    exact .ite (.pure (retire_wf (modThread_wf (cellWrite_wf hp _ _ _ _ _) _ _) _ _ _ _ _))
      (.pure (becomeWorker_wf (dataErrors_wf (modThread_wf (engineWrite_wf hp _ _ _) _ _) _ _) _ _ _ _))

theorem execTret_nextWf (st : Stall) : NextWf (execTret st s) := .run h fun u c hu => by
  have hr := refillDeque_wf hu (coreOf u.cur)
  refine .bind fun _ => ?_
  dsimp only
  split
  · exact .pure (becomeWorker_wf (modThread_wf hu _ _) _ _ _ _)
  · exact .bind fun _ => .pure (tretTake_wf (portsDone_wf hr _ _) _ _ _ _ _)

theorem waitwOp_nextWf (st : Stall) (steal : Bool) : NextWf (waitwOp st steal s) :=
  .run h fun _ _ hu => .bind fun _ => .pure (becomeWorker_wf hu _ _ _ _)

theorem execTpost_nextWf (st : Stall) (a b : RegNum) (tg : Target) : NextWf (execTpost st a b tg s) :=
  .run h fun _ _ hu => .bind fun _ => .bind fun _ => .pure (retire_wf (dispPost_wf (consume_wf hu _ _) _ _) _ _ _ _ _)

/-! ### Floes -/

/-- Reading an image through a port keeps the form. -/
theorem imageLoad_wf {g : Nat} {off : Word} {n align : Nat} {slot : Option Nat} {x : Word × List Byte × State}
    (hx : imageLoad s g off n align slot = .ok x) : memWf x.2.2.mem = true := by
  obtain ⟨banks, hw⟩ := imageLoad_written s g off n align slot x hx
  exact hw.wf h

theorem servePort_wf (g : Nat) (banks : List Nat) : memWf (servePort s g banks).mem = true := h

theorem setSlot_wf (T j : Nat) (x : FSlot) : memWf (setSlot s T j x).mem = true := h

theorem slotGet_nextWf (st : Stall) (d a : RegNum) (f : State → Nat → Except Stop (Nat × Nat × Bool)) : NextWf (slotGet st d a f s) :=
  .run h fun _ _ hu => .bind fun _ => .bind fun _ => .bind fun _ => .bind fun _ => .bind fun _ => .pure
    (retire_wf (fillNow_wf (consume_wf (countBad_wf (servePort_wf hu _ _) _ _) _ _) _ _ _ _) _ _ _ _ _)

theorem handleOp_nextWf (st : Stall) (a : RegNum) (behind : Bool) {f : State → Nat → State}
    (hf : ∀ u j, memWf u.mem = true → memWf (f u j).mem = true) : NextWf (handleOp st a behind f s) :=
  .run h fun _ _ hu => .bind fun _ => .bind fun _ => .bind fun _ => .ite
    (.bind fun _ => .pure (retire_wf (hf _ _ (consume_wf hu _ _)) _ _ _ _ _)) (.pure (retire_wf (hf _ _ (consume_wf hu _ _)) _ _ _ _ _))

theorem rewriteOp_nextWf (st : Stall) (a : RegNum) (b : Option RegNum)
    (f : Nat → Nat → List (List Byte) → List Byte → Option (Nat × Nat × List (List Byte))) : NextWf (rewriteOp st a b f s) :=
  .run h fun u c hu => by
    have hdone : ∀ {z : State} (a : Word), memWf z.mem = true → memWf (if b.isSome then portDone z u.cur a else z).mem = true :=
      fun a hz => ite_wf (portDone_wf hz u.cur a) hz
    refine .bind fun o => .bind fun _ => .bind fun j => ?_
    dsimp only
    split
    on_goal 1 => refine .bindOf fun img himg => .ite (.throw _) (.ite (.throw _) ?_)
    on_goal 1 => have hi := imageLoad_wf hu himg
    on_goal 2 => refine .bindOf fun img himg => .ite (.throw _) (.ite (.throw _) ?_)
    on_goal 2 => have hi : memWf img.2.2.mem = true := by cases himg; exact hu
    all_goals
      split
      · exact .throw _
      · exact .pure (retire_wf (writeItinerary_wf (consume_wf (hdone _ hi) _ _) _ _ _ _ _ _) _ _ _ _ _)

theorem execFlnew_nextWf (st : Stall) (d a : RegNum) : NextWf (execFlnew st d a s) := .run h fun u c hu => by
  refine .bind fun o => .bind fun _ => .bind fun head => .bindOf fun src hsrc => .bind fun _ => .ite (.throw _) ?_
  have hs := consume_wf (portDone_wf (imageLoad_wf hu hsrc) u.cur src.1) u.cur o.srcs
  dsimp only
  generalize consume (portDone src.2.2 u.cur src.1) u.cur o.srcs = v at hs ⊢
  refine .ite (.pure (retire_wf (fillNow_wf (misuseBoth_wf hs _) _ _ _ _) _ _ _ _ _)) (.pure (retire_wf (fillNow_wf ?_ _ _ _ _) _ _ _ _ _))
  exact modTile_wf (setSlot_wf (slotWrite_wf hs _ _ _ _ _) _ _ _) _ _

theorem execFlput_nextWf (st : Stall) (z : Width) (a b : RegNum) (off : BitVec 12) : NextWf (execFlput st z a b off s) :=
  .run h fun _ _ hu => .bind fun _ => .bind fun _ => .bind fun _ => .ite (.throw _)
    (.pure (retire_wf (slotWrite_wf (consume_wf hu _ _) _ _ _ _ _) _ _ _ _ _))

theorem execFlrecv_nextWf (st : Stall) (d : RegNum) : NextWf (execFlrecv st d s) := .run h fun u c hu => by
  have ha : ∀ e, memWf (awaitDst { u with nextId := u.nextId + 1 } u.cur e u.nextId).mem = true :=
    fun e => awaitDst_wf (s := { u with nextId := u.nextId + 1 }) hu u.cur e u.nextId
  refine .bind fun o => .bind fun _ => ?_
  dsimp only
  refine .pure (modThread_wf (modTile_wf ?_ _ _) _ _)
  split
  · exact ha _
  · exact ha _
  · exact hu

theorem execFlresume_nextWf (st : Stall) (a : RegNum) : NextWf (execFlresume st a s) :=
  .run h fun _ _ hu => .bind fun _ => .bind fun _ => .ite (.throw _) (.ite (.throw _)
    (.pure (retire_wf (resumeEntry_wf (consume_wf hu _ _) _ _) _ _ _ _ _)))

theorem sendSlot_wf (g j : Nat) : memWf (sendSlot s g j).mem = true := h

theorem execFlnext_nextWf (st : Stall) (a : RegNum) : NextWf (execFlnext st a s) :=
  handleOp_nextWf h st a false fun _ _ hu => ite_wf (setSlot_wf (slotWrite_wf hu _ _ _ _ _) _ _ _)
    (sendSlot_wf (slotWrite_wf hu _ _ _ _ _) _ _)

/-! ### System -/

theorem execSethnd_nextWf (st : Stall) (a : RegNum) : NextWf (execSethnd st a s) :=
  .run h fun _ _ hu => .bind fun _ => .pure (retire_wf (modThread_wf (consume_wf hu _ _) _ _) _ _ _ _ _)

theorem execHret_nextWf (st : Stall) : NextWf (execHret st s) :=
  .run h fun _ _ hu => .ite (.error _) (.ok (retire_wf (modThread_wf hu _ _) _ _ _ _ _))

theorem execRdsys_nextWf (st : Stall) (d : RegNum) (idx : BitVec 14) : NextWf (execRdsys st d idx s) := .run h fun u c hu => by
  split
  · exact .error _
  · exact compute_okWf hu ..

theorem execWrsys_nextWf (st : Stall) (a : RegNum) (idx : BitVec 14) : NextWf (execWrsys st a idx s) :=
  .run h fun _ _ hu => .ite (.throw _) (.bind fun _ => .pure (retire_wf (modThread_wf (consume_wf hu _ _) _ _) _ _ _ _ _))

theorem execFail_nextWf (st : Stall) (code : BitVec 14) : NextWf (execFail st code s) :=
  .run h fun _ _ hu => .ok (ownerTrap_wf (launchError_wf hu _ _) _ _ _ _ _)

end

end Sys2Proof.Machine
end

section
/-! PROOFS. The canonical form of memory under every event (spec/07 to spec/19). -/

namespace Sys2Proof.Machine

open Sys2Proof.Claims

section

variable {s : State} (h : memWf s.mem = true)

include h

/-! ### Threads, requests and walks -/

theorem becomeReady_wf (g : Nat) : memWf (becomeReady s g).mem = true := h

theorem dropReq_wf (id : Nat) : memWf (dropReq s id).mem = true := h

theorem execHaltCompletion_nextWf (g : Nat) : NextWf (execHaltCompletion g s) :=
  .ite (.next (ite_wf (finishThread_wf h g) h)) (.fault _)

theorem execParkConditionMet_nextWf (g : Nat) : NextWf (execParkConditionMet g s) := by
  refine .ite (.ite (.next (portGo_wf h g)) ?_) (.fault _)
  split
  · exact .next (ite_wf h (ite_wf (becomeReady_wf h g) (portAsk_wf h g _ _)))
  · exact .next (ite_wf (becomeReady_wf h g) h)
  · exact .next (ite_wf (resumeRetire_wf h g) h)
  · exact .next (ite_wf (trapTake_wf h g _) h)
  · exact .next (ite_wf (dropThread_wf h g _ _) h)
  · exact .next h

theorem execLineFetchArrival_nextWf (g : Nat) : NextWf (execLineFetchArrival g s) := by
  refine .ite ?_ (.fault _)
  split
  · exact .next h
  · have hl := storeLine_wf (dropReq_wf (countLate_wf h ‹_›) (Req.id ‹_›)) ‹_›
    exact .next (ite_wf (enterFetched_wf hl g _ _) hl)

theorem completeIf_nextWf (id : Nat) (ok : Req → Bool) : NextWf (completeIf id s ok) := by
  unfold completeIf
  split
  · exact .next h
  · refine .next (ite_wf ?_ h)
    cases hc : completion s _ with
    | none => exact h
    | some u => exact completion_wf h hc

theorem execBankAccessPerform_nextWf (id : Nat) : NextWf (execBankAccessPerform id s) := by
  unfold execBankAccessPerform
  split
  · exact .next h
  · exact .ite (.next h) (.next (performTurn_wf h _))

theorem execPageWalkComplete_nextWf (g : Nat) : NextWf (execPageWalkComplete g s) := by
  refine .ite ?_ (.fault _)
  split
  · exact .next (walkOn_wf (dropReq_wf (countLate_wf h _) _) g _)
  · split
    · exact .next (ite_wf h (walkEnd_wf (ite_wf h (countWalk_wf h _ _)) g _ _ _))
    · exact .next h

theorem queueFault_wf (d : Nat) (r : FRec) : memWf (queueFault s d r).mem = true := memWf_writeList h _ _

theorem execFaultRecordPost_nextWf (d : Nat) : NextWf (execFaultRecordPost d s) := by
  refine .ite ?_ (.fault _)
  dsimp only
  split
  · exact .next (ite_wf (queueFault_wf (setDie_wf h d _) d _) h)
  · exact .next h

theorem execWakeRegisterWrite_nextWf (d : Nat) (w : WakeId) : NextWf (execWakeRegisterWrite d w s) := by
  have hv := servedFault_wf (modDie_wf h d fun x => { x with wake := some w }) d w
  refine .ite (.ite (.next h) ?_) (.fault _)
  dsimp only
  split
  · split
    · exact .next hv
    · exact .next hv
  · split
    · exact .next hv
    · exact .next hv
  · split
    · exact .next (popHeld_wf hv _ _ fun _ _ _ hu => retryPkt_wf hu _ _)
    · exact .next hv
  · split
    · exact .next (popHeld_wf hv _ _ fun _ _ _ hu => retryPkt_wf hu _ _)
    · exact .next hv
  · exact .next hv

theorem execConvertRegisterWrite_nextWf (d : Nat) (w : WakeId) : NextWf (execConvertRegisterWrite d w s) := by
  have hv := servedFault_wf (modDie_wf h d fun x => { x with convert := some w }) d w
  refine .ite (.ite (.next h) ?_) (.fault _)
  dsimp only
  split
  · split
    · split
      · exact .next (ownerTrap_wf hv _ _ _ _ _)
      · exact .next hv
    · exact .next hv
  · split
    · exact .next hv
    · exact .next hv
  · split
    · exact .next (popHeld_wf hv _ _ fun _ _ _ hu => convertPkt_wf hu _ _)
    · exact .next hv
  · split
    · exact .next (popHeld_wf hv _ _ fun _ _ _ hu => convertPkt_wf hu _ _)
    · exact .next hv
  · exact .next hv

theorem execShootdownComplete_nextWf (d : Nat) : NextWf (execShootdownComplete d s) := by
  refine .ite ?_ (.fault _)
  split
  · exact .next h
  · exact .ite (.next h) (.next h)

theorem takeWatchFor_wf (r : Req) : memWf (takeWatchFor s r).mem = true := by
  rw [takeWatchFor_mem]
  exact h

theorem execWatchAllocated_nextWf (id : Nat) : NextWf (execWatchAllocated id s) := by
  unfold execWatchAllocated
  split
  · exact .next h
  · exact .ite (.next (takeWatchFor_wf h _)) (.next h)

/-! ### Barriers, queues, copies -/

theorem execBartoLimitExpiry_nextWf (berth lk : Nat) : NextWf (execBartoLimitExpiry berth lk s) :=
  .ite (.ite (.next h) (.ite (.next (breakOut_wf h _)) (.next (breakOut_wf (discardContribs_wf (setBarrier_wf h _ _) _) _)))) (.fault _)

theorem execBarrierRelease_nextWf (berth lk : Nat) : NextWf (execBarrierRelease berth lk s) :=
  .ite (.ite (.next h) (.next (barrierCheck_wf (foldl_wf (fun _ a hu => releaseOne_wf hu 0 a) _ (setBarrier_wf h _ _)) _ _))) (.fault _)

theorem execQueueEntryArrival_nextWf (core dir : Nat) : NextWf (execQueueEntryArrival core dir s) := by
  refine .ite (.ite (.next h) ?_) (.fault _)
  split
  · split
    · exact .next h
    · exact .next h
  · split
    · exact .next h
    · exact .next h

theorem execActorCreditReturn_nextWf (core : Nat) : NextWf (execActorCreditReturn core s) := .ite (.ite (.next h) (.next h)) (.fault _)

theorem execRputDelivery_nextWf (id : Nat) : NextWf (execRputDelivery id s) := by
  have hd : ∀ (x : Rput) f, memWf (endRput (s.modThread x.target f) x).mem = true := fun x f => endRput_wf (modThread_wf h x.target f) x
  unfold execRputDelivery
  split
  · exact .next h
  · refine .ite (.next h) (.ite (.next (misuseBoth_wf (endRput_wf h _) _)) ?_)
    split
    · exact .ite (.next (hd _ _)) (.next h)
    · exact .ite (.next (hd _ _)) (.next h)

theorem execCopyAcceptance_nextWf (T ch : Nat) : NextWf (execCopyAcceptance T ch s) := by
  refine .ite ?_ (.fault _)
  dsimp only
  split
  · exact .next h
  · exact .ite (.next h) (.next (modTile_wf h T _))

theorem execCopyUnitWrite_nextWf (T ch : Nat) : NextWf (execCopyUnitWrite T ch s) := by
  have hc : memWf (if (firstUnit s T ch).isNone then copyHand s T ch else s).mem = true := ite_wf (copyHand_wf h T ch) h
  refine .ite ?_ (.fault _)
  dsimp only
  split
  · exact .next hc
  · exact .ite (.next hc) (.next (performTurn_wf hc _))

theorem copyPointer_wf (T ch n : Nat) : memWf (copyPointer s T ch n).mem = true := h

theorem execCopyCompletion_nextWf (T ch : Nat) : NextWf (execCopyCompletion T ch s) := by
  refine .ite ?_ (.fault _)
  split
  · exact .next h
  · refine .ite (.next h) ?_
    have hc : ∀ (x : Copy) f, memWf (copyMisuse ((copyPointer s T ch x.n).modTile T f) x).mem = true :=
      fun x f => copyMisuse_wf (modTile_wf (copyPointer_wf h T ch x.n) T f) x
    dsimp only
    split
    · exact .next (ite_wf (modThread_wf (hc _ _) _ _) (hc _ _))
    · exact .next (hc _ _)

/-! ### Vector unit and matrix array -/

theorem vmemTaken_wf (w : Who) (n : Nat) (o : VOp) (q : VMemOp) (a : VAcc) (l : List (RegNum × Word)) :
    memWf (freeFields (vmemAccept (dataErrors s w n) o q a) o.g l).mem = true :=
  freeFields_wf (vmemAccept_wf (dataErrors_wf h w n) o q a) o.g l

theorem execVectorAcceptance_nextWf (T : Nat) : NextWf (execVectorAcceptance T s) := by
  have hq : ∀ c f k, memWf ((s.modCore c f).modTile T k).mem = true := fun c f k => modTile_wf (modCore_wf h c f) T k
  refine .ite (.ite (.next h) ?_) (.fault _)
  split
  · exact .next h
  · dsimp only
    split
    · exact .next h
    · split
      · exact .next (modTile_wf (dataErrors_wf (hq _ _ _) _ _) T _)
      · split
        · exact .next (ite_wf (resumeRetire_wf (vmemTaken_wf (hq _ _ _) _ _ _ _ _ _) _) (vmemTaken_wf (hq _ _ _) _ _ _ _ _ _))
        · exact .next (applyStop_wf (putBackAll_wf (modThread_wf (hq _ _ _) _ _) _ _) _ _ _ _)

theorem execVectorResultWrite_nextWf (T : Nat) : NextWf (execVectorResultWrite T s) := by
  refine .ite ?_ (.fault _)
  split
  · exact .next h
  · exact .next (vecFill_wf (modTile_wf h T _) _)

theorem execLeaseGrant_nextWf (T : Nat) : NextWf (execLeaseGrant T s) := by
  refine .ite ?_ (.fault _)
  dsimp only
  split
  · exact .ite (.next h) (.ite (.next (grantLease_wf h T _)) (.next (ite_wf (grantLease_wf (rampAsk_wf h _) T _) (rampAsk_wf h _))))
  · exact .next h

theorem modMx_wf (T : Nat) (f : Matrix → Matrix) : memWf (modMx s T f).mem = true := h

theorem execMatrixCommandAcceptance_nextWf (T : Nat) : NextWf (execMatrixCommandAcceptance T s) := by
  refine .ite ?_ (.fault _)
  dsimp only
  split
  · exact .next h
  · refine .ite (.next h) ?_
    have hb : ∀ l, memWf (serveBanks s l).mem = true := serveBanks_wf h
    split
    · have hm : ∀ l (n : Nat) (f : Matrix → Matrix), memWf (modMx { serveBanks s l with nextId := n } T f).mem = true :=
        fun l n f => hb l
      have hr := fun l n f w e k a c g q => freeFields_wf (matrixReads_wf (dataErrors_wf (hm l n f) w e) k a c) g q
      exact .next (ite_wf (resumeRetire_wf (hr _ _ _ _ _ _ _ _ _ _) _) (hr _ _ _ _ _ _ _ _ _ _))
    · exact .ite (.next (applyStop_wf (putBackAll_wf (modThread_wf (modMx_wf (hb _) T _) _ _) _ _) _ _ _ _))
        (.next (freeFields_wf (modMx_wf (hb _) T _) _ _))

theorem execMatrixCommandExecution_nextWf (T : Nat) : NextWf (execMatrixCommandExecution T s) := by
  have ht : ∀ t, memWf { s with traffic := t }.mem = true := fun _ => h
  refine .ite ?_ (.fault _)
  split
  · exact .next h
  · exact .ite (.next h) (.next (modMx_wf (matrixEffect_wf (ht _) T _ _) T _))

/-! ### Tasks and placement -/

theorem execStealRequest_nextWf (g victim : Nat) : NextWf (execStealRequest g victim s) := by
  refine .ite (.ite (.next h) (.ite (.next h) (.ite (.next (portsAsk_wf h g _)) (.next ?_)))) (.fault _)
  have hp : ∀ l f, memWf ((portsDone s g l).modThread g f).mem = true := fun l f => modThread_wf (portsDone_wf h g l) g f
  cases hs : stealTake _ g victim with
  | none => exact portsDone_wf h g _
  | some u => exact stealTake_wf (hp _ _) hs

theorem execDispenserPlacement_nextWf (T : Nat) : NextWf (execDispenserPlacement T s) := by
  refine .ite ?_ (.fault _)
  dsimp only
  split
  · exact .next (ite_wf h h)
  · split
    · exact .next h
    · exact .next (ite_wf h (ite_wf h (ite_wf (portsAsk_wf h _ _) (giveRecord_wf h T _ _ _ _))))

theorem execLaunchRecordPlacement_nextWf (lk : Nat) : NextWf (execLaunchRecordPlacement lk s) := by
  unfold execLaunchRecordPlacement
  split
  · exact .next h
  · exact .ite (.next h) (.ite (.next (placeThread_wf h lk _ _)) (.ite (.next h)
      (.next (ite_wf (placeThread_wf (rampAsk_wf h _) lk _ _) (rampAsk_wf h _)))))

/-! ### Floes -/

theorem execFloeDeparture_nextWf (T j : Nat) : NextWf (execFloeDeparture T j s) := by
  refine .ite ?_ (.fault _)
  split
  · exact .ite (.next h) (.next (departFloe_wf (setSlot_wf (takeImage_wf h T j) T j _) T _ _ _))
  · exact .next h

theorem execFloeArrival_nextWf (id : Nat) : NextWf (execFloeArrival id s) := by
  have hf : ∀ l, memWf { s with floes := l }.mem = true := fun _ => h
  unfold execFloeArrival
  split
  · exact .next h
  · exact .ite (.next h) (.next (arriveFloe_wf (hf _) _ _))

theorem execFloeRefill_nextWf (T : Nat) : NextWf (execFloeRefill T s) := by
  refine .ite ?_ (.fault _)
  dsimp only
  split
  · exact .next (ite_wf h h)
  · split
    · exact .next h
    · exact .next (ite_wf h (ite_wf (modTile_wf h T _) (refillSlot_wf h T _ _ _)))

theorem execFloeClaim_nextWf (T : Nat) : NextWf (execFloeClaim T s) := by
  refine .ite ?_ (.fault _)
  split
  · refine .ite (.next h) ?_
    split
    · dsimp only
      split
      · exact .next (portAsk_wf h _ _ _)
      · refine .next ?_
        split
        · exact parkSlot_wf (stationRead_wf h _ _) T _ _
        · exact claimFloe_wf (stationRead_wf h _ _) _ _ _ _ _
    · exact .next h
  · exact .next h

theorem setFloe_wf (f : Floe) : memWf (setFloe s f).mem = true := h

theorem execMemoryStop_nextWf (id : Nat) : NextWf (execMemoryStop id s) := by
  unfold execMemoryStop
  split
  · exact .next h
  · refine .ite (.next h) ?_
    split
    · exact .next (ite_wf h (setFloe_wf h _))
    · exact .next (ite_wf h (ite_wf (stopFail_wf h _ _ _) (ite_wf (ite_wf h (stopEnd_wf h _))
        (ite_wf (setFloe_wf h _) (stopMove_wf h _ _)))))

/-! ### Power, gating, slots, drift -/

theorem execSluiceTick_nextWf (d mW : Nat) (l : List (Nat × Nat × Nat)) : NextWf (execSluiceTick d mW l s) := by
  have hb := fun q => modDie_wf (ballastTick_wf (foldl_wf (fun _ r hu => readSensor_wf hu r) q h) d mW) d
  have hs := fun q f p => foldl_wf (f := fun s lk => stopLaunch s lk 0x23) (fun _ lk hu => stopLaunch_wf hu lk 0x23) p (hb q f)
  exact .ite (.ite (.next h) (.next (setPoints_wf _ _ (ite_wf (envelopeTick_wf (hs _ _ _)) (hs _ _ _))))) (.fault _)

theorem execRampSlotGrant_nextWf (d : Nat) : NextWf (execRampSlotGrant d s) := by
  have hw := settleWaits_wf h d
  refine .ite ?_ (.fault _)
  dsimp only
  split
  · exact .next hw
  · refine .ite (.next hw) ?_
    split
    · exact .next (placeThread_wf (rampTake_wf hw d _ _) _ _ _)
    · exact .next (grantLease_wf (rampTake_wf hw d _ _) _ _)
    · exact .next hw

theorem execPinnedLaunchAdmission_nextWf (lk : Nat) : NextWf (execPinnedLaunchAdmission lk s) := by
  have hc : ∀ (l : List Nat) (f : Nat → Die → Die) k,
      memWf ((l.foldl (fun u d => u.modDie d (f d)) s).modLaunch lk k).mem = true :=
    fun l f k => modLaunch_wf (foldl_wf (fun _ d hu => modDie_wf hu d _) l h) lk k
  have hp : ∀ (c : Prop) [Decidable c] (l m : List Nat) (f : Nat → Die → Die) k, memWf (if c then
      m.foldl (fun u T => u.modTile T fun x => { x with point := 0 }) ((l.foldl (fun u d => u.modDie d (f d)) s).modLaunch lk k)
      else (l.foldl (fun u d => u.modDie d (f d)) s).modLaunch lk k).mem = true :=
    fun c _ l m f k => ite_wf (foldl_wf (fun _ T hu => modTile_wf hu T _) m (hc l f k)) (hc l f k)
  exact .ite (.next h) (.ite (.next (launchRefused_wf h lk _)) (.next (foldl_wf (fun _ p hu => placeNow_wf hu lk p) _ (hp _ _ _ _ _))))

theorem execTileGate_nextWf (T : Nat) : NextWf (execTileGate T s) := .ite (.ite (.next h) (.next h)) (.fault _)

theorem execGateHoldExpiry_nextWf (T : Nat) : NextWf (execGateHoldExpiry T s) := .ite (.next (ite_wf (joinInrush_wf h T) h)) (.fault _)

theorem execTileWakeRequest_nextWf (T : Nat) : NextWf (execTileWakeRequest T s) := by
  have hw := modTile_wf h T fun x => { x with wake := true }
  exact .ite (.ite (.next h) (.next (ite_wf (joinInrush_wf hw T) hw))) (.fault _)

theorem execInrushGrant_nextWf (d : Nat) : NextWf (execInrushGrant d s) := by
  refine .ite ?_ (.fault _)
  dsimp only
  split
  · exact .next h
  · exact .ite (.next h) (.next h)

theorem execPreemption_nextWf (g : Nat) : NextWf (execPreemption g s) := by
  have hl : ∀ (c : Bool), memWf (landPushes (if c then withdraw s g else s) g).mem = true := fun c => by
    have hw : memWf (if c then withdraw s g else s).mem = true := ite_wf (withdraw_wf h g) h
    exact hw
  exact .ite (.ite (.next h) (.next (vacate_wf (setThread_wf (hl _) g _) g true))) (.fault _)

theorem execDriftFreeze_nextWf : NextWf (execDriftFreeze s) := by
  refine .ite (.next h) (.next (foldl_wf (fun _ d hu => modDie_wf hu d _) _ ?_))
  exact endSwaps_wf h

/-! ### Traps and recovery -/

theorem execTrapRecordAppend_nextWf (o : Nat) : NextWf (execTrapRecordAppend o s) := by
  refine .ite ?_ (.fault _)
  dsimp only
  split
  · exact .next (ite_wf (tqAppend_wf (setOwner_wf h o _) o _) h)
  · exact .next h

theorem endWork_wf (d : Nat) (w : Work) : memWf (endWork s d w).mem = true := h

theorem execTrapRecordService_nextWf (o : Nat) : NextWf (execTrapRecordService o s) := by
  have ht := takeTrap_wf h o
  have hs : ∀ (a c : Bool) f g d w, memWf (if a then (takeTrap s o).modOwner o f
      else endWork (if c then endTrapped (takeTrap s o) g else takeTrap s o) d w).mem = true :=
    fun a c f g d w => ite_wf (modOwner_wf ht o f) (endWork_wf (ite_wf (endTrapped_wf ht g) ht) d w)
  refine .ite ?_ (.fault _)
  dsimp only
  split
  · exact .next h
  · exact .ite (.next h) (.next (tqMirror_wf (modOwner_wf (hs _ _ _ _ _ _) o _) o))

theorem execTrappedThreadResume_nextWf (g : Nat) (pc : Option Word) : NextWf (execTrappedThreadResume g pc s) := by
  refine .ite ?_ (.fault _)
  dsimp only
  split
  · exact .ite (.next h) (.next (takePhys_wf (setThread_wf (callDone_wf h g) g _) g true))
  · exact .next (callRefused_wf h g)

theorem execTrappedThreadEnd_nextWf (g : Nat) : NextWf (execTrappedThreadEnd g s) :=
  .ite (.next (ite_wf (endTrapped_wf (callDone_wf h g) g) (callRefused_wf h g))) (.fault _)

theorem execWatchdogExpiry_nextWf (d hart : Nat) : NextWf (execWatchdogExpiry d hart s) :=
  .ite (.next (ite_wf (recoverDie_wf h d) h)) (.fault _)

theorem execSupervisorFaultEscalation_nextWf (d : Nat) : NextWf (execSupervisorFaultEscalation d s) := by
  refine .ite ?_ (.fault _)
  split
  · have hl : ∀ f (l : List Nat) (t : State → Nat → List Nat),
        memWf (l.foldl (fun u lk => (t u lk).foldl stopThread u) (s.modDie d f)).mem = true :=
      fun f l t => foldl_wf (fun u lk hu => foldl_wf (fun _ g hv => stopThread_wf hv g) (t u lk) hu) l (modDie_wf h d f)
    exact .next (foldl_wf (fun _ lk hu => stopLaunch_wf hu lk _) _ (recoverDie_wf (hl _ _ launchThreads) d))
  · exact .next h

/-! ### Inlets and packets -/

theorem execDoorbellWrite_nextWf (id : Nat) (data : Word) : NextWf (execDoorbellWrite id data s) :=
  .ite (.next (presentTail_wf h id _ _)) (.next h)

theorem execNotifyWrite_nextWf (d : Nat) (msg : BitVec 256) : NextWf (execNotifyWrite d msg s) := by
  refine .ite ?_ (.fault _)
  dsimp only
  split
  · exact .next h
  · exact .ite (.next (putInlet_wf h _ _)) (.next (putInlet_wf h _ _))

theorem execInletPhaseRetry_nextWf (id : Nat) : NextWf (execInletPhaseRetry id s) :=
  .next (ite_wf (putInlet_wf (engineCount_wf h _ _ _) id _) h)

theorem execInletSlotAssign_nextWf (id : Nat) : NextWf (execInletSlotAssign id s) := by
  refine .ite (.next h) (.ite (.next h) ?_)
  split
  · exact .next h
  · exact .next h

theorem execWait_nextWf (id : Nat) : NextWf (execWait id s) := by
  unfold execWait
  dsimp only
  split
  · refine .ite (.next (completePkt_wf h id _ _ _ _ _ _)) ?_
    split
    · exact .next (takeWatch_wf h id _ _ _ _ _)
    · exact .next (ite_wf h (placeWait_wf h id _ _ _))
    · exact .next h
  · exact .next (startPacket_wf h id 3 fun b => startWait_wf h id b)

theorem execWaitLimitExpiry_nextWf (id : Nat) : NextWf (execWaitLimitExpiry id s) := by
  unfold execWaitLimitExpiry
  split
  · exact .next (ite_wf (completePkt_wf h id _ _ _ _ _ _) h)
  · exact .next h

theorem execCopy_nextWf (id : Nat) : NextWf (execCopy id s) := by
  refine .ite (.next (startPacket_wf h id 5 fun b => startCopy_wf h id b)) ?_
  split
  · exact .next (moveUnit_wf h id _ _ _ _ _ _ _ _)
  · exact .next h

/-! ### Owners, attestation, links, reset -/

theorem execBerthAssignment_nextWf (o b : Nat) : NextWf (execBerthAssignment o b s) := by
  have hl : ∀ old : Nat, memWf (if old = 0 then s else leaveBerth s old b).mem = true := fun old => ite_wf h (leaveBerth_wf h old b)
  have hk : ∀ (old : Nat) (c : Prop) [Decidable c] f, memWf (if c then
      (drawKey (if old = 0 then s else leaveBerth s old b) o).modOwner o f else if old = 0 then s else leaveBerth s old b).mem = true :=
    fun old _ _ f => ite_wf (modOwner_wf (drawKey_wf (hl old) o) o f) (hl old)
  exact .ite (.ite (.next h) (.next (wipeBerth_wf (modOwner_wf (hk _ _ _) o _) b))) (.fault _)

theorem execOwnerUnassignment_nextWf (o : Nat) : NextWf (execOwnerUnassignment o s) :=
  .ite (.next (ite_wf h (unassignOwner_wf h o))) (.fault _)

theorem connectedOp_nextWf (d : Nat) {f : State → State} (hf : memWf (f s).mem = true) : NextWf (connectedOp d s f) :=
  .ite (.next (ite_wf h hf)) (.fault _)

omit h in
theorem tdispOp_nextWf (o : Nat) {f : Tdisp → State} (hf : ∀ x, memWf (f x).mem = true) : NextWf (tdispOp o s f) :=
  .ite (.next (hf _)) (.fault _)

theorem execGetMeasurements_nextWf (d index : Nat) : NextWf (execGetMeasurements d index s) := by
  refine connectedOp_nextWf h d (ite_wf h (ite_wf h ?_))
  split
  · exact h
  · exact h

theorem tdispReply_wf (o : Nat) (ok : Bool) : memWf (tdispReply s o ok).mem = true := h

theorem execStopInterfaceRequest_nextWf (o : Nat) : NextWf (execStopInterfaceRequest o s) :=
  tdispOp_nextWf o fun _ => ite_wf h (settleOwner_wf (modOwner_wf (tdispReply_wf (stopOwner_wf h o) o true) o _) o)

theorem execTdispInterfaceError_nextWf (o : Nat) : NextWf (execTdispInterfaceError o s) :=
  tdispOp_nextWf o fun _ => ite_wf (stopOwner_wf h o) h

theorem leaveBank_wf (id : Nat) : memWf (leaveBank s id).mem = true := h

theorem execLinkRequestLost_nextWf (id : Nat) : NextWf (execLinkRequestLost id s) := by
  unfold execLinkRequestLost
  split
  · exact .next h
  · exact .ite (.next (leaveBank_wf (afterPerform_wf ((Written.dataError s _).wf h) _ 0) id)) (.next h)

omit h in
theorem execModuleReset_nextWf : NextWf (execModuleReset s) := by
  have hw : memWf (wipeModule s).mem = true := wipeModule_wf
  exact .next (ite_wf bootGood_wf hw)

end

end Sys2Proof.Machine
end

section
/-! PROOFS. O55: every step keeps the canonical form of memory (spec/07, spec/19). -/

namespace Sys2Proof.Machine

open Sys2Proof.Claims

section

variable {s : State} (h : memWf s.mem = true)

include h

/-- An instruction or an event keeps the form: one arm per meaning, those that share one together. -/
theorem exec_nextWf (i : Instr) : NextWf (exec i s) := by
  cases i with
  | nop | br =>
    dsimp only [exec, execNop, execBr]
    exact .run h fun _ _ hu => .ok (retire_wf hu _ _ _ _ _)
  | brot | setrb | phase =>
    dsimp only [exec, execBrot, execSetrb, execPhase]
    exact .run h fun _ _ hu => .ok (retire_wf (modThread_wf hu _ _) _ _ _ _ _)
  | getrb | ldpc | tbr | add | sub | addiC | addiD | mul | mulh | mulhu | mad | div | divu | rem | remu | and | or | xor | andn | shl
  | shr | sar | rol | min | max | minu | maxu | set | sel | bcnt | bext | liC | liD | mov | ext | abs | sget | bfget | bufget | cwp
  | chbind | mstat | tcount | pcnt | dstate | ecnt =>
    dsimp only [exec, execGetrb, execLdpc, execTbr, execAdd, execSub, execAddiC, execAddiD, execMul, execMulh, execMulhu,
      execMad, execDiv, execDivu, execRem, execRemu, execAnd, execOr, execXor, execAndn, execShl, execShr, execSar, execRol,
      execMin, execMax, execMinu, execMaxu, execSet, execSel, execBcnt, execBext, execLiC, execLiD, execMov, execExt, execAbs,
      execSget, execBfget, execBufget, execCwp, execChbind, execMstat, execTcount, execPcnt, execDstate, execEcnt]
    exact .run h fun _ _ hu => compute_okWf hu ..
  | bins | liHi =>
    dsimp only [exec, execBins, execLiHi]
    exact .run h fun _ _ hu => rmw_okWf hu ..
  | rx => exact execRx_nextWf h
  | bc => exact execBc_nextWf h ..
  | bcz => exact execBcz_nextWf h ..
  | call => exact execCall_nextWf h ..
  | callr => exact execCallr_nextWf h ..
  | jr => exact execJr_nextWf h ..
  | ret => exact execRet_nextWf h ..
  | loop => exact execLoop_nextWf h ..
  | halt st => exact execHalt_nextWf h st
  | yield st => exact execYield_nextWf h st
  | pwait => exact execPwait_nextWf h ..
  | isync => exact execIsync_nextWf h ..
  | ldM | ldN | lduM | lduN =>
    dsimp only [exec, execLdM, execLdN, execLduM, execLduN]
    exact loadOp_nextWf h ..
  | stM | stN =>
    dsimp only [exec, execStM, execStN]
    exact storeOp_nextWf h ..
  | ldp =>
    dsimp only [exec, execLdp]
    exact loadPairOp_nextWf h ..
  | stp =>
    dsimp only [exec, execStp]
    exact storePairOp_nextWf h ..
  | leaM | leaN =>
    dsimp only [exec, execLeaM, execLeaN]
    exact leaOp_nextWf h ..
  | sset => exact execSset_nextWf h ..
  | sadj => exact execSadj_nextWf h ..
  | fence | xfence | cwait =>
    dsimp only [exec, execFence, execXfence, execCwait]
    exact waits_nextWf h ..
  | bfmt => exact execBfmt_nextWf h ..
  | amo | swap | fadd =>
    dsimp only [exec, execAmo, execSwap, execFadd]
    exact atomicOp_nextWf h ..
  | cas => exact execCas_nextWf h ..
  | dadd => exact execDadd_nextWf h ..
  | sigupM | sigupN =>
    dsimp only [exec, execSigupM, execSigupN]
    exact sigupOp_nextWf h ..
  | sigwait => exact execSigwait_nextWf h ..
  | bar st => exact execBar_nextWf h st
  | barReset st => exact execBarReset_nextWf h st
  | barto => exact execBarto_nextWf h ..
  | qpoll => exact execQpoll_nextWf h ..
  | qcnt => exact execQcnt_nextWf h ..
  | rput => exact execRput_nextWf h ..
  | cpy => exact execCpy_nextWf h ..
  | cpy2 => exact execCpy2_nextWf h ..
  | cpyg | cpys =>
    dsimp only [exec, execCpyg, execCpys]
    exact indexCopy_nextWf h ..
  | bufdecl => exact execBufdecl_nextWf h ..
  | bufset => exact execBufset_nextWf h ..
  | vld | vst | vldg | vsts | vadd | vsub | vmul | vfma | vmin | vmax | vun | vcvt | vcmp | vsel | vred | vscan | vperm | vbcast | vdot
  | vfn | vand | vor | vxor | vshl | vshr | vrand | vins | vext | vmask =>
    dsimp only [exec, execVld, execVst, execVldg, execVsts, execVadd, execVsub, execVmul, execVfma, execVmin, execVmax,
      execVun, execVcvt, execVcmp, execVsel, execVred, execVscan, execVperm, execVbcast, execVdot, execVfn, execVand, execVor,
      execVxor, execVshl, execVshr, execVrand, execVins, execVext, execVmask]
    exact vectorIssue_nextWf h ..
  | mlease st => exact execMlease_nextWf h st _
  | mrel st => exact execMrel_nextWf h st
  | mldbM | mldbN | mzero | mmaM | mmaN | mmas | mdrainM | mdrainN | mscale =>
    dsimp only [exec, execMldbM, execMldbN, execMzero, execMmaM, execMmaN, execMmas, execMdrainM, execMdrainN, execMscale]
    exact matrixIssue_nextWf h ..
  | mwait st => exact execMwait_nextWf h st
  | spawn => exact execSpawn_nextWf h ..
  | tjoin st => exact execTjoin_nextWf h st
  | tret st => exact execTret_nextWf h st
  | waitw | waitwS =>
    dsimp only [exec, execWaitw, execWaitwS]
    exact waitwOp_nextWf h ..
  | tpost => exact execTpost_nextWf h ..
  | depsetM | depsetN | depdecM | depdecN =>
    dsimp only [exec, execDepsetM, execDepsetN, execDepdecM, execDepdecN]
    exact depOp_nextWf h ..
  | flnew => exact execFlnew_nextWf h ..
  | flput => exact execFlput_nextWf h ..
  | flget | flgetArg | flgetHdr =>
    dsimp only [exec, execFlget, execFlgetArg, execFlgetHdr]
    exact slotGet_nextWf h ..
  | flsend =>
    dsimp only [exec, execFlsend]
    exact handleOp_nextWf h _ _ _ fun _ j hu => sendSlot_wf hu _ j
  | flrecv st => exact execFlrecv_nextWf h st _
  | flnext => exact execFlnext_nextWf h ..
  | flrw | flins | fldel =>
    dsimp only [exec, execFlrw, execFlins, execFldel]
    exact rewriteOp_nextWf h ..
  | flpark =>
    dsimp only [exec, execFlpark]
    exact handleOp_nextWf h _ _ _ fun _ j hu => parkSlot_wf hu _ j _
  | flresume => exact execFlresume_nextWf h ..
  | fldrop =>
    dsimp only [exec, execFldrop]
    exact handleOp_nextWf h _ _ _ fun _ j hu => setSlot_wf hu _ j _
  | trap | brk | reservedHead =>
    dsimp only [exec, execTrap, execBrk, execReservedHead]
    exact .run h fun _ _ _ => .error _
  | sethnd => exact execSethnd_nextWf h ..
  | hret st => exact execHret_nextWf h st
  | rdsys => exact execRdsys_nextWf h ..
  | wrsys => exact execWrsys_nextWf h ..
  | fail st => exact execFail_nextWf h st _
  | haltCompletion => exact execHaltCompletion_nextWf h ..
  | parkConditionMet => exact execParkConditionMet_nextWf h ..
  | lineFetchArrival => exact execLineFetchArrival_nextWf h ..
  | relaxedLoadFill | relaxedStoreAck | ordinaryAccessCompletion | sigwaitSatisfied | calibrationResponseDue =>
    dsimp only [exec, execRelaxedLoadFill, execRelaxedStoreAck, execOrdinaryAccessCompletion, execSigwaitSatisfied,
      execCalibrationResponseDue]
    exact completeIf_nextWf h ..
  | bankAccessPerform => exact execBankAccessPerform_nextWf h ..
  | pageWalkComplete => exact execPageWalkComplete_nextWf h ..
  | faultRecordPost => exact execFaultRecordPost_nextWf h ..
  | wakeRegisterWrite => exact execWakeRegisterWrite_nextWf h ..
  | convertRegisterWrite => exact execConvertRegisterWrite_nextWf h ..
  | shootdownRegisterWrite => exact .ite (.next h) (.fault _)
  | shootdownComplete => exact execShootdownComplete_nextWf h ..
  | watchAllocated => exact execWatchAllocated_nextWf h ..
  | bartoLimitExpiry => exact execBartoLimitExpiry_nextWf h ..
  | barrierRelease => exact execBarrierRelease_nextWf h ..
  | queueEntryArrival => exact execQueueEntryArrival_nextWf h ..
  | actorCreditReturn => exact execActorCreditReturn_nextWf h ..
  | rputDelivery => exact execRputDelivery_nextWf h ..
  | copyAcceptance => exact execCopyAcceptance_nextWf h ..
  | copyUnitWrite => exact execCopyUnitWrite_nextWf h ..
  | copyCompletion => exact execCopyCompletion_nextWf h ..
  | vectorAcceptance => exact execVectorAcceptance_nextWf h ..
  | vectorResultWrite => exact execVectorResultWrite_nextWf h ..
  | leaseGrant => exact execLeaseGrant_nextWf h ..
  | matrixCommandAcceptance => exact execMatrixCommandAcceptance_nextWf h ..
  | matrixCommandExecution => exact execMatrixCommandExecution_nextWf h ..
  | stealRequest => exact execStealRequest_nextWf h ..
  | dispenserPlacement => exact execDispenserPlacement_nextWf h ..
  | launchRecordPlacement => exact execLaunchRecordPlacement_nextWf h ..
  | floeDeparture => exact execFloeDeparture_nextWf h ..
  | floeArrival => exact execFloeArrival_nextWf h ..
  | floeRefill => exact execFloeRefill_nextWf h ..
  | floeClaim => exact execFloeClaim_nextWf h ..
  | memoryStop => exact execMemoryStop_nextWf h ..
  | sluiceTick => exact execSluiceTick_nextWf h ..
  | rampSlotGrant => exact execRampSlotGrant_nextWf h ..
  | pinnedLaunchAdmission => exact execPinnedLaunchAdmission_nextWf h ..
  | ballastStep => exact .ite (.next (runSteps_wf h _ _)) (.fault _)
  | tileGate => exact execTileGate_nextWf h ..
  | gateHoldExpiry => exact execGateHoldExpiry_nextWf h ..
  | tileWakeRequest => exact execTileWakeRequest_nextWf h ..
  | inrushGrant => exact execInrushGrant_nextWf h ..
  | inrushPeriodEnd | driftDrainEnd | driftShiftEnd | calibrationModeSet => exact .ite (.next (ite_wf h h)) (.fault _)
  | overflowQuantumExpiry => exact .ite (.next (quantumStep_wf h _ _)) (.fault _)
  | overflowSwapDone => exact .ite (.next (swapStep_wf h _ _)) (.fault _)
  | preemption => exact execPreemption_nextWf h ..
  | trapRecordAppend => exact execTrapRecordAppend_nextWf h ..
  | trapRecordService => exact execTrapRecordService_nextWf h ..
  | trappedThreadResume => exact execTrappedThreadResume_nextWf h ..
  | trappedThreadEnd => exact execTrappedThreadEnd_nextWf h ..
  | watchdogExpiry => exact execWatchdogExpiry_nextWf h ..
  | doorbellWrite => exact execDoorbellWrite_nextWf h ..
  | notifyWrite => exact execNotifyWrite_nextWf h ..
  | inletPhaseRetry => exact execInletPhaseRetry_nextWf h ..
  | inletSlotAssign => exact execInletSlotAssign_nextWf h ..
  | nopPacket => exact .next (startPacket_wf h _ _ fun _ => endAtStart_wf h _ _)
  | launch => exact .next (startPacket_wf h _ _ (startLaunch_wf h _))
  | actors => exact .next (startPacket_wf h _ _ (startActors_wf h _))
  | wait => exact execWait_nextWf h ..
  | waitLimitExpiry => exact execWaitLimitExpiry_nextWf h ..
  | signal => exact .next (startPacket_wf h _ _ (startSignal_wf h _))
  | copy => exact execCopy_nextWf h ..
  | registerWrite => exact .next (writeReg_wf h _)
  | berthAssignment => exact execBerthAssignment_nextWf h ..
  | ownerUnassignment => exact execOwnerUnassignment_nextWf h ..
  | getVersion => exact .ite (.next h) (.fault _)
  | getCapabilities | getDigests | getCertificate | challenge =>
    dsimp only [exec, execGetCapabilities, execGetDigests, execGetCertificate, execChallenge]
    exact connectedOp_nextWf h _ h
  | negotiateAlgorithms =>
    dsimp only [exec, execNegotiateAlgorithms]
    exact connectedOp_nextWf h _ (ite_wf h h)
  | getMeasurements => exact execGetMeasurements_nextWf h ..
  | keyExchange =>
    dsimp only [exec, execKeyExchange]
    exact connectedOp_nextWf h _ h
  | finish | endSession =>
    dsimp only [exec, execFinish, execEndSession]
    exact connectedOp_nextWf h _ (ite_wf h h)
  | spdmUnsupportedRequest => exact .ite (.next h) (.fault _)
  | lockInterfaceRequest | startInterfaceRequest =>
    dsimp only [exec, execLockInterfaceRequest, execStartInterfaceRequest]
    exact tdispOp_nextWf _ fun _ => ite_wf h h
  | stopInterfaceRequest => exact execStopInterfaceRequest_nextWf h ..
  | tdispInterfaceError => exact execTdispInterfaceError_nextWf h ..
  | linkRequestLost => exact execLinkRequestLost_nextWf h ..
  | lifeCycleStateChange => exact .next (wipeModule_wf (s := s))
  | supervisorFaultEscalation => exact execSupervisorFaultEscalation_nextWf h ..
  | driftFreeze => exact execDriftFreeze_nextWf h
  | driftResume | deterministicResumeExpiry =>
    have hr : ∀ f (c : Prop) [Decidable c], memWf (if c then resumeAll s f else s).mem = true := fun f _ _ => ite_wf (resumeAll_wf h f) h
    dsimp only [exec, execDriftResume, execDeterministicResumeExpiry]
    split
    · exact .next (hr _ _)
    · exact .next h
  | primaryPromotion =>
    dsimp only [exec, execPrimaryPromotion]
    split
    · exact .next (ite_wf h h)
    · exact .next h
  | moduleReset => exact execModuleReset_nextWf
  | primaryHeartbeat => exact .next (ite_wf h h)

/-! ### Moves -/

theorem runThread_nextWf (g : Nat) : NextWf (runThread s g) := by
  have hg : memWf { s with cur := g }.mem = true := h
  unfold runThread
  dsimp only
  split
  · exact .next (enter_wf hg g)
  · split
    · exact exec_nextWf hg _
    · exact .run hg fun _ _ _ => .error _

theorem moveThread_nextWf (g : Nat) : NextWf (moveThread s g) := by
  have hr := runThread_nextWf (turnState_wf h g) g
  refine .ite ?_ (.next h)
  cases ho : runThread (turnState s g) g with
  | next u => exact .next (deliverRead_wf (hr.wf u ho) g)
  | fault f => exact .fault f
  | refused r => exact ⟨fun _ hu => by cases hu⟩

theorem barrelThread_nextWf (g : Nat) : NextWf (barrelThread s g) := by
  unfold barrelThread
  split
  · exact moveThread_nextWf h _
  · exact moveThread_nextWf h g

theorem barrel_nextWf (c : Nat) : NextWf (barrel s c) := by
  have hs := settleSlots_wf h c
  refine .ite (.next h) ?_
  dsimp only
  split
  · exact barrelThread_nextWf hs _
  · exact .next (ite_wf hs (modCore_wf hs c _))

theorem moveEvent_nextWf (i : Instr) : NextWf (moveEvent s i) := by
  unfold moveEvent
  split
  · exact .next (holdEvent_wf h _ i)
  · cases ho : exec i s with
    | next u => exact .next (settleOwners_wf (releaseHeld_wf ((exec_nextWf h i).wf u ho)))
    | fault f => exact .fault f
    | refused r => exact ⟨fun _ hu => by cases hu⟩

theorem doMove_nextWf (m : Move) : NextWf (doMove s m) := by
  cases m with
  | thread g => exact moveThread_nextWf h g
  | reach ids => exact .next (reachBanks_wf h _)
  | event i => exact .ite (moveEvent_nextWf h i) (.next h)
  | hand T ch => exact .next (copyHand_wf h T ch)
  | tick n => exact .next (moveTick_wf h n)
  | clock T n => exact .next (moveClock_wf h T n)
  | write w addr bytes => exact .next (moveWrite_wf h w addr bytes)
  | poison u => exact .next h
  | spoil g reg => exact .next (spoilReg_wf h g reg)
  | corrected d => exact .next (modDie_wf h d _)
  | flash d table image sig => exact .next (modDie_wf h d _)
  | hart d k x => exact .next (ite_wf (modDie_wf h d _) h)
  | faultTaken d => exact .next (takeFault_wf h d)
  | trapTaken o => exact .next (takeTrap_wf h o)
  | restore g => exact .next (restoreThread_wf h g)

theorem step_nextWf : NextWf (step s) := by
  have ha : ∀ l, memWf { s with agenda := l }.mem = true := fun _ => h
  show NextWf (advance s)
  unfold advance
  split
  · exact doMove_nextWf (ha _) _
  · exact barrel_nextWf h s.focus

end

/-- Settles O55: every function of the model that a move runs keeps the canonical form, in the order of their definitions. -/
theorem memoryStaysCanonical : Obligations.MemoryStaysCanonical := fun _ s' h hs => (step_nextWf h).wf s' hs

end Sys2Proof.Machine
end
